-- ==== Sys2Proof/Word.lean ====
section
/-!
DEFINITION. The word types of the machine (spec/01_numbers.md R13, spec/03_encoding.md R33, R38).
-/

namespace Sys2Proof

/-- One byte of memory. -/
abbrev Byte := BitVec 8

/-- One instruction word (R33). -/
abbrev IWord := BitVec 16

/-- The contents of a g register (R38). -/
abbrev Word := BitVec 64

/-- The contents of a v register: sixteen 32-bit lanes (R38, R130). -/
abbrev VWord := BitVec 512

/-- The contents of an m register: one bit for each lane (R38, R130). -/
abbrev Mask := BitVec 16

end Sys2Proof
end

