-- ==== Sys2Proof/Syntax.lean ====
section
/-!
DEFINITION. The instructions of Jaino and the events of the device, one constructor for each row of the opcode table
(spec/opcode_table.json; spec/03_encoding.md R56 for the instructions).
Register fields are resolved: a constructor holds the register that the instruction names, not the encoding's bits.
The stall count and the length belong to the bundle, not to the instruction (R41), so `Bundle` holds them.
-/

namespace Sys2Proof

/-- A g register number (R38). -/
abbrev GReg := Fin 32
/-- A c register number (R38). -/
abbrev CReg := Fin 16
/-- A p register number (R38). -/
abbrev PReg := Fin 8
/-- A v register number (R38). -/
abbrev VReg := Fin 16
/-- An m register number (R38). -/
abbrev MReg := Fin 8
/-- A tile register number (R38). -/
abbrev TReg := Fin 8
/-- A queue port number (R38, R162). -/
abbrev QPort := Fin 16
/-- A barrier number (R38, R170). -/
abbrev BReg := Fin 4

/-- The second source of a form-Ai instruction: the immediate of R37, extended to 64 bits, or a g register. -/
inductive Opd where
  | imm (v : Word)
  | reg (r : GReg)
  deriving DecidableEq, Repr

/-- The shift count of VSHL and VSHR (R136): the immediate read unsigned, or a v register. -/
inductive VOpd where
  | imm (v : Word)
  | reg (r : VReg)
  deriving DecidableEq, Repr

/-- The memory operand of R104: a base capability and an offset. -/
structure MemOp where
  base : CReg
  off  : Opd
  deriving DecidableEq, Repr

/-- The access sizes of R50. -/
inductive Size where
  | b | h | w | d
  deriving DecidableEq, Repr

/-- The scopes of R50 and R187. -/
inductive Scope where
  | core | arc | dev | sys
  deriving DecidableEq, Repr

/-- The condition codes of R49. -/
inductive Cond where
  | eq | ne | lt | ge | le | gt | ltu | geu | leu | gtu | un | ord
  deriving DecidableEq, Repr

/-- The rounding modes of R30. -/
inductive Rnd where
  | rne | rz | ru | rd | rs
  deriving DecidableEq, Repr

/-- The element formats of R48, the default code 0 left out. -/
inductive Elem where
  | i8 | i16 | i32 | i64 | fp16 | bf16 | fp32 | e4m3 | e5m2 | mxe4m3 | mxe5m2 | mxe2m1 | e2m1x | pt
  deriving DecidableEq, Repr

/-- The combining operations of VRED, VSCAN (R132) and RARITH (R206). -/
inductive RedOp where
  | add | min | max
  deriving DecidableEq, Repr

/-- The operations of AMO (R195). -/
inductive AmoOp where
  | swap | add | and | or | xor | min | max | minu | maxu | fadd
  deriving DecidableEq, Repr

/-- The activations of MEPI (R266, R267). -/
inductive Act where
  | none | relu | gelu | clamp
  deriving DecidableEq, Repr

/-- The modes of VTWO (R148). -/
inductive TwoMode where
  | intersect | union | difference
  deriving DecidableEq, Repr

/-- The governing lane mask and the treatment of masked-off lanes (R40, R131). -/
structure VM where
  mask : MReg
  zero : Bool
  deriving DecidableEq, Repr

/-- The operations of VMASK with their operands (R140). -/
inductive MaskOp where
  | mov (d b : MReg)
  | and (d x y : MReg)
  | or (d x y : MReg)
  | xor (d x y : MReg)
  | andn (d x y : MReg)
  | not (d b : MReg)
  | fromG (d : MReg) (b : GReg)
  | toG (d : GReg) (b : MReg)
  | first (d b : MReg)
  deriving DecidableEq, Repr

/-- The kinds of pairs a FENCE orders (R193). -/
structure FenceKinds where
  ll : Bool
  ls : Bool
  sl : Bool
  ss : Bool
  deriving DecidableEq, Repr

/-- A capability: two words and the tag (R83). -/
structure Cap where
  w0  : Word
  w1  : Word
  tag : Bool
  deriving DecidableEq, Repr

/-- Where an error of storage struck (R364): the UNIT codes 0 to 5. -/
inductive ErrUnit where
  | scratchpad | dram | sliceBuffer | nodeCache | icache | tier2 | control
  deriving DecidableEq, Repr

/-- One actor-table entry of the boot-placed supervisor launch or of any launch (R344). -/
structure Actor where
  handler : Nat
  kind    : Nat
  inmask  : BitVec 8
  outmask : BitVec 8
  rate    : BitVec 32
  binds   : List (BitVec 16)
  deriving DecidableEq, Repr

/-- A launch header as R343 lays it out, with the options word of LAUNCH (R348) and its actor table. -/
structure LaunchSpec where
  code     : Cap
  actorsC  : Cap
  args     : Cap
  notify   : Cap
  widths   : List Nat
  teamLv   : Nat
  arcLv    : Nat
  entry    : Nat
  fault    : Nat
  prio     : Nat
  tiles    : Nat
  barriers : Nat
  spill    : Nat
  trap     : BitVec 32
  window   : Nat
  vec      : Nat
  savrec   : Nat
  ovkib    : Nat
  dies     : Nat
  supv     : Bool
  scbchk   : Bool
  ovcap    : Cap
  table    : List Actor
  deriving DecidableEq, Repr

/-- What boot ROM and boot firmware bring in at BOOT_RESET (R368, R341): the boot image with the public key and the signature
r and s that come with it, Rhanik's image, the trim codes left in the boot record, the torus position left by firmware (R216), what firmware leaves in bonded DRAM
(object tables, code) and in die registers, and the supervisor launch that it places on the port clusters, with the pattern
books that come with it. -/
structure BootImage where
  image    : List Byte
  key      : Nat × Nat
  sig      : Nat × Nat
  rhanik   : List Byte
  heat     : List (Nat × Nat × BitVec 12)
  torus    : BitVec 32
  mem      : List (Nat × List Byte)
  regs     : List (Fin 4 × BitVec 12 × Word)
  launch   : Option LaunchSpec
  book     : List (Nat × List Word)
  deriving DecidableEq, Repr

/-- The instructions (rows with an encoding, and the sub-operations) and the events of the device. -/
inductive Instr where
  -- page 0 (spec/07_one_thread.md)
  | ill (word : Fin 5) (code : IWord)
  | nop
  | mov (d s : GReg)
  | movCap (d s : CReg)
  | movi (d : GReg) (v : Word)
  | add (d x y : GReg)
  | sub (d x y : GReg)
  | addi (d x : GReg) (v : Word)
  | and (d x y : GReg)
  | or (d x y : GReg)
  | xor (d x y : GReg)
  | shl (d x : GReg) (y : Opd)
  | shr (d x : GReg) (y : Opd)
  | sar (d x : GReg) (y : Opd)
  | mul (d x y : GReg)
  | cmp (c : Cond) (e : Elem) (p : PReg) (x y : GReg)
  | cmpi (c : Cond) (p : PReg) (x : GReg) (v : Word)
  | sel (d : GReg) (p : PReg) (x y : GReg)
  | ld (sz : Option Size) (d : GReg) (a : MemOp)
  | st (sz : Option Size) (s : GReg) (a : MemOp)
  | ldc (d : CReg) (a : MemOp)
  | stc (s : CReg) (a : MemOp)
  | cadd (d x : CReg) (y : Opd)
  | b (off : Word)
  | bc (p : PReg) (inv : Bool) (off : Word)
  | call (off : Word)
  | ret
  | jmp (a : CReg) (x : GReg)
  | jmpl (a : CReg) (x : GReg)
  | jtab (a : CReg) (x : GReg)
  | enq (ctl : Bool) (s : GReg) (q : QPort)
  | deq (d : GReg) (q : QPort) (pc : PReg)
  | done
  -- page 1
  | clz (d s : GReg)
  | ctz (d s : GReg)
  | popc (d s : GReg)
  | biti (three : Bool) (d x y : GReg)
  | bitd (three : Bool) (d x y : GReg)
  | bfx (d x : GReg) (y : Opd)
  | bfi (d x : GReg) (y : Opd)
  | mulh (u : Bool) (d x y : GReg)
  | div (u : Bool) (d x y : GReg)
  | rem (u : Bool) (d x y : GReg)
  | min (u : Bool) (d x y : GReg)
  | max (u : Bool) (d x y : GReg)
  | csetb (d x : CReg) (y : Opd)
  | cseta (d x : CReg) (y : Opd)
  | cgeta (d : GReg) (s : CReg)
  | cgeto (d : GReg) (s : CReg)
  | cgetl (d : GReg) (s : CReg)
  | cgetb (d : GReg) (s : CReg)
  | cres (d x : CReg) (y : GReg)
  | cfmt (d x : CReg) (y : GReg)
  | cgetf (d : GReg) (s : CReg)
  | fadd (r : Rnd) (e : Elem) (d x y : GReg)
  | fsub (r : Rnd) (e : Elem) (d x y : GReg)
  | fmul (r : Rnd) (e : Elem) (d x y : GReg)
  | ffma (r : Rnd) (e : Elem) (d x y : GReg)
  | fdiv (r : Rnd) (e : Elem) (d x y : GReg)
  | fsqrt (r : Rnd) (e : Elem) (d s : GReg)
  | fmin (e : Elem) (d x y : GReg)
  | fmax (e : Elem) (d x y : GReg)
  | fcmp (c : Cond) (e : Elem) (p : PReg) (x y : GReg)
  | fcvt (r : Rnd) (e : Elem) (d s : GReg)
  | fcvtf (r : Rnd) (e : Elem) (d s : GReg)
  | sext (sz : Size) (d s : GReg)
  | zext (sz : Size) (d s : GReg)
  -- page 2 (spec/09_vector.md)
  | vld (d : VReg) (a : MemOp) (m : MReg)
  | vst (s : VReg) (a : MemOp) (m : MReg)
  | vldx (e : Elem) (u : Bool) (d : VReg) (base : CReg) (idx : VReg) (vm : VM)
  | vstx (r : Rnd) (e : Elem) (s : VReg) (base : CReg) (idx : VReg) (m : MReg)
  | vadd (r : Rnd) (e : Elem) (d x y : VReg) (vm : VM)
  | vsub (r : Rnd) (e : Elem) (d x y : VReg) (vm : VM)
  | vmul (r : Rnd) (e : Elem) (d x y : VReg) (vm : VM)
  | vfma (r : Rnd) (e : Elem) (d x y : VReg) (vm : VM)
  | vmin (e : Elem) (u : Bool) (d x y : VReg) (vm : VM)
  | vmax (e : Elem) (u : Bool) (d x y : VReg) (vm : VM)
  | vand (d x y : VReg) (vm : VM)
  | vor (d x y : VReg) (vm : VM)
  | vxor (d x y : VReg) (vm : VM)
  | vshl (e : Elem) (d x : VReg) (y : VOpd) (m : MReg)
  | vshr (e : Elem) (arith : Bool) (d x : VReg) (y : VOpd) (m : MReg)
  | vcmp (c : Cond) (e : Elem) (d : MReg) (x y : VReg) (vm : VM)
  | vsel (d x y : VReg) (m : MReg)
  | vbcast (e : Elem) (d : VReg) (s : GReg) (vm : VM)
  | vext (e : Elem) (d : GReg) (s : VReg) (idx : Opd)
  | vins (e : Elem) (d : VReg) (s : GReg) (idx : Opd)
  | vred (op : RedOp) (r : Rnd) (e : Elem) (d : GReg) (s : VReg) (m : MReg)
  | vscan (op : RedOp) (r : Rnd) (e : Elem) (d s : VReg) (vm : VM)
  | vperm (d x y : VReg) (vm : VM)
  | vcvt (back : Bool) (r : Rnd) (e : Elem) (d s : VReg) (vm : VM)
  | vtwo (mode : TwoMode) (k : Fin 3) (p : PReg) (d x y : VReg) (vm : VM)
  | vcomp (e : Elem) (d s : VReg) (vm : VM)
  | vxpnd (e : Elem) (d s : VReg) (vm : VM)
  | vbiti (d x y : VReg) (vm : VM)
  | vclz (e : Elem) (d s : VReg) (vm : VM)
  | vpopc (e : Elem) (d s : VReg) (vm : VM)
  | vmask (p : PReg) (o : MaskOp) (vm : VM)
  -- page 3 (spec/11_one_core.md)
  | enqn (ctl : Bool) (p : PReg) (s : GReg) (q : QPort)
  | deqn (p : PReg) (d : GReg) (q : QPort) (pc : PReg)
  | qcnt (d : GReg) (q : QPort)
  | qctl (d : GReg) (q : QPort) (op : Opd)
  | qctlDiscard (d : GReg) (q : QPort)
  | qctlDisarm (d : GReg) (q : QPort)
  | qlh (q : QPort) (actor : Opd)
  | fire (d w : GReg)
  | firen (p : PReg) (d w : GReg)
  | arrive (leave : Bool) (d : GReg) (bar : BReg)
  | arrb (leave : Bool) (d : GReg) (bar : BReg) (n : GReg)
  | bwait (s : GReg) (bar : BReg)
  | bwaitn (p : PReg) (s : GReg) (bar : BReg)
  | falign
  | wid (d : GReg) (sel : Opd)
  | prio (v : Opd)
  -- page 4 (spec/13_many_cores.md, spec/11_one_core.md)
  | fence (k : FenceKinds) (sc : Scope)
  | lda (sz : Option Size) (sc : Scope) (d : GReg) (a : MemOp)
  | strel (sz : Option Size) (sc : Scope) (s : GReg) (a : MemOp)
  | ldver (d : GReg) (a : MemOp)
  | ldvern (p : PReg) (d : GReg) (a : MemOp)
  | stver (s : GReg) (a : MemOp)
  | reclaim (s : GReg) (a : MemOp)
  | amo (op : AmoOp) (sz : Option Size) (sc : Scope) (d : GReg) (a : MemOp)
  | cas (sz : Option Size) (sc : Scope) (p : PReg) (d : GReg) (a : CReg) (n : GReg)
  | rget (sc : Scope) (dst src : CReg) (n : GReg) (ctr : CReg)
  | rsend (sc : Scope) (dst src : CReg) (n : GReg) (ctr : CReg)
  | rgetx (sc : Scope) (dst src : CReg) (n : GReg) (ctr : CReg)
  | rsendx (sc : Scope) (dst src : CReg) (n : GReg) (ctr : CReg)
  | rsig (sc : Scope) (dst src : CReg) (n : GReg) (ctr : CReg)
  | rarith (op : RedOp) (ordered : Bool) (e : Elem) (dst src : CReg) (n : GReg)
  | cntw (d : GReg) (a : CReg)
  | cntwn (p : PReg) (d : GReg) (a : CReg)
  | cntrd (d : GReg) (a : CReg)
  -- page 5 (spec/19_matrix.md, spec/21_streamer.md)
  | mplane (p : Fin 16) (dst src : CReg) (n : GReg)
  | mma (planes : Option (Fin 16 × Fin 16)) (t : TReg) (ca cb : CReg) (k : GReg)
  | mmas (planes : Option (Fin 16 × Fin 16)) (t : TReg) (ca cb : CReg) (k : GReg)
  | mepi (act : Act) (r : Rnd) (e : Option Elem) (t : TReg) (dst : CReg) (n : GReg)
  | mepirp (t : TReg)
  | mzero (t : TReg)
  | mrel (t : TReg)
  | mstat (d : GReg) (t : TReg)
  | mstatc (d : GReg) (t : TReg)
  | mwait (t : TReg)
  | copy (d : GReg) (pb : CReg)
  | cut (planes : Fin 16) (p : PReg) (d : GReg) (dst src : CReg)
  | cocut (wide : Bool) (a : GReg) (dst src : CReg)
  | cresume (d : GReg) (pb : CReg)
  | cdrop (d : GReg) (pb : CReg)
  -- page 6 (spec/23_traversal.md, spec/25_pairs.md)
  | trav (h ray : CReg)
  | dtrav (pb : CReg)
  | pair (d : GReg) (pb stk : CReg)
  | wgres (p : PReg) (d : GReg) (q : CReg)
  | wgcom (a r : GReg)
  | wgabn (d r : GReg)
  | wgstat (d : GReg) (q : CReg) (op : GReg)
  | wgstatExtend (d : GReg) (q : CReg) (k : Fin 4)
  | wgstatBind (d : GReg) (q : CReg)
  | mom (d : GReg) (pb : CReg)
  | momd (d : GReg) (pb : CReg)
  -- page 7 (spec/07_one_thread.md, spec/27_launch.md)
  | trap (n : Word)
  | brk (n : Word)
  | srd (d : GReg) (n : Fin 26)
  | swr (s : GReg) (n : Fin 26)
  | mcall (num : Fin 128) (a b : Fin 64) (c : Fin 32) (v : Word)
  | rep (n : BitVec 5) (k : BitVec 32)
  | loopp (n : BitVec 6) (k : BitVec 32)
  | eret
  | objinv (whole : Bool) (d r : GReg)
  | mwr (d s : GReg)
  | mrd (d : GReg)
  | launch (d : GReg) (h ov : CReg)
  | close (d op : GReg)
  | closeResume (d : GReg)
  | closeCancel (d : GReg)
  | ctxsv (d : GReg) (a : CReg)
  | ctxld (d : GReg) (a : CReg)
  | waiti
  -- events of one thread and one core
  | macroMicroOperation (core ctx : Nat)
  | taskStart (core ctx : Nat)
  | taskPriorityRaise (core idx : Nat)
  | parkedBundleWake (core ctx : Nat)
  | parkOut (core : Nat)
  | falignReleaseTimeout (core ctx : Nat)
  | lightHandlerTask (team port : Nat)
  | messageAccept (core ctx : Nat)
  | ldverResend (core ctx : Nat)
  | stverBufferTimeout (core ctx : Nat)
  | cntwResend (core ctx : Nat)
  | firingRetire (firing : Nat)
  | homeRequestApply (core ctx : Nat)
  | interlockedResultArrival (core ctx : Nat)
  | waitiTimeout (core ctx : Nat)
  -- events of transfers, copies, engines
  | transferPacketApply (x unit : Nat)
  | transferComplete (x : Nat)
  | routerCombine (x y unit : Nat)
  | copyChunkLand (x chunk : Nat)
  | copyComplete (x : Nat)
  | streamerMarkerDelivery (core : Nat)
  | matrixCommandStart (core : Nat)
  | matrixChunk (core : Nat)
  | tileRelease (core tile : Nat)
  | matrixMarkerDelivery (core : Nat)
  | energyTokenRefill (draw : BitVec 16)
  | traversalCommandStart (cluster : Nat)
  | traversalMarkerDelivery (core : Nat)
  | recordDispatch (q : Nat)
  | engineFaultDelivery (core ctx : Nat)
  -- events of shipping and migration
  | shippedRecordArrival (cluster : Nat)
  | shipRecordResend (core ctx : Nat)
  | threadReturn (core ctx : Nat)
  | migrationMoveComplete (slice : Nat)
  | migrationWindowEnd (page : Nat)
  | redirectForward (slice : Nat)
  | redirectNotice (n : Nat)
  | redirectRetire (slice : Nat)
  -- events of the host, placement, closing
  | hostMessageWrite (off : Nat) (bytes : List Byte)
  | hostMemoryAccess (write : Bool) (off : Nat) (bytes : List Byte)
  | arcadePlacement (die : Nat)
  | teamResidency (core : Nat)
  | interruptWindowExpiry (vec : Nat)
  | closeTimerExpiry (die : Nat) (id : Nat)
  -- events of the fabric at one stop of a ring, and on the registers of a port cluster
  | ringAdvance (cluster stop : Nat) (cw resp : Bool)
  | fabricRegisterRead (core ctx : Nat)
  | fabricRegisterWrite (core ctx : Nat)
  | lgctlWrite (core ctx : Nat)
  | heatWrite (core ctx : Nat)
  | ringmapWrite (core ctx : Nat)
  | torusposWrite (core ctx : Nat)
  -- steps of MWR on the die registers, and the service events
  | dieRegisterWrite (die : Fin 4) (num : BitVec 12) (v : Word)
  | poolPush (die : Fin 4) (slice : Fin 64) (v : Word)
  | spareTakeover (die : Fin 4) (v : Word)
  | spareTakeoverComplete (die : Fin 4)
  | pwrbudWrite (v : Word)
  | attestBodyWrite (v : Word)
  | attestComplete
  | correctedError (unit : ErrUnit) (addr : Nat)
  | uncorrectableError (unit : ErrUnit) (die : Fin 4) (addr : Nat)
  | fatalError (die : Fin 4) (unit : ErrUnit) (addr : Word)
  | bootReset (img : BootImage)
  | memoryPortLinkChange (die : Fin 4) (up : Bool)
  -- events of the waveguides, the torus and the lane groups
  | tokenCapture (chan port : Nat)
  | tokenOwnerPass (chan : Nat)
  | torusHop (dir : Fin 6) (resp : Bool)
  | flitReceive (n : Fin 288) (flit : BitVec 288)
  | ackTimer (n : Fin 288)
  | ackReceive (n : Fin 288) (seq : BitVec 12)
  | nakReceive (n : Fin 288) (seq : BitVec 12)
  | autoWake (n : Fin 288)
  | wakeFlitReceive (n : Fin 288) (code : BitVec 2)
  | readyReceive (n : Fin 288) (elapsed : Nat)
  | widthFlitReceive (n : Fin 288) (code : BitVec 2)
  | wakeBudgetExpiry (n : Fin 288)
  | ringMoveReady (n : Fin 288)
  | ringMoveBudgetExpiry (n : Fin 288)
  | mpdSample (f : Fin 192) (r : Fin 26)
  | cdrLock (n : Fin 288)
  deriving DecidableEq, Repr

/-- A decoded bundle: the instruction, the stall count of R41 and the number of its words (R33). -/
structure Bundle where
  instr : Instr
  stall : BitVec 8
  words : Nat
  deriving DecidableEq, Repr

end Sys2Proof
end

