-- ==== Sys2Proof/Decode.lean ====
section
/-!
DEFINITION. The decoder of bundles (spec/03_encoding.md R33 to R41, R47 to R50, R53, R55, R56 and the entries of the
instructions), total on every list of words and rejecting by the reason codes of R53, and after it the encoder, which
chooses the words as R63 and R64 of spec/05_assembler.md do.
-/

namespace Sys2Proof

/-! ## Words and bundles -/

/-- Bits [13:9] of a word: the opcode within the page, or 31 for a prefix word (R33, R34). -/
def opOf (w : IWord) : Nat := w.toNat / 512 % 32

/-- Bits [15:14] of a word: the kind of a prefix word, or the low stall count of a base word (R34, R35). -/
def kindOf (w : IWord) : Nat := w.toNat / 16384

/-- Bits [8:0] of a word (R34, R35). -/
def payOf (w : IWord) : Nat := w.toNat % 512

/-- The parts of a bundle: its prefix words in order and its base word (R33). -/
structure Raw where
  pre  : List IWord
  base : IWord
  deriving DecidableEq, Repr

/-- Why a list of words is no instruction. -/
inductive DecFault where
  /-- The words end inside a bundle: the fetch goes on. -/
  | more
  /-- A fifth consecutive prefix word: trap 0x02 (R36). -/
  | chain (code : IWord)
  /-- Trap 0x01 with the REASON, WORD and CODE of R53. -/
  | illegal (reason word : Nat) (code : IWord)
  deriving DecidableEq, Repr

/-- Splits a list of words into the first bundle's prefix words and base word (R33, R36). -/
def splitBundle : Nat → List IWord → List IWord → Except DecFault Raw
  | _, _, [] => .error .more
  | 0, pre, w :: _ => if opOf w = 31 then .error (.chain w) else .ok ⟨pre, w⟩
  | k + 1, pre, w :: ws => if opOf w = 31 then splitBundle k (pre ++ [w]) ws else .ok ⟨pre, w⟩

/-- The index of the first prefix word of a kind, counted from `i`. -/
def firstOf (k : Nat) : List IWord → Nat → Option Nat
  | [], _ => none
  | w :: ws, i => if kindOf w = k then some i else firstOf k ws (i + 1)

/-- The index of the second prefix word of a kind. -/
def secondOf (k : Nat) : List IWord → Nat → Bool → Option Nat
  | [], _, _ => none
  | w :: ws, i, seen =>
    if kindOf w = k then (if seen then some i else secondOf k ws (i + 1) true) else secondOf k ws (i + 1) seen

/-- The payload of the first prefix word of a kind. DESIGN CHOICE: a bundle with two PFX.P takes trap 0x01 (R36), and the spec
does not say which of them names its page and stall count; the model reads the first (log 59). -/
def payloadOf (k : Nat) : List IWord → Option Nat
  | [] => none
  | w :: ws => if kindOf w = k then some (payOf w) else payloadOf k ws

namespace Raw

/-- The PFX.I payloads, most significant first (R37). -/
def imms (x : Raw) : List Nat := (x.pre.filter (fun w => kindOf w = 0)).map payOf
/-- The PFX.R payload (R35). -/
def rp (x : Raw) : Option Nat := payloadOf 1 x.pre
/-- The PFX.P payload (R35). -/
def pp (x : Raw) : Option Nat := payloadOf 2 x.pre
/-- The PFX.M payload (R35, R47). -/
def mp (x : Raw) : Option Nat := payloadOf 3 x.pre
/-- The PFX.M payload, zero without one (R47). -/
def mod (x : Raw) : Nat := x.mp.getD 0
/-- The PFX.R payload, zero without one (R39). -/
def rv (x : Raw) : Nat := x.rp.getD 0
/-- Whether the bundle has a PFX.R. -/
def hasR (x : Raw) : Bool := x.rp.isSome
/-- The index of the base word. -/
def nb (x : Raw) : Nat := x.pre.length
/-- The index of the PFX.R, or of the base word without one. -/
def ri (x : Raw) : Nat := (firstOf 1 x.pre 0).getD x.nb
/-- The index of the PFX.M. DESIGN CHOICE: of a bundle without one (SEXT and ZEXT, R100; RGETX and RSENDX, R201) R53's offending word
of reason 4 is absent, and the model charges the base word (log 11). -/
def mi (x : Raw) : Nat := (firstOf 3 x.pre 0).getD x.nb
/-- The page (R41). -/
def page (x : Raw) : Nat := x.pp.getD 0 / 64
/-- The stall count (R41). -/
def stall (x : Raw) : Nat := x.pp.getD 0 % 64 * 4 + kindOf x.base
/-- The operand bits of the base word (R34). -/
def o (x : Raw) : Nat := payOf x.base
/-- The high bits of field a in PFX.R (R35). -/
def ah (x : Raw) : Nat := x.rv / 128
/-- The high bits of field b in PFX.R (R35). -/
def bh (x : Raw) : Nat := x.rv / 32 % 4
/-- The field c of PFX.R (R35, R39). -/
def c (x : Raw) : Nat := x.rv % 32
/-- Field a of forms A, Ai and B with its high bits (R39). -/
def a (x : Raw) : Nat := x.ah * 16 + x.o / 32
/-- Field b of forms A and Ai with its high bits (R39). -/
def b (x : Raw) : Nat := x.bh * 16 + x.o / 2 % 16
/-- Field m of forms A and Ai (R34). -/
def m (x : Raw) : Nat := x.o % 2
/-- Field a of page 2, not extended (R40). -/
def va (x : Raw) : Nat := x.o / 32
/-- Field b of page 2, not extended (R40). -/
def vb (x : Raw) : Nat := x.o / 2 % 16
/-- The governing mask of page 2: ah with the high bit of bh (R40). -/
def vm (x : Raw) : Nat := x.ah * 2 + x.bh / 2
/-- Field a of form D (R39). -/
def da (x : Raw) : Nat := x.ah * 8 + x.o / 64
/-- Field b of form D (R39). -/
def db (x : Raw) : Nat := x.bh * 8 + x.o / 8 % 8
/-- The base field c of forms D (R34). -/
def dc (x : Raw) : Nat := x.o % 8

/-- The value composed of the PFX.I payloads above a base field of `w` bits (R37). -/
def composed (x : Raw) (w low : Nat) : Nat := x.imms.foldl (fun v p => v * 512 + p) 0 * 2 ^ w + low
/-- The width of the composed value (R37). -/
def immBits (x : Raw) (w : Nat) : Nat := 9 * x.imms.length + w

end Raw

/-- Sign extension of an `n`-bit value to 64 bits, as a word; an empty value is zero (R37). -/
def signed64 (n v : Nat) : Word :=
  if n = 0 then 0 else if v < 2 ^ (n - 1) then BitVec.ofNat 64 v else BitVec.ofInt 64 ((v : Int) - 2 ^ n)

/-- The sign-extended composed immediate over a base field of `w` bits (R37). -/
def Raw.simm (x : Raw) (w low : Nat) : Word := signed64 (x.immBits w) (x.composed w low)
/-- The zero-extended composed immediate over a base field of `w` bits (R37). -/
def Raw.uimm (x : Raw) (w low : Nat) : Word := BitVec.ofNat 64 (x.composed w low)

/-! ## Fields as registers and codes -/

def gOf (n : Nat) : GReg := ⟨n % 32, Nat.mod_lt _ (by decide)⟩
def cOf (n : Nat) : CReg := ⟨n % 16, Nat.mod_lt _ (by decide)⟩
def pOf (n : Nat) : PReg := ⟨n % 8, Nat.mod_lt _ (by decide)⟩
def vOf (n : Nat) : VReg := ⟨n % 16, Nat.mod_lt _ (by decide)⟩
def mOf (n : Nat) : MReg := ⟨n % 8, Nat.mod_lt _ (by decide)⟩
def tOf (n : Nat) : TReg := ⟨n % 8, Nat.mod_lt _ (by decide)⟩
def qOf (n : Nat) : QPort := ⟨n % 16, Nat.mod_lt _ (by decide)⟩
def bOf (n : Nat) : BReg := ⟨n % 4, Nat.mod_lt _ (by decide)⟩

/-- The predicate that a layout-P payload names: 0 names p1 (R47). -/
def predOf (n : Nat) : PReg := if n % 8 = 0 then 1 else pOf n

/-- The size code of R50; code 0 is the natural size. -/
def sizeOfCode : Nat → Option Size
  | 1 => some .b | 2 => some .h | 3 => some .w | 4 => some .d | _ => none
def Size.code : Size → Nat | .b => 1 | .h => 2 | .w => 3 | .d => 4
def sizeCode : Option Size → Nat | none => 0 | some z => z.code

def scopeOfCode : Nat → Scope
  | 0 => .core | 1 => .arc | 2 => .dev | _ => .sys
def Scope.code : Scope → Nat | .core => 0 | .arc => 1 | .dev => 2 | .sys => 3

def condOfCode : Nat → Option Cond
  | 0 => some .eq | 1 => some .ne | 2 => some .lt | 3 => some .ge | 4 => some .le | 5 => some .gt
  | 6 => some .ltu | 7 => some .geu | 8 => some .leu | 9 => some .gtu | 10 => some .un | 11 => some .ord | _ => none
def Cond.code : Cond → Nat
  | .eq => 0 | .ne => 1 | .lt => 2 | .ge => 3 | .le => 4 | .gt => 5
  | .ltu => 6 | .geu => 7 | .leu => 8 | .gtu => 9 | .un => 10 | .ord => 11

/-- The rounding code of R30; 5 to 7 are reserved. -/
def rndOfCode : Nat → Option Rnd
  | 0 => some .rne | 1 => some .rz | 2 => some .ru | 3 => some .rd | 4 => some .rs | _ => none
def Rnd.code : Rnd → Nat | .rne => 0 | .rz => 1 | .ru => 2 | .rd => 3 | .rs => 4

/-- The element code of R48, with the default that the entry gives code 0. -/
def elemOfCode (dflt : Elem) : Nat → Option Elem
  | 0 => some dflt
  | 1 => some .i8 | 2 => some .i16 | 3 => some .i32 | 4 => some .i64 | 5 => some .fp16 | 6 => some .bf16 | 7 => some .fp32
  | 9 => some .e4m3 | 10 => some .e5m2 | 11 => some .mxe4m3 | 12 => some .mxe5m2 | 13 => some .mxe2m1 | 14 => some .e2m1x
  | 15 => some .pt | _ => none
def Elem.code : Elem → Nat
  | .i8 => 1 | .i16 => 2 | .i32 => 3 | .i64 => 4 | .fp16 => 5 | .bf16 => 6 | .fp32 => 7 | .e4m3 => 9 | .e5m2 => 10
  | .mxe4m3 => 11 | .mxe5m2 => 12 | .mxe2m1 => 13 | .e2m1x => 14 | .pt => 15
/-- The code of an element suffix, 0 for the entry's default. -/
def elemCode (dflt e : Elem) : Nat := if e = dflt then 0 else e.code

def redOfCode : Nat → RedOp | 0 => .add | 1 => .min | _ => .max
def RedOp.code : RedOp → Nat | .add => 0 | .min => 1 | .max => 2

def amoOfCode : Nat → Option AmoOp
  | 0 => some .swap | 1 => some .add | 2 => some .and | 3 => some .or | 4 => some .xor | 5 => some .min | 6 => some .max
  | 7 => some .minu | 8 => some .maxu | 9 => some .fadd | _ => none
def AmoOp.code : AmoOp → Nat
  | .swap => 0 | .add => 1 | .and => 2 | .or => 3 | .xor => 4 | .min => 5 | .max => 6 | .minu => 7 | .maxu => 8 | .fadd => 9

def actOfCode : Nat → Act | 0 => .none | 1 => .relu | 2 => .gelu | _ => .clamp
def Act.code : Act → Nat | .none => 0 | .relu => 1 | .gelu => 2 | .clamp => 3

def modeOfCode : Nat → TwoMode | 0 => .intersect | 1 => .union | _ => .difference
def TwoMode.code : TwoMode → Nat | .intersect => 0 | .union => 1 | .difference => 2

/-! ## The element codes each entry accepts -/

def Elem.isInt : Elem → Bool
  | .i8 | .i16 | .i32 | .i64 => true
  | .fp16 | .bf16 | .fp32 | .e4m3 | .e5m2 | .mxe4m3 | .mxe5m2 | .mxe2m1 | .e2m1x | .pt => false

/-- The codes of the scalar floating-point instructions (R110). -/
def fpElems : List Elem := [.fp32, .fp16, .bf16]
/-- The codes of CMP (R101). -/
def cmpElems : List Elem := [.i64, .i8, .i16, .i32]
/-- The codes of FCVT and FCVTF (R111). -/
def cvtElems : List Elem := [.i64, .i32, .fp16, .bf16, .e4m3, .e5m2]
/-- The codes of VADD, VSUB, VMUL, VMIN and VMAX (R132). -/
def vArith : List Elem := [.fp32, .fp16, .bf16, .i8, .i16, .i32, .i64]
/-- The codes of VSHL, VSHR, VCLZ and VPOPC (R132). -/
def vInts : List Elem := [.i32, .i8, .i16, .i64]
/-- The codes of VBCAST, VEXT and VINS (R132). -/
def vMoves : List Elem := [.i32, .i8, .i16, .i64, .fp16, .bf16, .fp32]
/-- The codes of VRED, VSCAN, VCOMP, VXPND and VCMP (R132, R138). -/
def vWords : List Elem := [.fp32, .i32, .i64]
/-- The codes of VCVT (R132). -/
def vCvts : List Elem := [.i32, .fp16, .bf16, .e4m3, .e5m2]
/-- The codes of VLDX and VSTX (R132). -/
def vMems : List Elem := [.i32, .i8, .i16, .fp16, .bf16, .e4m3, .e5m2, .fp32]
/-- The codes of RARITH (R206). -/
def arithElems : List Elem := [.fp32, .i32, .i64, .bf16, .mxe4m3, .mxe5m2, .mxe2m1]
/-- The codes of MEPI (R266). -/
def epiElems : List Elem := [.fp32, .fp16, .bf16, .e4m3, .e5m2, .mxe4m3, .mxe5m2, .mxe2m1, .e2m1x]

/-- R49: conditions 6 to 9 are for integers, 10 and 11 for floating point. -/
def condFits (c : Cond) (isInt : Bool) : Bool :=
  match c with
  | .ltu | .geu | .leu | .gtu => isInt
  | .un | .ord => !isInt
  | .eq | .ne | .lt | .ge | .le | .gt => true

/-- The rounding modes of VADD, VSUB, VMUL and VFMA for an element format (R132). -/
def vRndOk (r : Rnd) (e : Elem) : Bool :=
  r = .rne || (!e.isInt && (r ≠ .rs || e = .fp32))
/-- The rounding modes of VRED and VSCAN (R132). -/
def redRndOk (op : RedOp) (r : Rnd) (e : Elem) : Bool :=
  r = .rne || (op = .add && !e.isInt && r ≠ .rs)
/-- The rounding modes of VCVT: in the widening direction only .I32 rounds (R132; log 12). -/
def cvtRndOk (back : Bool) (r : Rnd) (e : Elem) : Bool := r = .rne || !back || e = .i32
/-- The sizes of AMO (R195). -/
def amoSizeOk (op : AmoOp) (z : Option Size) : Bool :=
  match z with
  | none | some .w => true
  | some .d => op ≠ .fadd
  | some .b | some .h => false
/-- The sizes of CAS (R196). -/
def casSizeOk (z : Option Size) : Bool := z ≠ some .b && z ≠ some .h

/-! ## Checks, each a list of (reason, word index) faults of R53 -/

/-- A list of faults found in a bundle: reason and word index. -/
abbrev Faults := List (Nat × Nat)

/-- A fault unless the condition holds. -/
def need (ok : Bool) (reason word : Nat) : Faults := if ok then [] else [(reason, word)]

namespace Raw

/-- PFX.I is not accepted (R36). -/
def noI (x : Raw) : Faults := match firstOf 0 x.pre 0 with | none => [] | some i => [(2, i)]
/-- PFX.R is not accepted (R36). -/
def noR (x : Raw) : Faults := match firstOf 1 x.pre 0 with | none => [] | some i => [(2, i)]
/-- PFX.M is not accepted (R36). -/
def noM (x : Raw) : Faults := match firstOf 3 x.pre 0 with | none => [] | some i => [(2, i)]
/-- Form Ai: PFX.I only with m = 1 (R36). -/
def iWithM (x : Raw) : Faults := if x.m = 1 then [] else x.noI
/-- Field c of PFX.R must be zero. -/
def c0 (x : Raw) : Faults := need (x.c = 0) 3 x.ri
/-- The high bits of b must be zero. -/
def bh0 (x : Raw) : Faults := need (x.bh = 0) 3 x.ri
/-- The high bits of a must be zero. -/
def ah0 (x : Raw) : Faults := need (x.ah = 0) 3 x.ri
/-- Field m must be zero. -/
def m0 (x : Raw) : Faults := need (x.m = 0) 3 x.nb
/-- The base field b must be zero. -/
def b0 (x : Raw) : Faults := need (x.vb = 0) 3 x.nb
/-- The base field a must be zero. -/
def a0 (x : Raw) : Faults := need (x.va = 0) 3 x.nb
/-- The operand bits of form N must be zero (R92). -/
def o0 (x : Raw) : Faults := need (x.o = 0) 3 x.nb
/-- Page 2: bh[0] and c4 must be zero (R40). -/
def vz (x : Raw) : Faults := need (x.bh % 2 = 0 && x.c < 16) 3 x.ri
/-- Page 2: no lane mask may be named (R141). -/
def noVm (x : Raw) : Faults := need (x.vm = 0) 3 x.ri
/-- The word that a register specifier of field a or b is charged to: PFX.R if it supplied high bits (R53). DESIGN CHOICE: a
PFX.R whose bits of that field are all zero counts as supplying none, and the base word is charged (log 11). -/
def hiWord (x : Raw) (hi : Nat) : Nat := if hi = 0 then x.nb else x.ri
/-- Field a is below a file's size (R38). -/
def aLt (x : Raw) (n : Nat) : Faults := need (x.a < n) 5 (x.hiWord x.ah)
/-- Field b is below a file's size (R38). -/
def bLt (x : Raw) (n : Nat) : Faults := need (x.b < n) 5 (x.hiWord x.bh)
/-- Field c of PFX.R is below a file's size (R38). -/
def cLt (x : Raw) (n : Nat) : Faults := need (x.c < n) 5 x.ri
/-- A modifier value is accepted (R36, R53 reason 4). -/
def mOk (x : Raw) (ok : Bool) : Faults := need ok 4 x.mi
/-- Bits of the modifier must be zero (R36, R53 reason 3). -/
def mZ (x : Raw) (ok : Bool) : Faults := need ok 3 x.mi
/-- Form Ai without and with an immediate, m = 1 and PFX.R: field c must be zero (R90). -/
def immC0 (x : Raw) : Faults := if x.m = 1 then x.c0 else []

/-- The destination of the two-source shapes (R39, R90). -/
def td (x : Raw) : Nat := x.a
/-- The first source of the two-source shapes (R39, R90). -/
def tx (x : Raw) : Nat := if x.hasR then x.b else x.a
/-- The second source of the two-source shapes (R39, R90). -/
def ty (x : Raw) : Nat := if x.hasR then x.c else x.b
/-- The second source of the immediate shapes (R34, R90). DESIGN CHOICE: CSETA's immediate is sign-extended too, and its 64 bits are then read
unsigned: "unsigned 64 bits" in R106 is taken for the value and not for R37's exception (log 92). -/
def opd (x : Raw) : Opd := if x.m = 1 then .imm (x.simm 0 0) else .reg (gOf x.ty)
/-- The second source of CSETB, whose entry calls its immediate unsigned (R37, R107; log 92). -/
def opdU (x : Raw) : Opd := if x.m = 1 then .imm (x.uimm 0 0) else .reg (gOf x.ty)
/-- The same operand where only field c names the register (R141, R166 to R174). -/
def copd (x : Raw) (uns : Bool) : Opd :=
  if x.m = 1 then .imm (if uns then x.uimm 0 0 else x.simm 0 0) else .reg (gOf x.c)
/-- The memory operand of R104. -/
def mem (x : Raw) : MemOp := ⟨cOf x.b, if x.m = 1 then .imm (x.simm 0 0) else .reg (gOf x.c)⟩
/-- The memory operand of page 2 (R149). -/
def vmem (x : Raw) : MemOp := ⟨cOf x.vb, if x.m = 1 then .imm (x.simm 0 0) else .reg (gOf x.c)⟩
/-- Page-2 sources of the two-source shape (R131). -/
def vx (x : Raw) : Nat := if x.hasR then x.vb else x.va
def vy (x : Raw) : Nat := if x.hasR then x.c else x.vb
/-- The governing mask and zeroing of plain form A in page 2 (R40). -/
def vmz (x : Raw) : VM := ⟨mOf x.vm, x.m = 1⟩

/-- The faults of a two-source integer instruction over the g file (R90): `mOk` says whether m has a meaning. -/
def g2 (x : Raw) (mMeans : Bool) : Faults :=
  x.noI ++ (if mMeans then [] else x.m0) ++ x.aLt 32 ++ x.bLt 32
/-- The faults of a one-source instruction of pages 0 and 1 (R90). -/
def one (x : Raw) (mMeans : Bool) (na nb : Nat) : Faults :=
  x.noI ++ x.c0 ++ (if mMeans then [] else x.m0) ++ x.aLt na ++ x.bLt nb
/-- The faults of the immediate shapes (R90). DESIGN CHOICE: with m = 1 and no PFX.R the base field b has no use, and is ignored (log 84). -/
def g2i (x : Raw) (na nb : Nat) : Faults := x.iWithM ++ x.immC0 ++ x.aLt na ++ x.bLt nb
/-- The faults of a memory access of form Ai (R104): file size of field a. DESIGN CHOICE: with m = 1 field c of PFX.R has no use, and
is ignored (log 84). -/
def memA (x : Raw) (na : Nat) : Faults := x.iWithM ++ x.aLt na ++ x.bLt 16
/-- The faults of a page-2 instruction of plain form A. -/
def vA (x : Raw) : Faults := x.noI ++ x.vz

/-- Layout F: rounding, element and the entry's own bits (R47). -/
def rnd (x : Raw) : Option Rnd := rndOfCode (x.mod / 64)
def rndD (x : Raw) : Rnd := x.rnd.getD .rne
def elem (x : Raw) (d : Elem) : Option Elem := elemOfCode d (x.mod / 4 % 16)
def elemD (x : Raw) (d : Elem) : Elem := (x.elem d).getD d
def own (x : Raw) : Nat := x.mod % 4
/-- Layout F is accepted: rounding not reserved and `r` of it, element in the list, own bits in range. -/
def fOk (x : Raw) (l : List Elem) (own : Nat → Bool) (r : Rnd → Elem → Bool) : Faults :=
  x.mOk (match x.rnd, x.elem (l.headD .fp32) with
    | some rn, some e => l.contains e && own x.own && r rn e
    | _, _ => false)
/-- Layout K: condition and element (R47). -/
def cond (x : Raw) : Option Cond := condOfCode (x.mod / 32)
def condD (x : Raw) : Cond := x.cond.getD .eq
def kElem (x : Raw) (d : Elem) : Elem := (elemOfCode d (x.mod / 2 % 16)).getD d
def kOk (x : Raw) (l : List Elem) : Faults :=
  x.mZ (x.mod % 2 = 0) ++
  x.mOk (match x.cond, elemOfCode (l.headD .fp32) (x.mod / 2 % 16) with
    | some c, some e => l.contains e && condFits c e.isInt
    | _, _ => false)
/-- Layout P: the predicate destination (R47). -/
def pred (x : Raw) : PReg := predOf (x.mod / 64)
/-- Layout P with all own bits zero (R164, R313). -/
def p0 (x : Raw) : Faults := x.mZ (x.mod % 64 = 0)
/-- Layout S: size, scope and own bits (R47, R50). -/
def size (x : Raw) : Option Size := sizeOfCode (x.mod / 64)
def scope (x : Raw) : Scope := scopeOfCode (x.mod / 16 % 4)
def sOwn (x : Raw) : Nat := x.mod % 16
/-- Layout M: the plane counts minus 1 (R47). -/
def pa (x : Raw) : Fin 16 := ⟨x.mod / 32 % 16, Nat.mod_lt _ (by decide)⟩
def pb (x : Raw) : Fin 16 := ⟨x.mod / 2 % 16, Nat.mod_lt _ (by decide)⟩

/-- The predicate and the compared values of CMP and FCMP (R101). -/
def cmpP (x : Raw) : PReg := if x.hasR then pOf x.a else 1
def cmpX (x : Raw) : Nat := if x.hasR then x.b else x.a
def cmpY (x : Raw) : Nat := if x.hasR then x.c else x.b
def cmpF (x : Raw) : Faults := x.noI ++ x.m0 ++ x.aLt (if x.hasR then 8 else 32) ++ x.bLt 32

/-- The kinds of a FENCE; none selected selects all four (R193). -/
def kinds (x : Raw) : FenceKinds :=
  if x.sOwn = 0 then ⟨true, true, true, true⟩
  else ⟨x.sOwn % 2 = 1, x.sOwn / 2 % 2 = 1, x.sOwn / 4 % 2 = 1, x.sOwn / 8 % 2 = 1⟩

/-- The faults of a one-sided transfer (R198). -/
def xf (x : Raw) (k0 : Bool) : Faults :=
  x.noI ++ x.m0 ++ x.mOk (x.mod / 64 = 0 && (k0 || x.sOwn ≠ 0)) ++ x.aLt 16 ++ x.bLt 16

end Raw

/-! ## The slots of the opcode map (R56) -/

/-- What a slot's decoder answers: the faults found and the instruction (meaningful when there is no fault). -/
abbrev Slot := Faults × Instr

/-- Page 0 (R56, spec/07_one_thread.md). DESIGN CHOICE: field c of PFX.R, which R114 gives no use in JTAB, is ignored there (log 84). -/
def page0 (x : Raw) : Nat → Option Slot
  | 1 => some (x.noI ++ x.noR ++ x.noM ++ x.o0, .nop)
  | 2 => some (x.noM ++ x.one true (if x.m = 1 then 16 else 32) (if x.m = 1 then 16 else 32),
      if x.m = 1 then .movCap (cOf x.a) (cOf x.b) else .mov (gOf x.a) (gOf x.b))
  | 3 => some (x.noM ++ x.bh0 ++ x.c0 ++ x.aLt 32, .movi (gOf x.a) (x.simm 5 (x.o % 32)))
  | 4 => some (x.noM ++ x.g2 false, .add (gOf x.td) (gOf x.tx) (gOf x.ty))
  | 5 => some (x.noM ++ x.g2 false, .sub (gOf x.td) (gOf x.tx) (gOf x.ty))
  | 6 => some (x.noM ++ x.bh0 ++ x.aLt 32, .addi (gOf x.a) (gOf (if x.hasR then x.c else x.a)) (x.simm 5 (x.o % 32)))
  | 7 => some (x.noM ++ x.g2 false, .and (gOf x.td) (gOf x.tx) (gOf x.ty))
  | 8 => some (x.noM ++ x.g2 false, .or (gOf x.td) (gOf x.tx) (gOf x.ty))
  | 9 => some (x.noM ++ x.g2 false, .xor (gOf x.td) (gOf x.tx) (gOf x.ty))
  | 10 => some (x.noM ++ x.g2i 32 32, .shl (gOf x.td) (gOf x.tx) x.opd)
  | 11 => some (x.noM ++ x.g2i 32 32, .shr (gOf x.td) (gOf x.tx) x.opd)
  | 12 => some (x.noM ++ x.g2i 32 32, .sar (gOf x.td) (gOf x.tx) x.opd)
  | 13 => some (x.noM ++ x.g2 false, .mul (gOf x.td) (gOf x.tx) (gOf x.ty))
  | 14 => some (x.cmpF ++ x.kOk cmpElems, .cmp x.condD (x.kElem .i64) x.cmpP (gOf x.cmpX) (gOf x.cmpY))
  | 15 => some (x.bh0 ++ need (x.c < 8) 3 x.ri ++ x.mZ (x.mod / 64 = 0 && x.mod % 4 = 0)
        ++ x.mOk (x.mod / 4 % 16 < 10) ++ x.aLt 32,
      .cmpi ((condOfCode (x.mod / 4 % 16)).getD .eq) (if x.hasR then pOf x.c else 1) (gOf x.a) (x.simm 5 (x.o % 32)))
  | 16 => some (x.noI ++ x.noM, .sel (gOf x.da) (pOf x.dc) (gOf x.db) (gOf x.c))
  | 17 => some (x.memA 32 ++ x.mOk (x.mod / 64 < 5 && x.mod % 64 = 0), .ld x.size (gOf x.a) x.mem)
  | 18 => some (x.memA 32 ++ x.mOk (x.mod / 64 < 5 && x.mod % 64 = 0), .st x.size (gOf x.a) x.mem)
  | 19 => some (x.memA 16 ++ x.mOk (x.mod = 0), .ldc (cOf x.a) x.mem)
  | 20 => some (x.memA 16 ++ x.mOk (x.mod = 0), .stc (cOf x.a) x.mem)
  | 21 => some (x.noM ++ x.g2i 16 (if x.hasR || x.m = 1 then 16 else 32) ++ need (!x.hasR || x.b < 16) 5 (x.hiWord x.bh),
      .cadd (cOf x.td) (cOf x.tx) x.opd)
  | 22 => some (x.noR ++ x.noM, .b (x.simm 9 x.o))
  | 23 => some (x.noR ++ x.noM, .bc (pOf (x.o / 64)) (x.o / 32 % 2 = 1) (x.simm 5 (x.o % 32)))
  | 24 => some (x.noR ++ x.noM, .call (x.simm 9 x.o))
  | 25 => some (x.noI ++ x.noR ++ x.noM ++ x.o0, .ret)
  | 26 => some (x.noM ++ x.one true 16 32, if x.m = 1 then .jmpl (cOf x.a) (gOf x.b) else .jmp (cOf x.a) (gOf x.b))
  | 27 => some (x.noI ++ x.noM ++ x.m0 ++ x.aLt 16 ++ x.bLt 32, .jtab (cOf x.a) (gOf x.b))
  | 28 => some (x.noI ++ x.noM ++ x.bh0 ++ x.c0 ++ x.aLt 32, .enq (x.m = 1) (gOf x.a) (qOf x.vb))
  | 29 => some (x.noI ++ x.noM ++ x.bh0 ++ need (x.c < 8) 3 x.ri ++ x.m0 ++ x.aLt 32, .deq (gOf x.a) (qOf x.vb) (pOf x.c))
  | 30 => some (x.noI ++ x.noR ++ x.noM ++ x.o0, .done)
  | _ => none

/-- The scalar floating-point shape (R110). -/
def Raw.fp (x : Raw) (rounds : Bool) : Faults :=
  x.g2 false ++ x.fOk fpElems (fun w => w = 0) (fun r _ => rounds || r = .rne)

/-- Page 1 (R56, spec/07_one_thread.md). R111 gives no reason for a set bit in [1:0] of the payload of FCVT and FCVTF; the model reports
reason 4, as R110 does for its instructions (log 82, DESIGN CHOICE). -/
def page1 (x : Raw) : Nat → Option Slot
  | 0 => some (x.noM ++ x.one false 32 32, .clz (gOf x.a) (gOf x.b))
  | 1 => some (x.noM ++ x.one false 32 32, .ctz (gOf x.a) (gOf x.b))
  | 2 => some (x.noM ++ x.one false 32 32, .popc (gOf x.a) (gOf x.b))
  | 3 => some (x.noM ++ x.g2 true, .biti (x.m = 1) (gOf x.td) (gOf x.tx) (gOf x.ty))
  | 4 => some (x.noM ++ x.g2 true, .bitd (x.m = 1) (gOf x.td) (gOf x.tx) (gOf x.ty))
  | 5 => some (x.noM ++ x.g2i 32 32, .bfx (gOf x.td) (gOf x.tx) x.opd)
  | 6 => some (x.noM ++ x.g2i 32 32, .bfi (gOf x.td) (gOf x.tx) x.opd)
  | 7 => some (x.noM ++ x.g2 true, .mulh (x.m = 1) (gOf x.td) (gOf x.tx) (gOf x.ty))
  | 8 => some (x.noM ++ x.g2 true, .div (x.m = 1) (gOf x.td) (gOf x.tx) (gOf x.ty))
  | 9 => some (x.noM ++ x.g2 true, .rem (x.m = 1) (gOf x.td) (gOf x.tx) (gOf x.ty))
  | 10 => some (x.noM ++ x.g2 true, .min (x.m = 1) (gOf x.td) (gOf x.tx) (gOf x.ty))
  | 11 => some (x.noM ++ x.g2 true, .max (x.m = 1) (gOf x.td) (gOf x.tx) (gOf x.ty))
  | 12 => some (x.noM ++ x.g2i 16 32 ++ need (!x.hasR || x.b < 16) 5 (x.hiWord x.bh), .csetb (cOf x.td) (cOf x.tx) x.opdU)
  | 13 => some (x.noM ++ x.g2i 16 32 ++ need (!x.hasR || x.b < 16) 5 (x.hiWord x.bh), .cseta (cOf x.td) (cOf x.tx) x.opd)
  | 14 => some (x.noM ++ x.one true 32 16, if x.m = 1 then .cgeto (gOf x.a) (cOf x.b) else .cgeta (gOf x.a) (cOf x.b))
  | 15 => some (x.noM ++ x.one true 32 16, if x.m = 1 then .cgetb (gOf x.a) (cOf x.b) else .cgetl (gOf x.a) (cOf x.b))
  | 16 => some (x.noM ++ x.noI ++ x.m0 ++ x.aLt 16 ++ x.bLt (if x.hasR then 16 else 32), .cres (cOf x.td) (cOf x.tx) (gOf x.ty))
  | 17 => some (x.noM ++ x.noI ++ x.m0 ++ x.aLt 16 ++ x.bLt (if x.hasR then 16 else 32), .cfmt (cOf x.td) (cOf x.tx) (gOf x.ty))
  | 18 => some (x.noM ++ x.one false 32 16, .cgetf (gOf x.a) (cOf x.b))
  | 19 => some (x.fp true, .fadd x.rndD (x.elemD .fp32) (gOf x.td) (gOf x.tx) (gOf x.ty))
  | 20 => some (x.fp true, .fsub x.rndD (x.elemD .fp32) (gOf x.td) (gOf x.tx) (gOf x.ty))
  | 21 => some (x.fp true, .fmul x.rndD (x.elemD .fp32) (gOf x.td) (gOf x.tx) (gOf x.ty))
  | 22 => some (x.fp true, .ffma x.rndD (x.elemD .fp32) (gOf x.td) (gOf x.tx) (gOf x.ty))
  | 23 => some (x.fp true, .fdiv x.rndD (x.elemD .fp32) (gOf x.td) (gOf x.tx) (gOf x.ty))
  | 24 => some (x.one false 32 32 ++ x.fOk fpElems (fun w => w = 0) (fun _ _ => true),
      .fsqrt x.rndD (x.elemD .fp32) (gOf x.a) (gOf x.b))
  | 25 => some (x.fp false, .fmin (x.elemD .fp32) (gOf x.td) (gOf x.tx) (gOf x.ty))
  | 26 => some (x.fp false, .fmax (x.elemD .fp32) (gOf x.td) (gOf x.tx) (gOf x.ty))
  | 27 => some (x.cmpF ++ x.kOk fpElems, .fcmp x.condD (x.kElem .fp32) x.cmpP (gOf x.cmpX) (gOf x.cmpY))
  | 28 => some (x.one true 32 32 ++ x.fOk cvtElems (fun w => w = 0) (fun _ _ => true),
      if x.m = 1 then .fcvtf x.rndD (x.elemD .i64) (gOf x.a) (gOf x.b) else .fcvt x.rndD (x.elemD .i64) (gOf x.a) (gOf x.b))
  | 29 => some (x.one false 32 32 ++ x.mOk (1 ≤ x.mod / 64 && x.mod / 64 ≤ 3 && x.mod % 64 = 0),
      .sext (x.size.getD .b) (gOf x.a) (gOf x.b))
  | 30 => some (x.one false 32 32 ++ x.mOk (1 ≤ x.mod / 64 && x.mod / 64 ≤ 3 && x.mod % 64 = 0),
      .zext (x.size.getD .b) (gOf x.a) (gOf x.b))
  | _ => none

/-- The operand fields of VMASK by its operation (R140). -/
def Raw.maskOp (x : Raw) : MaskOp :=
  match x.mod % 16 with
  | 0 => .mov (mOf x.va) (mOf x.vb)
  | 1 => .and (mOf x.va) (mOf x.vx) (mOf x.vy)
  | 2 => .or (mOf x.va) (mOf x.vx) (mOf x.vy)
  | 3 => .xor (mOf x.va) (mOf x.vx) (mOf x.vy)
  | 4 => .andn (mOf x.va) (mOf x.vx) (mOf x.vy)
  | 5 => .not (mOf x.va) (mOf x.vb)
  | 6 => .fromG (mOf x.va) (gOf x.vb)
  | 7 => .toG (gOf x.va) (mOf x.vb)
  | _ => .first (mOf x.va) (mOf x.vb)

/-- The register faults of VMASK by its operation (R131, R140): c is zero in the one-source shape, and its high bits are zero
in every shape; the reserved operations have no shape. -/
def Raw.maskF (x : Raw) : Faults :=
  let one := x.mod % 16 = 0 || (5 ≤ x.mod % 16 && x.mod % 16 ≤ 8)
  (if one then x.c0 else need (x.c < 8) 3 x.ri)
    ++ need (x.mod % 16 = 7 || x.va < 8) 5 x.nb ++ need (x.mod % 16 = 6 || x.vb < 8) 5 x.nb

/-- Page 2 (R56, spec/09_vector.md). VMTOG with m = 1 is accepted, and m has no effect: the last bullet of R131 is read of a whole entry, and
VMASK's has m destinations (log 83, DESIGN CHOICE). With m = 1 in form Ai (VLD, VST, VSHL, VSHR, VEXT, VINS) the bits c3 to c0 of PFX.R
have no use, and are ignored (log 84, DESIGN CHOICE). -/
def page2 (x : Raw) : Nat → Option Slot
  | 0 => some (x.noM ++ x.iWithM ++ x.vz, .vld (vOf x.va) x.vmem (mOf x.vm))
  | 1 => some (x.noM ++ x.iWithM ++ x.vz, .vst (vOf x.va) x.vmem (mOf x.vm))
  | 2 => some (x.vA ++ x.fOk vMems (fun w => w < 2) (fun r _ => r = .rne),
      .vldx (x.elemD .i32) (x.own = 1) (vOf x.va) (cOf x.vb) (vOf x.c) x.vmz)
  | 3 => some (x.vA ++ x.m0 ++ x.fOk vMems (fun w => w = 0) (fun r e => r = .rne || !e.isInt),
      .vstx x.rndD (x.elemD .i32) (vOf x.va) (cOf x.vb) (vOf x.c) (mOf x.vm))
  | 4 => some (x.vA ++ x.fOk vArith (fun w => w = 0) vRndOk, .vadd x.rndD (x.elemD .fp32) (vOf x.va) (vOf x.vx) (vOf x.vy) x.vmz)
  | 5 => some (x.vA ++ x.fOk vArith (fun w => w = 0) vRndOk, .vsub x.rndD (x.elemD .fp32) (vOf x.va) (vOf x.vx) (vOf x.vy) x.vmz)
  | 6 => some (x.vA ++ x.fOk vArith (fun w => w = 0) vRndOk, .vmul x.rndD (x.elemD .fp32) (vOf x.va) (vOf x.vx) (vOf x.vy) x.vmz)
  | 7 => some (x.vA ++ x.fOk fpElems (fun w => w = 0) vRndOk, .vfma x.rndD (x.elemD .fp32) (vOf x.va) (vOf x.vx) (vOf x.vy) x.vmz)
  | 8 => some (x.vA ++ x.fOk vArith (fun w => w = 0 || (w = 1 && (x.elemD .fp32).isInt)) (fun r _ => r = .rne),
      .vmin (x.elemD .fp32) (x.own = 1) (vOf x.va) (vOf x.vx) (vOf x.vy) x.vmz)
  | 9 => some (x.vA ++ x.fOk vArith (fun w => w = 0 || (w = 1 && (x.elemD .fp32).isInt)) (fun r _ => r = .rne),
      .vmax (x.elemD .fp32) (x.own = 1) (vOf x.va) (vOf x.vx) (vOf x.vy) x.vmz)
  | 10 => some (x.noM ++ x.vA, .vand (vOf x.va) (vOf x.vx) (vOf x.vy) x.vmz)
  | 11 => some (x.noM ++ x.vA, .vor (vOf x.va) (vOf x.vx) (vOf x.vy) x.vmz)
  | 12 => some (x.noM ++ x.vA, .vxor (vOf x.va) (vOf x.vx) (vOf x.vy) x.vmz)
  | 13 => some (x.iWithM ++ x.vz ++ x.fOk vInts (fun w => w = 0) (fun r _ => r = .rne),
      .vshl (x.elemD .i32) (vOf x.va) (vOf x.vx) (if x.m = 1 then .imm (x.uimm 0 0) else .reg (vOf x.vy)) (mOf x.vm))
  | 14 => some (x.iWithM ++ x.vz ++ x.fOk vInts (fun w => w < 2) (fun r _ => r = .rne),
      .vshr (x.elemD .i32) (x.own = 1) (vOf x.va) (vOf x.vx) (if x.m = 1 then .imm (x.uimm 0 0) else .reg (vOf x.vy)) (mOf x.vm))
  | 15 => some (x.vA ++ need (x.va < 8) 5 x.nb ++ x.kOk vWords,
      .vcmp x.condD (x.kElem .fp32) (mOf x.va) (vOf x.vx) (vOf x.vy) x.vmz)
  | 16 => some (x.noM ++ x.vA ++ x.m0, .vsel (vOf x.va) (vOf x.vx) (vOf x.vy) (mOf x.vm))
  | 17 => some (x.vA ++ x.c0 ++ x.fOk vMoves (fun w => w = 0) (fun r _ => r = .rne),
      .vbcast (x.elemD .i32) (vOf x.va) (gOf x.vb) x.vmz)
  | 18 => some (x.iWithM ++ x.vz ++ x.noVm ++ x.fOk vMoves (fun w => w = 0) (fun r _ => r = .rne),
      .vext (x.elemD .i32) (gOf x.va) (vOf x.vb) (x.copd true))
  | 19 => some (x.iWithM ++ x.vz ++ x.noVm ++ x.fOk vMoves (fun w => w = 0) (fun r _ => r = .rne),
      .vins (x.elemD .i32) (vOf x.va) (gOf x.vb) (x.copd true))
  | 20 => some (x.vA ++ x.c0 ++ x.m0 ++ x.fOk vWords (fun w => w < 3) (redRndOk (redOfCode x.own)),
      .vred (redOfCode x.own) x.rndD (x.elemD .fp32) (gOf x.va) (vOf x.vb) (mOf x.vm))
  | 21 => some (x.vA ++ x.c0 ++ x.fOk vWords (fun w => w < 3) (redRndOk (redOfCode x.own)),
      .vscan (redOfCode x.own) x.rndD (x.elemD .fp32) (vOf x.va) (vOf x.vb) x.vmz)
  | 22 => some (x.noM ++ x.vA, .vperm (vOf x.va) (vOf x.vx) (vOf x.vy) x.vmz)
  | 23 => some (x.vA ++ x.c0 ++ x.fOk vCvts (fun w => w < 2) (cvtRndOk (x.own = 1)),
      .vcvt (x.own = 1) x.rndD (x.elemD .i32) (vOf x.va) (vOf x.vb) x.vmz)
  | 24 => some (x.vA ++ x.mOk (x.mod % 4 < 3 && x.mod / 4 % 4 < 3 && x.mod / 16 % 4 = 0),
      .vtwo (modeOfCode (x.mod % 4)) ⟨x.mod / 4 % 4 % 3, Nat.mod_lt _ (by decide)⟩ x.pred (vOf x.va) (vOf x.vx) (vOf x.vy) x.vmz)
  | 25 => some (x.vA ++ x.c0 ++ x.fOk [.i32, .fp32, .i64] (fun w => w = 0) (fun r _ => r = .rne),
      .vcomp (x.elemD .i32) (vOf x.va) (vOf x.vb) x.vmz)
  | 26 => some (x.vA ++ x.c0 ++ x.fOk [.i32, .fp32, .i64] (fun w => w = 0) (fun r _ => r = .rne),
      .vxpnd (x.elemD .i32) (vOf x.va) (vOf x.vb) x.vmz)
  | 27 => some (x.noM ++ x.vA, .vbiti (vOf x.va) (vOf x.vx) (vOf x.vy) x.vmz)
  | 28 => some (x.vA ++ x.c0 ++ x.fOk vInts (fun w => w = 0) (fun r _ => r = .rne),
      .vclz (x.elemD .i32) (vOf x.va) (vOf x.vb) x.vmz)
  | 29 => some (x.vA ++ x.c0 ++ x.fOk vInts (fun w => w = 0) (fun r _ => r = .rne),
      .vpopc (x.elemD .i32) (vOf x.va) (vOf x.vb) x.vmz)
  | 30 => some (x.vA ++ x.maskF ++ x.mZ (x.mod / 16 % 4 = 0) ++ x.mOk (x.mod % 16 < 9), .vmask x.pred x.maskOp x.vmz)
  | _ => none

/-- Page 3 (R56, spec/11_one_core.md). R166 gives QCNT's c field no meaning and does not say that it must be zero; the model takes trap
0x01 with reason 3 where it is not. It ignores the c field of QCTL, QLH, WID and PRIO with m = 1, and fields b and bh of QLH, which no rule
says must be zero (log 84, DESIGN CHOICE). -/
def page3 (x : Raw) : Nat → Option Slot
  | 0 => some (x.noI ++ x.bh0 ++ x.c0 ++ x.p0 ++ x.aLt 32, .enqn (x.m = 1) x.pred (gOf x.a) (qOf x.vb))
  | 1 => some (x.noI ++ x.bh0 ++ need (x.c < 8) 3 x.ri ++ x.m0 ++ x.p0 ++ x.aLt 32, .deqn x.pred (gOf x.a) (qOf x.vb) (pOf x.c))
  | 2 => some (x.noI ++ x.noM ++ x.c0 ++ x.m0 ++ x.aLt 32 ++ x.bLt 16, .qcnt (gOf x.a) (qOf x.b))
  | 3 => some (x.noM ++ x.iWithM ++ x.aLt 32 ++ x.bLt 16,
      if x.m = 1 ∧ x.simm 0 0 = 1 then .qctlDiscard (gOf x.a) (qOf x.b)
      else if x.m = 1 ∧ x.simm 0 0 = 2 then .qctlDisarm (gOf x.a) (qOf x.b)
      else .qctl (gOf x.a) (qOf x.b) (x.copd false))
  | 4 => some (x.noM ++ x.iWithM ++ x.ah0, .qlh (qOf x.va) (x.copd false))
  | 5 => some (x.noI ++ x.noM ++ x.c0 ++ x.m0 ++ x.aLt 32 ++ need (x.b < 25) 5 (x.hiWord x.bh), .fire (gOf x.a) (gOf x.b))
  | 6 => some (x.noI ++ x.c0 ++ x.m0 ++ x.p0 ++ x.aLt 32 ++ need (x.b < 25) 5 (x.hiWord x.bh), .firen x.pred (gOf x.a) (gOf x.b))
  | 7 => some (x.noI ++ x.noM ++ x.bh0 ++ x.c0 ++ x.aLt 32 ++ need (x.vb < 4) 5 x.nb, .arrive (x.m = 1) (gOf x.a) (bOf x.vb))
  | 8 => some (x.noI ++ x.noM ++ x.bh0 ++ x.aLt 32 ++ need (x.vb < 4) 5 x.nb, .arrb (x.m = 1) (gOf x.a) (bOf x.vb) (gOf x.c))
  | 9 => some (x.noI ++ x.noM ++ x.c0 ++ x.m0 ++ x.aLt 32 ++ x.bLt 4, .bwait (gOf x.a) (bOf x.b))
  | 10 => some (x.noI ++ x.c0 ++ x.m0 ++ x.p0 ++ x.aLt 32 ++ x.bLt 4, .bwaitn x.pred (gOf x.a) (bOf x.b))
  | 11 => some (x.noI ++ x.noM ++ x.o0 ++ need (x.rv = 0) 3 x.ri, .falign)
  | 12 => some (x.noM ++ x.iWithM ++ x.bh0 ++ x.b0 ++ x.aLt 32, .wid (gOf x.a) (x.copd true))
  | 13 => some (x.noM ++ x.iWithM ++ x.ah0 ++ x.bh0 ++ x.a0 ++ x.b0, .prio (x.copd true))
  | _ => none

/-- Page 4 (R56, spec/13_many_cores.md, spec/11_one_core.md). -/
def page4 (x : Raw) : Nat → Option Slot
  | 0 => some (x.noI ++ x.noR ++ x.o0 ++ x.mOk (x.mod / 64 = 0), .fence x.kinds x.scope)
  | 1 => some (x.memA 32 ++ x.mOk (x.mod / 64 < 5 && x.sOwn = 0), .lda x.size x.scope (gOf x.a) x.mem)
  | 2 => some (x.memA 32 ++ x.mOk (x.mod / 64 < 5 && x.sOwn = 0), .strel x.size x.scope (gOf x.a) x.mem)
  | 3 => some (x.noM ++ x.memA 32, .ldver (gOf x.a) x.mem)
  | 4 => some (x.memA 32 ++ x.p0, .ldvern x.pred (gOf x.a) x.mem)
  | 5 => some (x.noM ++ x.memA 32, .stver (gOf x.a) x.mem)
  | 6 => some (x.noM ++ x.memA 32, .reclaim (gOf x.a) x.mem)
  | 7 => some (x.memA 32 ++ x.mOk (x.mod / 64 < 5 && (match amoOfCode x.sOwn with | some op => amoSizeOk op x.size | none => false)),
      .amo ((amoOfCode x.sOwn).getD .swap) x.size x.scope (gOf x.a) x.mem)
  | 8 => some (x.noI ++ x.m0 ++ x.mZ (x.mod % 2 = 0) ++ x.mOk (x.mod / 64 < 5 && casSizeOk x.size) ++ x.aLt 32 ++ x.bLt 16,
      .cas x.size x.scope (pOf (x.mod / 2 % 8)) (gOf x.a) (cOf x.b) (gOf x.c))
  | 9 => some (x.xf true, .rget x.scope (cOf x.a) (cOf x.b) (gOf x.c) (cOf x.sOwn))
  | 10 => some (x.xf true, .rsend x.scope (cOf x.a) (cOf x.b) (gOf x.c) (cOf x.sOwn))
  | 11 => some (x.xf false, .rgetx x.scope (cOf x.a) (cOf x.b) (gOf x.c) (cOf x.sOwn))
  | 12 => some (x.xf false, .rsendx x.scope (cOf x.a) (cOf x.b) (gOf x.c) (cOf x.sOwn))
  | 13 => some (x.xf true, .rsig x.scope (cOf x.a) (cOf x.b) (gOf x.c) (cOf x.sOwn))
  | 14 => some (x.noI ++ x.fOk arithElems (fun w => w < 3) (fun r _ => r = .rne) ++ x.aLt 16 ++ x.bLt 16,
      .rarith (redOfCode x.own) (x.m = 1) (x.elemD .fp32) (cOf x.a) (cOf x.b) (gOf x.c))
  | 15 => some (x.noI ++ x.noM ++ x.c0 ++ x.m0 ++ x.aLt 32 ++ x.bLt 16, .cntw (gOf x.a) (cOf x.b))
  | 16 => some (x.noI ++ x.c0 ++ x.m0 ++ x.p0 ++ x.aLt 32 ++ x.bLt 16, .cntwn x.pred (gOf x.a) (cOf x.b))
  | 17 => some (x.noI ++ x.noM ++ x.c0 ++ x.m0 ++ x.aLt 32 ++ x.bLt 16, .cntrd (gOf x.a) (cOf x.b))
  | _ => none

/-- The declared plane counts of MMA and MMAS, absent without PFX.M (R264). -/
def Raw.planes (x : Raw) : Option (Fin 16 × Fin 16) := if x.mp.isSome then some (x.pa, x.pb) else none

/-- The faults of MMA and MMAS (R264, R265). -/
def Raw.mmaF (x : Raw) : Faults :=
  x.noI ++ x.mZ (x.mod % 2 = 0) ++ need (x.da < 8) 5 x.ri ++ need (x.db < 16) 5 x.ri

/-- The faults of a page-5 instruction that names only a tile in field a (R270). -/
def Raw.tileF (x : Raw) : Faults := x.noI ++ x.noM ++ x.bh0 ++ x.c0 ++ x.b0 ++ x.m0 ++ x.aLt 8

/-- Page 5 (R56, spec/19_matrix.md, spec/21_streamer.md). -/
def page5 (x : Raw) : Nat → Option Slot
  | 0 => some (x.noI ++ x.m0 ++ x.mOk (x.mod % 32 = 0) ++ x.aLt 16 ++ x.bLt 16,
      .mplane (if x.mp.isSome then x.pa else 7) (cOf x.a) (cOf x.b) (gOf x.c))
  | 1 => some (x.mmaF, .mma x.planes (tOf x.da) (cOf x.db) (cOf x.dc) (gOf x.c))
  | 2 => some (x.mmaF, .mmas x.planes (tOf x.da) (cOf x.db) (cOf x.dc) (gOf x.c))
  | 3 => if x.m = 1 then some (x.noI ++ x.noM ++ x.b0 ++ need (x.rv = 0) 3 x.ri ++ x.aLt 8, .mepirp (tOf x.a))
    else some (x.noI ++ x.mOk (x.rnd.isSome && (x.mod / 4 % 16 = 0 ||
          (match x.elem .fp32 with | some e => epiElems.contains e | none => false))) ++ x.aLt 8 ++ x.bLt 16,
      .mepi (actOfCode x.own) x.rndD (if x.mod / 4 % 16 = 0 then none else some (x.elemD .fp32)) (tOf x.a) (cOf x.b) (gOf x.c))
  | 4 => some (x.tileF, .mzero (tOf x.a))
  | 5 => some (x.tileF, .mrel (tOf x.a))
  | 6 => some (x.noI ++ x.noM ++ x.bh0 ++ x.c0 ++ x.aLt 32 ++ need (x.vb < 8) 5 x.nb,
      if x.m = 1 then .mstatc (gOf x.a) (tOf x.vb) else .mstat (gOf x.a) (tOf x.vb))
  | 7 => some (x.noI ++ x.noM ++ x.ah0 ++ x.a0 ++ x.bh0 ++ x.c0 ++ x.m0 ++ need (x.vb < 8) 5 x.nb, .mwait (tOf x.vb))
  | 8 => some (x.noI ++ x.noM ++ x.bh0 ++ x.c0 ++ x.m0 ++ x.aLt 32, .copy (gOf x.a) (cOf x.vb))
  | 9 => some (x.noI ++ x.bh0 ++ x.m0 ++ x.mZ (x.mod / 16 % 4 = 0) ++ x.aLt 32 ++ x.cLt 16,
      .cut (if x.mp.isSome then ⟨x.mod % 16, Nat.mod_lt _ (by decide)⟩ else 7) x.pred (gOf x.a) (cOf x.vb) (cOf x.c))
  | 10 => some (x.noI ++ x.noM ++ x.bh0 ++ need (x.a < 31) 5 (x.hiWord x.ah) ++ x.cLt 16,
      .cocut (x.m = 1) (gOf x.a) (cOf x.vb) (cOf x.c))
  | 11 => some (x.noI ++ x.noM ++ x.bh0 ++ x.c0 ++ x.aLt 32,
      if x.m = 1 then .cdrop (gOf x.a) (cOf x.vb) else .cresume (gOf x.a) (cOf x.vb))
  | _ => none

/-- Page 6 (R56, spec/23_traversal.md, spec/25_pairs.md). -/
def page6 (x : Raw) : Nat → Option Slot
  | 0 => some (x.noI ++ x.noM ++ x.ah0 ++ x.bh0 ++ x.c0 ++ x.m0, .trav (cOf x.va) (cOf x.vb))
  | 1 => some (x.noI ++ x.noM ++ x.ah0 ++ x.bh0 ++ x.b0 ++ x.c0 ++ x.m0, .dtrav (cOf x.va))
  | 2 => some (x.noI ++ x.noM ++ x.bh0 ++ x.m0 ++ x.aLt 32 ++ x.cLt 16, .pair (gOf x.a) (cOf x.vb) (cOf x.c))
  | 3 => some (x.noI ++ x.bh0 ++ x.c0 ++ x.m0 ++ x.p0 ++ x.aLt 32, .wgres x.pred (gOf x.a) (cOf x.vb))
  | 4 => some (x.noI ++ x.noM ++ x.c0 ++ x.m0 ++ need (x.a < 29) 5 (x.hiWord x.ah) ++ x.bLt 32, .wgcom (gOf x.a) (gOf x.b))
  | 5 => some (x.noI ++ x.noM ++ x.c0 ++ x.m0 ++ x.aLt 32 ++ x.bLt 32, .wgabn (gOf x.a) (gOf x.b))
  | 6 => some (x.noI ++ x.noM ++ x.bh0 ++ x.m0 ++ x.aLt 32, .wgstat (gOf x.a) (cOf x.vb) (gOf x.c))
  | 7 => some (x.noI ++ x.noM ++ x.c0 ++ x.aLt 32 ++ x.bLt 16,
      if x.m = 1 then .momd (gOf x.a) (cOf x.b) else .mom (gOf x.a) (cOf x.b))
  | _ => none

/-- The system registers that live in the c file (R353). -/
def sysIsCap (n : Nat) : Bool := n = 7 || n = 12 || n = 14

/-- The faults of SRD and SWR (R354). -/
def Raw.sysF (x : Raw) : Faults :=
  x.noM ++ x.bh0 ++ x.c0 ++ need (x.composed 5 (x.o % 32) < 26) 5 x.nb
    ++ x.aLt (if sysIsCap (x.composed 5 (x.o % 32)) then 16 else 32)

/-- The number of a system register (R353). -/
def sysOf (n : Nat) : Fin 26 := ⟨n % 26, Nat.mod_lt _ (by decide)⟩

/-- The faults of a page-7 form-A instruction without PFX.M (R358; log 11). -/
def Raw.supF (x : Raw) (mMeans : Bool) : Faults := x.noI ++ x.noM ++ (if mMeans then [] else x.m0) ++ x.aLt 32

/-- Page 7 (R56, spec/07_one_thread.md, spec/27_launch.md). -/
def page7 (x : Raw) : Nat → Option Slot
  | 0 => some (x.noR ++ x.noM, .trap (x.uimm 9 x.o))
  | 1 => some (x.noR ++ x.noM, .brk (x.simm 9 x.o))
  | 2 => some (x.sysF, .srd (gOf x.a) (sysOf (x.composed 5 (x.o % 32))))
  | 3 => some (x.sysF, .swr (gOf x.a) (sysOf (x.composed 5 (x.o % 32))))
  | 4 => some (x.iWithM ++ x.mZ (x.mod / 128 = 0),
      .mcall ⟨x.mod % 128, Nat.mod_lt _ (by decide)⟩ ⟨x.a % 64, Nat.mod_lt _ (by decide)⟩ ⟨x.b % 64, Nat.mod_lt _ (by decide)⟩
        ⟨x.c % 32, Nat.mod_lt _ (by decide)⟩ (if x.m = 1 then x.simm 0 0 else 0))
  | 5 => some (x.noR ++ x.noM ++ need (x.composed 9 x.o < 2 ^ 37) 3 ((firstOf 0 x.pre 0).getD x.nb),
      .rep (BitVec.ofNat 5 (x.composed 9 x.o)) (BitVec.ofNat 32 (x.composed 9 x.o / 32)))
  | 6 => some (x.noR ++ x.noM ++ need (x.composed 9 x.o < 2 ^ 38) 3 ((firstOf 0 x.pre 0).getD x.nb),
      .loopp (BitVec.ofNat 6 (x.composed 9 x.o)) (BitVec.ofNat 32 (x.composed 9 x.o / 64)))
  | 7 => some (x.noI ++ x.noR ++ x.noM ++ x.o0, .eret)
  | 8 => some (x.supF true ++ x.c0 ++ x.bLt 32, .objinv (x.m = 1) (gOf x.a) (gOf x.b))
  | 9 => if x.m = 1 then some (x.supF true ++ x.bh0 ++ x.b0 ++ x.c0, .mrd (gOf x.a))
    else some (x.supF true ++ x.c0 ++ x.bLt 32, .mwr (gOf x.a) (gOf x.b))
  | 10 => some (x.supF false ++ x.bLt 16 ++ x.cLt 16, .launch (gOf x.a) (cOf x.b) (cOf x.c))
  | 11 => some (x.supF false ++ x.c0 ++ x.bLt 32, .close (gOf x.a) (gOf x.b))
  | 12 => some (x.supF false ++ x.c0 ++ x.bLt 16, .ctxsv (gOf x.a) (cOf x.b))
  | 13 => some (x.supF false ++ x.c0 ++ x.bLt 16, .ctxld (gOf x.a) (cOf x.b))
  | 14 => some (x.noI ++ x.noR ++ x.noM ++ x.o0, .waiti)
  | _ => none

/-- The slot of a page and an opcode (R56); none where the slot is reserved. -/
def slotOf (x : Raw) : Option Slot :=
  match x.page with
  | 0 => page0 x (opOf x.base)
  | 1 => page1 x (opOf x.base)
  | 2 => page2 x (opOf x.base)
  | 3 => page3 x (opOf x.base)
  | 4 => page4 x (opOf x.base)
  | 5 => page5 x (opOf x.base)
  | 6 => page6 x (opOf x.base)
  | 7 => page7 x (opOf x.base)
  | _ => none

/-! ## The decoder -/

/-- A repeated prefix kind: the word index of the second occurrence (R36). -/
def dupFault (k : Nat) (pre : List IWord) : Faults :=
  match secondOf k pre 0 false with | none => [] | some i => [(1, i)]

/-- All the repeated-prefix faults of a bundle (R36). -/
def dupFaults (pre : List IWord) : Faults := dupFault 1 pre ++ dupFault 2 pre ++ dupFault 3 pre

/-- The fault that TVAL reports: the smallest reason, then the lowest word (R53). -/
def worst : Faults → Option (Nat × Nat)
  | [] => none
  | f :: fs =>
    match worst fs with
    | none => some f
    | some g => if f.1 < g.1 ∨ (f.1 = g.1 ∧ f.2 ≤ g.2) then some f else some g

/-- The faults and the instruction of a bundle whose base word is not ILL. -/
def decodeRaw (x : Raw) : Slot :=
  match slotOf x with
  | none => ((0, x.nb) :: dupFaults x.pre, .nop)
  | some (fs, i) => (dupFaults x.pre ++ fs, i)

/-- Whether the base word is ILL: page 0, opcode 0 (R55). -/
def Raw.isIll (x : Raw) : Bool := x.page = 0 && opOf x.base = 0

/-- The instruction of a bundle, or the fault that R53 reports. -/
def decodeBundle (x : Raw) : Except DecFault Instr :=
  if x.isIll then .ok (.ill ⟨x.nb % 5, Nat.mod_lt _ (by decide)⟩ x.base)
  else match decodeRaw x with
    | (fs, i) => match worst fs with
      | none => .ok i
      | some (r, w) => .error (.illegal r w ((x.pre ++ [x.base]).getD w 0))

/-- Decodes the first bundle of a list of words. Total on every list; rejects by name. -/
def decodeWords (ws : List IWord) : Except DecFault Bundle :=
  match splitBundle 4 [] ws with
  | .error e => .error e
  | .ok x =>
    match decodeBundle x with
    | .error e => .error e
    | .ok i => .ok ⟨i, BitVec.ofNat 8 x.stall, x.nb + 1⟩

/-- The words of `n` bits given as a number whose first word is the HIGHEST part where the opcode table writes two
words (the prefix word of a page stands in bits 31 to 16 of the table's pattern, the base word below it; log 13). -/
def tableWords (nbits w : Nat) : List IWord :=
  if nbits ≤ 16 then [BitVec.ofNat 16 w] else [BitVec.ofNat 16 (w / 65536), BitVec.ofNat 16 w]

/-- The instruction that the decoder reads from a row of the opcode table. -/
def decodeTableWord (nbits w : Nat) : Option Instr :=
  match decodeWords (tableWords nbits w) with
  | .ok b => some b.instr
  | .error _ => none

/-! ## The encoder (spec/05_assembler.md R63, R64) -/

/-- A prefix word of a kind with a payload (R35). -/
def preWord (kind pay : Nat) : IWord := BitVec.ofNat 16 (kind * 16384 + 31 * 512 + pay)

/-- A base word (R34). -/
def baseWord (sc op o : Nat) : IWord := BitVec.ofNat 16 (sc * 16384 + op * 512 + o)

/-- Whether a word equals the sign extension of its low `n` bits. -/
def fitsS (n : Nat) (v : Word) : Bool := signed64 n (v.toNat % 2 ^ n) = v

/-- Whether a word is below 2^n. -/
def fitsU (n : Nat) (v : Word) : Bool := v.toNat < 2 ^ n

/-- The fewest PFX.I words whose composed value equals the immediate (R63). -/
def immCount (fits : Nat → Word → Bool) (w : Nat) (v : Word) : Nat :=
  if fits w v then 0 else if fits (w + 9) v then 1 else if fits (w + 18) v then 2 else if fits (w + 27) v then 3 else 4

/-- The PFX.I payloads of an immediate, most significant first (R37). -/
def immPays (w n : Nat) (v : Word) : List Nat :=
  (List.range n).map (fun j => v.toNat / 2 ^ (w + 9 * (n - 1 - j)) % 512)

/-- The parts of an encoding: the immediate payloads, the PFX.R and PFX.M payloads and the operand bits. -/
structure Enc where
  imms : List Nat
  r    : Option Nat
  m    : Option Nat
  o    : Nat

/-- The words of a bundle: PFX.I, PFX.P, PFX.R, PFX.M, base word (R63). -/
def mkWords (page op stall : Nat) (e : Enc) : List IWord :=
  e.imms.map (preWord 0)
    ++ (if page = 0 ∧ stall < 4 then [] else [preWord 2 (page * 64 + stall / 4)])
    ++ (match e.r with | none => [] | some p => [preWord 1 p])
    ++ (match e.m with | none => [] | some p => [preWord 3 p])
    ++ [baseWord (stall % 4) op e.o]

/-- The operand bits of forms A and Ai (R34). -/
def oA (a b m : Nat) : Nat := a % 16 * 32 + b % 16 * 2 + m
/-- The PFX.R payload of forms A and Ai (R35, R39). -/
def rA (a b c : Nat) : Nat := a / 16 * 128 + b / 16 * 32 + c
/-- PFX.M only where the payload is not zero (R64). -/
def mNZ (m : Nat) : Option Nat := if m = 0 then none else some m

/-- Form A with fields a and b, and c where it is not zero. -/
def encA (a b c m : Nat) (mp : Option Nat) : Enc :=
  ⟨[], if a < 16 ∧ b < 16 ∧ c = 0 then none else some (rA a b c), mp, oA a b m⟩
/-- The two-source shape (R39, R63). -/
def enc2 (d x y m : Nat) (mp : Option Nat) : Enc :=
  if d = x ∧ d < 16 ∧ y < 16 then ⟨[], none, mp, oA d y m⟩ else ⟨[], some (rA d x y), mp, oA d x m⟩
/-- The two-source shapes with an immediate (R90). -/
def enc2i (fits : Nat → Word → Bool) (d x : Nat) (y : Opd) : Enc :=
  match y with
  | .imm v =>
    let is := if v = 0 then [] else immPays 0 (immCount fits 0 v) v
    if d = x ∧ d < 16 then ⟨is, none, none, oA d 0 1⟩ else ⟨is, some (rA d x 0), none, oA d x 1⟩
  | .reg r => enc2 d x r.val 0 none
/-- Forms with an operand in field c or an immediate (R141, R166 to R174). -/
def encC (fits : Nat → Word → Bool) (a b : Nat) (y : Opd) (mp : Option Nat) : Enc :=
  match y with
  | .imm v => ⟨if v = 0 then [] else immPays 0 (immCount fits 0 v) v, if a < 16 ∧ b < 16 then none else some (rA a b 0), mp, oA a b 1⟩
  | .reg r => encA a b r.val 0 mp
/-- The memory form (R104). -/
def encMem (a : Nat) (x : MemOp) (mp : Option Nat) : Enc := encC fitsS a x.base.val x.off mp
/-- Form B (R34, R37). -/
def encB (fits : Nat → Word → Bool) (a c : Nat) (v : Word) (mp : Option Nat) : Enc :=
  ⟨immPays 5 (immCount fits 5 v) v, if a < 16 ∧ c = 0 then none else some (a / 16 * 128 + c), mp, a % 16 * 32 + v.toNat % 32⟩
/-- Form C (R34, R37). -/
def encCC (fits : Nat → Word → Bool) (v : Word) : Enc :=
  ⟨immPays 9 (immCount fits 9 v) v, none, none, v.toNat % 512⟩
/-- Form D (R34, R39). -/
def encD (a b c r : Nat) (mp : Option Nat) : Enc :=
  ⟨[], if a < 8 ∧ b < 8 ∧ r = 0 then none else some (a / 8 * 128 + b / 8 * 32 + r), mp, a % 8 * 64 + b % 8 * 8 + c⟩
/-- Page 2: a mask and a third register in PFX.R (R40). -/
def encV (a b c mask m : Nat) (mp : Option Nat) : Enc :=
  ⟨[], if mask = 0 ∧ c = 0 then none else some (mask / 2 * 128 + mask % 2 * 64 + c), mp, oA a b m⟩
/-- Page 2, two-source shape (R131). -/
def encV2 (d x y mask m : Nat) (mp : Option Nat) : Enc :=
  if mask = 0 ∧ d = x then ⟨[], none, mp, oA d y m⟩ else ⟨[], some (mask / 2 * 128 + mask % 2 * 64 + y), mp, oA d x m⟩
/-- Page 2, form Ai: a shift count or an offset (R136, R149). -/
def encVI (a b mask : Nat) (is : List Nat) (c m : Nat) (mp : Option Nat) : Enc :=
  ⟨is, if mask = 0 ∧ c = 0 then none else some (mask / 2 * 128 + mask % 2 * 64 + c), mp, oA a b m⟩

/-- Layout F (R47). -/
def mF (r : Rnd) (e own : Nat) : Option Nat := mNZ (r.code * 64 + e * 4 + own)
/-- Layout K (R47). -/
def mK (c : Cond) (e : Nat) : Option Nat := mNZ (c.code * 32 + e * 2)
/-- Layout P: p1 is named by 0 (R47). -/
def predCode (p : PReg) : Nat := if p.val = 1 then 0 else p.val
def mP (p : PReg) (own : Nat) : Option Nat := mNZ (predCode p * 64 + own)
/-- Layout P of VTWO and VMASK, whose spellings count as written suffixes: PFX.M with a payload of zero too (R64, R133). -/
def mSpelt (p : PReg) (own : Nat) : Option Nat := some (predCode p * 64 + own)
/-- Layout S (R47, R50). -/
def mS (z : Option Size) (sc : Scope) (own : Nat) : Option Nat := mNZ (sizeCode z * 64 + sc.code * 16 + own)
/-- Layout M (R47). -/
def mM : Option (Fin 16 × Fin 16) → Option Nat
  | none => none
  | some (a, b) => some (a.val * 32 + b.val * 2)

def bN (b : Bool) : Nat := if b then 1 else 0

/-- The own bits of FENCE: none selects all four kinds (R193). -/
def kindBits (k : FenceKinds) : Nat :=
  if k.ll && k.ls && k.sl && k.ss then 0 else bN k.ll + 2 * bN k.ls + 4 * bN k.sl + 8 * bN k.ss

def vopd (d x mask : Nat) (y : VOpd) (mp : Option Nat) : Enc :=
  match y with
  | .imm v =>
    let is := if v = 0 then [] else immPays 0 (immCount fitsU 0 v) v
    if mask = 0 ∧ d = x then ⟨is, none, mp, oA d 0 1⟩ else encVI d x mask is 0 1 mp |> fun e =>
      { e with r := some (mask / 2 * 128 + mask % 2 * 64) }
  | .reg r => encV2 d x r.val mask 0 mp
def vmemE (a mask : Nat) (x : MemOp) : Enc :=
  match x.off with
  | .imm v => encVI a x.base.val mask (if v = 0 then [] else immPays 0 (immCount fitsS 0 v) v) 0 1 none
  | .reg r => encVI a x.base.val mask [] r.val 0 none

/-- Page, opcode and parts of VMASK (R140). -/
def maskEnc (p : PReg) (o : MaskOp) (vm : VM) : Enc :=
  match o with
  | .mov d b => encV d b 0 vm.mask (bN vm.zero) (mSpelt p 0)
  | .and d x y => encV2 d x y vm.mask (bN vm.zero) (mSpelt p 1)
  | .or d x y => encV2 d x y vm.mask (bN vm.zero) (mSpelt p 2)
  | .xor d x y => encV2 d x y vm.mask (bN vm.zero) (mSpelt p 3)
  | .andn d x y => encV2 d x y vm.mask (bN vm.zero) (mSpelt p 4)
  | .not d b => encV d b 0 vm.mask (bN vm.zero) (mSpelt p 5)
  | .fromG d b => encV d b 0 vm.mask (bN vm.zero) (mSpelt p 6)
  | .toG d b => encV d b 0 vm.mask (bN vm.zero) (mSpelt p 7)
  | .first d b => encV d b 0 vm.mask (bN vm.zero) (mSpelt p 8)

/-- The page, the opcode and the parts of an instruction; none for what no word encodes (events and the
sub-operations that only a register value selects). -/
def encParts : Instr → Option (Nat × Nat × Enc)
  | .ill _ code => some (0, 0, ⟨[], none, none, code.toNat % 512⟩)
  | .nop => some (0, 1, ⟨[], none, none, 0⟩)
  | .mov d s => some (0, 2, encA d s 0 0 none)
  | .movCap d s => some (0, 2, encA d s 0 1 none)
  | .movi d v => some (0, 3, encB fitsS d 0 v none)
  | .add d x y => some (0, 4, enc2 d x y 0 none)
  | .sub d x y => some (0, 5, enc2 d x y 0 none)
  | .addi d x v => some (0, 6, if d = x ∧ d.val < 16 then encB fitsS d 0 v none
      else ⟨immPays 5 (immCount fitsS 5 v) v, some (d.val / 16 * 128 + x.val), none, d.val % 16 * 32 + v.toNat % 32⟩)
  | .and d x y => some (0, 7, enc2 d x y 0 none)
  | .or d x y => some (0, 8, enc2 d x y 0 none)
  | .xor d x y => some (0, 9, enc2 d x y 0 none)
  | .shl d x y => some (0, 10, enc2i fitsS d x y)
  | .shr d x y => some (0, 11, enc2i fitsS d x y)
  | .sar d x y => some (0, 12, enc2i fitsS d x y)
  | .mul d x y => some (0, 13, enc2 d x y 0 none)
  | .cmp c e p x y => some (0, 14, if p.val = 1 ∧ x.val < 16 ∧ y.val < 16 then ⟨[], none, mK c (elemCode .i64 e), oA x y 0⟩
      else ⟨[], some (rA p x y), mK c (elemCode .i64 e), oA p x 0⟩)
  | .cmpi c p x v => some (0, 15, if p.val = 1 ∧ x.val < 16
      then ⟨immPays 5 (immCount fitsS 5 v) v, none, mNZ (c.code * 4), x.val % 16 * 32 + v.toNat % 32⟩
      else ⟨immPays 5 (immCount fitsS 5 v) v, some (x.val / 16 * 128 + p.val), mNZ (c.code * 4), x.val % 16 * 32 + v.toNat % 32⟩)
  | .sel d p x y => some (0, 16, encD d x p y none)
  | .ld z d a => some (0, 17, encMem d a (mS z .core 0))
  | .st z s a => some (0, 18, encMem s a (mS z .core 0))
  | .ldc d a => some (0, 19, encMem d a none)
  | .stc s a => some (0, 20, encMem s a none)
  | .cadd d x y => some (0, 21, enc2i fitsS d x y)
  | .b v => some (0, 22, encCC fitsS v)
  | .bc p inv v => some (0, 23, ⟨immPays 5 (immCount fitsS 5 v) v, none, none, p.val * 64 + bN inv * 32 + v.toNat % 32⟩)
  | .call v => some (0, 24, encCC fitsS v)
  | .ret => some (0, 25, ⟨[], none, none, 0⟩)
  | .jmp a x => some (0, 26, encA a x 0 0 none)
  | .jmpl a x => some (0, 26, encA a x 0 1 none)
  | .jtab a x => some (0, 27, encA a x 0 0 none)
  | .enq k s q => some (0, 28, encA s q 0 (bN k) none)
  | .deq d q p => some (0, 29, encA d q p 0 none)
  | .done => some (0, 30, ⟨[], none, none, 0⟩)
  | .clz d s => some (1, 0, encA d s 0 0 none)
  | .ctz d s => some (1, 1, encA d s 0 0 none)
  | .popc d s => some (1, 2, encA d s 0 0 none)
  | .biti t d x y => some (1, 3, enc2 d x y (bN t) none)
  | .bitd t d x y => some (1, 4, enc2 d x y (bN t) none)
  | .bfx d x y => some (1, 5, enc2i fitsS d x y)
  | .bfi d x y => some (1, 6, enc2i fitsS d x y)
  | .mulh u d x y => some (1, 7, enc2 d x y (bN u) none)
  | .div u d x y => some (1, 8, enc2 d x y (bN u) none)
  | .rem u d x y => some (1, 9, enc2 d x y (bN u) none)
  | .min u d x y => some (1, 10, enc2 d x y (bN u) none)
  | .max u d x y => some (1, 11, enc2 d x y (bN u) none)
  | .csetb d x y => some (1, 12, enc2i fitsU d x y)
  | .cseta d x y => some (1, 13, enc2i fitsS d x y)
  | .cgeta d s => some (1, 14, encA d s 0 0 none)
  | .cgeto d s => some (1, 14, encA d s 0 1 none)
  | .cgetl d s => some (1, 15, encA d s 0 0 none)
  | .cgetb d s => some (1, 15, encA d s 0 1 none)
  | .cres d x y => some (1, 16, enc2 d x y 0 none)
  | .cfmt d x y => some (1, 17, enc2 d x y 0 none)
  | .cgetf d s => some (1, 18, encA d s 0 0 none)
  | .fadd r e d x y => some (1, 19, enc2 d x y 0 (mF r (elemCode .fp32 e) 0))
  | .fsub r e d x y => some (1, 20, enc2 d x y 0 (mF r (elemCode .fp32 e) 0))
  | .fmul r e d x y => some (1, 21, enc2 d x y 0 (mF r (elemCode .fp32 e) 0))
  | .ffma r e d x y => some (1, 22, enc2 d x y 0 (mF r (elemCode .fp32 e) 0))
  | .fdiv r e d x y => some (1, 23, enc2 d x y 0 (mF r (elemCode .fp32 e) 0))
  | .fsqrt r e d s => some (1, 24, encA d s 0 0 (mF r (elemCode .fp32 e) 0))
  | .fmin e d x y => some (1, 25, enc2 d x y 0 (mF .rne (elemCode .fp32 e) 0))
  | .fmax e d x y => some (1, 26, enc2 d x y 0 (mF .rne (elemCode .fp32 e) 0))
  | .fcmp c e p x y => some (1, 27, if p.val = 1 ∧ x.val < 16 ∧ y.val < 16 then ⟨[], none, mK c (elemCode .fp32 e), oA x y 0⟩
      else ⟨[], some (rA p x y), mK c (elemCode .fp32 e), oA p x 0⟩)
  | .fcvt r e d s => some (1, 28, encA d s 0 0 (mF r (elemCode .i64 e) 0))
  | .fcvtf r e d s => some (1, 28, encA d s 0 1 (mF r (elemCode .i64 e) 0))
  | .sext z d s => some (1, 29, encA d s 0 0 (mS (some z) .core 0))
  | .zext z d s => some (1, 30, encA d s 0 0 (mS (some z) .core 0))
  | .vld d a m => some (2, 0, vmemE d m a)
  | .vst s a m => some (2, 1, vmemE s m a)
  | .vldx e u d b x vm => some (2, 2, encV d b x vm.mask (bN vm.zero) (mF .rne (elemCode .i32 e) (bN u)))
  | .vstx r e s b x m => some (2, 3, encV s b x m 0 (mF r (elemCode .i32 e) 0))
  | .vadd r e d x y vm => some (2, 4, encV2 d x y vm.mask (bN vm.zero) (mF r (elemCode .fp32 e) 0))
  | .vsub r e d x y vm => some (2, 5, encV2 d x y vm.mask (bN vm.zero) (mF r (elemCode .fp32 e) 0))
  | .vmul r e d x y vm => some (2, 6, encV2 d x y vm.mask (bN vm.zero) (mF r (elemCode .fp32 e) 0))
  | .vfma r e d x y vm => some (2, 7, encV2 d x y vm.mask (bN vm.zero) (mF r (elemCode .fp32 e) 0))
  | .vmin e u d x y vm => some (2, 8, encV2 d x y vm.mask (bN vm.zero) (mF .rne (elemCode .fp32 e) (bN u)))
  | .vmax e u d x y vm => some (2, 9, encV2 d x y vm.mask (bN vm.zero) (mF .rne (elemCode .fp32 e) (bN u)))
  | .vand d x y vm => some (2, 10, encV2 d x y vm.mask (bN vm.zero) none)
  | .vor d x y vm => some (2, 11, encV2 d x y vm.mask (bN vm.zero) none)
  | .vxor d x y vm => some (2, 12, encV2 d x y vm.mask (bN vm.zero) none)
  | .vshl e d x y m => some (2, 13, vopd d x m y (mF .rne (elemCode .i32 e) 0))
  | .vshr e ar d x y m => some (2, 14, vopd d x m y (mF .rne (elemCode .i32 e) (bN ar)))
  | .vcmp c e d x y vm => some (2, 15, encV2 d x y vm.mask (bN vm.zero) (mK c (elemCode .fp32 e)))
  | .vsel d x y m => some (2, 16, encV2 d x y m 0 none)
  | .vbcast e d s vm => some (2, 17, encV d s 0 vm.mask (bN vm.zero) (mF .rne (elemCode .i32 e) 0))
  | .vext e d s y => some (2, 18, encC fitsU d s y (mF .rne (elemCode .i32 e) 0))
  | .vins e d s y => some (2, 19, encC fitsU d s y (mF .rne (elemCode .i32 e) 0))
  | .vred op r e d s m => some (2, 20, encV d s 0 m 0 (mF r (elemCode .fp32 e) op.code))
  | .vscan op r e d s vm => some (2, 21, encV d s 0 vm.mask (bN vm.zero) (mF r (elemCode .fp32 e) op.code))
  | .vperm d x y vm => some (2, 22, encV2 d x y vm.mask (bN vm.zero) none)
  | .vcvt bk r e d s vm => some (2, 23, encV d s 0 vm.mask (bN vm.zero) (mF r (elemCode .i32 e) (bN bk)))
  | .vtwo md k p d x y vm => some (2, 24, encV2 d x y vm.mask (bN vm.zero) (mSpelt p (md.code + 4 * k.val)))
  | .vcomp e d s vm => some (2, 25, encV d s 0 vm.mask (bN vm.zero) (mF .rne (elemCode .i32 e) 0))
  | .vxpnd e d s vm => some (2, 26, encV d s 0 vm.mask (bN vm.zero) (mF .rne (elemCode .i32 e) 0))
  | .vbiti d x y vm => some (2, 27, encV2 d x y vm.mask (bN vm.zero) none)
  | .vclz e d s vm => some (2, 28, encV d s 0 vm.mask (bN vm.zero) (mF .rne (elemCode .i32 e) 0))
  | .vpopc e d s vm => some (2, 29, encV d s 0 vm.mask (bN vm.zero) (mF .rne (elemCode .i32 e) 0))
  | .vmask p o vm => some (2, 30, maskEnc p o vm)
  | .enqn k p s q => some (3, 0, encA s q 0 (bN k) (mP p 0))
  | .deqn p d q pc => some (3, 1, encA d q pc 0 (mP p 0))
  | .qcnt d q => some (3, 2, encA d q 0 0 none)
  | .qctl d q y => some (3, 3, encC fitsS d q y none)
  | .qctlDiscard d q => some (3, 3, encC fitsS d q (.imm 1) none)
  | .qctlDisarm d q => some (3, 3, encC fitsS d q (.imm 2) none)
  | .qlh q y => some (3, 4, encC fitsS q 0 y none)
  | .fire d w => some (3, 5, encA d w 0 0 none)
  | .firen p d w => some (3, 6, encA d w 0 0 (mP p 0))
  | .arrive l d b => some (3, 7, encA d b 0 (bN l) none)
  | .arrb l d b n => some (3, 8, encA d b n (bN l) none)
  | .bwait s b => some (3, 9, encA s b 0 0 none)
  | .bwaitn p s b => some (3, 10, encA s b 0 0 (mP p 0))
  | .falign => some (3, 11, ⟨[], none, none, 0⟩)
  | .wid d y => some (3, 12, encC fitsU d 0 y none)
  | .prio y => some (3, 13, encC fitsU 0 0 y none)
  | .fence k sc => some (4, 0, ⟨[], none, mNZ (sc.code * 16 + kindBits k), 0⟩)
  | .lda z sc d a => some (4, 1, encMem d a (mS z sc 0))
  | .strel z sc s a => some (4, 2, encMem s a (mS z sc 0))
  | .ldver d a => some (4, 3, encMem d a none)
  | .ldvern p d a => some (4, 4, encMem d a (mP p 0))
  | .stver s a => some (4, 5, encMem s a none)
  | .reclaim s a => some (4, 6, encMem s a none)
  | .amo op z sc d a => some (4, 7, encMem d a (mS z sc op.code))
  | .cas z sc p d a n => some (4, 8, encA d a n 0 (mS z sc (2 * p.val)))
  | .rget sc d s n k => some (4, 9, encA d s n 0 (mS none sc k))
  | .rsend sc d s n k => some (4, 10, encA d s n 0 (mS none sc k))
  | .rgetx sc d s n k => some (4, 11, encA d s n 0 (mS none sc k))
  | .rsendx sc d s n k => some (4, 12, encA d s n 0 (mS none sc k))
  | .rsig sc d s n k => some (4, 13, encA d s n 0 (mS none sc k))
  | .rarith op od e d s n => some (4, 14, encA d s n (bN od) (mF .rne (elemCode .fp32 e) op.code))
  | .cntw d a => some (4, 15, encA d a 0 0 none)
  | .cntwn p d a => some (4, 16, encA d a 0 0 (mP p 0))
  | .cntrd d a => some (4, 17, encA d a 0 0 none)
  | .mplane p d s n => some (5, 0, encA d s n 0 (if p.val = 7 then none else some (p.val * 32)))
  | .mma pl t a b k => some (5, 1, encD t a b k (mM pl))
  | .mmas pl t a b k => some (5, 2, encD t a b k (mM pl))
  | .mepi ac r e t d n => some (5, 3, encA t d n 0 (mF r (match e with | none => 0 | some e => e.code) ac.code))
  | .mepirp t => some (5, 3, encA t 0 0 1 none)
  | .mzero t => some (5, 4, encA t 0 0 0 none)
  | .mrel t => some (5, 5, encA t 0 0 0 none)
  | .mstat d t => some (5, 6, encA d t 0 0 none)
  | .mstatc d t => some (5, 6, encA d t 0 1 none)
  | .mwait t => some (5, 7, encA 0 t 0 0 none)
  | .copy d b => some (5, 8, encA d b 0 0 none)
  | .cut pl p d a b => some (5, 9, encA d a b 0 (if pl.val = 7 ∧ p.val = 1 then none else some (predCode p * 64 + pl.val)))
  | .cocut w a d s => some (5, 10, encA a d s (bN w) none)
  | .cresume d b => some (5, 11, encA d b 0 0 none)
  | .cdrop d b => some (5, 11, encA d b 0 1 none)
  | .trav a b => some (6, 0, encA a b 0 0 none)
  | .dtrav a => some (6, 1, encA a 0 0 0 none)
  | .pair d a k => some (6, 2, encA d a k 0 none)
  | .wgres p d a => some (6, 3, encA d a 0 0 (mP p 0))
  | .wgcom a r => some (6, 4, encA a r 0 0 none)
  | .wgabn d r => some (6, 5, encA d r 0 0 none)
  | .wgstat d a r => some (6, 6, encA d a r 0 none)
  | .mom d a => some (6, 7, encA d a 0 0 none)
  | .momd d a => some (6, 7, encA d a 0 1 none)
  | .trap v => some (7, 0, encCC fitsU v)
  | .brk v => some (7, 1, encCC fitsS v)
  | .srd d n => some (7, 2, encB fitsU d 0 (BitVec.ofNat 64 n.val) none)
  | .swr s n => some (7, 3, encB fitsU s 0 (BitVec.ofNat 64 n.val) none)
  | .mcall num a b c v => some (7, 4,
      ⟨if v = 0 then [] else immPays 0 (immCount fitsS 0 v) v, if a.val < 16 ∧ b.val < 16 ∧ c.val = 0 then none else some (rA a b c),
       mNZ num, oA a b (if v = 0 then 0 else 1)⟩)
  | .rep n k => some (7, 5, encCC fitsU (BitVec.ofNat 64 (k.toNat * 32 + n.toNat)))
  | .loopp n k => some (7, 6, encCC fitsU (BitVec.ofNat 64 (k.toNat * 64 + n.toNat)))
  | .eret => some (7, 7, ⟨[], none, none, 0⟩)
  | .objinv w d r => some (7, 8, encA d r 0 (bN w) none)
  | .mwr d s => some (7, 9, encA d s 0 0 none)
  | .mrd d => some (7, 9, encA d 0 0 1 none)
  | .launch d h ov => some (7, 10, encA d h ov 0 none)
  | .close d op => some (7, 11, encA d op 0 0 none)
  | .ctxsv d a => some (7, 12, encA d a 0 0 none)
  | .ctxld d a => some (7, 13, encA d a 0 0 none)
  | .waiti => some (7, 14, ⟨[], none, none, 0⟩)
  | _ => none

/-- The words of an instruction with a stall count, as R63 and R64 choose them where no suffix is written whose field the
entry's default gives; the spellings of VTWO and VMASK count as written (R133). -/
def encode (i : Instr) (stall : BitVec 8) : List IWord :=
  match i with
  | .ill _ code => [code]
  | i => match encParts i with
    | some (page, op, e) => mkWords page op stall.toNat e
    | none => []

/-! ## Written suffixes (R59, R64) -/

/-- A kind suffix of FENCE, in the order of its bits: .LL, .LS, .SL, .SS (R193). -/
inductive PairKind where
  | ll | ls | sl | ss
  deriving DecidableEq, Repr

/-- The bit that a kind suffix sets (R193). -/
def PairKind.bit : PairKind → Nat
  | .ll => 1
  | .ls => 2
  | .sl => 4
  | .ss => 8

/-- A suffix of a mnemonic (R48 to R50, R193): a rounding mode, an element, a condition, a size, a scope, one or two plane counts minus 1,
or a kind of FENCE. -/
inductive Suffix where
  | rnd (r : Rnd) | elem (e : Elem) | cond (c : Cond) | size (z : Size) | scope (sc : Scope) | plane (n : Fin 16) | planes (pa pb : Fin 16)
  | kind (k : PairKind)
  deriving DecidableEq, Repr

/-- The category of a suffix: rounding, element, condition, size, scope or plane count (R59); each kind of FENCE may stand once (R193). -/
def Suffix.category : Suffix → Nat
  | .rnd _ => 0
  | .elem _ => 1
  | .cond _ => 2
  | .size _ => 3
  | .scope _ => 4
  | .plane _ => 5
  | .planes _ _ => 5
  | .kind k => 5 + k.bit

/-- Where an entry takes suffixes in PFX.M's payload (R47): the rounding and element of layout F; the condition and element of layout K;
the condition of CMPI; the size and scope of layout S, and the kinds of FENCE beside them; the plane counts of MMA and MMAS, of MPLANE,
and of CUT. Whether the entry accepts the code that a suffix sets, its decoder says. -/
inductive Layout where
  | f | k | cmpi | s | fence | mma | mplane | cut
  deriving DecidableEq, Repr

/-- The bits that a suffix sets, where it is in the layout. -/
def Suffix.bits (x : Suffix) : Layout → Option Nat
  | .f =>
    match x with
    | .rnd r => some (r.code * 64)
    | .elem e => some (e.code * 4)
    | .cond _ | .size _ | .scope _ | .plane _ | .planes _ _ | .kind _ => none
  | .k =>
    match x with
    | .cond c => some (c.code * 32)
    | .elem e => some (e.code * 2)
    | .rnd _ | .size _ | .scope _ | .plane _ | .planes _ _ | .kind _ => none
  | .cmpi =>
    match x with
    | .cond c => some (c.code * 4)
    | .rnd _ | .elem _ | .size _ | .scope _ | .plane _ | .planes _ _ | .kind _ => none
  | .s =>
    match x with
    | .size z => some (z.code * 64)
    | .scope sc => some (sc.code * 16)
    | .rnd _ | .elem _ | .cond _ | .plane _ | .planes _ _ | .kind _ => none
  | .fence =>
    match x with
    | .size z => some (z.code * 64)
    | .scope sc => some (sc.code * 16)
    | .kind k => some k.bit
    | .rnd _ | .elem _ | .cond _ | .plane _ | .planes _ _ => none
  | .mma =>
    match x with
    | .planes a b => some (a.val * 32 + b.val * 2)
    | .plane a => some (a.val * 32)
    | .rnd _ | .elem _ | .cond _ | .size _ | .scope _ | .kind _ => none
  | .mplane =>
    match x with
    | .plane a => some (a.val * 32)
    | .rnd _ | .elem _ | .cond _ | .size _ | .scope _ | .planes _ _ | .kind _ => none
  | .cut =>
    match x with
    | .plane a => some a.val
    | .rnd _ | .elem _ | .cond _ | .size _ | .scope _ | .planes _ _ | .kind _ => none

/-- The layout of the suffixes that an instruction's entry takes; none where it takes none. -/
def layoutOf : Instr → Option Layout
  | .fadd _ _ _ _ _ | .fsub _ _ _ _ _ | .fmul _ _ _ _ _ | .ffma _ _ _ _ _ | .fdiv _ _ _ _ _ | .fsqrt _ _ _ _ => some .f
  | .fmin _ _ _ _ | .fmax _ _ _ _ | .fcvt _ _ _ _ | .fcvtf _ _ _ _ => some .f
  | .vldx _ _ _ _ _ _ | .vstx _ _ _ _ _ _ | .vadd _ _ _ _ _ _ | .vsub _ _ _ _ _ _ | .vmul _ _ _ _ _ _ | .vfma _ _ _ _ _ _ => some .f
  | .vmin _ _ _ _ _ _ | .vmax _ _ _ _ _ _ | .vshl _ _ _ _ _ | .vshr _ _ _ _ _ _ | .vbcast _ _ _ _ | .vext _ _ _ _ | .vins _ _ _ _ => some .f
  | .vred _ _ _ _ _ _ | .vscan _ _ _ _ _ _ | .vcvt _ _ _ _ _ _ | .vcomp _ _ _ _ | .vxpnd _ _ _ _ | .vclz _ _ _ _ | .vpopc _ _ _ _ => some .f
  | .rarith _ _ _ _ _ _ | .mepi _ _ _ _ _ _ => some .f
  | .cmp _ _ _ _ _ | .fcmp _ _ _ _ _ | .vcmp _ _ _ _ _ _ => some .k
  | .cmpi _ _ _ _ => some .cmpi
  | .ld _ _ _ | .st _ _ _ | .ldc _ _ | .stc _ _ | .sext _ _ _ | .zext _ _ _ => some .s
  | .lda _ _ _ _ | .strel _ _ _ _ | .amo _ _ _ _ _ | .cas _ _ _ _ _ _ => some .s
  | .rget _ _ _ _ _ | .rsend _ _ _ _ _ | .rgetx _ _ _ _ _ | .rsendx _ _ _ _ _ | .rsig _ _ _ _ _ => some .s
  | .fence _ _ => some .fence
  | .mma _ _ _ _ _ | .mmas _ _ _ _ _ => some .mma
  | .mplane _ _ _ _ => some .mplane
  | .cut _ _ _ _ _ => some .cut
  | _ => none

/-- The bits of a payload that no suffix of the layout sets: those that the mnemonic and the operands give (R47). -/
def mnemonicBits (pay : Nat) : Layout → Nat
  | .f => pay % 4
  | .k | .cmpi | .fence | .mma | .mplane => 0
  | .s => pay % 16
  | .cut => pay / 64 * 64

/-- The PFX.M payload of an instruction written with suffixes that set the bits `v`: none where nothing is written (R64). In an entry
without suffixes the mnemonic, the operands and the spellings that R133 counts as written say it alone. -/
def writtenPayload (pay : Option Nat) (l : List Suffix) (v : Nat) : Option Layout → Option Nat
  | none => pay
  | some lay => if l = [] && mnemonicBits (pay.getD 0) lay = 0 then none else some (mnemonicBits (pay.getD 0) lay + v)

/-- The bits of written suffixes in a layout; none where the entry does not take one, or a category is repeated (E102). -/
def suffixBits (l : List Suffix) (lay : Option Layout) : Option Nat :=
  if !(l.map Suffix.category).Nodup then none
  else
    match lay with
    | none => if l = [] then some 0 else none
    | some lay => (l.mapM fun (x : Suffix) => x.bits lay).map List.sum

/-- The words of an instruction written with suffixes, as R63 and R64 choose them: PFX.M where a suffix is written or the mnemonic and
the operands need it, with zero in every field for which no suffix is written; none where the suffixes raise E102, or do not write
this instruction. -/
def encodeWritten (l : List Suffix) (i : Instr) (stall : BitVec 8) : Option (List IWord) :=
  match encParts i, suffixBits l (layoutOf i) with
  | some (page, op, e), some v =>
    let ws := mkWords page op stall.toNat { e with m := writtenPayload e.m l v (layoutOf i) }
    match decodeWords ws with
    | .ok b => if b.instr = i then some ws else none
    | .error _ => none
  | _, _ => none

end Sys2Proof
end

