-- ==== Sys2Proof/Config.lean ====
section
/-!
DEFINITION. What the spec leaves open to the device or to the world outside the module.
Every constant here is opaque: it has no body, so no proof can use a value of it (log 5).
-/

namespace Sys2Proof.Config

/-- The free byte number `n`: a value that the spec leaves undefined or gives to an outside agent.
The step applies it to a counter of State and advances the counter (log 5). -/
opaque freeByte : Nat → Byte

/-- Word 0 and word 1 of the module serial number, held in fuses (spec/29_service.md R370). -/
opaque serial : Fin 2 → Word

/-- The private key of the identity, held in fuses and not readable (spec/29_service.md R369). -/
opaque idSecret : Nat

/-- The SM3 digest of the public key that signs boot images, held in fuses (spec/29_service.md R368). -/
opaque fusedKey : Fin 32 → Byte

/-- The user identity with which boot images are signed, which R368 does not name (log 49). -/
opaque bootSigner : Fin 16 → Byte

/-- The device-defined CHECK field of context record number `n` (spec/27_launch.md R350). -/
opaque recordCheck : Nat → BitVec 32

/-- The payload of the header flit of a packet, whose layout is internal to the fabric (spec/15_fabric.md R210): from the class,
source core, destination bank, destination module and bytes of data. -/
opaque headerOf : Bool → Nat → Nat → Nat → Nat → BitVec 256

/-- What a header flit's payload says: class, source core, destination bank, destination module and bytes of data. -/
opaque readHeader : BitVec 256 → Bool × Nat × Nat × Nat × Nat

end Sys2Proof.Config
end

