-- ==== Sys2Proof/Machine/SMap.lean ====
section
/-!
DEFINITION. Sparse tables as plain data: a list of (key, value) pairs with strictly rising keys. A table reads as a
default at every key that it does not list.
-/

namespace Sys2Proof.Machine

/-- A sparse table. -/
abbrev SMap (α : Type) := List (Nat × α)

variable {α : Type}

/-- The value listed at a key. -/
def smFind : SMap α → Nat → Option α
  | [], _ => none
  | (j, v) :: t, k => if k = j then some v else smFind t k

/-- The value at a key, with the default of the table. -/
def smGet (d : α) (m : SMap α) (k : Nat) : α := (smFind m k).getD d

/-- The table with a value at a key. -/
def smPut : SMap α → Nat → α → SMap α
  | [], k, v => [(k, v)]
  | (j, w) :: t, k, v =>
    if k < j then (k, v) :: (j, w) :: t
    else if k = j then (k, v) :: t
    else (j, w) :: smPut t k v

/-- The table with nothing listed at a key. -/
def smDel : SMap α → Nat → SMap α
  | [], _ => []
  | (j, w) :: t, k => if k = j then smDel t k else (j, w) :: smDel t k

/-- The table in which a value equal to the default is not listed. -/
def smSet [DecidableEq α] (d : α) (m : SMap α) (k : Nat) (v : α) : SMap α :=
  if v = d then smDel m k else smPut m k v

/-- The keys rise strictly. -/
def smSorted : SMap α → Bool
  | [] => true
  | [_] => true
  | (a, _) :: (b, w) :: t => a < b && smSorted ((b, w) :: t)

/-- The first number from `lo` on, among `n`, that a test accepts. -/
def firstFrom (p : Nat → Bool) : Nat → Nat → Option Nat
  | _, 0 => none
  | lo, n + 1 => if p lo then some lo else firstFrom p (lo + 1) n

end Sys2Proof.Machine
end

