-- ==== Sys2Proof/Machine/Types.lean ====
section
/-!
DEFINITION. The records that State holds for threads, tasks, teams, launches, memory requests and translations.
All of them are plain data.
-/

namespace Sys2Proof.Machine

/-- The null capability (R83). -/
def nullCap : Cap := ⟨0, 0, false⟩

/-! ## Registers of a thread -/

/-- A register of one of the five files that R45 numbers. -/
inductive Reg where
  | g (r : GReg) | c (r : CReg) | p (r : PReg) | v (r : VReg) | m (r : MReg)
  deriving DecidableEq, Repr

/-- A register together with a value for it. -/
inductive RegWrite where
  | g (r : GReg) (x : Word)
  | c (r : CReg) (x : Cap)
  | p (r : PReg) (x : Bool)
  | v (r : VReg) (x : VWord)
  | m (r : MReg) (x : Mask)
  deriving DecidableEq, Repr

/-- The register that a write names. -/
def RegWrite.reg : RegWrite → Reg
  | .g r _ => .g r
  | .c r _ => .c r
  | .p r _ => .p r
  | .v r _ => .v r
  | .m r _ => .m r

/-- A result not yet written (R43, R44): the nominal time at which a fixed-latency result is written, or none for an
interlocked result that has not arrived. -/
structure Pend where
  w   : RegWrite
  due : Option Nat
  deriving DecidableEq, Repr

/-! ## Contexts -/

/-- Why a context is parked (R158, R240, R358), with what its wake needs. -/
inductive ParkWhy where
  /-- DEQ on an empty port, ENQ on a full one (R164, R165) -/
  | port (q : Nat)
  /-- an engine instruction whose command queue, named by its port, is full (R158) -/
  | engine (q : Nat)
  /-- FIRE whose message has not been accepted (R168): the destination core and the emit priority -/
  | fire (dest prio : Nat)
  /-- BWAIT (R173) -/
  | bwait
  /-- FALIGN at a code offset (R173) -/
  | falign (x : Nat)
  /-- LDVER of a version, and whether the home's wait table holds it (R178) -/
  | ldver (addr : Nat) (want : BitVec 32) (entered : Bool)
  /-- STVER whose home's version buffer is full (R179) -/
  | stver (addr : Nat)
  /-- CNTW of a threshold, and whether the home's wait table holds it (R209) -/
  | cntw (addr : Nat) (thr : Word) (entered : Bool)
  /-- MWAIT on a tile (spec/19_matrix.md R272) -/
  | mwait (t : Nat)
  /-- WAITI (R358) -/
  | waiti
  /-- an absent page: object, page, rights needed, and the TVAL recorded (R240) -/
  | absent (obj page rights : Nat) (tval : Word)
  /-- a record refused by the queue of a port cluster (R241): the destination cluster and module -/
  | ship (cluster mod : Nat)
  deriving DecidableEq, Repr

/-- What the step runs around the current instruction: the core and context that issue, the stall count and the words of
the bundle, its base word, whether it is a micro-operation of a macro, the instruction, and for a bundle
that executes again the value that its wake carries (R178, R209) and its place in the order of parking. -/
structure Cur where
  core    : Nat
  ctx     : Nat
  stall   : Nat
  words   : Nat
  base    : IWord
  micro   : Bool
  instr   : Instr
  carried : Option Word
  since   : Option Nat
  deriving DecidableEq, Repr

/-- A parked bundle: why, its place in the order of parking, the bundle, and the value that a wake carries (R178, R209). -/
structure Park where
  why    : ParkWhy
  order  : Nat
  bundle : Cur
  woken  : Option Word
  deriving DecidableEq, Repr

/-- What a context holds (R157 to R160, R241, R243). -/
inductive CtxState where
  | free
  | running
  | parked (p : Park)
  /-- its thread runs in another context, named by its number -/
  | travelling (at_ : Nat)
  /-- its thread's record waits at a port cluster -/
  | travelQueued
  /-- its thread runs in another module -/
  | travelAbroad (mod die : Nat)
  deriving DecidableEq, Repr

/-- A firing (R152): its serial number, team, actor, kind (0 item, 1 stage, 2 message, 3 record), task priority, the
light-handler port it serves, the work-graph record it runs, and the context it left when it was shipped. -/
structure Firing where
  id     : Nat
  launch : Nat
  team   : Nat
  actor  : Nat
  kind   : Nat
  prio   : Nat
  port   : Option Nat
  record : Option (Nat × Nat)
  home   : Option Nat
  deriving DecidableEq, Repr

/-- A macro in progress (R118): macro number, next entry, $a, $b, $c, $i and the length of the MCALL bundle. -/
structure MacroRun where
  num   : Nat
  idx   : Nat
  a     : Nat
  b     : Nat
  c     : Nat
  i     : Word
  words : Nat
  deriving DecidableEq, Repr

/-- A store issued and not yet performed (R171, R175, R188): the home address, the bytes, the tag that STC sets, the
firing that issued it, and the translation it used (object, page, whether the access counts at a migratable page, rights). -/
structure StoreReq where
  addr   : Nat
  bytes  : List Byte
  tag    : Bool
  firing : Nat
  obj    : Nat
  page   : Nat
  mig    : Bool
  perm   : Nat
  deriving DecidableEq, Repr

/-- One entry of a work-graph reservation table (spec/23_traversal.md R313). -/
structure WgRes where
  queue  : Nat
  remain : Nat
  gen    : Nat
  slots  : List Nat
  deriving DecidableEq, Repr

/-- A result element or fault record that waits for a context: a queue port with its data words, or the eight words of a
record that trap 0x14 delivers (R162, R357). -/
structure Held where
  port  : Nat
  words : List Word
  deriving DecidableEq, Repr

/-- An entry of a return-address store that a thread spilled through SPOV before it was saved (R116, R123): its bytes, tag and poison, or, where
the save could not read it, the capability through which it was spilled (log 91). -/
inductive Spilt where
  | read (bytes : List Byte) (tag poison : Bool)
  | behind (spov : Cap)
  deriving DecidableEq, Repr

/-- The state of one thread context (R80, R353 and the chapters they name). `atHome`: the thread has come back and its bundle executes
at home (R243). `tvalWhole`: bits 57 and 56 of TVAL belong to a field of the map that the last trap has (R11; log 61). `kept`: the entries,
by number, that a save took from behind SPOV (R123). -/
structure Thread where
  g       : SMap Word
  c       : SMap Cap
  p       : SMap Bool
  v       : SMap VWord
  m       : SMap Mask
  nt      : Nat
  pend    : List Pend
  pcc     : Cap
  ras     : List Cap
  area    : Nat
  ovr     : Nat
  tctl    : Word
  tcause  : Word
  tepc    : Word
  tval    : Word
  tvalWhole : Bool
  workid  : Word
  lfsr    : BitVec 32
  xferid  : Word
  spov    : Cap
  kept    : SMap Spilt
  lpst    : Word
  lpsa    : Word
  mcx     : Word
  arcw    : Cap
  tpcc    : Cap
  dba0    : Word
  dba1    : Word
  eprio   : Nat
  frec    : List Word
  noBreak : Bool
  atHome  : Bool
  run     : Option MacroRun
  status  : CtxState
  firing  : Option Firing
  stores  : List StoreReq
  held    : List Held
  traps   : List Held
  cut     : Option (Word × List Nat)
  wg      : SMap WgRes
  wgGen   : Nat
  bundles : Nat
  deriving DecidableEq, Repr

/-- A context that has run no firing: every register holds what State.reset says of it (log 3). -/
def Thread.init : Thread where
  g := []
  c := []
  p := []
  v := []
  m := []
  nt := 0
  pend := []
  pcc := nullCap
  ras := []
  area := 0
  ovr := 0
  tctl := 0
  tcause := 0
  tepc := 0
  tval := 0
  tvalWhole := false
  workid := 0
  lfsr := 1
  xferid := 0
  spov := nullCap
  kept := []
  lpst := 0
  lpsa := 0
  mcx := 0
  arcw := nullCap
  tpcc := nullCap
  dba0 := 0
  dba1 := 0
  eprio := 0
  frec := []
  noBreak := false
  atHome := false
  run := none
  status := .free
  firing := none
  stores := []
  held := []
  traps := []
  cut := none
  wg := []
  wgGen := 0
  bundles := 0

/-! ## Tasks, teams and launches -/

/-- A task (R152): launch and team, actor, kind, the values of g1 to g8, WORKID, what its firing serves, XFERID for a
copy's handler (R282), and the place of its record in the order of commitment (R335). -/
structure Task where
  launch : Nat
  team   : Nat
  actor  : Nat
  kind   : Nat
  words  : List Word
  workid : Word
  depth  : Nat
  port   : Option Nat
  record : Option (Nat × Nat)
  copied : Option Word := none
  commit : Nat := 0
  deriving DecidableEq, Repr

/-- A place in a core's queue: a task, or a team that still has items (R156). -/
inductive QItem where
  | task (t : Task)
  | items (team : Nat)
  deriving DecidableEq, Repr

/-- A queued place with its priority (R155, R156). -/
structure QEntry where
  prio : Nat
  item : QItem
  deriving DecidableEq, Repr

/-- A stage element (R163) with the WORKID of the firing that pushed it (R167). -/
structure Element where
  data   : Word
  ctl    : Bool
  workid : Word
  deriving DecidableEq, Repr

/-- A barrier (R170). -/
structure Barrier where
  phase   : BitVec 32
  expect  : Nat
  arrived : Nat
  next    : Nat
  leave   : Nat
  bytes   : Int
  deriving DecidableEq, Repr

/-- A save area (R350): the physical address of its first frame, its frames, and the records in use. -/
structure SaveArea where
  base    : Nat
  frames  : Nat
  records : Nat
  used    : List Nat
  deriving DecidableEq, Repr

/-- A resident team (R154). -/
structure Team where
  launch : Nat
  no     : Nat
  core   : Nat
  slot   : Nat
  next   : Nat
  items  : Nat
  counts : SMap Nat
  ports  : SMap (List Element)
  lh     : SMap Nat
  lhBusy : List Nat
  bars   : SMap Barrier
  tiles  : List Nat
  area   : SaveArea
  deriving DecidableEq, Repr

/-- The registers that the device keeps for each launch and context (R348). -/
structure LaunchRegs where
  tctl : Word
  spov : Cap
  dba0 : Word
  dba1 : Word
  deriving DecidableEq, Repr

/-- What saved a context (R160, R351, R358). -/
inductive SavedBy where
  | parkOut | ctxsv | sweep
  deriving DecidableEq, Repr

/-- A context saved out of its core (R160, R351, R358): its thread, the context it left, its team, the address of its record
in a save area or the record that CTXSV wrote, the entries of its return-address store that were spilled to its carve-out (R123), with
their tags and poison, whether its event has come, and whether OBJINV gave it a fault. -/
structure Saved where
  how    : SavedBy
  tid    : Nat
  team   : Nat
  addr   : Nat
  image  : List Byte
  thread : Thread
  spills : List (List Byte × Bool × Bool)
  ready  : Bool
  fault  : Bool
  deriving DecidableEq, Repr

/-- Where a launch stands (R349, R351); one that has ended is gone. -/
inductive Phase where
  | live
  | closing
  | swept
  deriving DecidableEq, Repr

/-- An arcade that holds clusters: its number, its die and its clusters in ascending order, the number of its window (R186, log 7),
for each member index how many of its teams have become resident (R345, R346), and the die in whose numbers the window's is:
that of the arcade's first placement. -/
structure Placed where
  arcade   : Nat
  die      : Nat
  clusters : List Nat
  window   : Nat
  ks       : SMap Nat
  wdie     : Nat
  deriving DecidableEq, Repr

/-- A launch in the module (R343 to R351): its header and options, the next arcade to place, the arcades placed and those
held after a sweep, the registers kept for its contexts, the dies whose closing timers run, its counts, the time of its
acceptance, the time since which it waits for clusters and the time at which its first arcade was placed. -/
structure Launch where
  id      : Nat
  spec    : LaunchSpec
  phase   : Phase
  next    : Nat
  placed  : List Placed
  swept   : List Placed
  regs    : SMap LaunchRegs
  timers  : List Nat
  items   : Nat
  traps   : Nat
  dropped : Nat
  start   : Nat
  since   : Option Nat
  began   : Option Nat
  deriving DecidableEq, Repr

/-! ## Translation and homes -/

/-- A TLB entry (R237): object, first page, page count, the leaf's LOC, PERM bits, FRAME, HOME and MODULE, and the
descriptor's attributes. -/
structure TlbEntry where
  obj   : Nat
  page  : Nat
  count : Nat
  loc   : Nat
  perm  : Nat
  frame : Nat
  home  : Nat
  mod   : Nat
  ship  : Bool
  mig   : Bool
  ver   : Bool
  deriving DecidableEq, Repr

/-- The version and the reclaim bit of a word of a versioned object, and the object (R176). -/
structure VerMeta where
  version : BitVec 32
  rcl     : Bool
  obj     : Nat
  deriving DecidableEq, Repr

/-- A version-buffer entry (R177). -/
structure VerEntry where
  addr    : Nat
  version : BitVec 32
  value   : Word
  deriving DecidableEq, Repr

/-- What a wait-table entry waits for: a version, or a counter at or below a threshold (R177, R209). -/
inductive WaitFor where
  | version (v : BitVec 32)
  | counter (thr : Word)
  deriving DecidableEq, Repr

/-- A wait-table entry (R177): the word, what it waits for, and the context. -/
structure WaitEntry where
  addr : Nat
  what : WaitFor
  tid  : Nat
  deriving DecidableEq, Repr

/-- The metadata of a migratable page (R245): its object and page, the requesting die D (module and die), the run count C, MOVES and
the time at which the window that runs started; the page's rights, and a move in progress to a slice. -/
structure PageMeta where
  obj    : Nat
  page   : Nat
  reqMod : Nat
  reqDie : Nat
  run    : Nat
  moves  : Nat
  window : Option Nat
  perm   : Nat
  moving : Option Nat
  deriving DecidableEq, Repr

/-- A redirect entry (R247): the old frame's home address, object, page, and the new home. -/
structure Redirect where
  old  : Nat
  obj  : Nat
  page : Nat
  new  : TlbEntry
  made : Nat
  deriving DecidableEq, Repr

/-- A redirect notice on its way to a core (R246). -/
structure Notice where
  core  : Nat
  entry : TlbEntry
  deriving DecidableEq, Repr

end Sys2Proof.Machine
end

