-- ==== Sys2Proof/Machine/Caps.lean ====
section
/-!
DEFINITION. Capabilities: the fields of R83, the formats of R84, the bounds of R85, the tag rule of R86, the checks of R88
with the TVAL of R89, and the narrowing of CSETB (R107) (spec/07_one_thread.md).
-/

namespace Sys2Proof.Machine

/-- Bits hi..lo of a number. -/
def bitsOf (hi lo n : Nat) : Nat := n / 2 ^ lo % 2 ^ (hi - lo + 1)

/-- Bits hi..lo of a 64-bit word. -/
def fieldW (hi lo : Nat) (w : Word) : Nat := bitsOf hi lo w.toNat

/-- One bit of a word. -/
def bitW (i : Nat) (w : Word) : Bool := w.getLsbD i

/-- A word with bits hi..lo replaced. -/
def putField (hi lo : Nat) (w : Word) (v : Nat) : Word :=
  let n := w.toNat
  BitVec.ofNat 64 (n - bitsOf hi lo n * 2 ^ lo + (v % 2 ^ (hi - lo + 1)) * 2 ^ lo)

/-! ## Fields (R83) -/

def capFmt (c : Cap) : Nat := fieldW 63 59 c.w0
def capBl (c : Cap) : Nat := fieldW 58 56 c.w0
def capOff (c : Cap) : Nat := fieldW 55 0 c.w0
def capObj (c : Cap) : Nat := fieldW 63 32 c.w1
def capE (c : Cap) : Nat := fieldW 31 26 c.w1
def capBf (c : Cap) : Nat := fieldW 25 17 c.w1
def capTf (c : Cap) : Nat := fieldW 16 8 c.w1
def capRights (c : Cap) : Nat := fieldW 7 0 c.w1

/-- The capability with another offset; every other bit and the tag stay. -/
def capSetOff (c : Cap) (o : Nat) : Cap := { c with w0 := putField 55 0 c.w0 o }

/-- A capability from its fields. -/
def capMake (fmt bl off obj e bf tf rights : Nat) (tag : Bool) : Cap :=
  ⟨BitVec.ofNat 64 (fmt % 32 * 2 ^ 59 + bl % 8 * 2 ^ 56 + off % 2 ^ 56),
   BitVec.ofNat 64 (obj % 2 ^ 32 * 2 ^ 32 + e % 64 * 2 ^ 26 + bf % 512 * 2 ^ 17 + tf % 512 * 2 ^ 8 + rights % 256), tag⟩

/-- The rights of R83 by their bits. -/
def rR : Nat := 0x80
def rW : Nat := 0x40
def rX : Nat := 0x20
def rC : Nat := 0x10
def rS : Nat := 0x08
def rV : Nat := 0x04
def rA : Nat := 0x02
def rG : Nat := 0x01

/-! ## Formats (R84) -/

/-- A reserved format code. -/
def fmtReserved (f : Nat) : Bool := f = 8 || f ≥ 18

/-- The block-length log that a format requires. -/
def fmtBl (f : Nat) : Nat := if 11 ≤ f && f ≤ 16 then 5 else 0

/-- The capability is format-invalid. -/
def capBadFmt (c : Cap) : Bool := fmtReserved (capFmt c) || capBl c ≠ fmtBl (capFmt c)

/-- The natural size of an access through a capability, from its format code (R48, R84). -/
def fmtSize (f : Nat) : Nat :=
  match f with
  | 1 | 9 | 10 => 1
  | 2 | 5 | 6 => 2
  | 3 | 7 => 4
  | _ => 8

def capSize (c : Cap) : Nat := fmtSize (capFmt c)

/-! ## Bounds (R85) -/

/-- The bounds [base, top) of a capability; R85 bounds base from below and top from above alone. -/
def capBounds (c : Cap) : Nat × Int :=
  let e := capE c
  if e > 47 then (0, 0)
  else
    let a := capOff c
    let amid := a / 2 ^ e % 512
    let ahi : Int := a / 2 ^ (e + 9)
    let bf := capBf c
    let tf := capTf c
    let rb := (bf + 512 - 64) % 512
    let ca : Int := if amid < rb then 1 else 0
    let cb : Int := if bf < rb then 1 else 0
    let ct : Int := if tf < rb then 1 else 0
    let base := (ahi + cb - ca) * 2 ^ (e + 9) + (bf * 2 ^ e : Nat)
    let top := (ahi + ct - ca) * 2 ^ (e + 9) + (tf * 2 ^ e : Nat)
    (base.toNat, min top (2 ^ 56))

def capBase (c : Cap) : Nat := (capBounds c).1
def capTop (c : Cap) : Int := (capBounds c).2

/-- The tag rule of R86: the result `r` of pointer arithmetic on `src` keeps the tag only when no carry left OFFSET and
the bounds decode alike. -/
def keepTag (src r : Cap) (inRange : Bool) : Bool := src.tag && inRange && capBounds r = capBounds src

/-- The capability with its offset replaced by an exact integer, tagged by R86 (R106). -/
def capMove (c : Cap) (t : Int) : Cap :=
  let r := capSetOff c (t % 2 ^ 56).toNat
  { r with tag := keepTag c r (0 ≤ t && t < 2 ^ 56) }

/-- The smallest exponent from `e` on, among `k`, that holds [lo, hi) in 447 granules (R107). -/
def fitExp (lo hi : Nat) : Nat → Nat → Option Nat
  | 0, _ => none
  | k + 1, e =>
    if (hi + 2 ^ e - 1) / 2 ^ e - lo / 2 ^ e ≤ 447 then some e else fitExp lo hi k (e + 1)

/-- The exponent and the rounded bounds of a region (R107). -/
def regionOf (lo hi : Nat) : Option (Nat × Nat × Nat) :=
  (fitExp lo hi 48 0).map fun e => (e, lo / 2 ^ e * 2 ^ e, (hi + 2 ^ e - 1) / 2 ^ e * 2 ^ e)

/-- The capability with its bounds set to a region's (R107). -/
def capSetRegion (c : Cap) (e nb nt : Nat) : Cap :=
  { c with w1 := putField 31 26 (putField 25 17 (putField 16 8 c.w1 (nt / 2 ^ e % 512)) (nb / 2 ^ e % 512)) e }

/-- A tagged bytes capability over [lo, hi) of an object, with its offset at `off` (R81, R186, R347). -/
def capOver (obj lo hi off rights : Nat) : Cap :=
  match regionOf lo hi with
  | some (e, nb, nt) => capSetRegion (capMake 0 0 off obj 0 0 0 rights true) e nb nt
  | none => capMake 0 0 off obj 0 0 0 rights true

/-! ## Checks (R88) and TVAL (R89) -/

/-- The TVAL of R89. -/
def tvalCap (src creg offs : Nat) : Word :=
  BitVec.ofNat 64 (src % 4 * 2 ^ 62 + (if src % 4 = 1 then creg % 16 else 0) * 2 ^ 58 + offs % 2 ^ 56)

/-- The rights of `need` that a capability lacks. -/
def missing (need have_ : Nat) : Nat := need &&& (255 ^^^ have_)

/-- The check of an access of `n` bytes at the exact offset `ea` through a capability (R88): the first cause that applies
and its OFFS. -/
def capCheck (c : Cap) (need : Nat) (ea : Int) (n align : Nat) : Option (Nat × Nat) :=
  let offs := (ea % 2 ^ 56).toNat
  if !c.tag then some (0x04, offs)
  else if missing need (capRights c) ≠ 0 then some (0x06, missing need (capRights c))
  else if capBadFmt c then some (0x07, offs)
  else if ea < capBase c || ea + n > capTop c then some (0x05, offs)
  else if ea % (align : Int) ≠ 0 then some (0x0E, offs)
  else none

/-- The exact integer that a 64-bit word is, signed. -/
def sgn (w : Word) : Int := w.toInt

end Sys2Proof.Machine
end

