-- ==== Sys2Proof/Machine/Units.lean ====
section
/-!
DEFINITION. The records that State holds for the engines of a core and a cluster (matrix unit, streamer, traversal unit,
work graphs), for caches, for the fabric, for the die registers and for the host side. All of them are plain data.
-/

namespace Sys2Proof.Machine

/-- Who pushed an engine command: the context, the core of its queues, the firing, its launch, team and WORKID. -/
structure Origin where
  tid    : Nat
  core   : Nat
  firing : Nat
  launch : Nat
  team   : Nat
  workid : Word
  deriving DecidableEq, Repr

/-! ## Matrix unit (spec/19_matrix.md) -/

/-- The parameters of an epilogue (R266, R268): destination, accumulate, clamp bound, stride, activation, rounding mode
and the LFSR before its first step. -/
structure Epilogue where
  dst    : Cap
  acc    : Bool
  bound  : BitVec 16
  stride : Nat
  act    : Act
  rnd    : Rnd
  l0     : BitVec 32
  deriving DecidableEq, Repr

/-- One matrix command (R258); `t` is a physical tile, `spec` the specifier that names it. -/
inductive MBody where
  | plane (p : Nat) (dst src : Cap) (role : Nat) (nslab stride : Nat)
  | mma (spec t : Nat) (planes : Option (Nat × Nat)) (a b : Cap) (kstart klen : Nat) (sparse : Bool)
  | epi (spec t : Nat) (e : Epilogue)
  | replay (spec t : Nat)
  | zero (spec t : Nat)
  | release (spec t : Nat)
  | marker (v : Word)
  deriving DecidableEq, Repr

/-- A queued matrix command with its origin and number. -/
structure MCmd where
  id   : Nat
  org  : Origin
  body : MBody
  deriving DecidableEq, Repr

/-- An MMA or MMAS in progress (R264): the planes read of A and B and the planes that A holds, the chunks applied, the
tile's elements before the command, and the non-finite terms met so far for each output, as (offset of k, sign or NaN). -/
structure MRun where
  cmd    : MCmd
  pa     : Nat
  pb     : Nat
  held   : Nat
  chunk  : Nat
  before : SMap (BitVec 32)
  terms  : SMap (List (Nat × Option Bool))
  deriving DecidableEq, Repr

/-- A physical tile (R253, R254): its elements by 32 * row + column, its status word and a kept epilogue (R268) with the commands that its
last row completes: the MEPI and the replays that stopped (R260). -/
structure Tile where
  elems  : SMap (BitVec 32)
  status : Word
  kept   : Option (List MCmd × Epilogue)
  deriving DecidableEq, Repr

/-- A marker waiting for earlier commands (R260): its value, its origin, and the commands it waits for. -/
structure Marker where
  value : Word
  org   : Origin
  after : List Nat
  deriving DecidableEq, Repr

/-- A core's matrix unit. -/
structure MUnit where
  queue   : List MCmd
  running : Option MRun
  markers : List Marker
  tiles   : SMap Tile
  deriving DecidableEq, Repr

/-- A matrix unit with nothing queued and its tiles clear. -/
def MUnit.empty : MUnit := ⟨[], none, [], []⟩

/-- A tile as team placement leaves it (R254). -/
def Tile.clear : Tile := ⟨[], 0, none⟩

/-! ## Streamer (spec/21_streamer.md, spec/13_many_cores.md) -/

/-- The kinds of streamer commands (R198, R206, R277); `cut` is a CUT or COCUT whose bundle waits for its start. -/
inductive XKind where
  | get | send | sig | getx | sendx | arith | copy | marker | cut
  deriving DecidableEq, Repr

/-- Where a streamer command stands. -/
inductive XPhase where
  | queued | running
  | suspended (byStep : Bool)
  | stopped
  deriving DecidableEq, Repr

/-- A packet of destination arithmetic that a router has combined (R208): its elements' operands, and whether the combining of MX
blocks saturated. -/
structure Flight where
  unit   : Nat
  elems  : List (List Byte)
  ovf    : Bool
  deriving DecidableEq, Repr

/-- A streamer command (R198 to R208, R277 to R286). `seen` holds the source bytes that were read, with their poison, by their distance
from the source's offset (R340); `parts` the packets of destination arithmetic once the command has started (R207); `merged` the units
that carry a packet of another command (R208); `pushed` the CRESUME and CDROP commands that put a copy back in the queue, each with its place
in the order of pushes and its firing (R277, R285). -/
structure Xfer where
  id       : Nat
  org      : Origin
  kind     : XKind
  phase    : XPhase
  scope    : Scope
  op       : RedOp
  ordered  : Bool
  elem     : Elem
  seq      : Nat
  dst      : Cap
  src      : Cap
  idx      : Option Cap
  ctr      : Cap
  blk      : Cap
  n        : Nat
  esz      : Nat
  isz      : Nat
  list     : Option (List (Option Int))
  seen     : SMap (Byte × Bool)
  ctl      : Word
  xferid   : Word
  flight   : List Flight
  landed   : List Nat
  reported : Nat
  range    : Nat
  pidx     : Nat
  pdata    : Nat
  ovf      : Bool
  reord    : Bool
  merged   : List (Nat × Nat)
  parts    : Option (List (Nat × List Nat))
  pushed   : List (Nat × Nat)
  deriving DecidableEq, Repr

/-- A packet in a bank's reorder table (R207): bank, source core, transfer, packet. -/
structure Reorder where
  bank : Nat
  core : Nat
  xfer : Nat
  unit : Nat
  deriving DecidableEq, Repr

/-! ## Traversal unit and work graphs (spec/23_traversal.md) -/

/-- A traversal command (R295). -/
inductive TBody where
  | trav (h ray : Cap)
  | dtrav (blk : Cap)
  | marker (v : Word)
  deriving DecidableEq, Repr

/-- A hierarchy: its capability and its header's fields. -/
structure Hier where
  cap    : Cap
  nnodes : Nat
  root   : Nat
  poff   : Nat
  nprim  : Nat
  strict : Bool
  deriving DecidableEq, Repr

/-- A dual descent in progress (R305): its hierarchies and control word, its pending pairs, top first, EMIT, the records
emitted by this issue, POISON, and the queue that its WORK counts in. -/
structure DRun where
  ha      : Hier
  hb      : Hier
  ctl     : Word
  stack   : List (Nat × Nat)
  emit    : Nat
  emitted : Nat
  poison  : Bool
  queue   : Nat
  deriving DecidableEq, Repr

/-- A command in a core's traversal buffer or running in its cluster's unit; `poison` is set where a sweep stopped it after it skipped a
poisoned line (R298, R309). -/
structure TCmd where
  id      : Nat
  org     : Origin
  body    : TBody
  poison  : Bool
  running : Bool
  run     : Option DRun
  result  : Option Word
  deriving DecidableEq, Repr

/-- A line of a cluster's node cache (R297, R298), with the numbers of its poisoned 8-byte granules, all eight of a line filled with
uncorrectable data (R362). -/
structure NodeLine where
  obj    : Nat
  off    : Nat
  bytes  : List Byte
  poison : List Nat
  deriving DecidableEq, Repr

/-- A slot of a work-graph queue (R310, R313, R319, R373): reserved; holding a committed record, with its byte 31, its place in
the commit order, whether a fault holds it back and whether its fault record was sent; or holding a record whose task has
not started. Free slots are not listed. -/
inductive WSlot where
  | reserved
  | committed (depth order : Nat) (stuck sent : Bool)
  | dispatched
  deriving DecidableEq, Repr

/-- A bound work-graph queue (R310 to R312), held at its descriptor's home. -/
structure WQueue where
  id     : Nat
  obj    : Nat
  off    : Nat
  home   : Nat
  launch : Nat
  team   : Nat
  core   : Nat
  segs   : List Cap
  active : List Nat
  cnt    : Cap
  qctl   : Word
  armed  : Bool
  cap    : Nat
  used   : Nat
  work   : Nat
  abn    : Nat
  disp   : Nat
  slots  : SMap WSlot
  deriving DecidableEq, Repr

/-! ## Instruction fetch (R182, R183) -/

/-- A line of a cluster's instruction cache, with the 8-byte granules of its SRAM that are poisoned (R362) and the time of its
fill (R122). -/
structure CodeLine where
  obj    : Nat
  off    : Nat
  bytes  : List Byte
  poison : List Nat
  made   : Nat
  deriving DecidableEq, Repr

/-- A loop body pinned by LOOPP (R120, R183), with the time of its pinning (R122). -/
structure LoopBody where
  obj   : Nat
  start : Nat
  words : SMap IWord
  made  : Nat
  deriving DecidableEq, Repr

/-! ## Notices (R233, R240, R317, R356) -/

/-- A notice or fault record that waits to become a task (R154, R155): the core it was made on, its launch and team,
whether it is an engine fault record and the context that pushed the failing command, the actor, and the message words.
A launch of none names the supervisor launch of the port cluster of the core's die. -/
structure Note where
  core   : Nat
  launch : Option Nat
  team   : Nat
  record : Bool
  org    : Option Origin
  actor  : Option Nat
  workid : Word
  words  : List Word
  copied : Option Word := none
  deriving DecidableEq, Repr

/-! ## The fabric (spec/15_fabric.md) -/

/-- A packet (R210): its number, class, source core, destination bank index and module position, and its data. -/
structure Pkt where
  id   : Nat
  resp : Bool
  src  : Nat
  bank : Nat
  mod  : Nat
  data : List Byte
  deriving DecidableEq, Repr

/-- A packet waiting at a writer port of a home channel (R211, R212), whether the port's DRAM slice or its cluster sends it, and the flits
still to send. -/
structure PortPkt where
  chan : Nat
  port : Nat
  slice : Bool
  left : Nat
  pkt  : Pkt
  deriving DecidableEq, Repr

/-- The three states in which an owner releases a token (R213). -/
inductive TokenState where
  | opened | respOnly | withheld
  deriving DecidableEq, Repr

/-- A channel's token (R212, R213): its state, the ports barred until it passes the owner, the free buffers of each class, the flits
that the channel has carried in this period, and for each port whether its DRAM slice was the source served last (R211). -/
structure Token where
  state  : TokenState
  barred : List Nat
  freeRq : Nat
  freeRs : Nat
  load   : Nat
  served : SMap Bool
  deriving DecidableEq, Repr

/-- A packet at a ring stop (R215): cluster, stop, direction, still at its own agent, and the stop it goes to. -/
structure RingPkt where
  cluster : Nat
  stop    : Nat
  cw      : Bool
  entering : Bool
  dest    : Nat
  pkt     : Pkt
  deriving DecidableEq, Repr

/-- A packet in the torus router (R217, R218): the direction it leaves by, whether it enters that dimension here, and the router input
whose buffer holds it, none for one of this module. -/
structure TorusPkt where
  dir    : Nat
  enters : Bool
  input  : Option Nat
  pkt    : Pkt
  deriving DecidableEq, Repr

/-- A flit of a transmit queue or replay buffer (R221): KIND, SEQ, PAYLOAD, the width at which it was first sent (R223), the
packet it is part of, and the lane group whose traffic it is. -/
structure Flit where
  kind    : Nat
  seq     : Nat
  payload : BitVec 256
  width   : Nat
  pkt     : Nat
  group   : Nat
  deriving DecidableEq, Repr

/-- A lane group (R220 to R226, R228): its registers; its transmitter's queue, replay buffer, the acknowledged flits of a
packet not wholly accepted, the next SEQ and the run of NAKs of one SEQ; a resend and a park that wait for a flit boundary; its
receiver's next SEQ, last accepted SEQ, unacknowledged flits, discarding, a NAK and a READY that wait until the group sends again, run of NAKs, width
and a width to come; the wake in progress (none, or whether it retrains a group that was down) with the time at which its READY arrived,
the ring move in progress (fibre, wavelength, old ring, new ring), the groups that its traffic has moved to, the last first, the lanes
that wake at the receiver, and the flits sent on the wire. -/
structure LaneGroup where
  lgctl   : BitVec 32
  qthr    : BitVec 32
  linkerr : BitVec 32
  txq     : List Flit
  replay  : List Flit
  part    : List Flit
  nextSeq : Nat
  naks    : Nat
  nakSeq  : Nat
  owed    : Bool
  parking : Bool
  expSeq  : Nat
  lastAck : Nat
  unacked : Nat
  discard : Bool
  nakDue  : Bool
  rdyDue  : Bool
  rxNaks  : Nat
  rxWidth : Nat
  rxNext  : Option Nat
  wake    : Option Bool
  ready   : Option Nat
  move    : Option (Nat × Nat × Nat × Nat)
  subst   : List Nat
  farLit  : List Nat
  sent    : List Flit
  deriving DecidableEq, Repr

/-- A lane group as boot firmware leaves it (R224, R225). -/
def LaneGroup.reset : LaneGroup where
  lgctl := 0x333
  qthr := 64
  linkerr := 0
  txq := []
  replay := []
  part := []
  nextSeq := 0
  naks := 0
  nakSeq := 0
  owed := false
  parking := false
  expSeq := 0
  lastAck := 0
  unacked := 0
  discard := false
  nakDue := false
  rdyDue := false
  rxNaks := 0
  rxWidth := 3
  rxNext := none
  wake := none
  ready := none
  move := none
  subst := []
  farLit := []
  sent := []

/-- A command pushed to q6 and not yet served (R230, R231): the context and the firing that pushed it, and the element. -/
structure Q6Cmd where
  tid    : Nat
  firing : Nat
  word   : Word
  deriving DecidableEq, Repr

/-- The fabric's state. HEAT, the code in force of a ring, MPD and RINGMAP are listed by 32 * f + index; unlisted ones
hold their reset values (R227, R228). `q6`: the commands of the service port, in the order of their pushes. -/
structure Fabric where
  groups   : SMap LaneGroup
  heat     : SMap (BitVec 12)
  applied  : SMap (BitVec 12)
  mpd      : SMap (BitVec 12)
  ringmap  : SMap Nat
  torus    : BitVec 32
  trained  : Bool
  tokens   : SMap Token
  ports    : List PortPkt
  ring     : List RingPkt
  torusQ   : List TorusPkt
  rxq      : List (Nat × Flit)
  nextPkt  : Nat
  q6       : List Q6Cmd
  deriving DecidableEq, Repr

/-! ## Die registers and services (R248, R352, R361 to R370) -/

/-- A takeover in progress (R360): kind, cluster, core. -/
structure Takeover where
  kind    : Nat
  cluster : Nat
  core    : Nat
  deriving DecidableEq, Repr

/-- The registers and the placement state of a die. -/
structure Die where
  otbase  : Word
  migctl  : Word
  closectl : Word
  supact  : Word
  savpool : Word
  savUsed : List Nat
  pools   : SMap (List Nat)
  mbp     : SMap Word
  spare   : Word
  takeover : Option Takeover
  cores   : SMap Nat
  errBase : Nat
  errHead : Nat
  errCorr : Nat
  errSeq  : Nat
  linkUp  : Bool
  lastLaunch : Nat
  deriving DecidableEq, Repr

/-- A die at reset (R248, R352, R361, R364; the link is log 3). -/
def Die.reset : Die where
  otbase := 0
  migctl := BitVec.ofNat 64 (1000 * 2 ^ 32 + 4 * 2 ^ 24 + 256)
  closectl := 2000
  supact := 0
  savpool := 0
  savUsed := []
  pools := []
  mbp := []
  spare := BitVec.ofNat 64 (2 * 2 ^ 40)
  takeover := none
  cores := []
  errBase := 0
  errHead := 0
  errCorr := 0
  errSeq := 0
  linkUp := true
  lastLaunch := 0

/-! ## The host side (R342, R349) -/

/-- A vector's window clock (R349): the time of the last interrupt, the window of its launch and a held interrupt. -/
structure VecClock where
  sent   : Nat
  window : Nat
  held   : Bool
  deriving DecidableEq, Repr

/-- What the host port shows and holds: interrupts sent, oldest first, window writes held, notification SEQ, and the bytes of
the last host read with their CXL poison (R250, R342, R349). -/
structure HostSide where
  irqs   : List Nat
  held   : List (Nat × List Byte)
  seq    : Nat
  vecs   : SMap VecClock
  read   : List Byte
  poison : Bool
  deriving DecidableEq, Repr

/-- The module's run state (R365, R368). -/
inductive BootState where
  | inReset | running | stopped
  deriving DecidableEq, Repr

/-- A team held in its save area (R350, R351), with its streamer commands and the copies that the sweep suspended (R286). -/
structure SweptTeam where
  team   : Team
  tiles  : List (Nat × Tile)
  tasks  : List QEntry
  xfers  : List Xfer
  copies : List Xfer
  travs  : List TCmd
  marks  : List Marker
  deriving DecidableEq, Repr

/-- One turn of the schedule: a context issues, or an event of the device takes place. -/
inductive Turn where
  | issue (core ctx : Nat)
  | event (i : Instr)
  deriving DecidableEq, Repr

end Sys2Proof.Machine
end

