-- ==== Sys2Proof/Machine/State.lean ====
section
/-!
DEFINITION. The state of one D4096 module as plain data, the reasons for which a step stops, and the state after reset.
Tables are sparse (SMap): a context, core, cluster, die or lane group that is not listed is as reset leaves it.

Home addresses are natural numbers, one range for each kind of home (R2, R5, R251):
  0 to 2^40 - 1                    bonded DRAM of this module, by physical address
  2^40 + 2^18 k + o                byte o of the scratchpad slice of module core k
  2^42 (d + 1) + o                 byte o of the second tier behind the memory port of die d
  2^50 (p + 1) + such an address   a home of the module at torus position p, outside this module
-/

namespace Sys2Proof.Machine

/-- Why the machine stops. -/
inductive Fault where
  /-- Raised by step alone, when a fatal error has stopped the module (R365) and nothing is scheduled: no bundle issues
  until the module is reset. Safe: the spec says that every die stops issue. -/
  | moduleStopped
  deriving DecidableEq, Repr

/-- Why an instruction is refused. -/
inductive Refusal where
  /-- Raised by exec for an instruction without a meaning. Safe: nothing is claimed of it. -/
  | notModelled (mnemonic : String)
  deriving DecidableEq, Repr

/-- The machine (INVENTORY.md, heading State). -/
structure State where
  -- memory and its metadata
  mem      : List Host.Cell
  tags     : List Nat
  poison   : List Nat
  bufPoison : List Nat
  vers     : SMap VerMeta
  vbuf     : List VerEntry
  waits    : List WaitEntry
  -- contexts, tasks, teams and launches
  threads  : SMap Thread
  queues   : SMap (List QEntry)
  last     : SMap Nat
  teams    : SMap Team
  launches : SMap Launch
  ended    : List Firing
  torn     : List Nat
  saved    : List Saved
  swept    : List SweptTeam
  notes    : List Note
  -- translation, fetch and migration
  tlb      : SMap (List TlbEntry)
  icache   : SMap (List CodeLine)
  loops    : SMap (List LoopBody)
  pages    : SMap PageMeta
  redirects : List Redirect
  notices  : List Notice
  shipq    : SMap (List Nat)
  -- engines
  matrix   : SMap MUnit
  xfers    : List Xfer
  copies   : SMap Nat
  turns    : SMap Nat
  reorder  : List Reorder
  travs    : List TCmd
  ncache   : SMap (List NodeLine)
  served   : SMap Nat
  wqueues  : List WQueue
  book     : SMap Word
  tokens   : SMap Nat
  drew     : List Nat
  -- fabric, dies, host
  fabric   : Fabric
  dies     : SMap Die
  pwrbud   : Word
  attest   : Word
  host     : HostSide
  outbox   : List (Nat × List Byte)
  boot     : BootState
  supvSpill : Nat
  supvId   : Option Nat
  nextId   : Nat
  -- the model's own (logs 1 and 4)
  clock    : Nat
  serial   : Nat
  frees    : Nat
  cur      : Cur
  sched    : List Turn
  deriving DecidableEq, Repr

/-- The fabric at reset (R216, R224, R225, R227, R228). -/
def Fabric.reset : Fabric where
  groups := []
  heat := []
  applied := []
  mpd := []
  ringmap := []
  torus := 0
  trained := false
  tokens := []
  ports := []
  ring := []
  torusQ := []
  rxq := []
  nextPkt := 0
  q6 := []

/-- The module right after reset: in reset, with nothing placed and every register at the value its map gives (R368, and
the maps of R216, R224, R225, R227, R228, R248, R352, R361, R364, R367, R369). What no rule gives is log 3. -/
def State.reset : State where
  mem := []
  tags := []
  poison := []
  bufPoison := []
  vers := []
  vbuf := []
  waits := []
  threads := []
  queues := []
  last := []
  teams := []
  launches := []
  ended := []
  torn := []
  saved := []
  swept := []
  notes := []
  tlb := []
  icache := []
  loops := []
  pages := []
  redirects := []
  notices := []
  shipq := []
  matrix := []
  xfers := []
  copies := []
  turns := []
  reorder := []
  travs := []
  ncache := []
  served := []
  wqueues := []
  book := []
  tokens := []
  drew := []
  fabric := Fabric.reset
  dies := []
  pwrbud := 5000
  attest := 0
  host := ⟨[], [], 0, [], [], false⟩
  outbox := []
  boot := .inReset
  supvSpill := 0
  supvId := none
  nextId := 0
  clock := 0
  serial := 0
  frees := 0
  cur := ⟨0, 0, 0, 0, 0, false, .nop, none, none⟩
  sched := []

end Sys2Proof.Machine
end

