-- ==== Sys2Proof/Machine/Mem.lean ====
section
/-!
DEFINITION. Homes: what a home address names (R2, R5, R211, R249, R251), the bytes, tags (R87) and poison (R362, R363) held
there, the canonical form of memory, versions (R176), and the wake of parked LDVERs and CNTWs by a write (R178, R209).
-/

namespace Sys2Proof.Machine

/-! ## Home addresses -/

def sliceBase : Nat := 2 ^ 40
def tierBase : Nat := 2 ^ 42
def foreignBase : Nat := 2 ^ 50

/-- Byte o of the scratchpad slice of a core. -/
def sliceAddr (core o : Nat) : Nat := sliceBase + core * 2 ^ 18 + o

/-- Byte o of the second tier of a die. -/
def tierAddr (die o : Nat) : Nat := tierBase * (die + 1) + o

def isDram (a : Nat) : Bool := a < sliceBase
def isSlice (a : Nat) : Bool := sliceBase ≤ a && a < tierBase
def isTier (a : Nat) : Bool := tierBase ≤ a && a < foreignBase
def isForeign (a : Nat) : Bool := foreignBase ≤ a

/-- The core whose slice holds a scratchpad home address. -/
def sliceCore (a : Nat) : Nat := (a - sliceBase) / 2 ^ 18

/-- The die of a second-tier home address. -/
def tierDie (a : Nat) : Nat := a / tierBase - 1

def coreDie (k : Nat) : Nat := k / 1024
def coreCluster (k : Nat) : Nat := k / 16
def coreIdx (k : Nat) : Nat := k % 16

/-- The module core number of core 0 of the port cluster of a die (R341). -/
def portCore (die : Nat) : Nat := die * 1024 + 1008

/-- The number that stands for the slice of a home: scratchpad slices by core, DRAM slices from 4,096, memory ports from
4,352 (R177, R311). -/
def homeSlice (a : Nat) : Nat :=
  if isSlice a then sliceCore a else if isDram a then 4096 + a / 2 ^ 32 else 4352 + tierDie a

/-- The destination bank index of R217 (R205): 8 * core + bank, or 32,768 + DRAM slice; the eight banks of a slice are its
consecutive 32 KiB (log 6). Memory ports follow the DRAM slices. -/
def homeBank (a : Nat) : Nat :=
  if isSlice a then 8 * sliceCore a + (a - sliceBase) % 2 ^ 18 / 2 ^ 15
  else if isDram a then 32768 + a / 2 ^ 32 else 32768 + 256 + tierDie a

/-- The die of a home of this module. -/
def homeDie (a : Nat) : Nat :=
  if isSlice a then coreDie (sliceCore a) else if isDram a then a / 2 ^ 38 else tierDie a

/-! ## Bytes -/

/-- What an unlisted byte reads as (log 2). -/
def unlisted : Byte := 0

/-- The byte at a home address of this module. -/
def memByte (m : List Host.Cell) (a : Nat) : Byte := smGet unlisted m a

/-- Memory with one byte changed, in its canonical form. -/
def memPut (m : List Host.Cell) (a : Nat) (b : Byte) : List Host.Cell := smSet unlisted m a b

/-- The canonical form: addresses rise strictly and no entry equals what an unlisted byte reads as. -/
def memWf (m : List Host.Cell) : Bool := smSorted m && m.all fun c => c.2 ≠ unlisted

/-- n bytes from an address upward. -/
def memBytes (m : List Host.Cell) (a : Nat) : Nat → List Byte
  | 0 => []
  | n + 1 => memByte m a :: memBytes m (a + 1) n

/-- Memory with bytes written from an address upward. -/
def memPutBytes (m : List Host.Cell) (a : Nat) : List Byte → List Host.Cell
  | [] => m
  | b :: t => memPutBytes (memPut m a b) (a + 1) t

/-- The number that bytes hold, little-endian (R13). -/
def leNat : List Byte → Nat
  | [] => 0
  | b :: t => b.toNat + 256 * leNat t

/-- The low n bytes of a number, little-endian (R13). -/
def leBytes : Nat → Nat → List Byte
  | 0, _ => []
  | n + 1, v => BitVec.ofNat 8 v :: leBytes n (v / 256)

/-! ## Sets of granules -/

/-- Insertion into a rising list. -/
def setIns (k : Nat) : List Nat → List Nat
  | [] => [k]
  | j :: t => if k < j then k :: j :: t else if k = j then j :: t else j :: setIns k t

/-- The granule of the poison bit of a home address: 8 bytes in SRAM, 64 in DRAM and in the second tier (R362). -/
def poisonGranule (a : Nat) : Nat := if isSlice a then a / 8 * 8 else a / 64 * 64

def poisonSize (a : Nat) : Nat := if isSlice a then 8 else 64

/-- The home has tags (R87): scratchpad and DRAM. -/
def hasTags (a : Nat) : Bool := a < tierBase

end Sys2Proof.Machine

namespace Sys2Proof.Machine

/-! ## Contexts -/

def tidOf (core ctx : Nat) : Nat := core * 8 + ctx

/-- The thread of a context. -/
def State.thread (s : State) (t : Nat) : Thread := smGet Thread.init s.threads t

/-- The state with a context's thread replaced. -/
def State.setThread (s : State) (t : Nat) (th : Thread) : State := { s with threads := smPut s.threads t th }

/-- A wake of a parked bundle with the value it carries; a context that is not parked is left alone. -/
def State.wakeWith (s : State) (t : Nat) (v : Word) : State :=
  let th := s.thread t
  match th.status with
  | .parked p => s.setThread t { th with status := .parked { p with woken := some v } }
  | .free | .running | .travelling _ | .travelQueued | .travelAbroad _ _ => s

/-! ## Reads and writes at a home -/

/-- A free value of n bytes (log 5), and the state whose counter has moved on. -/
def State.freeBytes (s : State) (n : Nat) : List Byte × State :=
  ((List.range n).map fun i => Config.freeByte (s.frees + i), { s with frees := s.frees + n })

/-- A free 64-bit word. -/
def State.freeWord (s : State) : Word × State :=
  let (b, s) := s.freeBytes 8
  (BitVec.ofNat 64 (leNat b), s)

/-- Bytes from an address upward, in pieces of at most 512: the data of packets (R210). -/
def packetData : Nat → Nat → List Byte → List (Nat × List Byte)
  | 0, _, _ => []
  | f + 1, a, b => if b = [] then [] else (a, b.take 512) :: packetData f (a + 512) (b.drop 512)

/-- The sender that stands for the traversal unit of a core's cluster when it accesses memory for that core. -/
def unitSrc (core : Nat) : Nat := core + 65536

/-- The core of a sender. -/
def srcCore (src : Nat) : Nat := src % 65536

/-- The ring stop of a sender (R215): stop 16 is the traversal unit's. -/
def srcStop (src : Nat) : Nat := if src < 65536 then coreIdx src else 16

/-- A packet for another module joins its sender's stop of the cluster ring, bound for the optical port, stop 17, by the
shorter way (R215). -/
def State.sendPacket (s : State) (src a : Nat) (b : List Byte) : State :=
  let core := srcCore src
  let stop := srcStop src
  let p : Pkt :=
    { id := s.fabric.nextPkt, resp := false, src := core, bank := homeBank (a % foreignBase), mod := a / foreignBase - 1,
      data := b }
  let r : RingPkt := ⟨coreCluster core, stop, decide (17 - stop ≤ stop + 1), true, 17, p⟩
  { s with fabric := { s.fabric with ring := s.fabric.ring ++ [r], nextPkt := s.fabric.nextPkt + 1 } }

/-- The request packets of a read of n bytes at another module (R210): each answer carries at most 512. -/
def State.sendReads (s : State) (src a n : Nat) : State :=
  (List.range ((n + 511) / 512)).foldl (fun s i => s.sendPacket src (a + 512 * i) []) s

/-- A request whose data has n free bytes (log 5), in packets of at most 512 (R210). -/
def State.sendFree (s : State) (src a n : Nat) : State :=
  let (b, s) := s.freeBytes n
  (packetData (n / 512 + 1) a b).foldl (fun s p => s.sendPacket src p.1 p.2) s

/-- The bytes at a home read by a sender: this module's memory, or the answer of another module to a request, which is open (log 5). -/
def State.homeRead (s : State) (src a n : Nat) : List Byte × State :=
  if isForeign a then (s.sendReads src a n).freeBytes n else (memBytes s.mem a n, s)

/-- The address lies behind a memory port whose link is down: every access is answered with uncorrectable data (R249). -/
def State.portDown (s : State) (a : Nat) : Bool := isTier a && !(smGet Die.reset s.dies (tierDie a)).linkUp

/-- Some byte of the range is poisoned at its home, in bonded DRAM's case in the line itself or in its slice buffer (R2, R362), or
lies behind a memory port whose link is down (R249, R363). -/
def State.poisoned (s : State) (a n : Nat) : Bool :=
  s.portDown a || (s.poison.any fun g => g < a + n && a < g + poisonSize g) ||
    s.bufPoison.any fun g => g < a + n && a < g + 8

/-- The tag of a home address's granule (R87). -/
def State.tagAt (s : State) (a : Nat) : Bool := s.tags.contains (a / 16)

/-- The tag that a home answers with: this module's, or another module's, which is open (log 5). -/
def State.homeTag (s : State) (a : Nat) : Bool × State :=
  if isForeign a then
    let (b, s) := s.freeBytes 1
    (hasTags (a % foreignBase) && leNat b % 2 = 1, s)
  else (s.tagAt a, s)

/-- The tags that homes answer with for a list of granules. -/
def State.homeTags (s : State) : List Nat → List Bool × State
  | [] => ([], s)
  | a :: t =>
    let (b, s) := s.homeTag a
    let (l, s) := s.homeTags t
    (b :: l, s)

/-- The value of an aligned 8-byte word at a home of this module. -/
def State.homeWord (s : State) (a : Nat) : Word := BitVec.ofNat 64 (leNat (memBytes s.mem a 8))

/-- The wait-table entries of counters that a value now satisfies are removed, and their contexts wake (R209). -/
def State.wakeCounters (s : State) (a n : Nat) : State :=
  let hit := fun (e : WaitEntry) =>
    match e.what with
    | .counter thr => e.addr < a + n && a < e.addr + 8 && decide ((s.homeWord e.addr).toInt ≤ thr.toInt)
    | .version _ => false
  (s.waits.filter hit).foldl (fun s e => s.wakeWith e.tid (s.homeWord e.addr)) { s with waits := s.waits.filter (!hit ·) }

/-- A write of bytes at a home by a sender (R87, R188, R197, R209, R363): the bytes change, the tags of the granules touched
are cleared, the poison of each granule covered whole is cleared, and counters waited for are tested. A write to another
module leaves in packets. -/
def State.homeWrite (s : State) (src a : Nat) (bs : List Byte) : State :=
  if bs = [] then s
  else if isForeign a then
    (packetData (bs.length / 512 + 1) a bs).foldl (fun s p => s.sendPacket src p.1 p.2)
      { s with outbox := s.outbox ++ [(a, bs)] }
  else
    let e := a + bs.length
    { s with
      mem := memPutBytes s.mem a bs
      tags := s.tags.filter fun g => !(16 * g < e && a < 16 * g + 16)
      poison := s.poison.filter fun g => !(a ≤ g && g + poisonSize g ≤ e)
      bufPoison := s.bufPoison.filter fun g => !(a ≤ g && g + 8 ≤ e) }.wakeCounters a bs.length

/-- The tag of a granule set, where the home has tags (R87). -/
def State.setTag (s : State) (a : Nat) : State :=
  if hasTags a then { s with tags := setIns (a / 16) s.tags } else s

/-- The granule of a home address marked poisoned (R362). -/
def State.poisonAt (s : State) (a : Nat) : State :=
  if isForeign a then s else { s with poison := setIns (poisonGranule a) s.poison }

/-- The granule of a home address marked poisoned in its slice buffer, whose SRAM has granules of 8 bytes (R2, R362). -/
def State.poisonBuf (s : State) (a : Nat) : State :=
  if isDram a then { s with bufPoison := setIns (a / 8 * 8) s.bufPoison } else s

/-- Version and reclaim bit that a home holds for a word, and the object that they belong to (R176). -/
def State.verAt (s : State) (a : Nat) : VerMeta := smGet ⟨0, true, 0⟩ s.vers a

def State.setVer (s : State) (a : Nat) (v : VerMeta) : State := { s with vers := smSet ⟨0, true, 0⟩ s.vers a v }

/-- Version and reclaim bit of a word of an object: those of its creation where the home holds another object's (R176). -/
def State.verOf (s : State) (obj a : Nat) : VerMeta := if (s.verAt a).obj = obj then s.verAt a else ⟨0, true, obj⟩

/-- The home's metadata of a word are an object's; versions of another object that lay there are gone (R176). -/
def State.adopt (s : State) (obj a : Nat) : State :=
  if (s.verAt a).obj = obj then s
  else { s.setVer a ⟨0, true, obj⟩ with vbuf := s.vbuf.filter fun e => !decide (e.addr = a) }

/-- u is newer than w (R176). -/
def newer (u w : BitVec 32) : Bool := 1 ≤ (u - w).toNat && (u - w).toNat < 2 ^ 31

/-- Version-buffer and wait-table capacities of a slice (R177); a memory port has those of a DRAM slice (log 6). -/
def bufCap (a : Nat) : Nat := if isSlice a then 512 else 8192
def waitCap (a : Nat) : Nat := if isSlice a then 64 else 1024

/-- The home's version buffer is full. -/
def State.bufFull (s : State) (a : Nat) : Bool :=
  (s.vbuf.filter fun e => homeSlice e.addr = homeSlice a).length ≥ bufCap a

/-- The home's wait table is full. -/
def State.waitFull (s : State) (a : Nat) : Bool :=
  (s.waits.filter fun e => homeSlice e.addr = homeSlice a).length ≥ waitCap a

end Sys2Proof.Machine
end

