-- ==== Sys2Proof/Machine/Walk.lean ====
section
/-!
DEFINITION. Translation (spec/17_objects.md R234 to R239): the object table, the walk, the TLB of a core, and the decision
of an access after them. Also the objects that the device itself holds: each core's slice and each arcade's window (R186,
R347; their numbers are log 7).
-/

namespace Sys2Proof.Machine

/-- A die's registers. -/
def State.die (s : State) (d : Nat) : Die := smGet Die.reset s.dies d

def State.setDie (s : State) (d : Nat) (v : Die) : State := { s with dies := smPut s.dies d v }

/-- This module's torus position (R216). -/
def State.here (s : State) : Nat := bitsOf 11 0 s.fabric.torus.toNat

/-- A position with a coordinate above its dimension's size minus 1 (R238). -/
def State.beyondTorus (s : State) (p : Nat) : Bool :=
  let t := s.fabric.torus.toNat
  bitsOf 3 0 p > bitsOf 15 12 t || bitsOf 7 4 p > bitsOf 19 16 t || bitsOf 11 8 p > bitsOf 23 20 t

/-! ## Objects the device holds -/

/-- The object number with an owning module, a descriptor index and a port (R234). -/
def objOf (mod idx port : Nat) : Nat := mod * 2 ^ 20 + idx * 4 + port

/-- The object of a core's slice (R347, log 7). -/
def State.sliceObj (s : State) (core : Nat) : Nat := objOf s.here (0x20000 + core) (coreDie core)

/-- The window object number w of a die (R186, log 7). -/
def State.windowObj (s : State) (die w : Nat) : Nat := objOf s.here (0x30000 + w) die

/-- What a device-held object number names. -/
inductive DevObj where
  | slice (core : Nat)
  | window (die w : Nat)
  /-- a core's slice, or an arcade's window, of another module -/
  | farSlice (mod core : Nat)
  | farWindow (mod : Nat)
  | table
  deriving DecidableEq, Repr

/-- Which object of the device a number names; all others are in the object table. -/
def State.heldObj (s : State) (obj : Nat) : DevObj :=
  let idx := bitsOf 19 2 obj
  let mod := bitsOf 31 20 obj
  if 0x20000 ≤ idx && idx < 0x21000 && (idx - 0x20000) / 1024 = obj % 4 then
    if mod = s.here then .slice (idx - 0x20000) else .farSlice mod (idx - 0x20000)
  else if 0x30000 ≤ idx then if mod = s.here then .window (obj % 4) (idx - 0x30000) else .farWindow mod
  else .table

/-- The clusters, as module cluster numbers in ascending order, of the arcade that a window names. DESIGN CHOICE: none once the arcade has ended
or is swept, so that an access through its window takes trap 0x08 and not the 0x06 of another arcade's (R186; log 94). -/
def State.windowClusters (s : State) (die w : Nat) : List Nat :=
  match s.launches.findSome? (fun l => l.2.placed.find? fun p => p.wdie = die && p.window = w) with
  | some p => p.clusters.map (p.die * 64 + ·)
  | none => []

/-- The member of an arcade with an index (R184): its module core number. -/
def memberCore (clusters : List Nat) (i : Nat) : Nat := clusters.getD (i / 16) 0 * 16 + i % 16

/-- The number of members of an arcade: 16 a cluster, or cores 0 to 7 of a port cluster (R184). -/
def memberCount (clusters : List Nat) : Nat :=
  if clusters.any (· % 64 = 63) then 8 else 16 * clusters.length

/-! ## The walk (R234 to R236) -/

/-- The result of a walk. -/
inductive Walk where
  /-- cause 0x08 of R238 step 1 -/
  | bad
  | absent
  | leaf (e : TlbEntry)
  deriving DecidableEq, Repr

/-- The PERM bits of a leaf as rights of R83. -/
def leafPerm (w0 : Nat) : Nat :=
  (if w0.testBit 47 then rR else 0) + (if w0.testBit 48 then rW else 0) + (if w0.testBit 49 then rX else 0)

/-- The decision of a leaf (R236): absent, or the TLB entry it gives. -/
def leafWalk (obj page pages : Nat) (desc w0 w1 : Nat) : Walk :=
  let loc := bitsOf 63 62 w0
  let ver := desc.testBit 56
  let mig := desc.testBit 57 && !ver
  let run := bitsOf 61 50 w0
  if loc = 0 || (loc = 2 && !desc.testBit 59) then .absent
  else
    .leaf {
      obj := obj
      page := page
      count := if mig || loc = 3 || page + run ≥ pages then 1 else run + 1
      loc := loc
      perm := leafPerm w0
      frame := bitsOf 25 0 w0
      home := bitsOf 51 40 w1
      mod := bitsOf 63 52 w1
      ship := desc.testBit 58
      mig := mig
      ver := ver }

/-- The number that an aligned word of bonded DRAM holds. -/
def State.physWord (s : State) (a : Nat) : Nat := leNat (memBytes s.mem a 8)

/-- The descriptor of an object of this module is valid and has the versioned attribute (R235). -/
def State.describes (s : State) (obj : Nat) : Bool :=
  let d := s.die (obj % 4)
  let da := fieldW 41 0 d.otbase * 64 + 32 * bitsOf 19 2 obj
  let desc := s.physWord da
  bitsOf 19 2 obj < fieldW 59 42 d.otbase && da < 2 ^ 40 && desc.testBit 63 && desc.testBit 56

/-- A walk in this module (R235, R238, R251). A descriptor whose address lies beyond bonded DRAM counts as not valid (log 60). -/
def State.walkHere (s : State) (obj page : Nat) : Walk :=
  let d := s.die (obj % 4)
  let idx := bitsOf 19 2 obj
  if idx ≥ fieldW 59 42 d.otbase then .bad
  else
    let da := fieldW 41 0 d.otbase * 64 + 32 * idx
    let desc := s.physWord da
    let pages := (bitsOf 55 0 desc + 65535) / 65536
    if da ≥ 2 ^ 40 || !desc.testBit 63 || page ≥ pages then .bad
    else
      let l1 := bitsOf 47 0 (s.physWord (da + 8)) + 8 * (page / 4096)
      if l1 % 8 ≠ 0 || l1 ≥ 2 ^ 40 then .absent
      else
        let e1 := s.physWord l1
        let l2 := bitsOf 47 0 e1 + 16 * (page % 4096)
        if e1.testBit 63 || l2 % 16 ≠ 0 || l2 ≥ 2 ^ 40 then .absent
        else leafWalk obj page pages desc (s.physWord l2) (s.physWord (l2 + 8))

/-- A request to a DRAM slice of a die of another module that no rule narrows down further: which slice is free (log 4). -/
def State.askDie (s : State) (core mod die : Nat) : State :=
  let (b, s) := s.freeBytes 1
  s.sendPacket core (foreignBase * (mod + 1) + (64 * die + leNat b % 64) * 2 ^ 32) []

/-- A walk for a core (R237, R238): at this module, or at the module that MOD names, to which a request goes (R210) and whose
tables are open to the model (log 5). -/
def State.walk (s : State) (core obj page : Nat) : Walk × State :=
  let mod := bitsOf 31 20 obj
  if s.beyondTorus mod then (.bad, s)
  else if mod = s.here then (s.walkHere obj page, s)
  else
    let s := s.askDie core mod (obj % 4)
    let (desc, s) := s.freeWord
    let (w0, s) := s.freeWord
    let (w1, s) := s.freeWord
    let pages := (bitsOf 55 0 desc.toNat + 65535) / 65536
    if !desc.getLsbD 63 || page ≥ pages then (.bad, s)
    else (leafWalk obj page pages desc.toNat w0.toNat w1.toNat, s)

/-! ## The TLB (R237) -/

/-- The TLB of a core, most recently used first. -/
def State.tlbOf (s : State) (core : Nat) : List TlbEntry := smGet [] s.tlb core

def State.setTlb (s : State) (core : Nat) (t : List TlbEntry) : State := { s with tlb := smPut s.tlb core t }

/-- The entry covers a page of an object. -/
def TlbEntry.covers (e : TlbEntry) (obj page : Nat) : Bool := e.obj = obj && e.page ≤ page && page < e.page + e.count

/-- An access through the entry to a home address counts at that home (R245): the page is migratable and its home lies in this
module. -/
def TlbEntry.counts (e : TlbEntry) (a : Nat) : Bool := e.mig && e.loc = 1 && isDram a

/-- The home address of an offset that an entry covers (R236). -/
def State.entryAddr (s : State) (e : TlbEntry) (off : Nat) : Nat :=
  let o := (e.frame + (off / 65536 - e.page)) * 65536 + off % 65536
  let a :=
    if e.loc = 1 then e.home * 2 ^ 32 + o
    else if e.loc = 2 then tierAddr e.home o
    else sliceAddr e.home o
  if e.mod = s.here then a else foreignBase * (e.mod + 1) + a

/-- A translation's outcome (R238): a home with the entry used, cause 0x08, an absent page, or the rights missing after
the re-walk (R239) at a home. -/
inductive Xlat where
  | home (addr : Nat) (e : TlbEntry)
  | bad
  | absent
  | noPerm (lack addr : Nat)
  deriving DecidableEq, Repr

/-- A walk that fills the TLB of a core, in place of the least recently used entry when it is full. -/
def State.fill (s : State) (core obj off need : Nat) : Xlat × State :=
  match s.walk core obj (off / 65536) with
  | (.bad, s) => (.bad, s)
  | (.absent, s) => (.absent, s)
  | (.leaf e, s) =>
    let s := s.setTlb core (e :: (s.tlbOf core).take 95)
    let a := s.entryAddr e off
    if missing need e.perm ≠ 0 then (.noPerm (missing need e.perm) a, s) else (.home a e, s)

/-- An entry made for a page of an object that the device holds. -/
def sliceEntry (obj page core frame mod : Nat) : TlbEntry :=
  { obj := obj, page := page, count := 1, loc := 3, perm := rR + rW, frame := frame, home := core, mod := mod,
    ship := false, mig := false, ver := false }

/-- The translation of an offset of an object that the device holds: byte `o` of the slice of a core of a module. -/
def State.heldHome (s : State) (obj off mod core o need : Nat) : Xlat :=
  let a := if mod = s.here then sliceAddr core o else foreignBase * (mod + 1) + sliceAddr core o
  if missing need (rR + rW) ≠ 0 then .noPerm (missing need (rR + rW)) a
  else .home a (sliceEntry obj (off / 65536) core (o / 65536) mod)

/-- The translation of an offset of an object for an access that needs PERM rights, at a core (R237 to R239). The window of an arcade of
another module is refused, as another arcade's is (R186). Whether bytes of a slice there are withheld from this module's launches is a free
value (log 5). -/
def State.translate (s : State) (core obj off need : Nat) : Xlat × State :=
  let page := off / 65536
  match s.heldObj obj with
  | .slice k =>
    if off ≥ 2 ^ 18 then (.bad, s) else (s.heldHome obj off s.here k off need, s)
  | .window d w =>
    let cl := s.windowClusters d w
    if off ≥ memberCount cl * 2 ^ 18 then (.bad, s)
    else (s.heldHome obj off s.here (memberCore cl (off / 2 ^ 18)) (off % 2 ^ 18) need, s)
  | .farSlice mod k =>
    if s.beyondTorus mod || off ≥ 2 ^ 18 then (.bad, s)
    else
      let (b, s) := s.freeBytes 1
      if leNat b % 2 = 1 then (.noPerm rG (foreignBase * (mod + 1) + sliceAddr k off), s) else (s.heldHome obj off mod k off need, s)
  | .farWindow mod => if s.beyondTorus mod then (.bad, s) else (.noPerm rG (foreignBase * (mod + 1) + sliceBase), s)
  | .table =>
    match (s.tlbOf core).find? (·.covers obj page) with
    | none => s.fill core obj off need
    | some e =>
      let rest := (s.tlbOf core).erase e
      if missing need e.perm = 0 then (.home (s.entryAddr e off) e, s.setTlb core (e :: rest))
      else (s.setTlb core rest).fill core obj off need

/-! ## Layout of a slice and withheld bytes (R186, R346, R347) -/

/-- The bytes of a core's slice that the layout of R346 uses: Z. -/
def sliceUse (core : Nat) : Nat := if core = 1008 then 196608 else 262144

/-- The teams resident on a core, in slot order. -/
def State.teamsOn (s : State) (core : Nat) : List Team :=
  (List.range 8).filterMap fun k => (s.teams.find? fun t => t.2.core = core && t.2.slot = k).map (·.2)

/-- S of R346 in bytes: the spill of the launches resident on the core; of the boot-placed supervisor launch on a port
cluster. -/
def State.spillOf (s : State) (core : Nat) : Nat :=
  256 * (if core % 1024 / 16 = 63 then s.supvSpill
    else
      match s.teamsOn core with
      | [] => 0
      | t :: _ => ((smFind s.launches t.launch).map fun l => l.spec.spill).getD 0)

/-- The size R of a team region (R346). -/
def regionSize (core spill : Nat) : Nat := (sliceUse core - 8192 - 8 * spill) / 8 / 128 * 128

/-- The slice offset of the region of a slot (R346). -/
def regionOff (core spill slot : Nat) : Nat := 8192 + regionSize core spill * slot

/-- The slice offset of the carve-out of a context (R346). -/
def carveOff (core spill ctx : Nat) : Nat := sliceUse core - 8 * spill + ctx * spill

/-- An access of n bytes at a slice home that goes through a device-held object is refused there with 0x06 and OFFS 0x01
(R186, R347): overflow areas, the message window, regions of teams of other launches, carve-outs of contexts that hold
firings of other launches, and a window of another arcade. -/
def State.withheld (s : State) (launch : Nat) (win : Nat × Nat) (obj a n : Nat) : Bool :=
  let k := sliceCore a
  let o := (a - sliceBase) % 2 ^ 18
  let sp := s.spillOf k
  let meets := fun lo len => lo < o + n && o < lo + len
  let inside :=
    meets 0 8192 || (k = 1008 && meets 196608 65536) ||
    (s.teamsOn k).any (fun t => t.launch ≠ launch && meets (regionOff k sp t.slot) (regionSize k sp)) ||
    (List.range 8).any fun x =>
      match (s.thread (tidOf k x)).firing with
      | some f => f.launch ≠ launch && meets (carveOff k sp x) sp
      | none => false
  match s.heldObj obj with
  | .table | .farSlice _ _ | .farWindow _ => false
  | .slice _ => inside
  | .window d w => (d, w) ≠ win || inside

/-- Who makes an access: the core whose TLB translates it, its launch and its arcade's window (R186, R237), whether the cluster's
traversal unit makes it (R215), and whether it counts at a migratable page (R245; which engine accesses do: log 86). -/
structure Acc where
  core    : Nat
  launch  : Nat
  win     : Nat × Nat
  unit    : Bool := false
  counted : Bool := false
  deriving DecidableEq, Repr

/-- The sender of an accessor's packets. -/
def Acc.src (c : Acc) : Nat := if c.unit then unitSrc c.core else c.core

end Sys2Proof.Machine
end

