-- ==== Sys2Proof/Machine/Router.lean ====
section
/-!
DEFINITION. Where a packet goes on the fabric (spec/15_fabric.md R210, R211, R215, R217, R218): its channel, its direction and lane
group, and the ways into the torus router.
-/

namespace Sys2Proof.Machine

/-- The channel of a destination bank (R211): a DRAM slice, or the cluster of a scratchpad bank. R211 names no channel for a memory
port; the model takes that of the DRAM slice with the port's number (log 72, DESIGN CHOICE). -/
def bankChannel (b : Nat) : Nat := if b ≥ 32768 then (b - 32768) % 256 else 256 + b / 8 / 16 % 256

/-- The flits of a packet (R210). -/
def Pkt.flits (p : Pkt) : Nat := 1 + (p.data.length + 31) / 32

/-! ## Torus routes (R216, R217) -/

/-- A coordinate of a position, and a dimension's size. -/
def coordOf (dim p : Nat) : Nat := bitsOf (4 * dim + 3) (4 * dim) p
def State.torusSize (s : State) (dim : Nat) : Nat := bitsOf (15 + 4 * dim) (12 + 4 * dim) s.fabric.torus.toNat + 1

/-- The direction in which a packet for a position leaves this router: the first dimension in which it differs (R217). -/
def State.routeDir (s : State) (dest : Nat) : Option Nat :=
  (List.range 3).findSome? fun k =>
    let n := s.torusSize k
    let d := (coordOf k dest + n - coordOf k s.here % n) % n
    if d = 0 then none else some (if d ≤ n - d then 2 * k else 2 * k + 1)

/-- The lane group of a packet in a direction (R217, R220). -/
def laneOf (dir src bank : Nat) : Nat :=
  let sel := (src * 16 % 65536) ^^^ (bank % 65536)
  3 * (16 * dir + sel % 16) + sel / 16 % 3

/-! ## Lane groups (R220, R223) -/

def State.group (s : State) (n : Nat) : LaneGroup := smGet LaneGroup.reset s.fabric.groups n

def State.setGroup (s : State) (n : Nat) (g : LaneGroup) : State :=
  { s with fabric := { s.fabric with groups := smPut s.fabric.groups n g } }

/-- The group that carries the traffic of a group now: itself, or the substitute (R223). -/
def State.carrier (s : State) (n : Nat) : Nat := ((s.group n).subst.head?).getD n

/-! ## Into the router -/

/-- A packet waits at a writer port of the channel of its destination. -/
def State.atPort (s : State) (port : Nat) (slice : Bool) (p : Pkt) : State :=
  let x : PortPkt := ⟨bankChannel p.bank, port, slice, p.flits, p⟩
  { s with fabric := { s.fabric with ports := s.fabric.ports ++ [x] } }

/-- A packet at the router, from the input of a direction or from this module: on its way out, or into the crossbar of this module, for a
packet of the torus through a writer port that no rule names (log 4); the port of a cluster's own position is its slice's alone
(R211). -/
def State.atRouter (s : State) (p : Pkt) (from_ : Option Nat) : State :=
  match s.routeDir p.mod with
  | some d => { s with fabric := { s.fabric with torusQ := s.fabric.torusQ ++ [⟨d, from_ ≠ some (d ^^^ 1), from_, p⟩] } }
  | none =>
    let (b, s) := s.freeBytes 2
    let port := leNat (b.take 1) % 256
    let chan := bankChannel p.bank
    s.atPort port (chan ≥ 256 && (chan = 256 + port || leNat (b.drop 1) % 2 = 1)) p

/-- A packet of a home's own streamer for another module (R278): from a core's slice it takes the cluster's ring (R215), from a memory
port it stands at the router. -/
def State.sendFrom (s : State) (core home a : Nat) (b : List Byte) : State :=
  if isSlice home then s.sendPacket (sliceCore home) a b
  else
    let p : Pkt :=
      { id := s.fabric.nextPkt, resp := false, src := core, bank := homeBank (a % foreignBase), mod := a / foreignBase - 1,
        data := b }
    { s with fabric := { s.fabric with nextPkt := s.fabric.nextPkt + 1 } }.atRouter p none

/-- A write of bytes by the streamer of a home: to another module it leaves from that home (R278), elsewhere it is a write of the core.
What another module's streamer sends to another module does not pass through this one. -/
def State.writeFrom (s : State) (core home a : Nat) (bs : List Byte) : State :=
  if bs = [] || !isForeign a then s.homeWrite core a bs
  else if isForeign home then s
  else
    (packetData (bs.length / 512 + 1) a bs).foldl (fun s p => s.sendFrom core home p.1 p.2)
      { s with outbox := s.outbox ++ [(a, bs)] }

end Sys2Proof.Machine
end

