-- ==== Sys2Proof/Machine/Migrate.lean ====
section
/-!
DEFINITION. Migration of pages between DRAM slices: run counts, moves and redirect entries (spec/17_objects.md R245 to
R247), over the pools and MIGCTL of R248.
-/

namespace Sys2Proof.Machine

/-- The 64 KiB frame of a home address. -/
def frameOf (a : Nat) : Nat := a / 65536

/-- The die whose memory holds a DRAM frame. -/
def frameDie (f : Nat) : Nat := f * 65536 / 2 ^ 38

/-- The DRAM slice of a frame. -/
def frameSlice (f : Nat) : Nat := f * 65536 / 2 ^ 32

/-- MIGCTL's fields (R248); a MIGTHR of 0 is read as 1. -/
def migWin (w : Word) : Nat := fieldW 47 32 w
def migMax (w : Word) : Nat := fieldW 27 24 w
def migThr (w : Word) : Nat := if fieldW 15 0 w = 0 then 1 else fieldW 15 0 w

/-- The metadata of a page's frame that no access has touched (log 3). -/
def PageMeta.fresh : PageMeta := ⟨0, 0, 0, 0, 0, 0, none, 0, none⟩

def State.page (s : State) (f : Nat) : PageMeta := smGet PageMeta.fresh s.pages f

def State.setPage (s : State) (f : Nat) (p : PageMeta) : State := { s with pages := smPut s.pages f p }

/-- The frames of a slice's pool, the next one to take first (R248, log 6). -/
def State.pool (s : State) (slice : Nat) : List Nat := smGet [] (s.die (slice / 64)).pools (slice % 64)

def State.setPool (s : State) (slice : Nat) (p : List Nat) : State :=
  let d := s.die (slice / 64)
  s.setDie (slice / 64) { d with pools := smPut d.pools (slice % 64) p }

/-- The slice has a move in progress. -/
def State.moving (s : State) (slice : Nat) : Bool :=
  s.pages.any fun p => frameSlice p.1 = slice && p.2.moving.isSome

/-- The redirect entries of a slice, oldest first. -/
def State.redirectsOf (s : State) (slice : Nat) : List Redirect := s.redirects.filter fun r => frameSlice r.old = slice

/-- Some entry's place can be given to a new one: fewer than 256 entries, or the oldest is MIGWIN old (R247). -/
def State.redirectRoom (s : State) (slice : Nat) : Bool :=
  match s.redirectsOf slice with
  | [] => true
  | r :: t => t.length < 255 || s.clock ≥ r.made + migWin (s.die (slice / 64)).migctl * 1000

/-- What a home keeps of a page in a frame (R245): of a page that it did not hold before, nothing yet; of one that moves, what stands. -/
def State.pageOf (s : State) (f obj page : Nat) : PageMeta :=
  let p := s.page f
  if p.moving.isSome || (p.obj = obj && p.page = page) then p else { PageMeta.fresh with obj := obj, page := page }

/-- One access to a migratable page from a core, counted at its home; when the run count reaches MIGTHR a move may start, and with
it a window where none runs (R245). A move to another module finds no pool in this model (log 8). -/
def State.countAccess (s : State) (core f obj page perm : Nat) : State :=
  let p := { s.pageOf f obj page with perm := perm }
  let hd := frameDie f
  let d := coreDie core
  if d = hd then s.setPage f { p with run := 0 }
  else
    let run := if p.reqMod = s.here && p.reqDie = d then p.run + 1 else 1
    let p := { p with reqMod := s.here, reqDie := d, run := run }
    let ctl := (s.die hd).migctl
    let to_ := 64 * d + page % 64
    if run ≥ migThr ctl && p.moves < migMax ctl && s.pool to_ ≠ [] && !s.moving (frameSlice f) &&
        s.redirectRoom (frameSlice f) then
      s.setPage f { p with moving := some to_, moves := p.moves + 1, window := some (p.window.getD s.clock) }
    else s.setPage f p

/-- The home address after redirect entries, followed at most once for each entry (R246, R247). -/
def followRedirects : List Redirect → Nat → Nat
  | [], a => a
  | r :: t, a =>
    if frameOf a = r.old then followRedirects t ((r.new.home * 2 ^ 32 + r.new.frame * 65536) + a % 65536)
    else followRedirects t a

/-- The new translations of the redirect entries that a request for an address meets on its way, in order (R247). -/
def redirectHops : List Redirect → Nat → List TlbEntry
  | [], _ => []
  | r :: t, a =>
    if frameOf a = r.old then r.new :: redirectHops t ((r.new.home * 2 ^ 32 + r.new.frame * 65536) + a % 65536)
    else redirectHops t a

/-- The physical address of the leaf of a page of an object of this module (R235). -/
def State.leafAddr (s : State) (obj page : Nat) : Nat :=
  let da := fieldW 41 0 (s.die (obj % 4)).otbase * 64 + 32 * bitsOf 19 2 obj
  bitsOf 47 0 (s.physWord (bitsOf 47 0 (s.physWord (da + 8)) + 8 * (page / 4096))) + 16 * (page % 4096)

/-- Memory with the 64 KiB frame `new` holding what the frame `old` holds. -/
def copyFrame (m : List Host.Cell) (old new : Nat) : List Host.Cell :=
  let src := m.filter fun c => frameOf c.1 = old
  let rest := m.filter fun c => frameOf c.1 ≠ new
  src.foldl (fun m c => memPut m (new * 65536 + c.1 % 65536) c.2) rest

/-- Granule numbers of a list moved with their frame. -/
def copyGranules (unit : Nat) (l : List Nat) (old new : Nat) : List Nat :=
  let src := l.filter fun g => frameOf (g * unit) = old
  let rest := l.filter fun g => frameOf (g * unit) ≠ new
  src.foldl (fun l g => setIns ((new * 65536 + g * unit % 65536) / unit) l) rest

/-- A core receives a redirect notice for a page (R246). -/
def State.notify (s : State) (core : Nat) (e : TlbEntry) : State := { s with notices := s.notices ++ [⟨core, e⟩] }

/-- Each redirect entry that a request of a core for an address meets sends the core its notice (R247). -/
def State.notifyHops (s : State) (core a : Nat) : State :=
  (redirectHops s.redirects a).foldl (fun s e => s.notify core e) s

/-- The redirect entry of a slice that a home address meets. -/
def State.redirectAt (s : State) (slice a : Nat) : Option Redirect :=
  if isDram a then s.redirects.find? fun r => r.old = frameOf a && frameSlice r.old = slice else none

/-- The pending requests of a context that meet an old frame of a slice go to the new home, each with the notices of its way. -/
def State.forwardContext (s : State) (slice tid : Nat) : State :=
  let th := s.thread tid
  let met := th.stores.filter fun r => (s.redirectAt slice r.addr).isSome
  if met = [] then s
  else
    let go := fun (r : StoreReq) =>
      if (s.redirectAt slice r.addr).isSome then { r with addr := followRedirects s.redirects r.addr } else r
    met.foldl (fun s r => s.notifyHops (tid / 8) r.addr) (s.setThread tid { th with stores := th.stores.map go })

/-- The pending requests of every context that meet an old frame of a slice are forwarded. -/
def State.forwardAll (s : State) (slice : Nat) : State := s.threads.foldl (fun s t => s.forwardContext slice t.1) s

/-- The oldest redirect entry of a slice retires: the page leaves every TLB of the module, with the notices of it on their way,
the accesses that still use its old frame go to the new home, and the frame returns to its slice's pool (R247). -/
def State.retireRedirect (s : State) (slice : Nat) : State :=
  match s.redirectsOf slice with
  | [] => s
  | r :: _ =>
    let s := s.forwardAll slice
    let s :=
      { s with
        redirects := s.redirects.erase r
        notices := s.notices.filter fun n => !n.entry.covers r.obj r.page
        tlb := s.tlb.map fun (t : Nat × List TlbEntry) => (t.1, t.2.filter fun e => !e.covers r.obj r.page) }
    s.setPool slice (r.old % 65536 :: s.pool slice)

/-- An address in a frame that moved. -/
def movedAddr (old new a : Nat) : Nat := if isDram a && frameOf a = old then new * 65536 + a % 65536 else a

/-- A parked CNTW whose counter's frame moved waits at the new home (R209, R246). -/
def ParkWhy.moved (old new : Nat) : ParkWhy → ParkWhy
  | .cntw a thr entered => .cntw (movedAddr old new a) thr entered
  | .port q => .port q
  | .engine q => .engine q
  | .fire d p => .fire d p
  | .bwait => .bwait
  | .falign x => .falign x
  | .ldver a w e => .ldver a w e
  | .stver a => .stver a
  | .mwait t => .mwait t
  | .waiti => .waiti
  | .absent o p r t => .absent o p r t
  | .ship c m => .ship c m

/-- What a parked context waits for, after a frame moved. -/
def CtxState.moved (old new : Nat) : CtxState → CtxState
  | .parked p => .parked { p with why := p.why.moved old new }
  | .free => .free
  | .running => .running
  | .travelling k => .travelling k
  | .travelQueued => .travelQueued
  | .travelAbroad m d => .travelAbroad m d

/-- What the old home holds of a page besides its bytes moves with them (R246, R311): waiting CNTWs and bound queues. -/
def State.rehome (s : State) (old new : Nat) : State :=
  { s with
    waits := s.waits.map fun w => { w with addr := movedAddr old new w.addr }
    wqueues := s.wqueues.map fun q => { q with home := movedAddr old new q.home }
    threads := s.threads.map fun (t : Nat × Thread) => (t.1, { t.2 with status := t.2.status.moved old new })
    saved := s.saved.map fun v => { v with thread := { v.thread with status := v.thread.status.moved old new } } }

/-- The leaf of a page with its words, and the state: this module's, or another module's, which is open (log 5). -/
def State.leafOf (s : State) (obj page : Nat) : (Nat × Nat × Nat) × State :=
  let mod := bitsOf 31 20 obj
  if mod = s.here then
    let la := s.leafAddr obj page
    ((la, s.physWord la, s.physWord (la + 8)), s)
  else
    let (a, s) := s.freeWord
    let (w0, s) := s.freeWord
    let (w1, s) := s.freeWord
    ((foreignBase * (mod + 1) + a.toNat % 2 ^ 40 / 16 * 16, w0.toNat, w1.toNat), s)

/-- The move in progress at a slice completes (R246, R252): the frame is taken from the new slice's pool, data, tags and poison
move with D, MOVES and the window, the leaf is rewritten, queued requests are forwarded, and a redirect entry is made for the
old frame. -/
def State.completeMove (s : State) (slice : Nat) : State :=
  match s.pages.find? fun p => frameSlice p.1 = slice && p.2.moving.isSome with
  | none => s
  | some (f, p) =>
    match p.moving, s.pool (p.moving.getD 0) with
    | some to_, fr :: rest =>
      let nf := to_ * 65536 + fr
      let s := s.setPool to_ rest
      let ((la, w0, w1), s) := s.leafOf p.obj p.page
      let w0' := w0 - bitsOf 25 0 w0 + fr
      let w1' := w1 - bitsOf 63 40 w1 * 2 ^ 40 + to_ * 2 ^ 40 + s.here * 2 ^ 52
      let perm := if isForeign la then p.perm else leafPerm w0
      let ent := { sliceEntry p.obj p.page to_ fr s.here with loc := 1, perm := perm, mig := true }
      let s :=
        { s with
          mem := copyFrame s.mem f nf
          tags := copyGranules 16 s.tags f nf
          poison := copyGranules 1 s.poison f nf
          bufPoison := copyGranules 1 s.bufPoison f nf
          pages := smPut (smDel s.pages f) nf { p with moving := none, run := 0 } }.rehome f nf
      let s := s.homeWrite 0 la (leBytes 8 w0' ++ leBytes 8 w1')
      let s := if (s.redirectsOf slice).length ≥ 256 then s.retireRedirect slice else s
      { s with redirects := s.redirects ++ [({ old := f, obj := p.obj, page := p.page, new := ent, made := s.clock } : Redirect)] }.forwardAll slice
    | _, _ => s.setPage f { p with moving := none }

/-- A request from a core for an address: a move of its page completes first, and each old frame that it meets forwards it, with a notice
to the requester (R246, R247). -/
def State.reach (s : State) (core a : Nat) : Nat × State :=
  if !isDram a then (a, s)
  else
    let s := if (s.page (frameOf a)).moving.isSome then s.completeMove (frameSlice (frameOf a)) else s
    (followRedirects s.redirects a, s.notifyHops core a)

end Sys2Proof.Machine
end

