-- ==== Sys2Proof/Machine/Access.lean ====
section
/-!
DEFINITION. Accesses of engines: they never park and report cause and offset (spec/13_many_cores.md R200, spec/17_objects.md
R238, spec/19_matrix.md R273, spec/21_streamer.md R284), with the movement of poison (spec/29_service.md R363).
-/

namespace Sys2Proof.Machine

/-- An engine's access of n bytes: pieces at 64 KiB boundaries, each with its home address and length. An access that R245 counts
counts at its home, and one to an old frame is forwarded (R246, R247). -/
def State.xlatRange (s : State) (c : Acc) (obj off need : Nat) : Nat → Nat → Except (Nat × Nat) (List (Nat × Nat)) × State
  | 0, _ => (.ok [], s)
  | f + 1, n =>
    if n = 0 then (.ok [], s)
    else
      let k := min n (65536 - off % 65536)
      match s.translate c.core obj off need with
      | (.home a e, s) =>
        if s.withheld c.launch c.win obj a k then (.error (0x06, off), s)
        else
        let (a, s) := s.reach c.core a
        let s := if c.counted && e.counts a then s.countAccess c.core (frameOf a) e.obj (off / 65536) e.perm else s
        match s.xlatRange c obj (off + k) need f (n - k) with
        | (.ok l, s) => (.ok ((a, k) :: l), s)
        | (.error e, s) => (.error e, s)
      | (.bad, s) => (.error (0x08, off), s)
      | (.absent, s) => (.error (0x08, off), s)
      | (.noPerm _ _, s) => (.error (0x06, off), s)

/-- The pages that n bytes from an offset touch, plus one: enough fuel for xlatRange. -/
def pagesOf (off n : Nat) : Nat := (off + n) / 65536 - off / 65536 + 1

/-! ## Engine accesses (R200, R238, R273, R284): they never park and report cause and offset -/

/-- The bytes of a list of pieces, read by a sender. -/
def State.readPieces (s : State) (src : Nat) : List (Nat × Nat) → List Byte × State
  | [] => ([], s)
  | (a, k) :: t =>
    let (b, s) := s.homeRead src a k
    let (bs, s) := s.readPieces src t
    (b ++ bs, s)

/-- The granules of a list of pieces marked poisoned; pieces of another module get the poisoned bytes in request packets. -/
def State.poisonPieces (s : State) (src : Nat) : List (Nat × Nat) → List Byte → State
  | [], _ => s
  | (a, k) :: t, bs =>
    (if isForeign a then (packetData (k / 512 + 1) a (bs.take k)).foldl (fun s p => s.sendPacket src p.1 p.2) s
      else (List.range k).foldl (fun s i => s.poisonAt (a + i)) s).poisonPieces src t (bs.drop k)

/-- Bytes written to a list of pieces. -/
def State.writePieces (s : State) (src : Nat) : List (Nat × Nat) → List Byte → State
  | [], _ => s
  | (a, k) :: t, bs => (s.homeWrite src a (bs.take k)).writePieces src t (bs.drop k)

/-- An engine's read of n bytes of an object: the bytes and whether any is poisoned, or the cause and the offset of the
access that failed. -/
def State.engRead (s : State) (c : Acc) (obj off n : Nat) : Except (Nat × Nat) (List Byte × Bool) × State :=
  match s.xlatRange c obj off rR (pagesOf off n) n with
  | (.error e, s) => (.error e, s)
  | (.ok ps, s) =>
    let (b, s') := s.readPieces c.src ps
    (.ok (b, ps.any fun p => s.poisoned p.1 p.2), s')

/-- An engine's read for which uncorrectable data is a fault, cause 0x0F. -/
def State.engReadWhole (s : State) (c : Acc) (obj off n : Nat) : Except (Nat × Nat) (List Byte) × State :=
  match s.engRead c obj off n with
  | (.error e, s) => (.error e, s)
  | (.ok (b, p), s) => if p then (.error (0x0F, off), s) else (.ok b, s)

/-- Some piece lies behind a port whose link is down. -/
def State.anyDown (s : State) (ps : List (Nat × Nat)) : Bool := ps.any fun p => s.portDown p.1

/-- An engine's write of bytes of an object, whole or not at all. -/
def State.engWrite (s : State) (c : Acc) (obj off : Nat) (bs : List Byte) : Except (Nat × Nat) Unit × State :=
  match s.xlatRange c obj off rW (pagesOf off bs.length) bs.length with
  | (.error e, s) => (.error e, s)
  | (.ok ps, s) => if s.anyDown ps then (.error (0x0F, off), s) else (.ok (), s.writePieces c.src ps bs)

/-- For each byte of a range, whether it is poisoned (R362). -/
def State.poisonFlags (s : State) (ps : List (Nat × Nat)) : List Bool :=
  ps.flatMap fun p => (List.range p.2).map fun i => s.poisoned (p.1 + i) 1

/-- An engine's read of data that moves on with its poison (R202, R363). -/
def State.engReadMarked (s : State) (c : Acc) (obj off n : Nat) : Except (Nat × Nat) (List Byte × List Bool) × State :=
  match s.xlatRange c obj off rR (pagesOf off n) n with
  | (.error e, s) => (.error e, s)
  | (.ok ps, s) =>
    let (b, s') := s.readPieces c.src ps
    (.ok (b, s.poisonFlags ps), s')

/-- The home addresses of a list of pieces, byte by byte. -/
def pieceAddrs (ps : List (Nat × Nat)) : List Nat := ps.flatMap fun p => (List.range p.2).map (p.1 + ·)

/-- An engine's write of data with its poison: the granules of poisoned bytes are marked (R202, R363). -/
def State.engWriteMarked (s : State) (c : Acc) (obj off : Nat) (bs : List Byte) (marks : List Bool) :
    Except (Nat × Nat) Unit × State :=
  match s.xlatRange c obj off rW (pagesOf off bs.length) bs.length with
  | (.error e, s) => (.error e, s)
  | (.ok ps, s) =>
    if s.anyDown ps then (.error (0x0F, off), s)
    else
      (.ok (), ((pieceAddrs ps).zip marks).foldl (fun s p => if p.2 then s.poisonAt p.1 else s) (s.writePieces c.src ps bs))

/-- Destination arithmetic with a poisoned operand: the granules of the range are marked poisoned and keep their bytes (R206). It needs PR
and PW (R238), and goes to a home of another module in request packets with the operand's bytes (R210). -/
def State.engPoison (s : State) (c : Acc) (obj off : Nat) (v : List Byte) : Except (Nat × Nat) Unit × State :=
  match s.xlatRange c obj off (rR + rW) (pagesOf off v.length) v.length with
  | (.error e, s) => (.error e, s)
  | (.ok ps, s) => (.ok (), s.poisonPieces c.src ps v)

end Sys2Proof.Machine
end

