-- ==== Sys2Proof/Machine/Errors.lean ====
section
/-!
DEFINITION. The error logs of the dies (spec/29_service.md R364).
-/

namespace Sys2Proof.Machine

/-- The UNIT code of R364; a slice buffer counts as its DRAM slice (log 65). -/
def unitCode : ErrUnit → Nat
  | .scratchpad => 0
  | .dram => 1
  | .nodeCache => 2
  | .icache => 3
  | .tier2 => 4
  | .control => 5
  | .sliceBuffer => 1

/-- An entry of a die's error log (R364). WHERE and ADDR are stated for cores and DRAM slices and for granules that have a
physical address; the others are free values. An entry past the end of bonded DRAM is not written (log 81). -/
def State.logError (s : State) (u : ErrUnit) (die a : Nat) : State :=
  let (w, s) := s.freeBytes 2
  let (p, s) := s.freeBytes 8
  let where_ := match u with
    | .scratchpad => leBytes 2 (sliceCore a)
    | .dram | .sliceBuffer => leBytes 2 (a / 2 ^ 32)
    | .nodeCache | .icache | .tier2 | .control => w
  let addr := match u with
    | .dram => leBytes 8 (poisonGranule a)
    | .sliceBuffer => leBytes 8 (a / 8 * 8)
    | .scratchpad | .nodeCache | .icache | .tier2 | .control => p
  let d := s.die die
  let b :=
    leBytes 1 (unitCode u) ++ leBytes 1 0 ++ where_ ++ leBytes 4 0 ++ addr ++ leBytes 8 s.clock ++ leBytes 8 (d.errSeq + 1)
  let at_ := d.errBase * 64 + 32 * d.errHead
  let s := s.setDie die { d with errHead := (d.errHead + 1) % 1024, errSeq := d.errSeq + 1 }
  if at_ + 32 ≤ 2 ^ 40 then s.homeWrite 0 at_ b else s

/-- The unit whose storage a home address of this module names. -/
def homeUnit (a : Nat) : ErrUnit := if isSlice a then .scratchpad else if isDram a then .dram else .tier2

end Sys2Proof.Machine
end

