-- ==== Sys2Proof/Machine/Num.lean ====
section
/-!
DEFINITION. The numbers of spec/01_numbers.md: the floating formats of R14 and R16 with their exact values, the five
rounding modes of R30 and R31, MX and E2M1X blocks (R18 to R21), plane tiles (R22 to R24), matrix sums (R25 to R27), the
choice between NaNs (R28) and the combining of MX blocks (R29).
A finite value is held exactly, as a sign, a natural number and a power of two; it is rounded once.
-/

namespace Sys2Proof.Machine

/-! ## Exact values -/

/-- The exact value that a code stands for: a NaN with its fraction field of `bits` bits, an infinity, or
(-1)^neg * mag * 2^exp. -/
inductive FVal where
  | nan (neg : Bool) (frac bits : Nat)
  | inf (neg : Bool)
  | fin (neg : Bool) (mag : Nat) (exp : Int)
  deriving DecidableEq, Repr

/-- What a format does with a value beyond its range (R14, R16, R17): infinity codes as in IEEE 754, or saturation. -/
inductive FKind where
  | ieee | sat
  deriving DecidableEq, Repr

/-- A binary floating format: fraction bits, exponent bits, bias, largest finite magnitude code, behaviour at the end
of the range, and whether it has NaN codes. -/
structure FFmt where
  frac : Nat
  expn : Nat
  bias : Nat
  top  : Nat
  kind : FKind
  nans : Bool
  deriving DecidableEq, Repr

def fp32 : FFmt := ⟨23, 8, 127, 0x7F7FFFFF, .ieee, true⟩
def fp16 : FFmt := ⟨10, 5, 15, 0x7BFF, .ieee, true⟩
def bf16 : FFmt := ⟨7, 8, 127, 0x7F7F, .ieee, true⟩
def e5m2 : FFmt := ⟨2, 5, 15, 0x7B, .ieee, true⟩
def e4m3 : FFmt := ⟨3, 4, 7, 0x7E, .sat, true⟩
def e2m1 : FFmt := ⟨1, 2, 1, 0x7, .sat, false⟩

/-- The width of a format's codes. -/
def FFmt.width (f : FFmt) : Nat := 1 + f.expn + f.frac

/-- The sign bit's weight. -/
def FFmt.sign (f : FFmt) : Nat := 2 ^ (f.expn + f.frac)

/-- The exponent of the smallest normal value. -/
def FFmt.emin (f : FFmt) : Int := 1 - (f.bias : Int)

/-- The format of a floating element code (R48); FP32 for the codes that name no lone floating format. -/
def elemFmt : Elem → FFmt
  | .fp16 => fp16
  | .bf16 => bf16
  | .e4m3 | .mxe4m3 => e4m3
  | .e5m2 | .mxe5m2 => e5m2
  | .mxe2m1 | .e2m1x => e2m1
  | .fp32 | .i8 | .i16 | .i32 | .i64 | .pt => fp32

/-- The value of a magnitude code: subnormal below the first exponent, else normal (R14, R16). -/
def FFmt.magValue (f : FFmt) (c : Nat) : Nat × Int :=
  let e := c / 2 ^ f.frac
  let m := c % 2 ^ f.frac
  if e = 0 then (m, f.emin - f.frac) else (m + 2 ^ f.frac, f.emin - f.frac + (e - 1))

/-- The exact value of a code (R14, R16). -/
def FFmt.decode (f : FFmt) (code : Nat) : FVal :=
  let c := code % f.sign
  let neg := code / f.sign % 2 = 1
  if c ≤ f.top then .fin neg (f.magValue c).1 (f.magValue c).2
  else if f.kind = .ieee ∧ c = f.top + 1 then .inf neg
  else .nan neg (c % 2 ^ f.frac) f.frac

/-- A finite value from an integer. -/
def FVal.ofInt (z : Int) : FVal := .fin (z < 0) z.natAbs 0

/-- The value is a NaN. -/
def FVal.isNaN : FVal → Bool
  | .nan _ _ _ => true
  | _ => false

/-- The value is an infinity. -/
def FVal.isInf : FVal → Bool
  | .inf _ => true
  | _ => false

/-- The value is finite. -/
def FVal.isFin : FVal → Bool
  | .fin _ _ _ => true
  | _ => false

/-- The sign of a value. -/
def FVal.neg : FVal → Bool
  | .nan s _ _ => s
  | .inf s => s
  | .fin s _ _ => s

/-- The value is a zero. -/
def FVal.isZero : FVal → Bool
  | .fin _ m _ => m = 0
  | _ => false

/-- A value with the other sign. -/
def FVal.negate : FVal → FVal
  | .nan s f b => .nan (!s) f b
  | .inf s => .inf (!s)
  | .fin s m e => .fin (!s) m e

/-- A value times a power of two. -/
def FVal.scale (k : Int) : FVal → FVal
  | .fin s m e => .fin s m (e + k)
  | v => v

/-- The signed integer that a finite value is a multiple of, at the exponent `e0` that is no greater than its own. -/
def signedAt (e0 : Int) (s : Bool) (m : Nat) (e : Int) : Int :=
  let k : Int := (m * 2 ^ (e - e0).toNat : Nat)
  if s then -k else k

/-- The exact comparison of finite values; infinities in their order; a NaN compares as zero (its callers test it). -/
def FVal.cmp (a b : FVal) : Ordering :=
  let key : FVal → Int × Bool × Nat × Int := fun v =>
    match v with
    | .nan _ _ _ => (0, false, 0, 0)
    | .inf s => (if s then -1 else 1, false, 0, 0)
    | .fin s m e => (0, s, m, e)
  let (ia, sa, ma, ea) := key a
  let (ib, sb, mb, eb) := key b
  if ia ≠ ib then compare ia ib
  else
    let e0 := min ea eb
    compare (signedAt e0 sa ma ea) (signedAt e0 sb mb eb)

/-- The exact sum of two finite values, as a signed integer and an exponent. -/
def finAdd (a b : Bool × Nat × Int) : Int × Int :=
  let e0 := min a.2.2 b.2.2
  (signedAt e0 a.1 a.2.1 a.2.2 + signedAt e0 b.1 b.2.1 b.2.2, e0)

/-! ## Rounding (R30, R31) -/

/-- One step of the LFSR (R31). -/
def lfsrStep (l : BitVec 32) : BitVec 32 :=
  let fb := l.getLsbD 31 ^^ l.getLsbD 21 ^^ l.getLsbD 1 ^^ l.getLsbD 0
  (l <<< 1) ||| (if fb then 1 else 0)

/-- The LFSR after an operation of the mode: RS takes a step, the others none (R31). -/
def rndStep (r : Rnd) (l : BitVec 32) : BitVec 32 := if r = .rs then lfsrStep l else l

/-- Whether a magnitude between two neighbours goes to the greater one. The discarded part is num/den of the distance,
0 ≤ num < den; `odd` says that the smaller neighbour's code is odd; `l` is the LFSR after its step. -/
def roundsUp (r : Rnd) (l : BitVec 32) (neg odd : Bool) (num den : Nat) : Bool :=
  match r with
  | .rne => 2 * num > den || (2 * num = den && odd)
  | .rz  => false
  | .ru  => num ≠ 0 && !neg
  | .rd  => num ≠ 0 && neg
  | .rs  => num ≠ 0 && num * 2 ^ 32 / den + l.toNat ≥ 2 ^ 32

/-- floor(log2(n / d)) for positive n and d. -/
def ilog2 (n d : Nat) : Int :=
  let a : Int := (n.log2 : Int) - (d.log2 : Int)
  if a ≥ 0 then (if n ≥ d * 2 ^ a.toNat then a else a - 1)
  else (if n * 2 ^ (-a).toNat ≥ d then a else a - 1)

/-- The magnitude n/d against the values of a format whose exponent range has no upper end: the code of the neighbour
at or below it, and the rest as a fraction of the distance to the next code. -/
def magFloor (f : FFmt) (n d : Nat) : Nat × Nat × Nat :=
  if n = 0 then (0, 0, 1)
  else
    let e := max (ilog2 n d) f.emin
    let k := e - f.frac
    let n' := if k ≥ 0 then n else n * 2 ^ (-k).toNat
    let d' := if k ≥ 0 then d * 2 ^ k.toNat else d
    ((e - f.emin).toNat * 2 ^ f.frac + n' / d', n' % d', d')

/-- The overflow result of a format and mode (R15, R17, R31): infinity or the largest finite value. -/
def overflowCode (f : FFmt) (r : Rnd) (neg : Bool) : Nat :=
  match f.kind with
  | .sat => f.top
  | .ieee =>
    match r with
    | .rne | .rs => f.top + 1
    | .rz => f.top
    | .ru => if neg then f.top else f.top + 1
    | .rd => if neg then f.top + 1 else f.top

/-- The code of the sign and the magnitude n/d rounded to a format; `l` is the LFSR after its step. -/
def roundMag (f : FFmt) (r : Rnd) (l : BitVec 32) (neg : Bool) (n d : Nat) : Nat :=
  let (c, num, den) := magFloor f n d
  let c' := if roundsUp r l neg (c % 2 = 1) num den then c + 1 else c
  (if neg then f.sign else 0) + (if c' > f.top then overflowCode f r neg else c')

/-- A dyadic magnitude as a quotient. -/
def asQuot (m : Nat) (e : Int) : Nat × Nat :=
  if e ≥ 0 then (m * 2 ^ e.toNat, 1) else (m, 2 ^ (-e).toNat)

/-- The code of mag * 2^exp with a sign, rounded to a format. -/
def roundDy (f : FFmt) (r : Rnd) (l : BitVec 32) (neg : Bool) (m : Nat) (e : Int) : Nat :=
  roundMag f r l neg (asQuot m e).1 (asQuot m e).2

/-- The canonical NaN of a format (R14). -/
def FFmt.canonNaN (f : FFmt) : Nat := (f.top + 1) ||| 2 ^ (f.frac - 1)

/-- A NaN code with its most significant fraction bit set (R15). -/
def FFmt.quiet (f : FFmt) (code : Nat) : Nat := code ||| 2 ^ (f.frac - 1)

/-- A NaN brought into a format: E4M3 and E5M2 have one for each sign (R17); the IEEE formats keep the sign and the most
significant fraction bits that fit, made quiet (R15). A NaN that widens keeps its fraction, with zeros below it. -/
def nanInto (f : FFmt) (neg : Bool) (fr bits : Nat) : Nat :=
  (if neg then f.sign else 0) +
  (if f.expn + f.frac ≤ 7 then 0x7F
   else
     let kept := if bits ≥ f.frac then fr / 2 ^ (bits - f.frac) else fr * 2 ^ (f.frac - bits)
     (f.top + 1) ||| kept ||| 2 ^ (f.frac - 1))

/-- The conversion of a value into a format (R15, R17); `l` is the LFSR after its step. -/
def FVal.into (f : FFmt) (r : Rnd) (l : BitVec 32) : FVal → Nat
  | .nan s fr b => nanInto f s fr b
  | .inf s => (if s then f.sign else 0) + (if f.kind = .ieee then f.top + 1 else f.top)
  | .fin s m e => roundDy f r l s m e

/-- The magnitude m * 2^e rounded to an integer; `l` is the LFSR after its step. -/
def roundNat (r : Rnd) (l : BitVec 32) (neg : Bool) (m : Nat) (e : Int) : Nat :=
  let (n, d) := asQuot m e
  if roundsUp r l neg (n / d % 2 = 1) (n % d) d then n / d + 1 else n / d

/-- The conversion of a value into an integer range: saturating, NaN to 0 (R13). -/
def FVal.toRange (lo hi : Int) (r : Rnd) (l : BitVec 32) : FVal → Int
  | .nan _ _ _ => 0
  | .inf s => if s then lo else hi
  | .fin s m e =>
    let k : Int := roundNat r l s m e
    max lo (min hi (if s then -k else k))

/-! ## IEEE arithmetic on codes of one format (R15) -/

/-- The first NaN operand in operand order, made quiet (R15). -/
def firstNaN (f : FFmt) : List Nat → Option Nat
  | [] => none
  | c :: t => if (f.decode c).isNaN then some (f.quiet c) else firstNaN f t

/-- The code of a signed exact sum; a sum of zero takes `zs` as its sign. -/
def roundSum (f : FFmt) (r : Rnd) (l : BitVec 32) (zs : Bool) (z e : Int) : Nat :=
  if z = 0 then (if zs then f.sign else 0) else roundDy f r l (z < 0) z.natAbs e

/-- The sum of two values that are no NaN; none where it is invalid. -/
def addVals (f : FFmt) (r : Rnd) (l : BitVec 32) (a b : FVal) : Option Nat :=
  match a, b with
  | .inf s, .inf t => if s = t then some ((FVal.inf s).into f r l) else none
  | .inf s, _ => some ((FVal.inf s).into f r l)
  | _, .inf s => some ((FVal.inf s).into f r l)
  | .fin s m e, .fin t k g =>
    let (z, e0) := finAdd (s, m, e) (t, k, g)
    -- the sign of an exact zero: the common sign of two zeros, else minus under RD only (IEEE 754, R15)
    let zs := if m = 0 && k = 0 && s = t then s else r = .rd
    some (roundSum f r l zs z e0)
  | .nan _ _ _, _ => none
  | _, .nan _ _ _ => none

/-- The exact product of two values that are no NaN; none where it is invalid. -/
def mulVals (a b : FVal) : Option FVal :=
  match a, b with
  | .inf s, .inf t => some (.inf (s ^^ t))
  | .inf s, .fin t m _ => if m = 0 then none else some (.inf (s ^^ t))
  | .fin s m _, .inf t => if m = 0 then none else some (.inf (s ^^ t))
  | .fin s m e, .fin t k g => some (.fin (s ^^ t) (m * k) (e + g))
  | .nan _ _ _, _ => none
  | _, .nan _ _ _ => none

/-- The sum of two codes of a format; `l` is the LFSR after its step. -/
def fAdd (f : FFmt) (r : Rnd) (l : BitVec 32) (a b : Nat) : Nat :=
  (firstNaN f [a, b]).getD ((addVals f r l (f.decode a) (f.decode b)).getD f.canonNaN)

/-- The code with its sign bit inverted. -/
def FFmt.flip (f : FFmt) (a : Nat) : Nat := a ^^^ f.sign

/-- The difference of two codes: a NaN operand is returned with its own sign (R15). -/
def fSub (f : FFmt) (r : Rnd) (l : BitVec 32) (a b : Nat) : Nat :=
  (firstNaN f [a, b]).getD ((addVals f r l (f.decode a) (f.decode b).negate).getD f.canonNaN)

/-- The product of two codes. -/
def fMul (f : FFmt) (r : Rnd) (l : BitVec 32) (a b : Nat) : Nat :=
  (firstNaN f [a, b]).getD (((mulVals (f.decode a) (f.decode b)).map (FVal.into f r l)).getD f.canonNaN)

/-- a * b + c with one rounding; the operand order is a, b, c. -/
def fFma (f : FFmt) (r : Rnd) (l : BitVec 32) (a b c : Nat) : Nat :=
  (firstNaN f [a, b, c]).getD
    (((mulVals (f.decode a) (f.decode b)).bind fun p => addVals f r l p (f.decode c)).getD f.canonNaN)

/-- The quotient of two codes. -/
def fDiv (f : FFmt) (r : Rnd) (l : BitVec 32) (a b : Nat) : Nat :=
  (firstNaN f [a, b]).getD
    (match f.decode a, f.decode b with
     | .inf _, .inf _ => f.canonNaN
     | .inf s, v => (FVal.inf (s ^^ v.neg)).into f r l
     | .fin s _ _, .inf t => if s ^^ t then f.sign else 0
     | .fin s m e, .fin t k g =>
       if k = 0 then (if m = 0 then f.canonNaN else (FVal.inf (s ^^ t)).into f r l)
       else
         let (n1, d1) := asQuot m e
         let (n2, d2) := asQuot k g
         roundMag f r l (s ^^ t) (n1 * d2) (d1 * n2)
     | .nan _ _ _, _ => f.canonNaN
     | .fin _ _ _, .nan _ _ _ => f.canonNaN)

/-- One digit at a time: the greatest r with r * r ≤ n, by `k` binary digits from the top. -/
def isqrtLoop : Nat → Nat → Nat → Nat
  | 0, _, r => r
  | k + 1, n, r =>
    let r' := r + 2 ^ k
    isqrtLoop k n (if r' * r' ≤ n then r' else r)

/-- The integer square root. -/
def isqrt (n : Nat) : Nat := isqrtLoop (n.log2 / 2 + 1) n 0

/-- The square root of a code. The root is taken to 96 binary places and a last digit that says whether it is exact,
which settles every rounding of a format of at most 24 significant bits, RS's 32 discarded bits included. -/
def fSqrt (f : FFmt) (r : Rnd) (l : BitVec 32) (a : Nat) : Nat :=
  (firstNaN f [a]).getD
    (match f.decode a with
     | .fin s 0 _ => if s then f.sign else 0
     | .inf false => f.top + 1
     | .fin false m e =>
       let (m1, e1) := if e % 2 = 0 then (m, e) else (2 * m, e - 1)
       let n := m1 * 4 ^ 96
       let q := isqrt n
       let (n2, d2) := asQuot (2 * q + (if q * q = n then 0 else 1)) (e1 / 2 - 97)
       roundMag f r l false n2 d2
     | .inf true => f.canonNaN
     | .fin true _ _ => f.canonNaN
     | .nan _ _ _ => f.canonNaN)

/-! ## Signed integers of a width -/

/-- The least and the greatest value of a signed width (R13). -/
def intMin (w : Nat) : Int := -(2 ^ (w - 1) : Nat)
def intMax (w : Nat) : Int := (2 ^ (w - 1) : Nat) - 1

/-- The low w bits of an integer, as a number. -/
def wrapNat (w : Nat) (z : Int) : Nat := (z % (2 ^ w : Nat)).toNat

/-- A w-bit number read as two's complement. -/
def signedNat (w n : Nat) : Int :=
  if n % 2 ^ w < 2 ^ (w - 1) then (n % 2 ^ w : Nat) else (n % 2 ^ w : Nat) - (2 ^ w : Nat)

/-! ## MX and E2M1X blocks (R18 to R21, R29) -/

/-- The block formats of R18 and R20. -/
inductive BFmt where
  | e4 | e5 | e2 | e2x
  deriving DecidableEq, Repr

/-- The element format of a block format. -/
def BFmt.elem : BFmt → FFmt
  | .e4 => e4m3
  | .e5 => e5m2
  | .e2 | .e2x => e2m1

/-- The greatest exponent of the element format (R19). -/
def BFmt.emax : BFmt → Int
  | .e4 => 8
  | .e5 => 15
  | .e2 | .e2x => 2

/-- The bytes of a block (R18, R20). -/
def BFmt.bytes : BFmt → Nat
  | .e4 | .e5 => 33
  | .e2 => 17
  | .e2x => 18

/-- The number of code bytes of a block. -/
def BFmt.codes : BFmt → Nat
  | .e4 | .e5 => 32
  | .e2 | .e2x => 16

/-- Byte i of a block. -/
def byteAt (b : List Byte) (i : Nat) : Nat := (b.getD i 0).toNat

/-- Element code i of a block (R18). -/
def BFmt.code (f : BFmt) (b : List Byte) (i : Nat) : Nat :=
  match f with
  | .e4 | .e5 => byteAt b i
  | .e2 | .e2x => if i % 2 = 0 then byteAt b (i / 2) % 16 else byteAt b (i / 2) / 16

/-- The 32 positions of a block. -/
def lanes32 : List Nat := List.range 32

/-- The block is NaN as a whole (R18, R20). -/
def BFmt.isNaN (f : BFmt) (b : List Byte) : Bool :=
  byteAt b f.codes = 0xFF || (f = .e2x && byteAt b 17 ≥ 0x80)

/-- The scale exponent of a block. -/
def BFmt.scaleExp (f : BFmt) (b : List Byte) : Int := (byteAt b f.codes : Int) - 127

/-- The exact value of an element code, before the scale; in E2M1X the code 0b1000 is the special value (R20). -/
def BFmt.elemVal (f : BFmt) (special : Nat) (c : Nat) : FVal :=
  if f = .e2x ∧ c = 8 then
    let h := signedNat 7 special
    .fin (h < 0) h.natAbs (-1)
  else f.elem.decode c

/-- The exact values of a block's 32 elements (R18, R20). -/
def BFmt.decode (f : BFmt) (b : List Byte) : List FVal :=
  if f.isNaN b then lanes32.map fun _ => .nan false 0 0
  else lanes32.map fun i => (f.elemVal (byteAt b 17) (f.code b i)).scale (f.scaleExp b)

/-- The element codes, packed as R18 stores them. -/
def BFmt.pack (f : BFmt) (codes : List Nat) (scale special : Nat) : List Byte :=
  (match f with
   | .e4 | .e5 => lanes32.map fun i => BitVec.ofNat 8 (codes.getD i 0)
   | .e2 | .e2x => (List.range 16).map fun i => BitVec.ofNat 8 (codes.getD (2 * i) 0 + 16 * codes.getD (2 * i + 1) 0))
  ++ [BitVec.ofNat 8 scale] ++ (if f = .e2x then [BitVec.ofNat 8 special] else [])

/-- The greatest finite magnitude of a list. -/
def maxMag : List FVal → FVal
  | [] => .fin false 0 0
  | .fin _ m e :: t => if (FVal.fin false m e).cmp (maxMag t) = .gt then .fin false m e else maxMag t
  | .inf _ :: t => maxMag t
  | .nan _ _ _ :: t => maxMag t

/-- The exponent X of R19. -/
def blockExp (f : BFmt) (v : List FVal) : Int :=
  match maxMag v with
  | .fin _ m e => if m = 0 then -127 else max (-127) (min 127 ((m.log2 : Int) + e - f.emax))
  | _ => -127

/-- One element of a conversion (R19): rounded, saturated at the largest finite value; a zero of E2M1 has no sign. -/
def blockElem (f : BFmt) (x : Int) (r : Rnd) (l : BitVec 32) (v : FVal) : Nat :=
  match v with
  | .inf s => (FVal.inf s).into f.elem r l
  | .nan _ _ _ => 0
  | .fin s m e =>
    let c := roundDy f.elem r l s m (e - x)
    let mag := min (c % f.elem.sign) f.elem.top
    if f.elem = e2m1 ∧ mag = 0 then 0 else (if s then f.elem.sign else 0) + mag

/-- The codes of the elements in ascending order, with one LFSR step each under RS (R31). -/
def blockElems (f : BFmt) (x : Int) (r : Rnd) : BitVec 32 → List FVal → List Nat × BitVec 32
  | l, [] => ([], l)
  | l, v :: t =>
    let l' := rndStep r l
    let (cs, l'') := blockElems f x r l' t
    (blockElem f x r l' v :: cs, l'')

/-- The distance of two finite values, as a finite value. -/
def distance (a b : FVal) : FVal :=
  match a, b with
  | .fin s m e, .fin t k g =>
    let (z, e0) := finAdd (s, m, e) (!t, k, g)
    .fin false z.natAbs e0
  | _, _ => .fin false 0 0

/-- The index and the value of the first greatest element. -/
def argMax : Nat → List FVal → Nat × FVal
  | i, [] => (i, .fin false 0 0)
  | i, e :: t =>
    let (j, m) := argMax (i + 1) t
    if t = [] ∨ m.cmp e ≠ .gt then (i, e) else (j, m)

/-- The nearest integer, ties to even. -/
def rneInt : FVal → Int
  | .fin s m e =>
    let k : Int := roundNat .rne 0 s m e
    if s then -k else k
  | _ => 0

/-- The conversion of 32 values into a block (R19, R21), with the LFSR it leaves. -/
def BFmt.encode (f : BFmt) (r : Rnd) (l : BitVec 32) (v : List FVal) : List Byte × BitVec 32 :=
  let x := blockExp f v
  let (cs, l') := blockElems f x r l v
  if v.any FVal.isNaN || (v.any FVal.isInf && f ≠ .e5) then (f.pack [] 0xFF 0, l')
  else if f = .e2x then
    let y := v.map (FVal.scale (-x))
    let errs := (y.zip cs).map fun p => distance p.1 (e2m1.decode p.2)
    let h := max (-64) (min 63 (rneInt ((y.getD (argMax 0 errs).1 (.fin false 0 0)).scale 1)))
    let hv : FVal := .fin (h < 0) h.natAbs (-1)
    let cs' := ((y.zip cs).zip errs).map fun p => if (distance p.1.1 hv).cmp p.2 = .lt then 8 else p.1.2
    (f.pack cs' (x + 127).toNat (if cs'.contains 8 then wrapNat 7 h else 0), l')
  else (f.pack cs (x + 127).toNat 0, l')

/-- A combining operation on exact values that are no NaN (R29); none where +Inf meets -Inf. Of two zeros a minimum or maximum keeps the
resident one, and an exact sum of zero is minus zero only where both operands are minus: DESIGN CHOICE, log 64. -/
def combineVals (op : RedOp) (a b : FVal) : Option FVal :=
  match op with
  | .min => some (if b.cmp a = .lt then b else a)
  | .max => some (if b.cmp a = .gt then b else a)
  | .add =>
    match a, b with
    | .inf s, .inf t => if s = t then some a else none
    | .inf _, _ => some a
    | _, .inf _ => some b
    | .fin s m e, .fin t k g =>
      let (z, e0) := finAdd (s, m, e) (t, k, g)
      some (.fin (if z = 0 then s && t else z < 0) z.natAbs e0)
    | .nan _ _ _, _ => none
    | _, .nan _ _ _ => none

/-- A finite value rounds to nearest at or below the largest finite value of the format. -/
def rneFits (f : FFmt) : FVal → Bool
  | .fin _ m e =>
    let (c, num, den) := magFloor f (asQuot m e).1 (asQuot m e).2
    (if roundsUp .rne 0 false (c % 2 = 1) num den then c + 1 else c) ≤ f.top
  | _ => true

/-- The smallest scale of R29 from `s` upwards, among `k` scales, at which every finite result fits. -/
def fitScale (f : BFmt) (z : List FVal) : Nat → Nat → Option Nat
  | 0, _ => none
  | k + 1, s =>
    if z.all fun v => rneFits f.elem (v.scale (127 - (s : Int))) then some s else fitScale f z k (s + 1)

/-- The combination of a resident block with an arriving block (R29), and whether it overflows. A negative result that rounds to zero is
stored with its sign, in MX-E2M1 as code 0b1000: DESIGN CHOICE, log 64. -/
def BFmt.combine (f : BFmt) (op : RedOp) (a b : List Byte) : List Byte × Bool :=
  if f.isNaN a || f.isNaN b then ((a.take f.codes) ++ [0xFF], false)
  else
    let z := ((f.decode a).zip (f.decode b)).map fun p =>
      if p.1.isNaN || p.2.isNaN then none else combineVals op p.1 p.2
    let vals := z.filterMap id
    let s0 := max (byteAt a f.codes) (byteAt b f.codes)
    let sc := fitScale f vals (0xFF - s0) s0
    let s := sc.getD 0xFE
    let x : Int := (s : Int) - 127
    let cs := z.map fun v =>
      match v with
      | none => 0x7F
      | some v =>
        match v with
        | .fin neg m e =>
          let c := roundDy f.elem .rne 0 neg m (e - x)
          (if neg then f.elem.sign else 0) + min (c % f.elem.sign) f.elem.top
        | v => v.into f.elem .rne 0
    (f.pack cs s 0, sc = none)

/-- x is smaller than y, with -0 smaller than +0 (R110); neither is a NaN. -/
def fpBelow (x y : FVal) : Bool :=
  match x.cmp y with
  | .lt => true
  | .gt => false
  | .eq => x.isZero && y.isZero && x.neg && !y.neg

/-- The choice between two NaN codes (R28): `a` is the destination's. -/
def nanChoice (f : FFmt) (a b : Nat) : Nat :=
  let key := fun c => if f = fp32 then (c / 2 ^ 10 % 2 ^ 12) * 2 ^ 10 + c % 2 ^ 10 else c % 2 ^ f.frac
  if key b < key a then b else a

/-- One element of destination arithmetic by add, minimum or maximum in an IEEE format (R28, R206): a NaN is kept
unchanged, and one that the operation creates is the canonical NaN (R15). -/
def destCombine (f : FFmt) (op : RedOp) (a b : Nat) : Nat :=
  match (f.decode a).isNaN, (f.decode b).isNaN with
  | true, true => nanChoice f a b
  | true, false => a
  | false, true => b
  | false, false =>
    match op with
    | .add => fAdd f .rne 0 a b
    | .min => if fpBelow (f.decode b) (f.decode a) then b else a
    | .max => if fpBelow (f.decode a) (f.decode b) then b else a

/-! ## Plane tiles and matrix sums (R22 to R27) -/

/-- One block of a plane tile: the shared exponent, the significands and the non-finite positions (R22, R24). -/
structure PlaneBlock where
  exp   : Int
  sig   : List Int
  marks : List (Nat × FVal)
  deriving DecidableEq, Repr

/-- The conversion of 32 exact values at p planes (R22, R24). -/
def planeBlock (p : Nat) (x : List FVal) : PlaneBlock :=
  let marks := (x.zipIdx.filter fun v => !v.1.isFin).map fun v => (v.2, v.1)
  let exps := x.filterMap fun v =>
    match v with
    | .fin _ m e => if m = 0 then none else some ((m.log2 : Int) + e)
    | _ => none
  match exps with
  | [] => ⟨-150, x.map fun _ => 0, marks⟩
  | e0 :: t =>
    let e := t.foldl max e0
    ⟨e, x.map fun v =>
      match v with
      | .fin _ _ _ => min (intMax p) (rneInt (v.scale ((p : Int) - 2 - e)))
      | _ => 0, marks⟩

/-- The top `pa` of `p` planes of a significand (R23). -/
def topPlanes (p pa : Nat) (q : Int) : Int := q / (2 ^ (p - pa) : Nat)

/-- The NaN that the matrix unit of a core creates (R27). -/
def matrixNaN (core k : Nat) : Nat := 0x7FC00000 + (core % 4096) * 2 ^ 10 + k % 2 ^ 10

/-- One 32-k block's contribution to an FP32 accumulator (R25): the exact sum times the two exponents, rounded once. -/
def accumulate (acc : Nat) (s : Int) (e : Int) : Nat :=
  if s = 0 then acc
  else
    match fp32.decode acc with
    | .nan _ _ _ => acc
    | v => (addVals fp32 .rne 0 v (.fin (s < 0) s.natAbs e)).getD fp32.canonNaN

/-- The lowest of the offsets of some terms (R27). -/
def lowestTerm : List (Nat × FVal) → Nat
  | [] => 0
  | t :: ts => ts.foldl (fun k u => min k u.1) t.1

/-- The result of an output that has non-finite terms (R26, R27); the terms are the offset of k and the term. -/
def nonFinite (core acc : Nat) (terms : List (Nat × FVal)) : Nat :=
  match fp32.decode acc with
  | .nan _ _ _ => acc
  | v =>
    let nans := terms.filter fun t => t.2.isNaN
    if nans ≠ [] then matrixNaN core (lowestTerm nans)
    else
      match terms with
      | [] => acc
      | (_, t) :: ts =>
        if ts.any (fun u => u.2.neg ≠ t.neg) || (v.isInf && v.neg ≠ t.neg) then matrixNaN core (lowestTerm terms)
        else (FVal.inf t.neg).into fp32 .rne 0

/-- The non-finite term of one k (R26): none where both elements are finite. Each element is its mark, if any, and the
significand read. -/
def nonFiniteTerm (a b : Option FVal) (qa qb : Int) : Option FVal :=
  match a, b with
  | none, none => none
  | some u, some v => if u.isNaN || v.isNaN then some (.nan false 0 0) else some (.inf (u.neg ^^ v.neg))
  | some u, none =>
    if u.isNaN || qb = 0 then some (.nan false 0 0) else some (.inf (u.neg ^^ decide (qb < 0)))
  | none, some v =>
    if v.isNaN || qa = 0 then some (.nan false 0 0) else some (.inf (decide (qa < 0) ^^ v.neg))

end Sys2Proof.Machine
end

