-- ==== Sys2Proof/Machine/Flags.lean ====
section
/-!
DEFINITION. The flags of this machine are predicates and mask bits. Here is how each is computed: the conditions of R49 on
integers and on floating values, and the order of FMIN and FMAX (R110).
-/

namespace Sys2Proof.Machine

/-- A condition of R49 on integers given with their signed and unsigned values. Conditions 10 and 11 do not apply. -/
def intCond (c : Cond) (sx sy : Int) (ux uy : Nat) : Bool :=
  match c with
  | .eq => ux = uy
  | .ne => ux ≠ uy
  | .lt => sx < sy
  | .ge => sx ≥ sy
  | .le => sx ≤ sy
  | .gt => sx > sy
  | .ltu => ux < uy
  | .geu => ux ≥ uy
  | .leu => ux ≤ uy
  | .gtu => ux > uy
  | .un => false
  | .ord => true

/-- A condition of R49 on the low `w` bits of two numbers. -/
def intCondW (c : Cond) (w : Nat) (x y : Nat) : Bool :=
  intCond c (signedNat w x) (signedNat w y) (x % 2 ^ w) (y % 2 ^ w)

/-- A condition of R49 on floating values. Conditions 6 to 9 do not apply. -/
def fpCond (c : Cond) (x y : FVal) : Bool :=
  let un := x.isNaN || y.isNaN
  let o := x.cmp y
  match c with
  | .eq => !un && o = .eq
  | .ne => un || o ≠ .eq
  | .lt => !un && o = .lt
  | .ge => !un && o ≠ .lt
  | .le => !un && o ≠ .gt
  | .gt => !un && o = .gt
  | .un => un
  | .ord => !un
  | .ltu => false
  | .geu => false
  | .leu => false
  | .gtu => false

/-- The width of an integer element format (R13). -/
def intWidth : Elem → Nat
  | .i8 => 8
  | .i16 => 16
  | .i32 => 32
  | .i64 | .fp16 | .bf16 | .fp32 | .e4m3 | .e5m2 | .mxe4m3 | .mxe5m2 | .mxe2m1 | .e2m1x | .pt => 64

/-- The element format is one of the integer formats. -/
def elemIsInt : Elem → Bool
  | .i8 | .i16 | .i32 | .i64 => true
  | .fp16 | .bf16 | .fp32 | .e4m3 | .e5m2 | .mxe4m3 | .mxe5m2 | .mxe2m1 | .e2m1x | .pt => false

/-- FMIN and FMAX on codes of a format (R15, R110). -/
def fMinMax (f : FFmt) (max_ : Bool) (a b : Nat) : Nat :=
  (firstNaN f [a, b]).getD
    (if max_ then (if fpBelow (f.decode a) (f.decode b) then b else a)
     else (if fpBelow (f.decode b) (f.decode a) then b else a))

end Sys2Proof.Machine
end

