-- ==== Sys2Proof/Machine/Tasks.lean ====
section
/-!
DEFINITION. Tasks and the run queue (spec/11_one_core.md R152 to R156), notices and fault records on their way to a fault
actor (spec/27_launch.md R356, R357), counter steps (spec/13_many_cores.md R199) and the counts of work-graph queues that
change when firings end (spec/23_traversal.md R312).
-/

namespace Sys2Proof.Machine

/-! ## Teams and launches -/

/-- The key of a team: its launch and its number in the launch. -/
def teamKey (launch no : Nat) : Nat := launch * 2 ^ 64 + no

def Team.key (t : Team) : Nat := teamKey t.launch t.no

/-- A resident team by launch and number. -/
def State.team? (s : State) (launch no : Nat) : Option Team := smFind s.teams (teamKey launch no)

def State.setTeam (s : State) (t : Team) : State := { s with teams := smPut s.teams t.key t }

def State.launch? (s : State) (id : Nat) : Option Launch := smFind s.launches id

def State.setLaunch (s : State) (l : Launch) : State := { s with launches := smPut s.launches l.id l }

/-- The resident team of a launch with the lowest team identifier on a core (R168, R356). -/
def State.teamOfLaunch (s : State) (launch core : Nat) : Option Team :=
  (s.teams.find? fun t => t.2.launch = launch && t.2.core = core).map (·.2)

/-- The team identifier of a team of a launch: the work identifier of its item 0 (R153). -/
def State.teamId (s : State) (launch no : Nat) : Nat :=
  no * 2 ^ ((s.launch? launch).map fun l => (l.spec.widths.drop l.spec.teamLv).foldl (· + ·) 0).getD 0

/-- The priority of a launch; 0 for one that is gone. -/
def State.launchPrio (s : State) (id : Nat) : Nat := ((s.launch? id).map (·.spec.prio)).getD 0

/-- An actor of a launch. -/
def State.actor? (s : State) (launch a : Nat) : Option Actor := (s.launch? launch).bind fun l => l.spec.table[a]?

/-- The launch's count of dropped notices and records rises (R349, R356). -/
def State.drop (s : State) (launch n : Nat) : State :=
  match s.launch? launch with
  | some l => s.setLaunch { l with dropped := l.dropped + n }
  | none => s

/-! ## The run queue (R155, R156) -/

def State.queue (s : State) (core : Nat) : List QEntry := smGet [] s.queues core

def State.setQueue (s : State) (core : Nat) (q : List QEntry) : State := { s with queues := smPut s.queues core q }

/-- The tasks in a queue; a team's place is not one of them. -/
def taskCount (q : List QEntry) : Nat :=
  (q.filter fun e => match e.item with | .task _ => true | .items _ => false).length

/-- The run queue and the overflow area of a core have room for a task: 64 + 128 (R155). -/
def State.room (s : State) (core : Nat) : Bool := taskCount (s.queue core) < 192

/-- A task joins the tail of its priority (R155, R156). -/
def State.pushTask (s : State) (core prio : Nat) (t : Task) : State :=
  s.setQueue core (s.queue core ++ [⟨prio, .task t⟩])

/-- Eight message words (R168): the given ones, then zeros. -/
def eight (ws : List Word) : List Word := (ws ++ List.replicate 8 0).take 8

/-- The task of a message actor (R152, R153). -/
def msgTask (launch team actor : Nat) (ws : List Word) (workid : Word) : Task :=
  { launch := launch, team := team, actor := actor, kind := 2, words := eight ws, workid := workid, depth := 0,
    port := none, record := none }

/-! ## Notices and records (R356, R357) -/

/-- The launch a note names: its own, or the supervisor launch that boot firmware placed. -/
def State.noteLaunch (s : State) (n : Note) : Option Nat :=
  match n.launch with
  | some l => some l
  | none => s.supvId

/-- The team that a note of a launch names; a message of the device to the supervisor launch names none (R341). -/
def Note.names (n : Note) : Option Nat := n.launch.map fun _ => n.team

/-- The team in which a note fires: the one it names wherever that is resident, else the launch's resident team of lowest identifier on
the note's core (R341, R356). -/
def State.noteTeam (s : State) (n : Note) (launch : Nat) : Option Team :=
  match n.names.bind (s.team? launch) with
  | some t => some t
  | none => s.teamOfLaunch launch n.core

/-- A team is held in its save area after a sweep (R351): it has not ended, and a note that names it waits for it (R317). -/
def State.sweptNow (s : State) (launch team : Nat) : Bool :=
  (s.team? launch team).isNone && s.swept.any fun w => w.team.launch = launch && w.team.no = team

/-- The actor a note fires: the one it names, or the launch's fault actor; none where FAULT is 0xFF. -/
def State.noteActor (s : State) (n : Note) (launch : Nat) : Option Nat :=
  match n.actor with
  | some a => some a
  | none =>
    match s.launch? launch with
    | some l => if l.spec.fault = 0xFF then none else some l.spec.fault
    | none => none

/-- The context of a firing: its own one where its thread is away (R243). -/
def State.firingCtx (s : State) (firing : Nat) : Option Nat :=
  (s.threads.find? fun t => t.2.firing.any fun f => f.id = firing && f.home.isNone).map (·.1)

/-- The engine that sent a note, by its command port (R155): the streamer's completions and records, the matrix unit's and the
traversal unit's records. -/
def Note.engine (n : Note) : Option Nat :=
  let k := (n.words.headD 0).toNat % 256
  if n.copied.isSome then some 2
  else if !n.record then none
  else if 1 ≤ k && k ≤ 4 then some 0
  else if k = 5 || (8 ≤ k && k ≤ 13) then some 2
  else if k = 14 || k = 15 then some 4
  else none

/-- An engine, named by its command port, holds a completion or record for a core that had no room for it; it issues no later one to that
core (R155). -/
def State.holding (s : State) (core q : Nat) : Bool := s.notes.any fun n => n.core = core && n.engine = some q

/-- A note is sent (R154 to R156, R357): it becomes a task where its actor's team is resident and the queue has room; it
waits where there is no room, or while its team is swept; with no fault actor an engine record waits for trap 0x14 in the context whose firing pushed
the failing command, if that firing runs; all others count in DROPPED. -/
def State.post (s : State) (n : Note) : State :=
  match s.noteLaunch n with
  | none => s
  | some l =>
    match s.noteActor n l with
    | some a =>
      if n.names.any (s.sweptNow l) then { s with notes := s.notes ++ [n] }
      else
        match s.noteTeam n l with
        | none => s.drop l 1
        | some t =>
          if s.room t.core && !n.engine.any (s.holding n.core) then
            s.pushTask t.core (s.launchPrio l) { msgTask l t.no a n.words n.workid with copied := n.copied }
          else { s with notes := s.notes ++ [n] }
    | none =>
      match n.record, n.org with
      | true, some o =>
        match s.firingCtx o.firing with
        | some t => s.setThread t { s.thread t with traps := (s.thread t).traps ++ [⟨0, eight n.words⟩] }
        | none =>
          match s.saved.find? fun v => (v.thread.firing.map (·.id)) = some o.firing with
          | some v =>
            let th := { v.thread with traps := v.thread.traps ++ [⟨0, eight n.words⟩] }
            { s with saved := s.saved.map fun w => if w = v then { v with thread := th } else w }
          | none => s.drop l 1
      | _, _ => s.drop l 1

/-- The eight words of a fault record laid out as R284. -/
def faultWords (kind cause core ctx side obj off : Nat) (workid : Word) (pbobj pboff cursor : Nat) (xferid : Word) :
    List Word :=
  [BitVec.ofNat 64 (kind + cause * 2 ^ 8 + core * 2 ^ 16 + ctx * 2 ^ 32 + side * 2 ^ 40), BitVec.ofNat 64 obj,
   BitVec.ofNat 64 off, workid, BitVec.ofNat 64 pbobj, BitVec.ofNat 64 pboff, BitVec.ofNat 64 cursor, xferid]

/-- A record of an engine command goes to its launch's fault actor on the issuing core, in the issuing team. -/
def Origin.note (o : Origin) (ws : List Word) : Note :=
  { core := o.core, launch := some o.launch, team := o.team, record := true, org := some o, actor := none,
    workid := o.workid, words := ws }

/-- A message of the device to an actor of the supervisor launch on a port cluster's core 0 (R233, R240, R341). -/
def supNote (die actor : Nat) (workid : Word) (ws : List Word) : Note :=
  { core := portCore die, launch := none, team := 0, record := false, org := none, actor := some actor,
    workid := workid, words := ws }

/-! ## Who accesses -/

/-- The window of the arcade of a team (R186): die and number. -/
def State.teamWin (s : State) (launch team : Nat) : Nat × Nat :=
  match s.launch? launch with
  | none => (0, 0)
  | some l =>
    let per := l.spec.widths.take l.spec.teamLv |>.drop l.spec.arcLv |>.foldl (· + ·) 0
    match l.placed.find? fun p => p.arcade = team / 2 ^ per with
    | some p => (p.wdie, p.window)
    | none => (0, 0)

/-- The accessor that an engine command's origin is. -/
def State.accOf (s : State) (o : Origin) : Acc :=
  { core := o.core, launch := o.launch, win := s.teamWin o.launch o.team }

/-! ## Counter steps (R199, R203) -/

/-- Saturating addition of a 9-bit count field of the status word (R203). -/
def satAdd (a b : Nat) : Nat := min 511 (a + b)

/-- The status word after a transfer's counts and flags are added (R203). DESIGN CHOICE: bits 63 to 29, which R203 gives as zero, are kept as
software left them (log 97). -/
def addStatus (w : Nat) (range pidx pdata : Nat) (ovf reord : Bool) : Nat :=
  satAdd (bitsOf 8 0 w) range + satAdd (bitsOf 17 9 w) pidx * 2 ^ 9 + satAdd (bitsOf 26 18 w) pdata * 2 ^ 18 +
  (if ovf || w.testBit 27 then 2 ^ 27 else 0) + (if reord || w.testBit 28 then 2 ^ 28 else 0) + bitsOf 63 29 w * 2 ^ 29

/-- A counter step at the counter's home, one operation (R199): the status word, where one is given, then the decrement; or the
cause and offset of the fault met, with neither written (R204). -/
def State.counterStep (s : State) (c : Acc) (ctr : Cap) (status : Option (Nat × Nat × Nat × Bool × Bool)) :
    Except (Nat × Nat) Unit × State :=
  match s.engReadWhole c (capObj ctr) (capOff ctr) 16 with
  | (.error e, s) => (.error e, s)
  | (.ok b, s) =>
    let cnt := leNat (b.take 8)
    let st := leNat (b.drop 8)
    let dec := leBytes 8 (cnt + (2 ^ 64 - 1))
    match status with
    | none => s.engWrite c (capObj ctr) (capOff ctr) dec
    | some (r, i, d, o, q) =>
      match s.xlatRange c (capObj ctr) (capOff ctr) rW (pagesOf (capOff ctr) 8) 8 with
      | (.error e, s) => (.error e, s)
      | (.ok ps, s) =>
        if s.anyDown ps then (.error (0x0F, capOff ctr), s)
        else
          match s.engWrite c (capObj ctr) (capOff ctr + 8) (leBytes 8 (addStatus st r i d o q)) with
          | (.error e, s) => (.error e, s)
          | (.ok _, s) => (.ok (), s.writePieces c.src ps dec)

/-! ## Work-graph counts (R311, R312) -/

def State.wq? (s : State) (id : Nat) : Option WQueue := s.wqueues.find? (·.id = id)

def State.setWq (s : State) (q : WQueue) : State :=
  { s with wqueues := s.wqueues.map fun w => if w.id = q.id then q else w }

/-- STAT0 of a queue (R311). -/
def stat0 (q : WQueue) (bound : Bool) : Word :=
  BitVec.ofNat 64 ((if bound then 2 ^ 63 else 0) + (if q.armed then 2 ^ 62 else 0) +
    (if q.used ≥ fieldW 31 16 q.qctl then 2 ^ 61 else 0) +
    (q.active.foldl (fun n k => n ||| 2 ^ k) 0) * 2 ^ 56 + q.cap % 2 ^ 18 * 2 ^ 38 + q.used % 2 ^ 18 * 2 ^ 20 +
    q.work % 2 ^ 20)

/-- STAT1 of a queue (R311). -/
def stat1 (q : WQueue) : Word := BitVec.ofNat 64 (q.abn % 2 ^ 32 * 2 ^ 32 + q.disp % 2 ^ 32)

/-- The accessor of a queue's home: the bound team (R373). -/
def State.wqAcc (s : State) (q : WQueue) : Acc :=
  { core := q.core, launch := q.launch, win := s.teamWin q.launch q.team }

/-- A KIND 18 record of a queue's home (R374), with the identifier of the bound team as WORKID. -/
def State.wqRecord (s : State) (q : WQueue) (cause side obj off : Nat) : State :=
  s.post
    { core := q.core, launch := some q.launch, team := q.team, record := true, org := none, actor := none,
      workid := BitVec.ofNat 64 (s.teamId q.launch q.team),
      words := faultWords 18 cause q.core 0 side obj off (BitVec.ofNat 64 (s.teamId q.launch q.team)) q.obj q.off 0 0 }

/-- WORK changes; each fall to 0 steps the completion counter (R312). -/
def State.wqWork (s : State) (id : Nat) (fall : Nat) : State :=
  match s.wq? id with
  | none => s
  | some q =>
    let s := s.setWq { q with work := q.work - fall }
    if q.work - fall = 0 && fall > 0 && q.cnt.tag then
      match s.counterStep (s.wqAcc q) q.cnt none with
      | (.ok _, s) => s
      | (.error (k, o), s) => s.wqRecord q k 3 (capObj q.cnt) o
    else s

/-- USED falls; at 0 the queue is armed (R312). -/
def State.wqUsed (s : State) (id : Nat) (fall : Nat) : State :=
  match s.wq? id with
  | none => s
  | some q => s.setWq { q with used := q.used - fall, armed := q.armed || (q.used - fall = 0 && fall > 0) }

/-- The slots of a reservation become free and its records count as abandoned (R315). -/
def State.wqAbandon (s : State) (r : WgRes) : State :=
  match s.wq? r.queue with
  | none => s
  | some q =>
    let s := s.setWq { q with abn := q.abn + r.remain, slots := r.slots.foldl smDel q.slots }
    (s.wqUsed r.queue r.remain).wqWork r.queue r.remain

/-! ## Ending a firing (R175) -/

/-- The thread of a context whose firing has ended: what a later firing start sets again stays as it stands. -/
def Thread.afterEnd (th : Thread) : Thread :=
  { th with pend := [], ras := [], area := 0, ovr := 0, run := none, status := .free, firing := none, held := [],
            traps := [], cut := none, wg := [], noBreak := false, atHome := false }

/-- The records that wait for trap 0x14 at a context and at the one that its thread was shipped from (R357). -/
def State.waitingTraps (s : State) (t : Nat) (f : Firing) : Nat :=
  (s.thread t).traps.length + ((f.home.map fun h => (s.thread h).traps.length).getD 0)

/-- The end of the firing of a context, as DONE does it (R175): pending results, the return store, open reservations and
held elements are given up, a cut that waits for its start is gone, records that wait for trap 0x14 count in DROPPED (R357), a light handler's port opens again
(R167), and the context, with the one it was shipped from (R243), is free. -/
def State.endFiring (s : State) (t : Nat) : State :=
  let th := s.thread t
  match th.firing with
  | none => s.setThread t th.afterEnd
  | some f =>
    let s := th.wg.foldl (fun s r => s.wqAbandon r.2) s
    let lost := s.waitingTraps t f
    let s := if lost = 0 then s else s.drop f.launch lost
    let s :=
      match f.port, s.team? f.launch f.team with
      | some q, some tm => s.setTeam { tm with lhBusy := tm.lhBusy.erase q }
      | _, _ => s
    let s := s.setThread t (s.thread t).afterEnd
    let s :=
      match f.home with
      | some h => s.setThread h (s.thread h).afterEnd
      | none => s
    { s with
      ended := s.ended ++ [f]
      xfers := s.xfers.filter fun x => !(decide (x.kind = .cut) && decide (x.org.firing = f.id)) }

end Sys2Proof.Machine
end

