-- ==== Sys2Proof/Machine/Ops.lean ====
section
/-!
DEFINITION. The operations of one thread that every meaning is written over: reading and writing registers with the
latencies of R43 to R45, the checks and the homes of memory accesses (R88, R185, R238, R372), stores in program order
(R125, R189), taking a trap and returning from one (R355, R358), parking (R158, R240), shipping (R241), and going on to the
next bundle (R42, R120).
-/

namespace Sys2Proof.Machine

/-! ## Registers (R38) -/

def Thread.rg (t : Thread) (r : GReg) : Word := if r = 0 then 0 else smGet 0 t.g r
def Thread.rc (t : Thread) (r : CReg) : Cap := if r = 0 then nullCap else smGet nullCap t.c r
def Thread.rp (t : Thread) (r : PReg) : Bool := if r = 0 then true else smGet false t.p r
def Thread.rv (t : Thread) (r : VReg) : VWord := smGet 0 t.v r
def Thread.rm (t : Thread) (r : MReg) : Mask := if r = 0 then 0xFFFF else smGet 0xFFFF t.m r

/-- A write to a register that reads as a constant (R38). -/
def RegWrite.dead : RegWrite → Bool
  | .g r _ => r = 0
  | .c r _ => r = 0
  | .p r _ => r = 0
  | .m r _ => r = 0
  | .v _ _ => false

/-- The register file after a write. -/
def Thread.commit (t : Thread) : RegWrite → Thread
  | .g r x => { t with g := smPut t.g r x }
  | .c r x => { t with c := smPut t.c r x }
  | .p r x => { t with p := smPut t.p r x }
  | .v r x => { t with v := smPut t.v r x }
  | .m r x => { t with m := smPut t.m r x }

/-- A result is produced, to be written at a nominal time, or on arrival (R43, R44). -/
def Thread.post (t : Thread) (w : RegWrite) (due : Option Nat) : Thread :=
  if w.dead then t else { t with pend := t.pend ++ [⟨w, due⟩] }

/-- A result that is there before the next bundle issues (R372); it supersedes every earlier result of its register. -/
def Thread.now (t : Thread) (w : RegWrite) : Thread :=
  if w.dead then t else { t with pend := t.pend.filter (fun e => e.w.reg ≠ w.reg) }.commit w

/-- A pending result is written when a bundle at nominal time `nt` reads the registers `reads` (R43, R44). -/
def Pend.visible (nt : Nat) (reads : List Reg) (e : Pend) : Bool :=
  match e.due with
  | some d => d ≤ nt
  | none => reads.contains e.w.reg

/-- What stays pending: results not yet visible that no visible later result of the same register supersedes (R43). -/
def stillPending (nt : Nat) (reads : List Reg) : List Pend → List Pend
  | [] => []
  | e :: t =>
    if e.visible nt reads || t.any (fun x => x.w.reg = e.w.reg && x.visible nt reads) then stillPending nt reads t
    else e :: stillPending nt reads t

/-- The thread with every result written that a bundle reading `reads` sees (R43, R44). -/
def Thread.settle (t : Thread) (reads : List Reg) : Thread :=
  (t.pend.filter (·.visible t.nt reads)).foldl (fun t e => t.commit e.w)
    { t with pend := stillPending t.nt reads t.pend }

/-- The file and number of a register in the TVAL of R45. -/
def Reg.key : Reg → Nat × Nat
  | .g r => (0, r)
  | .c r => (1, r)
  | .p r => (2, r)
  | .v r => (3, r)
  | .m r => (4, r)

/-- The pending results that the latest producer of their register gives: a later producer supersedes an earlier one (R43). -/
def latestPending : List Pend → List Pend
  | [] => []
  | e :: t => if t.any (fun x => x.w.reg = e.w.reg) then latestPending t else e :: latestPending t

/-- The early reads of a settled thread: the nominal cycles missing, with the register (R45). -/
def Thread.early (t : Thread) (reads : List Reg) : List (Nat × Nat × Nat) :=
  (latestPending t.pend).filterMap fun e =>
    match e.due with
    | some d => if reads.contains e.w.reg then some (d - t.nt, e.w.reg.key) else none
    | none => none

/-- The TVAL of trap 0x03 (R45): greatest SHORT, then lowest FILE, then lowest NUM; none where no read is early. -/
def earlyTval (l : List (Nat × Nat × Nat)) : Option Word :=
  let better := fun (a b : Nat × Nat × Nat) =>
    a.1 > b.1 || (a.1 = b.1 && (a.2.1 < b.2.1 || (a.2.1 = b.2.1 && a.2.2 < b.2.2)))
  match l with
  | [] => none
  | e :: t =>
    let w := t.foldl (fun a b => if better b a then b else a) e
    some (BitVec.ofNat 64 (w.1 * 2 ^ 16 + w.2.1 * 2 ^ 8 + w.2.2))

/-! ## System-register fields (R117, R121, R124, R353) -/

def Thread.sup (t : Thread) : Bool := bitW 2 t.tctl
def Thread.bpen (t : Thread) : Bool := bitW 1 t.tctl
def Thread.scbchk (t : Thread) : Bool := bitW 0 t.tctl
def Thread.intrap (t : Thread) : Bool := bitW 63 t.tcause
def Thread.pc (t : Thread) : Nat := capOff t.pcc

/-- RASD as it reads (R117). -/
def Thread.rasd (t : Thread) : Word := BitVec.ofNat 64 (t.ovr % 2 ^ 24 * 2 ^ 24 + t.area % 2 ^ 16 * 2 ^ 8 + t.ras.length)

/-- The thread runs handler code: a firing of a message or record actor (R159). -/
def Thread.handler (t : Thread) : Bool :=
  match t.firing with
  | some f => f.kind ≥ 2
  | none => false

/-! ## The current context -/

def Cur.tid (c : Cur) : Nat := tidOf c.core c.ctx

/-- The thread that executes. -/
def State.th (s : State) : Thread := s.thread s.cur.tid

def State.setTh (s : State) (t : Thread) : State := s.setThread s.cur.tid t

/-- The core whose queues, slice and member index a thread uses: its original core when it was shipped (R243). -/
def Thread.homeCore (t : Thread) (core : Nat) : Nat :=
  match t.firing with
  | some f => (f.home.map (· / 8)).getD core
  | none => core

def Thread.launchId (t : Thread) : Nat := (t.firing.map (·.launch)).getD 0
def Thread.teamNo (t : Thread) : Nat := (t.firing.map (·.team)).getD 0

/-- The accessor that the executing thread is. -/
def State.acc (s : State) : Acc :=
  { core := s.cur.core, launch := s.th.launchId, win := s.teamWin s.th.launchId s.th.teamNo }

/-- The origin of a command that the executing thread pushes: the core and the context that it runs on (R243, R284, log 73). -/
def State.origin (s : State) : Origin :=
  { tid := s.cur.tid, core := s.cur.core, firing := (s.th.firing.map (·.id)).getD 0,
    launch := s.th.launchId, team := s.th.teamNo, workid := s.th.workid }

/-- The resident team of the executing thread's firing. -/
def State.myTeam (s : State) : Option Team := s.team? s.th.launchId s.th.teamNo

/-! ## Stops -/

/-- Why a bundle does not go on to the next one. -/
inductive Stop where
  /-- a synchronous trap at this bundle (R355) -/
  | trap (cause : Nat) (tval : Word)
  /-- a synchronous trap whose TVAL is a whole word, or has a field in bits 57 and 56, which the map of R89 reserves (R280) -/
  | trapWhole (cause : Nat) (tval : Word)
  /-- the traps of TRAP and BRK, whose TEPC names the next bundle (R358) -/
  | trapNext (cause : Nat) (tval : Word)
  /-- the bundle parks (R158) -/
  | park (why : ParkWhy)
  /-- an absent page (R240) -/
  | absent (obj page rights : Nat) (tval : Word)
  /-- the thread ships to a port cluster (R241) -/
  | ship (die mod : Nat)
  /-- the bundle waits in real time and issues again (R277) -/
  | wait
  deriving DecidableEq, Repr

/-- A computation of the executing thread: it reads and changes State, or stops. What it changed before a stop is the
state of the device's caches and engines; no body writes a register before its last stop (R33). -/
abbrev M (α : Type) := EStateM Stop State α

def stop {α : Type} (e : Stop) : M α := throw e
def trap {α : Type} (cause : Nat) (tval : Word) : M α := throw (.trap cause tval)
def trapWhole {α : Type} (cause : Nat) (tval : Word) : M α := throw (.trapWhole cause tval)
def getTh : M Thread := do return (← get).th
def modTh (f : Thread → Thread) : M Unit := modify fun s => s.setTh (f s.th)

/-- A function of the state that also changes it. -/
def runS {α : Type} (f : State → α × State) : M α := fun s =>
  match f s with
  | (a, s) => .ok a s

/-- A result of class L (R43). -/
def writeL (lat : Nat) (w : RegWrite) : M Unit := modTh fun t => t.post w (some (t.nt + lat))

/-- An interlocked result (R44). -/
def writeI (w : RegWrite) : M Unit := modTh fun t => t.post w none

/-- The result of an access of R372. -/
def writeNow (w : RegWrite) : M Unit := modTh fun t => t.now w

/-! ## Repeats (R120, R121) -/

/-- LPST after a bundle that completes with ACT = 1 and HOLD = 0, and whether the next bundle is the one at LPSA. -/
def loopStep (lpst : Word) : Word × Bool :=
  if !(bitW 63 lpst) || bitW 61 lpst then (lpst, false)
  else
    let idx := fieldW 52 46 lpst + 1
    if idx ≠ fieldW 59 53 lpst then (putField 52 46 lpst idx, false)
    else
      let l := putField 52 46 lpst 0
      if bitW 60 lpst then (l, true)
      else if fieldW 31 0 lpst > 0 then (putField 31 0 l (fieldW 31 0 lpst - 1), true)
      else (putField 63 63 l 0, false)

/-- LPST after a bundle that transferred control. -/
def loopLeave (lpst : Word) : Word := if bitW 63 lpst && !(bitW 61 lpst) then putField 63 63 lpst 0 else lpst

/-! ## Going on (R42) -/

/-- Nominal time moves past the bundle. -/
def Thread.tick (t : Thread) (c : Cur) : Thread :=
  { t with nt := t.nt + 1 + c.stall, noBreak := false, atHome := false, bundles := t.bundles + 1 }

/-- A macro in progress goes on to its next entry. -/
def Thread.nextMicro (t : Thread) : Thread := { t with run := t.run.map fun (r : MacroRun) => { r with idx := r.idx + 1 } }

/-- The thread after a bundle that does not transfer control. A micro-operation leaves the MCALL's address in PCC. -/
def Thread.step (t : Thread) (c : Cur) : Thread :=
  let t := t.tick c
  if c.micro then t.nextMicro
  else
    let (l, back) := loopStep t.lpst
    { t with lpst := l, pcc := capSetOff t.pcc (if back then fieldW 55 0 t.lpsa else t.pc + 2 * c.words) }

/-- The thread after a bundle that continues at a code capability. -/
def Thread.goto (t : Thread) (c : Cur) (pcc : Cap) : Thread :=
  let t := t.tick c
  { t with lpst := loopLeave t.lpst, pcc := pcc }

/-- The executing thread goes on to the next bundle. -/
def advance : M Unit := modify fun s => s.setTh (s.th.step s.cur)

/-- The executing thread continues at a capability. -/
def jump (pcc : Cap) : M Unit := modify fun s => s.setTh (s.th.goto s.cur pcc)

/-! ## Traps (R355) -/

/-- The trap handler's offset in CODE, none where the launch names none. -/
def State.trapVector (s : State) (launch : Nat) : Option Cap :=
  match s.launch? launch with
  | some l => if l.spec.trap = 0xFFFFFFFF then none else some (capSetOff l.spec.code l.spec.trap.toNat)
  | none => none

/-- A trap that nothing handles ends the firing, with a notice of kind 33 (R355, R356). -/
def State.unhandled (s : State) (t cause tepc : Nat) (tval : Word) : State :=
  let th := s.thread t
  let launch := th.launchId
  let core := t / 8
  let n : Note :=
    { core := th.homeCore core, launch := some launch, team := th.teamNo, record := false, org := none, actor := none,
      workid := th.workid,
      words := [BitVec.ofNat 64 (33 + core * 2 ^ 16 + t % 8 * 2 ^ 32),
        BitVec.ofNat 64 (cause + (if th.intrap then 2 ^ 63 else 0)), BitVec.ofNat 64 tepc, tval, th.workid] }
  let s := s.endFiring t
  let s :=
    match s.launch? launch with
    | some l => s.setLaunch { l with traps := l.traps + 1 }
    | none => s
  s.post n

/-- MCX when a macro is interrupted at an entry (R124). -/
def mcxAt (r : MacroRun) : Word := BitVec.ofNat 64 (2 ^ 12 + r.idx % 32 * 2 ^ 7 + r.num % 128)

/-- Nominal time moves past a bundle that traps, by its own stall count (R42, log 10), and it counts among the bundles since the last access to
the second tier (R243). `whole`: bits 57 and 56 of the trap's TVAL belong to a field (R11, R280). -/
def Thread.passed (t : Thread) (c : Cur) (whole : Bool := false) : Thread :=
  { t with nt := t.nt + 1 + c.stall, bundles := t.bundles + 1, tvalWhole := whole }

/-- A synchronous trap of a context with cause, TEPC and TVAL (R355): the trap registers are written, TPCC saves PCC, HOLD
is set, and the handler starts; with INTRAP set, or with no handler, the firing ends. A macro in progress is recorded in
MCX (R119, R124). -/
def State.takeTrap (s : State) (t cause tepc : Nat) (tval : Word) : State :=
  let th := s.thread t
  match s.trapVector th.launchId with
  | some v =>
    if th.intrap then s.unhandled t cause tepc tval
    else
      s.setThread t
        { th with
          tcause := BitVec.ofNat 64 (2 ^ 63 + cause)
          tepc := BitVec.ofNat 64 (tepc % 2 ^ 56)
          tval := tval
          tpcc := th.pcc
          lpst := putField 61 61 th.lpst 1
          mcx := (th.run.map mcxAt).getD th.mcx
          run := none
          status := .running
          noBreak := false
          atHome := false
          pcc := v }
  | none => s.unhandled t cause tepc tval

/-- The return from a trap (R358): PCC := TPCC with OFFSET := TEPC.OFFS, INTRAP and HOLD cleared, and one breakpoint match
suppressed (R359). -/
def Thread.eret (t : Thread) (c : Cur) : Thread :=
  { t with
    nt := t.nt + 1 + c.stall
    bundles := t.bundles + 1
    pcc := capSetOff t.tpcc (fieldW 55 0 t.tepc)
    tcause := putField 63 63 t.tcause 0
    lpst := putField 61 61 t.lpst 0
    run := none
    noBreak := true
    atHome := false }

/-! ## Stores (R125, R188, R189) -/

/-- The oldest queued store of a context is performed at its home. -/
def State.applyStore (s : State) (t : Nat) : State :=
  let th := s.thread t
  match th.stores with
  | [] => s
  | r :: rest =>
    let s := s.setThread t { th with stores := rest }
    let (a, s) := s.reach (t / 8) r.addr
    let s := s.homeWrite (t / 8) a r.bytes
    let s := if r.tag then s.setTag a else s
    if r.mig then s.countAccess (t / 8) (frameOf a) r.obj r.page r.perm else s

/-- Every queued store of a context is performed, in order. -/
def State.drain (s : State) (t : Nat) : State := (s.thread t).stores.foldl (fun s _ => s.applyStore t) s

/-- The executing thread waits until its earlier stores are performed. -/
def drainMine : M Unit := modify fun s => s.drain s.cur.tid

/-! ## Accesses (R88, R185, R238, R372) -/

/-- What the TVAL of an access names: SRC and CREG of R89. -/
structure Src where
  src  : Nat
  creg : Nat
  deriving DecidableEq, Repr

/-- The checks of R88 in the core. -/
def checkCap (w : Src) (c : Cap) (need : Nat) (ea : Int) (n align : Nat) : M Unit :=
  match capCheck c need ea n align with
  | some (cause, offs) => trap cause (tvalCap w.src w.creg offs)
  | none => pure ()

/-- The module core numbers of the arcade of a launch and team. -/
def State.arcadeHas (s : State) (launch team core : Nat) : Bool :=
  let (d, w) := s.teamWin launch team
  let cl := s.windowClusters d w
  cl.contains (coreCluster core) && (core % 16 < 8 || memberCount cl ≠ 8)

/-- The two checks of R185 refuse an access through a capability to a home: the slice of a core of another module, which is no member of the
arcade, or of another core of this one. DESIGN CHOICE: the home is the one that the translation gives which decides the access, after the walk
of R239 where there is one; an access without a home is decided by R238 and R240 alone (log 94). -/
def State.farRefused (s : State) (c : Cap) (a : Nat) : Bool :=
  if isForeign a then isSlice (a % foreignBase)
  else
  isSlice a && sliceCore a ≠ s.th.homeCore s.cur.core &&
    (missing rG (capRights c) ≠ 0 || !s.arcadeHas s.th.launchId s.th.teamNo (sliceCore a))

/-- The thread runs on core 8 to 15 of the port cluster of a die, where shipped threads run, so that an access to that die's second
tier is made from there (R241). -/
def atPort (core die : Nat) : Bool := coreDie core = die && core % 1024 / 16 = 63 && core % 16 ≥ 8

/-- An absent page, met by a thread: handler code traps, other code parks absent (R240). -/
def meetAbsent {α : Type} (w : Src) (obj off need : Nat) : M α := do
  let t ← getTh
  let tv := tvalCap w.src w.creg off
  if t.handler then trap 0x08 tv else stop (.absent obj (off / 65536) need tv)

/-- The checks of R185 alone: they stand in the core, before the access leaves it. -/
def checkFar (w : Src) (c : Cap) (off perm : Nat) : M Unit := do
  match (← runS fun s => s.translate s.cur.core (capObj c) off perm) with
  | .home a _ | .noPerm _ a => if (← get).farRefused c a then trap 0x06 (tvalCap w.src w.creg rG) else pure ()
  | .bad | .absent => pure ()

/-- The translation of a thread's access of n bytes at an offset (R237 to R241), the arcade checks of R185 where `plain`
is set, and the refusals of R186 and R347 at the home. `perm` is the PERM that the access needs. -/
def locate (w : Src) (plain : Bool) (c : Cap) (off n perm : Nat) : M (Nat × TlbEntry) := do
  let obj := capObj c
  match ← runS fun s => s.translate s.cur.core obj off perm with
  | .bad => trap 0x08 (tvalCap w.src w.creg off)
  | .absent => meetAbsent w obj off perm
  | .noPerm lack a =>
    let s ← get
    trap 0x06 (tvalCap w.src w.creg (if plain && s.farRefused c a then rG else lack))
  | .home a e =>
    let s ← get
    let t := s.th
    if e.loc = 2 && e.ship && !t.atHome && !(e.mod = s.here && atPort s.cur.core e.home) then stop (.ship e.home e.mod)
    else
      if e.loc = 2 then modTh fun t => { t with bundles := 0 }
      if plain && s.farRefused c a then trap 0x06 (tvalCap w.src w.creg rG)
      else if s.withheld t.launchId (s.acc.win) obj a n then trap 0x06 (tvalCap w.src w.creg rG)
      else if s.portDown a then trap 0x0F (tvalCap w.src w.creg off)
      else
        let a ← runS fun s => s.reach s.cur.core a
        return (a, e)

/-- A byte of the thread's own queued stores, the latest one to that address (R125). -/
def ownByte (l : List StoreReq) (a : Nat) : Option Byte :=
  l.foldl (fun o r => if r.addr ≤ a && a < r.addr + r.bytes.length then r.bytes[a - r.addr]? else o) none

/-- Bytes overlaid with the thread's own queued stores. -/
def overlay (l : List StoreReq) (a : Nat) : List Byte → List Byte
  | [] => []
  | b :: t => (ownByte l a).getD b :: overlay l (a + 1) t

/-- One of a thread's own queued stores covers a granule whole, and so clears its poison (R363). -/
def coveredBy (l : List StoreReq) (g n : Nat) : Bool := l.any fun r => r.addr ≤ g && g + n ≤ r.addr + r.bytes.length

/-- Some byte of a range is poisoned, as the thread's own queued stores leave it (R125, R363). -/
def State.poisonedPast (s : State) (own : List StoreReq) (a n : Nat) : Bool :=
  s.portDown a || (s.poison.any fun g => g < a + n && a < g + poisonSize g && !coveredBy own g (poisonSize g)) ||
    s.bufPoison.any fun g => g < a + n && a < g + 8 && !coveredBy own g 8

/-- The tag of a granule as the thread's own queued stores leave it; a home without tags holds none (R87). -/
def ownTag (l : List StoreReq) (a : Nat) (old : Bool) : Bool :=
  l.foldl (fun o r => if r.addr < a + 16 && a < r.addr + r.bytes.length then r.tag && hasTags (a % foreignBase) else o) old

/-- The executing thread's access through an entry counts at its home, where R245 counts it. -/
def State.countLoad (s : State) (off a : Nat) (e : TlbEntry) : State :=
  if e.counts a then s.countAccess s.cur.core (frameOf a) e.obj (off / 65536) e.perm else s

/-- The answer of a home to a load of n bytes (R372): the value, or trap 0x0F. The access counts at the home either way (R245). -/
def readHome (w : Src) (off a n : Nat) (e : TlbEntry) : M (List Byte) := do
  let s ← get
  let own := s.th.stores
  if s.poisonedPast own a n then
    modify fun s => s.countLoad off a e
    trap 0x0F (tvalCap w.src w.creg off)
  else
    let b ← runS fun s => s.homeRead s.cur.core a n
    modify fun s => s.countLoad off a e
    return overlay own a b

/-- A load of n aligned bytes through a capability, after its checks: R88, translation, R185, the home. -/
def loadBytes (w : Src) (c : Cap) (need : Nat) (ea : Int) (n align : Nat) : M (List Byte) := do
  checkCap w c need ea n align
  let (a, e) ← locate w true c ea.toNat n rR
  readHome w ea.toNat a n e

/-- A store is issued: it joins the thread's stores in program order (R189). -/
def issueStore (a : Nat) (bs : List Byte) (tag : Bool) (e : TlbEntry) (page : Nat) : M Unit :=
  modTh fun t =>
    { t with
      stores := t.stores ++
        [{ addr := a, bytes := bs, tag := tag, firing := (t.firing.map (·.id)).getD 0, obj := e.obj, page := page,
           mig := e.counts a, perm := e.perm }] }

/-- A store of bytes through a capability, after its checks. -/
def storeBytes (w : Src) (c : Cap) (need : Nat) (ea : Int) (bs : List Byte) (align : Nat) (tag : Bool) : M Unit := do
  checkCap w c need ea bs.length align
  let (a, e) ← locate w true c ea.toNat bs.length rW
  issueStore a bs tag e (ea.toNat / 65536)

/-- A thread's load of a range of any length, in pieces within pages, as the engines' entries call for it ("read as loads
of the thread"). -/
def loadRange (w : Src) (c : Cap) (off : Nat) : Nat → Nat → M (List Byte)
  | 0, _ => pure []
  | f + 1, n =>
    if n = 0 then pure []
    else do
      let k := min n (65536 - off % 65536)
      let (a, e) ← locate w false c off k rR
      let b ← readHome w off a k e
      let t ← loadRange w c (off + k) f (n - k)
      return b ++ t

/-- A thread's store of a range of any length, in pieces within pages. -/
def storeRange (w : Src) (c : Cap) (off : Nat) : Nat → List Byte → M Unit
  | 0, _ => pure ()
  | f + 1, bs =>
    if bs = [] then pure ()
    else do
      let k := min bs.length (65536 - off % 65536)
      let (a, e) ← locate w false c off k rW
      issueStore a (bs.take k) false e (off / 65536)
      storeRange w c (off + k) f (bs.drop k)

/-! ## Parking, absence and shipping (R158, R240, R241) -/

/-- A context parks. -/
def State.park (s : State) (t : Nat) (why : ParkWhy) : State :=
  let s := s.setThread t { s.thread t with status := .parked ⟨why, s.cur.since.getD s.serial, s.cur, none⟩ }
  { s with serial := s.serial + 1 }

/-- A context parks absent (R240): the trap registers record the access unless a trap is being handled; a second walk that
finds the page wakes it at once, else the supervisor's page actor is told. -/
def State.parkAbsent (s : State) (t obj page rights : Nat) (tval : Word) : State :=
  let th := s.thread t
  let th' :=
    if th.intrap then th
    else { th with tcause := putField 7 0 th.tcause 0x08, tepc := BitVec.ofNat 64 th.pc, tval := tval, tvalWhole := false }
  let s := s.setThread t th'
  match s.walk (t / 8) obj page with
  | (.absent, s) =>
    let s := s.park t (.absent obj page rights tval)
    let core := t / 8
    s.post (supNote (coreDie core) (fieldW 11 6 (s.die (coreDie core)).supact) th.workid
      [1, BitVec.ofNat 64 obj, BitVec.ofNat 64 page, BitVec.ofNat 64 t, BitVec.ofNat 64 rights])
  | (_, s) => s

/-- The waiting records of a port cluster, by die. -/
def State.shipQueue (s : State) (die : Nat) : List Nat := smGet [] s.shipq die

/-- The context after its thread has left it. -/
def Thread.vacate (t : Thread) : Thread :=
  { t with status := .free, firing := none, pend := [], held := [], traps := [], cut := none, wg := [], run := none, noBreak := false, atHome := false }

/-- A thread that runs in another context comes back to its own, with a new state there (R241, R243): its interlocked
results arrive and its stores are performed first; what was delivered at home meanwhile is kept, and a macro in progress is recorded
in MCX (R124). A thread that goes on there executes its next bundle at home, whatever pages it names (log 73). -/
def State.bringHome (s : State) (tid at_ : Nat) (st : CtxState) : State :=
  let s := s.drain at_
  let far := s.thread at_
  let far := far.settle (far.pend.map (·.w.reg))
  let own := s.thread tid
  let th :=
    { far with
      status := st
      firing := far.firing.map fun (f : Firing) => { f with home := none }
      held := far.held ++ own.held
      traps := own.traps ++ far.traps
      stores := own.stores
      mcx := (far.run.map mcxAt).getD far.mcx
      atHome := decide (st = .running)
      bundles := 0 }
  (s.setThread tid th).setThread at_ { far.vacate with stores := [] }

/-- The context that holds a thread's place: its original one, where it runs in another (R241). -/
def Thread.place (t : Thread) (tid : Nat) : Nat := (t.firing.bind (·.home)).getD tid

/-- A thread leaves the context in which it runs. A thread that runs in another context than its own leaves that one free, and its
record is held with its own, which stays travelling (R241). -/
def State.leaveFor (s : State) (t : Nat) (st : CtxState) : State :=
  let h := (s.thread t).place t
  if h = t then s.setThread t { s.thread t with status := st } else s.bringHome h t st

/-- The record of a thread joins the waiting records of a port cluster (R241). -/
def State.joinShip (s : State) (t die : Nat) : State :=
  let h := (s.thread t).place t
  let s := s.leaveFor t .travelQueued
  { s with shipq := smPut s.shipq die (s.shipQueue die ++ [h]) }

/-- A thread leaves for the port cluster of a die (R241): its interlocked results arrive, its stores are performed, and its
record joins the cluster's queue of 64; a full queue leaves the thread parked. A thread bound for another module leaves
this one (log 9), its record of at most 2 KiB as a request to that port cluster (R210). -/
def State.shipOff (s : State) (t die mod : Nat) : State :=
  let s := s.drain t
  let th := s.thread t
  let th := th.settle (th.pend.map (·.w.reg))
  if mod ≠ s.here then
    let (k, s) := s.freeBytes 2
    let s := s.sendFree (t / 8) (foreignBase * (mod + 1) + sliceAddr (portCore die) 0) (1 + leNat k % 2048)
    (s.setThread t th).leaveFor t (.travelAbroad mod die)
  else if (s.shipQueue die).length < 64 then (s.setThread t th).joinShip t die
  else (s.setThread t th).park t (.ship die mod)

/-- What a stop of the executing bundle makes of the state. In a macro TEPC names the MCALL (R119). A bundle that traps or parks keeps its address; a trap moves
nominal time past it by the bundle's own stall count (R42, log 10), and it counts among the bundles since the last access to the second tier
(R243). -/
def State.stopped (s : State) (e : Stop) : State :=
  let t := s.cur.tid
  let th := s.th
  match e with
  | .trap cause tval => (s.setTh (th.passed s.cur)).takeTrap t cause th.pc tval
  | .trapWhole cause tval => (s.setTh (th.passed s.cur true)).takeTrap t cause th.pc tval
  | .trapNext cause tval =>
    (s.setTh (th.passed s.cur)).takeTrap t cause (if s.cur.micro then th.pc else th.pc + 2 * s.cur.words) tval
  | .park why => s.park t why
  | .absent obj page rights tval => s.parkAbsent t obj page rights tval
  | .ship die mod => s.shipOff t die mod
  | .wait => s

/-- A meaning: the body runs, and a stop is resolved. -/
def run (body : M Unit) (s : State) : Host.Outcome State Fault Refusal :=
  match body s with
  | .ok _ s => .next s
  | .error e s => .next (s.stopped e)

/-- An event of the device: a function of the state. -/
def event (f : State → State) (s : State) : Host.Outcome State Fault Refusal := .next (f s)

/-- Trap 0x0A, in handler code (R159). -/
def notInHandler : M Unit := do
  let s ← get
  if s.th.handler then trap 0x0A (BitVec.ofNat 64 s.cur.base.toNat) else pure ()

/-- A bundle that parks, or in handler code takes trap 0x0A (R158, R159). -/
def parkOr {α : Type} (why : ParkWhy) : M α := do
  let s ← get
  if s.th.handler then trap 0x0A (BitVec.ofNat 64 s.cur.base.toNat) else stop (.park why)

end Sys2Proof.Machine
end

