-- ==== Sys2Proof/Machine/Operands.lean ====
section
/-!
DEFINITION. Operand forms: the sources of R90, the memory operand of R104 with its access sizes (R50, R84), element codes
as formats and widths (R48), and the registers that each instruction reads (R43 to R45).
-/

namespace Sys2Proof.Machine

/-- The second source of a form-Ai instruction (R90). -/
def opdVal (t : Thread) : Opd → Word
  | .imm v => v
  | .reg r => t.rg r

/-- The exact offset of a memory operand (R104): OFFSET plus the immediate or the signed register. -/
def memOff (t : Thread) (a : MemOp) : Int := (capOff (t.rc a.base) : Int) + sgn (opdVal t a.off)

/-- The bytes of a size code (R50). -/
def sizeBytes : Size → Nat
  | .b => 1
  | .h => 2
  | .w => 4
  | .d => 8

/-- The size of an access: the size code's, or the capability's natural size (R104). -/
def accSize (sz : Option Size) (c : Cap) : Nat :=
  match sz with
  | some z => sizeBytes z
  | none => capSize c

/-- What R89 names for an operand in a c register. -/
def creg (r : CReg) : Src := ⟨1, r.val⟩

/-- The block format of an element code, if it is one (R18, R20). -/
def blockFmt : Elem → Option BFmt
  | .mxe4m3 => some .e4
  | .mxe5m2 => some .e5
  | .mxe2m1 => some .e2
  | .e2m1x => some .e2x
  | .i8 | .i16 | .i32 | .i64 | .fp16 | .bf16 | .fp32 | .e4m3 | .e5m2 | .pt => none

/-- The element code of a format code of a capability (R48, R84); none for bytes and for the codes that are no element. -/
def fmtElem (f : Nat) : Option Elem :=
  match f with
  | 1 => some .i8
  | 2 => some .i16
  | 3 => some .i32
  | 4 => some .i64
  | 5 => some .fp16
  | 6 => some .bf16
  | 7 => some .fp32
  | 9 => some .e4m3
  | 10 => some .e5m2
  | 11 => some .mxe4m3
  | 12 => some .mxe5m2
  | 13 => some .mxe2m1
  | 14 => some .e2m1x
  | 15 => some .pt
  | _ => none

/-- The bytes of one element, or of one block of a block format (R13, R14, R16, R18, R20). -/
def elemBytes : Elem → Nat
  | .i8 | .e4m3 | .e5m2 => 1
  | .i16 | .fp16 | .bf16 => 2
  | .i32 | .fp32 => 4
  | .i64 | .pt => 8
  | .mxe4m3 | .mxe5m2 => 33
  | .mxe2m1 => 17
  | .e2m1x => 18

/-- The exact value of a scalar element's code. -/
def elemVal (e : Elem) (code : Nat) : FVal :=
  if elemIsInt e then .ofInt (signedNat (intWidth e) code) else (elemFmt e).decode code

/-! ## Registers read -/

/-- The registers of an operand. -/
def opdReads : Opd → List Reg
  | .imm _ => []
  | .reg r => [.g r]

def vopdReads : VOpd → List Reg
  | .imm _ => []
  | .reg r => [.v r]

def memReads (a : MemOp) : List Reg := .c a.base :: opdReads a.off

/-- A governed destination is read where masked-off lanes keep their old value (R131). -/
def vmReads (d : VReg) (vm : VM) : List Reg :=
  if vm.mask = 0 then [] else if vm.zero then [.m vm.mask] else [.m vm.mask, .v d]

/-- The same where the treatment of masked-off lanes is fixed. -/
def maskReads (m : MReg) : List Reg := if m = 0 then [] else [.m m]

/-- n consecutive g registers. -/
def gRun (r : GReg) (n : Nat) : List Reg := (List.range n).map fun i => .g (Fin.ofNat 32 (r.val + i))

/-- The registers of a mask operation's sources (R140). -/
def maskOpReads : MaskOp → List Reg
  | .mov _ b => [.m b]
  | .and _ x y => [.m x, .m y]
  | .or _ x y => [.m x, .m y]
  | .xor _ x y => [.m x, .m y]
  | .andn _ x y => [.m x, .m y]
  | .not _ b => [.m b]
  | .fromG _ b => [.g b]
  | .toG _ b => [.m b]
  | .first _ b => [.m b]

end Sys2Proof.Machine
end

