-- ==== Sys2Proof/Machine/Integer.lean ====
section
/-!
DEFINITION. Integer and bit instructions, compares and selection (spec/07_one_thread.md R92 to R103): the pure functions,
then one meaning for each instruction.
-/

namespace Sys2Proof.Machine

/-- The state after a bundle that reads the thread, produces results with latency `lat` (none: interlocked) and goes on. -/
def State.retire (s : State) (lat : Option Nat) (ws : List RegWrite) : State :=
  s.setTh ((ws.foldl (fun t w => t.post w (lat.map (s.th.nt + ·))) s.th).step s.cur)

/-- A bundle that cannot stop: its results, computed from the thread, are produced with latency `lat`. -/
def produce (lat : Option Nat) (f : Thread → List RegWrite) (s : State) : Host.Outcome State Fault Refusal :=
  .next (s.retire lat (f s.th))

/-! ## Pure functions -/

/-- The wrapped 64-bit word of an exact integer (R13). -/
def wordOf (z : Int) : Word := BitVec.ofInt 64 z

/-- The high 64 bits of a product (R94). -/
def mulHigh (u : Bool) (x y : Word) : Word :=
  if u then BitVec.ofNat 64 (x.toNat * y.toNat / 2 ^ 64) else wordOf (x.toInt * y.toInt / (2 ^ 64 : Nat))

/-- The quotient rounded toward zero, with the corners of R95. -/
def divide (u : Bool) (x y : Word) : Word :=
  if y = 0 then BitVec.ofNat 64 (2 ^ 64 - 1)
  else if u then BitVec.ofNat 64 (x.toNat / y.toNat)
  else wordOf (Int.tdiv x.toInt y.toInt)

/-- The remainder, which takes the sign of x (R95). -/
def remainder (u : Bool) (x y : Word) : Word :=
  if y = 0 then x
  else if u then BitVec.ofNat 64 (x.toNat % y.toNat)
  else wordOf (Int.tmod x.toInt y.toInt)

/-- The smaller and the larger of two words (R94). -/
def minW (u : Bool) (x y : Word) : Word :=
  if u then (if x.toNat ≤ y.toNat then x else y) else (if x.toInt ≤ y.toInt then x else y)

def maxW (u : Bool) (x y : Word) : Word :=
  if u then (if x.toNat ≤ y.toNat then y else x) else (if x.toInt ≤ y.toInt then y else x)

/-- The shift amount of R96. -/
def shiftAmt (y : Word) : Nat := y.toNat % 64

/-- Leading zero bits of a number of width w (R97). -/
def clzN (w n : Nat) : Nat := if n = 0 then w else w - 1 - n.log2

/-- Trailing zero bits (R97). -/
def ctzN (w n : Nat) : Nat := ((List.range w).find? fun i => n.testBit i).getD w

/-- Set bits (R97). -/
def popN (w n : Nat) : Nat := ((List.range w).filter fun i => n.testBit i).length

/-- The interleave of R98 with stride s. -/
def interleave (s : Nat) (x y : Word) : Word :=
  (List.range 64).foldl
    (fun r i => if s * i ≤ 63 && x.getLsbD i then r ||| ((1 : Word) <<< (s * i)) else r) (y <<< 1)

/-- One lane of an interleaved word (R98). -/
def deinterleave (s : Nat) (x y : Word) : Word :=
  let j := y.toNat % 4
  if j < s then
    (List.range 64).foldl
      (fun r i => if s * i + j ≤ 63 && x.getLsbD (s * i + j) then r ||| ((1 : Word) <<< i) else r) 0
  else 0

/-- lsb and width of a field specification (R99). -/
def fieldSpec (y : Word) : Nat × Nat :=
  let lsb := y.toNat % 64
  let w := y.toNat / 64 % 128
  (lsb, if w = 0 || lsb + w > 64 then 64 - lsb else w)

/-- The field extracted, zero-extended (R99). -/
def fieldExtract (x y : Word) : Word :=
  let (lsb, w) := fieldSpec y
  BitVec.ofNat 64 (x.toNat / 2 ^ lsb % 2 ^ w)

/-- The old word with the field replaced (R99). -/
def fieldInsert (old x y : Word) : Word :=
  let (lsb, w) := fieldSpec y
  let o := old.toNat
  BitVec.ofNat 64 (o - o / 2 ^ lsb % 2 ^ w * 2 ^ lsb + x.toNat % 2 ^ w * 2 ^ lsb)

/-- The low bits of a word, sign- or zero-extended (R100). -/
def signExt (z : Size) (x : Word) : Word := wordOf (signedNat (8 * sizeBytes z) x.toNat)
def zeroExt (z : Size) (x : Word) : Word := BitVec.ofNat 64 (x.toNat % 2 ^ (8 * sizeBytes z))

/-! ## Meanings -/

/-- NOP (R92). -/
def execNop : State → Host.Outcome State Fault Refusal := produce (some 1) fun _ => []

/-- MOV (R93). -/
def execMov (d s : GReg) : State → Host.Outcome State Fault Refusal := produce (some 1) fun t => [.g d (t.rg s)]

/-- MOV between c registers (R93). -/
def execMovCap (d s : CReg) : State → Host.Outcome State Fault Refusal := produce (some 1) fun t => [.c d (t.rc s)]

/-- MOVI (R93). -/
def execMovi (d : GReg) (v : Word) : State → Host.Outcome State Fault Refusal := produce (some 1) fun _ => [.g d v]

/-- ADDI (R93). -/
def execAddi (d x : GReg) (v : Word) : State → Host.Outcome State Fault Refusal :=
  produce (some 1) fun t => [.g d (t.rg x + v)]

/-- ADD (R94). -/
def execAdd (d x y : GReg) : State → Host.Outcome State Fault Refusal :=
  produce (some 1) fun t => [.g d (t.rg x + t.rg y)]

/-- SUB (R94). -/
def execSub (d x y : GReg) : State → Host.Outcome State Fault Refusal :=
  produce (some 1) fun t => [.g d (t.rg x - t.rg y)]

/-- AND (R94). -/
def execAnd (d x y : GReg) : State → Host.Outcome State Fault Refusal :=
  produce (some 1) fun t => [.g d (t.rg x &&& t.rg y)]

/-- OR (R94). -/
def execOr (d x y : GReg) : State → Host.Outcome State Fault Refusal :=
  produce (some 1) fun t => [.g d (t.rg x ||| t.rg y)]

/-- XOR (R94). -/
def execXor (d x y : GReg) : State → Host.Outcome State Fault Refusal :=
  produce (some 1) fun t => [.g d (t.rg x ^^^ t.rg y)]

/-- SHL (R96). -/
def execShl (d x : GReg) (y : Opd) : State → Host.Outcome State Fault Refusal :=
  produce (some 2) fun t => [.g d (t.rg x <<< shiftAmt (opdVal t y))]

/-- SHR (R96). -/
def execShr (d x : GReg) (y : Opd) : State → Host.Outcome State Fault Refusal :=
  produce (some 2) fun t => [.g d (t.rg x >>> shiftAmt (opdVal t y))]

/-- SAR (R96). -/
def execSar (d x : GReg) (y : Opd) : State → Host.Outcome State Fault Refusal :=
  produce (some 2) fun t => [.g d ((t.rg x).sshiftRight (shiftAmt (opdVal t y)))]

/-- MUL (R94). -/
def execMul (d x y : GReg) : State → Host.Outcome State Fault Refusal :=
  produce (some 4) fun t => [.g d (t.rg x * t.rg y)]

/-- MULH (R94). -/
def execMulh (u : Bool) (d x y : GReg) : State → Host.Outcome State Fault Refusal :=
  produce (some 4) fun t => [.g d (mulHigh u (t.rg x) (t.rg y))]

/-- DIV (R95), interlocked. -/
def execDiv (u : Bool) (d x y : GReg) : State → Host.Outcome State Fault Refusal :=
  produce none fun t => [.g d (divide u (t.rg x) (t.rg y))]

/-- REM (R95), interlocked. -/
def execRem (u : Bool) (d x y : GReg) : State → Host.Outcome State Fault Refusal :=
  produce none fun t => [.g d (remainder u (t.rg x) (t.rg y))]

/-- MIN (R94). -/
def execMin (u : Bool) (d x y : GReg) : State → Host.Outcome State Fault Refusal :=
  produce (some 1) fun t => [.g d (minW u (t.rg x) (t.rg y))]

/-- MAX (R94). -/
def execMax (u : Bool) (d x y : GReg) : State → Host.Outcome State Fault Refusal :=
  produce (some 1) fun t => [.g d (maxW u (t.rg x) (t.rg y))]

/-- CLZ (R97). -/
def execClz (d s : GReg) : State → Host.Outcome State Fault Refusal :=
  produce (some 2) fun t => [.g d (BitVec.ofNat 64 (clzN 64 (t.rg s).toNat))]

/-- CTZ (R97). -/
def execCtz (d s : GReg) : State → Host.Outcome State Fault Refusal :=
  produce (some 2) fun t => [.g d (BitVec.ofNat 64 (ctzN 64 (t.rg s).toNat))]

/-- POPC (R97). -/
def execPopc (d s : GReg) : State → Host.Outcome State Fault Refusal :=
  produce (some 2) fun t => [.g d (BitVec.ofNat 64 (popN 64 (t.rg s).toNat))]

/-- BITI (R98). -/
def execBiti (three : Bool) (d x y : GReg) : State → Host.Outcome State Fault Refusal :=
  produce (some 2) fun t => [.g d (interleave (if three then 3 else 2) (t.rg x) (t.rg y))]

/-- BITD (R98). -/
def execBitd (three : Bool) (d x y : GReg) : State → Host.Outcome State Fault Refusal :=
  produce (some 2) fun t => [.g d (deinterleave (if three then 3 else 2) (t.rg x) (t.rg y))]

/-- BFX (R99). -/
def execBfx (d x : GReg) (y : Opd) : State → Host.Outcome State Fault Refusal :=
  produce (some 2) fun t => [.g d (fieldExtract (t.rg x) (opdVal t y))]

/-- BFI (R99). -/
def execBfi (d x : GReg) (y : Opd) : State → Host.Outcome State Fault Refusal :=
  produce (some 2) fun t => [.g d (fieldInsert (t.rg d) (t.rg x) (opdVal t y))]

/-- SEXT (R100). -/
def execSext (z : Size) (d s : GReg) : State → Host.Outcome State Fault Refusal :=
  produce (some 2) fun t => [.g d (signExt z (t.rg s))]

/-- ZEXT (R100). -/
def execZext (z : Size) (d s : GReg) : State → Host.Outcome State Fault Refusal :=
  produce (some 2) fun t => [.g d (zeroExt z (t.rg s))]

/-- CMP (R101). -/
def execCmp (c : Cond) (e : Elem) (p : PReg) (x y : GReg) : State → Host.Outcome State Fault Refusal :=
  produce (some 1) fun t => [.p p (intCondW c (intWidth e) (t.rg x).toNat (t.rg y).toNat)]

/-- CMPI (R102). -/
def execCmpi (c : Cond) (p : PReg) (x : GReg) (v : Word) : State → Host.Outcome State Fault Refusal :=
  produce (some 1) fun t => [.p p (intCondW c 64 (t.rg x).toNat v.toNat)]

/-- SEL (R103). -/
def execSel (d : GReg) (p : PReg) (x y : GReg) : State → Host.Outcome State Fault Refusal :=
  produce (some 1) fun t => [.g d (if t.rp p then t.rg x else t.rg y)]

end Sys2Proof.Machine
end

