-- ==== Sys2Proof/Machine/Capability.lean ====
section
/-!
DEFINITION. Capability operations (spec/07_one_thread.md R106 to R109).
-/

namespace Sys2Proof.Machine

/-- CADD (R106). -/
def execCadd (d x : CReg) (y : Opd) : State → Host.Outcome State Fault Refusal :=
  produce (some 2) fun t => [.c d (capMove (t.rc x) ((capOff (t.rc x) : Int) + sgn (opdVal t y)))]

/-- CSETA (R106). -/
def execCseta (d x : CReg) (y : Opd) : State → Host.Outcome State Fault Refusal :=
  produce (some 2) fun t => [.c d (capMove (t.rc x) (opdVal t y).toNat)]

/-- The result of CSETB, or the cause and OFFS of its trap (R107). -/
def narrow (c : Cap) (len : Nat) : Except (Nat × Nat) Cap :=
  let lo := capOff c
  let hi := lo + len
  if !c.tag then .error (0x04, lo)
  else if hi > 2 ^ 56 then .error (0x05, lo)
  else
    match regionOf lo hi with
    | none => .error (0x05, lo)
    | some (e, nb, nt) =>
      if nb < capBase c || nt > capTop c then .error (0x05, nt) else .ok (capSetRegion c e nb nt)

/-- CSETB (R107). -/
def execCsetb (d x : CReg) (y : Opd) : State → Host.Outcome State Fault Refusal :=
  run do
    let t ← getTh
    match narrow (t.rc x) (opdVal t y).toNat with
    | .error (cause, offs) => trap cause (tvalCap 1 x.val offs)
    | .ok c => writeL 2 (.c d c)
    advance

/-- CGETA (R108). -/
def execCgeta (d : GReg) (s : CReg) : State → Host.Outcome State Fault Refusal :=
  produce (some 2) fun t => [.g d (BitVec.ofNat 64 (capOff (t.rc s)))]

/-- CGETO (R108). -/
def execCgeto (d : GReg) (s : CReg) : State → Host.Outcome State Fault Refusal :=
  produce (some 2) fun t => [.g d (BitVec.ofNat 64 (capObj (t.rc s)))]

/-- CGETL (R108). -/
def execCgetl (d : GReg) (s : CReg) : State → Host.Outcome State Fault Refusal :=
  produce (some 2) fun t => [.g d (wordOf ((capTop (t.rc s) : Int) - capBase (t.rc s)))]

/-- CGETB (R108). -/
def execCgetb (d : GReg) (s : CReg) : State → Host.Outcome State Fault Refusal :=
  produce (some 2) fun t => [.g d (BitVec.ofNat 64 (capBase (t.rc s)))]

/-- CRES (R109). -/
def execCres (d x : CReg) (y : GReg) : State → Host.Outcome State Fault Refusal :=
  produce (some 2) fun t =>
    let c := t.rc x
    [.c d { c with w1 := putField 7 0 c.w1 (capRights c &&& ((t.rg y).toNat % 256)) }]

/-- CFMT (R109); a reserved code traps before any offset is formed, so OFFS is the base (R89). -/
def execCfmt (d x : CReg) (y : GReg) : State → Host.Outcome State Fault Refusal :=
  run do
    let t ← getTh
    let c := t.rc x
    let f := (t.rg y).toNat % 32
    if fmtReserved f then trap 0x07 (tvalCap 1 x.val (capBase c))
    else writeL 2 (.c d { c with w0 := putField 63 59 (putField 58 56 c.w0 (fmtBl f)) f })
    advance

/-- CGETF (R108). -/
def execCgetf (d : GReg) (s : CReg) : State → Host.Outcome State Fault Refusal :=
  produce (some 2) fun t =>
    let c := t.rc s
    [.g d (BitVec.ofNat 64 ((if c.tag then 2 ^ 63 else 0) + capE c * 2 ^ 26 + capBl c * 2 ^ 21 + capFmt c * 2 ^ 16 +
      capRights c))]

end Sys2Proof.Machine
end

