-- ==== Sys2Proof/Machine/Float.lean ====
section
/-!
DEFINITION. Scalar floating point (spec/07_one_thread.md R110, R111, over spec/01_numbers.md R13 to R17, R30, R31).
-/

namespace Sys2Proof.Machine

/-- The low bits of a g register as a code of a format (R110). -/
def codeOf (f : FFmt) (x : Word) : Nat := x.toNat % 2 ^ f.width

/-- A rounding operation: under RS the LFSR takes its step first, and the operation uses the register after it (R31). -/
def rounding (lat : Option Nat) (r : Rnd) (d : GReg) (f : Thread → BitVec 32 → Word) (s : State) :
    Host.Outcome State Fault Refusal :=
  let l := rndStep r s.th.lfsr
  .next ((s.setTh { s.th with lfsr := l }).retire lat [.g d (f s.th l)])

/-- FADD (R110). -/
def execFadd (r : Rnd) (e : Elem) (d x y : GReg) : State → Host.Outcome State Fault Refusal :=
  rounding (some 4) r d fun t l =>
    BitVec.ofNat 64 (fAdd (elemFmt e) r l (codeOf (elemFmt e) (t.rg x)) (codeOf (elemFmt e) (t.rg y)))

/-- FSUB (R110). -/
def execFsub (r : Rnd) (e : Elem) (d x y : GReg) : State → Host.Outcome State Fault Refusal :=
  rounding (some 4) r d fun t l =>
    BitVec.ofNat 64 (fSub (elemFmt e) r l (codeOf (elemFmt e) (t.rg x)) (codeOf (elemFmt e) (t.rg y)))

/-- FMUL (R110). -/
def execFmul (r : Rnd) (e : Elem) (d x y : GReg) : State → Host.Outcome State Fault Refusal :=
  rounding (some 4) r d fun t l =>
    BitVec.ofNat 64 (fMul (elemFmt e) r l (codeOf (elemFmt e) (t.rg x)) (codeOf (elemFmt e) (t.rg y)))

/-- FFMA (R110): old ga + x * y, one rounding; the operand order for NaNs is x, y, old ga. -/
def execFfma (r : Rnd) (e : Elem) (d x y : GReg) : State → Host.Outcome State Fault Refusal :=
  rounding (some 4) r d fun t l =>
    BitVec.ofNat 64 (fFma (elemFmt e) r l (codeOf (elemFmt e) (t.rg x)) (codeOf (elemFmt e) (t.rg y))
      (codeOf (elemFmt e) (t.rg d)))

/-- FDIV (R110), interlocked. -/
def execFdiv (r : Rnd) (e : Elem) (d x y : GReg) : State → Host.Outcome State Fault Refusal :=
  rounding none r d fun t l =>
    BitVec.ofNat 64 (fDiv (elemFmt e) r l (codeOf (elemFmt e) (t.rg x)) (codeOf (elemFmt e) (t.rg y)))

/-- FSQRT (R110), interlocked. -/
def execFsqrt (r : Rnd) (e : Elem) (d s : GReg) : State → Host.Outcome State Fault Refusal :=
  rounding none r d fun t l => BitVec.ofNat 64 (fSqrt (elemFmt e) r l (codeOf (elemFmt e) (t.rg s)))

/-- FMIN (R110). -/
def execFmin (e : Elem) (d x y : GReg) : State → Host.Outcome State Fault Refusal :=
  produce (some 4) fun t =>
    [.g d (BitVec.ofNat 64 (fMinMax (elemFmt e) false (codeOf (elemFmt e) (t.rg x)) (codeOf (elemFmt e) (t.rg y))))]

/-- FMAX (R110). -/
def execFmax (e : Elem) (d x y : GReg) : State → Host.Outcome State Fault Refusal :=
  produce (some 4) fun t =>
    [.g d (BitVec.ofNat 64 (fMinMax (elemFmt e) true (codeOf (elemFmt e) (t.rg x)) (codeOf (elemFmt e) (t.rg y))))]

/-- FCMP (R101). -/
def execFcmp (c : Cond) (e : Elem) (p : PReg) (x y : GReg) : State → Host.Outcome State Fault Refusal :=
  produce (some 4) fun t =>
    [.p p (fpCond c ((elemFmt e).decode (codeOf (elemFmt e) (t.rg x)))
      ((elemFmt e).decode (codeOf (elemFmt e) (t.rg y))))]

/-- The conversion of an FP32 code into an element format (R111). -/
def fromFp32 (r : Rnd) (l : BitVec 32) (e : Elem) (x : Nat) : Word :=
  let v := fp32.decode x
  match e with
  | .i32 => wordOf (v.toRange (intMin 32) (intMax 32) r l)
  | .i64 => wordOf (v.toRange (intMin 64) (intMax 64) r l)
  | .fp16 | .bf16 | .e4m3 | .e5m2 | .i8 | .i16 | .fp32 | .mxe4m3 | .mxe5m2 | .mxe2m1 | .e2m1x | .pt =>
    BitVec.ofNat 64 (v.into (elemFmt e) r l)

/-- The conversion of an element into FP32 (R111). -/
def toFp32 (r : Rnd) (l : BitVec 32) (e : Elem) (x : Nat) : Nat :=
  if elemIsInt e then
    let z := signedNat (intWidth e) x
    roundSum fp32 r l false z 0
  else ((elemFmt e).decode (x % 2 ^ (elemFmt e).width)).into fp32 r l

/-- FCVT (R111). -/
def execFcvt (r : Rnd) (e : Elem) (d s : GReg) : State → Host.Outcome State Fault Refusal :=
  rounding (some 4) r d fun t l => fromFp32 r l e (codeOf fp32 (t.rg s))

/-- FCVTF (R111). -/
def execFcvtf (r : Rnd) (e : Elem) (d s : GReg) : State → Host.Outcome State Fault Refusal :=
  rounding (some 4) r d fun t l => BitVec.ofNat 64 (toFp32 r l e (t.rg s).toNat)

end Sys2Proof.Machine
end

