-- ==== Sys2Proof/Machine/Memory.lean ====
section
/-!
DEFINITION. Loads and stores of one thread (spec/07_one_thread.md R104, R105) and the applying of a store at its home
(R87, R188, spec/13_many_cores.md R189, spec/29_service.md R363).
-/

namespace Sys2Proof.Machine

/-- A word from bytes, zero-extended (R13). -/
def wordLe (b : List Byte) : Word := BitVec.ofNat 64 (leNat b)

/-- The bytes of a capability in memory (R83). -/
def capBytes (c : Cap) : List Byte := leBytes 8 c.w0.toNat ++ leBytes 8 c.w1.toNat

/-- A capability from sixteen bytes and a tag. -/
def capFrom (b : List Byte) (tag : Bool) : Cap := ⟨wordLe (b.take 8), wordLe (b.drop 8), tag⟩

/-- The load of LD and LDA (R104): the size of the access, its checks, and the value. -/
def loadWord (sz : Option Size) (a : MemOp) : M Word := do
  let t ← getTh
  let c := t.rc a.base
  let n := accSize sz c
  let b ← loadBytes (creg a.base) c rR (memOff t a) n n
  return wordLe b

/-- The store of ST and STREL (R104). -/
def storeWord (sz : Option Size) (s : GReg) (a : MemOp) : M Unit := do
  let t ← getTh
  let c := t.rc a.base
  let n := accSize sz c
  storeBytes (creg a.base) c rW (memOff t a) (leBytes n (t.rg s).toNat) n false

/-- LD (R104). -/
def execLd (sz : Option Size) (d : GReg) (a : MemOp) : State → Host.Outcome State Fault Refusal :=
  run do
    let v ← loadWord sz a
    writeNow (.g d v)
    advance

/-- ST (R104). -/
def execSt (sz : Option Size) (s : GReg) (a : MemOp) : State → Host.Outcome State Fault Refusal :=
  run do
    storeWord sz s a
    advance

/-- A capability loaded with its granule's tag (R87, R105). -/
def loadCap (w : Src) (plain : Bool) (c : Cap) (need : Nat) (ea : Int) : M Cap := do
  checkCap w c need ea 16 16
  let (a, e) ← locate w plain c ea.toNat 16 rR
  let b ← readHome w ea.toNat a 16 e
  let old ← runS fun s => s.homeTag a
  let s ← get
  return capFrom b (ownTag s.th.stores a old)

/-- LDC (R105). -/
def execLdc (d : CReg) (a : MemOp) : State → Host.Outcome State Fault Refusal :=
  run do
    let t ← getTh
    let c ← loadCap (creg a.base) true (t.rc a.base) (rR + rC) (memOff t a)
    writeNow (.c d c)
    advance

/-- STC (R105): right S is needed where the stored capability is tagged. -/
def execStc (s : CReg) (a : MemOp) : State → Host.Outcome State Fault Refusal :=
  run do
    let t ← getTh
    let v := t.rc s
    storeBytes (creg a.base) (t.rc a.base) (if v.tag then rW + rS else rW) (memOff t a) (capBytes v) 16 v.tag
    advance

/-- HOME_REQUEST_APPLY (R188): the oldest store of a context is performed at its home; its firing may then retire. -/
def execHomeRequestApply (core ctx : Nat) : State → Host.Outcome State Fault Refusal :=
  event fun s => s.applyStore (tidOf core ctx)

/-- INTERLOCKED_RESULT_ARRIVAL (R44): the oldest interlocked result of a context arrives and is visible from its next
bundle on. -/
def execInterlockedResultArrival (core ctx : Nat) : State → Host.Outcome State Fault Refusal :=
  event fun s =>
    let t := s.thread (tidOf core ctx)
    match t.pend.find? (·.due = none) with
    | none => s
    | some e => s.setThread (tidOf core ctx) (t.settle [e.w.reg])

end Sys2Proof.Machine
end

