-- ==== Sys2Proof/Machine/Branch.lean ====
section
/-!
DEFINITION. Branches, calls and the return-address store, repeats and the start of a macro (spec/07_one_thread.md R112 to
R124).
-/

namespace Sys2Proof.Machine

/-- A target lies outside the bounds of PCC (R112). -/
def outside (c : Cap) (t : Int) : Bool := t < capBase c || t ≥ capTop c

/-- PCC with its offset at a target inside its bounds; a target outside takes trap 0x05 with SRC 0 (R89, R112). DESIGN CHOICE: B, BC,
CALL and JTAB of a bundle at an odd offset, which ERET and RET can reach, have an odd target; no rule says whether R51's trap 0x0E is due, and
they go on at the odd offset (log 53). -/
def branchTo (t : Int) : M Cap := do
  let th ← getTh
  if outside th.pcc t then trap 0x05 (tvalCap 0 0 (t % 2 ^ 56).toNat) else return capSetOff th.pcc t.toNat

/-- The target of a branch offset in 16-bit units from the bundle (R51, R112). -/
def branchTarget (t : Thread) (off : Word) : Int := (t.pc : Int) + 2 * sgn off

/-- B (R112). -/
def execB (off : Word) : State → Host.Outcome State Fault Refusal :=
  run do
    let th ← getTh
    let c ← branchTo (branchTarget th off)
    jump c

/-- BC (R112). -/
def execBc (p : PReg) (inv : Bool) (off : Word) : State → Host.Outcome State Fault Refusal :=
  run do
    let th ← getTh
    if th.rp p ^^ inv then
      let c ← branchTo (branchTarget th off)
      jump c
    else advance

/-- JMP's target capability after the checks of R113. -/
def jumpTarget (a : CReg) (x : GReg) : M Cap := do
  let th ← getTh
  let c := th.rc a
  let t : Int := (capOff c : Int) + sgn (th.rg x)
  let tv := fun (offs : Nat) => tvalCap 1 a.val offs
  let o := (t % 2 ^ 56).toNat
  if !c.tag then trap 0x04 (tv o)
  else if missing rX (capRights c) ≠ 0 then trap 0x06 (tv rX)
  else if t % 2 ≠ 0 then trap 0x0E (tv o)
  else if t < capBase c || t + 2 > capTop c then trap 0x05 (tv o)
  else return capSetOff c t.toNat

/-! ## The return-address store (R115 to R117) -/

/-- The slice home and slice offset of entry `i` of a thread's return area (R116, R128). DESIGN CHOICE: where SWR of RASD has made AREA so
large that this passes the end of the core's slice, the home is what follows there: the next core's slice (log 74). -/
def State.returnSlot (s : State) (i : Nat) : Nat × Nat :=
  let home := ((s.th.firing.bind (·.home)).getD s.cur.tid)
  let core := home / 8
  let o := carveOff core (s.spillOf core) (home % 8) + 16 * i
  (sliceAddr core o, o)

/-- The entries that the return area holds: S / 64 (R128). -/
def State.returnCap (s : State) : Nat := s.spillOf (s.th.homeCore s.cur.core) / 64

/-- The oldest entry of a full store is spilled (R116): to the return area, else through SPOV. DESIGN CHOICE: the limit of OVER is
tested before SPOV's own checks, and its trap names the slot's address in OFFS (R117; log 62). -/
def spillOldest (oldest : Cap) : M Unit := do
  let s ← get
  let th := s.th
  if th.area < s.returnCap then
    let (a, _) := s.returnSlot th.area
    issueStore a (capBytes oldest) oldest.tag (sliceEntry 0 0 0 0 0) 0
    modTh fun t => { t with area := t.area + 1 }
  else
    let w : Src := ⟨3, 0⟩
    let ea : Int := (capOff th.spov : Int) + 16 * th.ovr
    if th.ovr + 1 > 2 ^ 24 - 1 then trap 0x05 (tvalCap 3 0 (ea % 2 ^ 56).toNat)
    else
      checkCap w th.spov (rW + rS) ea 16 16
      let (a, e) ← locate w false th.spov ea.toNat 16 rW
      issueStore a (capBytes oldest) oldest.tag e (ea.toNat / 65536)
      modTh fun t => { t with ovr := t.ovr + 1, kept := smDel t.kept t.ovr }

/-- The push of the address of the next bundle (R115). -/
def pushReturn : M Unit := do
  let s ← get
  let th := s.th
  let entry := capSetOff th.pcc (th.pc + 2 * s.cur.words)
  match th.ras with
  | oldest :: rest =>
    if th.ras.length ≥ 16 then
      spillOldest oldest
      modTh fun t => { t with ras := rest ++ [entry] }
    else modTh fun t => { t with ras := t.ras ++ [entry] }
  | [] => modTh fun t => { t with ras := [entry] }

/-- CALL (R115): the target is checked before any spill. -/
def execCall (off : Word) : State → Host.Outcome State Fault Refusal :=
  run do
    let th ← getTh
    let c ← branchTo (branchTarget th off)
    pushReturn
    jump c

/-- An entry spilled through SPOV reloaded (R116), with the address that its traps name: one that an earlier save of the thread kept from its
record (R123, log 91), else from its slot. -/
def reloadOver (i : Nat) : M (Cap × Nat) := do
  let th ← getTh
  let slot := fun (c : Cap) => capOff c + 16 * i
  let (e, ea) ← match smFind th.kept i with
    | some (.read b tag poison) =>
      if poison then trap 0x0F (tvalCap 3 0 (slot th.spov)) else pure (capFrom b tag, slot th.spov)
    | some (.behind c) => do pure (← loadCap ⟨3, 0⟩ false c rR (slot c), slot c)
    | none => do pure (← loadCap ⟨3, 0⟩ false th.spov rR (slot th.spov), slot th.spov)
  modTh fun t => { t with ovr := i, kept := smDel t.kept i }
  return (e, ea)

/-- The newest entry: popped, or reloaded from the newest spill (R116), with the address that its traps name. DESIGN CHOICE: TVAL of
trap 0x09 is 0 (log 63). -/
def popReturn : M (Cap × Nat) := do
  let s ← get
  let th := s.th
  if th.ras ≠ [] then
    modTh fun t => { t with ras := t.ras.dropLast }
    return (th.ras.getLastD nullCap, 0)
  else if th.ovr > 0 then reloadOver (th.ovr - 1)
  else if th.area > 0 then
    let (a, o) := s.returnSlot (th.area - 1)
    let b ← readHome ⟨2, 0⟩ o a 16 (sliceEntry 0 0 0 0 0)
    modTh fun t => { t with area := t.area - 1 }
    return (capFrom b (ownTag th.stores a (s.tagAt a)), o)
  else trap 0x09 0

/-- The state of a thread's store and spills put back where a trap undoes the pop (R115). -/
def restoreStore (old : Thread) : M Unit :=
  modTh fun t => { t with ras := old.ras, area := old.area, ovr := old.ovr, kept := old.kept }

/-- RET (R115, R116). DESIGN CHOICE: an odd entry takes no trap 0x0E here, and the fetch drops its bit 0 (log 53). -/
def execRet : State → Host.Outcome State Fault Refusal :=
  run do
    let th ← getTh
    let (e, addr) ← popReturn
    if !e.tag then
      restoreStore th
      trap 0x04 (tvalCap 2 0 addr)
    else if outside e (capOff e) then
      restoreStore th
      trap 0x05 (tvalCap 2 0 (capOff e))
    else jump e

/-- JMP (R113). -/
def execJmp (a : CReg) (x : GReg) : State → Host.Outcome State Fault Refusal :=
  run do
    let c ← jumpTarget a x
    jump c

/-- JMPL (R113): the address of the next bundle is pushed as CALL pushes it. -/
def execJmpl (a : CReg) (x : GReg) : State → Host.Outcome State Fault Refusal :=
  run do
    let c ← jumpTarget a x
    pushReturn
    jump c

/-- JTAB (R114). -/
def execJtab (a : CReg) (x : GReg) : State → Host.Outcome State Fault Refusal :=
  run do
    let th ← getTh
    let c := th.rc a
    let w := creg a
    let i := (th.rg x).toNat
    if !c.tag then trap 0x04 (tvalCap 1 a.val (capBase c))
    else if missing rR (capRights c) ≠ 0 then trap 0x06 (tvalCap 1 a.val rR)
    else if capBadFmt c then trap 0x07 (tvalCap 1 a.val (capBase c))
    else if i ≥ (capTop c - capBase c).toNat / 4 then
      writeNow (.p 7 false)
      advance
    else
      let ea := capBase c + 4 * i
      if ea % 4 ≠ 0 then trap 0x0E (tvalCap 1 a.val ea)
      else
        let (h, e) ← locate w false c ea 4 rR
        let b ← readHome w ea h 4 e
        let t : Int := (th.pc : Int) + 2 * signedNat 32 (leNat b)
        let pcc ← branchTo t
        writeNow (.p 7 true)
        jump pcc

/-! ## Repeats and macros (R118 to R124) -/

/-- The thread after a REP or LOOPP bundle: the bundle itself is not counted (R120). -/
def Thread.startLoop (t : Thread) (c : Cur) (lpst : Word) : Thread :=
  let t := t.tick c
  let nx := t.pc + 2 * c.words
  { t with lpst := lpst, lpsa := BitVec.ofNat 64 (nx % 2 ^ 56), pcc := capSetOff t.pcc nx }

/-- LPST at a start (R120, R121): the fields that R120 lists, with HOLD, which it does not list, clear. -/
def lpstOf (kind endless : Bool) (n left : Nat) : Word :=
  BitVec.ofNat 64 (2 ^ 63 + (if kind then 2 ^ 62 else 0) + (if endless then 2 ^ 60 else 0) + n % 128 * 2 ^ 53 +
    left % 2 ^ 32)

/-- REP (R120). -/
def execRep (n : BitVec 5) (k : BitVec 32) : State → Host.Outcome State Fault Refusal :=
  event fun s => s.setTh (s.th.startLoop s.cur (lpstOf false false (n.toNat + 1) k.toNat))

/-- Some context of the cluster that holds a firing repeats the body (R183). -/
def State.repeats (s : State) (cluster obj start : Nat) : Bool :=
  s.threads.any fun t =>
    t.1 / 128 = cluster && t.2.firing.isSome && fieldW 63 62 t.2.lpst = 3 && capObj t.2.pcc = obj && fieldW 55 0 t.2.lpsa = start

/-- The pinned bodies of a cluster that stay pinned (R183). -/
def State.pinned (s : State) (cluster : Nat) : List LoopBody :=
  (smGet [] s.loops cluster).filter fun b => s.repeats cluster b.obj b.start

/-- The time at which a thread's launch began (R122): that of its first placement. -/
def State.beganAt (s : State) (t : Thread) : Nat := ((s.launch? t.launchId).bind (·.began)).getD 0

/-- A loop body serves a place in code for a launch that began at a time: one pinned before that may hold words of before (R122). -/
def LoopBody.serves (b : LoopBody) (obj start began : Nat) : Bool := b.obj = obj && b.start = start && b.made ≥ began

/-- A loop body that a cluster's loop buffer holds for a launch that began at a time (R122, R183). -/
def State.pin (s : State) (cluster obj start began : Nat) : State :=
  let l := s.pinned cluster
  if l.any (·.serves obj start began) then s
  else { s with loops := smPut s.loops cluster ((⟨obj, start, [], s.clock⟩ :: l).take 4) }

/-- LOOPP (R120, R183): the body's words are pinned as they are first fetched. -/
def execLoopp (n : BitVec 6) (k : BitVec 32) : State → Host.Outcome State Fault Refusal :=
  event fun s =>
    let t := s.th.startLoop s.cur (lpstOf true (k = 0) (n.toNat + 1) (k.toNat - 1))
    (s.pin (coreCluster s.cur.core) (capObj t.pcc) t.pc (s.beganAt s.th)).setTh t

/-- Entry `idx` of a macro of a cluster's pattern book (R118); entries beyond 31 read as zero. -/
def State.bookEntry (s : State) (cluster num idx : Nat) : Word :=
  if idx ≥ 32 then 0 else smGet 0 s.book (cluster * 4096 + num % 128 * 32 + idx)

/-- A macro that has no entry left completes: MCX.ACT is cleared, and the MCALL counts as one bundle (R118, R120, R124). -/
def Thread.endMacro (t : Thread) (r : MacroRun) : Thread :=
  let (l, back) := loopStep t.lpst
  { t with
    run := none
    mcx := putField 12 12 t.mcx 0
    lpst := l
    pcc := capSetOff t.pcc (if back then fieldW 55 0 t.lpsa else t.pc + 2 * r.words) }

/-- The macro goes on at its next entry, or completes at entry 32 or at an entry that is zero (R118). -/
def State.macroNext (s : State) (t : Nat) : State :=
  let th := s.thread t
  match th.run with
  | none => s
  | some r =>
    if s.bookEntry (coreCluster (t / 8)) r.num r.idx = 0 then s.setThread t (th.endMacro r) else s

/-- MCALL (R118, R119): nominal time moves past the MCALL, then its entries execute as bundles of their own. The bundle
that an ERET resumes starts at MCX.IDX when MCX.ACT is set, and its one match is the entry's (R359). -/
def execMcall (num : Fin 128) (a b : Fin 64) (c : Fin 32) (v : Word) : State → Host.Outcome State Fault Refusal :=
  event fun s =>
    let th := s.th
    let idx := if th.noBreak && bitW 12 th.mcx then fieldW 11 7 th.mcx else 0
    let r : MacroRun := ⟨num.val, idx, a.val, b.val, c.val, v, s.cur.words⟩
    let t := { th.tick s.cur with run := some r, noBreak := th.noBreak && bitW 12 th.mcx }
    (s.setTh t).macroNext s.cur.tid

end Sys2Proof.Machine
end

