-- ==== Sys2Proof/Machine/Vector.lean ====
section
/-!
DEFINITION. The vector engine (spec/09_vector.md R130 to R151): elements and lanes, then one meaning for each instruction of
page 2.
-/

namespace Sys2Proof.Machine

/-! ## Elements and lanes (R130, R131) -/

/-- Element j of width w. -/
def velem (w : Nat) (x : VWord) (j : Nat) : Nat := x.toNat / 2 ^ (w * j) % 2 ^ w

/-- Elements of width w, element 0 first, as a register. -/
def vpackN (w : Nat) : List Nat → Nat
  | [] => 0
  | e :: t => e % 2 ^ w + 2 ^ w * vpackN w t

def vpack (w : Nat) (l : List Nat) : VWord := BitVec.ofNat 512 (vpackN w l)

/-- The element numbers of a width. -/
def vidx (w : Nat) : List Nat := List.range (512 / w)

/-- Element j of width w is active under a mask. -/
def vact (w : Nat) (m : Mask) (j : Nat) : Bool := if w = 64 then m.getLsbD (2 * j) else m.getLsbD (w * j / 32)

/-- The register in which active elements are computed and inactive ones keep their value or become zero (R131). -/
def vmap (w : Nat) (m : Mask) (zero : Bool) (old : VWord) (f : Nat → Nat) : VWord :=
  vpack w ((vidx w).map fun j => if vact w m j then f j else if zero then 0 else velem w old j)

/-- The width of the elements of a code (R13, R14, R16). -/
def velemWidth : Elem → Nat
  | .i8 | .e4m3 | .e5m2 => 8
  | .i16 | .fp16 | .bf16 => 16
  | .i32 | .fp32 | .mxe4m3 | .mxe5m2 | .mxe2m1 | .e2m1x | .pt => 32
  | .i64 => 64

/-- Lanes computed in ascending order with one LFSR step for each active lane under RS (R31, R132): the elements and the
LFSR after them. -/
def vrounds (r : Rnd) (w : Nat) (m : Mask) (zero : Bool) (old : VWord) (f : BitVec 32 → Nat → Nat) :
    List Nat → BitVec 32 → List Nat × BitVec 32
  | [], l => ([], l)
  | j :: t, l =>
    let l' := if vact w m j then rndStep r l else l
    let e := if vact w m j then f l' j else if zero then 0 else velem w old j
    let (es, l'') := vrounds r w m zero old f t l'
    (e :: es, l'')

/-- A lane-wise instruction that cannot stop and rounds nothing. -/
def vlanes (lat : Nat) (w : Nat) (d : VReg) (vm : VM) (f : Thread → Nat → Nat) : State → Host.Outcome State Fault Refusal :=
  produce (some lat) fun t => [.v d (vmap w (t.rm vm.mask) vm.zero (t.rv d) (f t))]

/-- A lane-wise instruction that rounds. -/
def vrounding (r : Rnd) (w : Nat) (d : VReg) (vm : VM) (f : Thread → BitVec 32 → Nat → Nat) (s : State) :
    Host.Outcome State Fault Refusal :=
  let t := s.th
  let (es, l) := vrounds r w (t.rm vm.mask) vm.zero (t.rv d) (f t) (vidx w) t.lfsr
  .next ((s.setTh { t with lfsr := l }).retire (some 4) [.v d (vpack w es)])

/-! ## Lane arithmetic (R134 to R137) -/

/-- Element arithmetic: integers modulo 2^w, floating values rounded (R134). -/
def vArith2 (r : Rnd) (e : Elem) (d x y : VReg) (vm : VM) (fi : Nat → Nat → Nat)
    (ff : FFmt → Rnd → BitVec 32 → Nat → Nat → Nat) : State → Host.Outcome State Fault Refusal :=
  let w := velemWidth e
  if elemIsInt e then vlanes 4 w d vm fun t j => fi (velem w (t.rv x) j) (velem w (t.rv y) j) % 2 ^ w
  else vrounding r w d vm fun t l j => ff (elemFmt e) r l (velem w (t.rv x) j) (velem w (t.rv y) j)

/-- VADD (R134). -/
def execVadd (r : Rnd) (e : Elem) (d x y : VReg) (vm : VM) : State → Host.Outcome State Fault Refusal :=
  vArith2 r e d x y vm (fun a b => a + b) fAdd

/-- VSUB (R134). -/
def execVsub (r : Rnd) (e : Elem) (d x y : VReg) (vm : VM) : State → Host.Outcome State Fault Refusal :=
  vArith2 r e d x y vm (fun a b => a + (2 ^ velemWidth e - b)) fSub

/-- VMUL (R134). -/
def execVmul (r : Rnd) (e : Elem) (d x y : VReg) (vm : VM) : State → Host.Outcome State Fault Refusal :=
  vArith2 r e d x y vm (fun a b => a * b) fMul

/-- VFMA (R134): old va + x * y; the operand order for NaNs is x, y, old va. -/
def execVfma (r : Rnd) (e : Elem) (d x y : VReg) (vm : VM) : State → Host.Outcome State Fault Refusal :=
  let w := velemWidth e
  vrounding r w d vm fun t l j =>
    fFma (elemFmt e) r l (velem w (t.rv x) j) (velem w (t.rv y) j) (velem w (t.rv d) j)

/-- The smaller or the larger of two elements (R134). -/
def vMinMax (big u : Bool) (e : Elem) (a b : Nat) : Nat :=
  let w := velemWidth e
  if elemIsInt e then
    let le := if u then decide (a ≤ b) else decide (signedNat w a ≤ signedNat w b)
    if le ^^ big then a else b
  else fMinMax (elemFmt e) big a b

/-- VMIN (R134). -/
def execVmin (e : Elem) (u : Bool) (d x y : VReg) (vm : VM) : State → Host.Outcome State Fault Refusal :=
  let w := velemWidth e
  vlanes 4 w d vm fun t j => vMinMax false u e (velem w (t.rv x) j) (velem w (t.rv y) j)

/-- VMAX (R134). -/
def execVmax (e : Elem) (u : Bool) (d x y : VReg) (vm : VM) : State → Host.Outcome State Fault Refusal :=
  let w := velemWidth e
  vlanes 4 w d vm fun t j => vMinMax true u e (velem w (t.rv x) j) (velem w (t.rv y) j)

/-- VAND (R135). -/
def execVand (d x y : VReg) (vm : VM) : State → Host.Outcome State Fault Refusal :=
  vlanes 4 32 d vm fun t j => velem 32 (t.rv x) j &&& velem 32 (t.rv y) j

/-- VOR (R135). -/
def execVor (d x y : VReg) (vm : VM) : State → Host.Outcome State Fault Refusal :=
  vlanes 4 32 d vm fun t j => velem 32 (t.rv x) j ||| velem 32 (t.rv y) j

/-- VXOR (R135). -/
def execVxor (d x y : VReg) (vm : VM) : State → Host.Outcome State Fault Refusal :=
  vlanes 4 32 d vm fun t j => velem 32 (t.rv x) j ^^^ velem 32 (t.rv y) j

/-- The count of a vector shift for element j (R136). -/
def vcount (t : Thread) (w : Nat) (y : VOpd) (j : Nat) : Nat :=
  match y with
  | .imm v => v.toNat
  | .reg r => velem w (t.rv r) j

/-- VSHL (R136). -/
def execVshl (e : Elem) (d x : VReg) (y : VOpd) (m : MReg) : State → Host.Outcome State Fault Refusal :=
  let w := velemWidth e
  vlanes 2 w d ⟨m, false⟩ fun t j =>
    if vcount t w y j ≥ w then 0 else velem w (t.rv x) j * 2 ^ vcount t w y j % 2 ^ w

/-- VSHR and VSAR (R136). -/
def execVshr (e : Elem) (arith : Bool) (d x : VReg) (y : VOpd) (m : MReg) : State → Host.Outcome State Fault Refusal :=
  let w := velemWidth e
  vlanes 2 w d ⟨m, false⟩ fun t j =>
    let n := min w (vcount t w y j)
    if arith then wrapNat w (signedNat w (velem w (t.rv x) j) / (2 ^ n : Nat)) else velem w (t.rv x) j / 2 ^ n

/-- VCLZ (R137). -/
def execVclz (e : Elem) (d s : VReg) (vm : VM) : State → Host.Outcome State Fault Refusal :=
  let w := velemWidth e
  vlanes 2 w d vm fun t j => clzN w (velem w (t.rv s) j)

/-- VPOPC (R137). -/
def execVpopc (e : Elem) (d s : VReg) (vm : VM) : State → Host.Outcome State Fault Refusal :=
  let w := velemWidth e
  vlanes 2 w d vm fun t j => popN w (velem w (t.rv s) j)

/-- One lane of VBITI (R137). -/
def vbiti1 (x y : Nat) : Nat :=
  (List.range 11).foldl (fun r k => if x.testBit k then r ||| 2 ^ (3 * k) else r) (2 * y % 2 ^ 32)

/-- VBITI (R137). -/
def execVbiti (d x y : VReg) (vm : VM) : State → Host.Outcome State Fault Refusal :=
  vlanes 2 32 d vm fun t j => vbiti1 (velem 32 (t.rv x) j) (velem 32 (t.rv y) j)

/-! ## Comparisons, selection and masks (R138 to R140) -/

/-- The lane bits of a test of each element; both bits of a 64-bit element (R138). -/
def laneBits (w : Nat) (f : Nat → Bool) : Mask :=
  BitVec.ofNat 16 (vpackN 1 ((List.range 16).map fun i =>
    if f (if w = 64 then i / 2 else i * 32 / w) then 1 else 0))

/-- The mask whose lane bits name the active elements. -/
def activeBits (w : Nat) (m : Mask) : Mask := laneBits w (vact w m)

/-- A mask result with its inactive bits treated as R131 says. -/
def maskInto (m : Mask) (zero : Bool) (old r : Mask) : Mask := (r &&& m) ||| (if zero then 0 else old &&& ~~~m)

/-- VCMP (R138). -/
def execVcmp (c : Cond) (e : Elem) (d : MReg) (x y : VReg) (vm : VM) : State → Host.Outcome State Fault Refusal :=
  let w := velemWidth e
  produce (some 4) fun t =>
    let test := fun j =>
      if elemIsInt e then intCondW c w (velem w (t.rv x) j) (velem w (t.rv y) j)
      else fpCond c ((elemFmt e).decode (velem w (t.rv x) j)) ((elemFmt e).decode (velem w (t.rv y) j))
    [.m d (maskInto (activeBits w (t.rm vm.mask)) vm.zero (t.rm d) (laneBits w test))]

/-- VSEL (R139). -/
def execVsel (d x y : VReg) (m : MReg) : State → Host.Outcome State Fault Refusal :=
  produce (some 4) fun t =>
    [.v d (vpack 32 ((vidx 32).map fun j => if vact 32 (t.rm m) j then velem 32 (t.rv x) j else velem 32 (t.rv y) j))]

/-- The lowest set bit of a mask alone (R140). -/
def lowestBit (m : Mask) : Mask := m &&& (0 - m)

/-- The result of a mask operation (R140). -/
def maskResult (t : Thread) : MaskOp → Mask
  | .mov _ b => t.rm b
  | .and _ x y => t.rm x &&& t.rm y
  | .or _ x y => t.rm x ||| t.rm y
  | .xor _ x y => t.rm x ^^^ t.rm y
  | .andn _ x y => t.rm x &&& ~~~(t.rm y)
  | .not _ b => ~~~(t.rm b)
  | .fromG _ b => (t.rg b).setWidth 16
  | .toG _ b => t.rm b
  | .first _ b => lowestBit (t.rm b)

/-- The write of a mask operation's result (R140). -/
def maskWrite (t : Thread) (vm : VM) (o : MaskOp) : RegWrite :=
  let g := t.rm vm.mask
  let r := maskResult t o
  match o with
  | .mov d _ | .and d _ _ | .or d _ _ | .xor d _ _ | .andn d _ _ | .not d _ | .fromG d _ | .first d _ =>
    .m d (maskInto g vm.zero (t.rm d) r)
  | .toG d _ => .g d ((r &&& g).setWidth 64)

/-- VMASK (R140). -/
def execVmask (p : PReg) (o : MaskOp) (vm : VM) : State → Host.Outcome State Fault Refusal :=
  produce (some 1) fun t => [maskWrite t vm o, .p p (maskResult t o &&& t.rm vm.mask ≠ 0)]

/-! ## Moving elements (R141 to R144) -/

/-- VBCAST (R141). -/
def execVbcast (e : Elem) (d : VReg) (s : GReg) (vm : VM) : State → Host.Outcome State Fault Refusal :=
  let w := velemWidth e
  vlanes 4 w d vm fun t _ => (t.rg s).toNat % 2 ^ w

/-- VEXT (R141). -/
def execVext (e : Elem) (d : GReg) (s : VReg) (idx : Opd) : State → Host.Outcome State Fault Refusal :=
  let w := velemWidth e
  produce (some 4) fun t =>
    let i := (opdVal t idx).toNat
    let v := velem w (t.rv s) i
    [.g d (if i ≥ 512 / w then 0 else if elemIsInt e then wordOf (signedNat w v) else BitVec.ofNat 64 v)]

/-- VINS (R141). -/
def execVins (e : Elem) (d : VReg) (s : GReg) (idx : Opd) : State → Host.Outcome State Fault Refusal :=
  let w := velemWidth e
  produce (some 4) fun t =>
    let i := (opdVal t idx).toNat
    [.v d (vpack w ((vidx w).map fun j => if j = i then (t.rg s).toNat % 2 ^ w else velem w (t.rv d) j))]

/-- VPERM (R142). -/
def execVperm (d x y : VReg) (vm : VM) : State → Host.Outcome State Fault Refusal :=
  vlanes 2 32 d vm fun t j =>
    let k := velem 32 (t.rv y) j
    if k < 16 then velem 32 (t.rv x) k else 0

/-- One lane of VCVT (R143). -/
def vcvt1 (back : Bool) (r : Rnd) (e : Elem) (l : BitVec 32) (x : Nat) : Nat :=
  if back then toFp32 r l e x else (fromFp32 r l e x).toNat % 2 ^ 32

/-- VCVT and VCVTF (R143). -/
def execVcvt (back : Bool) (r : Rnd) (e : Elem) (d s : VReg) (vm : VM) : State → Host.Outcome State Fault Refusal :=
  vrounding r 32 d vm fun t l j => vcvt1 back r e l (velem 32 (t.rv s) j)

/-- The active elements of a register, in order (R144). -/
def vactive (w : Nat) (m : Mask) (x : VWord) : List Nat :=
  (vidx w).filterMap fun j => if vact w m j then some (velem w x j) else none

/-- VCOMP (R144). -/
def execVcomp (e : Elem) (d s : VReg) (vm : VM) : State → Host.Outcome State Fault Refusal :=
  let w := velemWidth e
  produce (some 4) fun t =>
    let l := vactive w (t.rm vm.mask) (t.rv s)
    [.v d (vpack w ((vidx w).map fun j => (l[j]?).getD (if vm.zero then 0 else velem w (t.rv d) j)))]

/-- The number of active elements below j. -/
def activeBelow (w : Nat) (m : Mask) (j : Nat) : Nat := ((List.range j).filter (vact w m)).length

/-- VXPND (R144). -/
def execVxpnd (e : Elem) (d s : VReg) (vm : VM) : State → Host.Outcome State Fault Refusal :=
  let w := velemWidth e
  vlanes 4 w d vm fun t j => velem w (t.rv s) (activeBelow w (t.rm vm.mask) j)

/-! ## Reductions and scans (R145, R146) -/

/-- The combining operation of VRED and VSCAN on elements (R132, R145). -/
def redOp (op : RedOp) (r : Rnd) (e : Elem) (a b : Nat) : Nat :=
  let w := velemWidth e
  match op with
  | .add => if elemIsInt e then (a + b) % 2 ^ w else fAdd (elemFmt e) r 0 a b
  | .min => vMinMax false false e a b
  | .max => vMinMax true false e a b

/-- The pairing of R145 with EMPTY as none: halves of a list combined element by element. -/
def redPairs (f : Nat → Nat → Nat) : Nat → List (Option Nat) → Option Nat
  | 0, s => (s.head?).getD none
  | k + 1, s =>
    let h := s.length / 2
    redPairs f k (((s.take h).zip (s.drop h)).map fun p =>
      match p.1, p.2 with
      | some a, some b => some (f a b)
      | some a, none => some a
      | none, b => b)

/-- The value of an empty reduction (R145). -/
def redEmpty (op : RedOp) (e : Elem) : Nat :=
  let w := velemWidth e
  match op with
  | .add => 0
  | .min => if elemIsInt e then 2 ^ (w - 1) - 1 else 0x7F800000
  | .max => if elemIsInt e then 2 ^ (w - 1) else 0xFF800000

/-- The result of VRED (R145). -/
def vredValue (op : RedOp) (r : Rnd) (e : Elem) (m : Mask) (x : VWord) : Word :=
  let w := velemWidth e
  let s := (vidx w).map fun j => if vact w m j then some (velem w x j) else none
  let v := (redPairs (redOp op r e) (if w = 64 then 3 else 4) s).getD (redEmpty op e)
  if elemIsInt e then wordOf (signedNat w v) else BitVec.ofNat 64 v

/-- VRED (R145). -/
def execVred (op : RedOp) (r : Rnd) (e : Elem) (d : GReg) (s : VReg) (m : MReg) :
    State → Host.Outcome State Fault Refusal :=
  produce (some 8) fun t => [.g d (vredValue op r e (t.rm m) (t.rv s))]

/-- The prefix of R146. -/
def scanLoop (f : Nat → Nat → Nat) (w : Nat) (m : Mask) (zero : Bool) (x old : VWord) :
    List Nat → Option Nat → List Nat
  | [], _ => []
  | j :: t, acc =>
    if vact w m j then
      let v := match acc with
        | none => velem w x j
        | some a => f a (velem w x j)
      v :: scanLoop f w m zero x old t (some v)
    else (if zero then 0 else velem w old j) :: scanLoop f w m zero x old t acc

/-- VSCAN (R146). -/
def execVscan (op : RedOp) (r : Rnd) (e : Elem) (d s : VReg) (vm : VM) : State → Host.Outcome State Fault Refusal :=
  let w := velemWidth e
  produce (some 8) fun t =>
    [.v d (vpack w (scanLoop (redOp op r e) w (t.rm vm.mask) vm.zero (t.rv s) (t.rv d) (vidx w) none))]

/-! ## VTWO (R148) -/

/-- One lane of VTWO: the lane of va, the two advance bits, and Live. -/
def twoLane (mode : TwoMode) (a b : Nat) : Nat × Bool × Bool × Bool :=
  let e := 0xFFFFFFFF
  match mode with
  | .intersect =>
    if a = e || b = e then (e, false, false, false)
    else if a < b then (e, true, false, true)
    else if a > b then (e, false, true, true)
    else (a, true, true, true)
  | .union =>
    if a = e && b = e then (e, false, false, false)
    else if a < b then (a, true, false, true)
    else if a > b then (b, false, true, true)
    else (a, true, true, true)
  | .difference =>
    if a = e then (e, false, false, false)
    else if a < b then (a, true, false, true)
    else if a > b then (e, false, true, true)
    else (e, true, true, true)

/-- VTWO (R148). -/
def execVtwo (mode : TwoMode) (k : Fin 3) (p : PReg) (d x y : VReg) (vm : VM) :
    State → Host.Outcome State Fault Refusal :=
  produce (some 4) fun t =>
    let g := t.rm vm.mask
    let lane := fun j => twoLane mode (velem 32 (t.rv x) j) (velem 32 (t.rv y) j)
    let bits := fun (f : Nat × Bool × Bool × Bool → Bool) => g &&& laneBits 32 fun j => f (lane j)
    [.v d (vmap 32 g vm.zero (t.rv d) fun j => (lane j).1),
     .m (Fin.ofNat 8 (2 * k.val + 2)) (bits fun l => l.2.1),
     .m (Fin.ofNat 8 (2 * k.val + 3)) (bits fun l => l.2.2.1),
     .p p (bits (fun l => l.2.2.2) ≠ 0)]

/-! ## Vector memory access (R149 to R151) -/

/-- The active lanes, ascending. -/
def lanesOf (m : Mask) : List Nat := (List.range 16).filter fun i => m.getLsbD i

/-- The checks of R88 of every lane, in order; the first failure is reported. -/
def checkLanes (w : Src) (c : Cap) (need n : Nat) (ea : Nat → Int) : List Nat → M Unit
  | [] => pure ()
  | i :: t => do
    checkCap w c need (ea i) n n
    checkLanes w c need n ea t

/-- The checks of R185 of every lane, in order. They stand in the core, before any lane's access leaves it; a lane whose page gives no
home is left to its access. DESIGN CHOICE: they follow the checks of R88 of all lanes, where R151's separate accesses would let those of
one lane come before those of the next (log 90). -/
def farLanes (w : Src) (c : Cap) (ea : Nat → Int) (perm : Nat) : List Nat → M Unit
  | [] => pure ()
  | i :: t => do
    checkFar w c (ea i).toNat perm
    farLanes w c ea perm t

/-- The loads of the lanes: each lane's bytes as a number. All lanes are loaded in one step, so that no other agent's store comes between
two of them, which R151 would allow (log 85, DESIGN CHOICE). -/
def loadLanes (w : Src) (c : Cap) (n : Nat) (ea : Nat → Int) : List Nat → M (List (Nat × Nat))
  | [] => pure []
  | i :: t => do
    let (a, e) ← locate w true c (ea i).toNat n rR
    let b ← readHome w (ea i).toNat a n e
    let r ← loadLanes w c n ea t
    return (i, leNat b) :: r

/-- The homes of the lanes, in order, up to the first whose access stops, and that stop. -/
def locateLanes (w : Src) (c : Cap) (n : Nat) (ea : Nat → Int) : List Nat → State → (List (Nat × Nat × TlbEntry) × Option Stop) × State
  | [], s => (([], none), s)
  | i :: t, s =>
    match locate w true c (ea i).toNat n rW s with
    | .error e s => (([], some e), s)
    | .ok (a, e) s =>
      let ((l, stop), s) := locateLanes w c n ea t s
      (((i, a, e) :: l, stop), s)

/-- A bundle that stops so does not execute: its page is absent (R240), or its thread ships (R241). -/
def Stop.unexecuted : Stop → Bool
  | .absent _ _ _ _ | .ship _ _ => true
  | .trap _ _ | .trapWhole _ _ | .trapNext _ _ | .park _ | .wait => false

/-- The stores of lanes at their homes, in order. -/
def issueLanes (n : Nat) (ea : Nat → Int) (v : Nat → Nat) : List (Nat × Nat × TlbEntry) → M Unit
  | [] => pure ()
  | (i, a, e) :: t => do
    issueStore a (leBytes n (v i)) false e ((ea i).toNat / 65536)
    issueLanes n ea v t

/-- The stores of the lanes, in order: a fault found at a home leaves the lanes below it stored (R151); where a lane parks the thread absent or
ships it, no lane is stored (R240, R241). -/
def storeLanes (w : Src) (c : Cap) (n : Nat) (ea : Nat → Int) (v : Nat → Nat) (ls : List Nat) : M Unit := do
  let (l, e) ← runS (locateLanes w c n ea ls)
  match e with
  | none => issueLanes n ea v l
  | some e =>
    if e.unexecuted then stop e
    else
      issueLanes n ea v l
      stop e

/-- The register with the loaded lanes. -/
def putLanes (m : Mask) (zero : Bool) (old : VWord) (l : List (Nat × Nat)) : VWord :=
  vmap 32 m zero old fun i => ((l.find? (·.1 = i)).map (·.2)).getD 0

/-- VLD (R149): without an active lane it does nothing. -/
def execVld (d : VReg) (a : MemOp) (m : MReg) : State → Host.Outcome State Fault Refusal :=
  run do
    let t ← getTh
    let c := t.rc a.base
    let ls := lanesOf (t.rm m)
    let ea := fun (i : Nat) => memOff t a + 4 * i
    checkLanes (creg a.base) c rR 4 ea ls
    farLanes (creg a.base) c ea rR ls
    let v ← loadLanes (creg a.base) c 4 ea ls
    if ls = [] then pure () else writeNow (.v d (putLanes (t.rm m) false (t.rv d) v))
    advance

/-- VST (R149, R151). -/
def execVst (s : VReg) (a : MemOp) (m : MReg) : State → Host.Outcome State Fault Refusal :=
  run do
    let t ← getTh
    let c := t.rc a.base
    let ls := lanesOf (t.rm m)
    let ea := fun (i : Nat) => memOff t a + 4 * i
    checkLanes (creg a.base) c rW 4 ea ls
    farLanes (creg a.base) c ea rW ls
    storeLanes (creg a.base) c 4 ea (fun i => velem 32 (t.rv s) i) ls
    advance

/-- The exact offset of a lane of VLDX or VSTX (R150). -/
def laneOff (c : Cap) (n : Nat) (idx : VWord) (i : Nat) : Int := (capOff c : Int) + signedNat 32 (velem 32 idx i) * n

/-- A memory element in its lane (R150). -/
def intoLane (e : Elem) (u : Bool) (x : Nat) : Nat :=
  match e with
  | .i8 => if u then x else wrapNat 32 (signedNat 8 x)
  | .i16 => if u then x else wrapNat 32 (signedNat 16 x)
  | .fp16 | .bf16 | .e4m3 | .e5m2 => toFp32 .rne 0 e x
  | .i32 | .fp32 | .i64 | .mxe4m3 | .mxe5m2 | .mxe2m1 | .e2m1x | .pt => x

/-- VLDX (R150). -/
def execVldx (e : Elem) (u : Bool) (d : VReg) (base : CReg) (idx : VReg) (vm : VM) :
    State → Host.Outcome State Fault Refusal :=
  run do
    let t ← getTh
    let c := t.rc base
    let n := velemWidth e / 8
    let ls := lanesOf (t.rm vm.mask)
    let ea := laneOff c n (t.rv idx)
    checkLanes (creg base) c rR n ea ls
    farLanes (creg base) c ea rR ls
    let v ← loadLanes (creg base) c n ea ls
    writeNow (.v d (putLanes (t.rm vm.mask) vm.zero (t.rv d) (v.map fun p => (p.1, intoLane e u p.2))))
    advance

/-- A lane as a memory element (R150). -/
def fromLane (r : Rnd) (l : BitVec 32) (e : Elem) (x : Nat) : Nat :=
  match e with
  | .fp16 | .bf16 | .e4m3 | .e5m2 => (fp32.decode x).into (elemFmt e) r l
  | .i8 | .i16 | .i32 | .fp32 | .i64 | .mxe4m3 | .mxe5m2 | .mxe2m1 | .e2m1x | .pt => x

/-- VSTX (R150, R151): the LFSR moves on when the bundle completes. -/
def execVstx (r : Rnd) (e : Elem) (s : VReg) (base : CReg) (idx : VReg) (m : MReg) :
    State → Host.Outcome State Fault Refusal :=
  run do
    let t ← getTh
    let c := t.rc base
    let n := velemWidth e / 8
    let ls := lanesOf (t.rm m)
    let ea := laneOff c n (t.rv idx)
    let (vs, l) := vrounds r 32 (t.rm m) true 0 (fun l j => fromLane r l e (velem 32 (t.rv s) j)) (vidx 32) t.lfsr
    checkLanes (creg base) c rW n ea ls
    farLanes (creg base) c ea rW ls
    storeLanes (creg base) c n ea (fun i => vs.getD i 0) ls
    modTh fun t => { t with lfsr := l }
    advance

end Sys2Proof.Machine
end

