-- ==== Sys2Proof/Machine/Teams.lean ====
section
/-!
DEFINITION. Teams on a core (spec/11_one_core.md R152 to R156, R162 to R167): work identifiers (R345), the direction and
binding of ports (R344), pushes and pops, light handlers, stage actors, and the start of a firing (R81).
-/

namespace Sys2Proof.Machine

/-! ## Work identifiers (R154, R174, R345) -/

def sumNat (l : List Nat) : Nat := l.foldl (· + ·) 0

/-- W: the sum of the widths. -/
def specBits (l : LaunchSpec) : Nat := sumNat l.widths

/-- The bits of the fields below the team level. -/
def itemBits (l : LaunchSpec) : Nat := sumNat (l.widths.drop l.teamLv)

/-- The bits of the fields between the arcade and the team level. -/
def teamBits (l : LaunchSpec) : Nat := sumNat ((l.widths.take l.teamLv).drop l.arcLv)

/-- Field F k of a work identifier. -/
def widField (l : LaunchSpec) (id k : Nat) : Nat :=
  id / 2 ^ sumNat (l.widths.drop (k + 1)) % 2 ^ l.widths.getD k 0

/-- The parts that WID selects (R174). -/
def widPart (l : LaunchSpec) (id sel : Nat) : Nat :=
  if sel ≤ 5 then widField l id sel
  else if sel = 6 then id % 2 ^ (itemBits l)
  else if sel = 7 then id / 2 ^ (itemBits l) % 2 ^ (teamBits l)
  else if sel = 8 then id / 2 ^ (itemBits l + teamBits l) % 2 ^ (specBits l - itemBits l - teamBits l)
  else 0

/-- An absent launch's header: nothing declared. -/
def noSpec : LaunchSpec where
  code := nullCap
  actorsC := nullCap
  args := nullCap
  notify := nullCap
  widths := []
  teamLv := 0
  arcLv := 0
  entry := 0
  fault := 0xFF
  prio := 0
  tiles := 0
  barriers := 0
  spill := 0
  trap := 0xFFFFFFFF
  window := 0
  vec := 0
  savrec := 0
  ovkib := 0
  dies := 0
  supv := false
  scbchk := false
  ovcap := nullCap
  table := []

/-- The header of a launch. -/
def State.spec (s : State) (launch : Nat) : LaunchSpec := ((s.launch? launch).map (·.spec)).getD noSpec

/-- The team identifier: the work identifier of item 0 (R153). -/
def State.teamIdent (s : State) (tm : Team) : Nat := tm.no * 2 ^ itemBits (s.spec tm.launch)

/-- The items of a team (R154). -/
def teamItems (l : LaunchSpec) : Nat := 2 ^ (itemBits l)

/-- An actor of the launch is of a kind (R72, R344). -/
def State.isKind (s : State) (launch a kind : Nat) : Bool := ((s.actor? launch a).map (·.kind)) = some kind

/-! ## Ports (R162, R344) -/

/-- What a queue port is. -/
inductive PortKind where
  | command | result
  | input (actor : Nat)
  | output (bind : BitVec 16)
  | unbound | service | reserved
  deriving DecidableEq, Repr

/-- The KIND code of R166. -/
def PortKind.code : PortKind → Nat
  | .command => 0
  | .result => 1
  | .input _ => 2
  | .output _ => 3
  | .unbound => 4
  | .service => 5
  | .reserved => 6

/-- The kind of port q under an actor table. -/
def portKind (table : List Actor) (q : Nat) : PortKind :=
  if q = 7 then .reserved
  else if q = 6 then .service
  else if q < 6 then (if q % 2 = 0 then .command else .result)
  else
    let i := q - 8
    match (List.range table.length).find? fun a => (table[a]?.map (·.inmask.getLsbD i)).getD false with
    | some a => .input a
    | none =>
      match table.find? (·.outmask.getLsbD i) with
      | some a => if (a.binds.getD i 0).getLsbD 15 then .output (a.binds.getD i 0) else .unbound
      | none => .unbound

/-- The kind of a port of the executing thread's team. -/
def State.myPort (s : State) (q : QPort) : PortKind := portKind (s.spec s.th.launchId).table q.val

/-- The core that a binding names (R344): the same, the next clockwise, the next anticlockwise. -/
def bindCore (core : Nat) (b : BitVec 16) : Nat :=
  let w := bitsOf 14 13 b.toNat
  core / 16 * 16 + (core % 16 + (if w = 1 then 1 else if w = 2 then 15 else 0)) % 16

/-- The input port that a binding names. -/
def bindPort (b : BitVec 16) : Nat := 8 + bitsOf 12 10 b.toNat

/-- The resident team that a team's output port is bound to. -/
def State.bindTeam (s : State) (tm : Team) (b : BitVec 16) : Option Team :=
  if bitsOf 14 13 b.toNat = 3 then none
  else
    (s.teams.find? fun t =>
      t.2.launch = tm.launch && t.2.core = bindCore tm.core b && t.2.slot = tm.slot).map (·.2)

def Team.elems (t : Team) (q : Nat) : List Element := smGet [] t.ports q

def Team.setElems (t : Team) (q : Nat) (l : List Element) : Team := { t with ports := smPut t.ports q l }

/-- A light handler keeps the element of a port behind its first `n` ones from every DEQ and DEQN (R167): its firing is not done, or it
is armed and one of those elements, or the element itself, is a control value. -/
def Team.holdsBack (t : Team) (q n : Nat) : Bool :=
  t.lhBusy.contains q || ((smFind t.lh q).isSome && ((t.elems q).take (n + 1)).any (·.ctl))

/-- The places of an input port (R162). -/
def portPlaces : Nat := 16

/-- The free places of an output port: none while its target is not resident. -/
def State.outPlaces (s : State) (tm : Team) (b : BitVec 16) : Nat :=
  match s.bindTeam tm b with
  | some t => portPlaces - (t.elems (bindPort b)).length
  | none => 0

/-! ## Tasks that ports make (R156, R167) -/

/-- Control values that are the oldest element of a port with an armed light handler become tasks, while there is room
(R155, R167). -/
def State.lightTasks (s : State) (key q : Nat) : Nat → State
  | 0 => s
  | f + 1 =>
    match smFind s.teams key with
    | none => s
    | some tm =>
      match smFind tm.lh q, tm.elems q with
      | some a, e :: rest =>
        if e.ctl && s.room tm.core then
          let t : Task :=
            { launch := tm.launch, team := tm.no, actor := a, kind := 2,
              words := eight [e.data, BitVec.ofNat 64 q, BitVec.ofNat 64 rest.length], workid := e.workid, depth := 0,
              port := some q, record := none }
          let s := s.setTeam { tm.setElems q rest with lhBusy := q :: tm.lhBusy }
          (s.pushTask tm.core (s.launchPrio tm.launch) t).lightTasks key q f
        else s
      | _, _ => s

/-- A firing of an actor in a team is queued, running, parked or parked out. -/
def State.actorBusy (s : State) (tm : Team) (a : Nat) : Bool :=
  (s.queue tm.core).any (fun e =>
    match e.item with
    | .task t => t.launch = tm.launch && t.team = tm.no && t.actor = a
    | .items _ => false) ||
  s.threads.any (fun t =>
    match t.2.firing with
    | some f => f.launch = tm.launch && f.team = tm.no && f.actor = a
    | none => false) ||
  s.saved.any fun v =>
    match v.thread.firing with
    | some f => f.launch = tm.launch && f.team = tm.no && f.actor = a
    | none => false

/-- Every input port of a stage actor holds at least its rate (R156). -/
def actorReady (a : Actor) (tm : Team) : Bool :=
  a.kind = 1 && a.inmask ≠ 0 &&
    (List.range 8).all fun i => !a.inmask.getLsbD i || (tm.elems (8 + i)).length > bitsOf (4 * i + 3) (4 * i) a.rate.toNat

/-- The stage actors of a team that may fire are queued, while there is room (R155, R156). DESIGN CHOICE: of those that become ready at one moment
the lowest number comes first, behind the tasks of light handlers (log 95). -/
def State.stageTasks (s : State) (key : Nat) : State :=
  match smFind s.teams key with
  | none => s
  | some tm =>
    let table := (s.spec tm.launch).table
    (List.range table.length).foldl
      (fun s a =>
        match table[a]? with
        | some act =>
          if actorReady act tm && !s.actorBusy tm a && s.room tm.core then
            let id := BitVec.ofNat 64 (s.teamIdent tm)
            s.pushTask tm.core (s.launchPrio tm.launch)
              { launch := tm.launch, team := tm.no, actor := a, kind := 1,
                words := eight [id, BitVec.ofNat 64 (smGet 0 tm.counts a)], workid := id, depth := 0, port := none,
                record := none }
          else s
        | none => s) s

/-- What a change of a port sets off. -/
def State.portChanged (s : State) (key q : Nat) : State := (s.lightTasks key q 32).stageTasks key

/-! ## The start of a firing (R81, R153) -/

/-- R31. -/
def lfsrSeed (g1 : Word) : BitVec 32 :=
  let x := BitVec.ofNat 32 g1.toNat ^^^ BitVec.ofNat 32 (g1.toNat / 2 ^ 32) ^^^ 0x6A09E667
  if x = 0 then 1 else x

/-- The rights of c2 and c3, and of the arcade window (R185, R186). -/
def sliceRights : Nat := rR + rW + rC + rS + rA + rG

/-- SPOV of a context at placement (R348): its part of the overflow region. -/
def overflowPart (l : LaunchSpec) (tid : Nat) : Cap :=
  let len := l.ovkib * 1024
  let lo := capBase l.ovcap + tid * len
  if l.ovcap.tag && lo + len ≤ capTop l.ovcap then
    match regionOf lo (lo + len) with
    | some (e, nb, nt) => capSetRegion (capSetOff l.ovcap lo) e nb nt
    | none => nullCap
  else nullCap

/-- The registers kept for a launch and context (R348). -/
def Launch.regsOf (l : Launch) (tid : Nat) : LaunchRegs :=
  (smFind l.regs tid).getD
    ⟨BitVec.ofNat 64 ((if l.spec.supv then 4 else 0) + (if l.spec.scbchk then 1 else 0)), overflowPart l.spec tid, 0, 0⟩

/-- The bounds of c3 (R347). -/
def State.sliceCap (s : State) (core : Nat) : Cap := capOver (s.sliceObj core) 8192 (sliceUse core) 8192 sliceRights

/-- c2: the team's region, which lies on multiples of 128 bytes, with exponent 7 (R346). -/
def State.regionCap (s : State) (tm : Team) : Cap :=
  let sp := s.spillOf tm.core
  let lo := regionOff tm.core sp tm.slot
  capSetRegion (capMake 0 0 lo (s.sliceObj tm.core) 0 0 0 sliceRights true) 7 lo (lo + regionSize tm.core sp)

/-- c15: the stack of a context's carve-out, with its offset at the top (R128). -/
def State.stackCap (s : State) (tid : Nat) : Cap :=
  let core := tid / 8
  let sp := s.spillOf core
  let lo := carveOff core sp (tid % 8)
  capOver (s.sliceObj core) (lo + sp / 4) (lo + sp) (lo + sp) (rR + rW + rC + rS)

/-- ARCW: the window of the team's arcade (R186). -/
def State.arcadeCap (s : State) (tm : Team) : Cap :=
  let (d, w) := s.teamWin tm.launch tm.no
  capOver (s.windowObj d w) 0 (memberCount (s.windowClusters d w) * 2 ^ 18) 0 sliceRights

/-- The g registers of a list of words, g1 first. -/
def gregs (ws : List Word) : SMap Word := (List.range ws.length).map fun i => (i + 1, ws.getD i 0)

/-- A context starts the firing of a task in a resident team, where the task of a copy comes with the element of the copy on q3
(R282). Stores of earlier firings stay to be performed. -/
def State.startFiring (s : State) (tid : Nat) (tm : Team) (k : Task) (prio : Nat) : State :=
  match s.launch? k.launch with
  | none => s
  | some l =>
    let old := s.thread tid
    let r := l.regsOf tid
    let act := (l.spec.table[k.actor]?).map (·.handler)
    let th : Thread :=
      { Thread.init with
        g := gregs k.words
        c := [(1, l.spec.args), (2, s.regionCap tm), (3, s.sliceCap (tid / 8)), (15, s.stackCap tid)]
        pcc := capSetOff l.spec.code (act.getD 0)
        tctl := r.tctl
        spov := r.spov
        dba0 := r.dba0
        dba1 := r.dba1
        workid := k.workid
        xferid := k.copied.getD 0
        held := (k.copied.map fun w => [⟨3, [w]⟩]).getD []
        lfsr := lfsrSeed (k.words.getD 0 0)
        arcw := s.arcadeCap tm
        eprio := prio
        status := .running
        wgGen := old.wgGen
        stores := old.stores
        firing := some ⟨s.serial, k.launch, k.team, k.actor, k.kind, prio, k.port, k.record, none⟩ }
    let s := s.setThread tid th
    let s :=
      if k.kind = 1 then s.setTeam { tm with counts := smPut tm.counts k.actor (smGet 0 tm.counts k.actor + 1) } else s
    { s with serial := s.serial + 1 }

/-- The task of a team's next item (R153, R156). -/
def State.itemTask (s : State) (tm : Team) : Task :=
  let l := s.spec tm.launch
  let id := BitVec.ofNat 64 (s.teamIdent tm + tm.next)
  { launch := tm.launch, team := tm.no, actor := l.entry, kind := 0,
    words := eight [id, BitVec.ofNat 64 tm.next, BitVec.ofNat 64 tm.items], workid := id, depth := 0, port := none,
    record := none }

/-! ## Which place starts (R156, R335) -/

/-- The highest priority of a queue. -/
def topPrio (q : List QEntry) : Nat := q.foldl (fun m e => max m e.prio) 0

def QItem.isRecord : QItem → Bool
  | .task t => t.kind = 3
  | .items _ => false

def QItem.depth : QItem → Nat
  | .task t => t.depth
  | .items _ => 0

/-- The place of a record task's record in the order of commitment. -/
def QItem.commit : QItem → Nat
  | .task t => t.commit
  | .items _ => 0

/-- Of several record tasks the deepest; among equals the one committed first (R335). -/
def deepest : List QEntry → Option QEntry
  | [] => none
  | e :: t =>
    match deepest t with
    | some d =>
      some (if d.item.depth > e.item.depth || (d.item.depth = e.item.depth && d.item.commit < e.item.commit) then d else e)
    | none => some e

/-- The place that starts next: the oldest of the highest priority; a record's place goes to the deepest record of that
priority, the one committed first among equals (R156, R335). -/
def nextPlace (q : List QEntry) : Option QEntry :=
  let p := topPrio q
  match q.find? (·.prio = p) with
  | some e => if e.item.isRecord then deepest (q.filter fun x => x.prio = p && x.item.isRecord) else some e
  | none => none

/-- A queued place starts in a free context. DESIGN CHOICE: EPRIO starts as the priority of the place (R81), a task's as R156 has raised it; an
item's is its launch's (log 89). -/
def State.startPlace (s : State) (core tid : Nat) (e : QEntry) : State :=
  let s := s.setQueue core ((s.queue core).erase e)
  match e.item with
  | .task k =>
    match s.team? k.launch k.team with
    | some tm =>
      let s := s.startFiring tid tm k e.prio
      match k.record with
      | some (qid, slot) =>
        match s.wq? qid with
        | some w => (s.setWq { w with slots := smDel w.slots slot, disp := w.disp + 1 }).wqUsed qid 1
        | none => s
      | none => s
    | none => s
  | .items key =>
    match smFind s.teams key with
    | some tm =>
      let s := (s.startFiring tid tm (s.itemTask tm) (s.launchPrio tm.launch)).setTeam { tm with next := tm.next + 1 }
      if tm.next + 1 < tm.items then s.setQueue core (s.queue core ++ [⟨s.launchPrio tm.launch, .items key⟩]) else s
    | none => s

end Sys2Proof.Machine
end

