-- ==== Sys2Proof/Machine/Engines.lean ====
section
/-!
DEFINITION. The command queues of a core's engines and the pushes into them (spec/19_matrix.md R258, spec/21_streamer.md
R277, spec/23_traversal.md R295), result elements (R162), and the landing of bytes at a barrier (R171, R172).
-/

namespace Sys2Proof.Machine

/-! ## Barriers (R170 to R172) -/

/-- A 48-bit signed count (R170). -/
def wrap48 (z : Int) : Int := signedNat 48 (wrapNat 48 z)

/-- The test of R172, repeated. -/
def barrierTest : Nat → Barrier → Barrier
  | 0, b => b
  | f + 1, b =>
    if b.arrived = b.expect && b.expect > 0 && b.bytes = 0 then
      barrierTest f
        { b with phase := b.phase + 1, expect := b.expect - b.leave, leave := 0, arrived := b.next, next := 0 }
    else b

/-- A barrier as team placement leaves it (R170). -/
def freshBarrier (items : Nat) : Barrier := ⟨0, items, 0, 0, 0, 0⟩

def Team.bar (t : Team) (i : Nat) : Barrier := smGet (freshBarrier t.items) t.bars i

/-- The team with a barrier changed and tested. -/
def Team.putBar (t : Team) (i : Nat) (b : Barrier) : Team := { t with bars := smPut t.bars i (barrierTest 4 b) }

/-- Landed bytes are reported to a barrier of a team (R171, R281). -/
def State.landBytes (s : State) (launch team i n : Nat) : State :=
  match s.team? launch team with
  | some t => s.setTeam (t.putBar i { t.bar i with bytes := wrap48 ((t.bar i).bytes - n) })
  | none => s

/-- The phase that a register names has passed (R173). -/
def phasePassed (b : Barrier) (g : Word) : Bool :=
  let d := (b.phase - BitVec.ofNat 32 g.toNat).toNat
  1 ≤ d && d < 2 ^ 31

/-! ## Result elements (R162) -/

/-- The firing runs, in a context or saved: where its thread is kept. -/
def State.giveThread (s : State) (firing : Nat) (f : Thread → Thread) : State :=
  match s.firingCtx firing with
  | some t => s.setThread t (f (s.thread t))
  | none =>
    { s with
      saved := s.saved.map fun v =>
        if (v.thread.firing.map (·.id)) = some firing then { v with thread := f v.thread } else v }

/-- A result element is delivered to the firing that issued the command; one for a firing that has ended is discarded. -/
def State.deliver (s : State) (o : Origin) (port : Nat) (w : Word) : State :=
  s.giveThread o.firing fun t => { t with held := t.held ++ [⟨port, [w]⟩] }

/-! ## Matrix commands (R258) -/

def State.matrixOf (s : State) (core : Nat) : MUnit := smGet MUnit.empty s.matrix core

def State.setMatrix (s : State) (core : Nat) (u : MUnit) : State := { s with matrix := smPut s.matrix core u }

/-- The free places of the matrix command queue. -/
def State.matrixRoom (s : State) (core : Nat) : Nat := 2 - (s.matrixOf core).queue.length

/-- A command joins the matrix queue of the origin's core. -/
def State.pushMatrix (s : State) (o : Origin) (b : MBody) : State :=
  let u := s.matrixOf o.core
  { s.setMatrix o.core { u with queue := u.queue ++ [⟨s.serial, o, b⟩] } with serial := s.serial + 1 }

/-! ## Streamer commands (R277) -/

/-- The free places of a core's streamer queue. -/
def State.streamRoom (s : State) (core : Nat) : Nat :=
  8 - (s.xfers.filter fun x => x.org.core = core && x.phase = .queued).length

/-- A streamer command with its number still to be given and nothing moved. -/
def Xfer.fresh (kind : XKind) (o : Origin) : Xfer where
  id := 0
  org := o
  kind := kind
  phase := .queued
  scope := .core
  op := .add
  ordered := false
  elem := .fp32
  seq := 0
  dst := nullCap
  src := nullCap
  idx := none
  ctr := nullCap
  blk := nullCap
  n := 0
  esz := 1
  isz := 4
  list := none
  seen := []
  ctl := 0
  xferid := 0
  flight := []
  landed := []
  reported := 0
  range := 0
  pidx := 0
  pdata := 0
  ovf := false
  reord := false
  merged := []
  parts := none
  pushed := []

/-- A command joins the streamer's queue. -/
def State.pushXfer (s : State) (x : Xfer) : State :=
  { s with xfers := s.xfers ++ [{ x with id := s.serial }], serial := s.serial + 1 }

def State.xfer? (s : State) (id : Nat) : Option Xfer := s.xfers.find? (·.id = id)

def State.putXfer (s : State) (x : Xfer) : State :=
  { s with xfers := s.xfers.map fun y => if y.id = x.id then x else y }

def State.dropXfer (s : State) (id : Nat) : State := { s with xfers := s.xfers.filter (·.id ≠ id) }

/-- The commands of a core that occupy a running place (R277). -/
def State.streamRunning (s : State) (core : Nat) : Nat :=
  (s.xfers.filter fun x =>
    x.org.core = core && x.phase = .running && x.kind ≠ .marker && !(x.kind = .send && x.reported > 0)).length

/-- The streamer of a core starts commands in push order while fewer than 8 run; a marker that reaches the head leaves the
queue (R277). -/
def State.streamStart (s : State) (core : Nat) : Nat → State
  | 0 => s
  | f + 1 =>
    match s.xfers.find? fun x => x.org.core = core && x.phase = .queued with
    | none => s
    | some x =>
      if x.kind = .marker || s.streamRunning core < 8 then (s.putXfer { x with phase := .running }).streamStart core f
      else s

/-- A command is pushed and the streamer starts what it can. -/
def State.pushStream (s : State) (x : Xfer) : State := (s.pushXfer x).streamStart x.org.core 16

/-! ## Traversal commands (R295) -/

/-- The free places of a core's traversal buffer. -/
def State.travRoom (s : State) (core : Nat) : Nat :=
  4 - (s.travs.filter fun c => c.org.core = core && !c.running).length

/-- A command joins the traversal buffer of the origin's core. -/
def State.pushTrav (s : State) (o : Origin) (b : TBody) : State :=
  { s with travs := s.travs ++ [⟨s.serial, o, b, false, false, none, none⟩], serial := s.serial + 1 }

/-! ## Pushes by the executing thread -/

/-- The free places of a command port of a core. -/
def State.commandRoom (s : State) (core q : Nat) : Nat :=
  if q = 0 then s.matrixRoom core else if q = 2 then s.streamRoom core else s.travRoom core

/-- The command queue that a parked bundle waits for (R158): an ENQ and an engine instruction wait for one queue in one order. -/
def ParkWhy.queue? : ParkWhy → Option Nat
  | .port q => some q
  | .engine q => some q
  | .fire _ _ | .bwait | .falign _ | .ldver _ _ _ | .stver _ | .cntw _ _ _ | .mwait _ | .waiti | .absent _ _ _ _
  | .ship _ _ => none

/-- Contexts of the core that parked on a command port before the executing bundle did: they are served first (R158). -/
def State.pushersBefore (s : State) (q : Nat) : Nat :=
  (s.threads.filter fun t =>
    t.1 ≠ s.cur.tid && t.2.firing.isSome && t.1 / 8 = s.origin.core &&
      match t.2.status with
      | .parked p => p.why.queue? = some q && p.order < s.cur.since.getD s.serial
      | .free | .running | .travelling _ | .travelQueued | .travelAbroad _ _ => false).length

/-- A command port of the executing thread has a place that no earlier waiter takes. -/
def State.engineFree (s : State) (q : Nat) : Bool := s.commandRoom s.origin.core q > s.pushersBefore q

/-- A push by an engine instruction: it releases the thread's earlier stores (R181, R190), and parks or takes trap 0x0A
while the queue is full (R158, R159). -/
def enginePush (q : Nat) (f : State → Origin → State) : M Unit := do
  let s ← get
  if !s.engineFree q then parkOr (.engine q)
  else
    drainMine
    modify fun s => f s s.origin

/-- A marker pushed by ENQ to q0, q2 or q4. -/
def State.pushMarker (s : State) (q : Nat) (v : Word) : State :=
  if q = 0 then s.pushMatrix s.origin (.marker v)
  else if q = 2 then s.pushStream { Xfer.fresh .marker s.origin with xferid := v }
  else s.pushTrav s.origin (.marker v)

end Sys2Proof.Machine
end

