-- ==== Sys2Proof/Machine/Legal.lean ====
section
/-!
DEFINITION. What makes a bundle illegal beyond its encoding: the parts of trap 0x01 that the team and the mode decide, and
trap 0x13 for a tile specifier beyond the team's allocation (spec/03_encoding.md R38, R53 to R55; spec/11_one_core.md R162,
R164, R167; spec/19_matrix.md R262; spec/27_launch.md R358).
-/

namespace Sys2Proof.Machine

/-- The TVAL of trap 0x01 with the base word as the offending word (R53). -/
def Cur.bad (c : Cur) (reason : Nat) : Word :=
  BitVec.ofNat 64 (reason * 2 ^ 20 + (c.words - 1) % 8 * 2 ^ 16 + c.base.toNat)

/-- A cause and a TVAL, where a bundle is illegal. -/
abbrev Illegal := Option (Nat × Word)

def State.illegal (s : State) (reason : Nat) : Illegal := some (0x01, s.cur.bad reason)

/-- The port is a stage output of the team. -/
def PortKind.isOutput : PortKind → Bool
  | .output _ => true
  | .command | .result | .input _ | .unbound | .service | .reserved => false

/-- The port is a stage input of the team. -/
def PortKind.isInput : PortKind → Bool
  | .input _ => true
  | .command | .result | .output _ | .unbound | .service | .reserved => false

/-- A push to a port (R162, R164). -/
def State.pushIllegal (s : State) (ctl : Bool) (q : QPort) : Illegal :=
  if ctl && !(s.myPort q).isOutput then s.illegal 3
  else
    match s.myPort q with
    | .command => none
    | .output _ => none
    | .service => if s.th.sup then none else s.illegal 6
    | .result => s.illegal 5
    | .input _ => s.illegal 5
    | .unbound => s.illegal 5
    | .reserved => s.illegal 5

/-- A pop from a port (R162). -/
def State.popIllegal (s : State) (q : QPort) : Illegal :=
  match s.myPort q with
  | .result => none
  | .input _ => none
  | .service => if s.th.sup then none else s.illegal 6
  | .command => s.illegal 5
  | .output _ => s.illegal 5
  | .unbound => s.illegal 5
  | .reserved => s.illegal 5

/-- QCNT and QCTL report every port of q0 to q5 and q7 to q15; q6 belongs to supervisor code (R162, R166). -/
def State.askIllegal (s : State) (q : QPort) : Illegal :=
  if q = 6 && !s.th.sup then s.illegal 6 else none

/-- QLH arms a stage input (R167). -/
def State.lightIllegal (s : State) (q : QPort) : Illegal := if (s.myPort q).isInput then none else s.illegal 5

/-- A barrier of the team's allocation (R38). -/
def State.barIllegal (s : State) (b : BReg) : Illegal :=
  if b.val < (s.spec s.th.launchId).barriers then none else s.illegal 5

/-- A tile of the team's allocation (R38, R262). -/
def State.tileIllegal (s : State) (t : TReg) : Illegal :=
  if t.val < ((s.myTeam.map (·.tiles)).getD []).length then none
  else some (0x13, BitVec.ofNat 64 (2 ^ 63 + t.val))

/-- A supervisor instruction (R55). -/
def State.supIllegal (s : State) : Illegal := if s.th.sup then none else s.illegal 6

/-- ERET outside a trap handler (R358). -/
def State.eretIllegal (s : State) : Illegal := if s.th.intrap then none else s.illegal 0

/-- The checks of R54, items 3 and 4, that a meaning makes. -/
def lawful (f : State → Illegal) : M Unit := do
  match f (← get) with
  | some (cause, tval) => trap cause tval
  | none => pure ()

/-- The traps of R54, items 3 and 4, that the team and the mode decide for an instruction; the others are decoding's. -/
def State.legal (s : State) : Instr → Illegal
  | .ill word code => some (0x01, BitVec.ofNat 64 (7 * 2 ^ 20 + word.val * 2 ^ 16 + code.toNat))
  | .enq ctl _ q => s.pushIllegal ctl q
  | .enqn ctl _ _ q => s.pushIllegal ctl q
  | .deq _ q _ => s.popIllegal q
  | .deqn _ _ q _ => s.popIllegal q
  | .qcnt _ q => s.askIllegal q
  | .qctl _ q _ => s.askIllegal q
  | .qctlDiscard _ q => s.askIllegal q
  | .qctlDisarm _ q => s.askIllegal q
  | .qlh q _ => s.lightIllegal q
  | .arrive _ _ b => s.barIllegal b
  | .arrb _ _ b _ => s.barIllegal b
  | .bwait _ b => s.barIllegal b
  | .bwaitn _ _ b => s.barIllegal b
  | .mma _ t _ _ _ => s.tileIllegal t
  | .mmas _ t _ _ _ => s.tileIllegal t
  | .mepi _ _ _ t _ _ => s.tileIllegal t
  | .mepirp t => s.tileIllegal t
  | .mzero t => s.tileIllegal t
  | .mrel t => s.tileIllegal t
  | .mstat _ t => s.tileIllegal t
  | .mstatc _ t => s.tileIllegal t
  | .mwait t => s.tileIllegal t
  | .eret => s.eretIllegal
  | .objinv _ _ _ => s.supIllegal
  | .mwr _ _ => s.supIllegal
  | .mrd _ => s.supIllegal
  | .launch _ _ _ => s.supIllegal
  | .close _ _ => s.supIllegal
  | .closeResume _ => s.supIllegal
  | .closeCancel _ => s.supIllegal
  | .ctxsv _ _ => s.supIllegal
  | .ctxld _ _ => s.supIllegal
  | .waiti => s.supIllegal
  | _ => none

end Sys2Proof.Machine
end

