-- ==== Sys2Proof/Machine/Save.lean ====
section
/-!
DEFINITION. Parked contexts: whether their event has come (spec/11_one_core.md R158, R160), and the saving and restoring of
contexts (R46, R123, R160; spec/27_launch.md R350, R358).
-/

namespace Sys2Proof.Machine

/-! ## Has the event come (R158) -/

/-- The status word of a tile (R254). -/
def State.tileStatus (s : State) (core t : Nat) : Word := ((smGet Tile.clear (s.matrixOf core).tiles t)).status

/-- The team of a thread's firing. -/
def State.teamOf (s : State) (th : Thread) : Option Team := s.team? th.launchId th.teamNo

/-- The physical tile of a tile register of a thread's team; a number beyond the core's tiles for one that is not
allocated. -/
def State.physTile (s : State) (th : Thread) (t : TReg) : Nat := (((s.teamOf th).map (·.tiles)).getD []).getD t.val 16

/-- The port that a parked bundle waits for has what it needs. -/
def State.portReady (s : State) (th : Thread) (core q : Nat) : Bool :=
  match portKind (s.spec th.launchId).table q with
  | .command => s.commandRoom core q > 0
  | .result => th.held.any (·.port = q)
  | .service => th.held.any (·.port = q)
  | .input _ =>
    match s.teamOf th with
    | some tm => tm.elems q ≠ [] && !tm.holdsBack q 0
    | none => false
  | .output b => ((s.teamOf th).map (s.outPlaces · b)).getD 0 > 0
  | .unbound => true
  | .reserved => true

/-- The barrier that a parked BWAIT names has passed the phase. -/
def State.barReady (s : State) (th : Thread) : Instr → Bool
  | .bwait g b =>
    match s.teamOf th with
    | some tm => phasePassed (tm.bar b.val) ((th.settle [.g g]).rg g)
    | none => false
  | _ => true

/-- The version wanted is current or older: an LDVER would not park (R178). -/
def State.verReady (s : State) (addr : Nat) (want : BitVec 32) : Bool := !newer want (s.verAt addr).version

/-- The awaited event of a parked context has come; what another module answers is open (log 5). -/
def State.parkReady (s : State) (th : Thread) (core : Nat) (p : Park) : Bool :=
  match p.why with
  | .port q => s.portReady th core q
  | .engine q => s.commandRoom core q > 0
  | .fire dest _ => s.room dest
  | .bwait => s.barReady th p.bundle.instr
  | .falign _ => true
  | .ldver addr want _ => p.woken.isSome || isForeign addr || s.verReady addr want
  | .stver addr => isForeign addr || (s.verAt addr).rcl || !s.bufFull addr
  | .cntw addr thr _ => p.woken.isSome || isForeign addr || decide ((s.homeWord addr).toInt ≤ thr.toInt)
  | .mwait t => !bitW 2 (s.tileStatus core t)
  | .waiti => taskCount (s.queue core) > 0
  | .absent _ _ _ _ => false
  | .ship die _ => (s.shipQueue die).length < 64

/-! ## Context records (R350) -/

/-- The STATE field of a record: 1 between bundles, 2 parked, 3 parked absent, 4 travelling. -/
def CtxState.recordState : CtxState → Nat
  | .free => 1
  | .running => 1
  | .parked p =>
    match p.why with
    | .absent _ _ _ _ => 3
    | .port _ | .engine _ | .fire _ _ | .bwait | .falign _ | .ldver _ _ _ | .stver _ | .cntw _ _ _ | .mwait _ | .waiti
    | .ship _ _ => 2
  | .travelling _ => 4
  | .travelQueued => 4
  | .travelAbroad _ _ => 4

/-- The number that a record's CHECK is made from: the order in which records are written. -/
def recordBytes (n core ctx state : Nat) (workid : Word) (pc : Nat) : List Byte :=
  leBytes 4 0x43580001 ++ leBytes 2 core ++ leBytes 1 ctx ++ leBytes 1 state ++ leBytes 8 workid.toNat ++ leBytes 8 pc ++
    leBytes 4 (Config.recordCheck n).toNat ++ leBytes 28 0 ++ leBytes 8 0

/-- A thread as a record holds it (R46, R123, R124): a macro in progress is recorded in MCX, and goes on there when the
thread is restored. Stores stay with the context that issued them. -/
def Thread.recorded (t : Thread) : Thread := { t with mcx := (t.run.map mcxAt).getD t.mcx, stores := [] }

/-- Wait-table entries of a context are withdrawn (R160). -/
def State.withdraw (s : State) (tid : Nat) : State := { s with waits := s.waits.filter (·.tid ≠ tid) }

/-- The record of a thread of a context: the header of R350, and device-defined bytes, which are free values. -/
def State.recordOf (s : State) (th : Thread) (tid : Nat) : List Byte × State :=
  let hdr := recordBytes s.serial (tid / 8) (tid % 8) th.status.recordState th.workid th.pc
  let (rest, s) := s.freeBytes 4032
  (hdr.take 64 ++ rest, { s with serial := s.serial + 1 })

/-- The slice home of entry `i` of the return area of a context's carve-out (R128). -/
def State.spillSlot (s : State) (tid i : Nat) : Nat :=
  sliceAddr (tid / 8) (carveOff (tid / 8) (s.spillOf (tid / 8)) (tid % 8) + 16 * i)

/-- The spilled entries of a thread's return-address store that lie in its context's carve-out (R116, R123): bytes, tag and poison. -/
def State.spilled (s : State) (tid : Nat) : List (List Byte × Bool × Bool) :=
  (List.range (min (s.thread tid).area (s.spillOf (tid / 8) / 64))).map fun i =>
    let a := s.spillSlot tid i
    (memBytes s.mem a 16, s.tagAt a, s.poisoned a 16)

/-- A spilled entry written at a home address for a core: bytes, tag and poison. -/
def State.putSpill (s : State) (core a : Nat) (e : List Byte × Bool × Bool) : State :=
  let s := s.homeWrite core a e.1
  let s := if e.2.1 then s.setTag a else s
  if e.2.2 then s.poisonAt a else s

/-- The spilled entries are written to the return area of the carve-out of the context that goes on with the thread (R123). -/
def State.respill (s : State) (tid : Nat) (l : List (List Byte × Bool × Bool)) : State :=
  ((l.take (s.spillOf (tid / 8) / 64)).zipIdx).foldl (fun s p => s.putSpill (tid / 8) (s.spillSlot tid p.2) p.1) s

/-- The home address of entry `i` of an overflow area, for an access that needs a right, where SPOV covers it and its page lies in this
module (R116, R129). -/
def State.overflowSlot (s : State) (core : Nat) (spov : Cap) (i need : Nat) : Option Nat :=
  match capCheck spov need (capOff spov + 16 * i : Nat) 16 16 with
  | some _ => none
  | none =>
    match (s.translate core (capObj spov) (capOff spov + 16 * i) (if need = rR then rR else rW)).1 with
    | .home a _ => if isForeign a then none else some (followRedirects s.redirects a)
    | .bad | .absent | .noPerm _ _ => none

/-- What a save of a thread keeps of entry `i` that it spilled through SPOV (R116, R123). DESIGN CHOICE: an entry whose page is absent, or in
another module, is left where it is and reloaded through the SPOV that spilled it (log 91). -/
def State.keepSpill (s : State) (core : Nat) (spov : Cap) (i : Nat) : Spilt :=
  match s.overflowSlot core spov i rR with
  | some a => .read (memBytes s.mem a 16) (s.tagAt a) (s.poisoned a 16)
  | none => .behind spov

/-- The entries, by number, that a thread spilled through SPOV, as its record holds them (R116, R123): those that an earlier save kept, and
those behind its SPOV. -/
def State.spillsKept (s : State) (tid : Nat) : SMap Spilt :=
  let t := s.thread tid
  ((List.range (min t.ovr ((capTop t.spov - capOff t.spov) / 16).toNat)).filter fun i => (smFind t.kept i).isNone).foldl
    (fun m i => smPut m i (s.keepSpill (tid / 8) t.spov i)) t.kept

/-- SPOV of a saved thread in the context that goes on with it. DESIGN CHOICE: the one that the device keeps there for its launch (R348), since
the one of the context which it left serves the firings that run there now; the entries it spilled before are in its record (log 91). -/
def State.spovFor (s : State) (tid : Nat) (t : Thread) : Cap :=
  ((s.launch? t.launchId).map fun r => (r.regsOf tid).spov).getD t.spov

/-- A thread that was shipped comes back to the context that is its place, to be saved from there (R123, R243). -/
def State.toPlace (s : State) (tid : Nat) : State :=
  let h := (s.thread tid).place tid
  if h = tid then s else s.bringHome h tid (s.thread tid).status

/-- A context's thread leaves it for a record, and the context is free, with the one that a shipped thread came from. -/
def State.detach (s : State) (how : SavedBy) (tid key addr : Nat) (image : List Byte) : State :=
  let h := (s.thread tid).place tid
  let s := (s.withdraw tid).toPlace tid
  let v : Saved :=
    { how := how, tid := tid, team := key, addr := addr, image := image, thread := { (s.thread h).recorded with kept := s.spillsKept h },
      spills := s.spilled h, ready := false, fault := false }
  let s := s.setThread h (s.thread h).vacate
  { s with saved := s.saved ++ [v] }

/-- A context is saved to a record of 4,096 bytes at a home address, and is freed. -/
def State.saveContext (s : State) (how : SavedBy) (tid key addr : Nat) : State :=
  let s := s.drain tid
  let (b, s) := s.recordOf (s.thread tid) tid
  (s.homeWrite (tid / 8) addr b).detach how tid key addr []

/-- The save area's address of record r (R350). -/
def recordAddr (a : SaveArea) (tiles r : Nat) : Nat := a.base + 16384 + 4352 * tiles + 4096 * r

/-- The lowest free record of a save area. -/
def SaveArea.free (a : SaveArea) : Option Nat := firstFrom (fun r => !a.used.contains r) 0 a.records

/-- A context is saved to a record of its team's save area; `keep` records must stay free afterwards (R350). -/
def State.saveToArea (s : State) (how : SavedBy) (tid keep : Nat) : Option State :=
  match s.teamOf (s.thread tid) with
  | none => none
  | some tm =>
    match tm.area.free with
    | none => none
    | some r =>
      if tm.area.used.length + 1 + keep ≤ tm.area.records then
        let s := s.setTeam { tm with area := { tm.area with used := r :: tm.area.used } }
        some (s.saveContext how tid tm.key (recordAddr tm.area tm.tiles.length r))
      else none

/-- A team's record is given back. -/
def State.freeRecord (s : State) (v : Saved) : State :=
  match smFind s.teams v.team with
  | some tm =>
    let lo := recordAddr tm.area tm.tiles.length 0
    if v.how ≠ .ctxsv && lo ≤ v.addr then
      s.setTeam { tm with area := { tm.area with used := tm.area.used.filter (· ≠ (v.addr - lo) / 4096) } }
    else s
  | none => s

/-- A saved thread is restored into a free context (R46, R123, R160, R242): it runs at its saved bundle; a parked bundle executes
again; a thread marked by OBJINV with FAIL takes trap 0x08 with the values that R240 recorded. The stores that the context's last firing
left are performed before the entries of the return-address store are put back (R123). -/
def State.restore (s : State) (v : Saved) (tid : Nat) : State :=
  let s := s.freeRecord v
  let s := { s with saved := s.saved.erase v }.drain tid
  let th :=
    { v.thread with
      status := .running
      stores := []
      firing := v.thread.firing.map fun f => { f with home := none }
      spov := s.spovFor tid v.thread }
  let s := (s.setThread tid th).respill tid v.spills
  if v.fault then
    match v.thread.status with
    | .parked p =>
      match p.why with
      | .absent _ _ _ tval => (s.setThread tid (th.passed p.bundle)).takeTrap tid 0x08 th.pc tval
      | .port _ | .engine _ | .fire _ _ | .bwait | .falign _ | .ldver _ _ _ | .stver _ | .cntw _ _ _ | .mwait _
      | .waiti | .ship _ _ => s
    | .free | .running | .travelling _ | .travelQueued | .travelAbroad _ _ => s
  else s

/-- The event that a saved context of a team on a core waits for has come (R160). -/
def State.occurred (s : State) (core : Nat) (v : Saved) : Bool :=
  v.ready || v.fault ||
    match v.thread.status with
    | .parked p => s.parkReady v.thread core p
    | .free | .running | .travelling _ | .travelQueued | .travelAbroad _ _ => true

/-- The cores watch for the events of parked-out contexts: one that has occurred is kept, whatever becomes of it afterwards (R160). -/
def State.watchSaved (s : State) : State :=
  { s with
    saved := s.saved.map fun v =>
      match smFind s.teams v.team with
      | some tm => { v with ready := s.occurred tm.core v && v.how ≠ .ctxsv }
      | none => v }

/-- The parked-out contexts of teams on a core whose event has come, in the order of parking out, in which they start. DESIGN CHOICE: R156 gives
them no order (R160; log 95). -/
def State.eligible (s : State) (core : Nat) : List Saved :=
  s.saved.filter fun v =>
    match smFind s.teams v.team with
    | some tm => v.how ≠ .ctxsv && tm.core = core && s.occurred core v
    | none => false

/-- What a free context of a core starts next (R156): the first eligible parked-out context whose priority is at least that of
every queued task, else a queued place. DESIGN CHOICE: the priority of a parked-out context is that of the place with which its firing
started, a task's as raised (log 95). -/
def State.startNext (s : State) (core tid : Nat) : State :=
  let q := s.queue core
  match (s.eligible core).find? fun v => q = [] || ((v.thread.firing.map (·.prio)).getD 0) ≥ topPrio q with
  | some v => s.restore v tid
  | none =>
    match nextPlace q with
    | some e => s.startPlace core tid e
    | none => s

end Sys2Proof.Machine
end

