-- ==== Sys2Proof/Machine/Queue.lean ====
section
/-!
DEFINITION. Queue ports, messages, barriers, WID, PRIO and DONE (spec/11_one_core.md R162 to R175), with the events of one
core that start tasks, raise priorities, park contexts out and accept messages (R156, R160, R168, R173).
-/

namespace Sys2Proof.Machine

/-! ## Pushes and pops (R164, R165) -/

/-- Contexts of the executing thread's team that parked on a port before it did: they are served first (R158). -/
def State.before (s : State) (q : Nat) : Nat :=
  (s.threads.filter fun t =>
    t.1 ≠ s.cur.tid && t.2.launchId = s.th.launchId && t.2.teamNo = s.th.teamNo && t.2.firing.isSome &&
      match t.2.status with
      | .parked p => p.why = .port q && p.order < s.cur.since.getD s.serial
      | .free | .running | .travelling _ | .travelQueued | .travelAbroad _ _ => false).length

/-- A command of the executing thread joins the service port (R230). -/
def State.pushQ6 (s : State) (v : Word) : State :=
  { s with fabric := { s.fabric with q6 := s.fabric.q6 ++ [⟨s.cur.tid, s.origin.firing, v⟩] } }

/-- One element pushed to a port, where it has a free place: a release (R181). DESIGN CHOICE: q6 always has one, since no rule bounds its
commands or the elements of q1, q3, q5 and q6 (R162; log 93). -/
def pushPort (q : QPort) (v : Word) (ctl : Bool) : M Bool := do
  drainMine
  let s ← get
  match s.myPort q with
  | .output b =>
    match s.myTeam with
    | none => return false
    | some tm =>
      match s.bindTeam tm b with
      | none => return false
      | some t =>
        let p := bindPort b
        if (t.elems p).length + s.before q.val < portPlaces then
          set ((s.setTeam (t.setElems p (t.elems p ++ [⟨v, ctl, s.th.workid⟩]))).portChanged t.key p)
          return true
        else return false
  | .command =>
    if s.engineFree q.val then
      set (s.pushMarker q.val v)
      return true
    else return false
  | .service =>
    set (s.pushQ6 v)
    return true
  | .result => return false
  | .input _ => return false
  | .unbound => return false
  | .reserved => return false

/-- The oldest element of a port for the executing firing, popped (R162, R165, R167). -/
def popPort (q : QPort) : M (Option (Word × Bool)) := do
  let s ← get
  match s.myPort q with
  | .input _ =>
    match s.myTeam with
    | none => return none
    | some tm =>
      let l := tm.elems q.val
      match l[s.before q.val]? with
      | some e =>
        if tm.holdsBack q.val (s.before q.val) then return none
        else
          set ((s.setTeam (tm.setElems q.val (l.eraseIdx (s.before q.val)))).portChanged tm.key q.val)
          return some (e.data, e.ctl)
      | none => return none
  | .result | .service =>
    match s.th.held.find? (·.port = q.val) with
    | some h =>
      modTh fun t => { t with held := t.held.erase h }
      return some (h.words.getD 0 0, false)
    | none => return none
  | .command => return none
  | .output _ => return none
  | .unbound => return none
  | .reserved => return none

/-- ENQ (R164). -/
def execEnq (ctl : Bool) (r : GReg) (q : QPort) : State → Host.Outcome State Fault Refusal :=
  run do
    lawful (·.pushIllegal ctl q)
    notInHandler
    let t ← getTh
    if ← pushPort q (t.rg r) ctl then advance else stop (.park (.port q.val))

/-- ENQN (R164). -/
def execEnqn (ctl : Bool) (p : PReg) (r : GReg) (q : QPort) : State → Host.Outcome State Fault Refusal :=
  run do
    lawful (·.pushIllegal ctl q)
    let t ← getTh
    let ok ← pushPort q (t.rg r) ctl
    writeI (.p p ok)
    advance

/-- DEQ (R165). -/
def execDeq (d : GReg) (q : QPort) (pc : PReg) : State → Host.Outcome State Fault Refusal :=
  run do
    lawful (·.popIllegal q)
    notInHandler
    match ← popPort q with
    | some (v, k) =>
      writeI (.g d v)
      writeI (.p pc k)
      advance
    | none => stop (.park (.port q.val))

/-- DEQN (R165). -/
def execDeqn (p : PReg) (d : GReg) (q : QPort) (pc : PReg) : State → Host.Outcome State Fault Refusal :=
  run do
    lawful (·.popIllegal q)
    match ← popPort q with
    | some (v, k) =>
      writeI (.g d v)
      writeI (.p pc k)
      writeI (.p p true)
      advance
    | none =>
      writeI (.p p false)
      advance

/-! ## Port status (R166, R167) -/

/-- COUNT of R166. -/
def State.portCount (s : State) (q : QPort) : Nat :=
  match s.myPort q with
  | .command => s.commandRoom s.origin.core q.val
  | .result => (s.th.held.filter (·.port = q.val)).length
  | .input _ => ((s.myTeam.map (·.elems q.val)).getD []).length
  | .output b => ((s.myTeam.map (s.outPlaces · b)).getD 0)
  | .unbound => 0
  | .service => 0
  | .reserved => 0

/-- The status word of R166. DESIGN CHOICE: COUNT of a result port with more than 31 elements is their number modulo 32 (log 93). -/
def State.portStatus (s : State) (q : QPort) : Word :=
  let tm := s.myTeam
  let isIn := (s.myPort q).isInput
  let lh := tm.bind fun t => smFind t.lh q.val
  let head := isIn && ((tm.bind fun t => (t.elems q.val).head?).map (·.ctl)) = some true
  BitVec.ofNat 64 ((lh.getD 0) % 64 * 2 ^ 32 + (if lh.isSome then 2 ^ 9 else 0) + (if head then 2 ^ 8 else 0) +
    (s.myPort q).code * 2 ^ 5 + s.portCount q % 32)

/-- QCNT (R166): the COUNT field of five bits. -/
def execQcnt (d : GReg) (q : QPort) : State → Host.Outcome State Fault Refusal :=
  run do
    lawful (·.askIllegal q)
    let s ← get
    writeI (.g d (BitVec.ofNat 64 (s.portCount q % 32)))
    advance

/-- The elements of a stage input port are discarded; their places return to the producer (R166). -/
def State.discardPort (s : State) (q : QPort) : State :=
  match s.myPort q, s.myTeam with
  | .input _, some tm => s.setTeam (tm.setElems q.val [])
  | _, _ => s

/-- The port's light handler is disarmed (R166). -/
def State.disarmPort (s : State) (q : QPort) : State :=
  match s.myTeam with
  | some tm => s.setTeam { tm with lh := smDel tm.lh q.val }
  | none => s

/-- The status word is written and the bundle ends. -/
def answerStatus (d : GReg) (q : QPort) : M Unit := do
  let s ← get
  writeI (.g d (s.portStatus q))
  advance

/-- QCTL (R166): an operation other than 1 and 2 does nothing but report. -/
def execQctl (d : GReg) (q : QPort) (op : Opd) : State → Host.Outcome State Fault Refusal :=
  run do
    lawful (·.askIllegal q)
    let t ← getTh
    let v := opdVal t op
    if v = 1 then modify (·.discardPort q)
    if v = 2 then modify (·.disarmPort q)
    answerStatus d q

/-- QCTL with operation 1. -/
def execQctlDiscard (d : GReg) (q : QPort) : State → Host.Outcome State Fault Refusal :=
  run do
    lawful (·.askIllegal q)
    modify (·.discardPort q)
    answerStatus d q

/-- QCTL with operation 2. -/
def execQctlDisarm (d : GReg) (q : QPort) : State → Host.Outcome State Fault Refusal :=
  run do
    lawful (·.askIllegal q)
    modify (·.disarmPort q)
    answerStatus d q

/-- QLH (R167). -/
def execQlh (q : QPort) (actor : Opd) : State → Host.Outcome State Fault Refusal :=
  run do
    lawful (·.lightIllegal q)
    let s ← get
    let v := opdVal s.th actor
    if v.toNat ≥ 64 || !s.isKind s.th.launchId v.toNat 2 then trapWhole 0x05 v
    else
      match s.myTeam with
      | some tm => set ((s.setTeam { tm with lh := smPut tm.lh q.val v.toNat }).portChanged tm.key q.val)
      | none => pure ()
      advance

/-! ## Messages (R168, R169) -/

/-- The eight words of a message. -/
def fireWords (t : Thread) (w : GReg) : List Word := (List.range 8).map fun i => t.rg (Fin.ofNat 32 (w.val + i))

/-- The undeliverable notice of R356. -/
def State.undeliverable (s : State) (desc : Word) (ws : List Word) : Note :=
  let o := s.origin
  { core := o.core, launch := some o.launch, team := o.team, record := false, org := none, actor := none,
    workid := s.th.workid,
    words := [BitVec.ofNat 64 (32 + o.core * 2 ^ 16 + s.cur.ctx * 2 ^ 32), desc] ++ ws.take 6 }

/-- An earlier FIRE of this core to the same core at the same priority has not been accepted: messages of one sending core
to one core at one priority are queued in the order sent (R168). -/
def State.fireBehind (s : State) (dest prio : Nat) : Bool :=
  s.threads.any fun t =>
    t.1 ≠ s.cur.tid && t.1 / 8 = s.cur.core &&
      match t.2.status with
      | .parked p => p.why = .fire dest prio && p.order < s.cur.since.getD s.serial
      | .free | .running | .travelling _ | .travelQueued | .travelAbroad _ _ => false

/-- A message is sent: true when it is accepted, or answered undeliverable (R168). -/
def sendMessage (desc : Word) (ws : List Word) : M Bool := do
  let s ← get
  let o := s.origin
  let actor := fieldW 17 12 desc
  let dest := fieldW 11 0 desc
  if desc.toNat ≥ 2 ^ 18 || !s.isKind o.launch actor 2 then trapWhole 0x05 desc
  else
    drainMine
    let s ← get
    match s.teamOfLaunch o.launch dest with
    | none =>
      set (s.post (s.undeliverable desc ws))
      return true
    | some tm =>
      if s.room dest && !s.fireBehind dest s.th.eprio then
        set (s.pushTask dest s.th.eprio (msgTask o.launch tm.no actor ws s.th.workid))
        return true
      else return false

/-- FIRE (R168). -/
def execFire (d w : GReg) : State → Host.Outcome State Fault Refusal :=
  run do
    notInHandler
    let t ← getTh
    if ← sendMessage (t.rg d) (fireWords t w) then advance
    else stop (.park (.fire (fieldW 11 0 (t.rg d)) t.eprio))

/-- FIREN (R168). -/
def execFiren (p : PReg) (d w : GReg) : State → Host.Outcome State Fault Refusal :=
  run do
    let t ← getTh
    let ok ← sendMessage (t.rg d) (fireWords t w)
    writeI (.p p ok)
    advance

/-- PRIO (R169). -/
def execPrio (v : Opd) : State → Host.Outcome State Fault Refusal :=
  event fun s =>
    s.setTh ({ s.th with eprio := min (opdVal s.th v).toNat (s.launchPrio s.th.launchId) }.step s.cur)

/-! ## Barriers (R171 to R173) -/

/-- The arrival of R171; its traps leave the barrier unchanged. -/
def arriveAt (leave : Bool) (d : GReg) (b : BReg) (bytes : Option Word) : M Unit := do
  let s ← get
  match bytes with
  | some n => if fieldW 63 40 n ≠ 0 then trapWhole 0x05 n else pure ()
  | none => pure ()
  match s.myTeam with
  | none => pure ()
  | some tm =>
    let x := tm.bar b.val
    if x.arrived < x.expect then
      drainMine
      writeI (.g d (BitVec.ofNat 64 x.phase.toNat))
      let y :=
        { x with arrived := x.arrived + 1, leave := x.leave + (if leave then 1 else 0),
                 bytes := wrap48 (x.bytes + ((bytes.map (·.toNat)).getD 0)) }
      modify fun s => s.setTeam (tm.putBar b.val y)
    else if leave || bytes.isSome || x.next = x.expect then trapWhole 0x05 (BitVec.ofNat 64 b.val)
    else
      drainMine
      writeI (.g d (BitVec.ofNat 64 (x.phase + 1).toNat))
      modify fun s => s.setTeam (tm.putBar b.val { x with next := x.next + 1 })

/-- ARRIVE (R171). -/
def execArrive (leave : Bool) (d : GReg) (b : BReg) : State → Host.Outcome State Fault Refusal :=
  run do
    lawful (·.barIllegal b)
    arriveAt leave d b none
    advance

/-- ARRB (R171). -/
def execArrb (leave : Bool) (d : GReg) (b : BReg) (n : GReg) : State → Host.Outcome State Fault Refusal :=
  run do
    lawful (·.barIllegal b)
    let t ← getTh
    arriveAt leave d b (some (t.rg n))
    advance

/-- The phase named by a register has passed at a barrier of the executing team. -/
def State.passed (s : State) (g : Word) (b : BReg) : Bool := ((s.myTeam.map (·.bar b.val)).map (phasePassed · g)).getD false

/-- BWAIT (R173). -/
def execBwait (r : GReg) (b : BReg) : State → Host.Outcome State Fault Refusal :=
  run do
    lawful (·.barIllegal b)
    notInHandler
    let s ← get
    if s.passed (s.th.rg r) b then advance else stop (.park .bwait)

/-- BWAITN (R173). -/
def execBwaitn (p : PReg) (r : GReg) (b : BReg) : State → Host.Outcome State Fault Refusal :=
  run do
    lawful (·.barIllegal b)
    let s ← get
    writeI (.p p (s.passed (s.th.rg r) b))
    advance

/-- The context waits at an FALIGN at code offset x. -/
def CtxState.alignedAt (st : CtxState) (x : Nat) : Bool :=
  match st with
  | .parked p => p.why = .falign x
  | .free | .running | .travelling _ | .travelQueued | .travelAbroad _ _ => false

def CtxState.isParked : CtxState → Bool
  | .parked _ => true
  | .free | .running | .travelling _ | .travelQueued | .travelAbroad _ _ => false

/-- A context waits at an FALIGN at x for a team. -/
def Thread.waitsAt (t : Thread) (launch team x : Nat) : Bool :=
  t.firing.isSome && t.launchId = launch && t.teamNo = team && t.status.alignedAt x

/-- A parked bundle completes with no effect of its own. -/
def State.completeParked (s : State) (tid : Nat) : State :=
  let t := s.thread tid
  match t.status with
  | .parked p => (s.setThread tid ({ t with status := .running }.step p.bundle)).macroNext tid
  | .free | .running | .travelling _ | .travelQueued | .travelAbroad _ _ => s

/-- Every context of a team that waits at an FALIGN at x on a core is released at once (R173). -/
def State.releaseAligned (s : State) (core launch team x : Nat) : State :=
  (List.range 8).foldl
    (fun s k => if (s.thread (tidOf core k)).waitsAt launch team x then s.completeParked (tidOf core k) else s) s

/-- Every other context of the executing thread's team on its core is parked, or free (R173). -/
def State.othersParked (s : State) : Bool :=
  (List.range 8).all fun k =>
    let t := s.thread (tidOf s.cur.core k)
    k = s.cur.ctx || t.firing.isNone || t.launchId ≠ s.th.launchId || t.teamNo ≠ s.th.teamNo || t.status.isParked

/-- FALIGN (R173). -/
def execFalign : State → Host.Outcome State Fault Refusal :=
  run do
    notInHandler
    let s ← get
    if s.othersParked then
      set (s.releaseAligned s.cur.core s.th.launchId s.th.teamNo s.th.pc)
      advance
    else stop (.park (.falign s.th.pc))

/-! ## WID and DONE (R174, R175) -/

/-- WID (R174). -/
def execWid (d : GReg) (sel : Opd) (s : State) : Host.Outcome State Fault Refusal :=
  produce (some 2)
    (fun t => [.g d (BitVec.ofNat 64 (widPart (s.spec t.launchId) t.workid.toNat (opdVal t sel).toNat))]) s

/-- DONE (R175): the firing ends; its stores are still to be performed. -/
def execDone : State → Host.Outcome State Fault Refusal :=
  event fun s =>
    let key := teamKey s.th.launchId s.th.teamNo
    (s.endFiring s.cur.tid).stageTasks key

/-! ## Events of one core -/

/-- TASK_START (R156): a free context starts what comes next. -/
def execTaskStart (core ctx : Nat) : State → Host.Outcome State Fault Refusal :=
  event fun s => if (s.thread (tidOf core ctx)).status = .free then s.startNext core (tidOf core ctx) else s

/-- TASK_PRIORITY_RAISE (R156): a place that has waited 65,536 cycles joins the tail of the next priority, up to 3. -/
def execTaskPriorityRaise (core idx : Nat) : State → Host.Outcome State Fault Refusal :=
  event fun s =>
    let q := s.queue core
    match q[idx]? with
    | some e => if e.prio < 3 then s.setQueue core (q.eraseIdx idx ++ [{ e with prio := e.prio + 1 }]) else s
    | none => s

/-- The parked contexts of a core by the order in which they parked, none where some context is not parked, or is parked in
STVER (R160). -/
def State.allParked (s : State) (core : Nat) : Option (List (Nat × Nat)) :=
  (List.range 8).foldr
    (fun k l =>
      let t := s.thread (tidOf core k)
      match t.status, t.firing, l with
      | .parked p, some _, some l =>
        match p.why with
        | .stver _ => none
        | .port _ | .engine _ | .fire _ _ | .bwait | .falign _ | .ldver _ _ _ | .cntw _ _ _ | .mwait _ | .waiti
        | .absent _ _ _ _ | .ship _ _ => some ((p.order, tidOf core k) :: l)
      | _, _, _ => none) (some [])

/-- The entry that parked first; the lower context number on a tie. -/
def longest : List (Nat × Nat) → Option (Nat × Nat)
  | [] => none
  | e :: t =>
    match longest t with
    | some d => some (if d.1 < e.1 then d else e)
    | none => some e

/-- PARK_OUT (R160): with every context parked and something to start, the context parked longest is saved to its team's
save area, which must keep eight records free (R350). -/
def execParkOut (core : Nat) : State → Host.Outcome State Fault Refusal :=
  event fun s =>
    match (s.allParked core).bind longest with
    | some (_, tid) =>
      if s.queue core = [] && s.eligible core = [] then s else (s.saveToArea .parkOut tid 8).getD s
    | none => s

/-- FALIGN_RELEASE_TIMEOUT (R173): 256 cycles after the first waiter parked, every waiter at its place is released. -/
def execFalignReleaseTimeout (core ctx : Nat) : State → Host.Outcome State Fault Refusal :=
  event fun s =>
    let t := s.thread (tidOf core ctx)
    if t.waitsAt t.launchId t.teamNo t.pc then s.releaseAligned core t.launchId t.teamNo t.pc else s

/-- LIGHT_HANDLER_TASK (R155, R167): a control value that waited for room becomes its task. -/
def execLightHandlerTask (team port : Nat) : State → Host.Outcome State Fault Refusal :=
  event fun s => s.portChanged team port

end Sys2Proof.Machine
end

