-- ==== Sys2Proof/Machine/Version.lean ====
section
/-!
DEFINITION. Versioned words: LDVER, LDVERN, STVER and RECLAIM at their homes (spec/11_one_core.md R176 to R180).
-/

namespace Sys2Proof.Machine

/-- The TVAL of trap 0x0B (R180). -/
def tvalVersion (kind creg offs : Nat) : Word :=
  BitVec.ofNat 64 (kind * 2 ^ 63 + creg % 16 * 2 ^ 58 + offs % 2 ^ 56)

/-- The checks of a versioned access and its home; the object must have the versioned attribute. Earlier stores of the
thread are performed first. -/
def versioned (a : MemOp) (need perm : Nat) : M (Nat × Nat × TlbEntry) := do
  let t ← getTh
  let c := t.rc a.base
  let ea := memOff t a
  checkCap (creg a.base) c need ea 8 8
  let (h, e) ← locate (creg a.base) true c ea.toNat 8 perm
  if !e.ver then trap 0x07 (tvalCap 1 a.base.val ea.toNat)
  else
    drainMine
    return (ea.toNat, h, e)

/-- A buffered value of a version of a word (R177). -/
def State.buffered (s : State) (a : Nat) (v : BitVec 32) : Option Word :=
  (s.vbuf.find? fun e => e.addr = a && e.version = v).map (·.value)

/-- What a home of another module answers to a read of a version, which is open (log 5): the value, a version still to come, or a
reclaimed one. -/
def readVersionAway (a : MemOp) (ea h : Nat) (e : TlbEntry) : M (Option Word) := do
  let b ← readHome (creg a.base) ea h 8 e
  let k ← runS fun s => s.freeBytes 1
  if leNat k % 3 = 0 then return some (wordLe b)
  else if leNat k % 3 = 1 then return none
  else trap 0x0B (tvalVersion 0 a.base.val ea)

/-- What a home answers to a read of a version (R178): the value, a version still to come, or a reclaimed one. -/
def readVersion (a : MemOp) (ea h : Nat) (e : TlbEntry) (want : BitVec 32) : M (Option Word) := do
  let s ← get
  let cur := (s.verOf e.obj h).version
  if isForeign h then readVersionAway a ea h e
  else if want = cur then
    let b ← readHome (creg a.base) ea h 8 e
    return some (wordLe b)
  else if newer want cur then return none
  else
    match (s.adopt e.obj h).buffered h want with
    | some v => return some v
    | none => trap 0x0B (tvalVersion 0 a.base.val ea)

/-- An LDVER parks at a home: it enters the wait table, or waits outside a full one (R178); whether another module's table takes it is
open (log 5). -/
def parkLdver (h : Nat) (want : BitVec 32) : M Unit := do
  modify fun s => s.withdraw s.cur.tid
  if isForeign h then
    let k ← runS fun s => s.freeBytes 1
    stop (.park (.ldver h want (leNat k % 2 = 0)))
  else
    let s ← get
    if s.waitFull h then stop (.park (.ldver h want false))
    else
      set ({ s with waits := s.waits ++ [⟨h, .version want, s.cur.tid⟩] } : State)
      stop (.park (.ldver h want true))

/-- LDVER (R178): a wake carries the value. -/
def execLdver (d : GReg) (a : MemOp) : State → Host.Outcome State Fault Refusal :=
  run do
    notInHandler
    let s ← get
    match s.cur.carried with
    | some v =>
      writeNow (.g d v)
      advance
    | none =>
      let (ea, h, e) ← versioned a (rR + rV) rR
      let want := BitVec.ofNat 32 (s.th.rg d).toNat
      match ← readVersion a ea h e want with
      | some v =>
        modify (·.withdraw s.cur.tid)
        writeNow (.g d v)
        advance
      | none => parkLdver h want

/-- LDVERN (R178). -/
def execLdvern (p : PReg) (d : GReg) (a : MemOp) : State → Host.Outcome State Fault Refusal :=
  run do
    let t ← getTh
    let (ea, h, e) ← versioned a (rR + rV) rR
    match ← readVersion a ea h e (BitVec.ofNat 32 (t.rg d).toNat) with
    | some v =>
      writeNow (.g d v)
      writeNow (.p p true)
      advance
    | none =>
      writeNow (.p p false)
      advance

/-- The object of a word's versions stands: this module's table has it with the versioned attribute, or it is another module's (R176). -/
def State.versionedObj (s : State) (obj : Nat) : Bool :=
  if bitsOf 31 20 obj ≠ s.here then true
  else s.describes obj

/-- Versions of objects that are no longer there are gone with them: an object that is created again starts at version 0 (R176, log 68). -/
def State.forgetVersions (s : State) : State :=
  let dead := s.vers.filter fun v => !s.versionedObj v.2.obj
  if dead = [] then s
  else
    { s with
      vers := s.vers.filter fun v => s.versionedObj v.2.obj
      vbuf := s.vbuf.filter fun e => !dead.any fun v => decide (v.1 = e.addr) }

/-- The new version of a word, with the wake of those that wait for it (R179). -/
def State.newVersion (s : State) (obj a : Nat) (v : Word) : State :=
  let s := s.adopt obj a
  let m := s.verAt a
  let s := if m.rcl then s else { s with vbuf := s.vbuf ++ [⟨a, m.version, s.homeWord a⟩] }
  let s := (s.homeWrite 0 a (leBytes 8 v.toNat)).setVer a ⟨m.version + 1, false, obj⟩
  let hit := fun (e : WaitEntry) => e.addr = a && e.what = .version (m.version + 1)
  (s.waits.filter hit).foldl (fun s e => s.wakeWith e.tid v) { s with waits := s.waits.filter (!hit ·) }

/-- An STVER that waits at a home, and when it parked. -/
def CtxState.stverAt (st : CtxState) : Option (Nat × Nat) :=
  match st with
  | .parked p =>
    match p.why with
    | .stver a => some (a, p.order)
    | .port _ | .engine _ | .fire _ _ | .bwait | .falign _ | .ldver _ _ _ | .cntw _ _ _ | .mwait _ | .waiti | .absent _ _ _ _
    | .ship _ _ => none
  | .free | .running | .travelling _ | .travelQueued | .travelAbroad _ _ => none

/-- An STVER on the word reached its home earlier and still waits there: the home applies it first (R177, log 75). -/
def State.stverBefore (s : State) (tid a order : Nat) : Bool :=
  s.threads.any fun t => t.1 ≠ tid && t.2.status.stverAt.any fun w => w.1 = a && w.2 < order

/-- An STVER whose home lies in another module (R179): the request goes once, and whether that home accepts it now is open (log 5). -/
def stverAway (h : Nat) (v : List Byte) : M Unit := do
  let s ← get
  if s.cur.since.isNone then modify fun s => s.sendPacket s.cur.core h v
  let k ← runS fun s => s.freeBytes 1
  if leNat k % 2 = 0 then
    modify fun s => { s with outbox := s.outbox ++ [(h, v)] }
    advance
  else parkOr (.stver h)

/-- STVER (R179): where the version buffer is full the context parks, and handler code takes trap 0x0A (R159). It waits for one that
came to its word before it; handler code does so in real time. -/
def execStver (r : GReg) (a : MemOp) : State → Host.Outcome State Fault Refusal :=
  run do
    let t ← getTh
    let (_, h, e) ← versioned a (rW + rV) rW
    let s ← get
    if isForeign h then stverAway h (leBytes 8 (t.rg r).toNat)
    else if !(s.verOf e.obj h).rcl && s.bufFull h then parkOr (.stver h)
    else if s.stverBefore s.cur.tid h (s.cur.since.getD s.serial) then
      if t.handler then stop .wait else stop (.park (.stver h))
    else
      set (s.newVersion e.obj h (t.rg r))
      advance

/-- Versions of a word up to one are reclaimed at its home (R180). -/
def State.reclaim (s : State) (obj h : Nat) (v : BitVec 32) : State :=
  let s := s.adopt obj h
  let m := s.verAt h
  let s := { s with vbuf := s.vbuf.filter fun e => !(e.addr = h && (e.version = v || newer v e.version)) }
  if v = m.version || newer v m.version then s.setVer h { m with rcl := true } else s

/-- RECLAIM (R180): to another module the version goes as a request (R210). -/
def execReclaim (r : GReg) (a : MemOp) : State → Host.Outcome State Fault Refusal :=
  run do
    let t ← getTh
    let (_, h, e) ← versioned a (rW + rV) rW
    let v := BitVec.ofNat 32 (t.rg r).toNat
    modify fun s => if isForeign h then s.sendPacket s.cur.core h (leBytes 4 v.toNat) else s.reclaim e.obj h v
    advance

/-- STVER_BUFFER_TIMEOUT (R179): an STVER that has waited 65,536 cycles, and still waits, takes trap 0x0B with KIND 1; the word is
unchanged. -/
def execStverBufferTimeout (core ctx : Nat) : State → Host.Outcome State Fault Refusal :=
  event fun s =>
    let tid := tidOf core ctx
    let t := s.thread tid
    match t.status with
    | .parked p =>
      match p.why, p.bundle.instr with
      | .stver h, .stver _ a =>
        if !s.parkReady t core p || isForeign h || s.stverBefore tid h p.order then
          let s' := { s with cur := p.bundle }.setThread tid { t with status := .running }
          { s'.stopped (.trap 0x0B (tvalVersion 1 a.base.val (memOff t a).toNat)) with cur := s.cur }
        else s
      | _, _ => s
    | .free | .running | .travelling _ | .travelQueued | .travelAbroad _ _ => s

end Sys2Proof.Machine
end

