-- ==== Sys2Proof/Machine/Atomic.lean ====
section
/-!
DEFINITION. Scopes (R187), LDA, STREL, AMO, CAS and the counters (spec/13_many_cores.md R194 to R197, R209).
-/

namespace Sys2Proof.Machine

/-! ## Scopes, acquire and release (R187, R194) -/

/-- A home lies in a scope, measured from the executing thread's original core (R187). -/
def State.inScope (s : State) (sc : Scope) (a : Nat) : Bool :=
  match sc with
  | .core => isSlice a && sliceCore a = s.th.homeCore s.cur.core
  | .arc => isSlice a && s.arcadeHas s.th.launchId s.th.teamNo (sliceCore a)
  | .dev => !isForeign a
  | .sys => true

/-- The scope at which an act on a target acts: its own, or the smallest one that covers the target (R187). -/
def State.scopeAt (s : State) (sc : Scope) (a : Nat) : Scope :=
  if s.inScope sc a then sc else if s.inScope .core a then .core else if s.inScope .arc a then .arc
  else if s.inScope .dev a then .dev else .sys

/-- The queued stores of a thread up to the last one whose home lies in a scope: stores are performed in program order (R189). -/
def State.dueStores (s : State) (sc : Scope) : List StoreReq :=
  ((s.th.stores.reverse).dropWhile fun r => !s.inScope sc r.addr).reverse

/-- The executing thread's earlier stores whose homes lie in a scope are performed, and those before them. -/
def State.drainScope (s : State) (sc : Scope) : State := (s.dueStores sc).foldl (fun s _ => s.applyStore s.cur.tid) s

/-- LDA (R194): its load is performed before every later access, whatever the scope, since a load is performed at its bundle. -/
def execLda (sz : Option Size) (_sc : Scope) (d : GReg) (a : MemOp) : State → Host.Outcome State Fault Refusal :=
  run do
    let v ← loadWord sz a
    writeNow (.g d v)
    advance

/-- STREL (R194): it is performed after every earlier store (R189), whatever the scope; earlier loads have been performed. -/
def execStrel (sz : Option Size) (_sc : Scope) (r : GReg) (a : MemOp) : State → Host.Outcome State Fault Refusal :=
  run do
    storeWord sz r a
    advance

/-! ## Atomics (R195 to R197) -/

/-- The new value of an AMO on the s-byte word w with operand v (R195). -/
def amoNew (op : AmoOp) (n w v : Nat) : Nat :=
  let b := 8 * n
  let m := 2 ^ b
  let v := v % m
  match op with
  | .swap => v
  | .add => (w + v) % m
  | .and => w &&& v
  | .or => w ||| v
  | .xor => w ^^^ v
  | .min => if signedNat b w ≤ signedNat b v then w else v
  | .max => if signedNat b w ≤ signedNat b v then v else w
  | .minu => min w v
  | .maxu => max w v
  | .fadd => fAdd fp32 .rne 0 w v

/-- The checks of AMO and CAS, and the old value at the home; the thread's earlier stores in the act's scope, which covers the home, are
performed first, and a move of the page that they complete is followed (R246). -/
def atomicOld (w : Src) (sc : Scope) (c : Cap) (ea : Int) (n : Nat) (sizeOk : Bool) : M (Nat × Nat) := do
  checkCap w c (rR + rW + rA) ea n n
  checkFar w c ea.toNat (rR + rW)
  if !sizeOk then trap 0x07 (tvalCap w.src w.creg ea.toNat)
  else
    let (h, e) ← locate w true c ea.toNat n (rR + rW)
    modify fun s => s.drainScope (s.scopeAt sc h)
    let h ← runS fun s => s.reach s.cur.core h
    let b ← readHome w ea.toNat h n e
    return (h, leNat b)

/-- AMO (R195): one indivisible step at the home. -/
def execAmo (op : AmoOp) (sz : Option Size) (sc : Scope) (d : GReg) (a : MemOp) :
    State → Host.Outcome State Fault Refusal :=
  run do
    let t ← getTh
    let c := t.rc a.base
    let n := accSize sz c
    let ok := n = 4 || (n = 8 && op ≠ .fadd)
    let (h, w) ← atomicOld (creg a.base) sc c (memOff t a) n ok
    modify fun s => s.homeWrite s.cur.core h (leBytes n (amoNew op n w (t.rg d).toNat))
    writeNow (.g d (BitVec.ofNat 64 w))
    advance

/-- CAS (R196): payload [3:1] of 0 names p0, so that success is then discarded. -/
def execCas (sz : Option Size) (sc : Scope) (p : PReg) (d : GReg) (a : CReg) (n : GReg) :
    State → Host.Outcome State Fault Refusal :=
  run do
    let t ← getTh
    let c := t.rc a
    let k := accSize sz c
    let (h, w) ← atomicOld (creg a) sc c (capOff c) k (k = 4 || k = 8)
    let ok : Bool := w = (t.rg d).toNat % 2 ^ (8 * k)
    if ok then modify fun s => s.homeWrite s.cur.core h (leBytes k (t.rg n).toNat)
    writeNow (.g d (BitVec.ofNat 64 w))
    writeNow (.p p ok)
    advance

/-! ## Counters (R209) -/

/-- The counter word that a capability names, read at its home. DESIGN CHOICE: the thread's earlier stores are performed first, for CNTRD
too (log 87). -/
def counterWord (a : CReg) : M (Nat × Word) := do
  let t ← getTh
  let c := t.rc a
  checkCap (creg a) c (rR + rA) (capOff c) 8 8
  let (h, e) ← locate (creg a) true c (capOff c) 8 rR
  drainMine
  let h ← runS fun s => s.reach s.cur.core h
  let b ← readHome (creg a) (capOff c) h 8 e
  return (h, wordLe b)

/-- A CNTW parks at a home: it enters the wait table, or waits outside a full one (R209); whether another module's table takes it is
open (log 5). -/
def parkCntw (h : Nat) (thr : Word) : M Unit := do
  if isForeign h then
    let k ← runS fun s => s.freeBytes 1
    stop (.park (.cntw h thr (leNat k % 2 = 0)))
  else
    let s ← get
    if s.waitFull h then stop (.park (.cntw h thr false))
    else
      set ({ s with waits := s.waits ++ [⟨h, .counter thr, s.cur.tid⟩] } : State)
      stop (.park (.cntw h thr true))

/-- CNTW (R209): a wake carries the value. -/
def execCntw (d : GReg) (a : CReg) : State → Host.Outcome State Fault Refusal :=
  run do
    notInHandler
    let s ← get
    match s.cur.carried with
    | some v =>
      writeI (.g d v)
      advance
    | none =>
      let thr := s.th.rg d
      let (h, v) ← counterWord a
      modify (·.withdraw s.cur.tid)
      if v.toInt ≤ thr.toInt then
        writeI (.g d v)
        advance
      else parkCntw h thr

/-- CNTWN (R209). -/
def execCntwn (p : PReg) (d : GReg) (a : CReg) : State → Host.Outcome State Fault Refusal :=
  run do
    let t ← getTh
    let (_, v) ← counterWord a
    if v.toInt ≤ (t.rg d).toInt then
      writeNow (.g d v)
      writeNow (.p p true)
      advance
    else
      writeNow (.p p false)
      advance

/-- CNTRD (R209): a plain load. -/
def execCntrd (d : GReg) (a : CReg) : State → Host.Outcome State Fault Refusal :=
  run do
    let (_, v) ← counterWord a
    writeNow (.g d v)
    advance

end Sys2Proof.Machine
end

