-- ==== Sys2Proof/Machine/Stream.lean ====
section
/-!
DEFINITION. One-sided transfers and destination arithmetic (spec/13_many_cores.md R198 to R208): their instructions, the
units in which they move, their packets' order at a bank, combining at a router (spec/15_fabric.md R229), completion and
faults. The streamer's queue is that of spec/21_streamer.md R277.
-/

namespace Sys2Proof.Machine

/-! ## The streamer's commands -/

/-- The KIND of a record of R284. -/
def XKind.record : XKind → Nat
  | .copy => 5
  | .get => 8
  | .send => 9
  | .sig => 10
  | .getx => 11
  | .sendx => 12
  | .arith => 13
  | .marker => 0
  | .cut => 0

/-- The elements of the kind are applied at a destination, and a record firing that pushed it retires in WORK once they all are (R337). -/
def XKind.applies : XKind → Bool
  | .send | .sig | .sendx | .arith => true
  | .get | .getx | .copy | .marker | .cut => false

/-! ## Checks at issue (R198, R201, R206) -/

/-- The checks of R88 where the entry accepts only some formats: another format is treated as format-invalid. -/
def checkFmt (w : Src) (c : Cap) (need : Nat) (ea : Int) (n align : Nat) (ok : Nat → Bool) : M Unit :=
  if c.tag && missing need (capRights c) = 0 && !ok (capFmt c) then trap 0x07 (tvalCap w.src w.creg (ea % 2 ^ 56).toNat)
  else checkCap w c need ea n align

/-- A counter capability: rights R, W and A over 16 bytes aligned to 8, format bytes or i64 (R198). -/
def checkCounter (r : CReg) : M Cap := do
  let t ← getTh
  let c := t.rc r
  checkFmt (creg r) c (rR + rW + rA) (capOff c) 16 8 fun f => f = 0 || f = 4
  return c

/-- The counter that a transfer names; c0 for none. -/
def namedCounter (r : CReg) : M Cap := if r = 0 then pure nullCap else checkCounter r

/-- RGET, RSEND and RSIG (R198, R199). -/
def plainTransfer (kind : XKind) (sc : Scope) (dst src : CReg) (n : GReg) (ctr : CReg) : M Unit := do
  let t ← getTh
  let len := (t.rg n).toNat
  let d := t.rc dst
  let c := t.rc src
  checkCap (creg dst) d rW (capOff d) len 1
  checkCap (creg src) c rR (capOff c) len 1
  let k ← namedCounter ctr
  enginePush 2 fun s o =>
    s.pushStream { Xfer.fresh kind o with scope := sc, dst := d, src := c, ctr := k, n := len }
  advance

/-- The element size of R201. -/
def eszOf (d : Word) : Nat :=
  match fieldW 9 8 d with
  | 0 => 4
  | 1 => 8
  | 2 => 16
  | _ => 64

/-- RGETX and RSENDX (R201): the indexed side's elements are bounded one by one (R202). DESIGN CHOICE: the descriptor's must-be-zero bits are
tested before the capabilities of R198 (log 96). -/
def indexedTransfer (kind : XKind) (sc : Scope) (dst src : CReg) (n : GReg) (ctr : CReg) : M Unit := do
  let t ← getTh
  let desc := t.rg n
  if fieldW 63 15 desc ≠ 0 then trapWhole 0x05 desc
  else
    let cnt := fieldW 7 0 desc + 1
    let e := eszOf desc
    let isz := if bitW 10 desc then 8 else 4
    let ir : CReg := Fin.ofNat 16 (fieldW 14 11 desc)
    let d := t.rc dst
    let c := t.rc src
    let x := t.rc ir
    let dl := if kind = .getx then cnt * e else 0
    let sl := if kind = .getx then 0 else cnt * e
    let side := fun (r : CReg) (k : Cap) (need len : Nat) (idx : Bool) =>
      if idx then
        (if k.tag && missing need (capRights k) = 0 && !capBadFmt k then pure ()
         else checkCap (creg r) k need (capOff k) len 1 : M Unit)
      else checkCap (creg r) k need (capOff k) len 1
    side dst d rW dl (kind = .sendx)
    side src c rR sl (kind = .getx)
    checkCap (creg ir) x rR (capOff x) (cnt * isz) isz
    let k ← checkCounter ctr
    enginePush 2 fun s o =>
      s.pushStream
        { Xfer.fresh kind o with
          scope := sc, dst := d, src := c, ctr := k, n := cnt, esz := e, isz := isz, idx := some x }
    advance

/-- RGET (R198). -/
def execRget (sc : Scope) (dst src : CReg) (n : GReg) (ctr : CReg) : State → Host.Outcome State Fault Refusal :=
  run (plainTransfer .get sc dst src n ctr)

/-- RSEND (R198). -/
def execRsend (sc : Scope) (dst src : CReg) (n : GReg) (ctr : CReg) : State → Host.Outcome State Fault Refusal :=
  run (plainTransfer .send sc dst src n ctr)

/-- RSIG (R198). -/
def execRsig (sc : Scope) (dst src : CReg) (n : GReg) (ctr : CReg) : State → Host.Outcome State Fault Refusal :=
  run (plainTransfer .sig sc dst src n ctr)

/-- RGETX (R201). -/
def execRgetx (sc : Scope) (dst src : CReg) (n : GReg) (ctr : CReg) : State → Host.Outcome State Fault Refusal :=
  run (indexedTransfer .getx sc dst src n ctr)

/-- RSENDX (R201). -/
def execRsendx (sc : Scope) (dst src : CReg) (n : GReg) (ctr : CReg) : State → Host.Outcome State Fault Refusal :=
  run (indexedTransfer .sendx sc dst src n ctr)

/-- RARITH (R206). DESIGN CHOICE: the descriptor's must-be-zero bits are tested before the capabilities (log 96). -/
def execRarith (op : RedOp) (ordered : Bool) (e : Elem) (dst src : CReg) (n : GReg) :
    State → Host.Outcome State Fault Refusal :=
  run do
    let t ← getTh
    let desc := t.rg n
    if fieldW 63 36 desc ≠ 0 || fieldW 15 9 desc ≠ 0 || (!ordered && fieldW 31 16 desc ≠ 0) then trapWhole 0x05 desc
    else
      let cnt := fieldW 8 0 desc + 1
      let es := elemBytes e
      let d := t.rc dst
      let c := t.rc src
      checkCap (creg dst) d (rW + rA) (capOff d) (cnt * es) es
      checkCap (creg src) c rR (capOff c) (cnt * es) 1
      let k ← namedCounter (Fin.ofNat 16 (fieldW 35 32 desc))
      enginePush 2 fun s o =>
        s.pushStream
          { Xfer.fresh .arith o with
            op := op, ordered := ordered, elem := e, seq := fieldW 31 16 desc, dst := d, src := c, ctr := k, n := cnt,
            esz := es }
      advance

/-! ## Units and banks (R205, R207) -/

/-- The destination bank of a home address; banks of other modules are apart. -/
def destBank (a : Nat) : Nat := if isForeign a then 2 ^ 20 * (a / foreignBase) + homeBank (a % foreignBase) else homeBank a

/-- The destination bank of an offset of a transfer's destination; bank 0 where the translation fails. -/
def State.offBank (s : State) (x : Xfer) (off : Nat) : Nat :=
  match (s.translate x.org.core (capObj x.dst) off rW).1 with
  | .home a _ => destBank a
  | .bad => 0
  | .absent => 0
  | .noPerm _ _ => 0

/-- The packets of destination arithmetic: each bank with its elements, in the order first touched (R207). -/
def packets : List (Nat × List Nat) → List (Nat × List Nat)
  | [] => []
  | (b, l) :: t =>
    let r := packets t
    match r.find? (·.1 = b) with
    | some p => (b, l ++ p.2) :: r.filter (·.1 ≠ b)
    | none => (b, l) :: r

/-- The offsets of the first and the last byte of an element of a command of destination arithmetic. -/
def Xfer.elemEnds (x : Xfer) (i : Nat) : Nat × Nat := (capOff x.dst + i * x.esz, capOff x.dst + i * x.esz + (x.esz - 1))

/-- The banks that an element touches, with the element at the bank of its first byte: an MX block may reach into a second bank, whose
packet carries nothing of it (R207, log 76). -/
def State.elemBanks (s : State) (x : Xfer) (i : Nat) : List (Nat × List Nat) :=
  let b := s.offBank x (x.elemEnds i).1
  let e := s.offBank x (x.elemEnds i).2
  if b = e then [(b, [i])] else [(b, [i]), (e, [])]

/-- The packets of a command of destination arithmetic: those it was split into at its start, which a page's later move leaves as they
are (R206, R207). -/
def State.arithPackets (s : State) (x : Xfer) : List (Nat × List Nat) :=
  x.parts.getD (packets ((List.range x.n).flatMap (s.elemBanks x)))

/-- A command of destination arithmetic is split into its packets, once. -/
def State.splitXfer (s : State) (x : Xfer) : Xfer :=
  if x.kind = .arith then { x with parts := some (s.arithPackets x) } else x

/-- The number of units of a command: 64-byte blocks of its destination, elements, packets, or 4 KiB chunks. -/
def State.units (s : State) (x : Xfer) : Nat :=
  match x.kind with
  | .get | .send | .sig => if x.n = 0 then 0 else (capOff x.dst + x.n + 63) / 64 - capOff x.dst / 64
  | .getx | .sendx => x.n
  | .arith => (s.arithPackets x).length
  | .copy => (x.n + 4095) / 4096
  | .marker => 0
  | .cut => 0

/-- A transfer that met a fault stops: its record is sent, and it is gone (R204, R284). The firing that pushed one whose elements are not
all applied counts in WORK for good (R337). -/
def State.stopXfer (s : State) (x : Xfer) (cause side obj off : Nat) : State :=
  let o := x.org
  let s := if x.kind.applies && x.landed.length < s.units x then { s with torn := setIns o.firing s.torn } else s
  ((s.dropXfer x.id).streamStart o.core 16).post
    (o.note (faultWords x.kind.record cause o.core (o.tid % 8) side obj off o.workid 0 0 0 0))

/-- The distance from the start and the length of a unit of a transfer: the part of an aligned 64-byte block of the destination that it
covers, so that a word aligned on both sides lies in one unit (R200) and a unit in one bank (R205; log 16). -/
def unitSpan (x : Xfer) (u : Nat) : Nat × Nat :=
  let d := capOff x.dst
  let lo := 64 * (d / 64 + u) - d
  let hi := min x.n (64 * (d / 64 + u + 1) - d)
  (lo, hi - lo)

/-- The offset of an element of the indexed capability; none where it is negative, out of bounds or misaligned (R202). -/
def indexedOff (c : Cap) (e : Nat) (i : Int) : Option Nat :=
  let off : Int := (capOff c : Int) + i * e
  if i < 0 || off < capBase c || off + e > capTop c || off % (e : Int) ≠ 0 then none else some off.toNat

/-- The entry of an index list that was read. -/
def Xfer.entry (x : Xfer) (u : Nat) : Option Int := ((x.list.getD [])[u]?).join

/-- The destination bank of a unit. -/
def State.unitBank (s : State) (x : Xfer) (u : Nat) : Option Nat :=
  match x.kind with
  | .get | .send | .sig => some (s.offBank x (capOff x.dst + (unitSpan x u).1))
  | .getx => some (s.offBank x (capOff x.dst + u * x.esz))
  | .sendx => ((x.entry u).bind (indexedOff x.dst x.esz)).map (s.offBank x)
  | .arith => ((s.arithPackets x)[u]?).map (·.1)
  | .copy => none
  | .marker => none
  | .cut => none

/-- The banks that a unit touches: that of its packet, and those into which a block of the packet reaches. -/
def State.unitBanks (s : State) (x : Xfer) (u : Nat) : List Nat :=
  let tails :=
    if x.kind = .arith then
      (((s.arithPackets x)[u]?.map (·.2)).getD []).map fun i => s.offBank x (x.elemEnds i).2
    else []
  (s.unitBank x u).toList ++ tails

/-- The kinds whose packets to one bank keep their issue order (R205). -/
def Xfer.inOrder (x : Xfer) : Bool := x.kind.applies

/-- A unit has reached its bank: it has landed, or waits there for its turn (R207). -/
def State.reached (s : State) (x : Xfer) (u : Nat) : Bool :=
  x.landed.contains u || s.reorder.any fun r => r.xfer = x.id && r.unit = u

/-- A command whose units' banks are not known yet: the index list of a scatter is still to be read. -/
def Xfer.unread (x : Xfer) : Bool := x.kind = .sendx && x.list.isNone

/-- A unit waits for an earlier packet of its core to a bank that it touches (R205), or for an earlier element of its own list that
goes to the same bank (R202). -/
def State.behind (s : State) (x : Xfer) (u : Nat) : Bool :=
  x.inOrder &&
    let b := s.unitBanks x u
    s.xfers.any fun y =>
      y.org.core = x.org.core && y.inOrder && (y.phase = .running || y.phase = .queued) && y.id ≤ x.id &&
        ((y.id < x.id && y.unread && b ≠ []) ||
          (List.range (s.units y)).any fun v =>
            (y.id < x.id || (x.kind = .sendx && v < u)) && !s.reached y v && (s.unitBanks y v).any b.contains)

/-! ## Moving a unit -/

/-- The accessor of a transfer's elements, which R245 counts; destination arithmetic counts by packets. -/
def State.elemAcc (s : State) (x : Xfer) : Acc := { s.accOf x.org with counted := x.kind ≠ .arith && x.kind ≠ .copy }

/-- The index list of a gather or scatter is read once: each entry whole; an entry with uncorrectable data reads as none
(R201, R202). -/
def State.readList (s : State) (x : Xfer) (c : Cap) : Nat → Except (Nat × Nat) (List (Option Int)) × State
  | 0 => (.ok [], s)
  | k + 1 =>
    match s.readList x c k with
    | (.error e, s) => (.error e, s)
    | (.ok l, s) =>
      match s.engRead (s.accOf x.org) (capObj c) (capOff c + k * x.isz) x.isz with
      | (.error e, s) => (.error e, s)
      | (.ok (b, p), s) => (.ok (l ++ [if p then none else some (signedNat (8 * x.isz) (leNat b))]), s)

/-- The bytes of a command's source. -/
def Xfer.srcLen (x : Xfer) : Nat := if x.kind = .sendx || x.kind = .arith then x.n * x.esz else x.n

/-- Bytes of the source, by their distance from its offset, that have not been read among n from `lo` on. -/
def Xfer.unseen (x : Xfer) (lo n : Nat) : List Nat := ((List.range n).map (lo + ·)).filter fun i => (smFind x.seen i).isNone

/-- The source bytes [lo, lo + n) of a command are read, where they have not been: each byte once, and each aligned 8-byte word of the
source whole (R340). -/
def State.readSource (s : State) (x : Xfer) (lo n : Nat) : Except (Nat × Nat) Xfer × State :=
  let d := capOff x.src
  let a := (d + lo) / 8 * 8 - d
  let e := min x.srcLen ((d + lo + n + 7) / 8 * 8 - d)
  match x.unseen a (e - a) with
  | [] => (.ok x, s)
  | i :: t =>
    let j := t.getLastD i + 1
    match s.engReadMarked (s.elemAcc x) (capObj x.src) (d + i) (j - i) with
    | (.error e, s) => (.error e, s)
    | (.ok (b, p), s) =>
      (.ok
        { x with
          seen := (i :: t).foldl (fun m k => smPut m k (b.getD (k - i) 0, p.getD (k - i) false)) x.seen }, s)

/-- Source bytes that were read, with their poison. -/
def Xfer.held (x : Xfer) (lo n : Nat) : List Byte × List Bool :=
  let l := (List.range n).map fun i => (smFind x.seen (lo + i)).getD (0, false)
  (l.map (·.1), l.map (·.2))

/-- The unit's data, the command with what it has read, or the cause and offset of the fault. -/
def State.unitData (s : State) (x : Xfer) (u : Nat) : Except (Nat × Nat) ((List Byte × List Bool) × Xfer) × State :=
  let c := s.elemAcc x
  let zeros := (List.replicate x.esz (0 : Byte), List.replicate x.esz false)
  let direct := fun (off n : Nat) =>
    match s.engReadMarked c (capObj x.src) off n with
    | (.ok d, s) => ((.ok (d, x) : Except (Nat × Nat) ((List Byte × List Bool) × Xfer)), s)
    | (.error e, s) => (.error e, s)
  let once := fun (lo n : Nat) =>
    match s.readSource x lo n with
    | (.ok x, s) => ((.ok (x.held lo n, x) : Except (Nat × Nat) ((List Byte × List Bool) × Xfer)), s)
    | (.error e, s) => (.error e, s)
  match x.kind with
  | .get => direct (capOff x.src + (unitSpan x u).1) (unitSpan x u).2
  | .send | .sig => once (unitSpan x u).1 (unitSpan x u).2
  | .getx =>
    match (x.entry u).bind (indexedOff x.src x.esz) with
    | some off => direct off x.esz
    | none => (.ok (zeros, x), s)
  | .sendx => once (u * x.esz) x.esz
  | .arith | .copy | .marker | .cut => (.ok (([], []), x), s)

/-- Where a unit goes: none for a skipped element (R202). -/
def Xfer.unitDest (x : Xfer) (u : Nat) : Option Nat :=
  match x.kind with
  | .get | .send | .sig => some (capOff x.dst + (unitSpan x u).1)
  | .getx => some (capOff x.dst + u * x.esz)
  | .sendx => (x.entry u).bind (indexedOff x.dst x.esz)
  | .arith => none
  | .copy => none
  | .marker => none
  | .cut => none

/-- The counts of R202 and R203 that a unit adds. -/
def Xfer.tally (x : Xfer) (u : Nat) (poison : Bool) : Xfer :=
  let idx := x.kind = .getx || x.kind = .sendx
  if idx && (x.list.getD []).getD u none = none then { x with pidx := x.pidx + 1 }
  else if idx && ((x.entry u).bind (indexedOff (if x.kind = .getx then x.src else x.dst) x.esz)).isNone then
    { x with range := x.range + 1 }
  else if poison then { x with pdata := x.pdata + 1 }
  else x

/-- One element of destination arithmetic on its bytes (R206): the result and whether an MX combine saturated. -/
def combineElem (e : Elem) (op : RedOp) (d v : List Byte) : List Byte × Bool :=
  match blockFmt e with
  | some f => f.combine op d v
  | none =>
    let n := elemBytes e
    if elemIsInt e then
      let x := signedNat (8 * n) (leNat d)
      let y := signedNat (8 * n) (leNat v)
      let z := match op with
        | .add => x + y
        | .min => min x y
        | .max => max x y
      (leBytes n (wrapNat (8 * n) z), false)
    else (leBytes n (destCombine (elemFmt e) op (leNat d) (leNat v)), false)

/-- The bytes that stand at the destination of an element; free values where its home is in another module (log 5). -/
def State.elemBytes (s : State) (src : Nat) : List (Nat × Nat) → List Byte × State
  | [] => ([], s)
  | (a, k) :: t =>
    let (b, s) := if isForeign a then s.freeBytes k else s.homeRead src a k
    let (bs, s) := s.elemBytes src t
    (b ++ bs, s)

/-- Whether the home of another module finds a part of an element's destination poisoned: a free value (log 5). -/
def State.elemAnswer (s : State) (ps : List (Nat × Nat)) : Bool × State :=
  if ps.any fun p => isForeign p.1 then
    let (b, s) := s.freeBytes 1
    (leNat b % 2 = 1, s)
  else (false, s)

/-- The pieces of bytes on one side, in other modules or in this one, written. -/
def State.putSide (s : State) (src : Nat) (far : Bool) : List (Nat × Nat) → List Byte → State
  | [], _ => s
  | (a, k) :: t, bs => (if isForeign a = far then s.homeWrite src a (bs.take k) else s).putSide src far t (bs.drop k)

/-- One element applied at its home, from its source's bytes (R206, R363): a poisoned source poisons the destination's granule; a
poisoned destination stays so; both count in PDATA. To a home in another module the operand leaves through the torus (R188), and each part of a
block that lies in this one takes its part of the combined block. -/
def State.applyElem (s : State) (x : Xfer) (i : Nat) (v : List Byte) (bad : Bool) : Except (Nat × Nat × Nat) Xfer × State :=
  let c := s.accOf x.org
  let d := capOff x.dst + i * x.esz
  if bad then
    match s.engPoison c (capObj x.dst) d v with
    | (.error (k, o), s) => (.error (k, 1, o), s)
    | (.ok _, s) => (.ok { x with pdata := x.pdata + 1 }, s)
  else
    match s.xlatRange c (capObj x.dst) d (rR + rW) (pagesOf d x.esz) x.esz with
    | (.error (k, o), s) => (.error (k, 1, o), s)
    | (.ok ps, s) =>
      let (w, s1) := s.elemBytes c.src ps
      let (gone, s1) := s1.elemAnswer ps
      let s1 := s1.putSide c.src true ps v
      if gone || ps.any fun p => s.poisoned p.1 p.2 then (.ok { x with pdata := x.pdata + 1 }, s1)
      else
        let (r, ovf) := combineElem x.elem x.op w v
        (.ok { x with ovf := x.ovf || ovf }, s1.putSide c.src false ps r)

/-- Elements with their operands applied in order. -/
def State.applyElems (s : State) (x : Xfer) : List (Nat × List Byte × Bool) → Except (Nat × Nat × Nat) Xfer × State
  | [] => (.ok x, s)
  | (i, v, bad) :: t =>
    match s.applyElem x i v bad with
    | (.error e, s) => (.error e, s)
    | (.ok x, s) => s.applyElems x t

/-- Parts of the source, each a distance and a length, are read (R340): the command with what it has read, or the cause and offset of
the fault. -/
def State.readSpans (s : State) (x : Xfer) : List (Nat × Nat) → Except (Nat × Nat) Xfer × State
  | [] => (.ok x, s)
  | (lo, n) :: t =>
    match s.readSource x lo n with
    | (.error e, s) => (.error e, s)
    | (.ok x, s) => s.readSpans x t

/-- The operands of a packet's elements are read. -/
def State.readElems (s : State) (x : Xfer) (is : List Nat) : Except (Nat × Nat) Xfer × State :=
  s.readSpans x (is.map fun i => (i * x.esz, x.esz))

/-- A packet of destination arithmetic counts once at each page that it touches (R245). -/
def State.countPacket (s : State) (x : Xfer) (is : List Nat) : State :=
  let offs := is.flatMap fun i => [(x.elemEnds i).1, (x.elemEnds i).2]
  (offs.map (· / 65536)).eraseDups.foldl
    (fun s page =>
      let off := (offs.find? (· / 65536 = page)).getD 0
      match s.translate x.org.core (capObj x.dst) off (rR + rW) with
      | (.home a e, s) =>
        let (a, s) := s.reach x.org.core a
        if e.counts a then s.countAccess x.org.core (frameOf a) e.obj page e.perm else s
      | (.bad, s) => s
      | (.absent, s) => s
      | (.noPerm _ _, s) => s) s

/-- The operand of an element that was read, and whether it is poisoned. -/
def Xfer.operand (x : Xfer) (i : Nat) : List Byte × Bool :=
  let (b, p) := x.held (i * x.esz) x.esz
  (b, p.any (·))

/-- The object of a side of a transfer (R284). -/
def Xfer.sideObj (x : Xfer) (side : Nat) : Nat :=
  if side = 0 then capObj x.src
  else if side = 1 then capObj x.dst
  else if side = 2 then capObj (x.idx.getD nullCap)
  else capObj x.ctr

/-- A unit has landed. -/
def State.markLanded (s : State) (x : Xfer) (u : Nat) : State :=
  s.putXfer { x with landed := setIns u x.landed, flight := x.flight.filter (·.unit ≠ u) }

/-- A packet has been applied: it has landed for its command and for those whose packet it carries, with the saturation and the
poisoned elements that it met in the status of each (R208, R229). -/
def State.landPacket (s : State) (x : Xfer) (u pdata : Nat) (ovf : Bool) : State :=
  let s := s.markLanded { x with ovf := x.ovf || ovf, pdata := x.pdata + pdata } u
  (x.merged.filter (·.1 = u)).foldl
    (fun s p =>
      match s.xfer? p.2 with
      | some y => s.markLanded { y with ovf := y.ovf || ovf, pdata := y.pdata + pdata } u
      | none => s) s

/-- A packet meets a fault: its command stops, and with it those whose packet it carries (R204, R208). -/
def State.stopPacket (s : State) (x : Xfer) (u k side off : Nat) : State :=
  (x.merged.filter (·.1 = u)).foldl
    (fun s p =>
      match s.xfer? p.2 with
      | some y => s.stopXfer y k side (y.sideObj side) off
      | none => s) (s.stopXfer x k side (x.sideObj side) off)

/-- A packet of destination arithmetic is applied: its source is read, unless a router has combined it, and then its elements are. -/
def State.applyPacket (s : State) (x : Xfer) (u : Nat) : State :=
  match (s.arithPackets x)[u]? with
  | none => s
  | some (_, is) =>
    let f := x.flight.find? (·.unit = u)
    let read := if f.isSome then ((.ok x : Except (Nat × Nat) Xfer), s) else s.readElems x is
    match read with
    | (.error (k, off), s) => s.stopXfer x k 0 (x.sideObj 0) off
    | (.ok x, s) =>
      let ops :=
        match f with
        | some f => (is.zip f.elems).map fun p => (p.1, p.2, false)
        | none => is.map fun i => (i, x.operand i)
      match (s.countPacket x is).applyElems { x with pdata := 0, ovf := false } ops with
      | (.ok y, s) => s.landPacket x u y.pdata (y.ovf || (f.map (·.ovf)).getD false)
      | (.error (k, side, off), s) => s.stopPacket x u k side off

/-- The key of a source's turn at a bank (R207). -/
def turnKey (x : Xfer) (bank : Nat) : Nat := (x.org.launch * 2 ^ 40 + bank) * 4096 + x.org.core

/-- Waiting packets of a source whose turn has come, or that a jump has left behind, are applied (R207). -/
def State.releaseTurns (s : State) (bank : Nat) : Nat → State
  | 0 => s
  | f + 1 =>
    let ready := fun (r : Reorder) =>
      r.bank = bank &&
        match s.xfer? r.xfer with
        | some x =>
          let d := (x.seq + 2 ^ 16 - smGet 0 s.turns (turnKey x bank)) % 2 ^ 16
          d = 0 || d ≥ 2 ^ 15
        | none => true
    match s.reorder.find? ready with
    | none => s
    | some r =>
      let s := { s with reorder := s.reorder.erase r }
      match s.xfer? r.xfer with
      | none => s.releaseTurns bank f
      | some x =>
        let k := turnKey x bank
        if x.seq = smGet 0 s.turns k then
          ({ s with turns := smPut s.turns k ((x.seq + 1) % 2 ^ 16) }.applyPacket x r.unit).releaseTurns bank f
        else ((s.putXfer { x with reord := true }).applyPacket { x with reord := true } r.unit).releaseTurns bank f

/-- A packet in ordered mode arrives at its bank (R207). -/
def State.arriveOrdered (s : State) (x : Xfer) (u bank : Nat) : State :=
  let k := turnKey x bank
  let d := (x.seq + 2 ^ 16 - smGet 0 s.turns k) % 2 ^ 16
  let y := { x with reord := true }
  if d = 0 then ({ s with turns := smPut s.turns k ((x.seq + 1) % 2 ^ 16) }.applyPacket x u).releaseTurns bank 65
  else if d < 2 ^ 15 && (s.reorder.filter (·.bank = bank)).length < 64 then
    { s with reorder := s.reorder ++ [⟨bank, x.org.core, x.id, u⟩] }
  else if d < 2 ^ 15 then
    (({ s with turns := smPut s.turns k ((x.seq + 1) % 2 ^ 16) }.putXfer y).applyPacket y u).releaseTurns bank 65
  else (s.putXfer y).applyPacket y u

/-- A unit of a transfer is read, where it has not been, and lands. -/
def State.moveUnit (s : State) (x : Xfer) (u : Nat) : State :=
  match s.unitData x u with
  | (.error (k, off), s) => s.stopXfer x k 0 (x.sideObj 0) off
  | (.ok ((b, p), x), s) =>
    let x := x.tally u (p.any (·))
    match x.unitDest u with
    | none => s.markLanded x u
    | some off =>
      match s.engWriteMarked (s.elemAcc x) (capObj x.dst) off b p with
      | (.ok _, s) => s.markLanded x u
      | (.error (k, o), s) => s.stopXfer x k 1 (x.sideObj 1) o

/-- The index list is read, and destination arithmetic is split into packets, before the first unit moves. -/
def State.withList (s : State) (x : Xfer) : Option Xfer × State :=
  match x.idx, x.list with
  | some c, none =>
    match s.readList x c x.n with
    | (.ok l, s) =>
      let x := { x with list := some l }
      (some x, s.putXfer x)
    | (.error (k, off), s) => (none, s.stopXfer x k 2 (capObj c) off)
  | _, _ => (some (s.splitXfer x), s.putXfer (s.splitXfer x))

/-- A transfer whose counter has stepped and whose data has all landed is gone. -/
def State.retireXfer (s : State) (id : Nat) : State :=
  match s.xfer? id with
  | some x => if x.reported > 0 && x.landed.length ≥ s.units x then s.dropXfer id else s
  | none => s

/-- A unit lands, unless it waits for its order; a packet in ordered mode that is ahead of its turn waits in the reorder
table (R200 to R207). -/
def State.landUnit (s : State) (x unit : Nat) : State :=
  match s.xfer? x with
  | none => s
  | some y =>
    if y.phase ≠ .running || y.landed.contains unit then s
    else
      match s.withList y with
      | (none, s) => s
      | (some y, s) =>
        if unit ≥ s.units y || s.behind y unit || s.reorder.any (fun r => r.xfer = x && r.unit = unit) then s
        else if s.xfers.any (fun z => z.merged.contains (unit, x)) then s
        else
          let s :=
            if y.kind = .arith then
              (if y.ordered then s.arriveOrdered y unit ((s.unitBank y unit).getD 0) else s.applyPacket y unit)
            else s.moveUnit y unit
          s.retireXfer x

/-- TRANSFER_PACKET_APPLY (R200 to R207). -/
def execTransferPacketApply (x unit : Nat) : State → Host.Outcome State Fault Refusal :=
  event fun s => s.landUnit x unit

/-! ## Completion (R198, R199, R203, R204) -/

/-- The units of an RSEND whose data is poisoned and that have not landed: they count when they are read. -/
def State.unlandedPoison (s : State) (x : Xfer) : Nat :=
  if x.kind = .send then
    ((List.range (s.units x)).filter fun u =>
      !x.landed.contains u && (x.held (unitSpan x u).1 (unitSpan x u).2).2.any (·)).length
  else 0

/-- The counter step and status of a command whose data has moved; the command is reported. -/
def State.finishXfer (s : State) (x : Xfer) : State :=
  let core := x.org.core
  if x.ctr.tag then
    match s.counterStep (s.accOf x.org) x.ctr
        (some (x.range, x.pidx, x.pdata + s.unlandedPoison x, x.ovf, x.reord)) with
    | (.ok _, s) => ((s.putXfer { x with reported := 1 }).retireXfer x.id).streamStart core 16
    | (.error (k, off), s) => s.stopXfer x k 3 (capObj x.ctr) off
  else ((s.putXfer { x with reported := 1 }).retireXfer x.id).streamStart core 16

/-- A transfer completes: an RSEND when its source has been read, the others when every unit has landed (R198, R199). -/
def State.completeXfer (s : State) (x : Nat) : State :=
  match s.xfer? x with
  | none => s
  | some y =>
    if y.phase ≠ .running || y.reported > 0 then s
    else
      match y.kind with
      | .send =>
        match s.readSpans y ((List.range (s.units y)).map (unitSpan y)) with
        | (.ok y, s) => s.finishXfer y
        | (.error (k, off), s) => s.stopXfer y k 0 (capObj y.src) off
      | .get | .sig | .getx | .sendx | .arith =>
        match s.withList y with
        | (none, s) => s
        | (some y, s) => if y.landed.length ≥ s.units y then s.finishXfer y else s
      | .copy | .marker | .cut => s

/-- TRANSFER_COMPLETE (R198, R199). -/
def execTransferComplete (x : Nat) : State → Host.Outcome State Fault Refusal :=
  event fun s => s.completeXfer x

/-- The lane group in whose transmit queue a packet for another module waits (R217). -/
def State.outGroup (s : State) (x : Xfer) (unit : Nat) : Option Nat :=
  (s.unitBank x unit).bind fun b =>
    if b < 2 ^ 20 then none
    else (s.routeDir (b / 2 ^ 20 - 1)).map fun d => s.carrier (laneOf d x.org.core (b % 2 ^ 20))

/-- Two packets for the same elements of another module may be combined (R229): both of unordered add commands with one destination,
format and count, waiting for one transmit queue with nothing of the later one's core for its bank between them, and the result naming at
most 8 commands. -/
def State.combinable (s : State) (p q : Xfer) (unit : Nat) : Bool :=
  p.kind = .arith && q.kind = .arith && !p.ordered && !q.ordered && p.op = .add && q.op = .add && p.id < q.id &&
    p.phase = .running && q.phase = .running && capObj p.dst = capObj q.dst && capOff p.dst = capOff q.dst &&
    p.elem = q.elem && p.n = q.n && !s.behind p unit && !p.landed.contains unit && !q.landed.contains unit &&
    (s.arithPackets p)[unit]? = (s.arithPackets q)[unit]? && s.outGroup p unit = s.outGroup q unit && (s.outGroup p unit).isSome &&
    (s.unitBank p unit).any (· ≥ 2 ^ 20) && !q.merged.any (·.1 = unit) &&
    !s.xfers.any (fun z => z.merged.contains (unit, p.id) || z.merged.contains (unit, q.id)) &&
    (p.merged.filter (·.1 = unit)).length + 2 ≤ 8 &&
    !s.xfers.any fun z =>
      z.id < q.id && z.id ≠ p.id && z.org.core = q.org.core && z.inOrder &&
        (z.unread || (List.range (s.units z)).any fun v => !s.reached z v && s.unitBank z v = s.unitBank q unit)

/-- The operands of a packet's elements, where none is poisoned and no access faults, with the command that has read them. -/
def State.packetOps (s : State) (x : Xfer) (unit : Nat) : Option (List (List Byte) × Xfer) × State :=
  match x.flight.find? (·.unit = unit), (s.arithPackets x)[unit]? with
  | some f, _ => (some (f.elems, x), s)
  | none, none => (none, s)
  | none, some (_, is) =>
    match s.readElems x is with
    | (.error _, s) => (none, s)
    | (.ok x, s) => if is.any fun i => (x.operand i).2 then (none, s) else (some (is.map fun i => (x.operand i).1, x), s)

/-- The earlier packet takes in the later one (R208): its elements are the resident operands. -/
def State.combine (s : State) (p q : Xfer) (unit : Nat) : State :=
  match s.packetOps p unit with
  | (none, _) => s
  | (some (a, p), s1) =>
    match s1.packetOps q unit with
    | (none, _) => s
    | (some (b, q), s2) =>
      let both := (a.zip b).map fun v => combineElem p.elem .add v.1 v.2
      let ovf := both.any (·.2) || ((p.flight.find? (·.unit = unit)).map (·.ovf)).getD false
      (s2.putXfer q).putXfer
        { p with
          flight := p.flight.filter (·.unit ≠ unit) ++ [⟨unit, both.map (·.1), ovf⟩]
          merged := p.merged ++ [(unit, q.id)] }

/-- ROUTER_COMBINE (R229): two packets for the same elements of another module become one, which the destination applies once for every
contributor; a router is never obliged to combine. -/
def execRouterCombine (x y unit : Nat) : State → Host.Outcome State Fault Refusal :=
  event fun s =>
    match s.xfer? x, s.xfer? y with
    | some p, some q => if s.combinable (s.splitXfer p) (s.splitXfer q) unit then s.combine (s.splitXfer p) (s.splitXfer q) unit else s
    | _, _ => s

/-! ## FENCE (R193): it waits for landings of transfers -/

/-- An offset of a unit's destination: of a packet that carries only the reach of a block, that of the command's last byte. -/
def State.unitOff (s : State) (x : Xfer) (u : Nat) : Option Nat :=
  if x.kind = .arith then ((s.arithPackets x)[u]?).map fun p => (p.2.head?.map fun i => (x.elemEnds i).1).getD (x.elemEnds (x.n - 1)).2
  else x.unitDest u

/-- The home of a unit's destination, where it is known and present. -/
def State.unitHome (s : State) (x : Xfer) (u : Nat) : Option Nat :=
  (s.unitOff x u).bind fun o =>
    match (s.translate x.org.core (capObj x.dst) o rW).1 with
    | .home a _ => some a
    | .bad => none
    | .absent => none
    | .noPerm _ _ => none

/-- The kinds whose landing a fence orders before later loads (.LL), and before later stores and pushes (.SS). -/
def XKind.landsFor (k : XKind) (f : FenceKinds) : Bool :=
  match k with
  | .get | .getx => f.ll
  | .send | .sig | .sendx | .arith => f.ss
  | .copy | .marker | .cut => false

/-- A transfer of the executing firing that a fence orders has data still to land at a home in the fence's scope, or at one that is not
known yet. -/
def State.landingDue (s : State) (k : FenceKinds) (sc : Scope) : Bool :=
  s.xfers.any fun x =>
    x.org.firing = s.origin.firing && x.kind.landsFor k &&
      (x.unread ||
        (List.range (s.units x)).any fun u =>
          !x.landed.contains u &&
            match s.unitHome x u with
            | some a => s.inScope sc a
            | none => true)

/-- FENCE (R193): earlier loads have been answered (R372); earlier stores that it orders are performed; the bundle waits in real time
while a landing that it orders is still to come. -/
def execFence (k : FenceKinds) (sc : Scope) (s : State) : Host.Outcome State Fault Refusal :=
  if s.landingDue k sc then .next s
  else
    let s := if k.sl || k.ss then s.drainScope sc else s
    .next (s.setTh (s.th.step s.cur))

end Sys2Proof.Machine
end

