-- ==== Sys2Proof/Machine/Copy.lean ====
section
/-!
DEFINITION. Background copies: COPY, CRESUME and CDROP, the landing and reporting of chunks, suspension and completion, and
the streamer's markers (spec/21_streamer.md R277, R279 to R286).
-/

namespace Sys2Proof.Machine

/-! ## Parameter blocks (R279) -/

def ctlTags (w : Word) : Bool := bitW 14 w
def ctlSusp (w : Word) : Bool := bitW 15 w
def ctlActor (w : Word) : Nat := fieldW 13 8 w
def ctlHen (w : Word) : Bool := bitW 7 w
def ctlBen (w : Word) : Bool := bitW 6 w
def ctlBar (w : Word) : Nat := fieldW 5 4 w

/-- n bytes at an offset with the tags of their granules, read as loads of the thread in pieces within pages. -/
def loadTagged (w : Src) (c : Cap) (off : Nat) : Nat → Nat → M (List Byte × List Bool)
  | 0, _ => pure ([], [])
  | f + 1, n =>
    if n = 0 then pure ([], [])
    else do
      let k := min n (65536 - off % 65536)
      let (a, e) ← locate w false c off k rR
      let b ← readHome w off a k e
      let l := (List.range (k / 16)).map (a + 16 * ·)
      let old ← runS fun s => s.homeTags l
      let s ← get
      let g := List.zipWith (ownTag s.th.stores) l old
      let t ← loadTagged w c (off + k) f (n - k)
      return (b ++ t.1, g ++ t.2)

/-- A block of n bytes that a c register names, read as loads of the thread: its bytes and the tags of its granules. -/
def loadBlock (r : CReg) (need n align : Nat) : M (List Byte × List Bool) := do
  let t ← getTh
  let c := t.rc r
  checkCap (creg r) c need (capOff c) n align
  loadTagged (creg r) c (capOff c) (pagesOf (capOff c) n) n

/-- The capability at granule i of a block. -/
def blockCap (b : List Byte × List Bool) (i : Nat) : Cap := capFrom ((b.1.drop (16 * i)).take 16) (b.2.getD i false)

/-- The word at byte i of a block. -/
def blockWord (b : List Byte × List Bool) (i : Nat) : Word := wordLe ((b.1.drop i).take 8)

/-- The TVAL of R280. -/
def tvalWhich (creg which offs : Nat) : Word :=
  BitVec.ofNat 64 (2 ^ 62 + creg % 16 * 2 ^ 58 + which % 4 * 2 ^ 56 + offs % 2 ^ 56)

/-- The checks of R88 with the TVAL of R280. -/
def checkWhich (r : CReg) (which : Nat) (c : Cap) (need : Nat) (ea : Int) (n align : Nat) (ok : Nat → Bool) : M Unit :=
  if c.tag && missing need (capRights c) = 0 && !ok (capFmt c) then
    trapWhole 0x07 (tvalWhich r.val which (ea % 2 ^ 56).toNat)
  else
    match capCheck c need ea n align with
    | some (cause, offs) => trapWhole cause (tvalWhich r.val which offs)
    | none => pure ()

/-- Step 4 of R280 over [OFFSET + from_, OFFSET + from_ + len). -/
def checkCopy (r : CReg) (d c k : Cap) (from_ len : Nat) : M Unit := do
  checkWhich r 0 d rW (capOff d + from_ : Nat) len 1 fun _ => true
  checkWhich r 1 c rR (capOff c + from_ : Nat) len 1 fun _ => true
  if k.tag then checkWhich r 2 k (rR + rW + rA) (capOff k) 16 8 fun f => f = 0 || f = 4

/-- Step 5 of R280. -/
def checkTags (r : CReg) (d c : Cap) (len : Nat) : M Unit := do
  if missing rS (capRights d) ≠ 0 then trapWhole 0x06 (tvalWhich r.val 0 rS)
  if missing rC (capRights c) ≠ 0 then trapWhole 0x06 (tvalWhich r.val 1 rC)
  if capOff d % 16 ≠ 0 then trapWhole 0x0E (tvalWhich r.val 0 (capOff d))
  if capOff c % 16 ≠ 0 then trapWhole 0x0E (tvalWhich r.val 1 (capOff c))
  if len % 16 ≠ 0 then trapWhole 0x0E (tvalWhich r.val 0 (capOff d + len))

/-- XFERID of a copy (R282). -/
def xferidOf (tag num : Nat) : Word := BitVec.ofNat 64 (tag % 2 ^ 32 * 2 ^ 32 + num % 2 ^ 24)

/-- COPY (R280). -/
def execCopy (d : GReg) (r : CReg) : State → Host.Outcome State Fault Refusal :=
  run do
    let b ← loadBlock r (rR + rW + rC) 64 64
    let lw := blockWord b 48
    let cw := blockWord b 56
    let s ← get
    let o := s.origin
    if fieldW 39 36 lw ≠ 0 || fieldW 63 40 lw ≠ 0 then trapWhole 0x05 lw
    if fieldW 31 16 cw ≠ 0 || fieldW 3 0 cw ≠ 0 || ctlSusp cw || (ctlHen cw && !s.isKind o.launch (ctlActor cw) 2) ||
        (ctlBen cw && ctlBar cw ≥ (s.spec o.launch).barriers) then
      trapWhole 0x05 cw
    let len := fieldW 35 0 lw
    let dc := blockCap b 0
    let sc := blockCap b 1
    let kc := blockCap b 2
    checkCopy r dc sc kc 0 len
    if ctlTags cw then checkTags r dc sc len
    let num := smGet 0 s.copies o.core + 1
    let id := xferidOf (fieldW 63 32 cw) num
    enginePush 2 fun s o =>
      { s with copies := smPut s.copies o.core (num % 2 ^ 24) }.pushStream
        { Xfer.fresh .copy o with
          dst := dc, src := sc, ctr := kc, blk := s.th.rc r, n := len, ctl := cw, xferid := id }
    writeI (.g d id)
    advance

/-! ## Chunks (R281, R283, R284) -/

/-- The bytes of chunk c. -/
def chunkLen (x : Xfer) (c : Nat) : Nat := min 4096 (x.n - 4096 * c)

/-- CURSOR and SUSP written into the block (R283). -/
def State.markBlock (s : State) (x : Xfer) (susp : Bool) : State :=
  let c := s.accOf x.org
  match s.engReadWhole c (capObj x.blk) (capOff x.blk + 48) 16 with
  | (.error _, s) => s
  | (.ok b, s) =>
    let lw := wordLe (b.take 8)
    let cw := wordLe (b.drop 8)
    let lw' := if susp then putField 63 40 lw x.reported else lw
    let cw' := putField 15 15 cw (if susp then 1 else 0)
    (s.engWrite c (capObj x.blk) (capOff x.blk + 48) (leBytes 8 lw'.toNat ++ leBytes 8 cw'.toNat)).2

/-- A copy is suspended: the block is marked and the record is sent (R283, R284). -/
def State.suspend (s : State) (x : Xfer) (byStep : Bool) (cause side obj off : Nat) : State :=
  let o := x.org
  let x := { x with phase := .suspended byStep, landed := [] }
  let s := ((s.putXfer x).markBlock x true).streamStart o.core 16
  s.post (o.note (faultWords 5 cause o.core (o.tid % 8) side obj off o.workid (capObj x.blk) (capOff x.blk) x.reported
    x.xferid))

/-- The granule tags of a chunk as they stand in s, or as another module holds them (log 5), are set in t, where the chunk has landed
(R281). -/
def State.copyTags (s t : State) (x : Xfer) (c : Nat) : State :=
  let acc := s.accOf x.org
  let n := chunkLen x c
  let so := capOff x.src + 4096 * c
  let d := capOff x.dst + 4096 * c
  match s.xlatRange acc (capObj x.src) so rR (pagesOf so n) n, s.xlatRange acc (capObj x.dst) d rW (pagesOf d n) n with
  | (.ok p, _), (.ok q, _) =>
    ((pieceAddrs p).zip (pieceAddrs q)).foldl
      (fun t a =>
        if a.2 % 16 ≠ 0 then t
        else
          let (g, t) := if isForeign a.1 then t.homeTag a.1 else (s.tagAt a.1, t)
          if g then t.setTag a.2 else t) t
  | _, _ => t

/-- Chunks that have landed with every lower chunk reported are reported; with BEN their bytes leave the barrier's BYTES
(R281). -/
def State.report (s : State) (id : Nat) : Nat → State
  | 0 => s
  | f + 1 =>
    match s.xfer? id with
    | none => s
    | some x =>
      if x.landed.contains x.reported then
        let s := s.putXfer { x with reported := x.reported + 1 }
        let s := if ctlBen x.ctl then s.landBytes x.org.launch x.org.team (ctlBar x.ctl) (chunkLen x x.reported) else s
        s.report id f
      else s

/-- Bytes written to a list of pieces by the streamer of a source's home (R278). -/
def State.piecesFrom (s : State) (core home : Nat) : List (Nat × Nat) → List Byte → State
  | [], _ => s
  | (a, k) :: t, bs => (s.writeFrom core home a (bs.take k)).piecesFrom core home t (bs.drop k)

/-- The parts of a chunk as the streamers of their homes read them (R278): each with its home. To a home in another module a copy request
goes; what its streamer reads is open (log 5). -/
def State.partsOf (s : State) (core : Nat) : List (Nat × Nat) → List (Nat × List Byte) × State
  | [] => ([], s)
  | (a, k) :: t =>
    let (b, s) := if isForeign a then (s.sendPacket core a []).freeBytes k else (memBytes s.mem a k, s)
    let (l, s) := s.partsOf core t
    ((a, b) :: l, s)

/-- A chunk's read, or the cause and offset of the fault that it meets (R281, R283). -/
def State.chunkRead (s : State) (c : Acc) (obj off n : Nat) : Except (Nat × Nat) (List (Nat × List Byte)) × State :=
  match s.xlatRange c obj off rR (pagesOf off n) n with
  | (.error e, s) => (.error e, s)
  | (.ok ps, s) =>
    if ps.any fun p => s.poisoned p.1 p.2 then (.error (0x0F, off), s)
    else
      let (l, s) := s.partsOf c.core ps
      (.ok l, s)

/-- Parts of a chunk written one after another, each by the streamer of its home (R278). -/
def State.partsWrite (s : State) (c : Acc) (obj off : Nat) : List (Nat × List Byte) → State
  | [] => s
  | (home, bs) :: t =>
    match s.xlatRange c obj off rW (pagesOf off bs.length) bs.length with
    | (.ok ps, s) => (s.piecesFrom c.core home ps bs).partsWrite c obj (off + bs.length) t
    | (.error _, s) => s

/-- A chunk's write, whole or not at all. -/
def State.chunkWrite (s : State) (c : Acc) (obj off : Nat) (l : List (Nat × List Byte)) : Except (Nat × Nat) Unit × State :=
  let n := sumNat (l.map (·.2.length))
  match s.xlatRange c obj off rW (pagesOf off n) n with
  | (.error e, s) => (.error e, s)
  | (.ok ps, s) => if s.anyDown ps then (.error (0x0F, off), s) else (.ok (), s.partsWrite c obj off l)

/-- A chunk of a copy is read at its source's home and lands, or suspends the copy (R278, R281, R283). -/
def State.landChunk (s : State) (y : Xfer) (chunk : Nat) : State :=
  let c := s.accOf y.org
  let n := chunkLen y chunk
  match s.chunkRead c (capObj y.src) (capOff y.src + 4096 * chunk) n with
  | (.error (k, off), s) => s.suspend y false k 0 (capObj y.src) off
  | (.ok b, s0) =>
    match s0.chunkWrite c (capObj y.dst) (capOff y.dst + 4096 * chunk) b with
    | (.error (k, off), s) => s.suspend y false k 1 (capObj y.dst) off
    | (.ok _, s1) =>
      let s2 := if ctlTags y.ctl then s0.copyTags s1 y chunk else s1
      (s2.putXfer { y with landed := setIns chunk y.landed }).report y.id (s.units y)

/-- COPY_CHUNK_LAND (R278, R281): a chunk that has not landed lands, or suspends the copy. -/
def execCopyChunkLand (x chunk : Nat) : State → Host.Outcome State Fault Refusal :=
  event fun s =>
    match s.xfer? x with
    | none => s
    | some y =>
      if y.kind ≠ .copy || y.phase ≠ .running || chunk ≥ s.units y || chunk < y.reported || y.landed.contains chunk then s
      else s.landChunk y chunk

/-! ## Completion (R281, R282) -/

/-- The completion element or the handler's firing. -/
def State.completeCopy (s : State) (x : Xfer) : State :=
  let o := x.org
  let s := (s.dropXfer x.id).streamStart o.core 16
  if ctlHen x.ctl then
    s.post
      { core := o.core, launch := some o.launch, team := o.team, record := false, org := none,
        actor := some (ctlActor x.ctl), workid := o.workid,
        words := eight [x.xferid, BitVec.ofNat 64 (capOff x.blk), BitVec.ofNat 64 x.n], copied := some x.xferid }
  else s.deliver o 3 x.xferid

/-- The counter of a copy takes its step, and the copy completes (R281, R282). -/
def State.stepCopy (s : State) (y : Xfer) : State :=
  if y.ctr.tag then
    match s.counterStep (s.accOf y.org) y.ctr none with
    | (.ok _, s) => s.completeCopy y
    | (.error (k, off), s) => s.suspend y true k 3 (capObj y.ctr) off
  else s.completeCopy y

/-- COPY_COMPLETE (R281, R282): after the last report the counter takes its step, and the copy completes. -/
def execCopyComplete (x : Nat) : State → Host.Outcome State Fault Refusal :=
  event fun s =>
    match s.xfer? x with
    | none => s
    | some y =>
      if y.kind ≠ .copy || y.phase ≠ .running || y.reported < s.units y || s.holding y.org.core 2 then s
      else s.stepCopy y

/-! ## CRESUME and CDROP (R285) -/

/-- The suspended copy of the executing thread's team recorded for a block. -/
def State.suspendedFor (s : State) (blk : Cap) : Option (Xfer × Bool) :=
  s.xfers.findSome? fun x =>
    match x.phase with
    | .suspended b =>
      if x.org.launch = s.th.launchId && x.org.team = s.th.teamNo && capObj x.blk = capObj blk &&
          capOff x.blk = capOff blk then some (x, b)
      else none
    | .queued => none
    | .running => none
    | .stopped => none

/-- The block of CRESUME and CDROP, and the copy it names. -/
def readSuspended (r : CReg) : M ((List Byte × List Bool) × Xfer × Bool) := do
  let b ← loadBlock r (rR + rW + rC) 64 64
  let cw := blockWord b 56
  let s ← get
  match s.suspendedFor (s.th.rc r) with
  | some (x, st) => if ctlSusp cw then return (b, x, st) else trapWhole 0x05 cw
  | none => trapWhole 0x05 cw

/-- A suspended copy joins the streamer's queue again, behind the commands pushed before (R277), and its block's SUSP is cleared. -/
def State.requeue (s : State) (x : Xfer) : State :=
  ({ s.dropXfer x.id with xfers := (s.dropXfer x.id).xfers ++ [x] }.markBlock x false).streamStart x.org.core 16

/-- A command of an origin puts a suspended copy back in the queue: it is a push of that firing too (R277). -/
def State.pushBack (s : State) (o : Origin) (x : Xfer) : State :=
  { s with serial := s.serial + 1 }.requeue { x with pushed := x.pushed ++ [(s.serial, o.firing)] }

/-- CRESUME (R285). -/
def execCresume (d : GReg) (r : CReg) : State → Host.Outcome State Fault Refusal :=
  run do
    let (b, x, _) ← readSuspended r
    let from_ := min x.n (4096 * x.reported)
    checkCopy r (blockCap b 0) (blockCap b 1) (blockCap b 2) from_ (x.n - from_)
    let id := putField 24 24 x.xferid 1
    enginePush 2 fun s o =>
      s.pushBack o
        { x with phase := .queued, dst := blockCap b 0, src := blockCap b 1, ctr := blockCap b 2, xferid := id,
                 landed := [] }
    writeI (.g d id)
    advance

/-- CDROP (R285): the unreported bytes leave the barrier in one update; the counter step is made unless it is what the copy
was suspended by, at the counter that the block names now, and the copy completes. -/
def execCdrop (d : GReg) (r : CReg) : State → Host.Outcome State Fault Refusal :=
  run do
    let (b, x, byStep) ← readSuspended r
    let id := putField 25 25 x.xferid 1
    enginePush 2 fun s o =>
      let rest := x.n - 4096 * x.reported
      let s := if ctlBen x.ctl then s.landBytes x.org.launch x.org.team (ctlBar x.ctl) rest else s
      s.pushBack o
        { x with phase := .queued, dst := blockCap b 0, src := blockCap b 1, xferid := id, reported := s.units x, landed := [],
                 ctr := if byStep then nullCap else blockCap b 2 }
    writeI (.g d id)
    advance

/-! ## Markers (R277) -/

/-- A command of the streamer has completed as R277 counts it. -/
def Xfer.completed (x : Xfer) : Bool := x.kind = .send && x.reported > 0

/-- A command of the firing that pushed a marker, before it, is part of a streamer command: the command itself, or a CRESUME or CDROP of the
copy (R277, R285). -/
def Xfer.before (y x : Xfer) : Bool :=
  (y.id < x.id && y.org.firing = x.org.firing) || y.pushed.any fun p => p.1 < x.id && p.2 = x.org.firing

/-- STREAMER_MARKER_DELIVERY (R277): the oldest marker of a core whose firing has no earlier command left delivers its
element to q3. -/
def execStreamerMarkerDelivery (core : Nat) : State → Host.Outcome State Fault Refusal :=
  event fun s =>
    let ready := fun (x : Xfer) =>
      x.kind = .marker && x.phase = .running && x.org.core = core &&
        !s.xfers.any fun y => y.before x && y.org.core = core && !y.completed
    if s.holding core 2 then s
    else
    match s.xfers.find? ready with
    | some x => (s.dropXfer x.id).deliver x.org 3 x.xferid
    | none => s

end Sys2Proof.Machine
end

