-- ==== Sys2Proof/Machine/Cut.lean ====
section
/-!
DEFINITION. Plane panels (spec/19_matrix.md R256, R257), source lanes of MPLANE (R263), and the cutter: CUT and COCUT
(spec/21_streamer.md R287 to R291).
-/

namespace Sys2Proof.Machine

/-! ## Panels (R256, R257) -/

/-- The bytes of a slab of P planes. -/
def slabSize (p : Nat) : Nat := 320 + 128 * p

/-- The size of a panel of k slabs. -/
def panelSize (p k : Nat) : Nat := 64 + k * slabSize p

/-- The 64-byte header of a panel. -/
def panelHeader (p : Nat) (role nslab : Nat) : List Byte :=
  leBytes 8 (nslab % 32 * 2 ^ 16 + role % 2 * 2 ^ 8 + p % 256) ++ leBytes 56 0

/-- The mark bits (M1, M0) of a position. -/
def markOf (b : PlaneBlock) (i : Nat) : Nat :=
  match b.marks.find? (·.1 = i) with
  | none => 0
  | some m => if m.2.isNaN then 3 else if m.2.neg then 2 else 1

/-- A 32-bit word whose bit i is given. -/
def wordBits (f : Nat → Bool) : Nat := (List.range 32).foldl (fun n i => if f i then n + 2 ^ i else n) 0

/-- Plane b of a block: bit b of the two's-complement significand of each position. -/
def planeWord (p b : Nat) (x : PlaneBlock) : Nat := wordBits fun i => (wrapNat p (x.sig.getD i 0)).testBit b

/-- A slab of 32 lanes (R257). -/
def slabBytes (p : Nat) (lanes : List PlaneBlock) : List Byte :=
  lanes.flatMap (fun l => leBytes 2 (wrapNat 16 l.exp)) ++
    (List.range p).flatMap (fun k => lanes.flatMap fun l => leBytes 4 (planeWord p (p - 1 - k) l)) ++
    lanes.flatMap (fun l => leBytes 4 (wordBits fun i => (markOf l i).testBit 0)) ++
    lanes.flatMap (fun l => leBytes 4 (wordBits fun i => (markOf l i).testBit 1))

/-- A panel of slabs, each with 32 lanes of 32 exact values. -/
def panelBytes (p role : Nat) (slabs : List (List (List FVal))) : List Byte :=
  panelHeader p role (slabs.length - 1) ++ slabs.flatMap fun s => slabBytes p (s.map (planeBlock p))

/-! ## Source lanes (R263) -/

/-- The source formats of MPLANE. -/
def planeElem (f : Nat) : Option Elem :=
  match fmtElem f with
  | some .i64 => none
  | some .pt => none
  | e => e

/-- The bytes of a lane of K elements, in whole blocks for the block formats. -/
def laneBytes (e : Elem) (k : Nat) : Nat :=
  match blockFmt e with
  | some f => (k + 31) / 32 * f.bytes
  | none => k * elemBytes e

/-- The exact values of a lane's bytes. -/
def laneVals (e : Elem) (b : List Byte) : List FVal :=
  match blockFmt e with
  | some f => (List.range (b.length / f.bytes)).flatMap fun i => f.decode ((b.drop (i * f.bytes)).take f.bytes)
  | none =>
    let n := elemBytes e
    (List.range (b.length / n)).map fun i => elemVal e (leNat ((b.drop (i * n)).take n))

/-- The alignment that a source of an element format needs: none for blocks. -/
def laneAlign (e : Elem) : Nat := if (blockFmt e).isSome then 1 else elemBytes e

/-- The check of a source of 32 lanes (R263): right R, its format, its range, and OFFSET and STRIDE aligned. -/
def checkSource (w : Src) (c : Cap) (stride k : Nat) : M Elem := do
  let e := planeElem (capFmt c)
  let el := e.getD .i8
  checkFmt w c rR (capOff c) (31 * stride + laneBytes el k) (laneAlign el) fun f => (planeElem f).isSome
  if stride % laneAlign el ≠ 0 then trap 0x0E (tvalCap w.src w.creg (capOff c + stride))
  else return el

/-- The check of a panel of n bytes: format 15, alignment 64. -/
def checkPanel (w : Src) (c : Cap) (need n : Nat) : M Unit := checkFmt w c need (capOff c) n 64 fun f => f = 15

/-! ## Reads and writes of the cutter: loads and stores of the thread that complete before the bundle (R288, R291) -/

/-- A read of n bytes at an offset of a capability. -/
def cutRead (w : Src) (c : Cap) (off n : Nat) : M (List Byte) := loadRange w c off (pagesOf off n) n

/-- A write of bytes at an offset of a capability, performed before the bundle completes. -/
def cutWrite (w : Src) (c : Cap) (off : Nat) (b : List Byte) : M Unit := do
  storeRange w c off (pagesOf off b.length) b
  drainMine

/-! ## The cutter's place in the streamer (R277) -/

/-- The place in the streamer that the executing bundle's CUT or COCUT holds. -/
def State.cutPlace (s : State) : Option Xfer :=
  s.xfers.find? fun x => x.kind = .cut && x.org.tid = s.origin.tid && x.org.firing = s.origin.firing

/-- The streamer of a core would start a command at once. -/
def State.streamIdle (s : State) (core : Nat) : Bool :=
  !s.xfers.any (fun x => x.org.core = core && x.phase = .queued) && s.streamRunning core < 8

/-- A CUT or COCUT is pushed, and is carried out once the streamer has started it (R277); until then its bundle waits in real time. A
full queue parks it, or in handler code gives trap 0x0A (R158, R159). -/
def cutTurn : M Unit := do
  let s ← get
  let core := s.origin.core
  match s.cutPlace with
  | some x => if x.phase = .running then modify fun s => (s.dropXfer x.id).streamStart core 16 else stop .wait
  | none =>
    if !s.engineFree 2 then parkOr (.engine 2)
    else if s.streamIdle core then pure ()
    else do
      modify fun s => s.pushXfer (Xfer.fresh .cut s.origin)
      stop .wait

/-! ## CUT (R287, R288) -/

/-- The TVAL of trap 0x0C. -/
def tvalSparse (reason offs : Nat) : Word := BitVec.ofNat 64 (reason * 2 ^ 60 + offs % 2 ^ 56)

/-- The element codes of a bitmap-sparse operand. -/
def sparseElem (c : Nat) : Option Elem := if c = 3 then none else planeElem c

/-- The set columns of a bitmap at or above j. -/
def setFrom (bm : Word) (j : Nat) : List Nat := (List.range 64).filter fun i => j ≤ i && bm.getLsbD i

/-- A sparse operand's header as the cutter uses it. -/
structure SparseHdr where
  nseg : Nat
  nrs  : Nat
  elem : Elem
  deriving DecidableEq, Repr

/-- The header is read; an invalid one takes trap 0x0C with REASON 1. -/
def sparseHeader (w : Src) (c : Cap) : M SparseHdr := do
  let o := capOff c
  let b ← cutRead w c o 64
  let h := wordLe (b.take 8)
  match sparseElem (fieldW 3 0 h) with
  | some e =>
    if fieldW 63 48 h ≠ 0 || fieldW 15 4 h ≠ 0 || (b.drop 8).any (· ≠ 0) then trap 0x0C (tvalSparse 1 o)
    else return ⟨fieldW 47 32 h, fieldW 31 16 h, e⟩
  | none => trap 0x0C (tvalSparse 1 o)

/-- The bytes of a packed column. -/
def columnBytes (e : Elem) : Nat := laneBytes e 32

/-- An entry at its first use (R288): the bitmap and the offset of its packed values, of which an entry with LEN 0 has none. -/
def sparseEntry (w : Src) (c : Cap) (h : SparseHdr) (slab seg : Nat) : M (Word × Nat) := do
  let o := capOff c + 64 + 16 * (slab * (h.nseg + 1) + seg)
  checkCap w c rR (o : Nat) 16 1
  let b ← cutRead w c o 16
  let bm := wordLe (b.take 8)
  let w1 := wordLe (b.drop 8)
  let len := fieldW 63 56 w1
  let voff := fieldW 47 0 w1
  if len > 64 then trap 0x0C (tvalSparse 3 o)
  else if popN 64 bm.toNat ≠ len then trap 0x0C (tvalSparse 2 o)
  else if voff % laneAlign h.elem ≠ 0 then trap 0x0C (tvalSparse 4 o)
  else
    if len ≠ 0 then checkCap w c rR (capOff c + voff : Nat) (len * columnBytes h.elem) 1
    return (bm, capOff c + voff)

/-- Columns with the offsets of their packed values, and the first k not covered: the segments from g on, among `f`. -/
def cutScan (w : Src) (c : Cap) (h : SparseHdr) (slab : Nat) : Nat → Nat → List (Nat × Nat) → M (List (Nat × Nat) × Nat)
  | 0, k, l => pure (l, k)
  | f + 1, k, l =>
    if k ≥ 64 * (h.nseg + 1) || l.length ≥ 64 then pure (l, k)
    else do
      let (bm, vo) ← sparseEntry w c h slab (k / 64)
      let cols := setFrom bm (k % 64)
      let room := 64 - l.length
      let take := cols.take room
      let at_ := fun (i : Nat) =>
        vo + columnBytes h.elem * ((List.range i).filter (bm.getLsbD ·)).length
      let l' := l ++ take.map fun i => (k / 64 * 64 + i, at_ i)
      let k' := if cols.length ≥ room then k / 64 * 64 + take.getLastD 0 + 1 else (k / 64 + 1) * 64
      cutScan w c h slab f k' l'

/-- The values of the columns, each 32 rows. -/
def cutColumns (w : Src) (c : Cap) (e : Elem) : List (Nat × Nat) → M (List (List FVal))
  | [] => pure []
  | (_, o) :: t => do
    let b ← cutRead w c o (columnBytes e)
    let r ← cutColumns w c e t
    return laneVals e b :: r

/-- Two slabs of 32 lanes from up to 64 columns: position j of lane l is row l of column j, and 0 beyond. -/
def columnsToSlabs (cols : List (List FVal)) : List (List (List FVal)) :=
  (List.range 2).map fun s => lanes32.map fun l => lanes32.map fun i => (cols.getD (32 * s + i) []).getD l (.fin false 0 0)

/-- The predicate and the cut word (R288). -/
def cutWord (slab n k : Nat) : Word := BitVec.ofNat 64 (slab % 2 ^ 16 * 2 ^ 48 + n % 2 ^ 16 * 2 ^ 32 + k % 2 ^ 32)

/-- CUT (R288). -/
def execCut (planes : Fin 16) (p : PReg) (d : GReg) (dst src : CReg) : State → Host.Outcome State Fault Refusal :=
  run do
    let t ← getTh
    let np := planes.val + 1
    let dc := t.rc dst
    let sc := t.rc src
    let wd := creg dst
    let ws := creg src
    checkPanel wd dc rW (64 + 2 * slabSize np)
    checkFmt ws sc rR (capOff sc) 64 64 fun f => f = 16
    cutTurn
    drainMine
    let h ← sparseHeader ws sc
    let slab := fieldW 63 48 (t.rg d)
    let k := fieldW 31 0 (t.rg d)
    if slab > h.nrs then trapWhole 0x05 (t.rg d)
    let (l, k') ← cutScan ws sc h slab 65537 k []
    if l ≠ [] then
      let cols ← cutColumns ws sc h.elem l
      cutWrite wd dc (capOff dc) (panelBytes np 0 (columnsToSlabs cols))
    let w := cutWord slab l.length k'
    writeI (.g d w)
    writeI (.p p (decide (l ≠ [])))
    modTh fun t => { t with cut := some (w, l.map (·.1)) }
    advance

/-! ## COCUT (R290) -/

/-- Element i of a lane that starts at an offset: its own bytes are read, or those of its block. -/
def partnerElem (w : Src) (c : Cap) (e : Elem) (off i : Nat) : M FVal :=
  match blockFmt e with
  | some f => do
    let b ← cutRead w c (off + i / 32 * f.bytes) f.bytes
    return (f.decode b).getD (i % 32) (.fin false 0 0)
  | none => do
    let b ← cutRead w c (off + i * elemBytes e) (elemBytes e)
    return elemVal e (leNat b)

/-- The listed elements of a lane that starts at an offset. -/
def partnerLane (w : Src) (c : Cap) (e : Elem) (off : Nat) : List Nat → M (List FVal)
  | [] => pure []
  | i :: ks => do
    let v ← partnerElem w c e off i
    let r ← partnerLane w c e off ks
    return v :: r

/-- The lanes of the partner, from lane j on. -/
def partnerLanes (w : Src) (c : Cap) (e : Elem) (stride : Nat) (ks : List Nat) : Nat → Nat → M (List (List FVal))
  | 0, _ => pure []
  | f + 1, j => do
    let v ← partnerLane w c e (capOff c + j * stride) ks
    let r ← partnerLanes w c e stride ks f (j + 1)
    return v :: r

/-- COCUT (R290). -/
def execCocut (wide : Bool) (a : GReg) (dst src : CReg) : State → Host.Outcome State Fault Refusal :=
  run do
    let s ← get
    let t := s.th
    let cw := t.rg a
    let desc := t.rg (Fin.ofNat 32 (a.val + 1))
    if (t.cut.map (·.1)) ≠ some cw then trapWhole 0x05 cw
    if fieldW 63 32 desc ≠ 0 then trapWhole 0x05 desc
    let n := fieldW 47 32 cw
    if n = 0 then
      cutTurn
      advance
    else
      let np := if wide then 16 else 8
      let dc := t.rc dst
      let sc := t.rc src
      let stride := fieldW 31 0 desc
      let ks := (t.cut.map (·.2)).getD []
      checkPanel (creg dst) dc rW (64 + 2 * slabSize np)
      let e ← checkSource (creg src) sc stride (fieldW 31 0 cw)
      cutTurn
      drainMine
      let lanes ← partnerLanes (creg src) sc e stride ks 32 0
      let slabs := (List.range 2).map fun k => lanes.map fun l => lanes32.map fun i => l.getD (32 * k + i) (.fin false 0 0)
      cutWrite (creg dst) dc (capOff dc) (panelBytes np 1 slabs)
      advance

end Sys2Proof.Machine
end

