-- ==== Sys2Proof/Machine/Matrix.lean ====
section
/-!
DEFINITION. The matrix unit (spec/19_matrix.md R253 to R273): tile checks and status, the instructions that push commands,
the commands at the unit, chunks of MMA and MMAS with their energy tokens (spec/29_service.md R367), releases and markers.
-/

namespace Sys2Proof.Machine

/-! ## Tiles and their status (R254, R255, R262) -/

def stValid (w : Word) : Bool := bitW 0 w
def stFlt (w : Word) : Bool := bitW 2 w
def stErr (w : Word) : Bool := bitW 3 w
def stHeld (w : Word) : Bool := bitW 4 w
def stRelp (w : Word) : Bool := bitW 5 w
def stCursor (w : Word) : Nat := fieldW 12 8 w

/-- A status word with one bit replaced. -/
def stSet (i : Nat) (b : Bool) (w : Word) : Word := putField i i w (if b then 1 else 0)

/-- ERR, CODE and CHUNK cleared. -/
def stNoErr (w : Word) : Word := putField 39 32 (putField 23 20 (stSet 3 false w) 0) 0

/-- ERR set; CODE and CHUNK only where ERR was 0 (R255). -/
def stRefuse (code chunk : Nat) (w : Word) : Word :=
  if stErr w then w else putField 39 32 (putField 23 20 (stSet 3 true w) code) chunk

def State.tile (s : State) (core t : Nat) : Tile := smGet Tile.clear (s.matrixOf core).tiles t

def State.setTile (s : State) (core t : Nat) (x : Tile) : State :=
  let u := s.matrixOf core
  s.setMatrix core { u with tiles := smPut u.tiles t x }

/-- The status word of a tile changed. -/
def State.restat (s : State) (core t : Nat) (f : Word → Word) : State :=
  let x := s.tile core t
  s.setTile core t { x with status := f x.status }

/-- The tile checks at issue (R262): the allocation, then the state; the physical tile. -/
def checkTile (t : TReg) (bad : Word → Bool) : M Nat := do
  lawful (·.tileIllegal t)
  let s ← get
  let pt := s.physTile s.th t
  let w := s.tileStatus s.origin.core pt
  if bad w then trap 0x13 w else return pt

/-- R262's table for MMA, MMAS and MEPI. -/
def badUse (w : Word) : Bool := !stValid w || stRelp w || stErr w || stHeld w

/-- A command naming a tile is pushed, with its status changes (R255). -/
def pushTile (pt : Nat) (f : Word → Word) (b : MBody) : M Unit :=
  enginePush 0 fun s o => (s.restat o.core pt fun w => f (stSet 2 true w)).pushMatrix o b

/-! ## The instructions -/

/-- MPLANE (R263). -/
def execMplane (p : Fin 16) (dst src : CReg) (n : GReg) : State → Host.Outcome State Fault Refusal :=
  run do
    let t ← getTh
    let g := t.rg n
    if fieldW 62 53 g ≠ 0 || fieldW 47 32 g ≠ 0 then trapWhole 0x05 g
    let np := p.val + 1
    let slabs := fieldW 52 48 g + 1
    let d := t.rc dst
    let c := t.rc src
    checkPanel (creg dst) d rW (panelSize np slabs)
    let _ ← checkSource (creg src) c (fieldW 31 0 g) (32 * slabs)
    enginePush 0 fun s o =>
      s.pushMatrix o (.plane np d c (if bitW 63 g then 1 else 0) (slabs - 1) (fieldW 31 0 g))
    advance

/-- MMA and MMAS after R262: capabilities and k-range, then the push. -/
def pushMma (planes : Option (Fin 16 × Fin 16)) (t : TReg) (pt : Nat) (ca cb : CReg) (start len : Nat) (sparse : Bool)
    (desc : Word) (bad : Bool) : M Unit := do
  let th ← getTh
  let a := th.rc ca
  let b := th.rc cb
  checkPanel (creg ca) a rR 64
  checkPanel (creg cb) b rR 64
  if bad then trapWhole 0x05 desc
  pushTile pt (stSet 1 true)
    (.mma t.val pt (planes.map fun p => (p.1.val + 1, p.2.val + 1)) a b start len sparse)

/-- MMA (R264). -/
def execMma (planes : Option (Fin 16 × Fin 16)) (t : TReg) (ca cb : CReg) (k : GReg) :
    State → Host.Outcome State Fault Refusal :=
  run do
    let pt ← checkTile t badUse
    let th ← getTh
    let g := th.rg k
    let start := fieldW 31 16 g
    let len := fieldW 10 0 g
    let bad := fieldW 63 32 g ≠ 0 || fieldW 15 11 g ≠ 0 || len % 16 ≠ 0 || len < 16 || len > 1024 || start % 16 ≠ 0 ||
      start + len > 1024
    pushMma planes t pt ca cb start len false g bad
    advance

/-- MMAS (R265): an empty cut word does nothing after the allocation check. -/
def execMmas (planes : Option (Fin 16 × Fin 16)) (t : TReg) (ca cb : CReg) (k : GReg) :
    State → Host.Outcome State Fault Refusal :=
  run do
    let _ ← checkTile t fun _ => false
    let th ← getTh
    let g := th.rg k
    let n := fieldW 47 32 g
    if n = 0 then advance
    else
      let pt ← checkTile t badUse
      pushMma planes t pt ca cb 0 (16 * ((n + 15) / 16)) true g (n > 64)
      advance

/-- The element code of an epilogue's destination format (R266). -/
def epiElem (f : Nat) : Option Elem :=
  match fmtElem f with
  | some .fp32 => some .fp32
  | some .fp16 => some .fp16
  | some .bf16 => some .bf16
  | some .e4m3 => some .e4m3
  | some .e5m2 => some .e5m2
  | some .mxe4m3 => some .mxe4m3
  | some .mxe5m2 => some .mxe5m2
  | some .mxe2m1 => some .mxe2m1
  | some .e2m1x => some .e2m1x
  | _ => none

/-- n steps of the LFSR (R31). -/
def lfsrSteps : Nat → BitVec 32 → BitVec 32
  | 0, l => l
  | n + 1, l => lfsrSteps n (lfsrStep l)

/-- MEPI (R266). -/
def execMepi (act : Act) (r : Rnd) (e : Option Elem) (t : TReg) (dst : CReg) (n : GReg) :
    State → Host.Outcome State Fault Refusal :=
  run do
    let pt ← checkTile t badUse
    let th ← getTh
    let g := th.rg n
    let d := th.rc dst
    let acc := bitW 63 g
    let stride := fieldW 31 0 g
    let el := (epiElem (capFmt d)).getD .fp32
    let isBlock := (blockFmt el).isSome
    let need := if acc then rR + rW else rW
    checkFmt (creg dst) d need (capOff d) (31 * stride + laneBytes el 32) (laneAlign el)
      fun f => (epiElem f).isSome && (e.isNone || e = epiElem f)
    if stride % laneAlign el ≠ 0 then trap 0x0E (tvalCap 1 dst.val (capOff d + stride))
    let clamp := fieldW 47 32 g
    let badL := act = .clamp && ((bf16.decode clamp).isNaN || clamp ≥ 2 ^ 15)
    if fieldW 62 48 g ≠ 0 || (acc && el = .e2m1x) || (acc && isBlock && r ≠ .rne) || badL then trapWhole 0x05 g
    pushTile pt id
      (.epi t.val pt
        { dst := d, acc := acc, bound := BitVec.ofNat 16 clamp, stride := stride, act := act, rnd := r, l0 := th.lfsr })
    if r = .rs then modTh fun t => { t with lfsr := lfsrSteps 1024 t.lfsr }
    advance

/-- MEPIRP (R269). -/
def execMepirp (t : TReg) : State → Host.Outcome State Fault Refusal :=
  run do
    let pt ← checkTile t fun w => !stHeld w
    pushTile pt id (.replay t.val pt)
    advance

/-- MZERO (R270). -/
def execMzero (t : TReg) : State → Host.Outcome State Fault Refusal :=
  run do
    let pt ← checkTile t fun w => stRelp w || stHeld w
    pushTile pt (fun w => stSet 0 true (stSet 1 true w)) (.zero t.val pt)
    advance

/-- MREL (R270). -/
def execMrel (t : TReg) : State → Host.Outcome State Fault Refusal :=
  run do
    let pt ← checkTile t fun w => !stValid w || stRelp w
    pushTile pt (stSet 5 true) (.release t.val pt)
    advance

/-- MSTAT (R271). -/
def execMstat (d : GReg) (t : TReg) : State → Host.Outcome State Fault Refusal :=
  run do
    let pt ← checkTile t fun _ => false
    let s ← get
    writeI (.g d (s.tileStatus s.origin.core pt))
    advance

/-- MSTATC (R271): ERR, CODE and CHUNK are cleared after the answer. -/
def execMstatc (d : GReg) (t : TReg) : State → Host.Outcome State Fault Refusal :=
  run do
    let pt ← checkTile t fun _ => false
    let s ← get
    writeI (.g d (s.tileStatus s.origin.core pt))
    modify fun s => s.restat s.origin.core pt stNoErr
    advance

/-- MWAIT (R272). -/
def execMwait (t : TReg) : State → Host.Outcome State Fault Refusal :=
  run do
    let pt ← checkTile t fun _ => false
    let s ← get
    if stFlt (s.tileStatus s.origin.core pt) then parkOr (.mwait pt)
    advance

/-! ## Records and refusals at the unit (R255, R262, R273) -/

/-- A record of R273. -/
def State.matrixRecord (s : State) (o : Origin) (kind cause tile pos obj off : Nat) : State :=
  s.post (o.note (faultWords kind cause o.core (o.tid % 8) (tile % 256 + pos % 256 * 256) obj off o.workid 0 0 0 0))

/-- A command that the unit refuses changes only its tile's status. -/
def State.refuse (s : State) (core t code chunk : Nat) : State := s.restat core t (stRefuse code chunk)

/-- CODE of a fault met by an operand read (R254). -/
def faultCode (cause : Nat) : Nat := if cause = 0x08 then 5 else if cause = 0x06 then 6 else 7

/-! ## MPLANE at the unit (R263) -/

/-- The exact values of 32 lanes at a slab, or the cause and offset of the fault. -/
def State.sourceSlab (s : State) (c : Acc) (src : Cap) (e : Elem) (stride slab : Nat) :
    Nat → Nat → Except (Nat × Nat) (List (List FVal)) × State
  | 0, _ => (.ok [], s)
  | f + 1, l =>
    let n := laneBytes e 32
    match s.engReadWhole c (capObj src) (capOff src + l * stride + slab * n) n with
    | (.error x, s) => (.error x, s)
    | (.ok b, s) =>
      match s.sourceSlab c src e stride slab f (l + 1) with
      | (.error x, s) => (.error x, s)
      | (.ok t, s) => (.ok (laneVals e b :: t), s)

/-- The slabs of a panel from `slab` on are written; a fault sends the record with the slabs written (R273). -/
def State.planeSlabs (s : State) (o : Origin) (p : Nat) (dst src : Cap) (e : Elem) (stride : Nat) : Nat → Nat → State
  | 0, _ => s
  | f + 1, slab =>
    let c := s.accOf o
    match s.sourceSlab c src e stride slab 32 0 with
    | (.error (k, off), s) => s.matrixRecord o 1 k 0xFF slab (capObj src) off
    | (.ok lanes, s) =>
      match s.engWrite c (capObj dst) (capOff dst + 64 + slab * slabSize p) (slabBytes p (lanes.map (planeBlock p))) with
      | (.error (k, off), s) => s.matrixRecord o 1 k 0xFF slab (capObj dst) off
      | (.ok _, s) => s.planeSlabs o p dst src e stride f (slab + 1)

/-- MPLANE at the unit. -/
def State.runPlane (s : State) (o : Origin) (p : Nat) (dst src : Cap) (role nslab stride : Nat) : State :=
  match s.engWrite (s.accOf o) (capObj dst) (capOff dst) (panelHeader p role nslab) with
  | (.error (k, off), s) => s.matrixRecord o 1 k 0xFF 0 (capObj dst) off
  | (.ok _, s) => s.planeSlabs o p dst src ((planeElem (capFmt src)).getD .i8) stride (nslab + 1) 0

/-! ## MMA and MMAS at the unit (R264) -/

/-- A header's P, ROLE and NSLAB; none where it is invalid (R256). -/
def parseHeader (b : List Byte) : Option (Nat × Nat × Nat) :=
  let h := leNat (b.take 8)
  let p := bitsOf 7 0 h
  if p < 1 || p > 16 || bitsOf 15 9 h ≠ 0 || bitsOf 63 21 h ≠ 0 || (b.drop 8).any (· ≠ 0) then none
  else some (p, bitsOf 8 8 h, bitsOf 20 16 h)

/-- A lane of a slab as read (R23, R257): `hd` holds the exponents and the `n` planes read, sign plane first, and `mks` the
mark planes. -/
def laneBlock (n : Nat) (hd mks : List Byte) (l : Nat) : PlaneBlock :=
  let word := fun (b : List Byte) (o : Nat) => leNat ((b.drop o).take 4)
  let planes := (List.range n).map fun i => word hd (64 + 128 * i + 4 * l)
  let m0 := word mks (4 * l)
  let m1 := word mks (128 + 4 * l)
  let sig := lanes32.map fun i =>
    signedNat n (planes.foldl (fun q w => 2 * q + (if w.testBit i then 1 else 0)) 0)
  let marks := lanes32.filterMap fun i =>
    match m1.testBit i, m0.testBit i with
    | false, false => none
    | false, true => some (i, FVal.inf false)
    | true, false => some (i, FVal.inf true)
    | true, true => some (i, FVal.nan false 0 0)
  ⟨signedNat 16 (leNat ((hd.drop (2 * l)).take 2)), sig, marks⟩

/-- The 32 lanes of a slab, the top `n` of `p` planes read. -/
def State.readSlab (s : State) (c : Acc) (k : Cap) (p n slab : Nat) :
    Except (Nat × Nat × Nat) (List PlaneBlock) × State :=
  let o := capOff k + 64 + slab * slabSize p
  match s.engReadWhole c (capObj k) o (64 + 128 * n) with
  | (.error (e, off), s) => (.error (e, capObj k, off), s)
  | (.ok hd, s) =>
    match s.engReadWhole c (capObj k) (o + 64 + 128 * p) 256 with
    | (.error (e, off), s) => (.error (e, capObj k, off), s)
    | (.ok mks, s) => (.ok (lanes32.map (laneBlock n hd mks)), s)

/-- The mark of a position. -/
def PlaneBlock.markAt (b : PlaneBlock) (i : Nat) : Option FVal := (b.marks.find? (·.1 = i)).map (·.2)

/-- The exact sum of one output over some positions of a block (R25). -/
def blockSum (a b : PlaneBlock) (ks : List Nat) : Int := ks.foldl (fun z i => z + a.sig.getD i 0 * b.sig.getD i 0) 0

/-- The non-finite terms of one output over some positions, with their offsets from KSTART (R26). -/
def blockTerms (a b : PlaneBlock) (at_ : Nat → Nat) (ks : List Nat) : List (Nat × Option Bool) :=
  if a.marks = [] && b.marks = [] then []
  else
    ks.filterMap fun i =>
      (nonFiniteTerm (a.markAt i) (b.markAt i) (a.sig.getD i 0) (b.sig.getD i 0)).map fun v =>
        (at_ i, if v.isNaN then none else some v.neg)

/-- A recorded term as R26 names it. -/
def termVal (t : Nat × Option Bool) : Nat × FVal :=
  match t.2 with
  | none => (t.1, .nan false 0 0)
  | some neg => (t.1, .inf neg)

/-- The tile's elements and the terms after one block (R25, R26). -/
def applyBlock (core : Nat) (r : MRun) (elems : SMap (BitVec 32)) (a b : List PlaneBlock) (at_ : Nat → Nat)
    (ks : List Nat) : SMap (BitVec 32) × SMap (List (Nat × Option Bool)) :=
  let outs := (List.range 1024).map fun i =>
    let x := a.getD (i / 32) ⟨0, [], []⟩
    let y := b.getD (i % 32) ⟨0, [], []⟩
    let ts := smGet [] r.terms i ++ blockTerms x y at_ ks
    let v :=
      if ts = [] then
        accumulate (smGet 0 elems i).toNat (blockSum x y ks) (x.exp + y.exp + 4 - (r.pa : Int) - (r.pb : Int))
      else nonFinite core (smGet 0 r.before i).toNat (ts.map termVal)
    (i, BitVec.ofNat 32 v, ts)
  (outs.map fun o => (o.1, o.2.1), outs.filterMap fun o => if o.2.2 = [] then none else some (o.1, o.2.2))

/-- The checks at the unit of an MMA or MMAS: the run it starts, or the CODE it is refused with. -/
def startMma (elems : SMap (BitVec 32)) (cmd : MCmd) (planes : Option (Nat × Nat)) (a b : Cap) (start len : Nat)
    (ha hb : Option (Nat × Nat × Nat)) : Except Nat MRun :=
  match ha, hb with
  | some (p, role, ns), some (q, role', ns') =>
    if role ≠ 0 || role' ≠ 1 then .error 1
    else
      let (pa, pb) := planes.getD (p, q)
      let last := (start + len - 1) / 32
      if pa > p || pb ≠ q then .error 2
      else if start + len > 32 * (ns + 1) || start + len > 32 * (ns' + 1) ||
          capOff a + panelSize p (last + 1) > capTop a || capOff b + panelSize q (last + 1) > capTop b then .error 3
      else .ok { cmd := cmd, pa := pa, pb := pb, held := p, chunk := 0, before := elems, terms := [] }
  | _, _ => .error 1

/-- A fault met by an operand read stops the command (R264, R273). -/
def State.mmaFault (s : State) (cmd : MCmd) (spec t : Nat) (sparse : Bool) (chunk cause obj off : Nat) : State :=
  (s.refuse cmd.org.core t (faultCode cause) chunk).matrixRecord cmd.org (if sparse then 3 else 2) cause spec chunk obj off

/-- MMA or MMAS as the sequencer reaches it. -/
def State.beginMma (s : State) (cmd : MCmd) (spec t : Nat) (planes : Option (Nat × Nat)) (a b : Cap) (start len : Nat)
    (sparse : Bool) : State :=
  let core := cmd.org.core
  let w := s.tileStatus core t
  if stErr w then s
  else if stHeld w then s.refuse core t 4 0
  else
    let c := s.accOf cmd.org
    match s.engReadWhole c (capObj a) (capOff a) 64 with
    | (.error (e, off), s) => s.mmaFault cmd spec t sparse 0 e (capObj a) off
    | (.ok x, s) =>
      match s.engReadWhole c (capObj b) (capOff b) 64 with
      | (.error (e, off), s) => s.mmaFault cmd spec t sparse 0 e (capObj b) off
      | (.ok y, s) =>
        match startMma (s.tile core t).elems cmd planes a b start len (parseHeader x) (parseHeader y) with
        | .error code => s.refuse core t code 0
        | .ok r => s.setMatrix core { s.matrixOf core with running := some r }

/-- The sequencer is free again. -/
def State.endMatrix (s : State) (core : Nat) : State := s.setMatrix core { s.matrixOf core with running := none }

/-- One 16-k chunk of the running command (R264): the block is summed whole as its first chunk runs. -/
def State.runChunk (s : State) (core : Nat) (r : MRun) : State :=
  match r.cmd.body with
  | .mma spec t _ a b start len sparse =>
    let k0 := start + 16 * r.chunk
    let slab := k0 / 32
    let done := 16 * (r.chunk + 1) ≥ len
    let next := fun (s : State) (r : MRun) =>
      if done then s.endMatrix core
      else s.setMatrix core { s.matrixOf core with running := some { r with chunk := r.chunk + 1 } }
    if k0 % 32 ≠ 0 && r.chunk ≠ 0 then next s r
    else
      let c := s.accOf r.cmd.org
      match s.readSlab c a r.held r.pa slab with
      | (.error (e, obj, off), s) => (s.mmaFault r.cmd spec t sparse r.chunk e obj off).endMatrix core
      | (.ok x, s) =>
        match s.readSlab c b r.pb r.pb slab with
        | (.error (e, obj, off), s) => (s.mmaFault r.cmd spec t sparse r.chunk e obj off).endMatrix core
        | (.ok y, s) =>
          let ks := lanes32.filter fun i => start ≤ 32 * slab + i && 32 * slab + i < start + len
          let tl := s.tile core t
          let (el, ts) := applyBlock core r tl.elems x y (fun i => 32 * slab + i - start) ks
          next (s.setTile core t { tl with elems := el }) { r with terms := ts }
  | .plane _ _ _ _ _ _ => s.endMatrix core
  | .epi _ _ _ => s.endMatrix core
  | .replay _ _ => s.endMatrix core
  | .zero _ _ => s.endMatrix core
  | .release _ _ => s.endMatrix core
  | .marker _ => s.endMatrix core

/-! ## Epilogues at the unit (R266 to R269) -/

/-- A real constant num/den as the nearest FP32 code. -/
def fp32Of (num den : Nat) : Nat := roundMag fp32 .rne 0 false num den

/-- x ≥ 1.88 in magnitude. -/
def beyond188 (m : Nat) (e : Int) : Bool :=
  let (n, d) := asQuot m e
  100 * n ≥ 188 * d

/-- GELU on an FP32 code that is no NaN (R267). -/
def geluOf (x : Nat) : Nat :=
  let mid :=
    let m := fMul fp32 .rne 0
    let s := m x x
    let u := m (fp32Of 376242 10000000) s
    let w := fSub fp32 .rne 0 (fp32Of 39893617 100000000) u
    let y := m x w
    m x (fAdd fp32 .rne 0 (fp32Of 1 2) y)
  match fp32.decode x with
  | .fin neg m e => if beyond188 m e then (if neg then 0 else x) else mid
  | .inf neg => if neg then 0 else x
  | .nan _ _ _ => x

/-- The activation of an FP32 code (R267); a NaN keeps its bits. -/
def activate (a : Act) (bound : BitVec 16) (x : Nat) : Nat :=
  match fp32.decode x with
  | .nan _ _ _ => x
  | .inf _ | .fin _ _ _ =>
    match a with
    | .none => x
    | .relu => if (fp32.decode x).neg || (fp32.decode x).isZero then 0 else x
    | .gelu => geluOf x
    | .clamp =>
      let l := bound.toNat * 2 ^ 16
      let lo := fMinMax fp32 true x (fp32.flip l)
      fMinMax fp32 false lo l

/-- The LFSR states of a row's 32 roundings (R266). -/
def rowStates (l : BitVec 32) : List (BitVec 32) := lanes32.map fun j => lfsrSteps (j + 1) l

/-- A NaN as an 8-bit format holds it: 0x7F, or 0xFF with its sign (R17); other formats keep it as it is (R28). -/
def keptNaN (f : FFmt) (d : Nat) : Nat := if f.expn + f.frac ≤ 7 && (f.decode d).isNaN then d / 128 * 128 + 127 else d

/-- One element accumulated in an IEEE or 8-bit format (R266, R17, R28). DEDUCED: +∞ and −∞ add to the format's canonical NaN, as R15's
arithmetic does; R27's payload names a range of k, which an epilogue has not (log 34). -/
def accElem (f : FFmt) (r : Rnd) (l : BitVec 32) (d v : Nat) : Nat :=
  let d := keptNaN f d
  let conv := if f = fp32 then v else (fp32.decode v).into f r l
  match (f.decode d).isNaN, (fp32.decode v).isNaN with
  | true, true => nanChoice f d conv
  | true, false => d
  | false, true => conv
  | false, false =>
    (addVals f r l (f.decode d) (fp32.decode v)).getD (if f.expn + f.frac ≤ 7 then 0x7F else f.canonNaN)

/-- The bytes of a row (R266): `d` holds the destination's row where ACC is set. -/
def rowBytes (e : Elem) (ep : Epilogue) (l : BitVec 32) (vs : List Nat) (d : Option (List Byte)) : List Byte :=
  match blockFmt e with
  | some b =>
    let new := (b.encode ep.rnd l (vs.map fp32.decode)).1
    match d with
    | none => new
    | some old => (b.combine .add old new).1
  | none =>
    let n := elemBytes e
    let f := elemFmt e
    let old := fun (j : Nat) => (d.map fun b => leNat ((b.drop (n * j)).take n))
    ((vs.zip (rowStates l)).zipIdx).flatMap fun p =>
      let v := p.1.1
      let st := p.1.2
      leBytes n
        (match old p.2 with
         | some x => accElem f ep.rnd st x v
         | none => if f = fp32 then v else (fp32.decode v).into f ep.rnd st)

/-- Rows of an epilogue from `row` on, each with its pages translated before it is read or stored (R268): the row at which a fault stopped it with cause and offset, or none. -/
def State.epiRows (s : State) (c : Acc) (core t : Nat) (ep : Epilogue) : Nat → Nat → Option (Nat × Nat × Nat) × State
  | 0, _ => (none, s)
  | f + 1, row =>
    let e := (epiElem (capFmt ep.dst)).getD .fp32
    let n := laneBytes e 32
    let off := capOff ep.dst + row * ep.stride
    let el := (s.tile core t).elems
    let vs := lanes32.map fun j => activate ep.act ep.bound (smGet 0 el (32 * row + j)).toNat
    let l := lfsrSteps (32 * row) ep.l0
    match s.xlatRange c (capObj ep.dst) off (if ep.acc then rR + rW else rW) (pagesOf off n) n with
    | (.error (k, o), s) => (some (row, k, o), s)
    | (.ok ps, s) =>
      if s.anyDown ps || (ep.acc && ps.any fun p => s.poisoned p.1 p.2) then (some (row, 0x0F, off), s)
      else
        let (d, s) :=
          if ep.acc then
            let (b, s) := s.readPieces c.core ps
            (some b, s)
          else (none, s)
        (s.writePieces c.core ps (rowBytes e ep l vs d)).epiRows c core t ep f (row + 1)

/-- An epilogue, or its replay, from a row on (R266, R268, R269): a fault holds it with its parameters and the commands that it
completes. -/
def State.runEpi (s : State) (cmd : MCmd) (kept : List MCmd) (spec t : Nat) (ep : Epilogue) (row : Nat) : State :=
  let core := cmd.org.core
  match s.epiRows (s.accOf cmd.org) core t ep (32 - row) row with
  | (some (r, k, off), s) =>
    let tl := s.tile core t
    let s := s.setTile core t { tl with status := putField 12 8 (stSet 4 true tl.status) r, kept := some (kept, ep) }
    s.matrixRecord cmd.org 4 k spec r (capObj ep.dst) off
  | (none, s) =>
    let tl := s.tile core t
    s.setTile core t { tl with status := putField 12 8 (stSet 4 false tl.status) 0, kept := none }

/-- MEPI as the sequencer reaches it (R262). -/
def State.beginEpi (s : State) (cmd : MCmd) (spec t : Nat) (ep : Epilogue) : State :=
  let w := s.tileStatus cmd.org.core t
  if stErr w then s
  else if stHeld w then s.refuse cmd.org.core t 4 0
  else s.runEpi cmd [cmd] spec t ep 0

/-- MEPIRP as the sequencer reaches it (R269): nothing where no epilogue is held. -/
def State.beginReplay (s : State) (cmd : MCmd) (spec t : Nat) : State :=
  let tl := s.tile cmd.org.core t
  match tl.kept with
  | some (k, ep) => s.runEpi cmd (k ++ [cmd]) spec t ep (stCursor tl.status)
  | none => s

/-- MZERO as the sequencer reaches it (R262, R270). -/
def State.zeroTile (s : State) (core t : Nat) : State :=
  let tl := s.tile core t
  if stHeld tl.status then s.refuse core t 4 0
  else s.setTile core t { tl with elems := [], status := stNoErr tl.status }

/-! ## The sequencer (R258 to R261, R255) -/

/-- The commands of a firing whose epilogue the unit keeps. -/
def State.keptOf (s : State) (core firing : Nat) : List Nat :=
  (s.matrixOf core).tiles.flatMap fun p =>
    match p.2.kept with
    | some (l, _) => (l.filter fun c => c.org.firing = firing).map (·.id)
    | none => []

/-- A marker is consumed: it waits for what its firing pushed before it and the unit still holds (R260). -/
def State.takeMarker (s : State) (cmd : MCmd) (v : Word) : State :=
  let core := cmd.org.core
  let u := s.matrixOf core
  s.setMatrix core { u with markers := u.markers ++ [⟨v, cmd.org, s.keptOf core cmd.org.firing⟩] }

/-- The sequencer takes the oldest command (R258). MMA and MMAS then run chunk by chunk; the others act here. -/
def State.sequence (s : State) (core : Nat) : State :=
  let u := s.matrixOf core
  match u.running, u.queue with
  | none, cmd :: rest =>
    let s := s.setMatrix core { u with queue := rest }
    match cmd.body with
    | .plane p d c role ns stride => s.runPlane cmd.org p d c role ns stride
    | .mma spec t planes a b start len sparse => s.beginMma cmd spec t planes a b start len sparse
    | .epi spec t ep => s.beginEpi cmd spec t ep
    | .replay spec t => s.beginReplay cmd spec t
    | .zero _ t => s.zeroTile core t
    | .release _ _ => s
    | .marker v => s.takeMarker cmd v
  | _, _ => s

/-- MATRIX_COMMAND_START (R258). -/
def execMatrixCommandStart (core : Nat) : State → Host.Outcome State Fault Refusal := event fun s => s.sequence core

/-- The tokens of a chunk: one for each of its cycles (R261). -/
def MRun.cost (r : MRun) : Nat := if r.pb ≤ 8 then r.pa else 2 * r.pa

/-- The energy tokens that a core holds (R261). -/
def State.tokensOf (s : State) (core : Nat) : Nat := smGet 0 s.tokens core

/-- A core draws the tokens of a chunk. -/
def State.drawTokens (s : State) (core : Nat) (r : MRun) : State :=
  { s with tokens := smPut s.tokens core (s.tokensOf core - r.cost), drew := setIns core s.drew }

/-- MATRIX_CHUNK (R261, R367): a chunk runs once its tokens are held. -/
def execMatrixChunk (core : Nat) : State → Host.Outcome State Fault Refusal :=
  event fun s =>
    match (s.matrixOf core).running with
    | some r => if s.tokensOf core < r.cost then s else (s.drawTokens core r).runChunk core r
    | none => s

/-- The physical tile that a command names. -/
def MBody.tile : MBody → Option Nat
  | .plane _ _ _ _ _ _ => none
  | .mma _ t _ _ _ _ _ _ => some t
  | .epi _ t _ => some t
  | .replay _ t => some t
  | .zero _ t => some t
  | .release _ t => some t
  | .marker _ => none

/-- No command naming a tile is queued or running, and no epilogue is held for it (R255). -/
def State.tileIdle (s : State) (core t : Nat) : Bool :=
  let u := s.matrixOf core
  !u.queue.any (fun c => c.body.tile = some t) &&
    ((u.running.bind fun r => r.cmd.body.tile) ≠ some t) && !stHeld (s.tileStatus core t)

/-- An idle tile: a pending release takes effect, then FLT falls (R255). -/
def State.settleTile (s : State) (core tile : Nat) : State :=
  if !s.tileIdle core tile then s
  else
    s.restat core tile fun w =>
      stSet 2 false (if stRelp w then stNoErr (stSet 0 false (stSet 1 false (stSet 5 false w))) else w)

/-- TILE_RELEASE (R255). -/
def execTileRelease (core tile : Nat) : State → Host.Outcome State Fault Refusal := event fun s => s.settleTile core tile

/-- A marker's commands are all complete (R260). -/
def State.markerDue (s : State) (core : Nat) (m : Marker) : Bool :=
  !(s.keptOf core m.org.firing).any fun id => m.after.contains id

/-- MATRIX_MARKER_DELIVERY (R260): the oldest marker whose commands are complete delivers its element to q1. -/
def execMatrixMarkerDelivery (core : Nat) : State → Host.Outcome State Fault Refusal :=
  event fun s =>
    let u := s.matrixOf core
    match u.markers.find? (s.markerDue core) with
    | some m => if s.holding core 0 then s else (s.setMatrix core { u with markers := u.markers.erase m }).deliver m.org 1 m.value
    | none => s

/-! ## The power arbiter (R367) -/

def pwrDraw (w : Word) : Nat := fieldW 47 32 w
def pwrBudget (w : Word) : Nat := fieldW 15 0 w

/-- A microsecond passes with a measured draw, and the arbiter refills the cores' tokens (R367). Above the budget, the refill of the
cores that drew tokens is lowered, equally, to a value that the spec leaves open from 256 up. -/
def State.refill (s : State) (draw : Nat) : State :=
  let w := putField 47 32 s.pwrbud draw
  let (free, s) := s.freeBytes 2
  let low := if draw ≤ pwrBudget w then 2700 else 256 + leNat free % 2444
  let fill := fun (k : Nat) => min 4096 (s.tokensOf k + if s.drew.contains k then low else 2700)
  { s with pwrbud := w, tokens := (List.range 4096).map fun k => (k, fill k), drew := [], clock := s.clock + 1000 }

/-- ENERGY_TOKEN_REFILL (R367). -/
def execEnergyTokenRefill (draw : BitVec 16) : State → Host.Outcome State Fault Refusal :=
  event fun s => s.refill draw.toNat

end Sys2Proof.Machine
end

