-- ==== Sys2Proof/Machine/Work.lean ====
section
/-!
DEFINITION. Work-graph queues (spec/23_traversal.md R310 to R320, R373, R374; spec/25_pairs.md R335): descriptors, slots,
reservation, commit, abandoning, WGSTAT, refusals, dispatch and unbinding.
-/

namespace Sys2Proof.Machine

/-! ## Queues and their slots (R310, R311) -/

/-- The bound queue whose descriptor has a home address. -/
def State.wqAt (s : State) (home : Nat) : Option WQueue := s.wqueues.find? (·.home = home)

/-- The slots of a segment. -/
def segSlots (c : Cap) : Nat := ((capTop c - capOff c) / 32).toNat

/-- A segment that may be activated (R316). -/
def segOk (c : Cap) : Bool := c.tag && 1 ≤ segSlots c && capOff c % 32 = 0

/-- The greatest CAP. -/
def capLimit : Nat := 2 ^ 18 - 1

/-- Slot i of segment k has the number 2^20 k + i. -/
def slotNo (k i : Nat) : Nat := 2 ^ 20 * k + i

/-- The segment of a slot and its byte offset. -/
def WQueue.slotAt (q : WQueue) (n : Nat) : Cap × Nat :=
  let c := q.segs.getD (n / 2 ^ 20) nullCap
  (c, capOff c + 32 * (n % 2 ^ 20))

/-- The lowest n free slots of the active segments. -/
def WQueue.freeSlots (q : WQueue) (n : Nat) : List Nat :=
  ((List.range 4).flatMap fun k =>
    if q.active.contains k then
      ((List.range (min (segSlots (q.segs.getD k nullCap)) (q.slots.length + n))).map (slotNo k)).filter fun i =>
        (smFind q.slots i).isNone
    else []).take n

/-- HWM, OVFEN, OVF and ACTOR of QCTL. -/
def qctlHwm (w : Word) : Nat := fieldW 31 16 w
def qctlOvfen (w : Word) : Bool := bitW 15 w
def qctlOvf (w : Word) : Nat := fieldW 13 8 w
def qctlActor (w : Word) : Nat := fieldW 5 0 w

/-- The bound queues that a home may hold (R311). -/
def queueLimit (a : Nat) : Nat := if isSlice (a % foreignBase) then 8 else 256

/-- The home holds its limit of bound queues. -/
def State.queuesFull (s : State) (a : Nat) : Bool :=
  (s.wqueues.filter fun q => q.home / foreignBase = a / foreignBase && homeSlice (q.home % foreignBase) = homeSlice (a % foreignBase)).length ≥
    queueLimit a

/-- A refusal while ARMED and OVFEN are set fires the overflow actor (R317, R321). -/
def State.refuseQueue (s : State) (q : WQueue) (n : Nat) (workid : Word) : State :=
  if q.armed && qctlOvfen q.qctl then
    (s.setWq { q with armed := false }).post
      { core := q.core, launch := some q.launch, team := q.team, record := false, org := none,
        actor := some (qctlOvf q.qctl), workid := workid,
        words := [0x0D, BitVec.ofNat 64 q.obj, BitVec.ofNat 64 q.off, stat0 q true, BitVec.ofNat 64 n] }
  else s

/-- n slots are reserved: the queue and the slots (R313). -/
def State.reserve (s : State) (q : WQueue) (n : Nat) : List Nat × State :=
  let l := q.freeSlots n
  (l, s.setWq
    { q with used := q.used + n, work := q.work + n, slots := l.foldl (fun m i => smPut m i WSlot.reserved) q.slots })

/-- A record that stands in its slot becomes dispatchable (R314); its place in the order of commitment is one over all queues (R335). -/
def State.committed (s : State) (id slot depth : Nat) : State :=
  match s.wq? id with
  | some q =>
    { s.setWq { q with slots := smPut q.slots slot (.committed depth s.serial false false) } with serial := s.serial + 1 }
  | none => s

/-- Records are reserved and committed as one step of the home (R305, R329): none is placed where a slot's write meets a
fault (R373). -/
def State.place (s : State) (q : WQueue) (recs : List (List Byte)) : Except (Nat × Nat × Nat) Unit × State :=
  let l := q.freeSlots recs.length
  let c := s.wqAcc q
  let tests := l.map fun i =>
    let (g, o) := q.slotAt i
    match (s.xlatRange c (capObj g) o rW (pagesOf o 32) 32).1 with
    | .ok ps => if s.anyDown ps || ps.any (fun p => s.poisoned p.1 p.2) then some (0x0F, capObj g, o) else none
    | .error (k, off) => some (k, capObj g, off)
  match tests.findSome? id with
  | some e => (.error e, s)
  | none =>
    let (l, s) := s.reserve q recs.length
    (.ok (), (l.zip recs).foldl
      (fun s p =>
        let (g, o) := q.slotAt p.1
        ((s.engWrite c (capObj g) o p.2).2).committed q.id p.1 (p.2.getD 31 0).toNat) s)

/-! ## The instructions -/

/-- The TVAL of trap 0x0D (R318). -/
def tvalQueue (reason offs : Nat) : Word := BitVec.ofNat 64 (reason * 2 ^ 60 + offs % 2 ^ 56)

/-- The descriptor that a c register names: its capability and its home, which is that of its first byte (R313). The part of it that lies
on a second page is translated where it is read. -/
def descriptor (r : CReg) : M (Cap × Nat) := do
  let t ← getTh
  let c := t.rc r
  checkCap (creg r) c (rR + rW + rA) (capOff c) 128 64
  let (a, _) ← locate (creg r) false c (capOff c) (min 128 (65536 - capOff c % 65536)) (rR + rW)
  return (c, a)

/-- n bytes of a descriptor at a distance from its offset, on one page, with their home. -/
def readDescriptor (r : CReg) (c : Cap) (i n : Nat) : M (List Byte × Nat) := do
  let (a, e) ← locate (creg r) false c (capOff c + i) n (rR + rW)
  let b ← readHome (creg r) (capOff c + i) a n e
  return (b, a)

/-- WGRES (R313). -/
def execWgres (p : PReg) (d : GReg) (r : CReg) : State → Host.Outcome State Fault Refusal :=
  run do
    let t ← getTh
    let n := (t.rg d).toNat
    if n < 1 || n > 64 then trapWhole 0x05 (t.rg d)
    let c := t.rc r
    checkCap (creg r) c (rR + rW + rA) (capOff c) 128 64
    let k ← match firstFrom (fun k => (smFind t.wg k).isNone) 0 4 with
      | none => trap 0x0D (tvalQueue 1 (capOff c))
      | some k => pure k
    let (_, a) ← descriptor r
    let s ← get
    match s.wqAt a with
    | none => trap 0x0D (tvalQueue 3 (capOff c))
    | some q =>
      if q.cap - q.used ≥ n then
        let l ← runS fun s => s.reserve q n
        let gen := (t.wgGen + 1) % 2 ^ 16
        modTh fun t => { t with wgGen := gen, wg := smPut t.wg k ⟨q.id, n, gen, l⟩ }
        writeI (.g d (BitVec.ofNat 64 (gen * 2 ^ 8 + k)))
        writeI (.p p true)
      else
        modify fun s => s.refuseQueue q n s.th.workid
        writeI (.p p false)
      advance

/-- The open reservation that a reservation word names (R314). -/
def reservation (w : Word) : M (Nat × WgRes) := do
  let t ← getTh
  let k := fieldW 1 0 w
  match smFind t.wg k with
  | some r =>
    if fieldW 63 24 w ≠ 0 || fieldW 7 2 w ≠ 0 || r.gen ≠ fieldW 23 8 w then trap 0x0D (tvalQueue 2 w.toNat)
    else return (k, r)
  | none => trap 0x0D (tvalQueue 2 w.toNat)

/-- The table entry after one of its slots has been used. -/
def useSlot (k : Nat) (r : WgRes) : M Unit :=
  modTh fun t =>
    if r.remain ≤ 1 then { t with wg := smDel t.wg k }
    else { t with wg := smPut t.wg k { r with remain := r.remain - 1, slots := r.slots.drop 1 } }

/-- The home of a slot that a WGCOM commits to. It is reached as an engine's access is, so no page ships the thread, and every fault is the
thread's own (R373). -/
def slotHome (w : Src) (q : WQueue) (n : Nat) : M Nat := do
  let (g, o) := q.slotAt n
  match ← runS fun s => s.translate q.core (capObj g) o rW with
  | .bad => trap 0x08 (tvalCap w.src w.creg o)
  | .absent => meetAbsent w (capObj g) o rW
  | .noPerm lack _ => trap 0x06 (tvalCap w.src w.creg lack)
  | .home a _ =>
    let s ← get
    if s.withheld q.launch (s.wqAcc q).win (capObj g) a 32 then trap 0x06 (tvalCap w.src w.creg rG)
    else
      let a ← runS fun s => s.reach q.core a
      let s ← get
      if s.poisoned a 32 then trap 0x0F (tvalCap w.src w.creg o) else return a

/-- WGCOM (R314): a slot's fault is the thread's own (R373); the spec names no SRC and CREG for its TVAL, which are free
(log 4). -/
def execWgcom (a r : GReg) : State → Host.Outcome State Fault Refusal :=
  run do
    let t ← getTh
    let (k, e) ← reservation (t.rg r)
    let s ← get
    match s.wq? e.queue, e.slots with
    | some q, n :: _ =>
      let b := ((List.range 4).flatMap fun i => leBytes 8 (t.rg (Fin.ofNat 32 (a.val + i))).toNat)
      let f ← runS fun s => s.freeBytes 1
      let w : Src := ⟨leNat f % 4, leNat f / 16⟩
      drainMine
      let h ← slotHome w q n
      modify fun s => (s.homeWrite s.cur.core h b).committed q.id n (b.getD 31 0).toNat
      useSlot k e
      advance
    | _, _ => trap 0x0D (tvalQueue 2 (t.rg r).toNat)

/-- WGABN (R315). -/
def execWgabn (d r : GReg) : State → Host.Outcome State Fault Refusal :=
  run do
    let t ← getTh
    let (k, e) ← reservation (t.rg r)
    modify fun s => s.wqAbandon e
    modTh fun t => { t with wg := smDel t.wg k }
    writeI (.g d (BitVec.ofNat 64 e.remain))
    advance

/-- Segment k of a descriptor as it stands at its home. -/
def readSegment (r : CReg) (c : Cap) (k : Nat) : M Cap := do
  let (b, a) ← readDescriptor r c (16 * k) 16
  let old ← runS fun s => s.homeTag a
  let s ← get
  return capFrom b (ownTag s.th.stores a old)

/-- The home of a descriptor now: what was done since it was translated may have completed a move of its page (R246). -/
def homeNow (a : Nat) : M Nat := runS fun s => s.reach s.cur.core a

/-- Operation 1 of WGSTAT (R316): a segment is activated and the queue armed; `desc` is the operation word. The segment's own faults come
before the unbound queue's. -/
def extendQueue (r : CReg) (c : Cap) (a : Nat) (k : Nat) (desc : Word) : M Word := do
  drainMine
  let g ← readSegment r c k
  let a ← homeNow a
  let s ← get
  match s.wqAt a with
  | none => if segOk g then trap 0x0D (tvalQueue 3 (capOff c)) else trapWhole 0x05 desc
  | some q =>
    if q.active.contains k || !segOk g || q.cap + segSlots g > capLimit then trapWhole 0x05 desc
    else
      let q' := { q with segs := q.segs.set k g, active := q.active ++ [k], cap := q.cap + segSlots g, armed := true }
      modify fun s => s.setWq q'
      return stat0 q' true

/-- The lowest tagged segment that an extension would refuse (R316), with the slots of those before it. -/
def badSegment : List Cap → Nat → Nat → Option Nat
  | [], _, _ => none
  | g :: t, k, n =>
    if !g.tag then badSegment t (k + 1) n
    else if !segOk g || n + segSlots g > capLimit then some k
    else badSegment t (k + 1) (n + segSlots g)

/-- QCTL's rules at a bind (R316). -/
def State.badQctl (s : State) (launch : Nat) (w : Word) : Bool :=
  fieldW 63 32 w ≠ 0 || bitW 14 w || fieldW 7 6 w ≠ 0 || !s.isKind launch (qctlActor w) 3 ||
    (qctlOvfen w && !s.isKind launch (qctlOvf w) 2)

/-- Operation 2 of WGSTAT (R316): the queue is bound to the calling team. -/
def bindQueue (r : CReg) (c : Cap) (a : Nat) : M Word := do
  drainMine
  let (b, _) ← readDescriptor r c 80 8
  let ctl := wordLe b
  let a ← homeNow a
  let s ← get
  let o := s.origin
  if s.badQctl o.launch ctl then trapWhole 0x05 ctl
  else if (s.wqAt a).isSome then trap 0x0D (tvalQueue 5 (capOff c))
  else if s.queuesFull a then trap 0x0D (tvalQueue 4 (capOff c))
  else
    let g0 ← readSegment r c 0
    let g1 ← readSegment r c 1
    let g2 ← readSegment r c 2
    let g3 ← readSegment r c 3
    let cnt ← readSegment r c 4
    let segs := [g0, g1, g2, g3]
    match badSegment segs 0 0 with
    | some k => trapWhole 0x05 (BitVec.ofNat 64 (16 * k + 2))
    | none =>
      let act := (List.range 4).filter fun k => (segs.getD k nullCap).tag
      let a ← homeNow a
      let s ← get
      let q : WQueue :=
        { id := s.serial, obj := capObj c, off := capOff c, home := a, launch := o.launch, team := o.team,
          core := o.core, segs := segs, active := act, cnt := cnt, qctl := ctl, armed := true,
          cap := sumNat (act.map fun k => segSlots (segs.getD k nullCap)), used := 0, work := 0, abn := 0, disp := 0,
          slots := [] }
      modify fun s => { s with wqueues := s.wqueues ++ [q], serial := s.serial + 1 }
      return stat0 q true

/-- WGSTAT (R316), with the operation in a g register. -/
def execWgstat (d : GReg) (r : CReg) (op : GReg) : State → Host.Outcome State Fault Refusal :=
  run do
    let t ← getTh
    let w := t.rg op
    checkCap (creg r) (t.rc r) (rR + rW + rA) (capOff (t.rc r)) 128 64
    if fieldW 63 6 w ≠ 0 || fieldW 3 0 w ≥ 4 then trapWhole 0x05 w
    let (c, a) ← descriptor r
    let v ←
      if fieldW 3 0 w = 1 then extendQueue r c a (fieldW 5 4 w) w
      else if fieldW 3 0 w = 2 then bindQueue r c a
      else do
        let s ← get
        match s.wqAt a with
        | none => trap 0x0D (tvalQueue 3 (capOff c))
        | some q => pure (if fieldW 3 0 w = 0 then stat0 q true else stat1 q)
    writeI (.g d v)
    advance

/-- WGSTAT with operation 1 on segment k. -/
def execWgstatExtend (d : GReg) (r : CReg) (k : Fin 4) : State → Host.Outcome State Fault Refusal :=
  run do
    let (c, a) ← descriptor r
    let v ← extendQueue r c a k.val (BitVec.ofNat 64 (16 * k.val + 1))
    writeI (.g d v)
    advance

/-- WGSTAT with operation 2. -/
def execWgstatBind (d : GReg) (r : CReg) : State → Host.Outcome State Fault Refusal :=
  run do
    let (c, a) ← descriptor r
    let v ← bindQueue r c a
    writeI (.g d v)
    advance

/-! ## Dispatch (R319, R335, R373) -/

/-- The dispatchable records of a queue: slot, byte 31, commit order. -/
def WQueue.dispatchable (q : WQueue) : List (Nat × Nat × Nat) :=
  q.slots.filterMap fun p =>
    match p.2 with
    | .committed d o false _ => some (p.1, d, o)
    | .committed _ _ true _ => none
    | .reserved => none
    | .dispatched => none

/-- The first by decreasing byte 31, then by commit order (R335). -/
def deepestRecord : List (Nat × Nat × Nat) → Option (Nat × Nat × Nat)
  | [] => none
  | e :: t =>
    match deepestRecord t with
    | some d => some (if d.2.1 > e.2.1 || (d.2.1 = e.2.1 && d.2.2 < e.2.2) then d else e)
    | none => some e

/-- The bound team's core takes record tasks only while its run queue, without the overflow area, has a free place. -/
def State.recordRoom (s : State) (q : WQueue) : Bool :=
  (s.team? q.launch q.team).isSome && taskCount (s.queue q.core) < 64

/-- RECORD_DISPATCH (R335, R373): the deepest record is read and sent to the team's core as a task. -/
def execRecordDispatch (id : Nat) : State → Host.Outcome State Fault Refusal :=
  event fun s =>
    match s.wq? id with
    | none => s
    | some q =>
      match deepestRecord q.dispatchable, s.team? q.launch q.team with
      | some (n, d, o), some tm =>
        if !s.recordRoom q then s
        else
          let (g, off) := q.slotAt n
          let r := s.engRead (s.wqAcc q) (capObj g) off 32
          let q := (r.2.wq? id).getD q
          match r with
          | (.error (k, at_), s) =>
            let sent := match smFind q.slots n with
              | some (.committed _ _ _ b) => b
              | _ => false
            let s := s.setWq { q with slots := smPut q.slots n (.committed d o true true) }
            if sent then s else s.wqRecord q k 2 (capObj g) at_
          | (.ok (_, true), s) =>
            let s := s.setWq { q with abn := q.abn + 1, slots := smDel q.slots n }
            ((s.wqUsed id 1).wqWork id 1).wqRecord q 0x0F 2 (capObj g) off
          | (.ok (b, false), s) =>
            let ident := BitVec.ofNat 64 (s.teamIdent tm)
            let ws := (List.range 4).map fun i => wordLe ((b.drop (8 * i)).take 8)
            let t : Task :=
              { launch := q.launch, team := q.team, actor := qctlActor q.qctl, kind := 3, words := eight (ident :: ws),
                workid := ident, depth := (b.getD 31 0).toNat, port := none, record := some (id, n), commit := o }
            (s.setWq { q with slots := smPut q.slots n .dispatched }).pushTask q.core (s.launchPrio q.launch) t
      | _, _ => s

/-- Records that a fault holds back on pages [first, first + count) of an object are tried again (R373). -/
def State.unblock (s : State) (obj first count : Nat) : State :=
  { s with
    wqueues := s.wqueues.map fun q =>
      { q with
        slots := q.slots.map fun p =>
          match p.2 with
          | .committed d o true b =>
            let (g, off) := q.slotAt p.1
            if capObj g = obj && first ≤ off / 65536 && off / 65536 < first + count then (p.1, .committed d o false b)
            else p
          | .committed _ _ false _ => p
          | .reserved => p
          | .dispatched => p } }

/-! ## Unbinding (R312, R322) -/

/-- A queue is unbound at its team's end: its last state is written into the descriptor. -/
def State.unbind (s : State) (q : WQueue) : State :=
  let c := s.wqAcc q
  let s := { s with wqueues := s.wqueues.filter (·.id ≠ q.id) }
  match s.engWrite c q.obj (q.off + 88) (leBytes 8 (stat0 q true).toNat ++ leBytes 8 (stat1 q).toNat) with
  | (.ok _, s) => s
  | (.error (k, off), s) => s.wqRecord q k 4 q.obj off

end Sys2Proof.Machine
end

