-- ==== Sys2Proof/Machine/Nodes.lean ====
section
/-!
DEFINITION. Hierarchies and the node cache of a cluster (spec/23_traversal.md R292 to R298), as TRAV, DTRAV, PAIR and MOM read
them.
-/

namespace Sys2Proof.Machine

/-! ## The node cache (R297, R298) -/

/-- The lines of a cluster's node cache: 512 KiB. -/
def nodeLines : Nat := 8192

/-- A line read through the cache of a cluster; a miss fills it from its home. A fill that finds uncorrectable data is logged, as an error
of that home (R298, log 66). DESIGN CHOICE: the cache is fully associative, and a fill of a full one displaces the line filled longest ago
(R297 gives its size and its lines alone; log 77). -/
def State.nodeLine (s : State) (c : Acc) (obj off : Nat) : Except (Nat × Nat) NodeLine × State :=
  let cl := coreCluster c.core
  let l := smGet [] s.ncache cl
  match l.find? fun x => x.obj = obj && x.off = off with
  | some x => (.ok x, s)
  | none =>
    match s.xlatRange c obj off rR (pagesOf off 64) 64 with
    | (.error e, s) => (.error e, s)
    | (.ok ps, s0) =>
      let (b, s) := s0.readPieces c.src ps
      let bad := (pieceAddrs ps).find? fun a => s0.poisoned a 1
      let x : NodeLine := ⟨obj, off, b, if bad.isSome then List.range 8 else []⟩
      let s := match bad with
        | some a => s.logError (homeUnit a) (homeDie a) a
        | none => s
      (.ok x, { s with ncache := smPut s.ncache cl ((x :: l).take nodeLines) })

/-- The lines from an aligned offset on, `n` of them: bytes, and the offsets of the poisoned granules. -/
def State.nodeLinesAt (s : State) (c : Acc) (obj off : Nat) : Nat → Except (Nat × Nat) (List Byte × List Nat) × State
  | 0 => (.ok ([], []), s)
  | n + 1 =>
    match s.nodeLine c obj off with
    | (.error e, s) => (.error e, s)
    | (.ok x, s) =>
      match s.nodeLinesAt c obj (off + 64) n with
      | (.error e, s) => (.error e, s)
      | (.ok (b, p), s) => (.ok (x.bytes ++ b, x.poison.map (off + 8 * ·) ++ p), s)

/-- n bytes at an offset, read through the cache, and whether one of them lies in a poisoned granule (R362). -/
def State.nodeRead (s : State) (c : Acc) (obj off n : Nat) : Except (Nat × Nat) (List Byte × Bool) × State :=
  let o := off / 64 * 64
  match s.nodeLinesAt c obj o ((off + n - 1) / 64 - off / 64 + 1) with
  | (.error e, s) => (.error e, s)
  | (.ok (b, p), s) => (.ok ((b.drop (off - o)).take n, p.any fun g => g < off + n && off < g + 8), s)

/-- The lines of pages [first, first + count) of an object leave every cluster's node cache (R242, R297). -/
def State.forgetNodes (s : State) (obj first count : Nat) : State :=
  { s with
    ncache := s.ncache.map fun p =>
      (p.1, p.2.filter fun x => !(x.obj = obj && first ≤ x.off / 65536 && x.off / 65536 < first + count)) }

/-! ## Headers and nodes (R292, R293) -/

/-- A node: its index, fields and FP32 codes. -/
structure Node where
  idx    : Nat
  depth  : Nat
  leaf   : Bool
  kind   : Nat
  lo     : List Nat
  hi     : List Nat
  child  : List Nat
  first  : Nat
  count  : Nat
  extent : Nat
  momacc : Nat
  deriving DecidableEq, Repr

/-- What a read of a header or node meets. -/
inductive Met (α : Type) where
  | ok (a : α)
  | bad
  | poisoned
  | fault (cause obj off : Nat)

/-- Field of n bytes at byte i. -/
def leAt (b : List Byte) (i n : Nat) : Nat := leNat ((b.drop i).take n)

/-- Every byte of a range is zero. -/
def zeroAt (b : List Byte) (i n : Nat) : Bool := ((b.drop i).take n).all (· = 0)

/-- The slot that marks no child. -/
def noChild : Nat := 0xFFFFFFFF

/-- The header of a hierarchy (R292). -/
def State.readHier (s : State) (c : Acc) (k : Cap) : Met Hier × State :=
  match s.nodeRead c (capObj k) (capOff k) 64 with
  | (.error (e, off), s) => (.fault e (capObj k) off, s)
  | (.ok (_, true), s) => (.poisoned, s)
  | (.ok (b, false), s) =>
    let h : Hier :=
      { cap := k, nnodes := leAt b 0 4, root := leAt b 4 4, poff := leAt b 8 8, nprim := leAt b 16 4,
        strict := leAt b 20 1 % 2 = 1 }
    if leAt b 20 1 > 1 || !zeroAt b 21 43 || h.root ≥ h.nnodes || h.poff % 16 ≠ 0 then (.bad, s) else (.ok h, s)

/-- The fields of a node's 64 bytes. -/
def parseNode (idx : Nat) (b : List Byte) : Node :=
  let h := leAt b 0 8
  let leaf := h.testBit 16
  { idx := idx, depth := bitsOf 29 24 h, leaf := leaf, kind := bitsOf 7 0 h,
    lo := (List.range 3).map fun i => leAt b (8 + 4 * i) 4
    hi := (List.range 3).map fun i => leAt b (20 + 4 * i) 4
    child := if leaf then [] else ((List.range 4).map fun i => leAt b (32 + 4 * i) 4).filter (· ≠ noChild)
    first := leAt b 32 4, count := leAt b 36 4, extent := leAt b 48 4, momacc := leAt b 56 4 }

/-- A node's bytes are bad in themselves (R293). -/
def badBytes (b : List Byte) : Bool :=
  let h := leAt b 0 8
  let arity := bitsOf 15 8 h
  bitsOf 63 30 h ≠ 0 || bitsOf 23 17 h ≠ 0 ||
    if h.testBit 16 then !zeroAt b 40 8 || leAt b 36 4 > 64
    else (arity ≠ 2 && arity ≠ 4) || (arity = 2 && (leAt b 40 4 ≠ noChild || leAt b 44 4 ≠ noChild))

/-- The leaf rules of R293; `kinds` is what the command requires of a leaf. -/
def badLeaf (h : Hier) (n : Node) (kinds : Node → Bool) : Bool :=
  n.leaf && (n.first + n.count > h.nprim || !kinds n ||
    (n.count > 0 && (capOff h.cap + h.poff + 48 * (n.first + n.count) : Nat) > capTop h.cap))

/-- A node of a hierarchy, as a child of a node of the given depth or as a root. -/
def State.readNode (s : State) (c : Acc) (h : Hier) (idx : Nat) (parent : Option Nat) (kinds : Node → Bool) :
    Met Node × State :=
  let off := capOff h.cap + 64 + 64 * idx
  if idx ≥ h.nnodes || (off + 64 : Nat) > capTop h.cap || off < capBase h.cap then (.bad, s)
  else
    match s.nodeRead c (capObj h.cap) off 64 with
    | (.error (e, o), s) => (.fault e (capObj h.cap) o, s)
    | (.ok (_, true), s) => (.poisoned, s)
    | (.ok (b, false), s) =>
      let n := parseNode idx b
      let shallow := match parent with
        | some d => n.depth ≤ d
        | none => false
      if badBytes b || badLeaf h n kinds || shallow then (.bad, s) else (.ok n, s)

/-! ## Boxes (R305) and FP32 steps -/

/-- Exact a ≤ b on FP32 codes; false with a NaN. -/
def fLe (a b : Nat) : Bool := fpCond .le (fp32.decode a) (fp32.decode b)

def fLt (a b : Nat) : Bool := fpCond .lt (fp32.decode a) (fp32.decode b)

/-- Two boxes overlap (R305). -/
def overlap (a b : Node) : Bool :=
  (List.range 3).all fun i => fLe (a.lo.getD i 0) (b.hi.getD i 0) && fLe (b.lo.getD i 0) (a.hi.getD i 0)

/-- FP32 arithmetic rounded RNE once (R302, R307, R327). -/
def addF (a b : Nat) : Nat := fAdd fp32 .rne 0 a b
def subF (a b : Nat) : Nat := fSub fp32 .rne 0 a b
def mulF (a b : Nat) : Nat := fMul fp32 .rne 0 a b
def divF (a b : Nat) : Nat := fDiv fp32 .rne 0 a b
def minF (a b : Nat) : Nat := fMinMax fp32 false a b
def maxF (a b : Nat) : Nat := fMinMax fp32 true a b
def negF (a : Nat) : Nat := fp32.flip a

/-- An FP16 code as the FP32 code of the same value. -/
def halfToFp32 (c : Nat) : Nat := (fp16.decode c).into fp32 .rne 0

/-- (x*x + y*y) + z*z of a vector. -/
def sumSq (v : List Nat) : Nat :=
  addF (addF (mulF (v.getD 0 0) (v.getD 0 0)) (mulF (v.getD 1 0) (v.getD 1 0))) (mulF (v.getD 2 0) (v.getD 2 0))

/-- (x*x' + y*y') + z*z' of two vectors. -/
def dotF (a b : List Nat) : Nat :=
  addF (addF (mulF (a.getD 0 0) (b.getD 0 0)) (mulF (a.getD 1 0) (b.getD 1 0))) (mulF (a.getD 2 0) (b.getD 2 0))

/-- A componentwise operation on three components. -/
def zip3 (f : Nat → Nat → Nat) (a b : List Nat) : List Nat := (List.range 3).map fun i => f (a.getD i 0) (b.getD i 0)

/-- The bytes of primitive p of a hierarchy, and whether they are poisoned (R294, R298). -/
def State.readPrim (s : State) (c : Acc) (h : Hier) (p : Nat) : Except (Nat × Nat) (List Byte × Bool) × State :=
  s.nodeRead c (capObj h.cap) (capOff h.cap + h.poff + 48 * p) 48

end Sys2Proof.Machine
end

