-- ==== Sys2Proof/Machine/Traverse.lean ====
section
/-!
DEFINITION. The traversal unit: TRAV and DTRAV, their commands at the unit, results and markers (spec/23_traversal.md R295 to
R308).
-/

namespace Sys2Proof.Machine

/-! ## The instructions -/

/-- TRAV (R300). -/
def execTrav (h ray : CReg) : State → Host.Outcome State Fault Refusal :=
  run do
    let t ← getTh
    let a := t.rc h
    let b := t.rc ray
    checkCap (creg h) a rR (capOff a) 64 64
    checkCap (creg ray) b (rR + rW) (capOff b) 320 64
    enginePush 4 fun s o => s.pushTrav o (.trav a b)
    advance

/-- DTRAV (R304). -/
def execDtrav (pb : CReg) : State → Host.Outcome State Fault Refusal :=
  run do
    let t ← getTh
    let b := t.rc pb
    checkCap (creg pb) b (rR + rW + rC) (capOff b) 16448 64
    enginePush 4 fun s o => s.pushTrav o (.dtrav b)
    advance

/-- The accessor that a cluster's traversal unit is for a command (R215, R295). -/
def State.unitAcc (s : State) (o : Origin) : Acc := { s.accOf o with unit := true }

/-! ## Results (R295, R296) -/

/-- A result element of R296. -/
def travWord (status count data : Nat) (poison : Bool) : Word :=
  BitVec.ofNat 64 (status * 2 ^ 60 + (if poison then 2 ^ 59 else 0) + count % 256 * 2 ^ 32 + data % 2 ^ 32)

def State.tcmd? (s : State) (id : Nat) : Option TCmd := s.travs.find? (·.id = id)

def State.putTcmd (s : State) (c : TCmd) : State :=
  { s with travs := s.travs.map fun x => if x.id = c.id then c else x }

/-- A command waits for no earlier command of its firing. -/
def State.firstOf (s : State) (c : TCmd) : Bool :=
  !s.travs.any fun x => x.id < c.id && x.org.firing = c.org.firing && x.org.core = c.org.core

def TBody.isMarker : TBody → Bool
  | .marker _ => true
  | .trav _ _ => false
  | .dtrav _ => false

/-- Results whose turn has come are delivered to q5 in push order, as far as the unit holds no record for their core (R155); a marker's is
an event of its own. -/
def State.flushTrav (s : State) : Nat → State
  | 0 => s
  | f + 1 =>
    match s.travs.find? fun c => c.result.isSome && !c.body.isMarker && s.firstOf c && !s.holding c.org.core 4 with
    | none => s
    | some c => ({ s with travs := s.travs.filter (·.id ≠ c.id) }.deliver c.org 5 (c.result.getD 0)).flushTrav f

/-- A command ends with its result. -/
def State.endTrav (s : State) (c : TCmd) (w : Word) : State :=
  (s.putTcmd { c with running := true, run := none, result := some w }).flushTrav s.travs.length

/-- A record of R299, then STATUS 4. -/
def State.travFault (s : State) (c : TCmd) (kind : Nat) (blk : Cap) (cause side obj off count data : Nat) (poison : Bool) :
    State :=
  let o := c.org
  (s.post (o.note (faultWords kind cause o.core (o.tid % 8) side obj off o.workid (capObj blk) (capOff blk) 0 0))).endTrav c
    (travWord 4 count data poison)

/-! ## Rays (R301 to R303) -/

/-- A ray block's fields. -/
structure Ray where
  org  : List Nat
  tmin : Nat
  dir  : List Nat
  tmax : Nat
  last : Nat
  k    : Nat
  deriving DecidableEq, Repr

/-- A candidate: T, primitive, leaf, D2. -/
structure Hit where
  t    : Nat
  prim : Nat
  leaf : Nat
  d2   : Nat
  deriving DecidableEq, Repr

def parseRay (b : List Byte) : Ray :=
  { org := (List.range 3).map fun i => leAt b (4 * i) 4
    tmin := leAt b 12 4
    dir := (List.range 3).map fun i => leAt b (16 + 4 * i) 4
    tmax := leAt b 28 4
    last := leAt b 32 4
    k := leAt b 36 4 }

def f32Inf (neg : Bool) : Nat := (FVal.inf neg).into fp32 .rne 0

/-- One axis of the node test (R302): near and far, or none where the node is not visited. -/
def slabTest (org dir lo hi : Nat) : Option (Nat × Nat) :=
  if (fp32.decode dir).isZero then
    if fLe lo org && fLe org hi then some (f32Inf true, f32Inf false) else none
  else
    let r := divF 0x3F800000 dir
    let s0 := mulF (subF lo org) r
    let s1 := mulF (subF hi org) r
    some (minF s0 s1, maxF s0 s1)

/-- A node is visited (R302). -/
def visited (r : Ray) (n : Node) : Bool :=
  let ax := (List.range 3).map fun i => slabTest (r.org.getD i 0) (r.dir.getD i 0) (n.lo.getD i 0) (n.hi.getD i 0)
  match ax with
  | [some x, some y, some z] =>
    let tn := maxF (maxF x.1 y.1) z.1
    let tf := minF (minF x.2 y.2) z.2
    fLe tn tf && fLe r.tmin tf && fLe tn r.tmax
  | _ => false

/-- The cross product, one rounding for each operation. -/
def crossF (a b : List Nat) : List Nat :=
  (List.range 3).map fun i =>
    let j := (i + 1) % 3
    let k := (i + 2) % 3
    subF (mulF (a.getD j 0) (b.getD k 0)) (mulF (a.getD k 0) (b.getD j 0))

/-- local(v) of R302. -/
def toLocal (qw : Nat) (u v : List Nat) : List Nat :=
  let t := (crossF u v).map (mulF 0x40000000)
  zip3 addF (zip3 addF v (t.map (mulF qw))) (crossF u t)

/-- The primitive test (R302): T and D2 of a candidate. -/
def primTest (r : Ray) (b : List Byte) : Option (Nat × Nat) :=
  let half := fun i => halfToFp32 (leAt b i 2)
  let ctr := (List.range 3).map fun i => leAt b (4 * i) 4
  let qw := half 12
  let u := (List.range 3).map fun i => negF (half (14 + 2 * i))
  let is := (List.range 3).map fun i => half (20 + 2 * i)
  let o := zip3 mulF (toLocal qw u (zip3 subF r.org ctr)) is
  let d := zip3 mulF (toLocal qw u r.dir) is
  let dd := sumSq d
  if (fp32.decode dd).isZero || !(fp32.decode dd).isFin then none
  else
    let t := negF (divF (dotF o d) dd)
    let e := zip3 addF o (d.map (mulF t))
    let d2 := sumSq e
    if fLe d2 0x41100000 && fLe t r.tmax then some (t, d2) else none

/-- A key lies after the block's position (R303). -/
def afterPos (r : Ray) (t prim : Nat) : Bool :=
  fLt r.tmin t || (fpCond .eq (fp32.decode t) (fp32.decode r.tmin) && (r.last = noChild || prim > r.last))

/-- Key order: T, then the primitive. -/
def hitLess (a b : Hit) : Bool :=
  fLt a.t b.t || (fpCond .eq (fp32.decode a.t) (fp32.decode b.t) && a.prim < b.prim)

/-- A candidate at its place in the sorted list. -/
def insertHit (h : Hit) : List Hit → List Hit
  | [] => [h]
  | x :: t => if hitLess h x then h :: x :: t else x :: insertHit h t

/-- A candidate joins the sorted list; a primitive counts once, with its lowest leaf. -/
def addHit (h : Hit) (l : List Hit) : List Hit :=
  if l.any (·.prim = h.prim) then l.map fun x => if x.prim = h.prim then { x with leaf := min x.leaf h.leaf } else x
  else insertHit h l

/-- The candidates of the primitives [p, p + n) of a leaf; a fault comes with whether a poisoned primitive was met before it (R298). -/
def State.leafHits (s : State) (c : Acc) (h : Hier) (r : Ray) (leaf : Nat) :
    Nat → Nat → List Hit × Bool → Except ((Nat × Nat × Nat) × Bool) (List Hit × Bool) × State
  | 0, _, acc => (.ok acc, s)
  | n + 1, p, acc =>
    match s.readPrim c h p with
    | (.error (k, o), s) => (.error ((k, capObj h.cap, o), acc.2), s)
    | (.ok (_, true), s) => s.leafHits c h r leaf n (p + 1) (acc.1, true)
    | (.ok (b, false), s) =>
      let l := match primTest r b with
        | some (t, d2) => if afterPos r t p then addHit ⟨t, p, leaf, d2⟩ acc.1 else acc.1
        | none => acc.1
      s.leafHits c h r leaf n (p + 1) (l, acc.2)

/-- How a walk of a hierarchy for a ray ends. -/
inductive RayEnd where
  | hits (l : List Hit) (poison : Bool)
  | bad (idx : Nat) (poison : Bool)
  | fault (cause obj off : Nat) (poison : Bool)

/-- The walk: pending nodes with their parents' DEPTH, the nodes expanded, and the candidates. -/
def State.rayWalk (s : State) (c : Acc) (h : Hier) (r : Ray) :
    Nat → List (Nat × Option Nat) → List Nat → List Hit × Bool → RayEnd × State
  | 0, _, _, acc => (.hits acc.1 acc.2, s)
  | _ + 1, [], _, acc => (.hits acc.1 acc.2, s)
  | f + 1, (i, par) :: rest, seen, acc =>
    match s.readNode c h i par (fun _ => true) with
    | (.bad, s) => (.bad i acc.2, s)
    | (.fault k o x, s) => (.fault k o x acc.2, s)
    | (.poisoned, s) => s.rayWalk c h r f rest seen (acc.1, true)
    | (.ok n, s) =>
      if seen.contains i || !visited r n then s.rayWalk c h r f rest seen acc
      else if n.leaf then
        if n.kind ≠ 1 then (.bad i acc.2, s)
        else
        match s.leafHits c h r i n.count n.first acc with
        | (.error ((k, o, x), p), s) => (.fault k o x p, s)
        | (.ok acc, s) => s.rayWalk c h r f rest (i :: seen) acc
      else s.rayWalk c h r f (n.child.map (fun j => (j, some n.depth)) ++ rest) (i :: seen) acc

/-- The bytes of a hit (R301). -/
def hitBytes (h : Hit) : List Byte := leBytes 4 h.t ++ leBytes 4 h.prim ++ leBytes 4 h.leaf ++ leBytes 4 h.d2

/-- The writes of a round (R303), all or none. -/
def State.writeHits (s : State) (c : Acc) (blk : Cap) (l : List Hit) : Except (Nat × Nat) Unit × State :=
  let o := capOff blk
  match l.getLast? with
  | none => (.ok (), s)
  | some z =>
    match s.xlatRange c (capObj blk) o rW (pagesOf o 64) 64 with
    | (.error e, s) => (.error e, s)
    | (.ok ps, s) =>
      if s.anyDown ps then (.error (0x0F, o), s)
      else
        match s.engWrite c (capObj blk) (o + 64) (l.flatMap hitBytes) with
        | (.error e, s) => (.error e, s)
        | (.ok _, s) =>
          let s := (s.engWrite c (capObj blk) (o + 12) (leBytes 4 z.t)).2
          (s.engWrite c (capObj blk) (o + 32) (leBytes 4 z.prim)).2 |> fun s => (.ok (), s)

/-- TRAV at the unit. -/
def State.runTrav (s : State) (cmd : TCmd) (hc blk : Cap) : State :=
  let c := s.unitAcc cmd.org
  let fail := fun (s : State) (k side obj off : Nat) (p : Bool) => s.travFault cmd 14 blk k side obj off 0 0 p
  match s.engReadWhole c (capObj blk) (capOff blk) 320 with
  | (.error (k, off), s) => fail s k 3 (capObj blk) off false
  | (.ok b, s) =>
    let r := parseRay b
    if r.k < 1 || r.k > 16 || !zeroAt b 40 24 then s.endTrav cmd (travWord 3 0 0xFFFFFFFE false)
    else
      match s.readHier c hc with
      | (.fault k obj off, s) => fail s k 0 obj off false
      | (.poisoned, s) => s.endTrav cmd (travWord 0 0 0 true)
      | (.bad, s) => s.endTrav cmd (travWord 3 0 0xFFFFFFFD false)
      | (.ok h, s) =>
        match s.rayWalk c h r (5 * h.nnodes + 5) [(h.root, none)] [] ([], false) with
        | (.bad i p, s) => s.endTrav cmd (travWord 3 0 i p)
        | (.fault k obj off p, s) => fail s k 0 obj off p
        | (.hits l p, s) =>
          let first := l.take r.k
          match s.writeHits c blk first with
          | (.error (k, off), s) => fail s k 3 (capObj blk) off p
          | (.ok _, s) => s.endTrav cmd (travWord (if l.length > r.k then 1 else 0) first.length 0 p)

/-! ## Dual descents (R304 to R308) -/

def dSelf (w : Word) : Bool := bitW 2 w
def dMode (w : Word) : Nat := fieldW 1 0 w

/-- STATE of a block (R304). -/
def dState (started busy : Bool) (npend emit : Nat) : Nat :=
  (if started then 2 ^ 63 else 0) + (if busy then 2 ^ 62 else 0) + npend % 4096 * 2 ^ 32 + emit % 2 ^ 32

/-- What a leaf must be in a mode (R306). -/
def dLeaf (ctl : Word) (n : Node) : Bool := dMode ctl = 0 || (n.kind = 1 && n.count = 1)

/-- Bytes of pending pairs, the deepest first (R304). -/
def stackBytes (l : List (Nat × Nat)) : List Byte := l.reverse.flatMap fun p => leBytes 4 p.1 ++ leBytes 4 p.2

/-- The pairs of a stack's bytes, the top first. -/
def stackPairs (b : List Byte) : List (Nat × Nat) :=
  ((List.range (b.length / 8)).map fun i => (leAt b (8 * i) 4, leAt b (8 * i + 4) 4)).reverse

/-- The end of a descent (R308): its writes, WORK, then the result. `stack` is set for a stop, which writes the pending
pairs as well. -/
def State.endDescent (s : State) (cmd : TCmd) (blk : Cap) (d : DRun) (started stack : Bool) (w : Word) : State :=
  let st := leBytes 8 (dState started false d.stack.length d.emit)
  match s.engWrite (s.unitAcc cmd.org) (capObj blk) (capOff blk + 56) (if stack then st ++ stackBytes d.stack else st) with
  | (.ok _, s) => (s.wqWork d.queue 1).endTrav cmd w
  | (.error (k, off), s) => (s.wqWork d.queue 1).travFault cmd 15 blk k 3 (capObj blk) off 0 d.emitted d.poison

/-- A stop with STATUS 4: its record, and the block's writes. -/
def State.faultDescent (s : State) (cmd : TCmd) (blk : Cap) (d : DRun) (started : Bool) (k side obj off : Nat) : State :=
  let st := leBytes 8 (dState started false d.stack.length d.emit)
  match s.engWrite (s.unitAcc cmd.org) (capObj blk) (capOff blk + 56) (st ++ stackBytes d.stack) with
  | (.ok _, s) => (s.wqWork d.queue 1).travFault cmd 15 blk k side obj off 0 d.emitted d.poison
  | (.error (k, off), s) => (s.wqWork d.queue 1).travFault cmd 15 blk k 3 (capObj blk) off 0 d.emitted d.poison

/-- A capability of the block that fails its check (R304). -/
def badBlockCap (c : Cap) (need n : Nat) : Bool := (capCheck c need (capOff c) n 64).isSome

/-- The roots of a fresh descent (R305). -/
def State.descentRoots (s : State) (cmd : TCmd) (blk : Cap) (d : DRun) : State :=
  let c := s.unitAcc cmd.org
  match s.readNode c d.ha d.ha.root none (dLeaf d.ctl) with
  | (.fault k obj off, s) => s.faultDescent cmd blk d false k 0 obj off
  | (.bad, s) => s.endDescent cmd blk d false true (travWord 3 0 d.ha.root d.poison)
  | (ra, s) =>
    let d := match ra with
      | .poisoned => { d with poison := true }
      | .ok _ | .bad | .fault _ _ _ => d
    match s.readNode c d.hb d.hb.root none (dLeaf d.ctl) with
    | (.fault k obj off, s) => s.faultDescent cmd blk d false k (if dSelf d.ctl then 0 else 1) obj off
    | (.bad, s) => s.endDescent cmd blk d false true (travWord 3 0 d.hb.root d.poison)
    | (rb, s) =>
      let d' :=
        match ra, rb with
        | .ok a, .ok b => if overlap a b then { d with stack := [(d.ha.root, d.hb.root)] } else d
        | _, _ => { d with poison := true }
      s.putTcmd { cmd with running := true, run := some d' }

/-- The queue of a block, at its descriptor's home. -/
def State.queueOf (s : State) (c : Acc) (k : Cap) : Except (Nat × Nat) (Option WQueue) × State :=
  match s.xlatRange c (capObj k) (capOff k) (rR + rW) (pagesOf (capOff k) 128) 128 with
  | (.error e, s) => (.error e, s)
  | (.ok ps, s) =>
    if ps.any fun p => s.poisoned p.1 p.2 then (.error (0x0F, capOff k), s) else (.ok ((ps.head?).bind fun p => s.wqAt p.1), s)

/-- The 64 bytes of a block with the tags of its three capabilities. -/
def State.blockHead (s : State) (c : Acc) (blk : Cap) (n : Nat) : Except (Nat × Nat) (List Byte × List Bool) × State :=
  match s.xlatRange c (capObj blk) (capOff blk) rR (pagesOf (capOff blk) n) n with
  | (.error e, s) => (.error e, s)
  | (.ok ps, s) =>
    match s.engReadWhole c (capObj blk) (capOff blk) n with
    | (.error e, s) => (.error e, s)
    | (.ok b, s) =>
      let at_ := pieceAddrs ps
      let (t, s) := s.homeTags ((List.range (n / 16)).map fun i => at_.getD (16 * i) 0)
      (.ok (b, t), s)

/-- The bytes of the pending pairs that a STATE counts: none before the descent has started (R304). -/
def pendBytes (state : Nat) : Nat := if state.testBit 63 then 8 * min (bitsOf 43 32 state) 2048 else 0

/-- A stop before the pending pairs are taken over (R298, R299, R308): they are written as they stand, with their poison, and STATE as it was
read, with BUSY 0, and the command ends so, or by the record of that access. -/
def State.unreadStop (s : State) (cmd : TCmd) (blk : Cap) (state : Nat) (poison : Bool) (end_ : State → State) : State :=
  let c := s.unitAcc cmd.org
  let fault := fun (s : State) (k off : Nat) => s.travFault cmd 15 blk k 3 (capObj blk) off 0 0 poison
  match s.engReadMarked c (capObj blk) (capOff blk + 64) (pendBytes state) with
  | (.error (k, off), s) => fault s k off
  | (.ok (b, marks), s) =>
    match s.engWriteMarked c (capObj blk) (capOff blk + 56) (leBytes 8 state ++ b) (List.replicate 8 false ++ marks) with
    | (.ok _, s) => end_ s
    | (.error (k, off), s) => fault s k off

/-- The start of a descent once its hierarchies and queue stand (R305). -/
def State.beginDescent (s : State) (cmd : TCmd) (blk : Cap) (d : DRun) (state : Nat) : State :=
  let c := s.unitAcc cmd.org
  match s.engWrite c (capObj blk) (capOff blk + 56) (leBytes 8 (state + 2 ^ 62)) with
  | (.error (k, off), s) => s.travFault cmd 15 blk k 3 (capObj blk) off 0 0 d.poison
  | (.ok _, s) =>
    let s := match s.wq? d.queue with
      | some q => s.setWq { q with work := q.work + 1 }
      | none => s
    if state.testBit 63 then
      match s.engReadWhole c (capObj blk) (capOff blk + 64) (pendBytes state) with
      | (.error (k, off), s) =>
        (s.wqWork d.queue 1).unreadStop cmd blk state d.poison fun s => s.travFault cmd 15 blk k 3 (capObj blk) off 0 0 d.poison
      | (.ok b, s) =>
        s.putTcmd { cmd with running := true, run := some { d with stack := stackPairs b, emit := bitsOf 31 0 state } }
    else s.descentRoots cmd blk d

/-- DTRAV as the unit takes it (R304, R305). -/
def State.runDtrav (s : State) (cmd : TCmd) (blk : Cap) : State :=
  let c := s.unitAcc cmd.org
  let fault := fun (k side obj off : Nat) (s : State) => s.travFault cmd 15 blk k side obj off 0 0 cmd.poison
  let bad := fun (s : State) (data : Nat) => s.endTrav cmd (travWord 3 0 data cmd.poison)
  match s.blockHead c blk 64 with
  | (.error (k, off), s) => fault k 3 (capObj blk) off s
  | (.ok b, s) =>
    let ctl := blockWord b 48
    let state := (blockWord b 56).toNat
    let ha := blockCap b 0
    let hb := if dSelf ctl then ha else blockCap b 1
    let q := blockCap b 2
    if state.testBit 62 then bad s 0xFFFFFFFF
    else if fieldW 31 3 ctl ≠ 0 || dMode ctl ≥ 2 || badBlockCap ha rR 64 || badBlockCap hb rR 64 ||
        badBlockCap q (rR + rW + rA) 128 then
      bad s 0xFFFFFFFE
    else
      let dead := fun (s : State) => s.unreadStop cmd blk state true fun s => s.endTrav cmd (travWord 0 0 0 true)
      let fail := fun (s : State) (k side obj off : Nat) => s.unreadStop cmd blk state cmd.poison (fault k side obj off)
      match s.readHier c ha with
      | (.fault k obj off, s) => fail s k 0 obj off
      | (.poisoned, s) => dead s
      | (.bad, s) => bad s 0xFFFFFFFD
      | (.ok x, s) =>
        match s.readHier c hb with
        | (.fault k obj off, s) => fail s k 1 obj off
        | (.poisoned, s) => dead s
        | (.bad, s) => bad s 0xFFFFFFFD
        | (.ok y, s) =>
          match s.queueOf c q with
          | (.error (k, off), s) => fail s k 2 (capObj q) off
          | (.ok none, s) => bad s 0xFFFFFFFC
          | (.ok (some w), s) =>
            s.beginDescent cmd blk
              { ha := x, hb := y, ctl := ctl, stack := [], emit := 0, emitted := 0, poison := cmd.poison, queue := w.id } state

/-- The bounding sphere of a leaf's one ellipsoid (R307): its centre and radius; none where it is poisoned. -/
def State.sphereOf (s : State) (c : Acc) (h : Hier) (n : Node) :
    Except (Nat × Nat × Nat) (Option (List Nat × Nat)) × State :=
  match s.readPrim c h n.first with
  | (.error (k, o), s) => (.error (k, capObj h.cap, o), s)
  | (.ok (_, true), s) => (.ok none, s)
  | (.ok (b, false), s) =>
    let is := fun i => halfToFp32 (leAt b (20 + 2 * i) 2)
    (.ok (some ((List.range 3).map fun i => leAt b (4 * i) 4, divF 0x40400000 (minF (minF (is 0) (is 1)) (is 2)))), s)

/-- The spheres overlap (R307). -/
def spheresMeet (a b : List Nat × Nat) : Bool :=
  let d2 := sumSq (zip3 subF a.1 b.1)
  let r := addF a.2 b.2
  fLt d2 (mulF r r)

/-- Why the fetch of a split's children stops: a bad node, or a fault. -/
inductive KidStop where
  | bad (idx : Nat)
  | fault (cause obj off : Nat)
  deriving DecidableEq, Repr

/-- The children of a node, fetched in slot order; a poisoned one is kept without its node. A stop comes with whether a poisoned one was met
before it (R298). -/
def State.kids (s : State) (c : Acc) (h : Hier) (ctl : Word) (depth : Nat) :
    List Nat → Except (KidStop × Bool) (List (Nat × Option Node)) × State
  | [] => (.ok [], s)
  | i :: t =>
    match s.readNode c h i (some depth) (dLeaf ctl) with
    | (.bad, s) => (.error (.bad i, false), s)
    | (.fault k o x, s) => (.error (.fault k o x, false), s)
    | (.poisoned, s) =>
      match s.kids c h ctl depth t with
      | (.error e, s) => (.error (e.1, true), s)
      | (.ok l, s) => (.ok ((i, none) :: l), s)
    | (.ok n, s) =>
      match s.kids c h ctl depth t with
      | (.error e, s) => (.error e, s)
      | (.ok l, s) => (.ok ((i, some n) :: l), s)

/-- The ordered pairs of a list with itself, i ≤ j. -/
def selfPairs {α : Type} : List α → List (α × α)
  | [] => []
  | x :: t => (x :: t).map (fun y => (x, y)) ++ selfPairs t

/-- The overlapping child pairs of a split; a pair that names a poisoned node is dropped (R298, R305). -/
def keepPairs (l : List ((Nat × Option Node) × (Nat × Option Node))) : List (Nat × Nat) :=
  l.filterMap fun p =>
    match p.1.2, p.2.2 with
    | some a, some b => if overlap a b then some (p.1.1, p.2.1) else none
    | _, _ => none

/-- Children of which one was poisoned (R298). -/
def anyDropped (l : List (Nat × Option Node)) : Bool := l.any fun x => x.2.isNone

/-- The record of a leaf pair (R306). -/
def dRecord (d : DRun) (a b : Node) : List Byte :=
  let self := dSelf d.ctl
  let (x, y) := if self then (min a.idx b.idx, max a.idx b.idx) else (a.idx, b.idx)
  let strict := d.ha.strict && (self || d.hb.strict)
  let flags := (if strict then 0 else 1) + (if self then 2 else 0) + (if dMode d.ctl = 1 then 4 else 0)
  leBytes 4 x ++ leBytes 4 y ++ leBytes 4 (fieldW 63 32 d.ctl) ++ leBytes 1 flags ++ leBytes 18 0 ++
    leBytes 1 (max a.depth b.depth)

/-- A pair of leaves (R305 to R307): popped, emitted, or a stop. -/
def State.leafPair (s : State) (cmd : TCmd) (blk : Cap) (d : DRun) (a b : Node) (rest : List (Nat × Nat)) : State :=
  let c := s.unitAcc cmd.org
  let go := fun (s : State) (d : DRun) => s.putTcmd { cmd with run := some d }
  let popped := { d with stack := rest }
  let sideB := if dSelf d.ctl then 0 else 1
  let emit := fun (s : State) =>
    match s.wq? d.queue with
    | none => s.endDescent cmd blk d true true (travWord 2 0 d.emitted d.poison)
    | some q =>
      if q.cap - q.used < 1 then
        (s.refuseQueue q 1 cmd.org.workid).endDescent cmd blk d true true (travWord 2 0 d.emitted d.poison)
      else
        match s.place q [dRecord d a b] with
        | (.error (k, obj, off), s) => s.faultDescent cmd blk d true k 2 obj off
        | (.ok _, s) => go s { popped with emit := d.emit + 1, emitted := d.emitted + 1 }
  if dSelf d.ctl && a.idx = b.idx then go s popped
  else if dMode d.ctl = 0 then emit s
  else
    match s.sphereOf c d.ha a with
    | (.error (k, obj, off), s) => s.faultDescent cmd blk d true k 0 obj off
    | (.ok x, s) =>
      let d := { d with poison := d.poison || x.isNone }
      match s.sphereOf c d.hb b with
      | (.error (k, obj, off), s) => s.faultDescent cmd blk d true k sideB obj off
      | (.ok y, s) =>
        match x, y with
        | some u, some v => if spheresMeet u v then emit s else go s popped
        | _, _ => go s { popped with poison := true }

/-- The split of a pair that is not two leaves (R305). -/
def State.splitPair (s : State) (cmd : TCmd) (blk : Cap) (d : DRun) (a b : Node) (rest : List (Nat × Nat)) : State :=
  let c := s.unitAcc cmd.org
  let sideB := if dSelf d.ctl then 0 else 1
  let stop := fun (s : State) (side : Nat) (e : KidStop) (p : Bool) =>
    let d := { d with poison := d.poison || p }
    match e with
    | .bad i => s.endDescent cmd blk d true true (travWord 3 0 i d.poison)
    | .fault k obj off => s.faultDescent cmd blk d true k side obj off
  let push := fun (s : State) (l : List ((Nat × Option Node) × (Nat × Option Node))) (p : Bool) =>
    s.putTcmd { cmd with run := some { d with stack := keepPairs l ++ rest, poison := d.poison || p } }
  if dSelf d.ctl && a.idx = b.idx then
    match s.kids c d.ha d.ctl a.depth a.child with
    | (.error (e, p), s) => stop s 0 e p
    | (.ok l, s) => push s (selfPairs l) (anyDropped l)
  else if a.leaf then
    match s.kids c d.hb d.ctl b.depth b.child with
    | (.error (e, p), s) => stop s sideB e p
    | (.ok l, s) => push s (l.map fun y => ((a.idx, some a), y)) (anyDropped l)
  else
    match s.kids c d.ha d.ctl a.depth a.child with
    | (.error (e, p), s) => stop s 0 e p
    | (.ok l, s) =>
      if b.leaf then push s (l.map fun x => (x, (b.idx, some b))) (anyDropped l)
      else
        match s.kids c d.hb d.ctl b.depth b.child with
        | (.error (e, p), s) => stop s sideB e (p || anyDropped l)
        | (.ok r, s) => push s (l.flatMap fun x => r.map fun y => (x, y)) (anyDropped l || anyDropped r)

/-- One pair of a descent (R305): a pair with a poisoned node is popped before its nodes are tested otherwise. -/
def State.stepDescent (s : State) (cmd : TCmd) (blk : Cap) (d : DRun) : State :=
  let c := s.unitAcc cmd.org
  match d.stack with
  | [] => s.endDescent cmd blk d true false (travWord 0 0 d.emitted d.poison)
  | (i, j) :: rest =>
    let (x, s) := s.readNode c d.ha i none (dLeaf d.ctl)
    let (y, s) := s.readNode c d.hb j none (dLeaf d.ctl)
    match x, y with
    | .poisoned, _ => s.putTcmd { cmd with run := some { d with stack := rest, poison := true } }
    | _, .poisoned => s.putTcmd { cmd with run := some { d with stack := rest, poison := true } }
    | .fault k obj off, _ => s.faultDescent cmd blk d true k 0 obj off
    | .bad, _ => s.endDescent cmd blk d true true (travWord 3 0 i d.poison)
    | _, .fault k obj off => s.faultDescent cmd blk d true k (if dSelf d.ctl then 0 else 1) obj off
    | _, .bad => s.endDescent cmd blk d true true (travWord 3 0 j d.poison)
    | .ok a, .ok b => if a.leaf && b.leaf then s.leafPair cmd blk d a b rest else s.splitPair cmd blk d a b rest

/-! ## The unit (R295) -/

/-- The next core of a cluster whose buffer holds a command, after the core served last. -/
def State.nextBuffer (s : State) (cluster : Nat) : Option TCmd :=
  let last := smGet 15 s.served cluster
  (List.range 16).findSome? fun i =>
    s.travs.find? fun c => !c.running && c.org.core = cluster * 16 + (last + 1 + i) % 16

/-- The commands that a cluster's unit runs. -/
def State.unitRunning (s : State) (cluster : Nat) : Nat :=
  (s.travs.filter fun c => c.running && c.result.isNone && coreCluster c.org.core = cluster).length

/-- A command that the unit takes. -/
def State.takeTrav (s : State) (cmd : TCmd) : State :=
  match cmd.body with
  | .trav h ray => s.runTrav cmd h ray
  | .dtrav blk => s.runDtrav cmd blk
  | .marker v => s.putTcmd { cmd with running := true, result := some v }

/-- TRAVERSAL_COMMAND_START (R295): the unit takes the next command; with none to take, or with 32 running, the descent
that it left longest goes on by one pair. -/
def execTraversalCommandStart (cluster : Nat) : State → Host.Outcome State Fault Refusal :=
  event fun s =>
    match if s.unitRunning cluster < 32 then s.nextBuffer cluster else none with
    | some cmd =>
      { s with served := smPut s.served cluster (cmd.org.core % 16) }.takeTrav { cmd with running := true }
    | none =>
      match s.travs.find? fun c => c.run.isSome && coreCluster c.org.core = cluster with
      | some cmd =>
        let s := { s with travs := s.travs.filter (·.id ≠ cmd.id) ++ [cmd] }
        match cmd.body, cmd.run with
        | .dtrav blk, some d => s.stepDescent cmd blk d
        | _, _ => s
      | none => s

/-- TRAVERSAL_MARKER_DELIVERY (R295): a marker of a core is delivered after the results of every earlier command of its
firing. -/
def execTraversalMarkerDelivery (core : Nat) : State → Host.Outcome State Fault Refusal :=
  event fun s =>
    match s.travs.find? fun c =>
      c.org.core = core && c.body.isMarker && c.result.isSome && s.firstOf c && !s.holding core 4 with
    | some c => ({ s with travs := s.travs.filter (·.id ≠ c.id) }.deliver c.org 5 (c.result.getD 0)).flushTrav s.travs.length
    | none => s.flushTrav s.travs.length

end Sys2Proof.Machine
end

