-- ==== Sys2Proof/Machine/Pairs.lean ====
section
/-!
DEFINITION. Pair tasks: PAIR, MOM and MOMD (spec/25_pairs.md R323 to R338). Each runs to its end within its bundle.
-/

namespace Sys2Proof.Machine

/-! ## The pair block (R323, R324, R326) -/

/-- A pair block: its capabilities in order HA, HB, QUEUE, MOMS, ACCS, its control word and THETA. -/
structure PairBlock where
  caps  : List Cap
  ctl   : Word
  theta : Nat
  deriving DecidableEq, Repr

/-- A result word (R326). -/
def pairWord (status count data : Nat) (poison inl : Bool) : Word :=
  BitVec.ofNat 64 (status * 2 ^ 60 + (if poison then 2 ^ 59 else 0) + (if inl then 2 ^ 58 else 0) + count % 16 * 2 ^ 48 +
    data % 2 ^ 32)

/-- How PAIR or MOM ends early: a bad node or code, a poisoned line, or a fault with its side, object and offset. -/
inductive PairEnd where
  | bad (data : Nat)
  | dropped
  | fault (cause side obj off : Nat)
  deriving DecidableEq, Repr

/-- A computation of the unit for PAIR or MOM. -/
abbrev PairM (α : Type) := EStateM PairEnd State α

def pairStop {α : Type} (e : PairEnd) : PairM α := throw e

/-- An engine access as a step of PAIR or MOM; its fault names a side and an object. -/
def pairAccess {α : Type} (side obj : Nat) (f : State → Except (Nat × Nat) α × State) : PairM α := fun s =>
  match f s with
  | (.ok a, s) => .ok a s
  | (.error (k, off), s) => .error (.fault k side obj off) s

/-- A read through the node cache as a step. -/
def pairMet {α : Type} (side : Nat) (badData : Nat) (f : State → Met α × State) : PairM α := fun s =>
  match f s with
  | (.ok a, s) => .ok a s
  | (.bad, s) => .error (.bad badData) s
  | (.poisoned, s) => .error .dropped s
  | (.fault k obj off, s) => .error (.fault k side obj off) s

/-- The block is read and checked (R323). -/
def readPairBlock (c : Acc) (blk : Cap) : PairM PairBlock := do
  let b ← pairAccess 3 (capObj blk) fun s => s.blockHead c blk 128
  let ctl := blockWord b 80
  let theta := leAt b.1 88 4
  let t := fp32.decode theta
  if fieldW 31 1 ctl ≠ 0 || !zeroAt b.1 92 36 || !t.isFin || (t.neg && !t.isZero) then pairStop (.bad 0xFFFFFFFB)
  else return ⟨(List.range 5).map (blockCap b), ctl, theta⟩

def PairBlock.cap (p : PairBlock) (i : Nat) : Cap := p.caps.getD i nullCap
def PairBlock.self (p : PairBlock) : Bool := bitW 0 p.ctl

/-- A capability of the block is checked (R323). -/
def pairCap (c : Cap) (need n align : Nat) : PairM Unit :=
  if (capCheck c need (capOff c) n align).isSome then pairStop (.bad 0xFFFFFFFE) else pure ()

/-- An array's capability is checked; its entries are bounded one by one (R323, R324). -/
def pairArray (c : Cap) (need : Nat) : PairM Unit :=
  if !c.tag || missing need (capRights c) ≠ 0 || capBadFmt c || capOff c % 16 ≠ 0 then pairStop (.bad 0xFFFFFFFE)
  else pure ()

/-- A hierarchy's header (R327). -/
def pairHier (c : Acc) (side : Nat) (k : Cap) : PairM Hier := pairMet side 0xFFFFFFFD fun s => s.readHier c k

/-- A node (R327). -/
def pairNode (c : Acc) (side : Nat) (h : Hier) (i : Nat) (parent : Option Nat) : PairM Node :=
  pairMet side i fun s => s.readNode c h i parent fun _ => true

/-- A node whose EXTENT is a NaN or below zero is bad (R327). -/
def checkExtent (n : Node) : PairM Unit :=
  let e := fp32.decode n.extent
  if e.isNaN || (e.neg && !e.isZero) then pairStop (.bad n.idx) else pure ()

/-- The children of a node in slot order. -/
def pairKids (c : Acc) (side : Nat) (h : Hier) (depth : Nat) : List Nat → PairM (List Node)
  | [] => pure []
  | i :: t => do
    let n ← pairNode c side h i (some depth)
    let l ← pairKids c side h depth t
    return n :: l

/-- Q < T of R327. -/
def accepted (theta : Nat) (a b : Node) : Bool :=
  let mid := fun (n : Node) => (zip3 addF n.lo n.hi).map fun x => mulF x 0x3F000000
  let d2 := sumSq (zip3 subF (mid a) (mid b))
  let s := addF a.extent b.extent
  fLt (mulF s s) (mulF (mulF theta theta) d2)

/-- The child pairs of a split (R328). -/
def pairSplit (c : Acc) (self : Bool) (ha hb : Hier) (a b : Node) : PairM (List (Node × Node)) := do
  let sideB := if self then 0 else 1
  if self && a.idx = b.idx then
    let l ← pairKids c 0 ha a.depth a.child
    return selfPairs l
  else if a.leaf || (!b.leaf && fLt a.extent b.extent) then
    let l ← pairKids c sideB hb b.depth b.child
    return l.map fun y => (a, y)
  else
    let l ← pairKids c 0 ha a.depth a.child
    return l.map fun x => (x, b)

/-- A record of R330. -/
def pairRecord (p : PairBlock) (x : Node × Node) : List Byte :=
  leBytes 4 x.1.idx ++ leBytes 4 x.2.idx ++ leBytes 4 (fieldW 63 32 p.ctl) ++ leBytes 1 (8 + if p.self then 2 else 0) ++
    leBytes 18 0 ++ leBytes 1 (max x.1.depth x.2.depth)

/-- The pair stack is usable for n pairs (R329). -/
def stackUsable (k : Cap) (n : Nat) : Bool :=
  k.tag && missing rW (capRights k) = 0 && capOff k % 8 = 0 && capBase k ≤ capOff k && (capOff k + 8 * n : Nat) ≤ capTop k

/-- The records are committed at the queue's home (R329, R373). -/
def pairPlace (q : WQueue) (recs : List (List Byte)) : PairM Unit := fun s =>
  match s.place q recs with
  | (.ok _, s) => .ok () s
  | (.error (k, obj, off), s) => .error (.fault k 2 obj off) s

/-- The pairs written to the pair stack; no SIDE names that structure, so it is free (log 4). -/
def pairStackWrite (c : Acc) (k : Cap) (l : List (Node × Node)) : PairM Unit := do
  let f ← (fun s => match s.freeBytes 1 with
    | (b, s) => .ok (leNat b) s : PairM Nat)
  pairAccess f (capObj k) fun s =>
    s.engWrite c (capObj k) (capOff k) (l.flatMap fun p => leBytes 4 p.1.idx ++ leBytes 4 p.2.idx)

/-- The child pairs go to one place (R329). -/
def placePairs (c : Acc) (p : PairBlock) (stk : Cap) (workid : Word) (l : List (Node × Node)) : PairM Word := do
  let qc := p.cap 2
  let recs := l.map (pairRecord p)
  let n := l.length
  match ← pairAccess 2 (capObj qc) fun s => s.queueOf c qc with
  | none => pairStop (.bad 0xFFFFFFFC)
  | some q =>
    if q.used + n ≤ qctlHwm q.qctl && q.cap - q.used ≥ n then
      pairPlace q recs
      return pairWord 1 n 0 false false
    else if stackUsable stk n then
      pairStackWrite c stk l
      return pairWord 1 n 0 false true
    else if q.cap - q.used ≥ n then
      pairPlace q recs
      return pairWord 1 n 0 false false
    else
      modify fun s => s.refuseQueue q n workid
      return pairWord 5 0 0 false false

/-- PAIR at the unit (R327). -/
def runPair (c : Acc) (blk stk : Cap) (workid : Word) (w : Word) : PairM Word := do
  let p ← readPairBlock c blk
  let hb := if p.self then p.cap 0 else p.cap 1
  let sideB := if p.self then 0 else 1
  pairCap (p.cap 0) rR 64 64
  pairCap hb rR 64 64
  pairCap (p.cap 2) (rR + rW + rA) 128 64
  let x ← pairHier c 0 (p.cap 0)
  let y ← pairHier c sideB hb
  let a ← pairNode c 0 x (fieldW 31 0 w) none
  checkExtent a
  let b ← pairNode c sideB y (fieldW 63 32 w) none
  checkExtent b
  if accepted p.theta a b then return pairWord 0 0 0 false false
  else if a.leaf && b.leaf then return pairWord 2 0 0 false false
  else
    let l ← pairSplit c p.self x y a b
    placePairs c p stk workid l

/-- The result of a computation, with the record of R331 where it met a fault. -/
def pairResult (o : Origin) (kind : Nat) (blk : Cap) (f : PairM Word) (s : State) : Word × State :=
  match f s with
  | .ok w s => (w, s)
  | .error (.bad data) s => (pairWord 3 0 data false false, s)
  | .error .dropped s => (pairWord 6 0 0 true false, s)
  | .error (.fault k side obj off) s =>
    (pairWord 4 0 0 false false,
      s.post (o.note (faultWords kind k o.core (o.tid % 8) side obj off o.workid (capObj blk) (capOff blk) 0 0)))

/-- The block's check at issue; earlier stores of the thread are performed (R325, R329). -/
def issuePair (pb : CReg) : M Cap := do
  let t ← getTh
  let b := t.rc pb
  checkCap (creg pb) b rR (capOff b) 128 64
  drainMine
  return b

/-- PAIR (R325). -/
def execPair (d : GReg) (pb stk : CReg) : State → Host.Outcome State Fault Refusal :=
  run do
    let t ← getTh
    let b ← issuePair pb
    let w ← runS fun s => pairResult s.origin 16 b (runPair (s.unitAcc s.origin) b (t.rc stk) t.workid (t.rg d)) s
    writeI (.g d w)
    advance

/-! ## MOM and MOMD (R332 to R334) -/

/-- An entry of an array inside its capability's bounds (R324). -/
def entryOff (k : Cap) (n : Node) : PairM Nat :=
  let off := capOff k + 16 * n.momacc
  if off < capBase k || (off + 16 : Nat) > capTop k then pairStop (.bad 0xFFFFFFFA) else pure off

/-- The four values of an entry. -/
def readEntry (c : Acc) (side : Nat) (k : Cap) (n : Node) : PairM (List Nat) := do
  let off ← entryOff k n
  let b ← pairAccess side (capObj k) fun s => s.engReadWhole c (capObj k) off 16
  return (List.range 4).map fun i => leAt b (4 * i) 4

/-- The pages of an entry that is added into are translated for reading and writing (R238), and nothing is written. -/
def probeEntry (c : Acc) (side : Nat) (k : Cap) (n : Node) : PairM Unit := do
  let off ← entryOff k n
  let ps ← pairAccess side (capObj k) fun s => s.xlatRange c (capObj k) off (rR + rW) (pagesOf off 16) 16
  let s ← get
  if s.anyDown ps then pairStop (.fault 0x0F side (capObj k) off) else pure ()

/-- The entries of nodes, in order. -/
def readEntries (c : Acc) (side : Nat) (k : Cap) : List Node → PairM (List (List Nat))
  | [] => pure []
  | n :: t => do
    let e ← readEntry c side k n
    let l ← readEntries c side k t
    return e :: l

/-- The entries of nodes that are added into, translated in order. -/
def probeEntries (c : Acc) (side : Nat) (k : Cap) : List Node → PairM Unit
  | [] => pure ()
  | n :: t => do
    probeEntry c side k n
    probeEntries c side k t

/-- The node of MOM or MOMD with its children (R332). -/
def momNode (c : Acc) (p : PairBlock) (arr need : Nat) (w : Word) : PairM (Node × List Node) := do
  let tree := if bitW 32 w then 1 else 0
  pairCap (p.cap tree) rR 64 64
  pairArray (p.cap arr) need
  let h ← pairHier c tree (p.cap tree)
  let n ← pairNode c tree h (fieldW 31 0 w) none
  checkExtent n
  if n.leaf then pairStop (.bad n.idx)
  else
    let l ← pairKids c tree h n.depth n.child
    return (n, l)

/-- The sum of the children's moments (R333). -/
def sumMoments : List (List Nat) → List Nat
  | [] => [0, 0, 0, 0]
  | m :: t => t.foldl (fun a b => (List.range 4).map fun i => addF (a.getD i 0) (b.getD i 0)) m

/-- MOM at the unit (R333). -/
def runMom (c : Acc) (blk : Cap) (w : Word) : PairM Word := do
  let p ← readPairBlock c blk
  let (n, l) ← momNode c p 3 (rR + rW) w
  let k := p.cap 3
  let off ← entryOff k n
  let es ← readEntries c 4 k l
  pairAccess 4 (capObj k) fun s => s.engWrite c (capObj k) off ((sumMoments es).flatMap (leBytes 4))
  return pairWord 0 l.length 0 false false

/-- One component added into a child's entry at its home (R334): a poisoned destination stays so (R363), and an add to another module
leaves through the torus (R188). -/
def State.addComponent (s : State) (c : Acc) (k : Cap) (off v : Nat) : State :=
  let away := match (s.translate c.core (capObj k) off (rR + rW)).1 with
    | .home a _ => isForeign a
    | .bad | .absent | .noPerm _ _ => false
  if away then (s.engWrite c (capObj k) off (leBytes 4 v)).2
  else
  match s.engRead c (capObj k) off 4 with
  | (.ok (b, false), s) => (s.engWrite c (capObj k) off (leBytes 4 (destCombine fp32 .add (leNat b) v))).2
  | (.ok (_, true), s) => s
  | (.error _, s) => s

/-- MOMD at the unit (R334). -/
def runMomd (c : Acc) (blk : Cap) (w : Word) : PairM Word := do
  let p ← readPairBlock c blk
  let (n, l) ← momNode c p 4 (rR + rW + rA) w
  let k := p.cap 4
  let par ← readEntry c 5 k n
  probeEntries c 5 k l
  modify fun s =>
    l.foldl
      (fun s m => (List.range 4).foldl (fun s i => s.addComponent c k (capOff k + 16 * m.momacc + 4 * i) (par.getD i 0)) s) s
  return pairWord 0 l.length 0 false false

/-- MOM (R332). -/
def execMom (d : GReg) (pb : CReg) : State → Host.Outcome State Fault Refusal :=
  run do
    let t ← getTh
    if fieldW 63 33 (t.rg d) ≠ 0 then trapWhole 0x05 (t.rg d)
    let b ← issuePair pb
    let w ← runS fun s => pairResult s.origin 17 b (runMom (s.unitAcc s.origin) b (t.rg d)) s
    writeI (.g d w)
    advance

/-- MOMD (R332). -/
def execMomd (d : GReg) (pb : CReg) : State → Host.Outcome State Fault Refusal :=
  run do
    let t ← getTh
    if fieldW 63 33 (t.rg d) ≠ 0 then trapWhole 0x05 (t.rg d)
    let b ← issuePair pb
    let w ← runS fun s => pairResult s.origin 17 b (runMomd (s.unitAcc s.origin) b (t.rg d)) s
    writeI (.g d w)
    advance

end Sys2Proof.Machine
end

