-- ==== Sys2Proof/Machine/Fabric.lean ====
section
/-!
DEFINITION. The fabric (spec/15_fabric.md R210 to R233): tokens of home channels, cluster rings, the torus router, lane groups
with retry, parking, waking and ring moves, trim, and the fabric service port q6.
-/

namespace Sys2Proof.Machine

/-! ## Crossbar channels (R211 to R213) -/

/-- A channel's token at the owner, with its receive buffers empty (log 3). -/
def freshToken : Token := ⟨.opened, [], 128, 128, 0, []⟩

def State.token (s : State) (chan : Nat) : Token := smGet freshToken s.fabric.tokens chan

def State.setToken (s : State) (chan : Nat) (t : Token) : State :=
  { s with fabric := { s.fabric with tokens := smPut s.fabric.tokens chan t } }

/-- A packet may be sent while the token is in a state. -/
def TokenState.admits (t : TokenState) (resp : Bool) : Bool :=
  match t with
  | .opened => true
  | .respOnly => resp
  | .withheld => false

/-- The packet that a port sends next on a channel: the one it has begun, else a response before a request (R211, R212). -/
def nextAtPort (l : List PortPkt) : Option PortPkt :=
  match l.find? fun p => p.left < p.pkt.flits with
  | some p => some p
  | none =>
    match l.find? (·.pkt.resp) with
    | some p => some p
    | none => l.head?

/-- The waiting packets of the source whose turn a port serves (R211): a packet that was begun goes on; else the two sources of a shared
port alternate where both wait. -/
def portTurn (last : Bool) (l : List PortPkt) : List PortPkt :=
  if l.any (fun p => p.left < p.pkt.flits) then l
  else if (l.filter (·.slice ≠ last)).isEmpty then l
  else l.filter (·.slice ≠ last)

/-- A packet that a cluster's station has taken in goes on around the cluster's ring, from the optical port to its core (R215). -/
def State.intoRing (s : State) (chan : Nat) (p : Pkt) : State :=
  if chan < 256 then s
  else
    let dest := p.bank / 8 % 16
    let r : RingPkt := ⟨chan - 256, 17, decide ((dest + 1) % 18 ≤ 17 - dest), true, dest, p⟩
    { s with fabric := { s.fabric with ring := s.fabric.ring ++ [r] } }

/-- TOKEN_CAPTURE (R212): a port with a packet that the token admits sends up to 4 flits and re-injects it; a channel carries at most 12 flits in one
period (R213). -/
def execTokenCapture (chan port : Nat) : State → Host.Outcome State Fault Refusal :=
  event fun s =>
    let t := s.token chan
    let waiting := s.fabric.ports.filter fun p =>
      p.chan = chan && p.port = port && (p.left < p.pkt.flits || t.state.admits p.pkt.resp)
    match nextAtPort (portTurn (smGet false t.served port) waiting) with
    | none => s
    | some p =>
      let n := min (min 4 p.left) (12 - t.load)
      if t.barred.contains port || !t.state.admits p.pkt.resp || n = 0 then s
      else
        let t' := { t with
          barred := port :: t.barred
          load := t.load + n
          served := smPut t.served port p.slice
          freeRq := if p.pkt.resp then t.freeRq else t.freeRq - n
          freeRs := if p.pkt.resp then t.freeRs - n else t.freeRs }
        let f := s.fabric
        let ports :=
          if p.left = n then f.ports.erase p else f.ports.map fun x => if x = p then { p with left := p.left - n } else x
        let s := { s with fabric := { f with ports := ports } }.setToken chan t'
        if p.left = n then s.intoRing chan p.pkt else s

/-- The state in which an owner releases the token (R213). -/
def releaseState (freeRq freeRs : Nat) : TokenState :=
  if freeRs < 16 then .withheld else if freeRq < 16 then .respOnly else .opened

/-- TOKEN_OWNER_PASS (R213): since the last pass the owner has taken in some of the flits it held, how many is open; it
releases the token by its free buffers, and every port may capture again. -/
def execTokenOwnerPass (chan : Nat) : State → Host.Outcome State Fault Refusal :=
  event fun s =>
    let (b, s) := s.freeBytes 2
    let t := s.token chan
    let rq := t.freeRq + leNat (b.take 1) % (129 - t.freeRq)
    let rs := t.freeRs + leNat (b.drop 1) % (129 - t.freeRs)
    s.setToken chan ⟨releaseState rq rs, [], rq, rs, 0, t.served⟩

/-! ## Cluster rings (R215) -/

/-- The packets of a stop's buffers, of a class and direction. -/
def State.ringHeld (s : State) (cluster stop : Nat) (cw resp : Bool) : Nat :=
  (s.fabric.ring.filter fun p =>
    p.cluster = cluster && p.stop = stop && p.cw = cw && p.pkt.resp = resp && !p.entering).length

/-- The next stop of a direction. -/
def nextStop (stop : Nat) (cw : Bool) : Nat := if cw then (stop + 1) % 18 else (stop + 17) % 18

/-- A packet leaves the ring at its stop: at a core or the traversal unit it has arrived; at the optical port, stop 17, it goes on to the
torus router, or on the crossbar through the cluster's writer port (R211). -/
def State.offRing (s : State) (p : RingPkt) : State :=
  let s := { s with fabric := { s.fabric with ring := s.fabric.ring.erase p } }
  if p.stop ≠ 17 then s
  else if (s.routeDir p.pkt.mod).isSome then s.atRouter p.pkt none
  else s.atPort p.cluster false p.pkt

/-- A packet waiting at a stop enters the ring there, where two buffers are free. -/
def State.enterRing (s : State) (cluster stop : Nat) (cw resp : Bool) : State :=
  let f := s.fabric
  match f.ring.find? fun p => p.cluster = cluster && p.stop = stop && p.cw = cw && p.pkt.resp = resp && p.entering with
  | some p =>
    if s.ringHeld cluster stop cw resp ≤ 2 then
      { s with fabric := { f with ring := f.ring.map fun x => if x = p then { p with entering := false } else x } }
    else s
  | none => s

/-- RING_ADVANCE (R215): the oldest packet on the ring at a stop goes on; where none can, one waiting there enters. -/
def execRingAdvance (cluster stop : Nat) (cw resp : Bool) : State → Host.Outcome State Fault Refusal :=
  event fun s =>
    let f := s.fabric
    match f.ring.find? fun p => p.cluster = cluster && p.stop = stop && p.cw = cw && p.pkt.resp = resp && !p.entering with
    | some p =>
      if p.dest = stop then s.offRing p
      else if s.ringHeld cluster (nextStop stop cw) cw resp < 4 then
        { s with fabric := { f with ring := f.ring.erase p ++ [{ p with stop := nextStop stop cw }] } }
      else s.enterRing cluster stop cw resp
    | none => s.enterRing cluster stop cw resp

/-! ## Lane groups (R220 to R226) -/

/-- Bits hi..lo of a 32-bit register. -/
def field32 (hi lo : Nat) (w : BitVec 32) : Nat := bitsOf hi lo w.toNat

/-- A 32-bit register with bits hi..lo replaced. -/
def put32 (hi lo : Nat) (w : BitVec 32) (v : Nat) : BitVec 32 :=
  BitVec.ofNat 32 (w.toNat - bitsOf hi lo w.toNat * 2 ^ lo + v % 2 ^ (hi - lo + 1) * 2 ^ lo)

def lgCur (w : BitVec 32) : Nat := field32 1 0 w
def lgTgt (w : BitVec 32) : Nat := field32 5 4 w
def lgMaxw (w : BitVec 32) : Nat := field32 9 8 w
def lgState (w : BitVec 32) : Nat := field32 25 24 w
def lgAutow (w : BitVec 32) : Bool := w.getLsbD 31

/-- The lanes of a width code (R224). -/
def widthLanes (code : Nat) : Nat := if code = 0 then 0 else 2 ^ code

/-- A fabric event reaches the supervisor's fabric actor on die 0 (R233). -/
def State.fabricEvent (s : State) (code w1 w2 : Nat) : State :=
  let (id, s) := s.freeWord
  s.post (supNote 0 (fieldW 5 0 (s.die 0).supact) id (eight [BitVec.ofNat 64 code, BitVec.ofNat 64 w1, BitVec.ofNat 64 w2]))

/-- CRC-16 of the top k bits of a number of 272 bits, most significant first (R221). -/
def crc16 (v : Nat) : Nat → BitVec 16 → BitVec 16
  | 0, c => c
  | k + 1, c =>
    let fb := c.getLsbD 15 ^^ v.testBit k
    crc16 v k ((c <<< 1) ^^^ (if fb then 0x1021 else 0))

/-- The 288 bits of a flit on the wire (R221). -/
def Flit.wire (f : Flit) : BitVec 288 :=
  let v := f.kind % 16 * 2 ^ 268 + f.seq % 4096 * 2 ^ 256 + f.payload.toNat
  BitVec.ofNat 288 ((crc16 v 272 0xFFFF).toNat * 2 ^ 272 + v)

/-- The length of the slice of a flit that a lane carries at a width code (R222). -/
def sliceLen (code : Nat) : Nat := 288 / widthLanes code

/-- The bits of a flit on the wire that lane l carries at a width code, most significant first (R222). -/
def laneSlice (code : Nat) (w : BitVec 288) (l : Nat) : Nat := bitsOf (sliceLen code * (l + 1) - 1) (sliceLen code * l) w.toNat

/-- The bits that lane 0 of a group has carried. -/
def LaneGroup.laneBits (g : LaneGroup) : Nat := g.sent.foldl (fun n f => n + sliceLen f.width) 0

/-- A group sends flits: it is stable, or waking beside traffic (R223, R226, R228). -/
def LaneGroup.live (g : LaneGroup) : Bool := lgState g.lgctl = 0 || (lgState g.lgctl = 1 && g.wake = some false)

/-- A flit that carries no sequence number goes on the wire of a group (R221, R223), unless the group sends none: it moves a ring (R228), or
it is down. -/
def LaneGroup.control (g : LaneGroup) (kind payload : Nat) : LaneGroup :=
  if lgState g.lgctl ≥ 2 then g
  else { g with sent := g.sent ++ [⟨kind, 0, BitVec.ofNat 256 payload, lgCur g.lgctl, 0, 0⟩] }

/-- A flit with a sequence number goes on the wire and into the replay buffer (R223). -/
def LaneGroup.sendFlit (g : LaneGroup) (f : Flit) : LaneGroup :=
  let f := { f with seq := g.nextSeq, width := lgCur g.lgctl }
  { g with nextSeq := (g.nextSeq + 1) % 4096, replay := g.replay ++ [f], sent := g.sent ++ [f] }

/-- The idle flits that a group sends at its width before it resends at another one: until lane 0 stands at a multiple of that one's slice
length (R223). -/
def LaneGroup.idles (g : LaneGroup) (code : Nat) : Nat :=
  if code = lgCur g.lgctl then 0
  else
    ((List.range 8).find? fun k => (g.laneBits + k * sliceLen (lgCur g.lgctl)) % sliceLen code = 0).getD 0

/-- The replay buffer is sent again, at the width at which its earliest flit was first sent (R223). -/
def LaneGroup.resend (g : LaneGroup) : LaneGroup :=
  match g.replay with
  | [] => { g with owed := false }
  | f :: _ =>
    let idle : Flit := ⟨0, 0, 0, lgCur g.lgctl, 0, 0⟩
    { g with
      owed := false
      linkerr := put32 15 8 g.linkerr (min 255 (field32 15 8 g.linkerr + 1))
      sent := g.sent ++ List.replicate (g.idles f.width) idle ++ g.replay.map fun x => { x with width := f.width } }

/-- WIDTH is sent at the old width, and the new one is in force from the next flit on (R226). -/
def LaneGroup.switchTo (g : LaneGroup) (n code : Nat) : LaneGroup :=
  let g := g.sendFlit ⟨7, 0, BitVec.ofNat 256 code, 0, 0, n⟩
  { g with lgctl := put32 30 30 (put32 1 0 g.lgctl code) 1 }

/-- A group is down: it is so, or retrains from width 0 (R223, R226). -/
def LaneGroup.isDown (g : LaneGroup) : Bool := lgState g.lgctl = 3 || g.wake = some true

/-- The groups of the direction of a group. -/
def laneGroups (n : Nat) : List Nat := (List.range 48).map (48 * (n / 48) + ·)

/-- The groups whose traffic has moved away from a group: its own and that of the groups it was a substitute of. -/
def State.movedFrom (s : State) (n : Nat) : List Nat :=
  (laneGroups n).filter fun t => if t = n then (s.group n).subst ≠ [] else (s.group t).subst.tail.contains n

/-- A flit of the traffic of a group is queued at the group that carries it, or not yet acknowledged there. -/
def State.inFlight (s : State) (t : Nat) : Bool :=
  let h := s.group (s.carrier t)
  (h.txq ++ h.replay).any (·.group = t)

/-- The traffic of a group carried by a group that had it before, or by the group itself. -/
def LaneGroup.backTo (g : LaneGroup) (t n : Nat) : LaneGroup := { g with subst := if t = n then [] else g.subst.dropWhile (· ≠ n) }

/-- A group that was down takes back the traffic that moved away from it, once no flit of that waits at its substitute (R219, R226). -/
def State.takeBack (s : State) (n : Nat) : State :=
  let away := s.movedFrom n
  if (s.group n).isDown || away.any s.inFlight then s
  else away.foldl (fun s t => s.setGroup t ((s.group t).backTo t n)) s

/-- The groups that have carried the traffic of a group take it back where they can. -/
def State.takeBacks (s : State) (t : Nat) : State := (t :: (s.group t).subst.reverse).foldl State.takeBack s

/-- The traffic that a group which is down carries goes to a live group (R223): its packets to the tail of that one's queue, which keeps
them beyond its size of 1,024 flits (log 78, DESIGN CHOICE: R223 gives no size that moved packets stop at). -/
def State.moveTraffic (s : State) (n m : Nat) : State :=
  let g := s.group n
  let h := s.group m
  let mine := (laneGroups n).filter fun t => s.carrier t = n
  let s := (s.setGroup n { g with txq := [] }).setGroup m { h with txq := h.txq ++ g.txq }
  mine.foldl
    (fun s t =>
      let x := s.group t
      s.setGroup t (if t = m || x.subst.contains m then x.backTo t m else { x with subst := m :: x.subst })) s

/-- The flits of a packet (R210, R221). -/
def pktFlits (n : Nat) (p : Pkt) : List Flit :=
  ⟨1, 0, Config.headerOf p.resp p.src p.bank p.mod p.data.length, 0, p.id, n⟩ ::
    (List.range ((p.data.length + 31) / 32)).map fun i =>
      ⟨2, 0, BitVec.ofNat 256 (leNat ((p.data.drop (32 * i)).take 32)), 0, p.id, n⟩

/-! ## Powered rings (R226 to R228) -/

/-- The ring that serves a wavelength of a fibre. -/
def State.ringOf (s : State) (f w : Nat) : Nat := smGet w s.fabric.ringmap (32 * f + w)

/-- The width code up to which a transmit group's lanes are powered: its target while it wakes. -/
def LaneGroup.powered (g : LaneGroup) : Nat :=
  match lgState g.lgctl, g.wake with
  | 3, _ => 0
  | _, some true => lgTgt g.lgctl
  | _, some false => max (lgCur g.lgctl) (lgTgt g.lgctl)
  | _, none => lgCur g.lgctl

/-- The lane group whose record holds a wavelength of a fibre: its own for a transmit fibre; for a receive fibre f the receiver that
R223 pairs with it, which has the number of the group of the same direction, fibre and g (log 38). -/
def laneGroupOf (f w : Nat) : Nat := 3 * (f % 96) + w / 8

/-- A wavelength of a fibre is active or waking (R220, R226). -/
def State.litLane (s : State) (f w : Nat) : Bool :=
  let g := s.group (laneGroupOf f w)
  if f < 96 then w % 8 < widthLanes g.powered else w % 8 < widthLanes g.rxWidth || g.farLit.contains (w % 8)

/-- A ring of a fibre is powered. -/
def State.litRing (s : State) (f r : Nat) : Bool := (List.range 24).any fun w => s.ringOf f w = r && s.litLane f w

/-- The codes in force of the powered rings of wavelengths 8g to 8g + 7 of a fibre become their HEAT codes (R226, R227). -/
def State.applyHeat (s : State) (f g : Nat) : State :=
  (List.range 8).foldl
    (fun s l =>
      let w := 8 * g + l
      let k := 32 * f + s.ringOf f w
      if s.litLane f w then { s with fabric := { s.fabric with applied := smPut s.fabric.applied k (smGet 0 s.fabric.heat k) } }
      else s) s

/-- The draw of a module's active wavelengths in microwatts: 192 mW for each, whatever it carries (R222). -/
def State.lightDraw (s : State) : Nat :=
  192000 * (((List.range 96).flatMap fun f => (List.range 24).map fun w => (f, w)).filter fun p => s.litLane p.1 p.2).length

/-! ## Waking and parking (R226) -/

/-- A wake towards TGT starts, or is extended: the WAKE flit is sent and the waking rings are heated. R226 gives WAKE no payload and lets the
far end know its lanes; the model puts the new width code in PAYLOAD[1:0], where WIDTH has it (log 79, DESIGN CHOICE). A park that still
waits for its flit boundary is given up, its TGT being replaced. -/
def State.startWake (s : State) (n : Nat) (retrain : Bool) : State :=
  let g := s.group n
  let g := { g with lgctl := put32 25 24 g.lgctl 1, wake := some retrain, ready := none, parking := false }.control 5 (lgTgt g.lgctl)
  (s.setGroup n g).applyHeat (n / 3) (n % 3)

/-- A wake ends without its new width; a group that was down stays so. -/
def LaneGroup.stopWake (g : LaneGroup) : LaneGroup :=
  { g with lgctl := put32 25 24 g.lgctl (if g.wake = some true then 3 else 0), wake := none, ready := none }

/-- A TGT written (R226). -/
def State.retarget (s : State) (n old : Nat) : State :=
  let g := s.group n
  let tgt := lgTgt g.lgctl
  let cur := lgCur g.lgctl
  match lgState g.lgctl with
  | 0 =>
    if tgt > cur then s.startWake n false else s
  | 1 =>
    if g.wake = some true then (if tgt > old then s.startWake n true else s)
    else if tgt ≤ cur then s.setGroup n g.stopWake
    else if tgt > old then s.startWake n false
    else s
  | 3 => s.startWake n true
  | _ => s

/-- QDEP of a group (R225). -/
def LaneGroup.depth (g : LaneGroup) : Nat := min 1024 g.txq.length

/-- The flit boundary at which a park takes effect (R226): WIDTH is sent, once the replay buffer has room for it. -/
def State.parkNow (s : State) (n : Nat) : State :=
  let g := s.group n
  if g.replay.length ≥ 1024 then s
  else
    let g := { g with parking := false }.switchTo n (lgTgt g.lgctl)
    (s.setGroup n g).fabricEvent 1 n g.lgctl.toNat

/-! ## Acknowledgements (R223) -/

/-- An ACK with the last SEQ accepted (R223); it waits while the group sends nothing. -/
def LaneGroup.ack (g : LaneGroup) : LaneGroup := if g.live then { (g.control 3 g.lastAck) with unacked := 0 } else g

/-- A NAK with the SEQ expected, after which flits are discarded (R223); it waits while the group sends nothing. -/
def LaneGroup.nak (g : LaneGroup) : LaneGroup :=
  if g.live then { (g.control 4 g.expSeq) with discard := true, nakDue := false, rxNaks := g.rxNaks + 1 }
  else { g with discard := true, nakDue := true }

/-- A receiver that has NAKed one SEQ 16 times in a row knows that its group is down: it waits for a wake from width 0, and the flits of a
packet that goes another way are dropped (R223, R226). -/
def State.nakAt (s : State) (n : Nat) (g : LaneGroup) : State :=
  let g := g.nak
  if g.rxNaks < 16 then s.setGroup n g
  else
    { s with fabric := { s.fabric with rxq := s.fabric.rxq.filter (·.1 ≠ n) } }.setGroup n { g with rxWidth := 0, farLit := [] }

/-- A group sends again: its receiver's ACK, NAK or READY and its own resend, where they waited, go out. -/
def State.sendAgain (s : State) (n : Nat) : State :=
  let g := s.group n
  let g := if g.unacked ≥ 64 then g.ack else g
  let g := if g.rdyDue then { (g.control 6 0) with rdyDue := false } else g
  let g := if g.owed then g.resend else g
  if g.nakDue then s.nakAt n g else s.setGroup n g

/-- The lowest-numbered live group of a direction from a fibre on (R223). -/
def State.liveGroup (s : State) (n : Nat) : Option Nat :=
  let d := n / 48
  let j := n / 3 % 16
  (List.range 48).findSome? fun i =>
    let m := 3 * (16 * d + (j + i / 3) % 16) + i % 3
    if !(s.group m).isDown && m ≠ n then some m else none

/-- The traffic that groups of a direction hold, now that one of them is live again (R223). -/
def State.letGo (s : State) (n : Nat) : State :=
  (laneGroups n).foldl
    (fun s m =>
      match s.liveGroup m with
      | some l => if (s.group m).isDown then s.moveTraffic m l else s
      | none => s) s

/-- A wake ends with WIDTH sent at the old width (R226): the new width is in force, and a group that was down is live again. -/
def State.widen (s : State) (n elapsed : Nat) : State :=
  let g := s.group n
  let re := g.wake = some true
  let g := { g with wake := none, ready := none }.switchTo n (lgTgt g.lgctl)
  let g := { g with
    lgctl := put32 25 24 (put32 23 12 g.lgctl (min elapsed 4095)) 0
    linkerr := if re then put32 0 0 g.linkerr 0 else g.linkerr }
  let s := ({ s with fabric := { s.fabric with trained := true } }.setGroup n g).fabricEvent 1 n g.lgctl.toNat
  if re then (s.sendAgain n).letGo n else s

/-- A flit boundary of a group (R222, R223, R225, R226): WIDTH goes out for a READY that the replay buffer had no room for, how much later
is open; a park takes effect, an automatic wake starts, the next queued flit is sent, or an idle one. -/
def State.boundary (s : State) (n : Nat) : State :=
  let g := s.group n
  let c := g.lgctl
  if g.ready.isSome && g.replay.length < 1024 then
    let (b, s) := s.freeBytes 2
    s.widen n (g.ready.getD 0 + leNat b)
  else if g.parking && lgState c = 0 && g.replay.length < 1024 then s.parkNow n
  else if lgAutow c && lgState c = 0 && lgCur c < lgMaxw c && g.depth ≥ field32 10 0 g.qthr then
    (s.setGroup n { g with lgctl := put32 5 4 c (lgMaxw c) }).startWake n false
  else if !g.live then s
  else
    match g.txq with
    | f :: rest => s.setGroup n (if g.replay.length < 1024 then { g with txq := rest }.sendFlit f else g.control 0 0)
    | [] => s.setGroup n (g.control 0 0)

/-- AUTO_WAKE (R225): a flit boundary. -/
def execAutoWake (n : Fin 288) : State → Host.Outcome State Fault Refusal := event fun s => s.boundary n.val

/-- The far end restores rings and detectors for the lanes of a WAKE flit (R226). -/
def State.farWake (s : State) (n code : Nat) : State :=
  let g := s.group n
  (s.setGroup n { g with farLit := (List.range (widthLanes code)).filter fun l => widthLanes g.rxWidth ≤ l }).applyHeat
    (96 + n / 3) (n % 3)

/-- WAKE_FLIT_RECEIVE (R226). -/
def execWakeFlitReceive (n : Fin 288) (code : BitVec 2) : State → Host.Outcome State Fault Refusal :=
  event fun s => s.farWake n.val code.toNat

/-- CDR_LOCK (R226): the far end has locked its lanes and sends READY on the reverse group. -/
def execCdrLock (n : Fin 288) : State → Host.Outcome State Fault Refusal :=
  event fun s =>
    let g := s.group n.val
    s.setGroup n.val (if lgState g.lgctl ≥ 2 then { g with rdyDue := true } else g.control 6 0)

/-- READY within the budget ends a wake (R226): WIDTH is sent, or waits for a flit boundary at which the replay buffer has room for it. -/
def State.wakeDone (s : State) (n elapsed : Nat) : State :=
  let g := s.group n
  if g.wake.isNone || elapsed > 2000 then s
  else if g.replay.length ≥ 1024 then s.setGroup n { g with ready := some elapsed }
  else s.widen n elapsed

/-- READY_RECEIVE (R226): the time since the wake's budget began is given. -/
def execReadyReceive (n : Fin 288) (elapsed : Nat) : State → Host.Outcome State Fault Refusal :=
  event fun s => s.wakeDone n.val elapsed

/-- WIDTH_FLIT_RECEIVE (R226): the receiver changes width at the boundary after an accepted WIDTH flit. -/
def execWidthFlitReceive (n : Fin 288) (code : BitVec 2) : State → Host.Outcome State Fault Refusal :=
  event fun s =>
    let g := s.group n.val
    if g.rxNext = some code.toNat then s.setGroup n.val { g with rxWidth := code.toNat, rxNext := none, farLit := [] } else s

/-- WAKE_BUDGET_EXPIRY (R226): where READY has not arrived, the waking rings park again and event 2 is sent. -/
def execWakeBudgetExpiry (n : Fin 288) : State → Host.Outcome State Fault Refusal :=
  event fun s =>
    let g := s.group n.val
    if g.wake.isSome && g.ready.isNone then
      let g := g.stopWake
      let g := { g with lgctl := put32 29 29 g.lgctl 1 }
      (s.setGroup n.val g).fabricEvent 2 n.val g.lgctl.toNat
    else s

/-- The end of a ring move (R228): the old ring is powered again where the move failed, with the code it has (R227), and what was to be
sent meanwhile goes out. -/
def State.endMove (s : State) (n : Nat) (ok : Bool) : State :=
  let g := s.group n
  match g.move with
  | some (f, w, old, new) =>
    let s := (s.setGroup n { g with lgctl := put32 25 24 g.lgctl 0, move := none }).sendAgain n
    let s :=
      if ok then s
      else { s with fabric := { s.fabric with ringmap := smPut s.fabric.ringmap (32 * f + w) old } }.applyHeat f (w / 8)
    s.fabricEvent (if ok then 5 else 6) f (w * 32 + new)
  | none => s

/-- RING_MOVE_READY (R228). -/
def execRingMoveReady (n : Fin 288) : State → Host.Outcome State Fault Refusal := event fun s => s.endMove n.val true

/-- RING_MOVE_BUDGET_EXPIRY (R228). -/
def execRingMoveBudgetExpiry (n : Fin 288) : State → Host.Outcome State Fault Refusal :=
  event fun s => s.endMove n.val false

/-! ## Receiving and retry (R221, R223) -/

/-- A flit's CRC is good and its KIND is none of the reserved ones. -/
def goodFlit (w : BitVec 288) : Bool :=
  let v := w.toNat % 2 ^ 272
  (crc16 v 272 0xFFFF).toNat = w.toNat / 2 ^ 272 && bitsOf 271 268 v < 8

/-- The flits of a group that do not yet make a packet. -/
def State.rxOf (s : State) (n : Nat) : List Flit := (s.fabric.rxq.filter (·.1 = n)).map (·.2)

/-- The packets of a class in the buffers of a router input. -/
def State.inputHeld (s : State) (dir : Nat) (resp : Bool) : Nat :=
  (s.fabric.torusQ.filter fun p => p.input = some dir && p.pkt.resp = resp).length

/-- A packet whose flits have all come goes to the router, which has 8 buffers for each direction and class (R218). -/
def State.assemble (s : State) (n : Nat) : State :=
  match s.rxOf n with
  | [] => s
  | h :: data =>
    let (resp, src, bank, mod, len) := Config.readHeader h.payload
    if data.length ≥ (len + 31) / 32 && s.inputHeld (n / 48) resp < 8 then
      let bytes := (data.flatMap fun f => leBytes 32 f.payload.toNat).take len
      let p : Pkt := ⟨s.fabric.nextPkt, resp, src, bank, mod, bytes⟩
      { s with
        fabric := { s.fabric with rxq := s.fabric.rxq.filter (·.1 ≠ n), nextPkt := s.fabric.nextPkt + 1 } }.atRouter p
          (some (n / 48))
    else s

/-- TORUS_HOP (R218): the oldest packet of a direction and class advances into the transmit queue of its lane group, where that has room and
the next router has a free buffer, or two for a packet that enters the dimension; how many it has is open. A buffer that it leaves is free
for a packet that waited at that input. -/
def execTorusHop (dir : Fin 6) (resp : Bool) : State → Host.Outcome State Fault Refusal :=
  event fun s =>
    match s.fabric.torusQ.find? fun p => p.dir = dir.val && p.pkt.resp = resp with
    | none => s
    | some p =>
      let n := laneOf dir.val p.pkt.src p.pkt.bank
      let (b, s) := s.freeBytes 1
      let s := s.takeBacks n
      let m := s.carrier n
      let g := s.group m
      if g.txq.length + p.pkt.flits ≤ 1024 && (if p.enters then 2 else 1) ≤ leNat b % 9 then
        let s :=
          { s with fabric := { s.fabric with torusQ := s.fabric.torusQ.erase p } }.setGroup m
            { g with txq := g.txq ++ pktFlits n p.pkt }
        match p.input with
        | some d => (List.range 48).foldl (fun s i => s.assemble (48 * d + i)) s
        | none => s
      else s

/-- A header, data or WIDTH flit at the receiver (R223). A header begins a packet, so flits of an unfinished one before it have gone another
way. -/
def State.takeFlit (s : State) (n kind seq : Nat) (payload : BitVec 256) : State :=
  let g := s.group n
  if seq ≠ g.expSeq then (if g.discard then s else s.nakAt n g)
  else
    let g := { g with expSeq := (seq + 1) % 4096, lastAck := seq, discard := false, nakDue := false, rxNaks := 0, unacked := g.unacked + 1,
                      rxNext := if kind = 7 then some (payload.toNat % 4) else g.rxNext }
    let g := if g.unacked ≥ 64 then g.ack else g
    let s := s.setGroup n g
    if kind = 7 then s
    else
      let old := if kind = 1 then s.fabric.rxq.filter (·.1 ≠ n) else s.fabric.rxq
      { s with fabric := { s.fabric with rxq := old ++ [(n, (⟨kind, seq, payload, g.rxWidth, 0, n⟩ : Flit))] } }.assemble n

/-- A replay buffer after an ACK (R223): what stays, and the acknowledged flits of a packet not wholly accepted. -/
def LaneGroup.acked (g : LaneGroup) (seq : Nat) : LaneGroup :=
  if g.replay.any (·.seq = seq) then
    let k := (g.replay.takeWhile (·.seq ≠ seq)).length + 1
    let rest := g.replay.drop k
    let next := (rest ++ g.txq).find? (·.kind ≠ 7)
    let done := g.part ++ g.replay.take k
    { g with replay := rest, naks := 0,
             part := match next with
               | some f => done.filter fun x => x.kind ≠ 7 && x.pkt = f.pkt && f.kind = 2
               | none => [] }
  else g

/-- A group goes down (R223): its packets not wholly accepted move to a live group, or are held. Once it is retrained its flits go on with
the SEQ after the last that the receiver accepted (log 78, DESIGN CHOICE: no rule gives the SEQ of a group that
comes up again; R223 lets the transmitter learn this one). -/
def State.groupDown (s : State) (n : Nat) : State :=
  let g := s.group n
  let flits := ((g.part ++ g.replay ++ g.txq).filter (·.kind ≠ 7))
  let down := { g with lgctl := put32 25 24 g.lgctl 3, linkerr := put32 0 0 g.linkerr 1, wake := none, move := none,
                       ready := none, owed := false, parking := false, replay := [], part := [], txq := flits, naks := 0,
                       nextSeq := ((g.replay.head?).map (·.seq)).getD g.nextSeq }
  let s := (s.setGroup n down).fabricEvent 3 n down.linkerr.toNat
  match s.liveGroup n with
  | some m => s.moveTraffic n m
  | none => s.fabricEvent 4 (n / 48) 0

/-- An ACK reaches the transmitter. -/
def State.gotAck (s : State) (n seq : Nat) : State := s.setGroup n ((s.group n).acked seq)

/-- A NAK reaches the transmitter (R223): it resends from the named SEQ, or once its ring move has ended (R228); the sixteenth in a row takes
the group down. -/
def State.gotNak (s : State) (n seq : Nat) : State :=
  let g := s.group n
  let run := if g.nakSeq = seq then g.naks + 1 else 1
  let g := if g.replay.any (·.seq = (seq + 4095) % 4096) then g.acked ((seq + 4095) % 4096) else g
  let g := { g with naks := run, nakSeq := seq }
  if run ≥ 16 then (s.setGroup n g).groupDown n
  else s.setGroup n (if g.live then g.resend else { g with owed := true })

/-- ACK_RECEIVE (R223). -/
def execAckReceive (n : Fin 288) (seq : BitVec 12) : State → Host.Outcome State Fault Refusal :=
  event fun s => s.gotAck n.val seq.toNat

/-- NAK_RECEIVE (R223). -/
def execNakReceive (n : Fin 288) (seq : BitVec 12) : State → Host.Outcome State Fault Refusal :=
  event fun s => s.gotNak n.val seq.toNat

/-- ACK_TIMER (R223). -/
def execAckTimer (n : Fin 288) : State → Host.Outcome State Fault Refusal :=
  event fun s =>
    let g := s.group n.val
    if g.unacked > 0 then s.setGroup n.val g.ack else s

/-- FLIT_RECEIVE (R221, R223): a flit of 288 bits at the receiver of a group; READY's time is that of its own event. -/
def execFlitReceive (n : Fin 288) (flit : BitVec 288) : State → Host.Outcome State Fault Refusal :=
  event fun s =>
    let v := flit.toNat
    let pay : BitVec 256 := BitVec.ofNat 256 v
    let kind := bitsOf 271 268 v
    if !goodFlit flit then
      let g := s.group n.val
      s.nakAt n.val { g with linkerr := put32 31 16 g.linkerr (min 0xFFFF (field32 31 16 g.linkerr + 1)) }
    else
      match kind with
      | 0 => s
      | 3 => s.gotAck n.val (pay.toNat % 4096)
      | 4 => s.gotNak n.val (pay.toNat % 4096)
      | 5 => s.farWake n.val (pay.toNat % 4)
      | 6 => if (s.group n.val).move.isSome then s.endMove n.val true else s
      | _ => s.takeFlit n.val kind (bitsOf 267 256 v) pay

/-! ## Trim (R227) -/

/-- MPD_SAMPLE (R227): the detected power is open, up to the 3,000 of a ring on its line; it is 0 while the ring is parked. -/
def execMpdSample (f : Fin 192) (r : Fin 26) : State → Host.Outcome State Fault Refusal :=
  event fun s =>
    let (b, s) := s.freeBytes 2
    let v := if s.litRing f.val r.val then BitVec.ofNat 12 (leNat b % 3001) else 0
    { s with fabric := { s.fabric with mpd := smPut s.fabric.mpd (32 * f.val + r.val) v } }

/-! ## The fabric service port (R230 to R232) -/

def q6Op (w : Word) : Nat := fieldW 63 60 w
def q6Kind (w : Word) : Nat := fieldW 55 52 w
def q6I1 (w : Word) : Nat := fieldW 51 40 w
def q6I2 (w : Word) : Nat := fieldW 39 32 w
def q6Data (w : Word) : BitVec 32 := BitVec.ofNat 32 w.toNat

/-- A malformed command. -/
def q6Bad (w : Word) : Bool := q6Op w ≥ 2 || fieldW 59 56 w ≠ 0

/-- The value of a register, none where there is no such register or index (R230). -/
def State.fabricReg (s : State) (kind i1 i2 : Nat) : Option (BitVec 32) :=
  let f := s.fabric
  let g := s.group i1
  match kind with
  | 1 => if i1 < 288 && i2 = 0 then some g.lgctl else none
  | 2 => if i1 < 288 && i2 = 0 then some g.qthr else none
  | 3 => if i1 < 288 && i2 = 0 then some (BitVec.ofNat 32 g.depth) else none
  | 4 =>
    if i1 < 192 && i2 < 26 then
      let c := smGet 0 f.heat (32 * i1 + i2)
      some (BitVec.ofNat 32 (c.toNat + if c = 0xFFF then 4096 else 0))
    else none
  | 5 => if i1 < 192 && i2 < 26 then some (if s.litRing i1 i2 then (smGet 0 f.mpd (32 * i1 + i2)).zeroExtend 32 else 0) else none
  | 6 => if i1 < 192 && i2 < 24 then some (BitVec.ofNat 32 (s.ringOf i1 i2)) else none
  | 7 => if i1 < 288 && i2 = 0 then some g.linkerr else none
  | 8 => if i1 = 0 && i2 = 0 then some f.torus else none
  | _ => none

/-- The response of a command with a status (R231). -/
def q6Answer (w : Word) (status : Nat) (v : BitVec 32) : Word :=
  BitVec.ofNat 64 (status * 2 ^ 60 + fieldW 59 32 w * 2 ^ 32 + v.toNat)

/-- The q6 command of a context that is served next: the oldest that was pushed there, once its firing has none older from a context in which
it ran before (R231). -/
def State.nextQ6 (s : State) (tid : Nat) : Option Q6Cmd :=
  match s.fabric.q6.find? (·.tid = tid) with
  | some q => if s.fabric.q6.find? (·.firing = q.firing) = some q then some q else none
  | none => none

/-- A command is served: it leaves the port, and its answer goes to the firing that pushed it, wherever its thread is held; a command of a
firing that has ended has its effects alone (R162). -/
def State.q6Served (s : State) (q : Q6Cmd) (answer : Word) : State :=
  { s with fabric := { s.fabric with q6 := s.fabric.q6.erase q } }.giveThread q.firing fun t =>
    { t with held := t.held ++ [(⟨6, [answer]⟩ : Held)] }

/-- The next q6 command of a context, where a test accepts it, is answered, with the value that the register it names has after the command;
zero where it names none (R231). -/
def State.serveQ6 (s : State) (core ctx : Nat) (mine : Word → Bool) (f : State → Word → Nat × State) : State :=
  match s.nextQ6 (tidOf core ctx) with
  | some q =>
    let w := q.word
    if !mine w then s
    else
      let reg := fun (s : State) => s.fabricReg (q6Kind w) (q6I1 w) (q6I2 w)
      let (st, s) :=
        if q6Bad w then (3, s)
        else if (reg s).isNone then (1, s)
        else f s w
      s.q6Served q (q6Answer w st ((reg s).getD 0))
  | none => s

/-- A write of a kind. -/
def q6Write (kind : Nat) (w : Word) : Bool := !q6Bad w && q6Op w = 1 && q6Kind w = kind

/-- A write that no event of its own serves. -/
def q6Plain (w : Word) : Bool :=
  q6Bad w || (q6Op w = 1 && q6Kind w ≠ 1 && q6Kind w ≠ 4 && q6Kind w ≠ 6 && q6Kind w ≠ 8)

/-- FABRIC_REGISTER_READ (R230, R231). -/
def execFabricRegisterRead (core ctx : Nat) : State → Host.Outcome State Fault Refusal :=
  event fun s => s.serveQ6 core ctx (fun w => !q6Bad w && q6Op w = 0) fun s _ => (0, s)

/-- A write to QTHR or LINKERR; QDEP and MPD are read-only (R223, R225, R227). -/
def State.plainFabric (s : State) (w : Word) : State :=
  let n := q6I1 w
  let g := s.group n
  match q6Kind w with
  | 2 => s.setGroup n { g with qthr := BitVec.ofNat 32 ((q6Data w).toNat % 2 ^ 11) }
  | 7 => s.setGroup n { g with linkerr := put32 31 8 g.linkerr (field32 31 8 (q6Data w)) }
  | _ => s

/-- FABRIC_REGISTER_WRITE (R231, R232). -/
def execFabricRegisterWrite (core ctx : Nat) : State → Host.Outcome State Fault Refusal :=
  event fun s => s.serveQ6 core ctx q6Plain fun s w => (0, s.plainFabric w)

/-- LGCTL with a written value (R11, R224): RW fields take it, W1C fields clear. -/
def lgctlWritten (old v : BitVec 32) : BitVec 32 :=
  let w := put32 31 31 (put32 9 8 (put32 5 4 old (field32 5 4 v)) (field32 9 8 v)) (field32 31 31 v)
  let w := if v.getLsbD 30 then put32 30 30 w 0 else w
  if v.getLsbD 29 then put32 29 29 w 0 else w

/-- A write of a TGT below CUR to a group that is stable parks it (R226). -/
def State.parks (s : State) (w : Word) : Bool :=
  let c := (s.group (q6I1 w)).lgctl
  q6Write 1 w && (s.fabricReg 1 (q6I1 w) (q6I2 w)).isSome && lgTgt (q6Data w) ≠ 0 && lgMaxw (q6Data w) ≠ 0 && lgState c = 0 &&
    lgTgt (q6Data w) < lgCur c

/-- LGCTL_WRITE (R224, R226): the response holds the register before the flit boundary at which a park switches; a park that the replay
buffer has no room for waits for a later boundary. -/
def execLgctlWrite (core ctx : Nat) : State → Host.Outcome State Fault Refusal :=
  event fun s =>
    let after :=
      s.serveQ6 core ctx (q6Write 1) fun s w =>
        let v := q6Data w
        let n := q6I1 w
        if lgTgt v = 0 || lgMaxw v = 0 then (2, s)
        else
          let g := s.group n
          (0, (s.setGroup n { g with lgctl := lgctlWritten g.lgctl v, parking := s.parks w }).retarget n (lgTgt g.lgctl))
    match s.nextQ6 (tidOf core ctx) with
    | some q => if s.parks q.word then after.parkNow (q6I1 q.word) else after
    | none => after

/-- HEAT_WRITE (R227): the code of a powered ring applies at once. -/
def execHeatWrite (core ctx : Nat) : State → Host.Outcome State Fault Refusal :=
  event fun s =>
    s.serveQ6 core ctx (q6Write 4) fun s w =>
      let k := 32 * q6I1 w + q6I2 w
      let c := BitVec.ofNat 12 (q6Data w).toNat
      let f := s.fabric
      let f' := { f with heat := smPut f.heat k c }
      (0, { s with fabric := if s.litRing (q6I1 w) (q6I2 w) then { f' with applied := smPut f'.applied k c } else f' })

/-- RINGMAP_WRITE (R228): to an active lane it starts a ring move, for a receive fibre with the state of the group that `laneGroupOf` names
(log 38). -/
def execRingmapWrite (core ctx : Nat) : State → Host.Outcome State Fault Refusal :=
  event fun s =>
    s.serveQ6 core ctx (q6Write 6) fun s x =>
      let f := q6I1 x
      let w := q6I2 x
      let new := field32 4 0 (q6Data x)
      let n := laneGroupOf f w
      let old := s.ringOf f w
      let taken := (List.range 24).any fun u => u ≠ w && s.ringOf f u = new
      if new > 25 || taken || lgState (s.group n).lgctl ≠ 0 then (2, s)
      else
        let s' := { s with fabric := { s.fabric with ringmap := smPut s.fabric.ringmap (32 * f + w) new } }
        if s.litLane f w then
          let g := s.group n
          (0, (s'.setGroup n { g with lgctl := put32 25 24 g.lgctl 2, move := some (f, w, old, new) }).applyHeat f (w / 8))
        else (0, s')

/-- TORUSPOS_WRITE (R216): refused once a link has trained. -/
def execTorusposWrite (core ctx : Nat) : State → Host.Outcome State Fault Refusal :=
  event fun s =>
    s.serveQ6 core ctx (q6Write 8) fun s w =>
      if s.fabric.trained then (2, s)
      else (0, { s with fabric := { s.fabric with torus := BitVec.ofNat 32 ((q6Data w).toNat % 2 ^ 24) } })

end Sys2Proof.Machine
end

