-- ==== Sys2Proof/Machine/Placement.lean ====
section
/-!
DEFINITION. Placement of arcades and residency of teams (spec/27_launch.md R345, R346, R350), the end of firings, teams,
arcades and launches (spec/11_one_core.md R154, R175; R349), and the notification record with its interrupt (R349).
-/

namespace Sys2Proof.Machine

/-! ## Counts (R345) -/

/-- The arcades of a launch. -/
def arcadeCount (l : LaunchSpec) : Nat := 2 ^ sumNat (l.widths.take l.arcLv)

/-- T: the teams of an arcade. -/
def arcadeTeams (l : LaunchSpec) : Nat := 2 ^ teamBits l

/-- M: the clusters of an arcade. -/
def arcadeWidth (l : LaunchSpec) : Nat := min 16 ((arcadeTeams l + 15) / 16)

/-- The clusters of a placed arcade as module cluster numbers. -/
def Placed.modClusters (p : Placed) : List Nat := p.clusters.map (p.die * 64 + ·)

def Placed.members (p : Placed) : Nat := memberCount p.modClusters

/-- The member index of a core in a placed arcade. -/
def Placed.memberOf (p : Placed) (core : Nat) : Option Nat :=
  firstFrom (fun i => memberCore p.modClusters i = core) 0 p.members

/-- The number of member m's next team that has not been resident: m, m + n, m + 2n and so on (R345). -/
def Placed.nextTeam (p : Placed) (l : LaunchSpec) (m : Nat) : Option Nat :=
  let j := m + p.members * smGet 0 p.ks m
  if j < arcadeTeams l then some (p.arcade * arcadeTeams l + j) else none

/-- Every team of the arcade has been resident. -/
def Placed.dealt (p : Placed) (l : LaunchSpec) : Bool := (List.range p.members).all fun m => (p.nextTeam l m).isNone

/-- The arcade of a team of a launch. -/
def teamArcade (l : LaunchSpec) (no : Nat) : Nat := no / arcadeTeams l

/-! ## Arcade placement (R346) -/

/-- The clusters of a die that hold arcades of launches with SUPV = 0. -/
def State.busyClusters (s : State) (die : Nat) : List Nat :=
  s.launches.flatMap fun l => l.2.placed.flatMap fun p => if p.die = die && !l.2.spec.supv then p.clusters else []

/-- The clusters that the next arcade of a launch gets on a die, where it fits. -/
def State.fitting (s : State) (die : Nat) (l : Launch) : Option (List Nat) :=
  if l.spec.supv then some [63]
  else
    let busy := s.busyClusters die
    let free := ((List.range 63).filter fun c => !busy.contains c).take (arcadeWidth l.spec)
    if free.length = arcadeWidth l.spec then some free else none

/-- The launch that boot firmware placed. -/
def State.isBoot (s : State) (l : Launch) : Bool := s.supvId = some l.id

/-- The unit of a die may place an arcade of the launch. -/
def State.placeable (s : State) (die : Nat) (l : Launch) : Bool :=
  l.phase = .live && !s.isBoot l && (l.spec.dies = 0 || l.spec.dies.testBit die) &&
    (l.swept ≠ [] || l.next < arcadeCount l.spec)

/-- The microseconds of waiting for clusters after which a launch goes first. -/
def longWait : Nat := 1000

/-- The launches that a die's unit tries, in order: those of the highest priority, served round-robin, or the one of them
that has waited longest, where it has waited 1,000 µs. -/
def State.placeOrder (s : State) (die : Nat) : List Launch :=
  let all := (s.launches.map (·.2)).filter (s.placeable die)
  let top := all.foldl (fun m l => max m l.spec.prio) 0
  let lv := all.filter (·.spec.prio = top)
  let late := lv.filter fun l =>
    match l.since with
    | some t => s.clock ≥ t + longWait * 1000
    | none => false
  match late with
  | e :: t => [t.foldl (fun a b => if b.since.getD 0 < a.since.getD 0 then b else a) e]
  | [] =>
    let last := (s.die die).lastLaunch
    lv.filter (fun l => l.id > last) ++ lv.filter (fun l => l.id ≤ last)

/-- The window number of an arcade placed for the first time (R186, log 7): its first cluster, or on a port cluster, and where an arcade
that has moved since keeps that number, the lowest from 64 on that no arcade has. -/
def State.windowFor (s : State) (die : Nat) (clusters : List Nat) : Nat :=
  let c := clusters.headD 0
  let used := s.launches.flatMap fun l => ((l.2.placed ++ l.2.swept).filter (·.wdie = die)).map (·.window)
  if c ≠ 63 && !used.contains c then c else (firstFrom (fun w => !used.contains w) 64 (used.length + 1)).getD 64

/-- An arcade is placed: its number is the lowest swept one, which keeps its window (log 7), else the lowest unplaced one; the caches of its clusters are
emptied, loop bodies that no context repeats leave the buffer (R183), and the registers kept for its contexts take their first values
(R346, R348). -/
def State.placeArcade (s : State) (die : Nat) (l : Launch) (clusters : List Nat) : State :=
  let (p, l) : Placed × Launch :=
    match l.swept with
    | q :: t => ({ q with die := die, clusters := clusters }, { l with swept := t })
    | [] => (⟨l.next, die, clusters, s.windowFor die clusters, [], die⟩, { l with next := l.next + 1 })
  let cl := p.modClusters
  let l :=
    { l with
      placed := l.placed ++ [p], since := none, began := some (l.began.getD s.clock)
      regs := l.regs.filter fun r => !cl.contains (r.1 / 128) }
  let d := s.die die
  let s := (s.setLaunch l).setDie die { d with lastLaunch := l.id }
  { s with
    icache := cl.foldl smDel s.icache
    loops := cl.foldl (fun m k => smPut m k (s.pinned k)) s.loops
    ncache := cl.foldl smDel s.ncache }

/-- The first launch of an order whose next arcade fits is placed; those before it wait for clusters from now on. -/
def State.placeFirst (s : State) (die : Nat) : List Launch → State
  | [] => s
  | l :: t =>
    match s.fitting die l with
    | some cl => s.placeArcade die l cl
    | none => (s.setLaunch { l with since := some (l.since.getD s.clock) }).placeFirst die t

/-- ARCADE_PLACEMENT (R346). -/
def execArcadePlacement (die : Nat) : State → Host.Outcome State Fault Refusal :=
  event fun s => if die < 4 then s.placeFirst die (s.placeOrder die) else s

/-! ## Save areas (R350, R352) -/

/-- The records of a save area (R348). -/
def saveRecords (l : LaunchSpec) : Nat := 8 * (l.savrec + 1)

/-- The frames of a save area. -/
def saveFrames (l : LaunchSpec) : Nat := (16384 + 4352 * l.tiles + 4096 * saveRecords l + 65535) / 65536

/-- COUNT and BASE of SAVPOOL. -/
def poolCount (w : Word) : Nat := fieldW 63 32 w
def poolBase (w : Word) : Nat := fieldW 31 0 w

/-- The lowest run of n free frames of a die's save pool. -/
def Die.saveRun (d : Die) (n : Nat) : Option Nat :=
  (setIns 0 (d.savUsed.map (· + 1))).find? fun b =>
    b + n ≤ poolCount d.savpool && !d.savUsed.any fun f => b ≤ f && f < b + n

/-- A save area for a team of a launch on a die: the area and the die with its frames given out. -/
def Die.giveArea (d : Die) (l : LaunchSpec) : Option (SaveArea × Die) :=
  (d.saveRun (saveFrames l)).map fun b =>
    (⟨(poolBase d.savpool + b) * 65536, saveFrames l, saveRecords l, []⟩,
     { d with savUsed := (List.range (saveFrames l)).foldl (fun u i => setIns (b + i) u) d.savUsed })

/-- A save area goes back to the pool of the die whose memory holds it. -/
def State.returnArea (s : State) (a : SaveArea) : State :=
  if a.frames = 0 then s
  else
    let n := a.base / 2 ^ 38
    let d := s.die n
    let b := a.base / 65536 - poolBase d.savpool
    s.setDie n { d with savUsed := d.savUsed.filter fun f => !(b ≤ f && f < b + a.frames) }

/-! ## Residency (R346, R351) -/

/-- A team held in its save area whose place is a member of a placed arcade. -/
def State.sweptFor (s : State) (l : Launch) (p : Placed) (m : Nat) : Option SweptTeam :=
  (s.swept.filter fun w =>
      w.team.launch = l.id && teamArcade l.spec w.team.no = p.arcade && w.team.no % arcadeTeams l.spec % p.members = m).foldl
    (fun a w =>
      match a with
      | some v => if w.team.no < v.team.no then some w else a
      | none => some w) none

/-- The physical tiles of a core that no team owns. -/
def State.freeTiles (s : State) (core : Nat) : List Nat :=
  let owned := (s.teamsOn core).flatMap (·.tiles)
  (List.range 16).filter fun t => !owned.contains t

/-- The lowest free residency slot of a core. -/
def State.freeSlot (s : State) (core : Nat) : Option Nat :=
  let used := (s.teamsOn core).map (·.slot)
  firstFrom (fun k => !used.contains k) 0 8

/-- Every team resident on the core has the launch's S. -/
def State.sameSpill (s : State) (core : Nat) (l : LaunchSpec) : Bool :=
  core % 1024 / 16 = 63 || (s.teamsOn core).all fun t => (s.spec t.launch).spill = l.spill

/-- An engine command's origin moved to another core. -/
def Origin.moveTo (o : Origin) (core : Nat) : Origin := { o with core := core, tid := tidOf core (o.tid % 8) }

/-- A kept epilogue with its origin moved. -/
def Tile.moveTo (t : Tile) (core : Nat) : Tile :=
  { t with kept := t.kept.map fun k => (k.1.map fun c => { c with org := c.org.moveTo core }, k.2) }

/-- The status of a restored tile: FLT := HELD (R274). -/
def restoredStatus (w : Word) : Word := putField 2 2 w (if bitW 4 w then 1 else 0)

/-- A fresh team becomes resident: its items, and barriers, ports and tiles as placement leaves them (R154, R170, R254). -/
def State.freshTeam (s : State) (l : Launch) (no core slot : Nat) (tiles : List Nat) (area : SaveArea) : State :=
  let t : Team :=
    { launch := l.id, no := no, core := core, slot := slot, next := 0, items := teamItems l.spec, counts := [], ports := [],
      lh := [], lhBusy := [], bars := [], tiles := tiles, area := area }
  let s := tiles.foldl (fun s k => s.setTile core k Tile.clear) s
  let s := s.setTeam t
  s.setQueue core (s.queue core ++ [⟨l.spec.prio, .items t.key⟩])

/-- The first capability of a copy that fails step 4 of R280 over the bytes from `from_` on: the SIDE of R284, its object and its offset. -/
def copyFault (d c k : Cap) (from_ len : Nat) : Option (Nat × Nat × Nat) :=
  let bad := fun (c : Cap) (need off n align : Nat) => (capCheck c need off n align).isSome
  if bad d rW (capOff d + from_) len 1 then some (1, capObj d, capOff d + from_)
  else if bad c rR (capOff c + from_) len 1 then some (0, capObj c, capOff c + from_)
  else if k.tag && (bad k (rR + rW + rA) (capOff k) 16 8 || !(capFmt k = 0 || capFmt k = 4)) then some (3, capObj k, capOff k)
  else none

/-- A saved copy goes on as by CRESUME, without RES (R286): its block's capabilities are read and checked again, and SUSP is cleared. One
that fails stays suspended, with a record of CAUSE 0x06 for a failed check (log 69). -/
def State.resumeSaved (s : State) (x : Xfer) : State :=
  let s := { s.dropXfer x.id with xfers := (s.dropXfer x.id).xfers ++ [x] }
  match s.blockHead (s.accOf x.org) x.blk 48 with
  | (.error (k, off), s) => s.suspend x false k 0 (capObj x.blk) off
  | (.ok b, s) =>
    let from_ := min x.n (4096 * x.reported)
    match copyFault (blockCap b 0) (blockCap b 1) (blockCap b 2) from_ (x.n - from_) with
    | some (side, obj, off) => s.suspend x false 0x06 side obj off
    | none => s.requeue { x with phase := .queued, dst := blockCap b 0, src := blockCap b 1, ctr := blockCap b 2, landed := [] }

/-- A swept team becomes resident again (R274, R286, R309, R351): its tiles, queued tasks, markers, copies and traversal
commands return, and its saved contexts wait for free contexts of the core. -/
def State.returnTeam (s : State) (w : SweptTeam) (core slot : Nat) (tiles : List Nat) : State :=
  let t := { w.team with core := core, slot := slot, tiles := tiles }
  let s := { s with swept := s.swept.filter fun v => v.team.key ≠ t.key }
  let s :=
    (tiles.zip w.tiles).foldl
      (fun s p => s.setTile core p.1 ({ p.2.2 with status := restoredStatus p.2.2.status }.moveTo core)) s
  let s := s.setTeam t
  let s := s.setQueue core (s.queue core ++ w.tasks)
  let u := s.matrixOf core
  let s := s.setMatrix core { u with markers := u.markers ++ w.marks.map fun m => { m with org := m.org.moveTo core } }
  let s :=
    { s with
      xfers := s.xfers ++ w.xfers.map fun (x : Xfer) =>
        { x with org := x.org.moveTo core, phase := if x.phase = XPhase.running then XPhase.queued else x.phase }
      travs := s.travs ++ w.travs.map fun (c : TCmd) => { c with org := c.org.moveTo core }
      saved := s.saved.map fun (v : Saved) => if v.team = t.key && v.how ≠ SavedBy.ctxsv then { v with ready := true } else v
      wqueues := s.wqueues.map fun (q : WQueue) =>
        if q.launch = t.launch && q.team = t.no then { q with core := core } else q }
  w.copies.foldl (fun s x => s.resumeSaved { x with org := x.org.moveTo core }) (s.streamStart core 16)

/-- A launch's arcade with member m's count raised. -/
def Launch.deal (l : Launch) (p : Placed) (m : Nat) : Launch :=
  { l with
    placed := l.placed.map fun q => if q.arcade = p.arcade then { q with ks := smPut q.ks m (smGet 0 q.ks m + 1) } else q }

/-- The next team of a placed arcade becomes resident on a core, where R346 lets it; none where it may not. -/
def State.settleIn (s : State) (l : Launch) (p : Placed) (core : Nat) : Option State :=
  match p.memberOf core, s.freeSlot core with
  | some m, some slot =>
    let free := s.freeTiles core
    if l.spec.tiles > free.length || !s.sameSpill core l.spec then none
    else
      let tiles := free.take l.spec.tiles
      match s.sweptFor l p m with
      | some w => some (s.returnTeam w core slot tiles)
      | none =>
        match p.nextTeam l.spec m with
        | none => none
        | some no =>
          match (s.die (coreDie core)).giveArea l.spec with
          | some (a, d) => some (((s.setLaunch (l.deal p m)).setDie (coreDie core) d).freshTeam l no core slot tiles a)
          | none => none
  | _, _ => none

/-- The arcades placed over a core whose launches still make teams resident. -/
def State.arcadesAt (s : State) (core : Nat) : List (Launch × Placed) :=
  s.launches.flatMap fun l =>
    if l.2.phase = .live then (l.2.placed.filter fun p => (p.memberOf core).isSome).map fun p => (l.2, p) else []

/-- TEAM_RESIDENCY (R346): the next team of an arcade over a core becomes resident. -/
def execTeamResidency (core : Nat) : State → Host.Outcome State Fault Refusal :=
  event fun s => ((s.arcadesAt core).findSome? fun x => s.settleIn x.1 x.2 core).getD s

/-! ## The end of a firing (R175, R312, R337) -/

/-- The stores of the firing have been performed; for a record firing, what it pushed has been applied (R337). -/
def State.mayRetire (s : State) (f : Firing) : Bool :=
  !s.threads.any (fun t => t.2.stores.any (·.firing = f.id)) &&
    (f.record.isNone ||
      !s.xfers.any fun x =>
        x.org.firing = f.id && (x.kind = .arith || x.kind = .send || x.kind = .sig || x.kind = .sendx))

/-- FIRING_RETIRE (R175, R312, R349): an ended firing retires; an item counts in ITEMS, and a record leaves WORK, unless an element that
it pushed was never applied (R337). -/
def execFiringRetire (firing : Nat) : State → Host.Outcome State Fault Refusal :=
  event fun s =>
    match s.ended.find? (·.id = firing) with
    | none => s
    | some f =>
      if !s.mayRetire f then s
      else
        let whole := !s.torn.contains firing
        let s := { s with ended := s.ended.filter (·.id ≠ firing), torn := s.torn.filter (· ≠ firing) }
        let s :=
          match f.kind, s.launch? f.launch with
          | 0, some l => s.setLaunch { l with items := l.items + 1 }
          | _, _ => s
        match f.record with
        | some (q, _) => if whole then s.wqWork q 1 else s
        | none => s

/-! ## Notification (R349) -/

/-- An interrupt leaves on a vector of the host port. -/
def State.interrupt (s : State) (vec : Nat) : State :=
  { s with host := { s.host with irqs := s.host.irqs ++ [vec], vecs := smPut s.host.vecs vec ⟨s.clock, 0, false⟩ } }

/-- The interrupt of a record: sent at once, or held to the end of the window. -/
def State.notifyHost (s : State) (vec window : Nat) : State :=
  match smFind s.host.vecs vec with
  | none => s.interrupt vec
  | some v =>
    if s.clock ≥ v.sent + window * 1000 then s.interrupt vec
    else
      let w := if v.held then min v.window window else window
      { s with host := { s.host with vecs := smPut s.host.vecs vec { v with window := w, held := true } } }

/-- The record of a launch: words 0 to 5, then the last two, then the interrupt. A line that meets a fault gets no record, and none is
counted in SEQ (log 67). -/
def State.record (s : State) (notify : Cap) (id status detail items swept traps dropped start vec window : Nat) : State :=
  let seq := s.host.seq + 1
  let c : Acc := { core := portCore 0, launch := id, win := (0, 0) }
  let head :=
    leBytes 2 id ++ leBytes 1 status ++ leBytes 1 0 ++ leBytes 4 detail ++ leBytes 8 items ++ leBytes 8 swept ++
      leBytes 4 traps ++ leBytes 4 dropped ++ leBytes 8 start ++ leBytes 8 s.clock
  match s.engWrite c (capObj notify) (capOff notify) head with
  | (.error _, s) => s
  | (.ok _, s) =>
    let s := (s.engWrite c (capObj notify) (capOff notify + 48) (leBytes 8 seq ++ leBytes 8 0)).2
    { s with host := { s.host with seq := seq } }.notifyHost vec window

/-- The record of a launch as it stands. -/
def State.notification (s : State) (l : Launch) (status : Nat) : State :=
  s.record l.spec.notify l.id status 0 l.items (s.swept.filter (·.team.launch = l.id)).length l.traps l.dropped l.start
    l.spec.vec l.spec.window

/-- INTERRUPT_WINDOW_EXPIRY (R349): the window of a held interrupt ends, and one interrupt covers the records since. -/
def execInterruptWindowExpiry (vec : Nat) : State → Host.Outcome State Fault Refusal :=
  event fun s =>
    match smFind s.host.vecs vec with
    | some v => if v.held then { s with clock := max s.clock (v.sent + v.window * 1000) }.interrupt vec else s
    | none => s

/-! ## What follows of itself (R154, R156, R349, R351) -/

def Firing.ofTeam (f : Firing) (t : Team) : Bool := f.launch = t.launch && f.team = t.no

def Origin.ofTeam (o : Origin) (t : Team) : Bool := o.launch = t.launch && o.team = t.no

/-- The team's place in a queue, or one of its tasks. -/
def QEntry.ofTeam (e : QEntry) (t : Team) : Bool :=
  match e.item with
  | .task k => k.launch = t.launch && k.team = t.no
  | .items key => key = t.key

/-- An engine command of the team is outstanding. -/
def State.engaged (s : State) (t : Team) : Bool :=
  let u := s.matrixOf t.core
  u.queue.any (·.org.ofTeam t) || (u.running.map (·.cmd.org.ofTeam t)).getD false || u.markers.any (·.org.ofTeam t) ||
    u.tiles.any (fun x => (x.2.kept.map fun k => k.1.any (·.org.ofTeam t)).getD false) || s.xfers.any (·.org.ofTeam t) ||
    s.travs.any (·.org.ofTeam t)

/-- A note names the team. -/
def Note.ofTeam (n : Note) (t : Team) : Bool := n.launch = some t.launch && n.team = t.no

/-- The team's end has come (R154, R312). -/
def State.teamOver (s : State) (t : Team) : Bool :=
  t.next ≥ t.items && !(s.queue t.core).any (·.ofTeam t) &&
    !s.threads.any (fun x => (x.2.firing.map (·.ofTeam t)).getD false) &&
    !s.saved.any (fun v => (v.thread.firing.map (·.ofTeam t)).getD false) && !s.engaged t && !s.notes.any (·.ofTeam t) &&
    !s.wqueues.any fun q => q.launch = t.launch && q.team = t.no && q.work > 0

/-- A team ends (R154, R312): its resources are free, and its queues are unbound; a record of a failed image goes as one that names a
team that has ended (R356, R374). -/
def State.endTeam (s : State) (t : Team) : State :=
  let s := { s with teams := smDel s.teams t.key }
  ((s.wqueues.filter fun q => q.launch = t.launch && q.team = t.no).foldl (fun s q => s.unbind q) s).returnArea t.area

/-- Resident teams of an arcade. -/
def State.arcadeLive (s : State) (l : Launch) (p : Placed) : Bool :=
  s.teams.any fun t => t.2.launch = l.id && teamArcade l.spec t.2.no = p.arcade

/-- Teams of an arcade in save areas. -/
def State.arcadeSwept (s : State) (l : Launch) (p : Placed) : Bool :=
  s.swept.any fun w => w.team.launch = l.id && teamArcade l.spec w.team.no = p.arcade

/-- Insertion by arcade number. -/
def putPlaced (p : Placed) : List Placed → List Placed
  | [] => [p]
  | q :: t => if p.arcade < q.arcade then p :: q :: t else q :: putPlaced p t

/-- Arcades whose teams have all ended free their clusters, and so do those of a closing launch with no resident team
(R346, R351). -/
def State.endArcades (s : State) (l : Launch) : Launch :=
  l.placed.foldl
    (fun l p =>
      if s.arcadeLive l p then l
      else if p.dealt l.spec && !s.arcadeSwept l p then { l with placed := l.placed.filter (·.arcade ≠ p.arcade) }
      else if l.phase = .closing then
        { l with placed := l.placed.filter (·.arcade ≠ p.arcade), swept := putPlaced p l.swept }
      else l) l

/-- A launch is gone, with its sources' turns at banks: the next launch with its identifier expects SEQ 0 (R207). -/
def State.dropLaunch (s : State) (id : Nat) : State :=
  { s with launches := smDel s.launches id, turns := s.turns.filter fun t => t.1 / 2 ^ 52 ≠ id }

/-- A launch ends with STATUS 0, or a closing one with no resident team is recorded with STATUS 1 (R349, R351). -/
def State.settleLaunch (s : State) (l : Launch) : State :=
  let l := s.endArcades l
  let s := s.setLaunch l
  if l.phase = .swept || l.placed ≠ [] || s.ended.any (·.launch = l.id) then s
  else if l.swept = [] && l.next ≥ arcadeCount l.spec then
    (s.notification l 0).dropLaunch l.id
  else if l.phase = .closing then (s.setLaunch { l with phase := .swept, timers := [] }).notification l 1
  else s

/-- Notes that wait are sent where there is room, in their order (R155). -/
def State.sendNotes (s : State) : State := s.notes.foldl (fun s n => s.post n) { s with notes := [] }

/-- What a team's ports let it queue (R156, R167). -/
def State.teamTasks (s : State) (t : Team) : State :=
  (t.lh.foldl (fun s p => s.lightTasks t.key p.1 32) s).stageTasks t.key

end Sys2Proof.Machine
end

