-- ==== Sys2Proof/Machine/Closing.lean ====
section
/-!
DEFINITION. Closing, sweep, resume and cancel of launches (spec/27_launch.md R350, R351, with spec/19_matrix.md R274,
spec/21_streamer.md R286 and spec/23_traversal.md R309), CLOSE, and the saving and loading of contexts by CTXSV and CTXLD
(R358).
-/

namespace Sys2Proof.Machine

/-! ## Engine commands of a team that is swept -/

/-- Steps enough to run a matrix command. -/
def MCmd.steps (c : MCmd) : Nat :=
  match c.body with
  | .mma _ _ _ _ _ _ len _ => len / 16 + 3
  | .plane _ _ _ _ _ _ => 1
  | .epi _ _ _ => 1
  | .replay _ _ => 1
  | .zero _ _ => 1
  | .release _ _ => 1
  | .marker _ => 1

/-- The running command's chunk waits for its tokens, a refill at the draw last measured, and runs (R261). -/
def State.finishChunk (s : State) (core : Nat) (r : MRun) : State :=
  let s := if s.tokensOf core < r.cost then s.refill (pwrDraw s.pwrbud) else s
  (s.drawTokens core r).runChunk core r

/-- The matrix unit runs until no command of the team is queued or running (R274 step 1). -/
def State.finishMatrix (s : State) (t : Team) : Nat → State
  | 0 => s
  | f + 1 =>
    let u := s.matrixOf t.core
    match u.running with
    | some r =>
      if r.cmd.org.ofTeam t || u.queue.any (·.org.ofTeam t) then (s.finishChunk t.core r).finishMatrix t f else s
    | none => if u.queue.any (·.org.ofTeam t) then (s.sequence t.core).finishMatrix t f else s

/-- Steps enough for everything that a core's matrix unit holds. -/
def MUnit.steps (u : MUnit) : Nat := sumNat (u.queue.map (·.steps)) + ((u.running.map (·.cmd.steps)).getD 0)

/-- A unit lands with the packet that carries it: its own, or the one that a router has combined it into (R208). -/
def State.landWhole (s : State) (id u : Nat) : State :=
  match s.xfers.find? fun z => z.merged.contains (u, id) with
  | some z => s.landUnit z.id u
  | none => s.landUnit id u

/-- A running transfer moves every unit that may move. -/
def State.moveAll (s : State) (id : Nat) : State :=
  match s.xfer? id with
  | none => s
  | some x => (List.range (s.units x)).foldl (fun s u => s.landWhole id u) s

/-- A packet that waits in a reorder table is applied out of order, as where the table is full (R207, log 80). -/
def State.forceTurn (s : State) (r : Reorder) : State :=
  if !s.reorder.contains r then s
  else
    let s := { s with reorder := s.reorder.erase r }
    match s.xfer? r.xfer with
    | none => s
    | some x =>
      let y := { x with reord := true }
      let s := { s with turns := smPut s.turns (turnKey x r.bank) ((x.seq + 1) % 2 ^ 16) }
      ((s.putXfer y).applyPacket y r.unit).releaseTurns r.bank 65

/-- The cores whose streamers and engines hold commands of a team: its own, and those to which its threads were shipped. -/
def State.coresOf (s : State) (t : Team) : List Nat := (t.core :: (s.xfers.filter (·.org.ofTeam t)).map (·.org.core)).eraseDups

/-- A running copy makes its next report, or its counter step once all is reported (R281, R286). -/
def State.advanceCopy (s : State) (x : Xfer) : State := if x.reported < s.units x then s.landChunk x x.reported else s.stepCopy x

/-- A copy runs until it completes or is suspended. -/
def State.runCopy (s : State) (id : Nat) : Nat → State
  | 0 => s
  | f + 1 =>
    match s.xfer? id with
    | some x => if x.phase = .running then (s.advanceCopy x).runCopy id f else s
    | none => s

/-- A command of a core's streamer runs: a copy to its end, another one as far as its units may move. -/
def State.runXfer (s : State) (id : Nat) : State :=
  match s.xfer? id with
  | some y =>
    let s := s.putXfer { y with phase := .running }
    if y.kind = .copy then s.runCopy id (s.units y + 1) else s.moveAll id
  | none => s

/-- The commands of a team other than markers and cuts run until they complete or stop (R286; the copies that the sweep suspends have left):
those still queued among them, and so do the transfers of their cores' streamers, behind which one of the team may stand (R205). A packet of the
team in ordered mode whose turn none of them brings is applied without it. -/
def State.finishTransfers (s : State) (t : Team) : State :=
  let cores := s.coresOf t
  let l :=
    s.xfers.filter fun x =>
      cores.contains x.org.core && (x.phase = .running || x.phase = .queued) && (x.kind ≠ .copy || x.org.ofTeam t) &&
        x.kind ≠ .marker && x.kind ≠ .cut
  let s := l.foldl (fun s x => s.runXfer x.id) s
  let mine := s.reorder.filter fun r => ((s.xfer? r.xfer).map (·.org.ofTeam t)).getD false
  let s := mine.foldl (fun s r => s.forceTurn r) s
  (l.filter (·.kind ≠ .copy)).foldl (fun s x => (s.moveAll x.id).completeXfer x.id) s

/-- The running copies of a team. -/
def State.copiesOf (s : State) (t : Team) : List Xfer :=
  s.xfers.filter fun x => x.org.ofTeam t && x.kind = .copy && x.phase = .running

/-- The running copies of a team go on to their next report, and suspend there without a record and leave the streamer (R283, R286); one that
meets a fault first is suspended by it, and one that has no report left completes. The copies that suspend so, and the state after. A
cut whose bundle waits for its start leaves with it. -/
def State.suspendCopies (s : State) (t : Team) : List Xfer × State :=
  let s := { s with xfers := s.xfers.filter fun (x : Xfer) => !(x.org.ofTeam t && decide (x.kind = XKind.cut)) }
  let cores := s.coresOf t
  let run := s.copiesOf t
  let s := run.foldl (fun s x => ((s.xfer? x.id).map s.advanceCopy).getD s) s
  let l := run.filterMap fun x => (s.xfer? x.id).filter fun (y : Xfer) => decide (y.phase = .running)
  let s := l.foldl (fun s x => (s.dropXfer x.id).markBlock x true) s
  (l, cores.foldl (fun s k => s.streamStart k 16) s)

/-- A running descent stops at a pair boundary without a result (R308, R309); where the block cannot be written, the command ends with
STATUS 4 (R299). -/
def State.pauseDescent (s : State) (c : TCmd) : State :=
  match c.body, c.run with
  | .dtrav blk, some d =>
    let st := leBytes 8 (dState true false d.stack.length d.emit)
    match s.engWrite (s.unitAcc c.org) (capObj blk) (capOff blk + 56) (st ++ stackBytes d.stack) with
    | (.ok _, s) => (s.wqWork d.queue 1).putTcmd { c with running := false, run := none, poison := d.poison }
    | (.error (k, off), s) => (s.wqWork d.queue 1).travFault c 15 blk k 3 (capObj blk) off 0 d.emitted d.poison
  | _, _ => s

/-! ## Contexts of a team that is swept -/

/-- A context of the team is saved to its save area; a travelling thread's record goes straight there (R243). -/
def State.sweepContext (s : State) (tid : Nat) : State :=
  let s :=
    match (s.thread tid).status with
    | .travelling at_ => s.bringHome tid at_ (.travelling at_)
    | .travelQueued => { s with shipq := s.shipq.map fun (q : Nat × List Nat) => (q.1, q.2.filter (· ≠ tid)) }
    | .travelAbroad _ _ => s
    | .free => s
    | .running => s
    | .parked _ => s
  (s.saveToArea .sweep tid 0).getD s

/-! ## Tiles of a team that is swept (R274, R350) -/

/-- The 4,096 bytes of a tile's elements, in row-major order. -/
def Tile.image (t : Tile) : List Byte := (List.range 1024).flatMap fun i => leBytes 4 (smGet 0 t.elems i).toNat

/-- A tile is written to its place in the save area: status, kept epilogue, whose layout is device-defined, zeros, and the
image where it is valid and has changed. -/
def State.saveTile (s : State) (core at_ : Nat) (t : Tile) : Tile × State :=
  let w := stSet 2 false t.status
  let dirty := stValid w && bitW 1 w
  let w' := if dirty then stSet 1 false w else w
  let (k, s) := s.freeBytes 56
  let s := s.homeWrite core at_ (leBytes 8 w'.toNat ++ k ++ leBytes 192 0)
  let s := if dirty then s.homeWrite core (at_ + 256) t.image else s
  ({ t with status := w' }, s)

/-- The tiles of a team are saved, and the unit holds them no more. -/
def State.saveTiles (s : State) (t : Team) : List (Nat × Tile) × State :=
  t.tiles.zipIdx.foldl
    (fun a p =>
      let s := a.2.settleTile t.core p.1
      let (x, s) := s.saveTile t.core (t.area.base + 16384 + 4352 * p.2) (s.tile t.core p.1)
      (a.1 ++ [(p.2, x)], s.setTile t.core p.1 Tile.clear)) ([], s)

/-! ## Sweep (R351) -/

/-- The contexts of a core that hold firings of the team, shipped ones among them by their home. -/
def State.contextsOf (s : State) (t : Team) : List Nat :=
  (List.range 8).filterMap fun k =>
    let th := s.thread (tidOf t.core k)
    match th.firing with
    | some f => if f.ofTeam t && f.home.isNone then some (tidOf t.core k) else none
    | none => none

/-- A resident team is swept: its engine commands end or pause, and its contexts, tiles, ports, barriers, tasks and light
handlers are held in its save area, whose team block is device-defined. -/
def State.sweepTeam (s : State) (key : Nat) : State :=
  match smFind s.teams key with
  | none => s
  | some t =>
    let s := s.finishMatrix t (s.matrixOf t.core).steps
    let (l, s) := s.suspendCopies t
    let copies := l.map fun x => { x with phase := .queued, landed := [] }
    let s := s.finishTransfers t
    let s := (s.travs.filter fun c => c.org.ofTeam t && c.run.isSome).foldl (fun s c => s.pauseDescent c) s
    let s := (s.contextsOf t).foldl (fun s k => s.sweepContext k) s
    let (tiles, s) := s.saveTiles t
    let (blk, s) := s.freeBytes 16384
    let s := s.homeWrite t.core t.area.base blk
    let u := s.matrixOf t.core
    let w : SweptTeam :=
      { team := (smFind s.teams key).getD t
        tiles := tiles
        tasks := (s.queue t.core).filter (·.ofTeam t)
        xfers := s.xfers.filter (·.org.ofTeam t)
        copies := copies
        travs := s.travs.filter (·.org.ofTeam t)
        marks := u.markers.filter (·.org.ofTeam t) }
    let s := s.setMatrix t.core { u with markers := u.markers.filter fun m => !m.org.ofTeam t }
    let s := s.setQueue t.core ((s.queue t.core).filter fun e => !e.ofTeam t)
    { s with
      teams := smDel s.teams key
      swept := s.swept ++ [w]
      xfers := s.xfers.filter fun x => !x.org.ofTeam t
      travs := s.travs.filter fun c => !c.org.ofTeam t }

/-- Every resident team of a launch on a die is swept. -/
def State.sweepDie (s : State) (launch die : Nat) : State :=
  (s.teams.filter fun t => t.2.launch = launch && coreDie t.2.core = die).foldl (fun s t => s.sweepTeam t.1) s

/-- The state of a swept team is discarded, with its save area and its queues. -/
def State.discardTeam (s : State) (w : SweptTeam) : State :=
  let t := w.team
  let s := (s.wqueues.filter fun q => q.launch = t.launch && q.team = t.no).foldl (fun s q => s.unbind q) s
  ({ s with
     swept := s.swept.filter fun v => v.team.key ≠ t.key
     saved := s.saved.filter fun v => v.team ≠ t.key }).returnArea t.area

/-! ## CLOSE (R351, R358) -/

/-- TIME of CLOSECTL on a die. -/
def State.closeTime (s : State) (die : Nat) : Nat := fieldW 31 0 (s.die die).closectl

/-- Operation 0: the launch starts closing, with a timer on each die; a time of 0 sweeps at once. -/
def State.closeLaunch (s : State) (l : Launch) : State :=
  let timed := (List.range 4).filter fun d => s.closeTime d ≠ 0
  let s := s.setLaunch { l with phase := .closing, timers := timed, since := none }
  (List.range 4).foldl (fun s d => if timed.contains d then s else s.sweepDie l.id d) s

/-- Operation 1: the launch is placed again. -/
def State.resumeLaunch (s : State) (l : Launch) : State := s.setLaunch { l with phase := .live }

/-- Operation 2: every resident team is swept at once, all saved state is discarded, and the launch is recorded with
STATUS 2. -/
def State.cancelLaunch (s : State) (l : Launch) : State :=
  let s := (List.range 4).foldl (fun s d => s.sweepDie l.id d) s
  let s := (s.swept.filter (·.team.launch = l.id)).foldl (fun s w => s.discardTeam w) s
  let l := (s.launch? l.id).getD l
  (s.notification l 2).dropLaunch l.id

/-- The answer of CLOSE: 0 accepted, 1 no such launch, 2 not in a state for the operation. A live launch may be closed, a
swept one resumed, and any cancelled. -/
def closeAnswer (op : Nat) : Option Launch → Nat
  | none => 1
  | some l => if op = 0 then (if l.phase = .live then 0 else 2) else if op = 1 then (if l.phase = .swept then 0 else 2) else 0

/-- The effect of an accepted operation. -/
def State.closeOp (s : State) (op : Nat) (l : Launch) : State :=
  if op = 0 then s.closeLaunch l else if op = 1 then s.resumeLaunch l else s.cancelLaunch l

/-- The TVAL of trap 0x01 where a register of a supervisor instruction has a must-be-zero bit set (R358). -/
def mustBeZero (bad : Bool) : M Unit := do
  let s ← get
  if bad then trap 0x01 (s.cur.bad 3) else pure ()

/-- CLOSE with its operation: ga names the launch and receives the answer, and the operation follows the bundle. -/
def closing (d : GReg) (op : Nat) : M Unit := do
  let t ← getTh
  let w := t.rg d
  mustBeZero (fieldW 63 16 w ≠ 0)
  let s ← get
  let l := s.launch? (fieldW 15 0 w)
  writeI (.g d (BitVec.ofNat 64 (closeAnswer op l)))
  advance
  match l with
  | some l => if closeAnswer op (some l) = 0 then modify (·.closeOp op l) else pure ()
  | none => pure ()

/-- CLOSE (R358). -/
def execClose (d op : GReg) : State → Host.Outcome State Fault Refusal :=
  run do
    lawful (·.supIllegal)
    let t ← getTh
    mustBeZero (fieldW 63 16 (t.rg d) ≠ 0)
    if (t.rg op).toNat ≥ 3 then trapWhole 0x05 (t.rg op) else closing d (t.rg op).toNat

/-- CLOSE with operation 1. -/
def execCloseResume (d : GReg) : State → Host.Outcome State Fault Refusal :=
  run do
    lawful (·.supIllegal)
    closing d 1

/-- CLOSE with operation 2. -/
def execCloseCancel (d : GReg) : State → Host.Outcome State Fault Refusal :=
  run do
    lawful (·.supIllegal)
    closing d 2

/-- CLOSE_TIMER_EXPIRY (R351): a die's timer of a closing launch ends, and the die sweeps. -/
def execCloseTimerExpiry (die : Nat) (id : Nat) : State → Host.Outcome State Fault Refusal :=
  event fun s =>
    match s.launch? id with
    | some l =>
      if l.phase = .closing && l.timers.contains die then
        (s.setLaunch { l with timers := l.timers.filter (· ≠ die) }).sweepDie id die
      else s
    | none => s

/-! ## CTXSV and CTXLD (R358) -/

/-- Every page of a range of a capability can be reached for an access. -/
def reachAll (w : Src) (c : Cap) (perm off : Nat) : Nat → Nat → M Unit
  | 0, _ => pure ()
  | f + 1, n =>
    if n = 0 then pure ()
    else do
      let k := min n (65536 - off % 65536)
      let _ ← locate w false c off k perm
      reachAll w c perm (off + k) f (n - k)

/-- What CTXSV saves: a parked context, or one parked out of it. -/
inductive SaveTarget where
  | context (th : Thread)
  | record (v : Saved)
  deriving DecidableEq, Repr

/-- The context is parked, and not in STVER. -/
def CtxState.savable (st : CtxState) : Bool :=
  match st with
  | .parked p =>
    match p.why with
    | .stver _ => false
    | .port _ | .engine _ | .fire _ _ | .bwait | .falign _ | .ldver _ _ _ | .cntw _ _ _ | .mwait _ | .waiti
    | .absent _ _ _ _ | .ship _ _ => true
  | .free | .running | .travelling _ | .travelQueued | .travelAbroad _ _ => false

/-- The target of CTXSV. -/
def State.saveTarget (s : State) (tid : Nat) : Option SaveTarget :=
  if (s.thread tid).status.savable then some (.context (s.thread tid))
  else (s.saved.find? fun v => v.how = .parkOut && v.tid = tid).map .record

/-- The context number in ga[14:0]. -/
def contextIn (w : Word) : Nat := fieldW 14 0 w

/-- CTXSV (R358): the answer is 1 where the target is not in a state to save. -/
def execCtxsv (d : GReg) (a : CReg) : State → Host.Outcome State Fault Refusal :=
  run do
    lawful (·.supIllegal)
    let t ← getTh
    let c := t.rc a
    let w := creg a
    checkCap w c rW (capOff c) 4096 64
    reachAll w c rW (capOff c) 2 4096
    let tid := contextIn (t.rg d)
    match (← get).saveTarget tid with
    | none => writeI (.g d 1)
    | some (.context _) =>
      modify fun s => s.drain tid
      let b ← runS fun s => s.recordOf (s.thread tid) tid
      storeRange w c (capOff c) 2 b
      drainMine
      modify fun s =>
        let th := s.thread tid
        s.detach .ctxsv tid (teamKey th.launchId th.teamNo) 0 b
      writeI (.g d 0)
    | some (.record v) =>
      let b ← runS fun s => s.recordOf v.thread v.tid
      storeRange w c (capOff c) 2 b
      drainMine
      modify fun s =>
        let s := s.freeRecord v
        { s with saved := s.saved.map fun u => if u = v then { v with how := .ctxsv, addr := 0, image := b } else u }
      writeI (.g d 0)
    advance

/-- The lowest free context of a core. -/
def State.freeContext (s : State) (core : Nat) : Option Nat :=
  (firstFrom (fun k => (s.thread (tidOf core k)).status = .free) 0 8).map (tidOf core ·)

/-- CTXLD (R358): a record that CTXSV wrote, and that still holds what CTXSV wrote, enters a free context of a core on which
its team is resident. -/
def execCtxld (d : GReg) (a : CReg) : State → Host.Outcome State Fault Refusal :=
  run do
    lawful (·.supIllegal)
    let t ← getTh
    let c := t.rc a
    let w := creg a
    checkCap w c rR (capOff c) 4096 64
    let b ← loadRange w c (capOff c) 2 4096
    let core := contextIn (t.rg d) / 8
    let s ← get
    match s.saved.find? fun v => v.how = .ctxsv && v.image = b with
    | none => writeI (.g d 3)
    | some v =>
      match s.freeContext core with
      | some tid =>
        if ((smFind s.teams v.team).map (·.core)) = some core then
          set (s.restore v tid)
          writeI (.g d 0)
        else writeI (.g d 2)
      | none => writeI (.g d 2)
    advance

end Sys2Proof.Machine
end

