-- ==== Sys2Proof/Machine/Launching.lean ====
section
/-!
DEFINITION. LAUNCH with the checks of the header and of the actor table (spec/27_launch.md R343, R344, R348, with
spec/05_assembler.md R71, R72), and what the host does at its port: message-window writes and memory accesses (R342;
spec/17_objects.md R250).
-/

namespace Sys2Proof.Machine

/-! ## The header (R343) and the table (R344) -/

/-- The actor of a table entry's 32 bytes. -/
def parseActor (b : List Byte) : Actor where
  handler := leAt b 0 4
  kind := byteAt b 4
  inmask := BitVec.ofNat 8 (byteAt b 5)
  outmask := BitVec.ofNat 8 (byteAt b 6)
  rate := BitVec.ofNat 32 (leAt b 8 4)
  binds := (List.range 8).map fun i => BitVec.ofNat 16 (leAt b (16 + 2 * i) 2)

/-- A header's fields, with the options word of LAUNCH and the overflow capability. -/
def parseSpec (h : List Byte × List Bool) (opts : Word) (ov : Cap) (table : List Actor) : LaunchSpec where
  code := blockCap h 0
  actorsC := blockCap h 1
  args := blockCap h 2
  notify := blockCap h 3
  widths := (List.range 6).map fun i => byteAt h.1 (64 + i)
  teamLv := byteAt h.1 70
  arcLv := byteAt h.1 71
  entry := byteAt h.1 72
  fault := byteAt h.1 73
  prio := byteAt h.1 74
  tiles := byteAt h.1 75
  barriers := byteAt h.1 76
  spill := leAt h.1 78 2
  trap := BitVec.ofNat 32 (leAt h.1 80 4)
  window := leAt h.1 84 2
  vec := fieldW 63 48 opts
  savrec := fieldW 47 32 opts
  ovkib := fieldW 31 24 opts
  dies := fieldW 23 20 opts
  supv := bitW 19 opts
  scbchk := bitW 18 opts
  ovcap := ov
  table := table

/-- A code offset is even and lies within the bounds of CODE. -/
def inCode (l : LaunchSpec) (o : Nat) : Bool := o % 2 = 0 && capBase l.code ≤ o && o < capTop l.code

/-- The entries of the actor table that a capability names. -/
def tableLength (c : Cap) : Nat := (capTop c - capBase c).toNat / 32

/-- A capability that is tagged, carries a right and has a valid format. -/
def carries (c : Cap) (r : Nat) : Bool := c.tag && missing r (capRights c) = 0 && !capBadFmt c

/-- The actor table may be read. -/
def tableReadable (c : Cap) : Bool := carries c rR && tableLength c ≤ 64

/-- The actor is in the table and has a kind. -/
def actorIs (l : LaunchSpec) (a k : Nat) : Bool := ((l.table[a]?).map (·.kind)) = some k

/-- The lowest offset among those of failed checks. -/
def firstBad (l : List (Nat × Bool)) : Option Nat :=
  l.foldl
    (fun m e => if !e.2 then m else
      match m with
      | none => some e.1
      | some x => some (min x e.1)) none

/-- The checks of the header, each with the byte offset of its field (R71, R343, R348). `dram` says that NOTIFY is a line
in bonded DRAM, and `boot` is SPILL of the boot-placed supervisor launch. -/
def headerChecks (l : LaunchSpec) (raw : List Byte) (dram : Bool) (boot : Nat) : List (Nat × Bool) :=
  ((List.range 6).map fun i => (64 + i, decide (l.widths.getD i 0 > 64))) ++
  [(0, !carries l.code rX), (16, !tableReadable l.actorsC), (48, !dram),
   (64, decide (specBits l > 64)),
   (64 + l.teamLv, l.teamLv ≤ 5 && itemBits l > 16),
   (70, decide (l.teamLv > 6)), (71, decide (l.arcLv > l.teamLv)),
   (72, !actorIs l l.entry 0), (73, l.fault ≠ 0xFF && !actorIs l l.fault 2),
   (74, decide (l.prio > 3)), (75, decide (l.tiles > 8)), (76, decide (l.barriers > 4)), (77, byteAt raw 77 ≠ 0),
   (78, decide (l.spill > 64)), (80, l.trap ≠ 0xFFFFFFFF && !inCode l l.trap.toNat),
   (84, decide (l.window > 1000)), (86, (raw.drop 86).any (· ≠ 0)),
   (70, l.supv && teamBits l > 4), (78, l.supv && l.spill ≠ boot)]

/-- A binding of a stage output that does not name a declared input of a stage actor, or sets a reserved bit (R72, R344). -/
def badBind (l : LaunchSpec) (a : Actor) (i : Nat) : Bool :=
  let b := a.binds.getD i 0
  let to_ := l.table[bitsOf 5 0 b.toNat]?
  bitsOf 9 6 b.toNat ≠ 0 ||
    b.getLsbD 15 &&
    (!a.outmask.getLsbD i || bitsOf 14 13 b.toNat = 3 ||
      !((to_.map fun t => t.kind = 1 && t.inmask.getLsbD (bitsOf 12 10 b.toNat)).getD false))

/-- The checks of a table's entry; `seen` are the ports that earlier actors declare. -/
def actorChecks (l : LaunchSpec) (raw : List Byte) (seen : BitVec 8) (i : Nat) (a : Actor) : List (Nat × Bool) :=
  let o := 32 * i
  [(o, !inCode l a.handler), (o + 4, decide (a.kind > 3)),
   (o + 5, a.inmask ≠ 0 && (a.kind ≠ 1 || a.inmask &&& seen ≠ 0)),
   (o + 6, a.outmask ≠ 0 && (a.kind ≠ 1 || a.outmask &&& (seen ||| a.inmask) ≠ 0)),
   (o + 7, byteAt raw (o + 7) ≠ 0), (o + 8, leAt raw (o + 12) 4 ≠ 0)] ++
  ((List.range 8).map fun k => (o + 16 + 2 * k, badBind l a k))

/-- The checks of a whole table. -/
def tableChecks (l : LaunchSpec) (raw : List Byte) : List (Nat × Bool) :=
  ((l.table.zipIdx).foldl
    (fun (p : BitVec 8 × List (Nat × Bool)) e =>
      (p.1 ||| e.1.inmask ||| e.1.outmask, p.2 ++ actorChecks l raw p.1 e.2 e.1)) (0, [])).2

/-- NOTIFY carries W over 64 bytes, 64-byte aligned, in bonded DRAM (R343). -/
def State.notifyOk (s : State) (core : Nat) (c : Cap) : Bool × State :=
  if (capCheck c rW (capOff c) 64 64).isSome then (false, s)
  else
    match s.translate core (capObj c) (capOff c) rW with
    | (.home _ e, s) => (e.loc = 1, s)
    | (.bad, s) => (false, s)
    | (.absent, s) => (false, s)
    | (.noPerm _ _, s) => (false, s)

/-! ## LAUNCH (R348) -/

/-- The result word: STATUS, DETAIL and ID. -/
def launchWord (status detail id : Nat) : Word :=
  BitVec.ofNat 64 (status % 16 * 2 ^ 60 + detail % 2 ^ 16 * 2 ^ 16 + id % 2 ^ 16)

/-- The launches that count against the 256 of the module: all but the one that boot firmware placed. -/
def State.liveLaunches (s : State) : Nat := (s.launches.filter fun l => s.supvId ≠ some l.1).length

/-- The next unused identifier. -/
def State.nextLaunch (s : State) : Nat :=
  ((firstFrom (fun k => (s.launch? ((s.nextId + k) % 2 ^ 16)).isNone) 0 (2 ^ 16)).map fun k => (s.nextId + k) % 2 ^ 16).getD 0

/-- STATUS and DETAIL for a header and table. -/
def State.judge (s : State) (l : LaunchSpec) (head table : List Byte) (dram : Bool) : Nat × Nat :=
  match firstBad (headerChecks l head dram s.supvSpill) with
  | some o => (1, o)
  | none =>
    match firstBad (tableChecks l table) with
    | some o => (2, o)
    | none => if s.liveLaunches ≥ 256 then (3, 0) else (0, 0)

/-- An accepted launch. -/
def State.accept (s : State) (l : LaunchSpec) (id : Nat) : State :=
  { s.setLaunch
      { id := id, spec := l, phase := .live, next := 0, placed := [], swept := [], regs := [], timers := [], items := 0,
        traps := 0, dropped := 0, start := s.clock, since := none, began := none } with
    nextId := (id + 1) % 2 ^ 16 }

/-- The executing firing answers a launch message: it is one of the supervisor launch's host actor (R342). -/
def State.answersHost (s : State) : Bool :=
  match s.th.firing with
  | some f => s.supvId = some f.launch && f.kind = 2 && f.actor = fieldW 17 12 (s.die 0).supact
  | none => false

/-- The record of a launch message that is refused (R349). -/
def State.refuseLaunch (s : State) (l : LaunchSpec) (w : Word) : State :=
  s.record l.notify (fieldW 15 0 w) 3 (fieldW 27 0 w + fieldW 63 60 w * 2 ^ 28) 0 0 0 0 s.clock l.vec (min l.window 1000)

/-- LAUNCH (R348). -/
def execLaunch (d : GReg) (h ov : CReg) : State → Host.Outcome State Fault Refusal :=
  run do
    lawful (·.supIllegal)
    let t ← getTh
    let opts := t.rg d
    checkCap (creg h) (t.rc h) rR (capOff (t.rc h)) 128 64
    if fieldW 17 0 opts ≠ 0 then trapWhole 0x05 opts
    drainMine
    let head ← loadBlock h rR 128 64
    let ac := blockCap head 1
    let n := if tableReadable ac then 32 * tableLength ac else 0
    let tb ← loadRange (creg h) ac (capBase ac) (pagesOf (capBase ac) n) n
    let actors := (List.range (n / 32)).map fun i => parseActor (tb.drop (32 * i))
    let l := parseSpec head opts (t.rc ov) actors
    let s ← get
    let dram ← runS fun s => s.notifyOk s.cur.core l.notify
    let id := s.nextLaunch
    let (status, detail) := s.judge l head.1 tb dram
    let w := launchWord status detail id
    if status = 0 then modify fun s => s.accept l id
    else if dram && s.answersHost then modify fun s => s.refuseLaunch l w
    writeI (.g d w)
    advance

/-! ## The host port (R250, R342) -/

/-- The message window: its host offset, its size and its bytes in the slice of module core 1,008. -/
def windowAt : Nat := 2 ^ 40
def windowSize : Nat := 65536
def windowHome (o : Nat) : Nat := sliceAddr 1008 (196608 + (o - windowAt))

/-- The lines of the window whose byte 63 a write of n bytes covers. -/
def linesDone (off n : Nat) : List Nat := (List.range (n / 64 + 2)).filterMap fun i =>
  let l := (off - windowAt) / 64 + i
  if off ≤ windowAt + 64 * l + 63 && windowAt + 64 * l + 63 < off + n then some l else none

/-- A window write is performed, and each line whose byte 63 it covers fires the host actor with the line's words. -/
def State.windowWrite (s : State) (off : Nat) (b : List Byte) : State :=
  let s := s.homeWrite 1008 (windowHome off) b
  (linesDone off b.length).foldl
    (fun s l =>
      let ws := (List.range 8).map fun i => s.homeWord (windowHome (windowAt + 64 * l + 8 * i))
      let (id, s) := s.freeWord
      s.post (supNote 0 (fieldW 17 12 (s.die 0).supact) id ws)) s

/-- Window writes that the host port holds are performed in their order while core 1,008 has room. -/
def State.heldWrites (s : State) : Nat → State
  | 0 => s
  | f + 1 =>
    match s.host.held with
    | [] => s
    | (off, b) :: rest =>
      if s.room 1008 then ({ s with host := { s.host with held := rest } }.windowWrite off b).heldWrites f else s

/-- HOST_MESSAGE_WRITE (R342, R365): a write in the window joins those that the port holds, and goes on when it can; a
module that does not run accepts none. -/
def execHostMessageWrite (off : Nat) (bytes : List Byte) : State → Host.Outcome State Fault Refusal :=
  event fun s =>
    if s.boot ≠ .running || off < windowAt || off + bytes.length > windowAt + windowSize then s
    else
      { s with host := { s.host with held := s.host.held ++ [(off, bytes)] } }.heldWrites (s.host.held.length + 1)

/-- HOST_MEMORY_ACCESS (R250, R342): a host write or read of bonded DRAM at its home, or a read of the window; the bytes
read and their poison are what the port shows. A module in reset answers nothing (R368), and one that a fatal error has stopped lets its
dump be read and takes no write (R371). -/
def execHostMemoryAccess (write : Bool) (off : Nat) (bytes : List Byte) : State → Host.Outcome State Fault Refusal :=
  event fun s =>
    let n := bytes.length
    let show_ := fun (a : Nat) => { s with host := { s.host with read := memBytes s.mem a n, poison := s.poisoned a n } }
    if s.boot = .inReset || (write && s.boot = .stopped) then s
    else if off + n ≤ windowAt then (if write then s.homeWrite 1008 off bytes else show_ off)
    else if windowAt ≤ off && off + n ≤ windowAt + windowSize && !write then show_ (windowHome off)
    else s

/-! ## What follows of itself -/

/-- What the device does of itself after each turn: the events of parked-out contexts are kept, notes and held window writes go on where
there is room, ports set off tasks, versions of objects that are gone go, and teams, arcades and launches whose end has come end. -/
def State.tidy (s : State) : State :=
  let s := s.watchSaved.sendNotes
  let s := (s.heldWrites s.host.held.length).forgetVersions
  let s := s.teams.foldl (fun s t => s.teamTasks t.2) s
  let s := s.teams.foldl (fun s t => if s.teamOver t.2 then s.endTeam t.2 else s) s
  s.launches.foldl (fun s l => s.settleLaunch ((s.launch? l.1).getD l.2)) s

end Sys2Proof.Machine
end

