-- ==== Sys2Proof/Machine/Sm.lean ====
section
/-!
DEFINITION. SM3 and SM2, which spec/29_service.md names for digests and signatures (R366, R368 to R370). Their rules are those of the
Chinese standards GB/T 32905 and GB/T 32918, with the recommended curve of 256 bits (PRESUMED, log 71).
-/

namespace Sys2Proof.Machine

/-! ## Big-endian bytes -/

/-- The number that bytes hold, big-endian. -/
def beNat (b : List Byte) : Nat := b.foldl (fun n x => 256 * n + x.toNat) 0

/-- The low n bytes of a number, big-endian. -/
def beBytes (n v : Nat) : List Byte := (List.range n).map fun i => BitVec.ofNat 8 (v / 256 ^ (n - 1 - i))

/-! ## SM3 -/

abbrev W32 := BitVec 32

def sm3P0 (x : W32) : W32 := x ^^^ x.rotateLeft 9 ^^^ x.rotateLeft 17
def sm3P1 (x : W32) : W32 := x ^^^ x.rotateLeft 15 ^^^ x.rotateLeft 23

/-- FF and GG of round j. -/
def sm3FF (j : Nat) (x y z : W32) : W32 := if j < 16 then x ^^^ y ^^^ z else (x &&& y) ||| (x &&& z) ||| (y &&& z)
def sm3GG (j : Nat) (x y z : W32) : W32 := if j < 16 then x ^^^ y ^^^ z else (x &&& y) ||| (~~~ x &&& z)

/-- T of round j. -/
def sm3T (j : Nat) : W32 := if j < 16 then 0x79CC4519 else 0x7A879D8A

/-- The message words of a block, n more, the newest first. -/
def sm3Expand : Nat → List W32 → List W32
  | 0, w => w
  | n + 1, w =>
    let at_ := fun i => w.getD (i - 1) 0
    let x := sm3P1 (at_ 16 ^^^ at_ 9 ^^^ (at_ 3).rotateLeft 15) ^^^ (at_ 13).rotateLeft 7 ^^^ at_ 6
    sm3Expand n (x :: w)

/-- Round j on the eight words of the state. -/
def sm3Round (w : List W32) (v : List W32) (j : Nat) : List W32 :=
  match v with
  | [a, b, c, d, e, f, g, h] =>
    let x := a.rotateLeft 12
    let ss1 := (x + e + (sm3T j).rotateLeft (j % 32)).rotateLeft 7
    let wj := w.getD j 0
    let t1 := sm3FF j a b c + d + (ss1 ^^^ x) + (wj ^^^ w.getD (j + 4) 0)
    let t2 := sm3GG j e f g + h + ss1 + wj
    [t1, a, b.rotateLeft 9, c, sm3P0 t2, e, f.rotateLeft 19, g]
  | v => v

/-- The compression of a block of 64 bytes. -/
def sm3Block (v : List W32) (b : List Byte) : List W32 :=
  let w := ((List.range 16).map fun i => BitVec.ofNat 32 (beNat ((b.drop (4 * i)).take 4))).reverse
  let w := (sm3Expand 52 w).reverse
  List.zipWith (· ^^^ ·) v ((List.range 64).foldl (sm3Round w) v)

/-- The compression of blocks, as many as the fuel. -/
def sm3Blocks : Nat → List W32 → List Byte → List W32
  | 0, v, _ => v
  | n + 1, v, b => sm3Blocks n (sm3Block v (b.take 64)) (b.drop 64)

/-- The words of SM3's state before the first block. -/
def sm3Init : List W32 :=
  [0x7380166F, 0x4914B2B9, 0x172442D7, 0xDA8A0600, 0xA96F30BC, 0x163138AA, 0xE38DEE4D, 0xB0FB0E4E]

/-- The SM3 digest of bytes: 32 bytes. -/
def sm3 (m : List Byte) : List Byte :=
  let n := m.length
  let pad : List Byte := 0x80 :: (List.replicate ((64 + 55 - n % 64) % 64) 0 ++ beBytes 8 (8 * n))
  (sm3Blocks ((n + pad.length) / 64) sm3Init (m ++ pad)).flatMap fun x => beBytes 4 x.toNat

/-! ## SM2 -/

/-- The prime, the coefficients, the order and the base point of the curve. -/
def sm2P : Nat := 0xFFFFFFFEFFFFFFFFFFFFFFFFFFFFFFFFFFFFFFFF00000000FFFFFFFFFFFFFFFF
def sm2A : Nat := sm2P - 3
def sm2B : Nat := 0x28E9FA9E9D9F5E344D5A9E4BCF6509A7F39789F515AB8F92DDBCBD414D940E93
def sm2N : Nat := 0xFFFFFFFEFFFFFFFFFFFFFFFFFFFFFFFF7203DF6B21C6052B53BBF40939D54123
def sm2Gx : Nat := 0x32C4AE2C1F1981195F9904466A39C9948FE30BBFF2660BE1715A4589334C74C7
def sm2Gy : Nat := 0xBC3736A2F4F6779C59BDCEE36B692153D0A9877CC62A474002DF32E52139F0A0

/-- A power modulo m, of an exponent below 2 ^ fuel. -/
def powMod (m : Nat) : Nat → Nat → Nat → Nat
  | 0, _, _ => 1 % m
  | f + 1, b, e =>
    let h := powMod m f (b * b % m) (e / 2)
    if e % 2 = 1 then b * h % m else h

/-- The inverse modulo a prime below 2^256. -/
def invMod (m x : Nat) : Nat := powMod m 256 (x % m) (m - 2)

/-- A point of the curve; none is the point at infinity. -/
abbrev Point := Option (Nat × Nat)

/-- The base point. -/
def sm2G : Point := some (sm2Gx, sm2Gy)

/-- The third point of the line of slope l through p, mirrored. -/
def sm2Line (l x1 y1 x2 : Nat) : Point :=
  let x := (l * l + 2 * sm2P - x1 - x2) % sm2P
  some (x, (l * (x1 + sm2P - x) + sm2P - y1) % sm2P)

/-- The sum of two points. -/
def sm2Add : Point → Point → Point
  | none, q => q
  | p, none => p
  | some (x1, y1), some (x2, y2) =>
    if x1 = x2 then
      if (y1 + y2) % sm2P = 0 then none
      else sm2Line ((3 * x1 * x1 + sm2A) * invMod sm2P (2 * y1) % sm2P) x1 y1 x2
    else sm2Line ((y2 + sm2P - y1) * invMod sm2P (x2 + sm2P - x1) % sm2P) x1 y1 x2

/-- k times a point, for k below 2 ^ fuel. -/
def sm2Mul : Nat → Nat → Point → Point
  | 0, _, _ => none
  | f + 1, k, p =>
    if k = 0 then none
    else
      let r := sm2Mul f (k / 2) (sm2Add p p)
      if k % 2 = 1 then sm2Add p r else r

/-- A coordinate of a point; 0 at infinity. -/
def pointX (p : Point) : Nat := (p.map (·.1)).getD 0
def pointY (p : Point) : Nat := (p.map (·.2)).getD 0

/-- The number e of a message signed under a user identity by the holder of a public key. -/
def sm2E (id : List Byte) (pub : Point) (msg : List Byte) : Nat :=
  let z :=
    sm3 (beBytes 2 (8 * id.length) ++ id ++
      [sm2A, sm2B, sm2Gx, sm2Gy, pointX pub, pointY pub].flatMap fun v => beBytes 32 v)
  beNat (sm3 (z ++ msg))

/-- The signature by the private key d with the nonce k; none for a nonce that SM2 passes over. -/
def sm2Sign (d : Nat) (id : List Byte) (pub : Point) (msg : List Byte) (k : Nat) : Option (Nat × Nat) :=
  let r := (sm2E id pub msg + pointX (sm2Mul 256 k sm2G)) % sm2N
  let s := invMod sm2N (1 + d) * ((k + sm2N - r * d % sm2N) % sm2N) % sm2N
  if r = 0 || (r + k) % sm2N = 0 || s = 0 then none else some (r, s)

/-- The check of a signature. -/
def sm2Verify (id : List Byte) (pub : Point) (msg : List Byte) (r s : Nat) : Bool :=
  let t := (r + s) % sm2N
  let x := pointX (sm2Add (sm2Mul 256 s sm2G) (sm2Mul 256 t pub))
  1 ≤ r && r < sm2N && 1 ≤ s && s < sm2N && t ≠ 0 && (sm2E id pub msg + x) % sm2N = r

/-! ## The module's keys (R368 to R370) -/

/-- The private key of the identity, in SM2's range. -/
def idSecret : Nat := 1 + Config.idSecret % (sm2N - 2)

/-- The identity public key. -/
def idPoint : Point := sm2Mul 256 idSecret sm2G

/-- IDKEY[i]: coordinate x, then coordinate y, each with its most significant 8 bytes first. -/
def idKey (i : Fin 8) : Word :=
  let v := if i.val < 4 then pointX idPoint else pointY idPoint
  BitVec.ofNat 64 (v / 2 ^ (64 * (3 - i.val % 4)))

end Sys2Proof.Machine
end

