-- ==== Sys2Proof/Machine/Service.lean ====
section
/-!
DEFINITION. The registers of a die as MRD reads and MWR writes them (spec/17_objects.md R248, R251; spec/27_launch.md R352;
spec/29_service.md R361, R364, R367, R369, R370), spares (R360), errors and the dump (R362 to R366), and boot (R368).
-/

namespace Sys2Proof.Machine

/-! ## Reading (R248, R352) -/

/-- ERRLOG as it reads (R364). -/
def Die.errlog (d : Die) : Word :=
  BitVec.ofNat 64 (d.errCorr % 4096 * 2 ^ 52 + d.errHead % 1024 * 2 ^ 42 + d.errBase % 2 ^ 42)

/-- POOL[s] as it reads: COUNT and the frame that the next move takes. -/
def poolWord (l : List Nat) : Word := BitVec.ofNat 64 (l.length % 128 * 2 ^ 57 + l.headD 0 % 2 ^ 16)

/-- A move is in progress at a slice of the die. -/
def State.dieMoving (s : State) (die : Nat) : Bool := s.pages.any fun p => frameDie p.1 = die && p.2.moving.isSome

/-- A register by die and number, none where there is no such register. -/
def State.dieReg (s : State) (die num : Nat) : Option Word :=
  let d := s.die die
  let own := fun (w : Word) => if die = 0 then w else 0
  if num = 0x000 then some d.otbase
  else if num = 0x001 then some (putField 63 63 d.migctl (if s.dieMoving die then 1 else 0))
  else if num = 0x002 then some d.closectl
  else if num = 0x003 then some d.supact
  else if num = 0x004 then some d.savpool
  else if num = 0x005 then some d.spare
  else if num = 0x006 then some d.errlog
  else if num = 0x007 then some (own s.pwrbud)
  else if num = 0x008 then some (own s.attest)
  else if num = 0x009 then some (own (Config.serial 0))
  else if num = 0x00A then some (own (Config.serial 1))
  else if 0x010 ≤ num && num ≤ 0x017 then some (own (idKey (Fin.ofNat 8 (num - 0x010))))
  else if 0x100 ≤ num && num < 0x140 then some (poolWord (smGet [] d.pools (num - 0x100)))
  else if 0x200 ≤ num && num < 0x240 then some (smGet 0 d.mbp (num - 0x200))
  else none

/-! ## Writing -/

/-- The bits of a word that a map makes writable, from a written value and the old one. -/
def writable (mask : Nat) (old v : Word) : Word := (v &&& BitVec.ofNat 64 mask) ||| (old &&& ~~~ BitVec.ofNat 64 mask)

/-- The bits hi..lo of a mask. -/
def maskBits (hi lo : Nat) : Nat := (2 ^ (hi - lo + 1) - 1) * 2 ^ lo

/-- A physical address ÷ 64 names bonded DRAM (R251). -/
def inDram64 (a : Nat) : Bool := a < 2 ^ 34

/-- The frames of SAVPOOL lie in the slices of the die (R251, R352). -/
def poolOnDie (die : Nat) (w : Word) : Bool :=
  let lo := poolBase w
  die * 2 ^ 22 ≤ lo && lo < (die + 1) * 2 ^ 22 && lo + poolCount w ≤ (die + 1) * 2 ^ 22

/-- A write of a die register without behaviour of its own; one that its map refuses leaves it unchanged. -/
def State.dieWrite (s : State) (die num : Nat) (v : Word) : State :=
  let d := s.die die
  if num = 0x000 then
    if inDram64 (fieldW 41 0 v) then s.setDie die { d with otbase := writable (maskBits 59 0) 0 v } else s
  else if num = 0x001 then
    if migWin v = 0 then s
    else s.setDie die { d with migctl := writable (maskBits 47 32 + maskBits 27 24 + maskBits 15 0) 0 v }
  else if num = 0x002 then s.setDie die { d with closectl := writable (maskBits 31 0) 0 v }
  else if num = 0x003 then s.setDie die { d with supact := writable (maskBits 17 0) 0 v }
  else if num = 0x004 then if d.savUsed = [] && poolOnDie die v then s.setDie die { d with savpool := v } else s
  else if num = 0x006 then
    if inDram64 (fieldW 41 0 v) then
      s.setDie die { d with errBase := fieldW 41 0 v, errCorr := if fieldW 63 52 v = 0 then d.errCorr else 0 }
    else s
  else if 0x200 ≤ num && num < 0x240 then
    s.setDie die
      { d with mbp := smPut d.mbp (num - 0x200) (writable (maskBits 15 15 + maskBits 11 0) 0 v) }
  else s

/-- DIE_REGISTER_WRITE (R248). -/
def execDieRegisterWrite (die : Fin 4) (num : BitVec 12) (v : Word) : State → Host.Outcome State Fault Refusal :=
  event fun s => s.dieWrite die.val num.toNat v

/-- A frame is pushed onto a slice's pool, which holds 64 (R248). -/
def State.pushPool (s : State) (die slice : Nat) (v : Word) : State :=
  let k := 64 * die + slice
  if (s.pool k).length ≥ 64 then s else s.setPool k (fieldW 15 0 v :: s.pool k)

/-- POOL_PUSH (R248). -/
def execPoolPush (die : Fin 4) (slice : Fin 64) (v : Word) : State → Host.Outcome State Fault Refusal :=
  event fun s => s.pushPool die.val slice.val v

/-- BUDGET, kept from 1,000 to 5,000 (R367). -/
def State.writeBudget (s : State) (v : Word) : State :=
  { s with pwrbud := putField 15 0 s.pwrbud (max 1000 (min 5000 (fieldW 15 0 v))) }

/-- PWRBUD_WRITE (R367). -/
def execPwrbudWrite (v : Word) : State → Host.Outcome State Fault Refusal := event fun s => s.writeBudget v

/-! ## Attestation (R369) -/

/-- A write to BODY starts a signature; it is refused while one is being computed. -/
def State.writeBody (s : State) (v : Word) : State :=
  if bitW 63 s.attest || !inDram64 (fieldW 41 0 v) then s
  else { s with attest := BitVec.ofNat 64 (2 ^ 63 + (if bitW 62 s.attest && !bitW 62 v then 2 ^ 62 else 0) + fieldW 41 0 v) }

/-- ATTEST_BODY_WRITE (R369). -/
def execAttestBodyWrite (v : Word) : State → Host.Outcome State Fault Refusal := event fun s => s.writeBody v

/-- The module serial number in the byte order of an attestation report (R370): the user identity of its signature. -/
def serialBytes : List Byte := leBytes 8 (Config.serial 0).toNat ++ leBytes 8 (Config.serial 1).toNat

/-- r and s of the signature of a body (R369, R370), 32 bytes each; SM2's nonce is a free value. -/
def State.signature (s : State) (body : List Byte) : List Byte × State :=
  let (b, s) := s.freeBytes 32
  let sig :=
    ((List.range 8).findSome? fun i => sm2Sign idSecret serialBytes idPoint body (1 + (leNat b + i) % (sm2N - 1))).getD (0, 0)
  (beBytes 32 sig.1 ++ beBytes 32 sig.2, s)

/-- ATTEST_COMPLETE (R369): the signature of the 256 bytes of the body is written behind it. -/
def execAttestComplete : State → Host.Outcome State Fault Refusal :=
  event fun s =>
    if !bitW 63 s.attest then s
    else
      let a := fieldW 41 0 s.attest * 64
      let done := putField 63 63 s.attest 0
      if s.poisoned a 256 || a + 320 > 2 ^ 40 then { s with attest := putField 62 62 done 1 }
      else
        let (b, s) := s.signature (memBytes s.mem a 256)
        { s.homeWrite 0 (a + 256) b with attest := done }

/-! ## Spares (R360, R361) -/

def spareKind (w : Word) : Nat := fieldW 15 14 w
def spareCluster (w : Word) : Nat := fieldW 13 8 w
def spareCore (w : Word) : Nat := fieldW 3 0 w
def spareFree (w : Word) : Nat := fieldW 41 40 w

/-- A takeover is refused: one is in progress, no spare is left, the cluster holds an arcade, or it is the port cluster of a module that
has booted. -/
def State.spareRefused (s : State) (die : Nat) (v : Word) : Bool :=
  let d := s.die die
  let c := spareCluster v
  d.takeover.isSome || (spareKind v = 2 && spareFree d.spare = 0) ||
    (spareKind v = 1 && (smFind d.cores c).isSome) || (s.busyClusters die).contains c || (c = 63 && s.boot = .running)

/-- A write of SPARE: KIND 1 or 2 starts a takeover. -/
def State.writeSpare (s : State) (die : Nat) (v : Word) : State :=
  let k := spareKind v
  if (k ≠ 1 && k ≠ 2) || s.spareRefused die v then s
  else
    let d := s.die die
    let free := spareFree d.spare - (if k = 2 then 1 else 0)
    let w := BitVec.ofNat 64 (2 ^ 63 + free * 2 ^ 40 + k * 2 ^ 14 + spareCluster v * 2 ^ 8 + spareCore v)
    s.setDie die { d with spare := w, takeover := some ⟨k, spareCluster v, spareCore v⟩ }

/-- SPARE_TAKEOVER (R360). -/
def execSpareTakeover (die : Fin 4) (v : Word) : State → Host.Outcome State Fault Refusal :=
  event fun s => s.writeSpare die.val v

/-- A core's position answered by a core that has run nothing; its slice keeps bytes, tags and poison (R360). -/
def State.coldCore (s : State) (core : Nat) : State :=
  { s with
    threads := (List.range 8).foldl (fun t x => smDel t (tidOf core x)) s.threads
    tlb := smDel s.tlb core
    matrix := smDel s.matrix core
    last := smDel s.last core
    tokens := smDel s.tokens core }

/-- A takeover completes (R360): the spare answers to the position's number. -/
def State.finishTakeover (s : State) (die : Nat) : State :=
  let d := s.die die
  match d.takeover with
  | none => s
  | some t =>
    let cl := die * 64 + t.cluster
    let cores := if t.kind = 1 then smPut d.cores t.cluster t.core else smDel d.cores t.cluster
    let s := s.setDie die { d with spare := putField 63 63 d.spare 0, takeover := none, cores := cores }
    if t.kind = 1 then s.coldCore (16 * cl + t.core)
    else
      { (List.range 16).foldl (fun s k => s.coldCore (16 * cl + k)) s with
        icache := smDel s.icache cl
        ncache := smDel s.ncache cl
        loops := smDel s.loops cl }

/-- SPARE_TAKEOVER_COMPLETE (R360). -/
def execSpareTakeoverComplete (die : Fin 4) : State → Host.Outcome State Fault Refusal :=
  event fun s => s.finishTakeover die.val

/-- A write of a die register by number. -/
def State.writeReg (s : State) (die num : Nat) (v : Word) : State :=
  if num = 0x005 then s.writeSpare die v
  else if num = 0x007 then (if die = 0 then s.writeBudget v else s)
  else if num = 0x008 then (if die = 0 then s.writeBody v else s)
  else if 0x100 ≤ num && num < 0x140 then s.pushPool die (num - 0x100) v
  else s.dieWrite die num v

/-! ## Errors (R362 to R365) -/

/-- The die at which an error's unit stands: by home address for memories, by module cluster × 2^20 for caches, by die for
control state. -/
def errDie (u : ErrUnit) (a : Nat) : Nat :=
  match u with
  | .scratchpad => homeDie a % 4
  | .dram => homeDie a % 4
  | .tier2 => homeDie a % 4
  | .nodeCache => a / 2 ^ 20 / 64 % 4
  | .icache => a / 2 ^ 20 / 64 % 4
  | .control => a % 4
  | .sliceBuffer => homeDie a % 4

/-- CORRECTED_ERROR (R362, R364): the value is repaired at its home, and CORR counts it, saturating. -/
def execCorrectedError (unit : ErrUnit) (addr : Nat) : State → Host.Outcome State Fault Refusal :=
  event fun s =>
    let d := s.die (errDie unit addr)
    s.setDie (errDie unit addr) { d with errCorr := min 0xFFF (d.errCorr + 1) }

/-- The value at an index of a list changed. -/
def changeAt {α : Type} (f : α → α) : List α → Nat → List α
  | [], _ => []
  | x :: t, 0 => f x :: t
  | x :: t, i + 1 => x :: changeAt f t i

/-- The poison bit of an error's granule is set: of a memory's, or of the 8-byte granule that holds byte a mod 2^20 of a cluster's node
cache or instruction cache (log 48). -/
def State.poisonUnit (s : State) (u : ErrUnit) (a : Nat) : State :=
  let cl := a / 2 ^ 20
  match u with
  | .scratchpad => s.poisonAt a
  | .dram => s.poisonAt a
  | .tier2 => s.poisonAt a
  | .nodeCache =>
    let l :=
      changeAt (fun (x : NodeLine) => { x with poison := setIns (a % 64 / 8) x.poison }) (smGet [] s.ncache cl) (a % 2 ^ 20 / 64)
    { s with ncache := smPut s.ncache cl l }
  | .icache =>
    let l :=
      changeAt (fun (x : CodeLine) => { x with poison := setIns (a % 64 / 8) x.poison }) (smGet [] s.icache cl) (a % 2 ^ 20 / 64)
    { s with icache := smPut s.icache cl l }
  | .control => s
  | .sliceBuffer => s.poisonBuf a

/-! ## The dump (R366) -/

/-- Home address of the dump: the upper 2 GiB of DRAM slice 255. -/
def dumpAt : Nat := 0xFF80000000

/-- The fabric registers of a kind, in the order of their indexes (R230, R366). -/
def State.fabricSection (s : State) : List Byte :=
  let reg := fun k i j => leBytes 4 ((s.fabricReg k i j).getD 0).toNat
  let one := fun k n => (List.range n).flatMap fun i => reg k i 0
  let two := fun k m => (List.range 192).flatMap fun i => (List.range m).flatMap fun j => reg k i j
  one 1 288 ++ one 2 288 ++ one 3 288 ++ two 4 26 ++ two 5 26 ++ two 6 24 ++ one 7 288 ++ one 8 1

/-- A tile as the save area lays it out (R350); the kept epilogue's layout is device-defined. -/
def State.tileRecord (s : State) (core t : Nat) : List Byte × State :=
  let x := s.tile core t
  let (k, s) := s.freeBytes 56
  (leBytes 8 x.status.toNat ++ k ++ leBytes 192 0 ++ x.image, s)

/-- Parts of a section, one after another. -/
def gather (f : State → Nat → List Byte × State) (s : State) (n : Nat) : List Byte × State :=
  (List.range n).foldl
    (fun a i =>
      let (b, s) := f a.2 i
      (a.1 ++ b, s)) ([], s)

/-- Sections 0 to 5 (R366). -/
def State.dumpSections (s : State) : List (List Byte) × State :=
  let regs := (List.range 4).flatMap fun d => (List.range 512).flatMap fun k => leBytes 8 ((s.dieReg d k).getD 0).toNat
  let (ctx, s') := gather (fun s t => s.recordOf (s.thread t) t) s 32768
  let (tiles, s') := gather (fun s k => s.tileRecord (k / 16) (k % 16)) s' 65536
  let slices := memBytes s.mem (sliceAddr 0 0) (2 ^ 30)
  let logs := (List.range 4).flatMap fun d => memBytes s.mem ((s.die d).errBase * 64) 32768
  ([regs, s.fabricSection, ctx, tiles, slices, logs], s')

/-- Where each section stands: its offset from the header and its size. -/
def sectionTable : Nat → List (List Byte) → List (Nat × Nat)
  | _, [] => []
  | off, x :: t => (off, x.length) :: sectionTable (off + x.length) t

/-- The dump's header of 4 KiB, all sections complete. -/
def dumpHeader (die unit : Nat) (addr : Word) (time : Nat) (secs : List (List Byte)) : List Byte :=
  leBytes 4 0x444D5031 ++ leBytes 2 1 ++ leBytes 1 die ++ leBytes 1 unit ++ leBytes 8 addr.toNat ++ leBytes 8 time ++
    leBytes 8 63 ++ (sectionTable 4096 secs).flatMap (fun p => leBytes 8 p.1 ++ leBytes 8 p.2) ++
    sm3 secs.flatten ++ leBytes 3936 0

/-- A fatal error (R364 to R366, R371): it is logged, every die stops issue, the dump is written, and the host port raises vector 0. -/
def State.fatal (s : State) (unit : ErrUnit) (die : Nat) (addr : Word) : State :=
  let s := { s.logError unit die addr.toNat with boot := .stopped }
  let (secs, s) := s.dumpSections
  let s := s.homeWrite 0 (dumpAt + 4096) secs.flatten
  let s := s.homeWrite 0 dumpAt (dumpHeader die (unitCode unit) addr s.clock secs)
  { s with host := { s.host with irqs := s.host.irqs ++ [0] } }

/-- An uncorrectable error: fatal in control state, which carries no poison (R365); elsewhere its granule is poisoned, and the log entry is
performed with the poison bit (R362, R364). -/
def State.uncorrectable (s : State) (unit : ErrUnit) (die : Nat) (addr : Word) : State :=
  if unit = .control then s.fatal unit die addr else (s.poisonUnit unit addr.toNat).logError unit die addr.toNat

/-- UNCORRECTABLE_ERROR (R362, R364, R365). -/
def execUncorrectableError (unit : ErrUnit) (die : Fin 4) (addr : Nat) : State → Host.Outcome State Fault Refusal :=
  event fun s => s.uncorrectable unit die.val (BitVec.ofNat 64 addr)

/-- FATAL_ERROR (R364 to R366): only an error of control state is fatal. -/
def execFatalError (die : Fin 4) (unit : ErrUnit) (addr : Word) : State → Host.Outcome State Fault Refusal :=
  event fun s => s.uncorrectable unit die.val addr

/-! ## Boot (R341, R368) -/

/-- The identifier of the launch that boot firmware places: no launch that LAUNCH accepts has it. -/
def bootLaunch : Nat := 2 ^ 16

/-- The supervisor launch on the port clusters: arcade d on die d, as far as it has arcades; its firings run with SUP = 1 (R341). -/
def bootPlaced (l : LaunchSpec) : Launch where
  id := bootLaunch
  spec := { l with supv := true }
  phase := .live
  next := min 4 (arcadeCount l)
  placed := (List.range (min 4 (arcadeCount l))).map fun d => ⟨d, d, [63], 64, [], d⟩
  swept := []
  regs := []
  timers := []
  items := 0
  traps := 0
  dropped := 0
  start := 0
  since := none
  began := some 0

/-- The pattern books as the image leaves them, the same in every cluster. -/
def bootBook (l : List (Nat × List Word)) : SMap Word :=
  (List.range 256).flatMap fun c =>
    l.foldl
      (fun m p => (p.2.take 32).zipIdx.foldl (fun m x => smPut m (c * 4096 + p.1 % 128 * 32 + x.2) x.1) m) []

/-- HEAT as boot firmware leaves it. -/
def bootHeat (l : List (Nat × Nat × BitVec 12)) : SMap (BitVec 12) :=
  l.foldl (fun m h => smPut m (32 * h.1 + h.2.1) h.2.2) []

/-- The boot record (R368): the digests of the boot image and of Rhanik, and the HEAT code of every ring of every fibre. -/
def bootRecord (img : BootImage) : List (Nat × List Byte) :=
  let h := bootHeat img.heat
  [(0, sm3 img.image), (32, sm3 img.rhanik),
   (4096, (List.range 192).flatMap fun f => (List.range 26).flatMap fun r => leBytes 2 (smGet 0 h (32 * f + r)).toNat)]

/-- Boot ROM's verification (R368): the digest of the public key is the fused one, and the signature of the image is good. -/
def imageVerified (img : BootImage) : Bool :=
  sm3 (beBytes 32 img.key.1 ++ beBytes 32 img.key.2) = (List.range 32).map (fun i => Config.fusedKey (Fin.ofNat 32 i)) &&
    sm2Verify ((List.range 16).map fun i => Config.bootSigner (Fin.ofNat 16 i)) (some img.key) img.image img.sig.1 img.sig.2

/-- A die register as boot firmware writes it; a takeover of a spare is complete before the module runs (R361). -/
def State.bootWrite (s : State) (die num : Nat) (v : Word) : State :=
  if num = 0x005 then (s.writeSpare die v).finishTakeover die else s.writeReg die num v

/-- The module in reset (R365, R368): every register returns to its value at reset, and memory keeps its contents. -/
def State.inReset (s : State) : State :=
  { State.reset with
    mem := s.mem, tags := s.tags, poison := s.poison, bufPoison := s.bufPoison, frees := s.frees, sched := s.sched }

/-- What boot firmware leaves of an image that verified: the boot record, memory and die registers, the torus position (R216), the trim
codes, the pattern books and the supervisor launch; the module runs. -/
def State.booted (s : State) (img : BootImage) : State :=
  let r := (bootRecord img).foldl (fun s p => s.homeWrite 0 (0xFF00000000 + p.1) p.2) s.inReset
  let r := img.mem.foldl (fun s p => if p.1 + p.2.length ≤ 2 ^ 40 then s.homeWrite 0 p.1 p.2 else s) r
  let r := img.regs.foldl (fun s p => s.bootWrite p.1.val p.2.1.toNat p.2.2) r
  let h := bootHeat img.heat
  { r with
    fabric := { r.fabric with torus := BitVec.ofNat 32 (bitsOf 23 0 img.torus.toNat), trained := true, heat := h, applied := h }
    launches := (img.launch.map fun l => [(bootLaunch, bootPlaced l)]).getD []
    supvId := img.launch.map fun _ => bootLaunch
    supvSpill := (img.launch.map (·.spill)).getD 0
    book := bootBook img.book
    boot := .running }

/-- BOOT_RESET (R365, R368): the module boots with an image that verifies, and stays in reset with another. -/
def execBootReset (img : BootImage) : State → Host.Outcome State Fault Refusal :=
  event fun s => if imageVerified img then s.booted img else s.inReset

/-- MEMORY_PORT_LINK_CHANGE (R249). -/
def execMemoryPortLinkChange (die : Fin 4) (up : Bool) : State → Host.Outcome State Fault Refusal :=
  event fun s => s.setDie die.val { s.die die.val with linkUp := up }

end Sys2Proof.Machine
end

