-- ==== Sys2Proof/Machine/Migrating.lean ====
section
/-!
DEFINITION. The events of migration (spec/17_objects.md R245 to R247): the end of a move and of a window, the forwarding of
requests that meet an old frame, redirect notices and the retirement of redirect entries.
-/

namespace Sys2Proof.Machine

/-- MIGRATION_MOVE_COMPLETE (R246). -/
def execMigrationMoveComplete (slice : Nat) : State → Host.Outcome State Fault Refusal := event fun s => s.completeMove slice

/-- MIGRATION_WINDOW_END (R245): MIGWIN microseconds after the window of the page in a frame started, it ends, and MOVES returns
to 0. -/
def execMigrationWindowEnd (page : Nat) : State → Host.Outcome State Fault Refusal :=
  event fun s =>
    match (s.page page).window with
    | some t =>
      { s with clock := max s.clock (t + migWin (s.die (frameDie page)).migctl * 1000) }.setPage page
        { s.page page with window := none, moves := 0 }
    | none => s

/-- REDIRECT_FORWARD (R247). -/
def execRedirectForward (slice : Nat) : State → Host.Outcome State Fault Refusal := event fun s => s.forwardAll slice

/-- A core replaces its TLB entry for a page by the new translation (R246). -/
def State.takeNotice (s : State) (n : Notice) : State :=
  s.setTlb n.core ((s.tlbOf n.core).map fun e => if e.covers n.entry.obj n.entry.page then n.entry else e)

/-- REDIRECT_NOTICE (R246): a notice reaches its core. -/
def execRedirectNotice (n : Nat) : State → Host.Outcome State Fault Refusal :=
  event fun s =>
    match s.notices[n]? with
    | some x => { s with notices := s.notices.eraseIdx n }.takeNotice x
    | none => s

/-- REDIRECT_RETIRE (R247): 2 × MIGWIN after it was made, the oldest entry of a slice retires, once the accesses that still use
it are performed. -/
def execRedirectRetire (slice : Nat) : State → Host.Outcome State Fault Refusal :=
  event fun s =>
    match s.redirectsOf slice with
    | r :: _ =>
      let t := r.made + 2 * migWin (s.die (slice / 64)).migctl * 1000
      { s with clock := max s.clock t }.retireRedirect slice
    | [] => s

end Sys2Proof.Machine
end

