-- ==== Sys2Proof/Machine/System.lean ====
section
/-!
DEFINITION. System registers, traps asked for by the program, the return from a trap, the die registers as supervisor code
reaches them, waiting for a task, and the delivery of engine fault records by trap 0x14 (spec/27_launch.md R353 to R359;
spec/03_encoding.md R53 to R55).
-/

namespace Sys2Proof.Machine

/-! ## ILL, TRAP and BRK (R53, R358) -/

/-- ILL (R55): trap 0x01 with reason 7. `word` is the place of the base word in the bundle, and `code` the base word. -/
def execIll (word : Fin 5) (code : IWord) : State → Host.Outcome State Fault Refusal :=
  run (trap 0x01 (BitVec.ofNat 64 (7 * 2 ^ 20 + word.val * 2 ^ 16 + code.toNat)))

/-- The TVAL of causes 0x10 and 0x11 (R359). -/
def tvalBreak (kind which offs : Nat) : Word := BitVec.ofNat 64 (kind * 2 ^ 62 + which * 2 ^ 61 + offs % 2 ^ 56)

/-- TRAP (R358). -/
def execTrap (n : Word) : State → Host.Outcome State Fault Refusal := run (stop (.trapNext 0x11 (tvalBreak 0 0 n.toNat)))

/-- BRK (R358). -/
def execBrk (n : Word) : State → Host.Outcome State Fault Refusal := run (stop (.trapNext 0x10 (tvalBreak 0 0 n.toNat)))

/-! ## SRD and SWR (R353, R354) -/

/-- What a system register number reads: a word for a g register or a capability for a c register. -/
inductive SysVal where
  | word (w : Word)
  | cap (c : Cap)
  deriving DecidableEq, Repr

/-- The bits of TVAL that the map in force reserves (R11): that of TCAUSE's cause (R45, R53, R180, R288, R318, R359), or for the causes of R89 that
of the trap, which may be R280's, or a whole word. DESIGN CHOICE: an SWR of TCAUSE changes which map is in force (log 61). -/
def Thread.tvalReserved (t : Thread) : Nat :=
  match fieldW 7 0 t.tcause with
  | 0x01 | 0x02 => maskBits 63 24 + maskBits 19 19
  | 0x03 => maskBits 63 24 + maskBits 15 11 + maskBits 7 5
  | 0x0B => maskBits 62 62 + maskBits 57 56
  | 0x0C | 0x0D => maskBits 59 56
  | 0x10 | 0x11 => maskBits 60 56
  | 0x04 | 0x05 | 0x06 | 0x07 | 0x08 | 0x0E | 0x0F => if t.tvalWhole then 0 else maskBits 57 56
  | _ => 0

/-- TVAL as SRD reads it: reserved bits read zero (R11). -/
def Thread.tvalRead (t : Thread) : Word := t.tval &&& ~~~ BitVec.ofNat 64 t.tvalReserved

/-- TVAL after an SWR of a value (R11, R353). -/
def Thread.tvalWritten (t : Thread) (w : Word) : Word :=
  writable (2 ^ 64 - 1 - t.tvalReserved) t.tval w

/-- The value of a system register of a thread on a core. -/
def Thread.sysReg (t : Thread) (core n : Nat) : SysVal :=
  match n with
  | 0 => .word t.tctl
  | 1 => .word t.tcause
  | 2 => .word t.tepc
  | 3 => .word t.tvalRead
  | 4 => .word t.workid
  | 5 => .word (t.lfsr.zeroExtend 64)
  | 6 => .word t.xferid
  | 7 => .cap t.spov
  | 8 => .word t.rasd
  | 9 => .word t.lpst
  | 10 => .word t.lpsa
  | 11 => .word t.mcx
  | 12 => .cap t.arcw
  | 13 => .word (BitVec.ofNat 64 core)
  | 14 => .cap t.tpcc
  | 15 => .word t.dba0
  | 16 => .word t.dba1
  | 17 => .word (BitVec.ofNat 64 t.eprio)
  | k => .word (t.frec.getD (k - 18) 0)

/-- SRD (R354). -/
def execSrd (d : GReg) (n : Fin 26) : State → Host.Outcome State Fault Refusal :=
  run do
    let s ← get
    match s.th.sysReg s.cur.core n.val with
    | .word w => writeI (.g d w)
    | .cap c => writeI (.c (Fin.ofNat 16 d.val) c)
    advance

/-- The first n entries of a return-address store, null entries above those it holds (R117). -/
def storeOf (ras : List Cap) (n : Nat) : List Cap := (ras ++ List.replicate n nullCap).take n

/-- LPST as SWR stores it (R121). -/
def lpstWritten (v : Word) : Word :=
  let w := writable (maskBits 63 46 + maskBits 31 0) 0 v
  if bitW 63 w && (fieldW 59 53 w = 0 || fieldW 59 53 w > 64) then putField 63 63 w 0 else w

/-- A system register written by SWR (R353, R117, R121, R124, R31); the others ignore it. `w` is the value of a g register and
`c` that of a c register. -/
def Thread.setSys (t : Thread) (n : Nat) (w : Word) (c : Cap) : Thread :=
  match n with
  | 0 => { t with tctl := writable (maskBits 1 0) t.tctl w }
  | 1 => { t with tcause := writable (maskBits 63 63 + maskBits 7 0) 0 w }
  | 2 => { t with tepc := writable (maskBits 55 0) 0 w }
  | 3 => { t with tval := t.tvalWritten w }
  | 5 => { t with lfsr := if w.truncate 32 = (0 : BitVec 32) then 1 else w.truncate 32 }
  | 7 => { t with spov := c, kept := [] }
  | 8 =>
    { t with ovr := fieldW 47 24 w, area := fieldW 23 8 w, ras := storeOf t.ras (min 16 (fieldW 4 0 w)) }
  | 9 => { t with lpst := lpstWritten w }
  | 10 => { t with lpsa := writable (maskBits 55 0) 0 w }
  | 11 => { t with mcx := writable (maskBits 12 0) 0 w }
  | 14 => { t with tpcc := c }
  | 15 => { t with dba0 := writable (maskBits 63 63 + maskBits 55 0) 0 w }
  | 16 => { t with dba1 := writable (maskBits 63 63 + maskBits 55 0) 0 w }
  | _ => t

/-- The copies kept for a context with that of a written register as the thread has it: TCTL, SPOV or DBA (R348, R354). -/
def LaunchRegs.written (r : LaunchRegs) (t : Thread) : Nat → LaunchRegs
  | 0 => { r with tctl := t.tctl }
  | 7 => { r with spov := t.spov }
  | 15 => { r with dba0 := t.dba0 }
  | 16 => { r with dba1 := t.dba1 }
  | _ => r

/-- The launch's copy of TCTL, SPOV or DBA follows an SWR to it, under the number of the thread's own context (R81, R243, R348). -/
def State.keepReg (s : State) (n : Nat) : State :=
  let t := s.th
  let k := t.place s.cur.tid
  match s.launch? t.launchId with
  | some l => if [0, 7, 15, 16].contains n then s.setLaunch { l with regs := smPut l.regs k ((l.regsOf k).written t n) } else s
  | none => s

/-- The thread after a bundle that no repeat counts. -/
def Thread.stepPast (t : Thread) (c : Cur) : Thread :=
  let u := t.tick c
  if c.micro then u.nextMicro else { u with pcc := capSetOff t.pcc (t.pc + 2 * c.words) }

/-- SWR (R354): its write is seen by the next bundle, so that a write of LPST does not count the SWR itself. DESIGN CHOICE: an SWR of
LPSA that is the last bundle of a repeated body still goes on to the old LPSA (log 15). -/
def execSwr (r : GReg) (n : Fin 26) : State → Host.Outcome State Fault Refusal :=
  run do
    let t ← getTh
    let w := t.rg r
    let c := t.rc (Fin.ofNat 16 r.val)
    if n.val = 9 then modify fun s => s.setTh (s.th.stepPast s.cur) else advance
    modTh fun u => u.setSys n.val w c
    modify (·.keepReg n.val)

/-- ERET (R358). -/
def execEret : State → Host.Outcome State Fault Refusal :=
  run do
    lawful (·.eretIllegal)
    modify fun s => s.setTh (s.th.eret s.cur)

/-! ## MWR and MRD (R248, R358) -/

/-- The die and number that ga names, where it names a register. -/
def dieNamed (d : GReg) : M (Nat × Nat) := do
  let s ← get
  let w := s.th.rg d
  mustBeZero (fieldW 63 18 w ≠ 0 || fieldW 15 12 w ≠ 0)
  match s.dieReg (fieldW 17 16 w) (fieldW 11 0 w) with
  | some _ => return (fieldW 17 16 w, fieldW 11 0 w)
  | none => trapWhole 0x05 w

/-- The register's value goes to ga. -/
def answerReg (d : GReg) (die num : Nat) : M Unit := do
  let s ← get
  writeI (.g d ((s.dieReg die num).getD 0))

/-- MWR (R358). -/
def execMwr (d r : GReg) : State → Host.Outcome State Fault Refusal :=
  run do
    lawful (·.supIllegal)
    let t ← getTh
    let (die, num) ← dieNamed d
    drainMine
    modify fun s => s.writeReg die num (t.rg r)
    answerReg d die num
    advance

/-- MRD (R358). -/
def execMrd (d : GReg) : State → Host.Outcome State Fault Refusal :=
  run do
    lawful (·.supIllegal)
    let (die, num) ← dieNamed d
    answerReg d die num
    advance

/-! ## WAITI (R358) -/

/-- A task is queued on the core. -/
def State.taskQueued (s : State) (core : Nat) : Bool := taskCount (s.queue core) > 0

/-- WAITI (R358). -/
def execWaiti : State → Host.Outcome State Fault Refusal :=
  run do
    lawful (·.supIllegal)
    let s ← get
    if s.taskQueued s.cur.core then advance else parkOr .waiti

/-- WAITI_TIMEOUT (R358): a WAITI that has waited 65,536 cycles completes. -/
def execWaitiTimeout (core ctx : Nat) : State → Host.Outcome State Fault Refusal :=
  event fun s =>
    match (s.thread (tidOf core ctx)).status with
    | .parked p => if p.why = .waiti then s.completeParked (tidOf core ctx) else s
    | .free | .running | .travelling _ | .travelQueued | .travelAbroad _ _ => s

/-! ## Trap 0x14 (R357) -/

/-- A record waits for trap 0x14 in the context, which no trap being handled holds back. -/
def Thread.mustDeliver (t : Thread) : Bool :=
  t.firing.isSome && t.traps ≠ [] && !t.intrap &&
    match t.status with
    | .running => true
    | .parked _ => true
    | .free | .travelling _ | .travelQueued | .travelAbroad _ _ => false

/-- The oldest record that waits is delivered (R357): FREC and TVAL, and trap 0x14 at the next bundle; with no trap handler the
record counts in DROPPED, and the firing ends. -/
def State.deliverRecord (s : State) (tid : Nat) : State :=
  let t := s.thread tid
  match t.traps with
  | r :: rest =>
    let s := s.withdraw tid
    let s := s.setThread tid { t with traps := rest, status := .running, frec := r.words }
    let s := if (s.trapVector t.launchId).isNone then s.drop t.launchId 1 else s
    s.takeTrap tid 0x14 t.pc (r.words.getD 0 0)
  | [] => s

/-- ENGINE_FAULT_DELIVERY (R357). -/
def execEngineFaultDelivery (core ctx : Nat) : State → Host.Outcome State Fault Refusal :=
  event fun s => if (s.thread (tidOf core ctx)).mustDeliver then s.deliverRecord (tidOf core ctx) else s

end Sys2Proof.Machine
end

