-- ==== Sys2Proof/Machine/Object.lean ====
section
/-!
DEFINITION. OBJINV (spec/17_objects.md R242), and the travels of threads to port clusters and home again (R241, R243).
-/

namespace Sys2Proof.Machine

/-! ## OBJINV (R242) -/

/-- A range of pages of an object. -/
structure PageRange where
  obj   : Nat
  first : Nat
  count : Nat
  deriving DecidableEq, Repr

def PageRange.has (r : PageRange) (obj page : Nat) : Bool := obj = r.obj && r.first ≤ page && page < r.first + r.count

/-- A TLB entry covers a page of the range. -/
def PageRange.meets (r : PageRange) (e : TlbEntry) : Bool :=
  e.obj = r.obj && e.page < r.first + r.count && r.first < e.page + e.count

/-- The TLB entries of the module that a range meets. -/
def State.tlbMeets (s : State) (r : PageRange) : Nat := sumNat (s.tlb.map fun t => (t.2.filter r.meets).length)

/-- The context is parked absent on a page of the range. -/
def CtxState.absentIn (st : CtxState) (r : PageRange) : Option Word :=
  match st with
  | .parked p =>
    match p.why with
    | .absent obj page _ tval => if r.has obj page then some tval else none
    | .port _ | .engine _ | .fire _ _ | .bwait | .falign _ | .ldver _ _ _ | .stver _ | .cntw _ _ _ | .mwait _ | .waiti
    | .ship _ _ => none
  | .free | .running | .travelling _ | .travelQueued | .travelAbroad _ _ => none

/-- A context parked absent in the range wakes, or takes trap 0x08 with what R240 recorded, which moves nominal time past the bundle
(R42). -/
def State.wakeAbsent (s : State) (r : PageRange) (fail : Bool) (tid : Nat) : State :=
  let t := s.thread tid
  match t.status.absentIn r with
  | none => s
  | some tval =>
    if fail then
      match t.status with
      | .parked p => (s.setThread tid (t.passed p.bundle)).takeTrap tid 0x08 t.pc tval
      | .free | .running | .travelling _ | .travelQueued | .travelAbroad _ _ => s
    else s.setThread tid { t with status := .running }

/-- A context parked out while absent is marked alike. -/
def Saved.mark (v : Saved) (r : PageRange) (fail : Bool) : Saved :=
  match v.thread.status.absentIn r with
  | none => v
  | some _ => if fail then { v with fault := true } else { v with ready := true }

/-- A context's stores wait that were made through a translation of its core that a range removes, whatever page of the entry they went
to. -/
def State.uses (s : State) (r : PageRange) (tid : Nat) (t : Thread) : Bool :=
  let gone := (s.tlbOf (tid / 8)).filter r.meets
  t.stores.any fun q => r.has q.obj q.page || gone.any (·.covers q.obj q.page)

/-- The effect of OBJINV: translations and node-cache lines of the range go, with the redirect notices of its pages on their way; accesses
that used them are performed, held-back records are tried again (R373), and absent contexts wake or trap. -/
def State.invalidate (s : State) (r : PageRange) (fail : Bool) : State :=
  let users := s.threads.filter fun t => s.uses r t.1 t.2
  let s := { s with tlb := s.tlb.map fun (t : Nat × List TlbEntry) => (t.1, t.2.filter fun e => !r.meets e) }
  let s := s.forgetNodes r.obj r.first r.count
  let s := users.foldl (fun s t => s.drain t.1) s
  let s := { s with notices := s.notices.filter fun n => !r.meets n.entry }
  let s := s.unblock r.obj r.first r.count
  let s := s.threads.foldl (fun s t => s.wakeAbsent r fail t.1) s
  { s with saved := s.saved.map (·.mark r fail) }

/-- The range that the operands name (R242). -/
def rangeOf (whole : Bool) (a b : Word) : PageRange :=
  if whole then ⟨fieldW 31 0 a, 0, 2 ^ 40⟩ else ⟨fieldW 31 0 a, fieldW 39 0 b, fieldW 63 52 b + 1⟩

/-- OBJINV and OBJINVO (R242). -/
def execObjinv (whole : Bool) (d r : GReg) : State → Host.Outcome State Fault Refusal :=
  run do
    lawful (·.supIllegal)
    let t ← getTh
    let a := t.rg d
    let b := t.rg r
    if fieldW 63 32 a ≠ 0 then trapWhole 0x05 a
    if fieldW 50 40 b ≠ 0 || (whole && (fieldW 63 52 b ≠ 0 || fieldW 39 0 b ≠ 0)) then trapWhole 0x05 b
    drainMine
    let s ← get
    let pr := rangeOf whole a b
    let n := min 0xFFFF (s.tlbMeets pr)
    modify fun s => s.invalidate pr (bitW 51 b)
    writeI (.g d (BitVec.ofNat 64 n))
    advance

/-! ## Shipping (R241, R243) -/

/-- The lowest free context of cores 8 to 15 of a die's port cluster. -/
def State.portContext (s : State) (die : Nat) : Option Nat :=
  firstFrom (fun t => (s.thread t).status = .free) (tidOf (portCore die + 8) 0) 64

/-- A shipped record starts in a context, behind the stores that earlier firings left there; its own context is held travelling, and keeps
the fault records that wait for the thread's return (R357). -/
def State.arrive (s : State) (tid at_ : Nat) : State :=
  let t := s.thread tid
  let far :=
    { t with
      status := .running
      firing := t.firing.map fun (f : Firing) => { f with home := some tid }
      stores := (s.thread at_).stores
      traps := []
      mcx := (t.run.map mcxAt).getD t.mcx
      bundles := 1 }
  let own := { t with status := .travelling at_, held := [], pend := [], wg := [] }
  (s.setThread tid own).setThread at_ { far with wgGen := t.wgGen }

/-- SHIPPED_RECORD_ARRIVAL (R241): the oldest record of a port cluster's queue starts in a free context. -/
def execShippedRecordArrival (cluster : Nat) : State → Host.Outcome State Fault Refusal :=
  event fun s =>
    let die := cluster / 64
    match s.shipQueue die, s.portContext die with
    | tid :: rest, some at_ => { s with shipq := smPut s.shipq die rest }.arrive tid at_
    | _, _ => s

/-- SHIP_RECORD_RESEND (R241): a record that a full queue refused is sent again. -/
def execShipRecordResend (core ctx : Nat) : State → Host.Outcome State Fault Refusal :=
  event fun s =>
    let tid := tidOf core ctx
    let t := s.thread tid
    match t.status with
    | .parked p =>
      match p.why with
      | .ship die _ =>
        if (s.shipQueue die).length < 64 then s.joinShip tid die else s
      | .port _ | .engine _ | .fire _ _ | .bwait | .falign _ | .ldver _ _ _ | .stver _ | .cntw _ _ _ | .mwait _ | .waiti
      | .absent _ _ _ _ => s
    | .free | .running | .travelling _ | .travelQueued | .travelAbroad _ _ => s

/-- Instructions before which a shipped thread returns (R243). -/
def returnsFor : Instr → Bool
  | .enq _ _ _ | .enqn _ _ _ _ | .deq _ _ _ | .deqn _ _ _ _ | .qcnt _ _ | .qctl _ _ _ | .qctlDiscard _ _
  | .qctlDisarm _ _ | .qlh _ _ | .fire _ _ | .firen _ _ _ | .arrive _ _ _ | .arrb _ _ _ _ | .bwait _ _ | .bwaitn _ _ _
  | .falign => true
  | .mplane _ _ _ _ | .mma _ _ _ _ _ | .mmas _ _ _ _ _ | .mepi _ _ _ _ _ _ | .mepirp _ | .mzero _ | .mrel _
  | .mstat _ _ | .mstatc _ _ | .mwait _ | .copy _ _ | .cut _ _ _ _ _ | .cocut _ _ _ _ | .cresume _ _ | .cdrop _ _ => true
  | .trav _ _ | .dtrav _ | .pair _ _ _ | .wgres _ _ _ | .wgcom _ _ | .wgabn _ _ | .wgstat _ _ _ | .wgstatExtend _ _ _
  | .wgstatBind _ _ | .mom _ _ | .momd _ _ => true
  | _ => false

/-- The consecutive bundles without an access to a page with LOC 2 after which a shipped thread returns; `bundles` counts the one with
the last such access too. -/
def returnAfter : Nat := 256

/-- The context to which the thread of a context returns before a bundle, where it does (R243). -/
def Thread.returning (t : Thread) (i : Instr) : Option Nat :=
  match t.firing with
  | some f => if returnsFor i || t.bundles > returnAfter then f.home else none
  | none => none

/-- The thread of a context, whose next bundle is decoded, returns to its own context where R243 has it return, and that bundle executes
there. -/
def State.returnsNow (s : State) (at_ : Nat) (i : Instr) : State :=
  match (s.thread at_).status, (s.thread at_).returning i with
  | .running, some h => s.bringHome h at_ .running
  | _, _ => s

/-- THREAD_RETURN (R243): the thread that a context of a port cluster runs returns to its own after its run of bundles. Before a bundle that
has it return it does so as that bundle issues. -/
def execThreadReturn (core ctx : Nat) : State → Host.Outcome State Fault Refusal :=
  event fun s => s.returnsNow (tidOf core ctx) .nop

end Sys2Proof.Machine
end

