-- ==== Sys2Proof/Machine/Reads.lean ====
section
/-!
DEFINITION. The registers that each instruction reads, which decide when its bundle waits for an interlocked result and when
trap 0x03 finds an early read (spec/03_encoding.md R43 to R45).
-/

namespace Sys2Proof.Machine

/-- The m register that a mask operation writes. -/
def maskDest : MaskOp → List Reg
  | .mov d _ | .and d _ _ | .or d _ _ | .xor d _ _ | .andn d _ _ | .not d _ | .fromG d _ | .first d _ => [.m d]
  | .toG _ _ => []

/-- A governed destination in an m register. -/
def mmReads (d : List Reg) (vm : VM) : List Reg :=
  if vm.mask = 0 then [] else if vm.zero then [.m vm.mask] else .m vm.mask :: d

/-- The registers read. -/
def readsOf : Instr → List Reg
  | .ill _ _ | .nop => []
  | .mov _ s => [.g s]
  | .movCap _ s => [.c s]
  | .movi _ _ => []
  | .add _ x y | .sub _ x y | .and _ x y | .or _ x y | .xor _ x y | .mul _ x y | .biti _ _ x y | .bitd _ _ x y
  | .mulh _ _ x y | .div _ _ x y | .rem _ _ x y | .min _ _ x y | .max _ _ x y | .cmp _ _ _ x y | .fadd _ _ _ x y
  | .fsub _ _ _ x y | .fmul _ _ _ x y | .fdiv _ _ _ x y | .fmin _ _ x y | .fmax _ _ x y | .fcmp _ _ _ x y => [.g x, .g y]
  | .addi _ x _ | .cmpi _ _ x _ => [.g x]
  | .shl _ x y | .shr _ x y | .sar _ x y | .bfx _ x y => .g x :: opdReads y
  | .bfi d x y => .g d :: .g x :: opdReads y
  | .sel _ p x y => [.p p, .g x, .g y]
  | .ld _ _ a | .ldc _ a | .lda _ _ _ a => memReads a
  | .st _ s a | .strel _ _ s a | .stver s a | .reclaim s a => .g s :: memReads a
  | .stc s a => .c s :: memReads a
  | .cadd _ x y | .csetb _ x y | .cseta _ x y => .c x :: opdReads y
  | .b _ | .call _ | .ret => []
  | .bc p _ _ => [.p p]
  | .jmp a x | .jmpl a x | .jtab a x => [.c a, .g x]
  | .enq _ s _ | .enqn _ _ s _ => [.g s]
  | .deq _ _ _ | .deqn _ _ _ _ | .done => []
  | .clz _ s | .ctz _ s | .popc _ s | .fsqrt _ _ _ s | .fcvt _ _ _ s | .fcvtf _ _ _ s | .sext _ _ s | .zext _ _ s => [.g s]
  | .cgeta _ s | .cgeto _ s | .cgetl _ s | .cgetb _ s | .cgetf _ s => [.c s]
  | .cres _ x y | .cfmt _ x y => [.c x, .g y]
  | .ffma _ _ d x y => [.g d, .g x, .g y]
  | .vld d a m => memReads a ++ (if m = 0 then [] else [.m m, .v d])
  | .vst s a m => .v s :: (memReads a ++ maskReads m)
  | .vldx _ _ d base idx vm => .c base :: .v idx :: vmReads d vm
  | .vstx _ _ s base idx m => .v s :: .c base :: .v idx :: maskReads m
  | .vadd _ _ d x y vm | .vsub _ _ d x y vm | .vmul _ _ d x y vm | .vmin _ _ d x y vm | .vmax _ _ d x y vm
  | .vand d x y vm | .vor d x y vm | .vxor d x y vm | .vperm d x y vm | .vtwo _ _ _ d x y vm | .vbiti d x y vm =>
    .v x :: .v y :: vmReads d vm
  | .vfma _ _ d x y vm => .v d :: .v x :: .v y :: vmReads d vm
  | .vshl _ d x y m | .vshr _ _ d x y m => .v x :: (vopdReads y ++ vmReads d ⟨m, false⟩)
  | .vcmp _ _ d x y vm => .v x :: .v y :: mmReads [.m d] vm
  | .vsel _ x y m => .v x :: .v y :: maskReads m
  | .vbcast _ d s vm => .g s :: vmReads d vm
  | .vext _ _ s idx => .v s :: opdReads idx
  | .vins _ d s idx => .v d :: .g s :: opdReads idx
  | .vred _ _ _ _ s m => .v s :: maskReads m
  | .vscan _ _ _ d s vm | .vcvt _ _ _ d s vm | .vcomp _ d s vm | .vxpnd _ d s vm | .vclz _ d s vm | .vpopc _ d s vm =>
    .v s :: vmReads d vm
  | .vmask _ o vm => maskOpReads o ++ mmReads (maskDest o) vm
  | .qcnt _ _ | .qctlDiscard _ _ | .qctlDisarm _ _ => []
  | .qctl _ _ y | .qlh _ y | .wid _ y | .prio y => opdReads y
  | .fire d w | .firen _ d w => .g d :: gRun w 8
  | .arrive _ _ _ | .falign => []
  | .arrb _ _ _ n => [.g n]
  | .bwait s _ | .bwaitn _ s _ => [.g s]
  | .fence _ _ => []
  | .ldver d a | .ldvern _ d a | .amo _ _ _ d a => .g d :: memReads a
  | .cas _ _ _ d a n => [.g d, .c a, .g n]
  | .rget _ dst src n ctr | .rsend _ dst src n ctr | .rgetx _ dst src n ctr | .rsendx _ dst src n ctr
  | .rsig _ dst src n ctr => [.c dst, .c src, .g n, .c ctr]
  | .rarith _ _ _ dst src n => [.c dst, .c src, .g n]
  | .cntw d a | .cntwn _ d a => [.g d, .c a]
  | .cntrd _ a => [.c a]
  | .mplane _ dst src n => [.c dst, .c src, .g n]
  | .mma _ _ ca cb k | .mmas _ _ ca cb k => [.c ca, .c cb, .g k]
  | .mepi _ _ _ _ dst n => [.c dst, .g n]
  | .mepirp _ | .mzero _ | .mrel _ | .mstat _ _ | .mstatc _ _ | .mwait _ => []
  | .copy _ pb | .cresume _ pb | .cdrop _ pb => [.c pb]
  | .cut _ _ d dst src => [.g d, .c dst, .c src]
  | .cocut _ a dst src => gRun a 2 ++ [.c dst, .c src]
  | .trav h ray => [.c h, .c ray]
  | .dtrav pb => [.c pb]
  | .pair d pb stk => [.g d, .c pb, .c stk]
  | .wgres _ d q => [.g d, .c q]
  | .wgcom a r => .g r :: gRun a 4
  | .wgabn _ r => [.g r]
  | .wgstat _ q op => [.c q, .g op]
  | .wgstatExtend _ q _ | .wgstatBind _ q => [.c q]
  | .mom d pb | .momd d pb => [.g d, .c pb]
  | .trap _ | .brk _ | .srd _ _ => []
  | .swr s n => if sysIsCap n.val then [.c (Fin.ofNat 16 s.val)] else [.g s]
  | .mcall _ _ _ _ _ | .rep _ _ | .loopp _ _ | .eret => []
  | .objinv _ d r | .mwr d r | .close d r => [.g d, .g r]
  | .mrd d | .closeResume d | .closeCancel d => [.g d]
  | .launch d h ov => [.g d, .c h, .c ov]
  | .ctxsv d a | .ctxld d a => [.g d, .c a]
  | .waiti => []
  | _ => []

/-- The c register that a transfer's descriptor names: the index list's (R201), or a counter's (R206). -/
def namedReads (t : Thread) : Instr → List Reg
  | .rgetx _ _ _ n _ | .rsendx _ _ _ n _ => [.c (Fin.ofNat 16 (fieldW 14 11 (t.rg n)))]
  | .rarith _ _ _ _ _ n => [.c (Fin.ofNat 16 (fieldW 35 32 (t.rg n)))]
  | _ => []

/-- The registers that a thread's bundle reads: those of its operands, and the c register that the descriptor among them names. -/
def Thread.reads (t : Thread) (i : Instr) : List Reg := readsOf i ++ namedReads (t.settle (readsOf i)) i

end Sys2Proof.Machine
end

