-- ==== Sys2Proof/Machine/Issue.lean ====
section
/-!
DEFINITION. An instruction of Jaino executes as a bundle that is not fetched: a micro-operation of a pattern-book entry (R118), or
a parked bundle that executes again (R158). The events of the device are no bundles.
-/

namespace Sys2Proof.Machine

/-- The meaning of a bundle's instruction. -/
def issue (i : Instr) (s : State) : Host.Outcome State Fault Refusal :=
  match i with
  | .ill a b => execIll a b s
  | .nop => execNop s
  | .mov a b => execMov a b s
  | .movCap a b => execMovCap a b s
  | .movi a b => execMovi a b s
  | .add a b c => execAdd a b c s
  | .sub a b c => execSub a b c s
  | .addi a b c => execAddi a b c s
  | .and a b c => execAnd a b c s
  | .or a b c => execOr a b c s
  | .xor a b c => execXor a b c s
  | .shl a b c => execShl a b c s
  | .shr a b c => execShr a b c s
  | .sar a b c => execSar a b c s
  | .mul a b c => execMul a b c s
  | .cmp a b c d e => execCmp a b c d e s
  | .cmpi a b c d => execCmpi a b c d s
  | .sel a b c d => execSel a b c d s
  | .ld a b c => execLd a b c s
  | .st a b c => execSt a b c s
  | .ldc a b => execLdc a b s
  | .stc a b => execStc a b s
  | .cadd a b c => execCadd a b c s
  | .b a => execB a s
  | .bc a b c => execBc a b c s
  | .call a => execCall a s
  | .ret => execRet s
  | .jmp a b => execJmp a b s
  | .jmpl a b => execJmpl a b s
  | .jtab a b => execJtab a b s
  | .enq a b c => execEnq a b c s
  | .deq a b c => execDeq a b c s
  | .done => execDone s
  | .clz a b => execClz a b s
  | .ctz a b => execCtz a b s
  | .popc a b => execPopc a b s
  | .biti a b c d => execBiti a b c d s
  | .bitd a b c d => execBitd a b c d s
  | .bfx a b c => execBfx a b c s
  | .bfi a b c => execBfi a b c s
  | .mulh a b c d => execMulh a b c d s
  | .div a b c d => execDiv a b c d s
  | .rem a b c d => execRem a b c d s
  | .min a b c d => execMin a b c d s
  | .max a b c d => execMax a b c d s
  | .csetb a b c => execCsetb a b c s
  | .cseta a b c => execCseta a b c s
  | .cgeta a b => execCgeta a b s
  | .cgeto a b => execCgeto a b s
  | .cgetl a b => execCgetl a b s
  | .cgetb a b => execCgetb a b s
  | .cres a b c => execCres a b c s
  | .cfmt a b c => execCfmt a b c s
  | .cgetf a b => execCgetf a b s
  | .fadd a b c d e => execFadd a b c d e s
  | .fsub a b c d e => execFsub a b c d e s
  | .fmul a b c d e => execFmul a b c d e s
  | .ffma a b c d e => execFfma a b c d e s
  | .fdiv a b c d e => execFdiv a b c d e s
  | .fsqrt a b c d => execFsqrt a b c d s
  | .fmin a b c d => execFmin a b c d s
  | .fmax a b c d => execFmax a b c d s
  | .fcmp a b c d e => execFcmp a b c d e s
  | .fcvt a b c d => execFcvt a b c d s
  | .fcvtf a b c d => execFcvtf a b c d s
  | .sext a b c => execSext a b c s
  | .zext a b c => execZext a b c s
  | .vld a b c => execVld a b c s
  | .vst a b c => execVst a b c s
  | .vldx a b c d e f => execVldx a b c d e f s
  | .vstx a b c d e f => execVstx a b c d e f s
  | .vadd a b c d e f => execVadd a b c d e f s
  | .vsub a b c d e f => execVsub a b c d e f s
  | .vmul a b c d e f => execVmul a b c d e f s
  | .vfma a b c d e f => execVfma a b c d e f s
  | .vmin a b c d e f => execVmin a b c d e f s
  | .vmax a b c d e f => execVmax a b c d e f s
  | .vand a b c d => execVand a b c d s
  | .vor a b c d => execVor a b c d s
  | .vxor a b c d => execVxor a b c d s
  | .vshl a b c d e => execVshl a b c d e s
  | .vshr a b c d e f => execVshr a b c d e f s
  | .vcmp a b c d e f => execVcmp a b c d e f s
  | .vsel a b c d => execVsel a b c d s
  | .vbcast a b c d => execVbcast a b c d s
  | .vext a b c d => execVext a b c d s
  | .vins a b c d => execVins a b c d s
  | .vred a b c d e f => execVred a b c d e f s
  | .vscan a b c d e f => execVscan a b c d e f s
  | .vperm a b c d => execVperm a b c d s
  | .vcvt a b c d e f => execVcvt a b c d e f s
  | .vtwo a b c d e f g => execVtwo a b c d e f g s
  | .vcomp a b c d => execVcomp a b c d s
  | .vxpnd a b c d => execVxpnd a b c d s
  | .vbiti a b c d => execVbiti a b c d s
  | .vclz a b c d => execVclz a b c d s
  | .vpopc a b c d => execVpopc a b c d s
  | .vmask a b c => execVmask a b c s
  | .enqn a b c d => execEnqn a b c d s
  | .deqn a b c d => execDeqn a b c d s
  | .qcnt a b => execQcnt a b s
  | .qctl a b c => execQctl a b c s
  | .qctlDiscard a b => execQctlDiscard a b s
  | .qctlDisarm a b => execQctlDisarm a b s
  | .qlh a b => execQlh a b s
  | .fire a b => execFire a b s
  | .firen a b c => execFiren a b c s
  | .arrive a b c => execArrive a b c s
  | .arrb a b c d => execArrb a b c d s
  | .bwait a b => execBwait a b s
  | .bwaitn a b c => execBwaitn a b c s
  | .falign => execFalign s
  | .wid a b => execWid a b s
  | .prio a => execPrio a s
  | .fence a b => execFence a b s
  | .lda a b c d => execLda a b c d s
  | .strel a b c d => execStrel a b c d s
  | .ldver a b => execLdver a b s
  | .ldvern a b c => execLdvern a b c s
  | .stver a b => execStver a b s
  | .reclaim a b => execReclaim a b s
  | .amo a b c d e => execAmo a b c d e s
  | .cas a b c d e f => execCas a b c d e f s
  | .rget a b c d e => execRget a b c d e s
  | .rsend a b c d e => execRsend a b c d e s
  | .rgetx a b c d e => execRgetx a b c d e s
  | .rsendx a b c d e => execRsendx a b c d e s
  | .rsig a b c d e => execRsig a b c d e s
  | .rarith a b c d e f => execRarith a b c d e f s
  | .cntw a b => execCntw a b s
  | .cntwn a b c => execCntwn a b c s
  | .cntrd a b => execCntrd a b s
  | .mplane a b c d => execMplane a b c d s
  | .mma a b c d e => execMma a b c d e s
  | .mmas a b c d e => execMmas a b c d e s
  | .mepi a b c d e f => execMepi a b c d e f s
  | .mepirp a => execMepirp a s
  | .mzero a => execMzero a s
  | .mrel a => execMrel a s
  | .mstat a b => execMstat a b s
  | .mstatc a b => execMstatc a b s
  | .mwait a => execMwait a s
  | .copy a b => execCopy a b s
  | .cut a b c d e => execCut a b c d e s
  | .cocut a b c d => execCocut a b c d s
  | .cresume a b => execCresume a b s
  | .cdrop a b => execCdrop a b s
  | .trav a b => execTrav a b s
  | .dtrav a => execDtrav a s
  | .pair a b c => execPair a b c s
  | .wgres a b c => execWgres a b c s
  | .wgcom a b => execWgcom a b s
  | .wgabn a b => execWgabn a b s
  | .wgstat a b c => execWgstat a b c s
  | .wgstatExtend a b c => execWgstatExtend a b c s
  | .wgstatBind a b => execWgstatBind a b s
  | .mom a b => execMom a b s
  | .momd a b => execMomd a b s
  | .trap a => execTrap a s
  | .brk a => execBrk a s
  | .srd a b => execSrd a b s
  | .swr a b => execSwr a b s
  | .mcall a b c d e => execMcall a b c d e s
  | .rep a b => execRep a b s
  | .loopp a b => execLoopp a b s
  | .eret => execEret s
  | .objinv a b c => execObjinv a b c s
  | .mwr a b => execMwr a b s
  | .mrd a => execMrd a s
  | .launch a b c => execLaunch a b c s
  | .close a b => execClose a b s
  | .closeResume a => execCloseResume a s
  | .closeCancel a => execCloseCancel a s
  | .ctxsv a b => execCtxsv a b s
  | .ctxld a b => execCtxld a b s
  | .waiti => execWaiti s
  | .macroMicroOperation _ _ | .taskStart _ _ | .taskPriorityRaise _ _ | .parkedBundleWake _ _ | .parkOut _
  | .falignReleaseTimeout _ _ | .lightHandlerTask _ _ | .messageAccept _ _ | .ldverResend _ _
  | .stverBufferTimeout _ _ | .cntwResend _ _ | .firingRetire _ | .homeRequestApply _ _
  | .interlockedResultArrival _ _ | .waitiTimeout _ _ | .transferPacketApply _ _ | .transferComplete _
  | .routerCombine _ _ _ | .copyChunkLand _ _ | .copyComplete _ | .streamerMarkerDelivery _ | .matrixCommandStart _
  | .matrixChunk _ | .tileRelease _ _ | .matrixMarkerDelivery _ | .energyTokenRefill _ | .traversalCommandStart _
  | .traversalMarkerDelivery _ | .recordDispatch _ | .engineFaultDelivery _ _ | .shippedRecordArrival _
  | .shipRecordResend _ _ | .threadReturn _ _ | .migrationMoveComplete _ | .migrationWindowEnd _ | .redirectForward _
  | .redirectNotice _ | .redirectRetire _ | .hostMessageWrite _ _ | .hostMemoryAccess _ _ _ | .arcadePlacement _
  | .teamResidency _ | .interruptWindowExpiry _ | .closeTimerExpiry _ _ | .ringAdvance _ _ _ _
  | .fabricRegisterRead _ _ | .fabricRegisterWrite _ _ | .lgctlWrite _ _ | .heatWrite _ _ | .ringmapWrite _ _
  | .torusposWrite _ _ | .dieRegisterWrite _ _ _ | .poolPush _ _ _ | .spareTakeover _ _ | .spareTakeoverComplete _
  | .pwrbudWrite _ | .attestBodyWrite _ | .attestComplete | .correctedError _ _ | .uncorrectableError _ _ _
  | .fatalError _ _ _ | .bootReset _ | .memoryPortLinkChange _ _ | .tokenCapture _ _ | .tokenOwnerPass _
  | .torusHop _ _ | .flitReceive _ _ | .ackTimer _ | .ackReceive _ _ | .nakReceive _ _ | .autoWake _
  | .wakeFlitReceive _ _ | .readyReceive _ _ | .widthFlitReceive _ _ | .wakeBudgetExpiry _ | .ringMoveReady _
  | .ringMoveBudgetExpiry _ | .mpdSample _ _ | .cdrLock _ => .next s

end Sys2Proof.Machine
end

