-- ==== Sys2Proof/Machine/Macro.lean ====
section
/-!
DEFINITION. The micro-operations of pattern-book macros (spec/07_one_thread.md R118, R119, R124; spec/05_assembler.md R73), and
parked bundles that execute again when their event comes (spec/11_one_core.md R158, R168, R178; spec/13_many_cores.md R209).
-/

namespace Sys2Proof.Machine

/-! ## Pattern-book entries (R73) -/

/-- The operand forms of R34. -/
inductive Form where
  | a | ai | b | c | d | e | n
  deriving DecidableEq, Repr

/-- The form of a slot of the opcode map (R56). -/
def formOf (page op : Nat) : Form :=
  match page with
  | 0 =>
    if [0, 1, 25, 30].contains op then .n else if [3, 6, 15].contains op then .b
    else if [10, 11, 12, 17, 18, 19, 20, 21].contains op then .ai else if op = 16 then .d
    else if op = 22 || op = 24 then .c else if op = 23 then .e else .a
  | 1 => if [5, 6, 12, 13].contains op then .ai else .a
  | 2 => if [0, 1, 13, 14, 18, 19].contains op then .ai else .a
  | 3 => if [3, 4, 12, 13].contains op then .ai else .a
  | 4 => if op = 0 then .n else if op < 8 then .ai else .a
  | 5 => if op = 1 || op = 2 then .d else .a
  | 6 => .a
  | _ =>
    if [0, 1, 5, 6].contains op then .c else if op = 2 || op = 3 then .b else if op = 4 then .ai
    else if op = 7 || op = 14 then .n else .a

/-- The form has a field a. -/
def Form.hasA : Form → Bool
  | .a | .ai | .b | .d => true
  | .c | .e | .n => false

/-- The form has a field b. -/
def Form.hasB : Form → Bool
  | .a | .ai | .d => true
  | .b | .c | .e | .n => false

/-- The form has the further register of R39. -/
def Form.hasC : Form → Bool
  | .a | .ai | .b | .d => true
  | .c | .e | .n => false

/-- The form has an immediate (R37). -/
def Form.hasI : Form → Bool
  | .ai | .b | .c | .e => true
  | .a | .d | .n => false

/-- The width of the form's base field of an immediate (R37). -/
def Form.immBits : Form → Nat
  | .b | .e => 5
  | .c => 9
  | .a | .ai | .d | .n => 0

/-- R73 forbids the instruction in a macro. -/
def forbidden (page op : Nat) : Bool :=
  match page with
  | 0 => [22, 23, 24, 25, 26, 27, 30].contains op
  | 7 => [4, 5, 6, 8, 9, 10, 11, 12, 13, 14].contains op
  | _ => false

/-- Bits of a base word replaced by a value: `w` bits from bit `lo`. -/
def putBase (word lo w v : Nat) : Nat := word - word / 2 ^ lo % 2 ^ w * 2 ^ lo + v % 2 ^ w * 2 ^ lo

/-- A base word with the fields that an entry substitutes filled in (R118). -/
def fillBase (f : Form) (e : Word) (r : MacroRun) (base : Nat) : Nat :=
  let low := if f = .d then 3 else 4
  let x := if bitW 48 e then putBase base (if f = .d then 6 else 5) low r.a else base
  let y := if bitW 49 e then putBase x (if f = .d then 3 else 1) low r.b else x
  if bitW 51 e then putBase y 0 f.immBits r.i.toNat else y

/-- The payload of the implied PFX.R (R118): the bits of $a and $b above the base fields, and $c. -/
def impliedR (f : Form) (e : Word) (r : MacroRun) : Nat :=
  let low := if f = .d then 8 else 16
  (if bitW 48 e then r.a / low % 4 * 128 else 0) + (if bitW 49 e then r.b / low % 4 * 32 else 0) +
    (if bitW 50 e then r.c % 32 else 0)

/-- The immediate $i as composed bits: eight payloads above a base field of `w` bits (R37, R118). -/
def immWords (w : Nat) (v : Word) : List IWord :=
  (List.range 8).map fun j => preWord 0 ((v.toInt / 2 ^ (w + 9 * (7 - j)) % 512).toNat)

/-- The bundle as which an entry executes (R118); none where the entry takes trap 0x12 for what R119 lists, but for what
makes the bundle itself illegal. -/
def microRaw (e : Word) (r : MacroRun) : Option Raw :=
  let base := fieldW 15 0 e
  let pw := BitVec.ofNat 16 (fieldW 31 16 e)
  let mw := BitVec.ofNat 16 (fieldW 47 32 e)
  let page := if pw = 0 then 0 else payOf pw / 64
  let op := base / 512 % 32
  let f := formOf page op
  if pw ≠ 0 && !(opOf pw = 31 && kindOf pw = 2) then none
  else if mw ≠ 0 && !(opOf mw = 31 && kindOf mw = 3) then none
  else if fieldW 63 52 e ≠ 0 then none
  else if op = 31 || forbidden page op then none
  else if (bitW 48 e && !f.hasA) || (bitW 49 e && !f.hasB) || (bitW 50 e && !f.hasC) || (bitW 51 e && !f.hasI) then none
  else if f = .d && ((bitW 48 e && r.a ≥ 32) || (bitW 49 e && r.b ≥ 32)) then none
  else
    let rs := if bitW 48 e || bitW 49 e || bitW 50 e then [preWord 1 (impliedR f e r)] else []
    some ⟨(if bitW 51 e then immWords f.immBits r.i else []) ++ (if pw = 0 then [] else [pw]) ++ rs ++
      (if mw = 0 then [] else [mw]), BitVec.ofNat 16 (fillBase f e r base)⟩

/-- The instruction, the stall count and the base word of an entry; none where the entry takes trap 0x12 (R119). DESIGN CHOICE: an entry
of form Ai with m = 0 is filled and decoded as its words stand, so that SUBI of I there takes trap 0x12 (log 29). -/
def microDecode (e : Word) (r : MacroRun) : Option (Instr × Nat × IWord) :=
  match microRaw e r with
  | none => none
  | some x =>
    if x.isIll then none
    else
      match decodeBundle x with
      | .ok i => some (i, x.stall, x.base)
      | .error _ => none

/-! ## A bundle before it executes (R45, R53, R54) -/

/-- A trap of the bundle in `cur` before it executes. -/
def State.trapsAt (s : State) (cause : Nat) (tval : Word) : State := s.stopped (.trap cause tval)

/-- The early read of R45, where the thread checks stall counts. -/
def Thread.earlyTrap (t : Thread) (reads : List Reg) : Option Word :=
  if t.scbchk then earlyTval ((t.settle reads).early reads) else none

/-- The executing thread with the results that its bundle reads (R43, R44). -/
def State.settled (s : State) (i : Instr) : State := s.setTh (s.th.settle (s.th.reads i))

/-- The micro-breakpoint of the thread's cluster matches a micro-operation (R359). -/
def State.mbpHit (s : State) (core : Nat) (t : Thread) (r : MacroRun) : Bool :=
  let m := smGet 0 (s.die (coreDie core)).mbp (core % 1024 / 16)
  t.bpen && !t.noBreak && bitW 15 m && fieldW 11 7 m = r.idx && fieldW 6 0 m = r.num

/-- The stall count of an entry's own words (R41, R118). -/
def microStall (e : Word) : Nat :=
  let pw := BitVec.ofNat 16 (fieldW 31 16 e)
  (if opOf pw = 31 && kindOf pw = 2 then payOf pw % 64 else 0) * 4 + fieldW 15 14 e

/-- A micro-operation issues (R118, R119), once a thread that is away has returned for it (R243): trap 0x12, trap 0x13, the micro-breakpoint, trap 0x03, then its own effect. -/
def State.micro (s : State) (r : MacroRun) : Host.Outcome State Fault Refusal :=
  let e := s.bookEntry (coreCluster s.cur.core) r.num r.idx
  let at_ : Cur := { s.cur with stall := microStall e, words := r.words, base := 0, micro := true, carried := none, since := none }
  match microDecode e r with
  | none => .next ({ s with cur := at_ }.trapsAt 0x12 e)
  | some (i, stall, base) =>
    let s := { s with cur := { at_ with stall := stall, base := base, instr := i } }
    if (s.th.returning i).isSome then .next (s.returnsNow s.cur.tid i)
    else
    match s.legal i with
    | some (cause, tval) => .next (s.trapsAt (if cause = 0x01 then 0x12 else cause) (if cause = 0x01 then e else tval))
    | none =>
      let t := s.th
      if s.mbpHit s.cur.core t r then .next (s.trapsAt 0x10 (tvalBreak 2 0 (t.pc + r.idx)))
      else
        match t.earlyTrap (t.reads i) with
        | some tval => .next (s.trapsAt 0x03 tval)
        | none =>
          match issue i (s.settled i) with
          | .next s' => .next (s'.macroNext s.cur.tid)
          | .fault f => .fault f
          | .refused q => .refused q

/-- MACRO_MICRO_OPERATION (R118): the next entry of the macro that a running context executes. -/
def execMacroMicroOperation (core ctx : Nat) (s : State) : Host.Outcome State Fault Refusal :=
  let s := { s with cur := { s.cur with core := core, ctx := ctx } }
  match s.th.status, s.th.run with
  | .running, some r => s.micro r
  | _, _ => .next s

/-! ## Parked bundles (R158) -/

/-- A parked bundle executes again in its context, with the value that its wake carries and its place among the bundles that
parked; where its event has not come after all, it stays as it was. -/
def State.rerun (s : State) (tid : Nat) (p : Park) : Host.Outcome State Fault Refusal :=
  let old := s.cur
  let s' := { s with cur := { p.bundle with carried := p.woken, since := some p.order } }
  match issue p.bundle.instr (s'.setThread tid { s.thread tid with status := .running }) with
  | .next t => .next { t.macroNext tid with cur := old }
  | .fault f => .fault f
  | .refused q => .refused q

/-- An earlier bundle of the core waits for the same port or command queue, and its event has come too (R158). -/
def State.parkedBefore (s : State) (tid : Nat) (p : Park) : Bool :=
  s.threads.any fun t =>
    t.1 ≠ tid && t.1 / 8 = tid / 8 &&
      match t.2.status with
      | .parked q =>
        p.why.queue?.isSome && q.why.queue? = p.why.queue? && q.order < p.order && s.parkReady t.2 (t.1 / 8) q
      | .free | .running | .travelling _ | .travelQueued | .travelAbroad _ _ => false

/-- Every other context of a waiter's team on its core is parked, or free (R173). -/
def State.gathered (s : State) (tid : Nat) : Bool :=
  let t := s.thread tid
  (List.range 8).all fun k =>
    let u := s.thread (tidOf (tid / 8) k)
    u.firing.isNone || u.launchId ≠ t.launchId || u.teamNo ≠ t.teamNo || u.status.isParked

/-- The event that a context's parked bundle waits for has reached its core (R158): an acceptance, a resent test, OBJINV and a
record's resending are steps of their own. -/
def State.canWake (s : State) (tid : Nat) (p : Park) : Bool :=
  match p.why with
  | .port _ | .engine _ => s.parkReady (s.thread tid) (tid / 8) p && !s.parkedBefore tid p
  | .bwait | .mwait _ | .waiti => s.parkReady (s.thread tid) (tid / 8) p
  | .stver a => s.parkReady (s.thread tid) (tid / 8) p && !s.stverBefore tid a p.order
  | .falign _ => s.gathered tid
  | .ldver a _ _ | .cntw a _ _ => p.woken.isSome || isForeign a
  | .fire _ _ | .absent _ _ _ _ | .ship _ _ => false

/-- PARKED_BUNDLE_WAKE (R158): the parked bundle completes with the effect of its entry. -/
def execParkedBundleWake (core ctx : Nat) (s : State) : Host.Outcome State Fault Refusal :=
  let tid := tidOf core ctx
  let t := s.thread tid
  match t.status with
  | .parked p =>
    if s.canWake tid p then
      match p.why with
      | .falign x => .next (s.releaseAligned core t.launchId t.teamNo x)
      | .waiti => .next (s.completeParked tid)
      | _ => s.rerun tid p
    else .next s
  | _ => .next s

/-- A parked bundle of a kind executes again. -/
def State.resend (s : State) (tid : Nat) (kind : ParkWhy → Bool) : Host.Outcome State Fault Refusal :=
  match (s.thread tid).status with
  | .parked p => if kind p.why then s.rerun tid p else .next s
  | _ => .next s

/-- A FIRE waits. -/
def ParkWhy.isFire : ParkWhy → Bool
  | .fire _ _ => true
  | _ => false

/-- An LDVER waits outside its home's wait table. -/
def ParkWhy.isLdver : ParkWhy → Bool
  | .ldver _ _ entered => !entered
  | _ => false

/-- A CNTW waits outside its home's wait table. -/
def ParkWhy.isCntw : ParkWhy → Bool
  | .cntw _ _ entered => !entered
  | _ => false

/-- MESSAGE_ACCEPT (R168): the message of a parked FIRE takes a place in its destination's queue. -/
def execMessageAccept (core ctx : Nat) (s : State) : Host.Outcome State Fault Refusal :=
  s.resend (tidOf core ctx) ParkWhy.isFire

/-- LDVER_RESEND (R178): an LDVER that a full wait table did not take tests again. -/
def execLdverResend (core ctx : Nat) (s : State) : Host.Outcome State Fault Refusal :=
  s.resend (tidOf core ctx) ParkWhy.isLdver

/-- CNTW_RESEND (R209): a CNTW that a full wait table did not take tests again. -/
def execCntwResend (core ctx : Nat) (s : State) : Host.Outcome State Fault Refusal :=
  s.resend (tidOf core ctx) ParkWhy.isCntw

end Sys2Proof.Machine
end

