-- ==== Sys2Proof/Machine/Dispatch.lean ====
section
/-!
DEFINITION. The meaning of every instruction and event: one arm for each constructor of Instr.
-/

namespace Sys2Proof.Machine

def exec (i : Instr) (s : State) : Host.Outcome State Fault Refusal :=
  match i with
  | .ill a b => Sys2Proof.Machine.execIll a b s
  | .nop => Sys2Proof.Machine.execNop s
  | .mov a b => Sys2Proof.Machine.execMov a b s
  | .movCap a b => Sys2Proof.Machine.execMovCap a b s
  | .movi a b => Sys2Proof.Machine.execMovi a b s
  | .add a b c => Sys2Proof.Machine.execAdd a b c s
  | .sub a b c => Sys2Proof.Machine.execSub a b c s
  | .addi a b c => Sys2Proof.Machine.execAddi a b c s
  | .and a b c => Sys2Proof.Machine.execAnd a b c s
  | .or a b c => Sys2Proof.Machine.execOr a b c s
  | .xor a b c => Sys2Proof.Machine.execXor a b c s
  | .shl a b c => Sys2Proof.Machine.execShl a b c s
  | .shr a b c => Sys2Proof.Machine.execShr a b c s
  | .sar a b c => Sys2Proof.Machine.execSar a b c s
  | .mul a b c => Sys2Proof.Machine.execMul a b c s
  | .cmp a b c d e => Sys2Proof.Machine.execCmp a b c d e s
  | .cmpi a b c d => Sys2Proof.Machine.execCmpi a b c d s
  | .sel a b c d => Sys2Proof.Machine.execSel a b c d s
  | .ld a b c => Sys2Proof.Machine.execLd a b c s
  | .st a b c => Sys2Proof.Machine.execSt a b c s
  | .ldc a b => Sys2Proof.Machine.execLdc a b s
  | .stc a b => Sys2Proof.Machine.execStc a b s
  | .cadd a b c => Sys2Proof.Machine.execCadd a b c s
  | .b a => Sys2Proof.Machine.execB a s
  | .bc a b c => Sys2Proof.Machine.execBc a b c s
  | .call a => Sys2Proof.Machine.execCall a s
  | .ret => Sys2Proof.Machine.execRet s
  | .jmp a b => Sys2Proof.Machine.execJmp a b s
  | .jmpl a b => Sys2Proof.Machine.execJmpl a b s
  | .jtab a b => Sys2Proof.Machine.execJtab a b s
  | .enq a b c => Sys2Proof.Machine.execEnq a b c s
  | .deq a b c => Sys2Proof.Machine.execDeq a b c s
  | .done => Sys2Proof.Machine.execDone s
  | .clz a b => Sys2Proof.Machine.execClz a b s
  | .ctz a b => Sys2Proof.Machine.execCtz a b s
  | .popc a b => Sys2Proof.Machine.execPopc a b s
  | .biti a b c d => Sys2Proof.Machine.execBiti a b c d s
  | .bitd a b c d => Sys2Proof.Machine.execBitd a b c d s
  | .bfx a b c => Sys2Proof.Machine.execBfx a b c s
  | .bfi a b c => Sys2Proof.Machine.execBfi a b c s
  | .mulh a b c d => Sys2Proof.Machine.execMulh a b c d s
  | .div a b c d => Sys2Proof.Machine.execDiv a b c d s
  | .rem a b c d => Sys2Proof.Machine.execRem a b c d s
  | .min a b c d => Sys2Proof.Machine.execMin a b c d s
  | .max a b c d => Sys2Proof.Machine.execMax a b c d s
  | .csetb a b c => Sys2Proof.Machine.execCsetb a b c s
  | .cseta a b c => Sys2Proof.Machine.execCseta a b c s
  | .cgeta a b => Sys2Proof.Machine.execCgeta a b s
  | .cgeto a b => Sys2Proof.Machine.execCgeto a b s
  | .cgetl a b => Sys2Proof.Machine.execCgetl a b s
  | .cgetb a b => Sys2Proof.Machine.execCgetb a b s
  | .cres a b c => Sys2Proof.Machine.execCres a b c s
  | .cfmt a b c => Sys2Proof.Machine.execCfmt a b c s
  | .cgetf a b => Sys2Proof.Machine.execCgetf a b s
  | .fadd a b c d e => Sys2Proof.Machine.execFadd a b c d e s
  | .fsub a b c d e => Sys2Proof.Machine.execFsub a b c d e s
  | .fmul a b c d e => Sys2Proof.Machine.execFmul a b c d e s
  | .ffma a b c d e => Sys2Proof.Machine.execFfma a b c d e s
  | .fdiv a b c d e => Sys2Proof.Machine.execFdiv a b c d e s
  | .fsqrt a b c d => Sys2Proof.Machine.execFsqrt a b c d s
  | .fmin a b c d => Sys2Proof.Machine.execFmin a b c d s
  | .fmax a b c d => Sys2Proof.Machine.execFmax a b c d s
  | .fcmp a b c d e => Sys2Proof.Machine.execFcmp a b c d e s
  | .fcvt a b c d => Sys2Proof.Machine.execFcvt a b c d s
  | .fcvtf a b c d => Sys2Proof.Machine.execFcvtf a b c d s
  | .sext a b c => Sys2Proof.Machine.execSext a b c s
  | .zext a b c => Sys2Proof.Machine.execZext a b c s
  | .vld a b c => Sys2Proof.Machine.execVld a b c s
  | .vst a b c => Sys2Proof.Machine.execVst a b c s
  | .vldx a b c d e f => Sys2Proof.Machine.execVldx a b c d e f s
  | .vstx a b c d e f => Sys2Proof.Machine.execVstx a b c d e f s
  | .vadd a b c d e f => Sys2Proof.Machine.execVadd a b c d e f s
  | .vsub a b c d e f => Sys2Proof.Machine.execVsub a b c d e f s
  | .vmul a b c d e f => Sys2Proof.Machine.execVmul a b c d e f s
  | .vfma a b c d e f => Sys2Proof.Machine.execVfma a b c d e f s
  | .vmin a b c d e f => Sys2Proof.Machine.execVmin a b c d e f s
  | .vmax a b c d e f => Sys2Proof.Machine.execVmax a b c d e f s
  | .vand a b c d => Sys2Proof.Machine.execVand a b c d s
  | .vor a b c d => Sys2Proof.Machine.execVor a b c d s
  | .vxor a b c d => Sys2Proof.Machine.execVxor a b c d s
  | .vshl a b c d e => Sys2Proof.Machine.execVshl a b c d e s
  | .vshr a b c d e f => Sys2Proof.Machine.execVshr a b c d e f s
  | .vcmp a b c d e f => Sys2Proof.Machine.execVcmp a b c d e f s
  | .vsel a b c d => Sys2Proof.Machine.execVsel a b c d s
  | .vbcast a b c d => Sys2Proof.Machine.execVbcast a b c d s
  | .vext a b c d => Sys2Proof.Machine.execVext a b c d s
  | .vins a b c d => Sys2Proof.Machine.execVins a b c d s
  | .vred a b c d e f => Sys2Proof.Machine.execVred a b c d e f s
  | .vscan a b c d e f => Sys2Proof.Machine.execVscan a b c d e f s
  | .vperm a b c d => Sys2Proof.Machine.execVperm a b c d s
  | .vcvt a b c d e f => Sys2Proof.Machine.execVcvt a b c d e f s
  | .vtwo a b c d e f g => Sys2Proof.Machine.execVtwo a b c d e f g s
  | .vcomp a b c d => Sys2Proof.Machine.execVcomp a b c d s
  | .vxpnd a b c d => Sys2Proof.Machine.execVxpnd a b c d s
  | .vbiti a b c d => Sys2Proof.Machine.execVbiti a b c d s
  | .vclz a b c d => Sys2Proof.Machine.execVclz a b c d s
  | .vpopc a b c d => Sys2Proof.Machine.execVpopc a b c d s
  | .vmask a b c => Sys2Proof.Machine.execVmask a b c s
  | .enqn a b c d => Sys2Proof.Machine.execEnqn a b c d s
  | .deqn a b c d => Sys2Proof.Machine.execDeqn a b c d s
  | .qcnt a b => Sys2Proof.Machine.execQcnt a b s
  | .qctl a b c => Sys2Proof.Machine.execQctl a b c s
  | .qctlDiscard a b => Sys2Proof.Machine.execQctlDiscard a b s
  | .qctlDisarm a b => Sys2Proof.Machine.execQctlDisarm a b s
  | .qlh a b => Sys2Proof.Machine.execQlh a b s
  | .fire a b => Sys2Proof.Machine.execFire a b s
  | .firen a b c => Sys2Proof.Machine.execFiren a b c s
  | .arrive a b c => Sys2Proof.Machine.execArrive a b c s
  | .arrb a b c d => Sys2Proof.Machine.execArrb a b c d s
  | .bwait a b => Sys2Proof.Machine.execBwait a b s
  | .bwaitn a b c => Sys2Proof.Machine.execBwaitn a b c s
  | .falign => Sys2Proof.Machine.execFalign s
  | .wid a b => Sys2Proof.Machine.execWid a b s
  | .prio a => Sys2Proof.Machine.execPrio a s
  | .fence a b => Sys2Proof.Machine.execFence a b s
  | .lda a b c d => Sys2Proof.Machine.execLda a b c d s
  | .strel a b c d => Sys2Proof.Machine.execStrel a b c d s
  | .ldver a b => Sys2Proof.Machine.execLdver a b s
  | .ldvern a b c => Sys2Proof.Machine.execLdvern a b c s
  | .stver a b => Sys2Proof.Machine.execStver a b s
  | .reclaim a b => Sys2Proof.Machine.execReclaim a b s
  | .amo a b c d e => Sys2Proof.Machine.execAmo a b c d e s
  | .cas a b c d e f => Sys2Proof.Machine.execCas a b c d e f s
  | .rget a b c d e => Sys2Proof.Machine.execRget a b c d e s
  | .rsend a b c d e => Sys2Proof.Machine.execRsend a b c d e s
  | .rgetx a b c d e => Sys2Proof.Machine.execRgetx a b c d e s
  | .rsendx a b c d e => Sys2Proof.Machine.execRsendx a b c d e s
  | .rsig a b c d e => Sys2Proof.Machine.execRsig a b c d e s
  | .rarith a b c d e f => Sys2Proof.Machine.execRarith a b c d e f s
  | .cntw a b => Sys2Proof.Machine.execCntw a b s
  | .cntwn a b c => Sys2Proof.Machine.execCntwn a b c s
  | .cntrd a b => Sys2Proof.Machine.execCntrd a b s
  | .mplane a b c d => Sys2Proof.Machine.execMplane a b c d s
  | .mma a b c d e => Sys2Proof.Machine.execMma a b c d e s
  | .mmas a b c d e => Sys2Proof.Machine.execMmas a b c d e s
  | .mepi a b c d e f => Sys2Proof.Machine.execMepi a b c d e f s
  | .mepirp a => Sys2Proof.Machine.execMepirp a s
  | .mzero a => Sys2Proof.Machine.execMzero a s
  | .mrel a => Sys2Proof.Machine.execMrel a s
  | .mstat a b => Sys2Proof.Machine.execMstat a b s
  | .mstatc a b => Sys2Proof.Machine.execMstatc a b s
  | .mwait a => Sys2Proof.Machine.execMwait a s
  | .copy a b => Sys2Proof.Machine.execCopy a b s
  | .cut a b c d e => Sys2Proof.Machine.execCut a b c d e s
  | .cocut a b c d => Sys2Proof.Machine.execCocut a b c d s
  | .cresume a b => Sys2Proof.Machine.execCresume a b s
  | .cdrop a b => Sys2Proof.Machine.execCdrop a b s
  | .trav a b => Sys2Proof.Machine.execTrav a b s
  | .dtrav a => Sys2Proof.Machine.execDtrav a s
  | .pair a b c => Sys2Proof.Machine.execPair a b c s
  | .wgres a b c => Sys2Proof.Machine.execWgres a b c s
  | .wgcom a b => Sys2Proof.Machine.execWgcom a b s
  | .wgabn a b => Sys2Proof.Machine.execWgabn a b s
  | .wgstat a b c => Sys2Proof.Machine.execWgstat a b c s
  | .wgstatExtend a b c => Sys2Proof.Machine.execWgstatExtend a b c s
  | .wgstatBind a b => Sys2Proof.Machine.execWgstatBind a b s
  | .mom a b => Sys2Proof.Machine.execMom a b s
  | .momd a b => Sys2Proof.Machine.execMomd a b s
  | .trap a => Sys2Proof.Machine.execTrap a s
  | .brk a => Sys2Proof.Machine.execBrk a s
  | .srd a b => Sys2Proof.Machine.execSrd a b s
  | .swr a b => Sys2Proof.Machine.execSwr a b s
  | .mcall a b c d e => Sys2Proof.Machine.execMcall a b c d e s
  | .rep a b => Sys2Proof.Machine.execRep a b s
  | .loopp a b => Sys2Proof.Machine.execLoopp a b s
  | .eret => Sys2Proof.Machine.execEret s
  | .objinv a b c => Sys2Proof.Machine.execObjinv a b c s
  | .mwr a b => Sys2Proof.Machine.execMwr a b s
  | .mrd a => Sys2Proof.Machine.execMrd a s
  | .launch a b c => Sys2Proof.Machine.execLaunch a b c s
  | .close a b => Sys2Proof.Machine.execClose a b s
  | .closeResume a => Sys2Proof.Machine.execCloseResume a s
  | .closeCancel a => Sys2Proof.Machine.execCloseCancel a s
  | .ctxsv a b => Sys2Proof.Machine.execCtxsv a b s
  | .ctxld a b => Sys2Proof.Machine.execCtxld a b s
  | .waiti => Sys2Proof.Machine.execWaiti s
  | .macroMicroOperation a b => Sys2Proof.Machine.execMacroMicroOperation a b s
  | .taskStart a b => Sys2Proof.Machine.execTaskStart a b s
  | .taskPriorityRaise a b => Sys2Proof.Machine.execTaskPriorityRaise a b s
  | .parkedBundleWake a b => Sys2Proof.Machine.execParkedBundleWake a b s
  | .parkOut a => Sys2Proof.Machine.execParkOut a s
  | .falignReleaseTimeout a b => Sys2Proof.Machine.execFalignReleaseTimeout a b s
  | .lightHandlerTask a b => Sys2Proof.Machine.execLightHandlerTask a b s
  | .messageAccept a b => Sys2Proof.Machine.execMessageAccept a b s
  | .ldverResend a b => Sys2Proof.Machine.execLdverResend a b s
  | .stverBufferTimeout a b => Sys2Proof.Machine.execStverBufferTimeout a b s
  | .cntwResend a b => Sys2Proof.Machine.execCntwResend a b s
  | .firingRetire a => Sys2Proof.Machine.execFiringRetire a s
  | .homeRequestApply a b => Sys2Proof.Machine.execHomeRequestApply a b s
  | .interlockedResultArrival a b => Sys2Proof.Machine.execInterlockedResultArrival a b s
  | .waitiTimeout a b => Sys2Proof.Machine.execWaitiTimeout a b s
  | .transferPacketApply a b => Sys2Proof.Machine.execTransferPacketApply a b s
  | .transferComplete a => Sys2Proof.Machine.execTransferComplete a s
  | .routerCombine a b c => Sys2Proof.Machine.execRouterCombine a b c s
  | .copyChunkLand a b => Sys2Proof.Machine.execCopyChunkLand a b s
  | .copyComplete a => Sys2Proof.Machine.execCopyComplete a s
  | .streamerMarkerDelivery a => Sys2Proof.Machine.execStreamerMarkerDelivery a s
  | .matrixCommandStart a => Sys2Proof.Machine.execMatrixCommandStart a s
  | .matrixChunk a => Sys2Proof.Machine.execMatrixChunk a s
  | .tileRelease a b => Sys2Proof.Machine.execTileRelease a b s
  | .matrixMarkerDelivery a => Sys2Proof.Machine.execMatrixMarkerDelivery a s
  | .energyTokenRefill a => Sys2Proof.Machine.execEnergyTokenRefill a s
  | .traversalCommandStart a => Sys2Proof.Machine.execTraversalCommandStart a s
  | .traversalMarkerDelivery a => Sys2Proof.Machine.execTraversalMarkerDelivery a s
  | .recordDispatch a => Sys2Proof.Machine.execRecordDispatch a s
  | .engineFaultDelivery a b => Sys2Proof.Machine.execEngineFaultDelivery a b s
  | .shippedRecordArrival a => Sys2Proof.Machine.execShippedRecordArrival a s
  | .shipRecordResend a b => Sys2Proof.Machine.execShipRecordResend a b s
  | .threadReturn a b => Sys2Proof.Machine.execThreadReturn a b s
  | .migrationMoveComplete a => Sys2Proof.Machine.execMigrationMoveComplete a s
  | .migrationWindowEnd a => Sys2Proof.Machine.execMigrationWindowEnd a s
  | .redirectForward a => Sys2Proof.Machine.execRedirectForward a s
  | .redirectNotice a => Sys2Proof.Machine.execRedirectNotice a s
  | .redirectRetire a => Sys2Proof.Machine.execRedirectRetire a s
  | .hostMessageWrite a b => Sys2Proof.Machine.execHostMessageWrite a b s
  | .hostMemoryAccess a b c => Sys2Proof.Machine.execHostMemoryAccess a b c s
  | .arcadePlacement a => Sys2Proof.Machine.execArcadePlacement a s
  | .teamResidency a => Sys2Proof.Machine.execTeamResidency a s
  | .interruptWindowExpiry a => Sys2Proof.Machine.execInterruptWindowExpiry a s
  | .closeTimerExpiry a b => Sys2Proof.Machine.execCloseTimerExpiry a b s
  | .ringAdvance a b c d => Sys2Proof.Machine.execRingAdvance a b c d s
  | .fabricRegisterRead a b => Sys2Proof.Machine.execFabricRegisterRead a b s
  | .fabricRegisterWrite a b => Sys2Proof.Machine.execFabricRegisterWrite a b s
  | .lgctlWrite a b => Sys2Proof.Machine.execLgctlWrite a b s
  | .heatWrite a b => Sys2Proof.Machine.execHeatWrite a b s
  | .ringmapWrite a b => Sys2Proof.Machine.execRingmapWrite a b s
  | .torusposWrite a b => Sys2Proof.Machine.execTorusposWrite a b s
  | .dieRegisterWrite a b c => Sys2Proof.Machine.execDieRegisterWrite a b c s
  | .poolPush a b c => Sys2Proof.Machine.execPoolPush a b c s
  | .spareTakeover a b => Sys2Proof.Machine.execSpareTakeover a b s
  | .spareTakeoverComplete a => Sys2Proof.Machine.execSpareTakeoverComplete a s
  | .pwrbudWrite a => Sys2Proof.Machine.execPwrbudWrite a s
  | .attestBodyWrite a => Sys2Proof.Machine.execAttestBodyWrite a s
  | .attestComplete => Sys2Proof.Machine.execAttestComplete s
  | .correctedError a b => Sys2Proof.Machine.execCorrectedError a b s
  | .uncorrectableError a b c => Sys2Proof.Machine.execUncorrectableError a b c s
  | .fatalError a b c => Sys2Proof.Machine.execFatalError a b c s
  | .bootReset a => Sys2Proof.Machine.execBootReset a s
  | .memoryPortLinkChange a b => Sys2Proof.Machine.execMemoryPortLinkChange a b s
  | .tokenCapture a b => Sys2Proof.Machine.execTokenCapture a b s
  | .tokenOwnerPass a => Sys2Proof.Machine.execTokenOwnerPass a s
  | .torusHop a b => Sys2Proof.Machine.execTorusHop a b s
  | .flitReceive a b => Sys2Proof.Machine.execFlitReceive a b s
  | .ackTimer a => Sys2Proof.Machine.execAckTimer a s
  | .ackReceive a b => Sys2Proof.Machine.execAckReceive a b s
  | .nakReceive a b => Sys2Proof.Machine.execNakReceive a b s
  | .autoWake a => Sys2Proof.Machine.execAutoWake a s
  | .wakeFlitReceive a b => Sys2Proof.Machine.execWakeFlitReceive a b s
  | .readyReceive a b => Sys2Proof.Machine.execReadyReceive a b s
  | .widthFlitReceive a b => Sys2Proof.Machine.execWidthFlitReceive a b s
  | .wakeBudgetExpiry a => Sys2Proof.Machine.execWakeBudgetExpiry a s
  | .ringMoveReady a => Sys2Proof.Machine.execRingMoveReady a s
  | .ringMoveBudgetExpiry a => Sys2Proof.Machine.execRingMoveBudgetExpiry a s
  | .mpdSample a b => Sys2Proof.Machine.execMpdSample a b s
  | .cdrLock a => Sys2Proof.Machine.execCdrLock a s

end Sys2Proof.Machine
end

