-- ==== Sys2Proof/Machine/Fetch.lean ====
section
/-!
DEFINITION. Fetching a bundle's words through PCC (spec/07_one_thread.md R82, R122; spec/13_many_cores.md R182, R183), and what a
bundle meets before it executes, in the order of R54 (spec/03_encoding.md R33, R36, R45, R52 to R55; spec/27_launch.md R359).
-/

namespace Sys2Proof.Machine

/-! ## Words of code -/

/-- The address of word `i` of the thread's bundle: words are fetched from 16-bit aligned addresses (R33). -/
def Thread.wordAt (t : Thread) (i : Nat) : Nat := t.pc / 2 * 2 + 2 * i

/-- A trap of a fetch: TVAL is the address of the word (R54). DESIGN CHOICE: of a bundle that runs past the last word of an object that
is 2^56, whose bit 56 lies in a field that R89 reserves, and so reads as zero (R11; log 88). -/
def fetchTrap {α : Type} (cause o : Nat) : M α := trap cause (BitVec.ofNat 64 o)

/-- The home of a word of code (R237 to R241). -/
def codeHome (o : Nat) : M (Nat × TlbEntry) := do
  let t ← getTh
  let obj := capObj t.pcc
  match ← runS fun s => s.translate s.cur.core obj o rX with
  | .bad => fetchTrap 0x08 o
  | .absent => meetAbsent ⟨0, 0⟩ obj o rX
  | .noPerm _ _ => fetchTrap 0x06 o
  | .home a e =>
    let s ← get
    if e.loc = 2 && e.ship && !t.atHome && !(e.mod = s.here && atPort s.cur.core e.home) then stop (.ship e.home e.mod)
    else
      if e.loc = 2 then modTh fun t => { t with bundles := 0 }
      let a ← runS fun s => s.reach s.cur.core a
      return (a, e)

/-- The line of a cluster's instruction cache that holds an offset, filled no earlier than a launch began (R122, R182). -/
def State.codeLine (s : State) (cluster obj o began : Nat) : Option CodeLine :=
  (smGet [] s.icache cluster).find? fun l => l.obj = obj && l.off = o / 64 * 64 && l.made ≥ began

/-- The set of a line: 64 KiB in four ways of 64-byte lines are 256 sets, told apart by the offset (log 54). -/
def CodeLine.set (l : CodeLine) : Nat := l.off / 64 % 256

/-- The 8-byte granule of a line that holds an offset. -/
def lineGranule (o : Nat) : Nat := o % 64 / 8

/-- The two bytes at an offset of a line, as a word. -/
def lineWord (b : List Byte) (o : Nat) : IWord := BitVec.ofNat 16 (leNat ((b.drop (o % 64)).take 2))

/-- A filled line, in place of an older fill of the same line, or of the one filled longest ago of its set's four (R182). -/
def State.keepLine (s : State) (cluster : Nat) (l : CodeLine) : State :=
  let old := (smGet [] s.icache cluster).filter fun x => !decide (x.obj = l.obj ∧ x.off = l.off)
  let ways := (old.filter fun x => x.set = l.set).take 3
  { s with icache := smPut s.icache cluster (l :: (ways ++ old.filter fun x => x.set ≠ l.set)) }

/-- A word of code through the instruction cache (R82, R182), from a line filled no earlier than a time (R122): a line is filled whole from
its home, unless it holds poison. -/
def codeWord (o since : Nat) : M IWord := do
  let s ← get
  let obj := capObj s.th.pcc
  let cluster := coreCluster s.cur.core
  let (a, _) ← codeHome o
  match s.codeLine cluster obj o since with
  | some l => if l.poison.contains (lineGranule o) then fetchTrap 0x0F o else return lineWord l.bytes o
  | none =>
    let s ← get
    if s.poisoned a 2 then fetchTrap 0x0F o
    else
      let lo := a - o % 64
      let b ← runS fun s => s.homeRead s.cur.core lo 64
      if !s.poisoned lo 64 then modify fun s => s.keepLine cluster ⟨obj, o / 64 * 64, b, [], s.clock⟩
      return lineWord b o

/-! ## The loop buffer (R183) -/

/-- The thread replays a LOOPP body. -/
def Thread.looping (t : Thread) : Bool := fieldW 63 61 t.lpst = 6

/-- The thread's pinned body (R122, R183). -/
def State.bodyOf (s : State) (t : Thread) : Option LoopBody :=
  if t.looping then
    (smGet [] s.loops (coreCluster s.cur.core)).find? (·.serves (capObj t.pcc) (fieldW 55 0 t.lpsa) (s.beganAt t))
  else none

/-- A body with a word, now the one replayed last. -/
def State.keepBody (s : State) (b : LoopBody) (o : Nat) (w : IWord) : State :=
  let k := coreCluster s.cur.core
  { s with loops := smPut s.loops k ({ b with words := smPut b.words o w } :: (smGet [] s.loops k).erase b) }

/-- The checks of R82 on word `i`, and the word. A body's words are as new as its pinning, and so as new as the beginning of every launch
that it serves (R122). -/
def fetchWord (i : Nat) : M IWord := do
  let s ← get
  let t := s.th
  let o := t.wordAt i
  if !t.pcc.tag then fetchTrap 0x04 o
  else if missing rX (capRights t.pcc) ≠ 0 then fetchTrap 0x06 o
  else if o < capBase t.pcc || o + 2 > capTop t.pcc then fetchTrap 0x05 o
  else
    match s.bodyOf t with
    | none => codeWord o (s.beganAt t)
    | some b =>
      let w ← match smFind b.words o with
        | some w => pure w
        | none => codeWord o b.made
      modify fun s => s.keepBody b o w
      return w

/-- The words of the thread's bundle (R33, R36): up to and with its base word, or a fifth prefix word. -/
def fetchFrom : Nat → Nat → M (List IWord)
  | 0, _ => pure []
  | f + 1, i => do
    let w ← fetchWord i
    if opOf w = 31 then return w :: (← fetchFrom f (i + 1)) else return [w]

/-- The words of the thread's bundle. -/
def fetchBundle : M (List IWord) := fetchFrom 5 0

/-! ## Before the bundle executes (R54) -/

/-- The bundle's TVAL of traps 0x01 and 0x02 (R53). -/
def tvalDec : DecFault → Nat × Word
  | .more => (0x01, 0)
  | .chain c => (0x02, BitVec.ofNat 64 (4 * 2 ^ 16 + c.toNat))
  | .illegal r w c => (0x01, BitVec.ofNat 64 (r * 2 ^ 20 + w % 8 * 2 ^ 16 + c.toNat))

/-- A breakpoint register matches the address of a word of the bundle (R52, R359). DESIGN CHOICE: the addresses compared are PCC's offset
and those that follow it by whole words, also where that offset is odd and the words are fetched from even addresses (log 53). -/
def dbaHit (d : Word) (pc words : Nat) : Bool :=
  bitW 63 d && (List.range words).any fun k => fieldW 55 0 d = pc + 2 * k

/-- The breakpoint that matches the thread's bundle. -/
def Thread.breakAt (t : Thread) (words : Nat) : Option Nat :=
  if !t.bpen || t.noBreak then none
  else if dbaHit t.dba0 t.pc words then some 0
  else if dbaHit t.dba1 t.pc words then some 1
  else none

/-- The executing context's bundle once it is decoded: it returns from a shipping first (R243), takes the first trap that
R54 lists, or executes. -/
def State.enter (s : State) (i : Instr) : Host.Outcome State Fault Refusal :=
  let t := s.th
  if (t.returning i).isSome then .next (s.returnsNow s.cur.tid i)
  else
    match s.legal i with
    | some (cause, tval) => .next (s.trapsAt cause tval)
    | none =>
      match t.breakAt s.cur.words with
      | some d => .next (s.trapsAt 0x10 (tvalBreak 1 d t.pc))
      | none =>
        match t.earlyTrap (t.reads i) with
        | some tval => .next (s.trapsAt 0x03 tval)
        | none => exec i (s.settled i)

/-- The place of a context that issues. -/
def Cur.at_ (core ctx : Nat) : Cur := ⟨core, ctx, 0, 0, 0, false, .nop, none, none⟩

/-- The place of a decoded bundle. -/
def Cur.ofBundle (core ctx : Nat) (b : Bundle) (base : IWord) : Cur :=
  ⟨core, ctx, b.stall.toNat, b.words, base, false, b.instr, none, none⟩

/-- The place of a bundle's words that do not decode: with the stall count and the base word where they hold one (R42). -/
def Cur.ofWords (core ctx : Nat) (ws : List IWord) : Cur :=
  match splitBundle 4 [] ws with
  | .ok x => { Cur.at_ core ctx with stall := x.stall, words := ws.length, base := x.base }
  | .error _ => { Cur.at_ core ctx with words := ws.length }

/-- The cause and TVAL of a bundle's words that do not decode (R53): of what the encoding, the team and the mode make illegal, the
least reason, and of equal ones the first word, is reported. -/
def State.misdecoded (s : State) (ws : List IWord) (e : DecFault) : Nat × Word :=
  match splitBundle 4 [] ws, e with
  | .ok x, .illegal r w _ =>
    match s.legal (decodeRaw x).2 with
    | some (cause, tval) =>
      if cause = 0x01 && (fieldW 23 20 tval < r || (fieldW 23 20 tval = r && fieldW 18 16 tval < w)) then (cause, tval)
      else tvalDec e
    | none => tvalDec e
  | _, _ => tvalDec e

/-- The executing context's bundle whose words do not decode. -/
def State.misdecode (s : State) (ws : List IWord) (e : DecFault) : State :=
  let (cause, tval) := s.misdecoded ws e
  s.trapsAt cause tval

/-- A context issues its next bundle: a record that waits for trap 0x14 comes first, then a micro-operation of a macro in
progress; else the bundle at PCC. -/
def State.issueAt (s : State) (core ctx : Nat) : Host.Outcome State Fault Refusal :=
  let s := { s with cur := Cur.at_ core ctx, last := smPut s.last core ctx }
  if s.th.mustDeliver then exec (.engineFaultDelivery core ctx) s
  else if s.th.run.isSome then exec (.macroMicroOperation core ctx) s
  else
    match fetchBundle s with
    | .error e s => .next (s.stopped e)
    | .ok ws s =>
      match decodeWords ws with
      | .error e => .next ({ s with cur := Cur.ofWords core ctx ws }.misdecode ws e)
      | .ok b => { s with cur := Cur.ofBundle core ctx b (ws.getLastD 0) }.enter b.instr

end Sys2Proof.Machine
end

