-- ==== Sys2Proof/Machine/Schedule.lean ====
section
/-!
DEFINITION. What a step does next (log 1): the next turn of the schedule, or, where the schedule is empty, an event of the device
that has come, a context that issues (spec/11_one_core.md R157), or a time limit that ends a wait. And how an instruction is
placed where the next step fetches it.
-/

namespace Sys2Proof.Machine

/-! ## Events that may have come -/

/-- The context numbers of a core. -/
def coreTids (core : Nat) : List Nat := (List.range 8).map (tidOf core ·)

/-- Events of the service port for a context. -/
def q6Events (tid : Nat) : List Instr :=
  let k := tid / 8
  let c := tid % 8
  [.fabricRegisterRead k c, .fabricRegisterWrite k c, .lgctlWrite k c, .heatWrite k c, .ringmapWrite k c, .torusposWrite k c]

/-- Events of a context. -/
def threadEvents (tid : Nat) (t : Thread) : List Instr :=
  let k := tid / 8
  let c := tid % 8
  (match t.status with
    | .parked _ => [.parkedBundleWake k c, .messageAccept k c, .ldverResend k c, .cntwResend k c, .shipRecordResend k c,
        .engineFaultDelivery k c]
    | .free | .running | .travelling _ | .travelQueued | .travelAbroad _ _ => []) ++
    if t.stores = [] then [] else [.homeRequestApply k c]

/-- Events of a core with something queued or saved. -/
def State.coreEvents (s : State) (core : Nat) : List Instr :=
  if s.queue core = [] && s.saved = [] then []
  else ((List.range 8).map fun c => .taskStart core c) ++ [.parkOut core]

/-- Events of a streamer command. -/
def State.xferEvents (s : State) (x : Xfer) : List Instr :=
  let unit := firstFrom (fun u => !x.landed.contains u && x.reported ≤ u) 0 (s.units x)
  if x.kind = .marker then [.streamerMarkerDelivery x.org.core]
  else if x.kind = .copy then ((unit.map fun u => [Instr.copyChunkLand x.id u]).getD []) ++ [.copyComplete x.id]
  else ((unit.map fun u => [Instr.transferPacketApply x.id u]).getD []) ++ [.transferComplete x.id]

/-- The draw that a refill of itself is given. -/
def quietDraw : BitVec 16 := 0

/-- Events of a core's matrix unit; tokens are refilled where a chunk waits for them. -/
def State.matrixEvents (s : State) (core : Nat) (u : MUnit) : List Instr :=
  [.matrixCommandStart core] ++
    (match u.running with
      | some r => if s.tokensOf core < r.cost then [.energyTokenRefill quietDraw] else [.matrixChunk core]
      | none => []) ++ [.matrixMarkerDelivery core] ++ (u.tiles.filter fun w => bitW 2 w.2.status).map fun w => .tileRelease core w.1

/-- The clusters of placed arcades, by module cluster number. -/
def State.placedClusters (s : State) : List Nat := s.launches.flatMap fun l => l.2.placed.flatMap (·.modClusters)

/-- The die of a number below 4. -/
def dieOf (d : Nat) : Fin 4 := Fin.ofNat 4 d

/-- Every event that may have come, in a fixed order (log 1). -/
def State.candidates (s : State) : List Instr :=
  (s.threads.flatMap fun t => threadEvents t.1 t.2) ++
  ((s.fabric.q6.map (·.tid)).eraseDups.flatMap q6Events) ++
  (s.queues.flatMap fun q => s.coreEvents q.1) ++
  (s.ended.map fun f => .firingRetire f.id) ++
  (s.xfers.flatMap s.xferEvents) ++
  (s.matrix.flatMap fun u => s.matrixEvents u.1 u.2) ++
  (s.travs.flatMap fun c => [.traversalCommandStart (coreCluster c.org.core), .traversalMarkerDelivery c.org.core]) ++
  (s.wqueues.map fun q => .recordDispatch q.id) ++
  (s.shipq.map fun q => .shippedRecordArrival (64 * q.1 + 63)) ++
  (s.pages.filterMap fun p => if p.2.moving.isSome then some (.migrationMoveComplete (frameSlice p.1)) else none) ++
  (if s.notices = [] then [] else [.redirectNotice 0]) ++
  (if s.launches.any (fun l => l.2.phase = .live) then (List.range 4).map fun d => .arcadePlacement d else []) ++
  (s.placedClusters.flatMap fun c => (List.range 16).map fun i => .teamResidency (16 * c + i)) ++
  (s.fabric.ring.map fun p => .ringAdvance p.cluster p.stop p.cw p.pkt.resp) ++
  (s.fabric.torusQ.map fun p => .torusHop (Fin.ofNat 6 p.dir) p.pkt.resp) ++
  (s.dies.filterMap fun d => if d.2.takeover.isSome then some (.spareTakeoverComplete (dieOf d.1)) else none) ++
  (if bitW 63 s.attest then [.attestComplete] else [])

/-- Time limits that end a wait. -/
def State.limits (s : State) : List Instr :=
  (s.threads.flatMap fun t =>
    match t.2.status with
    | .parked _ => [.falignReleaseTimeout (t.1 / 8) (t.1 % 8), .stverBufferTimeout (t.1 / 8) (t.1 % 8), .waitiTimeout (t.1 / 8) (t.1 % 8)]
    | .free | .running | .travelling _ | .travelQueued | .travelAbroad _ _ => []) ++
  (s.launches.flatMap fun l => l.2.timers.map fun d => .closeTimerExpiry d l.1) ++
  (s.host.vecs.filterMap fun v => if v.2.held then some (.interruptWindowExpiry v.1) else none) ++
  (s.redirects.map fun r => .redirectRetire (frameSlice r.old)) ++
  (s.pages.filterMap fun p => if p.2.window.isSome then some (.migrationWindowEnd p.1) else none)

/-- The event would change more than the model's own counters. -/
def State.effective (s : State) (i : Instr) : Bool :=
  match exec i s with
  | .next t => { t with serial := s.serial, cur := s.cur, clock := s.clock, frees := s.frees } ≠ s
  | .fault _ => true
  | .refused _ => true

/-! ## The context that issues (R157) -/

/-- The context runs a firing and is not parked. -/
def Thread.ready (t : Thread) : Bool :=
  match t.status with
  | .running => true
  | .free | .parked _ | .travelling _ | .travelQueued | .travelAbroad _ _ => false

/-- The cores with a context that is ready, in ascending order. -/
def State.readyCores (s : State) : List Nat := (s.threads.filter fun t => t.2.ready).map (·.1 / 8)

/-- The first ready context of a core after the one that issued last there. -/
def State.nextContext (s : State) (core : Nat) : Option Nat :=
  ((List.range 8).map fun i => (smGet 7 s.last core + 1 + i) % 8).find? fun c => (s.thread (tidOf core c)).ready

/-- The core after the one that issued last, among those with a ready context, and its context. -/
def State.nextIssue (s : State) : Option (Nat × Nat) :=
  let l := s.readyCores
  match (l.find? (· > s.cur.core)).orElse fun _ => l.head? with
  | some k => (s.nextContext k).map fun c => (k, c)
  | none => none

/-- The turn that comes where the schedule is empty. -/
def State.ownTurn (s : State) : Option Turn :=
  match s.candidates.find? s.effective with
  | some i => some (.event i)
  | none =>
    match s.nextIssue with
    | some (k, c) => some (.issue k c)
    | none => (s.limits.find? s.effective).map .event

/-- The next turn, and the schedule that is left. -/
def State.nextTurn (s : State) : Option Turn × State :=
  match s.sched with
  | t :: rest => (some t, { s with sched := rest })
  | [] => (if s.boot = .running then s.ownTurn else none, s)

/-! ## A turn -/

/-- A module that does not run takes a reset (R365, R368); one that a fatal error has stopped lets the host read its dump, and accepts
nothing else (R371). -/
def BootState.takes (b : BootState) : Instr → Bool
  | .bootReset _ => true
  | .hostMemoryAccess false _ _ => b = .stopped
  | _ => false

/-- What follows of itself after a turn of a running module. -/
def settleAll : Host.Outcome State Fault Refusal → Host.Outcome State Fault Refusal
  | .next s => .next (if s.boot = .running then s.tidy else s)
  | .fault f => .fault f
  | .refused r => .refused r

/-- A turn takes place. -/
def State.doTurn (s : State) : Turn → Host.Outcome State Fault Refusal
  | .issue core ctx => if s.boot = .running && (s.thread (tidOf core ctx)).ready then s.issueAt core ctx else .next s
  | .event i => if s.boot = .running || s.boot.takes i then exec i s else .next s

/-- A nanosecond passes in which nothing happens. -/
def State.idle (s : State) : Host.Outcome State Fault Refusal := if s.boot = .stopped then .fault .moduleStopped else .next s

/-- One turn of the module (log 1). -/
def State.turn (s : State) : Host.Outcome State Fault Refusal :=
  let s := { s with clock := s.clock + 1 }
  match s.nextTurn with
  | (some t, s) => settleAll (s.doTurn t)
  | (none, s) => s.idle

/-! ## Placing an instruction (log 14) -/

/-- The bytes of an instruction: its words and zeros up to the longest bundle (R33). -/
def placedBytes (ws : List IWord) : List Byte := ((ws ++ List.replicate 5 0).take 5).flatMap fun (w : IWord) => leBytes 2 w.toNat

/-- The object of the loaded code. -/
def loadObj : Nat := 0

/-- The frame and the address of the loaded code: bonded DRAM of slice 0. -/
def loadFrame : Nat := 16
def loadAddr : Nat := loadFrame * 65536

/-- The capability of the loaded code: 64 KiB with rights R and X. -/
def loadCode : Cap := capOver loadObj 0 65536 0 (rR + rX)

/-- The launch whose firing runs the loaded code: a supervisor launch with one item actor at offset 0 and a trap handler at
offset 0x100. -/
def loadSpec : LaunchSpec :=
  { noSpec with
    code := loadCode, tiles := 8, barriers := 4, trap := 0x100, supv := true, table := [⟨0, 0, 0, 0, 0, []⟩] }

/-- Its team, on core 1,008. -/
def loadTeam : Team where
  launch := bootLaunch
  no := 0
  core := 1008
  slot := 0
  next := 1
  items := 1
  counts := []
  ports := []
  lh := []
  lhBusy := []
  bars := []
  tiles := List.range 8
  area := ⟨0, 0, 0, []⟩

/-- Its context: supervisor code at the start of the loaded code. -/
def loadThread : Thread :=
  { Thread.init with
    pcc := loadCode
    tctl := 4
    status := .running
    firing := some ⟨0, bootLaunch, 0, 0, 0, 0, none, none, none⟩ }

/-- The translation of the loaded code. -/
def loadEntry (mod : Nat) : TlbEntry :=
  { obj := loadObj, page := 0, count := 1, loc := 1, perm := rR + rX, frame := loadFrame, home := 0, mod := mod,
    ship := false, mig := false, ver := false }

/-- The module with a loaded program of one bundle, about to run it. -/
def State.load (s : State) (ws : List IWord) : State :=
  { s with
    mem := memPutBytes s.mem loadAddr (placedBytes ws)
    poison := s.poison.filter fun g => g + 64 ≤ loadAddr || loadAddr + 64 ≤ g
    bufPoison := s.bufPoison.filter fun g => g + 8 ≤ loadAddr || loadAddr + 64 ≤ g
    threads := smPut s.threads (tidOf 1008 0) loadThread
    teams := smPut s.teams loadTeam.key loadTeam
    launches := smPut s.launches bootLaunch (bootPlaced loadSpec)
    supvId := some bootLaunch
    tlb := smPut s.tlb 1008 [loadEntry s.here]
    icache := smDel s.icache 63
    loops := smDel s.loops 63
    boot := .running
    sched := [.issue 1008 0] }

/-- The home of the bundle that a context would fetch next, in one piece of bonded memory of this module. -/
def State.fetchHome (s : State) (core ctx : Nat) : Option Nat :=
  let t := s.thread (tidOf core ctx)
  let o := t.wordAt 0
  if t.run.isSome || t.mustDeliver || (s.bodyOf t).isSome || !t.pcc.tag || missing rX (capRights t.pcc) ≠ 0 || o < capBase t.pcc ||
      o + 10 > capTop t.pcc || o % 65536 > 65526 then none
  else
    match codeHome o { s with cur := Cur.at_ core ctx } with
    | .ok (a, _) _ => if isForeign a || s.poisoned a 10 then none else some a
    | .error _ _ => none

/-- An instruction placed where the next step fetches it: at the next bundle of the context that issues next, or, where none can
fetch, as a loaded program. -/
def State.placeNext (s : State) (ws : List IWord) : State :=
  if s.boot ≠ .running then s.load ws
  else
    match s.nextIssue with
    | none => s.load ws
    | some (k, c) =>
      match s.fetchHome k c with
      | none => s.load ws
      | some a =>
        { s with
          mem := memPutBytes s.mem a (placedBytes ws)
          icache := smDel s.icache (coreCluster k)
          sched := [.issue k c] }

end Sys2Proof.Machine
end

