-- ==== Sys2Proof/Machine/Step.lean ====
section
/-!
DEFINITION. One step of the module, and the placing of an instruction where the next step fetches it.
-/

namespace Sys2Proof.Machine

/-- One step: the next turn (log 1). -/
def step (s : State) : Host.Outcome State Fault Refusal := s.turn

/-- The module with an instruction, numbered as the opcode table numbers its bits, where the next step fetches it (log 14). -/
def State.withFetchWord (s : State) (nbits w : Nat) : State := s.placeNext (tableWords nbits w)

end Sys2Proof.Machine
end

