-- ==== Sys2Proof/Safety.lean ====
section
/-!
DEFINITION. What counts as a safe run: the invariants of the module's state, and runs that do not stop.
-/

namespace Sys2Proof.Machine

/-- A state property that every step keeps. -/
def Kept (p : State → Prop) : Prop := ∀ s t, p s → step s = .next t → p t

/-- Memory holds its one canonical form. -/
def State.memCanonical (s : State) : Prop := memWf s.mem = true

/-- The states that a number of steps reaches. -/
inductive Reaches : State → State → Prop where
  | here (s : State) : Reaches s s
  | step (s t u : State) : Reaches s t → Machine.step t = .next u → Reaches s u

/-- No run from a state stops: the module runs until a fatal error stops it (R365). -/
def Safe (s : State) : Prop := ∀ t, Reaches s t → ∃ u, step t = .next u

end Sys2Proof.Machine
end

