-- ==== Sys2Proof/WellFormed.lean ====
section
/-!
DEFINITION. Which instructions a bundle can encode (spec/03_encoding.md R36 to R40, R47 to R50 and the entries):
immediates that fit four PFX.I, registers that the fields reach, element codes, conditions, roundings and sizes that the
entry accepts. An event of the device and a sub-operation that only a register value selects have no encoding.
-/

namespace Sys2Proof

/-- The immediate of a form-Ai instruction fits four PFX.I (R37). -/
def Opd.wf : Opd → Bool
  | .imm v => fitsS 36 v
  | .reg _ => true

/-- The same where the entry reads the immediate unsigned (R37). -/
def Opd.wfU : Opd → Bool
  | .imm v => fitsU 36 v
  | .reg _ => true

/-- A vector shift count (R136). -/
def VOpd.wf : VOpd → Bool
  | .imm v => fitsU 36 v
  | .reg _ => true

/-- A memory operand (R104). -/
def MemOp.wf (a : MemOp) : Bool := a.off.wf

/-- The registers of VMASK that page 2 reaches (R40). -/
def MaskOp.wf : MaskOp → Bool
  | .fromG _ b => b.val < 16
  | .toG d _ => d.val < 16
  | .mov _ _ | .and _ _ _ | .or _ _ _ | .xor _ _ _ | .andn _ _ _ | .not _ _ | .first _ _ => true

/-- The instructions that some bundle encodes. -/
def Instr.wf : Instr → Bool
  | .ill w code => w.val = 0 && opOf code = 0
  | .nop | .mov _ _ | .movCap _ _ | .add _ _ _ | .sub _ _ _ | .and _ _ _ | .or _ _ _ | .xor _ _ _ | .mul _ _ _ | .ret
  | .done | .jmp _ _ | .jmpl _ _ | .jtab _ _ | .enq _ _ _ | .deq _ _ _ | .clz _ _ | .ctz _ _ | .popc _ _ | .biti _ _ _ _
  | .bitd _ _ _ _ | .mulh _ _ _ _ | .div _ _ _ _ | .rem _ _ _ _ | .min _ _ _ _ | .max _ _ _ _ | .cgeta _ _ | .cgeto _ _
  | .cgetl _ _ | .cgetb _ _ | .cres _ _ _ | .cfmt _ _ _ | .cgetf _ _ => true
  | .movi _ v | .addi _ _ v | .bc _ _ v => fitsS 41 v
  | .b v | .call v => fitsS 45 v
  | .shl _ _ y | .shr _ _ y | .sar _ _ y | .bfx _ _ y | .bfi _ _ y | .cadd _ _ y | .cseta _ _ y => y.wf
  | .csetb _ _ y => y.wfU
  | .cmp c e _ _ _ => cmpElems.contains e && condFits c e.isInt
  | .cmpi c _ _ v => condFits c true && fitsS 41 v
  | .sel _ _ _ _ => true
  | .ld _ _ a | .st _ _ a | .ldc _ a | .stc _ a | .ldver _ a | .stver _ a | .reclaim _ a => a.wf
  | .fadd _ e _ _ _ | .fsub _ e _ _ _ | .fmul _ e _ _ _ | .ffma _ e _ _ _ | .fdiv _ e _ _ _ | .fsqrt _ e _ _
  | .fmin e _ _ _ | .fmax e _ _ _ => fpElems.contains e
  | .fcmp c e _ _ _ => fpElems.contains e && condFits c e.isInt
  | .fcvt _ e _ _ | .fcvtf _ e _ _ => cvtElems.contains e
  | .sext z _ _ | .zext z _ _ => z ≠ .d
  | .vld _ a _ | .vst _ a _ => a.wf && (match a.off with | .imm _ => true | .reg r => r.val < 16)
  | .vldx e _ _ _ _ _ => vMems.contains e
  | .vstx r e _ _ _ _ => vMems.contains e && (r = .rne || !e.isInt)
  | .vadd r e _ _ _ _ | .vsub r e _ _ _ _ | .vmul r e _ _ _ _ => vArith.contains e && vRndOk r e
  | .vfma r e _ _ _ _ => fpElems.contains e && vRndOk r e
  | .vmin e u _ _ _ _ | .vmax e u _ _ _ _ => vArith.contains e && (!u || e.isInt)
  | .vand _ _ _ _ | .vor _ _ _ _ | .vxor _ _ _ _ | .vsel _ _ _ _ | .vperm _ _ _ _ | .vbiti _ _ _ _ => true
  | .vshl e _ _ y _ | .vshr e _ _ _ y _ => vInts.contains e && y.wf
  | .vcmp c e _ _ _ _ => vWords.contains e && condFits c e.isInt
  | .vbcast e _ s _ => vMoves.contains e && s.val < 16
  | .vext e d _ y => vMoves.contains e && d.val < 16 && y.wfU && (match y with | .imm _ => true | .reg r => r.val < 16)
  | .vins e _ s y => vMoves.contains e && s.val < 16 && y.wfU && (match y with | .imm _ => true | .reg r => r.val < 16)
  | .vred op r e d _ _ => vWords.contains e && redRndOk op r e && d.val < 16
  | .vscan op r e _ _ _ => vWords.contains e && redRndOk op r e
  | .vcvt bk r e _ _ _ => vCvts.contains e && cvtRndOk bk r e
  | .vtwo _ _ p _ _ _ _ => p ≠ 0
  | .vcomp e _ _ _ | .vxpnd e _ _ _ => vWords.contains e
  | .vclz e _ _ _ | .vpopc e _ _ _ => vInts.contains e
  | .vmask p o _ => p ≠ 0 && o.wf
  | .enqn _ p _ _ | .deqn p _ _ _ | .bwaitn p _ _ | .cntwn p _ _ | .wgres p _ _ => p ≠ 0
  | .qcnt _ _ | .qctlDiscard _ _ | .qctlDisarm _ _ | .falign | .arrive _ _ _ | .arrb _ _ _ _ | .bwait _ _ => true
  | .qctl _ _ y => y.wf && y ≠ .imm 1 && y ≠ .imm 2
  | .qlh _ y => y.wf
  | .fire _ w => w.val < 25
  | .firen p _ w => p ≠ 0 && w.val < 25
  | .wid _ y | .prio y => y.wfU
  | .fence k _ => k.ll || k.ls || k.sl || k.ss
  | .lda _ _ _ a | .strel _ _ _ a => a.wf
  | .ldvern p _ a => p ≠ 0 && a.wf
  | .amo op z _ _ a => amoSizeOk op z && a.wf
  | .cas z _ _ _ _ _ => casSizeOk z
  | .rget _ _ _ _ _ | .rsend _ _ _ _ _ | .rsig _ _ _ _ _ | .cntw _ _ | .cntrd _ _ => true
  | .rgetx _ _ _ _ k | .rsendx _ _ _ _ k => k ≠ 0
  | .rarith _ _ e _ _ _ => arithElems.contains e
  | .mplane _ _ _ _ | .mepirp _ | .mzero _ | .mrel _ | .mstat _ _ | .mstatc _ _ | .mwait _ | .copy _ _ | .cresume _ _
  | .cdrop _ _ => true
  | .mma _ _ _ cb _ | .mmas _ _ _ cb _ => cb.val < 8
  | .mepi _ _ e _ _ _ => match e with | none => true | some e => epiElems.contains e
  | .cut _ p _ _ _ => p ≠ 0
  | .cocut _ a _ _ => a.val < 31
  | .trav _ _ | .dtrav _ | .pair _ _ _ | .wgabn _ _ | .wgstat _ _ _ | .mom _ _ | .momd _ _ => true
  | .wgcom a _ => a.val < 29
  | .trap v => fitsU 45 v
  | .brk v => fitsS 45 v
  | .srd d n | .swr d n => !sysIsCap n.val || d.val < 16
  | .mcall _ _ _ _ v => fitsS 36 v
  | .rep _ _ | .loopp _ _ | .eret | .objinv _ _ _ | .mwr _ _ | .mrd _ | .launch _ _ _ | .close _ _ | .ctxsv _ _
  | .ctxld _ _ | .waiti => true
  | .macroMicroOperation _ _ | .taskStart _ _ | .taskPriorityRaise _ _ | .parkedBundleWake _ _ | .parkOut _
  | .falignReleaseTimeout _ _ | .lightHandlerTask _ _ | .messageAccept _ _ | .ldverResend _ _
  | .stverBufferTimeout _ _ | .cntwResend _ _ | .firingRetire _ | .homeRequestApply _ _
  | .interlockedResultArrival _ _ | .waitiTimeout _ _ | .transferPacketApply _ _ | .transferComplete _
  | .routerCombine _ _ _ | .copyChunkLand _ _ | .copyComplete _ | .streamerMarkerDelivery _ | .matrixCommandStart _
  | .matrixChunk _ | .tileRelease _ _ | .matrixMarkerDelivery _ | .energyTokenRefill _ | .traversalCommandStart _
  | .traversalMarkerDelivery _ | .recordDispatch _ | .engineFaultDelivery _ _ | .shippedRecordArrival _
  | .shipRecordResend _ _ | .threadReturn _ _ | .migrationMoveComplete _ | .migrationWindowEnd _ | .redirectForward _
  | .redirectNotice _ | .redirectRetire _ | .hostMessageWrite _ _ | .hostMemoryAccess _ _ _ | .arcadePlacement _
  | .teamResidency _ | .interruptWindowExpiry _ | .closeTimerExpiry _ _ | .ringAdvance _ _ _ _
  | .fabricRegisterRead _ _ | .fabricRegisterWrite _ _ | .lgctlWrite _ _ | .heatWrite _ _ | .ringmapWrite _ _
  | .torusposWrite _ _ | .dieRegisterWrite _ _ _ | .poolPush _ _ _ | .spareTakeover _ _ | .spareTakeoverComplete _
  | .pwrbudWrite _ | .attestBodyWrite _ | .attestComplete | .correctedError _ _ | .uncorrectableError _ _ _
  | .fatalError _ _ _ | .bootReset _ | .memoryPortLinkChange _ _ | .tokenCapture _ _ | .tokenOwnerPass _
  | .torusHop _ _ | .flitReceive _ _ | .ackTimer _ | .ackReceive _ _ | .nakReceive _ _ | .autoWake _
  | .wakeFlitReceive _ _ | .readyReceive _ _ | .widthFlitReceive _ _ | .wakeBudgetExpiry _ | .ringMoveReady _
  | .ringMoveBudgetExpiry _ | .mpdSample _ _ | .cdrLock _ | .closeResume _ | .closeCancel _ | .wgstatExtend _ _ _ | .wgstatBind _ _ => false

/-- A bundle holds the instruction with a stall count: its words are at most five (R33). -/
def fitsBundle (i : Instr) (stall : BitVec 8) : Bool := (encode i stall).length ≤ 5

/-- The words of a bundle that the decoder takes: those of a well-formed instruction that fits. -/
def Instr.encodable (i : Instr) (stall : BitVec 8) : Bool := i.wf && fitsBundle i stall

end Sys2Proof
end

