-- ==== Sys2Proof/Certificates/Slice0/Obligations.lean ====
section
/-!
DEFINITION. The statements for the provers. Statements about an instruction say that exec answers a next state, and what it holds;
their vocabulary, with the parts of the longer statements, is in the namespace Sys2Proof.Spec. Words such as `Gives` say the
frame once: everything else is as it was.
-/

/-! ## Vocabulary -/

namespace Sys2Proof.Spec

open Sys2Proof.Machine

/-- Nothing of the machine changes but the thread that executes. -/
def Only (s t : State) : Prop :=
  t = { s with threads := t.threads } ∧ ∀ k, k ≠ s.cur.tid → t.thread k = s.thread k

/-- How a thread goes on to its next bundle (R42, R120): nominal time moves past the bundle and its stall count; a
micro-operation leaves PCC and goes on in the macro; else PCC names the next bundle, or the start of a repeated body. -/
def Goes (c : Cur) (o n : Thread) : Prop :=
  n.nt = o.nt + 1 + c.stall ∧ n.bundles = o.bundles + 1 ∧ n.noBreak = false ∧ n.atHome = false ∧
  (c.micro = true → n.pcc = o.pcc ∧ n.lpst = o.lpst ∧
    n.run = o.run.map fun (r : MacroRun) => { r with idx := r.idx + 1 }) ∧
  (c.micro = false → n.run = o.run ∧ n.lpst = (loopStep o.lpst).1 ∧
    n.pcc = capSetOff o.pcc (if (loopStep o.lpst).2 then fieldW 55 0 o.lpsa else o.pc + 2 * c.words))

/-- Two threads differ at most in what going on changes, and in the results on their way. -/
def Rest (o n : Thread) : Prop :=
  n = { o with
        pend := n.pend, nt := n.nt, bundles := n.bundles, noBreak := n.noBreak, atHome := n.atHome, pcc := n.pcc,
        lpst := n.lpst, run := n.run }

/-- The results on their way after results `ws` with the time `due` join those of a thread; a write to g0, c0, p0 or m0 is
discarded (R38). -/
def Joined (old : List Pend) (due : Option Nat) (ws : List RegWrite) : List Pend :=
  old ++ (ws.filter fun w => !w.dead).map fun w => ⟨w, due⟩

/-- The instruction completes, produces the results `ws` with latency `lat` (none: interlocked), goes on to the next
bundle and changes nothing else: no other register, no system register, no byte of memory, no other context. -/
def Gives (i : Instr) (s : State) (lat : Option Nat) (ws : List RegWrite) : Prop :=
  ∃ t, exec i s = .next t ∧ Only s t ∧ Goes s.cur s.th t.th ∧ Rest s.th t.th ∧
    t.th.pend = Joined s.th.pend (lat.map (s.th.nt + ·)) ws

/-- The instruction gives one g register a value with a property. -/
def GivesG (i : Instr) (s : State) (lat : Option Nat) (d : GReg) (P : Word → Prop) : Prop :=
  ∃ v, P v ∧ Gives i s lat [.g d v]

/-- The instruction gives one c register a value with a property. -/
def GivesC (i : Instr) (s : State) (lat : Option Nat) (d : CReg) (P : Cap → Prop) : Prop :=
  ∃ v, P v ∧ Gives i s lat [.c d v]

/-- The second source of a form with an immediate: the immediate, or the register (R90). -/
def src (t : Thread) (y : Opd) : Word :=
  match y with
  | .imm v => v
  | .reg r => t.rg r

/-- The field that a specification names: lsb and width (R99). -/
def fieldOf (y : Word) : Nat × Nat :=
  let lsb := y.toNat % 64
  let w := y.toNat / 64 % 128
  if w = 0 ∨ lsb + w > 64 then (lsb, 64 - lsb) else (lsb, w)

/-- How many of the first n bits of a word are set. -/
def countBits (x : Word) : Nat → Nat
  | 0 => 0
  | n + 1 => countBits x n + (x.getLsbD n).toNat

end Sys2Proof.Spec

namespace Sys2Proof.Spec

open Sys2Proof.Machine

/-- The LFSR that an operation of a rounding mode uses: RS takes one step first (R31). -/
def lfsrFor (r : Rnd) (l : BitVec 32) : BitVec 32 := if r = .rs then lfsrStep l else l

/-- The instruction completes as a rounding operation: its result joins with latency `lat`, RS steps the LFSR once, and
nothing else changes. -/
def Rounds (i : Instr) (s : State) (lat : Option Nat) (r : Rnd) (d : GReg) (v : Word) : Prop :=
  ∃ t, exec i s = .next t ∧ Only s t ∧ Goes s.cur s.th t.th ∧ Rest { s.th with lfsr := lfsrFor r s.th.lfsr } t.th ∧
    t.th.pend = Joined s.th.pend (lat.map (s.th.nt + ·)) [.g d v]

/-- The three formats of the scalar engine with their exponent and fraction bits (R14, R110). -/
def scalarFormats : List (Elem × Nat × Nat) := [(.fp32, 8, 23), (.fp16, 5, 10), (.bf16, 8, 7)]

/-- A code is a NaN: its exponent field is all ones and its fraction is not zero (R14). -/
def nanCode (ex fr c : Nat) : Prop := c / 2 ^ fr % 2 ^ ex = 2 ^ ex - 1 ∧ c % 2 ^ fr ≠ 0

/-- The exact value of a magnitude code as a rational number (R14, R16). -/
def magRat (f : FFmt) (c : Nat) : ℚ := (f.magValue c).1 * (2 : ℚ) ^ (f.magValue c).2

/-- The sign of a code, and that it is finite (R14, R16). -/
def minus (f : FFmt) (c : Nat) : Bool := decide (c / f.sign % 2 = 1)
def finite (f : FFmt) (c : Nat) : Prop := c % f.sign ≤ f.top

/-- The exact value of a finite code. -/
def codeRat (f : FFmt) (c : Nat) : ℚ := (if minus f c then -1 else 1) * magRat f (c % f.sign)

/-- The magnitude code to which x rounds, in an exponent range with no upper end (R30, R31): of the values `lo` and the next one, between
which |x| lies, the one that the mode names; under RS by the discarded fraction's 32 bits and the LFSR after its step. -/
def RoundsMag (f : FFmt) (r : Rnd) (l : BitVec 32) (x : ℚ) (m : Nat) : Prop :=
  ∃ lo : Nat, magRat f lo ≤ |x| ∧ |x| < magRat f (lo + 1) ∧
    let g := magRat f (lo + 1) - magRat f lo
    let rest := |x| - magRat f lo
    let up : Prop := match r with
      | .rne => g < 2 * rest ∨ g = 2 * rest ∧ lo % 2 = 1
      | .rz => False
      | .ru => rest ≠ 0 ∧ 0 < x
      | .rd => rest ≠ 0 ∧ x < 0
      | .rs => rest ≠ 0 ∧ (2 : Int) ^ 32 ≤ ⌊rest / g * 2 ^ 32⌋ + l.toNat
    (up → m = lo + 1) ∧ (¬up → m = lo)

/-- The code of a format with infinities to which x rounds: its sign, and beyond the range infinity or the largest finite value (R15, R31). -/
def RoundsTo (f : FFmt) (r : Rnd) (l : BitVec 32) (x : ℚ) (c : Nat) : Prop :=
  ∃ m, RoundsMag f r l x m ∧
    c = (if x < 0 then f.sign else 0) +
      (if m ≤ f.top then m
       else match r with
        | .rne | .rs => f.top + 1
        | .rz => f.top
        | .ru => if x < 0 then f.top else f.top + 1
        | .rd => if x < 0 then f.top + 1 else f.top)

/-- The same with the sign of an exact zero. -/
def ExactlyRounded (f : FFmt) (r : Rnd) (l : BitVec 32) (x : ℚ) (zeroMinus : Bool) (c : Nat) : Prop :=
  (x ≠ 0 → RoundsTo f r l x c) ∧ (x = 0 → c = if zeroMinus then f.sign else 0)

/-- The magnitude code to which the square root of x rounds. -/
def RootRounds (f : FFmt) (r : Rnd) (l : BitVec 32) (x : ℚ) (m : Nat) : Prop :=
  ∃ lo : Nat, let v := magRat f lo
    let g := magRat f (lo + 1) - v
    v ^ 2 ≤ x ∧ x < (v + g) ^ 2 ∧
    let up : Prop := match r with
      | .rne => (2 * v + g) ^ 2 < 4 * x ∨ (2 * v + g) ^ 2 = 4 * x ∧ lo % 2 = 1
      | .rz | .rd => False
      | .ru => v ^ 2 ≠ x
      | .rs => v ^ 2 ≠ x ∧ ∃ n : Nat, (v + g * n / 2 ^ 32) ^ 2 ≤ x ∧ x < (v + g * (n + 1) / 2 ^ 32) ^ 2 ∧ 2 ^ 32 ≤ n + l.toNat
    (up → m = lo + 1) ∧ (¬up → m = lo)

end Sys2Proof.Spec

open Sys2Proof Sys2Proof.Machine Sys2Proof.Spec

/-! ## Integer and bit operations (spec/07_one_thread.md R92 to R103) -/

/-- NOP, MOV, MOV between c registers, MOVI and ADDI (R92, R93). -/
def Sys2Proof.Spec.MovesComplete : Prop :=
  ∀ (s : State),
    Gives .nop s (some 1) [] ∧
    (∀ d x : GReg, Gives (.mov d x) s (some 1) [.g d (s.th.rg x)]) ∧
    (∀ d x : CReg, Gives (.movCap d x) s (some 1) [.c d (s.th.rc x)]) ∧
    (∀ (d : GReg) v, Gives (.movi d v) s (some 1) [.g d v]) ∧
    (∀ (d x : GReg) v, Gives (.addi d x v) s (some 1) [.g d (BitVec.ofNat 64 ((s.th.rg x).toNat + v.toNat))])

/-- ADD, SUB, MUL, MULH, AND, OR, XOR, MIN, MAX (R94): each result by its own formula over integers or bits. -/
def Sys2Proof.Spec.IntegerArithmetic : Prop :=
  ∀ (s : State) (d x y : GReg),
    let a := s.th.rg x
    let b := s.th.rg y
    Gives (.add d x y) s (some 1) [.g d (BitVec.ofNat 64 (a.toNat + b.toNat))] ∧
    Gives (.sub d x y) s (some 1) [.g d (BitVec.ofInt 64 ((a.toNat : Int) - b.toNat))] ∧
    Gives (.mul d x y) s (some 4) [.g d (BitVec.ofNat 64 (a.toNat * b.toNat))] ∧
    GivesG (.mulh false d x y) s (some 4) d (fun v => v.toInt = (a.toInt * b.toInt) / 2 ^ 64) ∧
    GivesG (.mulh true d x y) s (some 4) d (fun v => v.toNat = a.toNat * b.toNat / 2 ^ 64) ∧
    GivesG (.and d x y) s (some 1) d (fun v => ∀ i, v.getLsbD i = (a.getLsbD i && b.getLsbD i)) ∧
    GivesG (.or d x y) s (some 1) d (fun v => ∀ i, v.getLsbD i = (a.getLsbD i || b.getLsbD i)) ∧
    GivesG (.xor d x y) s (some 1) d (fun v => ∀ i, v.getLsbD i = (a.getLsbD i ^^ b.getLsbD i)) ∧
    GivesG (.min false d x y) s (some 1) d (fun v => v.toInt = min a.toInt b.toInt) ∧
    GivesG (.min true d x y) s (some 1) d (fun v => v.toNat = min a.toNat b.toNat) ∧
    GivesG (.max false d x y) s (some 1) d (fun v => v.toInt = max a.toInt b.toInt) ∧
    GivesG (.max true d x y) s (some 1) d (fun v => v.toNat = max a.toNat b.toNat)

/-- DIV and REM with every case of the table of R95: page 1 slots 8 and 9, m = 1 for unsigned, interlocked, and never a trap. -/
def Obligations.DivisionCases : Prop :=
  ∀ (s : State) (d x y : GReg),
    let a := s.th.rg x
    let b := s.th.rg y
    (∀ u, GivesG (.div u d x y) s none d (fun v =>
      (b = 0 → v = 0xFFFFFFFFFFFFFFFF) ∧
      (b ≠ 0 → u = true → v.toNat = a.toNat / b.toNat) ∧
      (b ≠ 0 → u = false → a.toInt = -2 ^ 63 → b.toInt = -1 → v.toInt = -2 ^ 63) ∧
      (b ≠ 0 → u = false → ¬(a.toInt = -2 ^ 63 ∧ b.toInt = -1) → v.toInt = Int.tdiv a.toInt b.toInt))) ∧
    (∀ u, GivesG (.rem u d x y) s none d (fun v =>
      (b = 0 → v = a) ∧
      (b ≠ 0 → u = true → v.toNat = a.toNat - a.toNat / b.toNat * b.toNat) ∧
      (b ≠ 0 → u = false → a.toInt = -2 ^ 63 → b.toInt = -1 → v = 0) ∧
      (b ≠ 0 → u = false → ¬(a.toInt = -2 ^ 63 ∧ b.toInt = -1) →
        v.toInt = a.toInt - Int.tdiv a.toInt b.toInt * b.toInt))) ∧
    ∀ u, ∃ e e', encParts (.div u d x y) = some (1, 8, e) ∧ encParts (.rem u d x y) = some (1, 9, e') ∧
      e.o % 2 = u.toNat ∧ e'.o % 2 = u.toNat

/-- SHL, SHR, SAR (R96), BFX, BFI (R99), SEXT and ZEXT (R100), bit by bit. -/
def Sys2Proof.Spec.ShiftsAndFields : Prop :=
  ∀ (s : State) (d x : GReg) (y : Opd),
    let a := s.th.rg x
    let n := (src s.th y).toNat % 64
    let f := fieldOf (src s.th y)
    GivesG (.shl d x y) s (some 2) d (fun v => v.toNat = a.toNat * 2 ^ n % 2 ^ 64) ∧
    GivesG (.shr d x y) s (some 2) d (fun v => v.toNat = a.toNat / 2 ^ n) ∧
    GivesG (.sar d x y) s (some 2) d (fun v => v.toInt = a.toInt / 2 ^ n) ∧
    GivesG (.bfx d x y) s (some 2) d (fun v => ∀ i, v.getLsbD i = (decide (i < f.2) && a.getLsbD (f.1 + i))) ∧
    GivesG (.bfi d x y) s (some 2) d (fun v => ∀ i,
      v.getLsbD i = if f.1 ≤ i ∧ i < f.1 + f.2 then a.getLsbD (i - f.1) else (s.th.rg d).getLsbD i) ∧
    (∀ z, GivesG (.sext z d x) s (some 2) d (fun v => ∀ i, i < 64 →
      v.getLsbD i = a.getLsbD (min i (8 * sizeBytes z - 1)))) ∧
    (∀ z, GivesG (.zext z d x) s (some 2) d (fun v => ∀ i, v.getLsbD i = (decide (i < 8 * sizeBytes z) && a.getLsbD i)))

/-- CLZ, CTZ, POPC (R97), BITI and BITD (R98): counts by what they say of the word, interleaves bit by bit. -/
def Sys2Proof.Spec.BitCountsAndInterleave : Prop :=
  ∀ (s : State) (d x y : GReg) (three : Bool),
    let a := s.th.rg x
    let b := s.th.rg y
    let st := if three then 3 else 2
    GivesG (.clz d x) s (some 2) d (fun v =>
      (a = 0 → v = 64) ∧ (a ≠ 0 → v.toNat < 64 ∧ a.toNat / 2 ^ (63 - v.toNat) = 1)) ∧
    GivesG (.ctz d x) s (some 2) d (fun v =>
      (a = 0 → v = 64) ∧ (a ≠ 0 → v.toNat < 64 ∧ a.getLsbD v.toNat = true ∧ ∀ i, i < v.toNat → a.getLsbD i = false)) ∧
    GivesG (.popc d x) s (some 2) d (fun v => v.toNat = countBits a 64) ∧
    GivesG (.biti three d x y) s (some 2) d (fun v => ∀ i, i < 64 →
      v.getLsbD i = ((decide (0 < i) && b.getLsbD (i - 1)) || (decide (i % st = 0) && a.getLsbD (i / st)))) ∧
    GivesG (.bitd three d x y) s (some 2) d (fun v => ∀ i, i < 64 →
      v.getLsbD i = (decide (b.toNat % 4 < st) && decide (st * i + b.toNat % 4 ≤ 63) && a.getLsbD (st * i + b.toNat % 4)))

/-- What CMP gives with a condition on the low w bits of two registers (R49, R101). -/
def Sys2Proof.Spec.Compares (s : State) (e : Elem) (w : Nat) : Prop :=
  ∀ (p : PReg) (x y : GReg),
    let a := (s.th.rg x).setWidth w
    let b := (s.th.rg y).setWidth w
    let gives := fun c r => Gives (.cmp c e p x y) s (some 1) [.p p r]
    gives .eq (a == b) ∧ gives .ne (a != b) ∧
    gives .lt (decide (a.toInt < b.toInt)) ∧ gives .ge (decide (b.toInt ≤ a.toInt)) ∧
    gives .le (decide (a.toInt ≤ b.toInt)) ∧ gives .gt (decide (b.toInt < a.toInt)) ∧
    gives .ltu (decide (a.toNat < b.toNat)) ∧ gives .geu (decide (b.toNat ≤ a.toNat)) ∧
    gives .leu (decide (a.toNat ≤ b.toNat)) ∧ gives .gtu (decide (b.toNat < a.toNat))

/-- CMP, CMPI and SEL (R101 to R103). -/
def Obligations.ComparesAndSelect : Prop :=
  ∀ (s : State),
    Sys2Proof.Spec.Compares s .i8 8 ∧ Sys2Proof.Spec.Compares s .i16 16 ∧ Sys2Proof.Spec.Compares s .i32 32 ∧ Sys2Proof.Spec.Compares s .i64 64 ∧
    (∀ (p : PReg) (x : GReg) (v : Word),
      let a := s.th.rg x
      let gives := fun c r => Gives (.cmpi c p x v) s (some 1) [.p p r]
      gives .eq (a == v) ∧ gives .ne (a != v) ∧
      gives .lt (decide (a.toInt < v.toInt)) ∧ gives .ge (decide (v.toInt ≤ a.toInt)) ∧
      gives .le (decide (a.toInt ≤ v.toInt)) ∧ gives .gt (decide (v.toInt < a.toInt)) ∧
      gives .ltu (decide (a.toNat < v.toNat)) ∧ gives .geu (decide (v.toNat ≤ a.toNat)) ∧
      gives .leu (decide (a.toNat ≤ v.toNat)) ∧ gives .gtu (decide (v.toNat < a.toNat))) ∧
    (∀ (d x y : GReg) (p : PReg), Gives (.sel d p x y) s (some 1) [.g d (if s.th.rp p then s.th.rg x else s.th.rg y)])

/-- Moves and integer arithmetic. -/
def Obligations.IntegerOperations : Prop :=
  Sys2Proof.Spec.MovesComplete ∧ Sys2Proof.Spec.IntegerArithmetic

/-- Shifts, fields, extension, bit counts and interleave. -/
def Obligations.ShiftsAndBits : Prop :=
  Sys2Proof.Spec.ShiftsAndFields ∧ Sys2Proof.Spec.BitCountsAndInterleave

/-! ## Scalar floating point (spec/01_numbers.md R13 to R17, R30, R31; spec/07_one_thread.md R101, R110, R111) -/

/-- FADD, FSUB, FMUL, FFMA, FDIV and FSQRT complete with the result of their operands' low bits, zero-extended. -/
def Sys2Proof.Spec.FloatArithmeticCompletes : Prop :=
  ∀ (s : State) (r : Rnd) (d x y : GReg), ∀ p ∈ Sys2Proof.Spec.scalarFormats,
    let f := elemFmt p.1
    let w := 1 + p.2.1 + p.2.2
    let l := lfsrFor r s.th.lfsr
    let a := (s.th.rg x).toNat % 2 ^ w
    let b := (s.th.rg y).toNat % 2 ^ w
    let o := (s.th.rg d).toNat % 2 ^ w
    Rounds (.fadd r p.1 d x y) s (some 4) r d (BitVec.ofNat 64 (fAdd f r l a b)) ∧
    Rounds (.fsub r p.1 d x y) s (some 4) r d (BitVec.ofNat 64 (fSub f r l a b)) ∧
    Rounds (.fmul r p.1 d x y) s (some 4) r d (BitVec.ofNat 64 (fMul f r l a b)) ∧
    Rounds (.ffma r p.1 d x y) s (some 4) r d (BitVec.ofNat 64 (fFma f r l a b o)) ∧
    Rounds (.fdiv r p.1 d x y) s none r d (BitVec.ofNat 64 (fDiv f r l a b)) ∧
    Rounds (.fsqrt r p.1 d x) s none r d (BitVec.ofNat 64 (fSqrt f r l a))

/-- Finite operands (R15): FADD, FSUB, FMUL, FFMA, FDIV and FSQRT round the exact sum, product, quotient or root once, and give an exact zero
the sign of IEEE 754; a quotient by zero is infinite, and an invalid operation, on infinities too, creates the canonical NaN of R14. -/
def Sys2Proof.Spec.FiniteArithmetic : Prop :=
  ∀ (r : Rnd) (l : BitVec 32) (a b o : Nat), ∀ p ∈ Sys2Proof.Spec.scalarFormats,
    let f := elemFmt p.1
    let w := 1 + p.2.1 + p.2.2
    let x := codeRat f a
    let y := codeRat f b
    let z := codeRat f o
    let sa := minus f a
    let sb := minus f b
    let so := minus f o
    let inf := fun (neg : Bool) => (if neg then f.sign else 0) + f.top + 1
    let nan := (2 ^ p.2.1 - 1) * 2 ^ p.2.2 + 2 ^ (p.2.2 - 1)
    let rounds := ExactlyRounded f r l
    a < 2 ^ w → b < 2 ^ w → o < 2 ^ w →
    (finite f a → finite f b →
      rounds (x + y) (if sa = sb then sa else decide (r = .rd)) (fAdd f r l a b) ∧
      rounds (x - y) (if sa ≠ sb then sa else decide (r = .rd)) (fSub f r l a b) ∧
      rounds (x * y) (sa ^^ sb) (fMul f r l a b) ∧
      (finite f o → rounds (x * y + z) (if (sa ^^ sb) = so then so else decide (r = .rd)) (fFma f r l a b o)) ∧
      (y ≠ 0 → rounds (x / y) (sa ^^ sb) (fDiv f r l a b)) ∧
      (y = 0 → x ≠ 0 → fDiv f r l a b = inf (sa ^^ sb)) ∧ (y = 0 → x = 0 → fDiv f r l a b = nan)) ∧
    (finite f a →
      (x = 0 → fSqrt f r l a = a) ∧ (x < 0 → fSqrt f r l a = nan) ∧ (0 < x → RootRounds f r l x (fSqrt f r l a))) ∧
    (∀ s t : Bool,
      fAdd f r l (inf s) (inf t) = (if s = t then inf s else nan) ∧ fSub f r l (inf s) (inf t) = (if s = t then nan else inf s) ∧
      fMul f r l (inf s) (inf t) = inf (s ^^ t) ∧ fDiv f r l (inf s) (inf t) = nan ∧
      fSqrt f r l (inf s) = (if s then nan else inf s) ∧
      (finite f b →
        fAdd f r l (inf s) b = inf s ∧ fAdd f r l b (inf s) = inf s ∧ fSub f r l (inf s) b = inf s ∧ fSub f r l b (inf s) = inf (!s) ∧
        fMul f r l (inf s) b = (if y = 0 then nan else inf (s ^^ sb)) ∧ fMul f r l b (inf s) = (if y = 0 then nan else inf (s ^^ sb)) ∧
        fDiv f r l (inf s) b = inf (s ^^ sb) ∧ fDiv f r l b (inf s) = (if s ^^ sb then f.sign else 0)))

/-- Conversions of finite values (R15, R17): FCVT rounds, E4M3 saturating; FCVTF of an integer rounds, and of a narrower float is exact. -/
def Sys2Proof.Spec.FiniteConversions : Prop :=
  ∀ (r : Rnd) (l : BitVec 32) (c : Nat) (z : Int),
    let x := codeRat fp32 c
    (c < 2 ^ 32 → finite fp32 c →
      (∀ e ∈ [Elem.fp16, .bf16, .e5m2],
        ExactlyRounded (elemFmt e) r l x (minus fp32 c) ((fp32.decode c).into (elemFmt e) r l)) ∧
      (x ≠ 0 → ∃ m, RoundsMag e4m3 r l x m ∧
        (fp32.decode c).into e4m3 r l = (if x < 0 then 128 else 0) + min m 126) ∧
      (x = 0 → (fp32.decode c).into e4m3 r l = if minus fp32 c then 128 else 0)) ∧
    ExactlyRounded fp32 r l z false (roundSum fp32 r l false z 0) ∧
    ∀ e ∈ [Elem.fp16, .bf16, .e4m3, .e5m2], c < 2 ^ (elemFmt e).width → finite (elemFmt e) c →
      let v := ((elemFmt e).decode c).into fp32 r l
      finite fp32 v ∧ codeRat fp32 v = codeRat (elemFmt e) c ∧ minus fp32 v = minus (elemFmt e) c

/-- NaN operands (R15): the first NaN operand in operand order is returned, its sign and fraction kept, made quiet. -/
def Obligations.FirstNaNOperandReturned : Prop :=
  ∀ (s : State) (r : Rnd) (d x y : GReg), ∀ p ∈ Sys2Proof.Spec.scalarFormats,
    let w := 1 + p.2.1 + p.2.2
    let quiet := fun (c : Nat) => BitVec.ofNat 64 (c ||| 2 ^ (p.2.2 - 1))
    let nan := nanCode p.2.1 p.2.2
    let a := (s.th.rg x).toNat % 2 ^ w
    let b := (s.th.rg y).toNat % 2 ^ w
    let o := (s.th.rg d).toNat % 2 ^ w
    (nan a →
      Rounds (.fadd r p.1 d x y) s (some 4) r d (quiet a) ∧ Rounds (.fsub r p.1 d x y) s (some 4) r d (quiet a) ∧
      Rounds (.fmul r p.1 d x y) s (some 4) r d (quiet a) ∧ Rounds (.ffma r p.1 d x y) s (some 4) r d (quiet a) ∧
      Rounds (.fdiv r p.1 d x y) s none r d (quiet a) ∧ Rounds (.fsqrt r p.1 d x) s none r d (quiet a) ∧
      Gives (.fmin p.1 d x y) s (some 4) [.g d (quiet a)] ∧ Gives (.fmax p.1 d x y) s (some 4) [.g d (quiet a)]) ∧
    (¬nan a → nan b →
      Rounds (.fadd r p.1 d x y) s (some 4) r d (quiet b) ∧ Rounds (.fsub r p.1 d x y) s (some 4) r d (quiet b) ∧
      Rounds (.fmul r p.1 d x y) s (some 4) r d (quiet b) ∧ Rounds (.ffma r p.1 d x y) s (some 4) r d (quiet b) ∧
      Rounds (.fdiv r p.1 d x y) s none r d (quiet b) ∧
      Gives (.fmin p.1 d x y) s (some 4) [.g d (quiet b)] ∧ Gives (.fmax p.1 d x y) s (some 4) [.g d (quiet b)]) ∧
    (¬nan a → ¬nan b → nan o → Rounds (.ffma r p.1 d x y) s (some 4) r d (quiet o))

/-- Rounding a positive magnitude n/d to FP32, FP16, BF16 or E5M2 (R30): RZ takes the greatest value not above it, RU the least not
below it (infinity above the greatest finite value), and RNE a nearest one, the even code at a tie. -/
def Obligations.RoundingNeighbours : Prop :=
  ∀ f ∈ [fp32, fp16, bf16, e5m2], ∀ (l : BitVec 32) (n d : Nat), 0 < n → 0 < d →
    let x : ℚ := (n : ℚ) / d
    let val := Sys2Proof.Spec.magRat f
    (let c := roundMag f .rz l false n d
     c ≤ f.top ∧ val c ≤ x ∧ (c < f.top → x < val (c + 1))) ∧
    (let c := roundMag f .ru l false n d
     c ≤ f.top + 1 ∧ 0 < c ∧ val (c - 1) < x ∧ (c ≤ f.top → x ≤ val c)) ∧
    (let c := roundMag f .rne l false n d
     c ≤ f.top + 1 ∧
     (c ≤ f.top → 2 * x ≤ val c + val (c + 1)) ∧ (0 < c → val (c - 1) + val c ≤ 2 * x) ∧
     (c ≤ f.top → 2 * x = val c + val (c + 1) → c % 2 = 0) ∧ (0 < c → val (c - 1) + val c = 2 * x → c % 2 = 0))

/-- FMIN, FMAX, FCMP, FCVT and FCVTF complete (R101, R110, R111); FCVT into the integer formats gives the rounded value,
saturated, NaN to 0 (R13). -/
def Sys2Proof.Spec.FloatComparesAndConversions : Prop :=
  ∀ (s : State) (r : Rnd) (d x y : GReg) (q : PReg) (c : Cond),
    let a32 := (s.th.rg x).toNat % 2 ^ 32
    let l := lfsrFor r s.th.lfsr
    (∀ p ∈ Sys2Proof.Spec.scalarFormats,
      let f := elemFmt p.1
      let w := 1 + p.2.1 + p.2.2
      let a := (s.th.rg x).toNat % 2 ^ w
      let b := (s.th.rg y).toNat % 2 ^ w
      Gives (.fmin p.1 d x y) s (some 4) [.g d (BitVec.ofNat 64 (fMinMax f false a b))] ∧
      Gives (.fmax p.1 d x y) s (some 4) [.g d (BitVec.ofNat 64 (fMinMax f true a b))] ∧
      Gives (.fcmp c p.1 q x y) s (some 4) [.p q (fpCond c (f.decode a) (f.decode b))]) ∧
    (∀ e ∈ [Elem.i64, .i32], ∃ v : Word,
      v.toInt = FVal.toRange (-2 ^ (intWidth e - 1)) (2 ^ (intWidth e - 1) - 1) r l (fp32.decode a32) ∧
      Rounds (.fcvt r e d x) s (some 4) r d v) ∧
    (∀ e ∈ [Elem.fp16, .bf16, .e4m3, .e5m2],
      Rounds (.fcvt r e d x) s (some 4) r d (BitVec.ofNat 64 ((fp32.decode a32).into (elemFmt e) r l))) ∧
    (∀ e ∈ [Elem.i64, .i32],
      Rounds (.fcvtf r e d x) s (some 4) r d
        (BitVec.ofNat 64 (roundSum fp32 r l false ((s.th.rg x).setWidth (intWidth e)).toInt 0))) ∧
    (∀ e ∈ [Elem.fp16, .bf16, .e4m3, .e5m2],
      Rounds (.fcvtf r e d x) s (some 4) r d
        (BitVec.ofNat 64 (((elemFmt e).decode ((s.th.rg x).toNat % 2 ^ (elemFmt e).width)).into fp32 r l)))

/-- Scalar floating-point instructions complete, with the rounded exact results. -/
def Obligations.FloatOperations : Prop :=
  Sys2Proof.Spec.FloatArithmeticCompletes ∧ Sys2Proof.Spec.FloatComparesAndConversions ∧ Sys2Proof.Spec.FiniteArithmetic ∧
    Sys2Proof.Spec.FiniteConversions

/-! ## Capability operations (spec/07_one_thread.md R83 to R86, R106 to R109) -/

/-- The bundle takes a synchronous trap in place of its effect (R33, R355). -/
def Sys2Proof.Spec.Traps (i : Instr) (s : State) (cause : Nat) (tval : Word) : Prop :=
  exec i s = .next (s.stopped (.trap cause tval))

/-- The same of a trap whose TVAL is a whole word, or has R280's field WHICH in bits 57 and 56, which R89's map reserves (R11). -/
def Sys2Proof.Spec.TrapsWhole (i : Instr) (s : State) (cause : Nat) (tval : Word) : Prop :=
  exec i s = .next (s.stopped (.trapWhole cause tval))

/-- What CADD and CSETA write for an exact offset z (R86, R106). -/
def Sys2Proof.Spec.Moved (c : Cap) (z : Int) (v : Cap) : Prop :=
  v.w1 = c.w1 ∧ capFmt v = capFmt c ∧ capBl v = capBl c ∧ (capOff v : Int) = z % 2 ^ 56 ∧
    (v.tag = true ↔ c.tag = true ∧ 0 ≤ z ∧ z < 2 ^ 56 ∧ capBounds v = capBounds c)

/-- CADD and CSETA (R106): the offset modulo 2^56, and the tag rule of R86. -/
def Sys2Proof.Spec.PointerArithmetic : Prop :=
  ∀ (s : State) (d x : CReg) (y : Opd),
    GivesC (.cadd d x y) s (some 2) d (Moved (s.th.rc x) (capOff (s.th.rc x) + (src s.th y).toInt)) ∧
    GivesC (.cseta d x y) s (some 2) d (Moved (s.th.rc x) (src s.th y).toNat)

/-- CSETB (R107): the smallest exponent that fits, the bounds rounded outward, only narrowing; and each trap. That OFFS names the low bound
where no exponent fits, and the rounded top where a bound lies outside the source, is the model's reading (log 25). -/
def Sys2Proof.Spec.SetBounds : Prop :=
  ∀ (s : State) (d x : CReg) (y : Opd),
    let c := s.th.rc x
    let lo := capOff c
    let hi := lo + (src s.th y).toNat
    let up := fun (e : Nat) => (hi + 2 ^ e - 1) / 2 ^ e
    let down := fun (e : Nat) => lo / 2 ^ e
    let trap05 := fun (offs : Nat) => Traps (.csetb d x y) s 0x05 (tvalCap 1 x.val offs)
    (c.tag = false → Traps (.csetb d x y) s 0x04 (tvalCap 1 x.val lo)) ∧
    (c.tag = true → hi > 2 ^ 56 → trap05 lo) ∧
    (c.tag = true → hi ≤ 2 ^ 56 → (∀ e, e ≤ 47 → 447 < up e - down e) → trap05 lo) ∧
    (c.tag = true → hi ≤ 2 ^ 56 → ∀ e, e ≤ 47 → up e - down e ≤ 447 → (∀ k, k < e → 447 < up k - down k) →
      (down e * 2 ^ e < capBase c ∨ up e * 2 ^ e > capTop c → trap05 (up e * 2 ^ e)) ∧
      (capBase c ≤ down e * 2 ^ e → up e * 2 ^ e ≤ capTop c →
        GivesC (.csetb d x y) s (some 2) d (fun v =>
          v.w0 = c.w0 ∧ v.tag = true ∧ capObj v = capObj c ∧ capRights v = capRights c ∧ capE v = e ∧
          capBf v = down e % 512 ∧ capTf v = up e % 512 ∧ capBounds v = (down e * 2 ^ e, ((up e * 2 ^ e : Nat) : Int)))))

/-- CGETA, CGETO, CGETL, CGETB and CGETF read a capability, tagged or not (R108). -/
def Sys2Proof.Spec.CapabilityReads : Prop :=
  ∀ (s : State) (d : GReg) (x : CReg),
    let c := s.th.rc x
    GivesG (.cgeta d x) s (some 2) d (fun v => v.toNat = capOff c) ∧
    GivesG (.cgeto d x) s (some 2) d (fun v => v.toNat = capObj c) ∧
    Gives (.cgetl d x) s (some 2) [.g d (BitVec.ofInt 64 ((capTop c : Int) - capBase c))] ∧
    GivesG (.cgetb d x) s (some 2) d (fun v => v = BitVec.ofNat 64 (capBase c)) ∧
    GivesG (.cgetf d x) s (some 2) d (fun v =>
      v.getLsbD 63 = c.tag ∧ fieldW 62 32 v = 0 ∧ fieldW 31 26 v = capE c ∧ fieldW 25 24 v = 0 ∧
      fieldW 23 21 v = capBl c ∧ fieldW 20 16 v = capFmt c ∧ fieldW 15 8 v = 0 ∧ fieldW 7 0 v = capRights c)

/-- CRES and CFMT (R109): rights can only be removed; a format brings its block length; a reserved format traps, with OFFS the base
(the model's reading, log 25). -/
def Sys2Proof.Spec.RightsAndFormat : Prop :=
  ∀ (s : State) (d x : CReg) (y : GReg),
    let c := s.th.rc x
    let f := (s.th.rg y).toNat % 32
    GivesC (.cres d x y) s (some 2) d (fun v =>
      v.w0 = c.w0 ∧ v.tag = c.tag ∧ (∀ i, i < 8 → v.w1.getLsbD i = (c.w1.getLsbD i && (s.th.rg y).getLsbD i)) ∧
      ∀ i, 8 ≤ i → v.w1.getLsbD i = c.w1.getLsbD i) ∧
    (f ≠ 8 → f < 18 → GivesC (.cfmt d x y) s (some 2) d (fun v =>
      v.w1 = c.w1 ∧ v.tag = c.tag ∧ capOff v = capOff c ∧ capFmt v = f ∧
      capBl v = if 11 ≤ f ∧ f ≤ 16 then 5 else 0)) ∧
    (f = 8 ∨ 18 ≤ f → Traps (.cfmt d x y) s 0x07 (tvalCap 1 x.val (capBase c)))

/-- Each instruction that writes a capability from another register (R86, R106, R107, R109): a tagged result reaches no further than its
source: the same object, no right more, bounds within; or the instruction traps. -/
def Obligations.CapabilitiesOnlyNarrow : Prop :=
  ∀ (s : State) (d x : CReg) (y : Opd) (g : GReg),
    let c := s.th.rc x
    let within := fun (v : Cap) => v.tag = true →
      c.tag = true ∧ capObj v = capObj c ∧ (∀ i, i < 8 → v.w1.getLsbD i = true → c.w1.getLsbD i = true) ∧
        capBase c ≤ capBase v ∧ capTop v ≤ capTop c
    GivesC (.movCap d x) s (some 1) d within ∧ GivesC (.cadd d x y) s (some 2) d within ∧
    GivesC (.cseta d x y) s (some 2) d within ∧ GivesC (.cres d x g) s (some 2) d within ∧
    ∀ i ∈ [Instr.csetb d x y, .cfmt d x g], GivesC i s (some 2) d within ∨ ∃ cause tval, Traps i s cause tval

/-- Capability operations and their traps; OFFS of CSETB's and CFMT's traps is log 25's reading. -/
def Obligations.CapabilityOperations : Prop :=
  Sys2Proof.Spec.PointerArithmetic ∧ Sys2Proof.Spec.SetBounds ∧ Sys2Proof.Spec.CapabilityReads ∧ Sys2Proof.Spec.RightsAndFormat

/-! ## Register files, latencies and the early-read trap (spec/03_encoding.md R38, R42 to R45) -/

/-- The value that a register reads, as a write that names it. -/
def Sys2Proof.Spec.held (t : Thread) : Reg → RegWrite
  | .g r => .g r (t.rg r)
  | .c r => .c r (t.rc r)
  | .p r => .p r (t.rp r)
  | .v r => .v r (t.rv r)
  | .m r => .m r (t.rm r)

/-- Reads of register 0 of the g, c, p and m files (R38), whatever a thread holds; v0 reads its contents. -/
def Sys2Proof.Spec.RegisterZeroReads : Prop :=
  ∀ t : Thread, t.rg 0 = 0 ∧ t.rc 0 = ⟨0, 0, false⟩ ∧ t.rp 0 = true ∧ (∀ i, i < 16 → (t.rm 0).getLsbD i = true) ∧
    t.rv 0 = smGet 0 t.v 0

/-- Writes to g0, c0, p0 and m0 are discarded (R38): the bundle completes, goes on, and leaves no result. -/
def Sys2Proof.Spec.RegisterZeroWritesDiscarded : Prop :=
  ∀ (s : State) (x y : GReg) (cx : CReg) (v : Word) (mx : MReg),
    Gives (.add 0 x y) s (some 1) [] ∧ Gives (.movi 0 v) s (some 1) [] ∧ Gives (.div false 0 x y) s none [] ∧
    Gives (.movCap 0 cx) s (some 1) [] ∧ Gives (.cadd 0 cx (.imm v)) s (some 2) [] ∧
    Gives (.cmp .eq .i64 0 x y) s (some 1) [] ∧ Gives (.vmask 0 (.mov 0 mx) ⟨0, false⟩) s (some 1) []

/-- The last of a thread's results for a register that are written by nominal time n. -/
def Sys2Proof.Spec.latest (l : List Pend) (n : Nat) (r : Reg) : Option RegWrite :=
  ((l.filter fun e => e.w.reg = r ∧ e.w.dead = false ∧ ∃ d, e.due = some d ∧ d ≤ n).map (·.w)).getLast?

/-- What a bundle reads (R43): the latest fixed-latency producer in program order whose write time is at most the bundle's
nominal time, else the value held before; now, and at every later time after the thread has settled. -/
def Sys2Proof.Spec.LatestProducerRead : Prop :=
  ∀ (t : Thread) (r : Reg),
    Sys2Proof.Spec.held (t.settle []) r = (latest t.pend t.nt r).getD (Sys2Proof.Spec.held t r) ∧
    ∀ n, t.nt ≤ n →
      Sys2Proof.Spec.held (({ t.settle [] with nt := n } : Thread).settle []) r =
        (latest t.pend n r).getD (Sys2Proof.Spec.held t r)

/-- An interlocked result is read by the first bundle that names its register (R44): no result for that register is then
on its way but fixed-latency ones that are not due. -/
def Sys2Proof.Spec.InterlockedResultAwaited : Prop :=
  ∀ (t : Thread) (r : Reg) (reads : List Reg), r ∈ reads →
    ∀ e ∈ (t.settle reads).pend, e.w.reg = r → ∃ d, e.due = some d ∧ t.nt < d

/-- What stands before R45 in the order of R54: the bundle is legal, not one that returns from a shipping, and no
breakpoint matches. -/
def Sys2Proof.Spec.Unstopped (s : State) (i : Instr) : Prop :=
  s.th.returning i = none ∧ s.legal i = none ∧ s.th.breakAt s.cur.words = none

/-! ## Repeats (spec/07_one_thread.md R120, R121) -/

/-- What a bundle that does not transfer control does to LPST (R120), field by field: nothing unless ACT = 1 and HOLD = 0; else
IDX counts, and at N a pass ends: LEFT falls and the body starts again, or ACT falls. -/
def Sys2Proof.Spec.RepeatCounts : Prop :=
  ∀ l : Word,
    let act := l.getLsbD 63
    let hold := l.getLsbD 61
    let endless := l.getLsbD 60
    let n := fieldW 59 53 l
    let idx := fieldW 52 46 l
    let left := fieldW 31 0 l
    let r := loopStep l
    (act = false ∨ hold = true → r = (l, false)) ∧
    (act = true → hold = false →
      (∀ i, (i = 62 ∨ i = 61 ∨ i = 60 ∨ 53 ≤ i ∧ i ≤ 59 ∨ 32 ≤ i ∧ i ≤ 45) → r.1.getLsbD i = l.getLsbD i) ∧
      (idx + 1 ≠ n → idx < 127 → fieldW 52 46 r.1 = idx + 1 ∧ fieldW 31 0 r.1 = left ∧ r.1.getLsbD 63 = true ∧ r.2 = false) ∧
      (idx + 1 = n → fieldW 52 46 r.1 = 0) ∧
      (idx + 1 = n → endless = true → fieldW 31 0 r.1 = left ∧ r.1.getLsbD 63 = true ∧ r.2 = true) ∧
      (idx + 1 = n → endless = false → 0 < left → fieldW 31 0 r.1 = left - 1 ∧ r.1.getLsbD 63 = true ∧ r.2 = true) ∧
      (idx + 1 = n → endless = false → left = 0 → fieldW 31 0 r.1 = 0 ∧ r.1.getLsbD 63 = false ∧ r.2 = false))

/-- REP and LOOPP complete (R120): LPSA names the next bundle, LPST holds the fields that R120 lists with HOLD clear (log 15: the
model's reading), the bundle itself is not counted, and nothing else of the thread changes. -/
def Sys2Proof.Spec.RepeatStarts : Prop :=
  ∀ (s : State) (n : BitVec 5) (k : BitVec 32) (m : BitVec 6) (j : BitVec 32),
    let next := s.th.pc + 2 * s.cur.words
    let started := fun (t : State) (lpst : Word) =>
      t.th = { s.th with
        nt := s.th.nt + 1 + s.cur.stall, bundles := s.th.bundles + 1, noBreak := false, atHome := false, lpst := lpst,
        lpsa := BitVec.ofNat 64 (next % 2 ^ 56), pcc := capSetOff s.th.pcc next } ∧
      t.mem = s.mem ∧ ∀ k, k ≠ s.cur.tid → t.thread k = s.thread k
    (∃ t l, exec (.rep n k) s = .next t ∧ started t l ∧ Only s t ∧
      l.getLsbD 63 = true ∧ l.getLsbD 62 = false ∧ l.getLsbD 61 = false ∧ l.getLsbD 60 = false ∧
      fieldW 59 53 l = n.toNat + 1 ∧ fieldW 52 46 l = 0 ∧ fieldW 31 0 l = k.toNat) ∧
    (∃ t l, exec (.loopp m j) s = .next t ∧ started t l ∧
      l.getLsbD 63 = true ∧ l.getLsbD 62 = true ∧ l.getLsbD 61 = false ∧ l.getLsbD 60 = decide (j = 0) ∧
      fieldW 59 53 l = m.toNat + 1 ∧ fieldW 52 46 l = 0 ∧ fieldW 31 0 l = j.toNat - 1)

/-! ## Branches, jumps, calls and returns (spec/07_one_thread.md R112 to R117) -/

/-- No page of the module is in the middle of a move (R246). -/
def Sys2Proof.Spec.NoMoves (s : State) : Prop := ∀ f, (s.page f).moving = none

/-- Two states differ at most in the executing thread, in what translation caches, in the counts of page migration, in the packets of
a walk at another module (R210), and in the model's counter of free values. -/
def Sys2Proof.Spec.Caches (s t : State) : Prop :=
  t = { s with
    threads := t.threads, tlb := t.tlb, pages := t.pages, notices := t.notices, fabric := t.fabric, frees := t.frees } ∧
    ∀ k, k ≠ s.cur.tid → t.thread k = s.thread k

/-- The thread after a bundle that transfers control to a code capability: ACT of LPST falls unless HOLD is set (R120). -/
def Sys2Proof.Spec.Lands (c : Cur) (o n : Thread) (pcc : Cap) : Prop :=
  n.nt = o.nt + 1 + c.stall ∧ n.bundles = o.bundles + 1 ∧ n.noBreak = false ∧ n.atHome = false ∧ n.pcc = pcc ∧
    n.run = o.run ∧
    (∀ i, n.lpst.getLsbD i = if i = 63 then o.lpst.getLsbD 63 && o.lpst.getLsbD 61 else o.lpst.getLsbD i)

/-- The instruction completes by transferring control to a code capability, and changes nothing else. -/
def Sys2Proof.Spec.JumpsTo (i : Instr) (s : State) (pcc : Cap) : Prop :=
  ∃ t, exec i s = .next t ∧ Only s t ∧ Rest s.th t.th ∧ t.th.pend = s.th.pend ∧ Lands s.cur s.th t.th pcc

/-- B and BC (R112): the target, inside PCC's bounds, or trap 0x05 with TVAL the target; a BC that is not taken goes on. -/
def Sys2Proof.Spec.BranchesComplete : Prop :=
  ∀ (s : State) (p : PReg) (inv : Bool) (off : Word),
    let pcc := s.th.pcc
    let tgt : Int := (s.th.pc : Int) + 2 * off.toInt
    let out := tgt < capBase pcc ∨ capTop pcc ≤ tgt
    let taken := s.th.rp p ^^ inv
    (¬out → JumpsTo (.b off) s (capSetOff pcc tgt.toNat)) ∧
    (out → Traps (.b off) s 0x05 (BitVec.ofNat 64 (tgt % 2 ^ 56).toNat)) ∧
    (taken = true → ¬out → JumpsTo (.bc p inv off) s (capSetOff pcc tgt.toNat)) ∧
    (taken = true → out → Traps (.bc p inv off) s 0x05 (BitVec.ofNat 64 (tgt % 2 ^ 56).toNat)) ∧
    (taken = false → Gives (.bc p inv off) s none [])

/-- The return-address store after the push of the next bundle's address (R115 to R117): below 16 entries the entry joins; at
16 the oldest is first stored, tagged, in the next place of the return area, or, once that is full, through SPOV, which is checked; a
spill beyond OVER's greatest value takes trap 0x05 (before SPOV's own checks: log 62). -/
def Sys2Proof.Spec.Calls (i : Instr) (s : State) (pcc : Cap) : Prop :=
  let entry := capSetOff s.th.pcc (s.th.pc + 2 * s.cur.words)
  (s.th.ras.length < 16 →
    ∃ t, exec i s = .next t ∧ Only s t ∧ Rest { s.th with ras := s.th.ras ++ [entry] } t.th ∧ t.th.pend = s.th.pend ∧
      Lands s.cur s.th t.th pcc) ∧
  (∀ oldest rest, s.th.ras = oldest :: rest → rest.length = 15 → s.th.area < s.returnCap →
    ∃ t st, exec i s = .next t ∧ Only s t ∧
      Rest { s.th with ras := rest ++ [entry], area := s.th.area + 1, stores := s.th.stores ++ [st] } t.th ∧
      t.th.pend = s.th.pend ∧ Lands s.cur s.th t.th pcc ∧
      st.addr = (s.returnSlot s.th.area).1 ∧ st.bytes = capBytes oldest ∧ st.tag = oldest.tag) ∧
  (∀ oldest rest, s.th.ras = oldest :: rest → rest.length = 15 → s.returnCap ≤ s.th.area →
    let ea : Int := (capOff s.th.spov : Int) + 16 * s.th.ovr
    (2 ^ 24 ≤ s.th.ovr + 1 → Traps i s 0x05 (tvalCap 3 0 (ea % 2 ^ 56).toNat)) ∧
    (s.th.ovr + 1 < 2 ^ 24 → ∀ cause offs, capCheck s.th.spov (rW + rS) ea 16 16 = some (cause, offs) →
      Traps i s cause (tvalCap 3 0 offs)) ∧
    (s.th.ovr + 1 < 2 ^ 24 → capCheck s.th.spov (rW + rS) ea 16 16 = none → NoMoves s → ∀ addr e s1,
      locate ⟨3, 0⟩ false s.th.spov ea.toNat 16 rW s = .ok (addr, e) s1 →
      ∃ t st, exec i s = .next t ∧ Caches s t ∧
        Rest { s1.th with
          ras := rest ++ [entry], ovr := s.th.ovr + 1, stores := s.th.stores ++ [st], kept := smDel s.th.kept s.th.ovr } t.th ∧
        t.th.pend = s.th.pend ∧ Lands s.cur s1.th t.th pcc ∧ st.addr = addr ∧ st.bytes = capBytes oldest ∧
        st.tag = oldest.tag))

/-- CALL, JMP and JMPL (R113, R115): the checks in their order, the jump, and the push of the next bundle's address. -/
def Sys2Proof.Spec.CallsAndJumps : Prop :=
  ∀ (s : State) (off : Word) (a : CReg) (x : GReg),
    let pcc := s.th.pcc
    let tgt : Int := (s.th.pc : Int) + 2 * off.toInt
    let c := s.th.rc a
    let z : Int := (capOff c : Int) + (s.th.rg x).toInt
    let o := (z % 2 ^ 56).toNat
    (capBase pcc ≤ tgt → tgt < capTop pcc → Calls (.call off) s (capSetOff pcc tgt.toNat)) ∧
    (tgt < capBase pcc ∨ capTop pcc ≤ tgt → Traps (.call off) s 0x05 (BitVec.ofNat 64 (tgt % 2 ^ 56).toNat)) ∧
    (c.tag = true → c.w1.getLsbD 5 = true → z % 2 = 0 → capBase c ≤ z → z + 2 ≤ capTop c →
      JumpsTo (.jmp a x) s (capSetOff c z.toNat) ∧ Calls (.jmpl a x) s (capSetOff c z.toNat)) ∧
    (∀ i ∈ [Instr.jmp a x, .jmpl a x],
      (c.tag = false → Traps i s 0x04 (tvalCap 1 a.val o)) ∧
      (c.tag = true → c.w1.getLsbD 5 = false → Traps i s 0x06 (tvalCap 1 a.val 0x20)) ∧
      (c.tag = true → c.w1.getLsbD 5 = true → z % 2 ≠ 0 → Traps i s 0x0E (tvalCap 1 a.val o)) ∧
      (c.tag = true → c.w1.getLsbD 5 = true → z % 2 = 0 → (z < capBase c ∨ capTop c < z + 2) →
        Traps i s 0x05 (tvalCap 1 a.val o)))

/-- A return-address entry that a home holds: its bytes and tag as the thread's own queued stores leave them. -/
def Sys2Proof.Spec.Spilled (s : State) (addr : Nat) (v : Cap) : Prop :=
  (∀ k, k < 16 → (capBytes v)[k]? = some ((ownByte s.th.stores (addr + k)).getD (memByte s.mem (addr + k)))) ∧
    v.tag = ownTag s.th.stores addr (s.tags.contains (addr / 16))

/-- RET (R115, R116): the newest entry is popped and the thread continues at it, be it odd (log 53); an untagged entry takes trap 0x04,
one whose offset lies outside its own bounds trap 0x05, and an empty stack trap 0x09 with TVAL 0 (log 63), with the store and RASD
unchanged. With no entry in the store the newest spilled one is loaded, through SPOV and then from the return area; one that came with a context
record from the context that spilled it is taken as it was there (log 91). -/
def Sys2Proof.Spec.ReturnPops : Prop :=
  ∀ (s : State) (old : List Cap) (e : Cap),
    (s.th.ras = old ++ [e] → e.tag = true → capBase e ≤ capOff e → capOff e < capTop e →
      ∃ t, exec .ret s = .next t ∧ Only s t ∧ Rest { s.th with ras := old } t.th ∧ t.th.pend = s.th.pend ∧
        Lands s.cur s.th t.th e) ∧
    (s.th.ras = old ++ [e] → e.tag = false → exec .ret s = .next (s.stopped (.trap 0x04 (tvalCap 2 0 0)))) ∧
    (s.th.ras = old ++ [e] → e.tag = true → (capOff e < capBase e ∨ capTop e ≤ capOff e) →
      exec .ret s = .next (s.stopped (.trap 0x05 (tvalCap 2 0 (capOff e))))) ∧
    (s.th.ras = [] → s.th.ovr = 0 → s.th.area = 0 → exec .ret s = .next (s.stopped (.trap 0x09 0))) ∧
    (s.th.ras = [] → 0 < s.th.ovr → smFind s.th.kept (s.th.ovr - 1) = none →
      let ea : Int := (capOff s.th.spov : Int) + 16 * (s.th.ovr - 1 : Nat)
      (∀ cause offs, capCheck s.th.spov rR ea 16 16 = some (cause, offs) → Traps .ret s cause (tvalCap 3 0 offs)) ∧
      (capCheck s.th.spov rR ea 16 16 = none → NoMoves s → ∀ addr ent s1,
        locate ⟨3, 0⟩ false s.th.spov ea.toNat 16 rR s = .ok (addr, ent) s1 → isForeign addr = false →
        s1.poisoned addr 16 = false → ∃ v, Spilled s addr v ∧
          (v.tag = true → capBase v ≤ capOff v → capOff v < capTop v → ∃ t, exec .ret s = .next t ∧ Caches s t ∧
            Rest { s1.th with ovr := s.th.ovr - 1, kept := smDel s.th.kept (s.th.ovr - 1) } t.th ∧ t.th.pend = s.th.pend ∧ Lands s.cur s1.th t.th v) ∧
          (v.tag = false → ∃ t, exec .ret s = .next (t.stopped (.trap 0x04 (tvalCap 2 0 ea.toNat))) ∧ Caches s t ∧
            t.th = s1.th))) ∧
    (s.th.ras = [] → 0 < s.th.ovr → ∀ bytes, smFind s.th.kept (s.th.ovr - 1) = some (.read bytes true false) →
      let v := capFrom bytes true
      capBase v ≤ capOff v → capOff v < capTop v →
        ∃ t, exec .ret s = .next t ∧ Only s t ∧
          Rest { s.th with ovr := s.th.ovr - 1, kept := smDel s.th.kept (s.th.ovr - 1) } t.th ∧ t.th.pend = s.th.pend ∧
          Lands s.cur s.th t.th v) ∧
    (s.th.ras = [] → s.th.ovr = 0 → 0 < s.th.area →
      let slot := s.returnSlot (s.th.area - 1)
      isForeign slot.1 = false → s.poisoned slot.1 16 = false → ∃ v, Spilled s slot.1 v ∧
        (v.tag = true → capBase v ≤ capOff v → capOff v < capTop v → ∃ t, exec .ret s = .next t ∧ Only s t ∧
          Rest { s.th with area := s.th.area - 1 } t.th ∧ t.th.pend = s.th.pend ∧ Lands s.cur s.th t.th v) ∧
        (v.tag = false → Traps .ret s 0x04 (tvalCap 2 0 slot.2)))

/-- REP and LOOPP, and how a repeated body counts. -/
def Obligations.RepeatedBodies : Prop :=
  Sys2Proof.Spec.RepeatCounts ∧ Sys2Proof.Spec.RepeatStarts

/-! ## Traps, system registers and supervisor instructions (spec/03_encoding.md R53 to R55; spec/27_launch.md R353 to R359) -/

/-- The executing firing has a trap handler at this capability: its launch names TRAP, and no trap is being handled. -/
def Sys2Proof.Spec.Handler (s : State) (v : Cap) : Prop :=
  s.th.tcause.getLsbD 63 = false ∧
    ∃ l, s.launch? s.th.launchId = some l ∧ l.spec.trap ≠ 0xFFFFFFFF ∧ v = capSetOff l.spec.code l.spec.trap.toNat

/-- The state after the entry of a trap (R355), which changes nothing but the trap registers, LPST.HOLD, PCC, nominal time and the run of
bundles since the last ship page (a macro in progress is recorded in MCX); `whole`: bits 57 and 56 of TVAL belong to a field. -/
def Sys2Proof.Spec.Entered (s t : State) (cause tepc : Nat) (tval : Word) (v : Cap) (whole : Bool := false) : Prop :=
  ∃ lpst : Word, (∀ i, lpst.getLsbD i = (decide (i = 61) || s.th.lpst.getLsbD i)) ∧
    t = s.setTh { s.th with
      nt := s.th.nt + 1 + s.cur.stall, bundles := s.th.bundles + 1, tcause := BitVec.ofNat 64 (2 ^ 63 + cause),
      tepc := BitVec.ofNat 64 (tepc % 2 ^ 56), tval := tval, tvalWhole := whole, tpcc := s.th.pcc, lpst := lpst,
      mcx := (s.th.run.map fun r => BitVec.ofNat 64 (2 ^ 12 + r.idx % 32 * 2 ^ 7 + r.num % 128)).getD s.th.mcx,
      run := none, status := .running, noBreak := false, atHome := false, pcc := v }

/-- A synchronous trap that a handler takes (R355): the trap registers, TPCC, HOLD and PCC, and nothing else. -/
def Sys2Proof.Spec.HandledTrapEntry : Prop :=
  ∀ (s : State) (v : Cap) (cause : Nat) (tval : Word), Handler s v →
    Entered s (s.stopped (.trap cause tval)) cause s.th.pc tval v ∧
    Entered s (s.stopped (.trapWhole cause tval)) cause s.th.pc tval v true

/-- R45: with SCBCHK = 1, a bundle that reads a register before the fixed-latency result of its latest producer is due (R43: a later
producer supersedes an earlier one) takes trap 0x03, whose TEPC is its own address and whose TVAL names the greatest shortfall, then the lowest file and number; with SCBCHK = 0, or nothing
early, it executes. -/
def Obligations.EarlyReadTraps : Prop :=
  ∀ (s : State) (i : Instr), Unstopped s i →
    let reads := s.th.reads i
    let t := s.th.settle reads
    let early := fun (e : Pend) (d : Nat) => e.due = some d ∧ e.w.reg ∈ reads ∧
      ∃ before after, t.pend = before ++ e :: after ∧ ∀ x ∈ after, x.w.reg ≠ e.w.reg
    (s.th.tctl.getLsbD 0 = false → s.enter i = exec i (s.setTh t)) ∧
    (s.th.tctl.getLsbD 0 = true → (∀ e d, ¬early e d) → s.enter i = exec i (s.setTh t)) ∧
    (s.th.tctl.getLsbD 0 = true → (∃ e d, early e d) →
      ∃ (e : Pend) (d : Nat) (tval : Word) (n : State), early e d ∧ s.enter i = .next n ∧
        n = s.stopped (.trap 0x03 tval) ∧ (∀ v, Handler s v → Entered s n 0x03 s.th.pc tval v) ∧
        (d - t.nt < 256 → fieldW 63 24 tval = 0) ∧ fieldW 23 16 tval = (d - t.nt) % 256 ∧ fieldW 15 11 tval = 0 ∧
        fieldW 10 8 tval = e.w.reg.key.1 ∧ fieldW 7 5 tval = 0 ∧ fieldW 4 0 tval = e.w.reg.key.2 ∧
        ∀ e' d', early e' d' → d' < d ∨ d' = d ∧
          (e.w.reg.key.1 < e'.w.reg.key.1 ∨ e.w.reg.key.1 = e'.w.reg.key.1 ∧ e.w.reg.key.2 ≤ e'.w.reg.key.2))

/-- TRAP, BRK and ILL complete with their traps (R55, R358): causes 0x11 and 0x10 with TEPC at the next bundle and TVAL the
immediate of R359, and cause 0x01 with reason 7 at the bundle itself. That a BRK or TRAP in a repeated body leaves LPST uncounted, with
HOLD alone set, is the model's reading (log 28). -/
def Sys2Proof.Spec.TrapInstructionsEnter : Prop :=
  ∀ (s : State) (v : Cap) (n : Word) (w : Fin 5) (code : IWord), Handler s v → s.cur.micro = false →
    (∃ t, exec (.trap n) s = .next t ∧
      Entered s t 0x11 (s.th.pc + 2 * s.cur.words) (BitVec.ofNat 64 (n.toNat % 2 ^ 56)) v) ∧
    (∃ t, exec (.brk n) s = .next t ∧
      Entered s t 0x10 (s.th.pc + 2 * s.cur.words) (BitVec.ofNat 64 (n.toNat % 2 ^ 56)) v) ∧
    (∃ t, exec (.ill w code) s = .next t ∧
      Entered s t 0x01 s.th.pc (BitVec.ofNat 64 (7 * 2 ^ 20 + w.val * 2 ^ 16 + code.toNat)) v)

/-- A trap while INTRAP is set, or with no handler, ends the firing as DONE does (R355): its context is free, its stores
stand, memory is as it was, and TRAPS of its launch counts one more. -/
def Sys2Proof.Spec.UnhandledTrapEndsFiring : Prop :=
  ∀ (s : State) (cause : Nat) (tval : Word) (f : Firing) (l : Launch),
    s.th.firing = some f → f.home = none → f.port = none → s.th.wg = [] → s.th.traps = [] →
    s.launch? f.launch = some l → l.id = f.launch →
    (s.th.tcause.getLsbD 63 = true ∨ l.spec.trap = 0xFFFFFFFF) →
      let t := s.stopped (.trap cause tval)
      t.th.firing = none ∧ t.th.status = .free ∧ t.th.ras = [] ∧ t.th.pend = [] ∧ t.th.stores = s.th.stores ∧
      t.mem = s.mem ∧ f ∈ t.ended ∧
      ∃ l', t.launch? f.launch = some l' ∧ l'.traps = l.traps + 1

/-- ERET (R358): with INTRAP set, PCC is TPCC at TEPC.OFFS, INTRAP and HOLD fall, and one breakpoint match is suppressed (R359);
with INTRAP clear it takes trap 0x01 with reason 0. -/
def Sys2Proof.Spec.ReturnFromTrap : Prop :=
  ∀ s : State,
    (s.th.tcause.getLsbD 63 = true → ∃ t, exec .eret s = .next t ∧ Only s t ∧
      (∀ i, t.th.tcause.getLsbD i = (decide (i ≠ 63) && s.th.tcause.getLsbD i)) ∧
      (∀ i, t.th.lpst.getLsbD i = (decide (i ≠ 61) && s.th.lpst.getLsbD i)) ∧
      t.th = { s.th with
        nt := s.th.nt + 1 + s.cur.stall, bundles := s.th.bundles + 1, noBreak := true, atHome := false, run := none,
        pcc := capSetOff s.th.tpcc (s.th.tepc.toNat % 2 ^ 56), tcause := t.th.tcause, lpst := t.th.lpst }) ∧
    (s.th.tcause.getLsbD 63 = false → ∃ tval : Word, fieldW 63 20 tval = 0 ∧ Traps .eret s 0x01 tval)

/-- The supervisor instructions of R358; `whole` tells OBJINVO from OBJINV. -/
def Sys2Proof.Spec.supervisor (whole : Bool) (a b : GReg) (c d : CReg) : List Instr :=
  [.objinv whole a b, .mwr a b, .mrd a, .launch a c d, .close a b, .closeResume a, .closeCancel a, .ctxsv a c, .ctxld a c, .waiti]

/-- R55: in user code every supervisor instruction takes trap 0x01 with reason 6, whatever its operands. -/
def Sys2Proof.Spec.SupervisorInstructionsTrapInUserCode : Prop :=
  ∀ (s : State) (whole : Bool) (a b : GReg) (c d : CReg), s.th.tctl.getLsbD 2 = false →
    ∀ i ∈ supervisor whole a b c d, ∃ tval : Word, fieldW 63 20 tval = 6 ∧ Traps i s 0x01 tval

/-- A bit of TVAL that is reserved in the map of a cause (R53, R45, R180, R288, R318, R359), or in R89's where the trap has that one. -/
def Sys2Proof.Spec.tvalFixed (whole : Bool) (cause i : Nat) : Bool :=
  if cause = 1 ∨ cause = 2 then 24 ≤ i || i = 19
  else if cause = 3 then 24 ≤ i || (11 ≤ i && i ≤ 15) || (5 ≤ i && i ≤ 7)
  else if cause = 11 then i = 62 || i = 57 || i = 56
  else if cause = 12 ∨ cause = 13 then 56 ≤ i && i ≤ 59
  else if cause = 16 ∨ cause = 17 then 56 ≤ i && i ≤ 60
  else if 4 ≤ cause ∧ cause ≤ 8 ∨ cause = 14 ∨ cause = 15 then !whole && (i = 56 || i = 57)
  else false

/-- SRD (R354) reads each system register of R353, reserved bits of TVAL as zero (R11), interlocked, capabilities with their tags; COREID is the number of the core that
executes (log 51's reading). -/
def Sys2Proof.Spec.SystemRegisterReads : Prop :=
  ∀ (s : State) (d : GReg),
    let t := s.th
    let g := fun (n : Fin 26) (w : Word) => Gives (.srd d n) s none [.g d w]
    let c := fun (n : Fin 26) (x : Cap) => Gives (.srd d n) s none [.c (Fin.ofNat 16 d.val) x]
    g 0 t.tctl ∧ g 1 t.tcause ∧ g 2 t.tepc ∧ g 4 t.workid ∧ g 5 (t.lfsr.setWidth 64) ∧ g 6 t.xferid ∧
    c 7 t.spov ∧ g 9 t.lpst ∧ g 10 t.lpsa ∧ g 11 t.mcx ∧ c 12 t.arcw ∧ g 13 (BitVec.ofNat 64 s.cur.core) ∧ c 14 t.tpcc ∧
    g 15 t.dba0 ∧ g 16 t.dba1 ∧ g 17 (BitVec.ofNat 64 t.eprio) ∧
    (∀ n : Fin 26, 18 ≤ n.val → g n (t.frec.getD (n.val - 18) 0)) ∧
    (∃ v : Word, g 3 v ∧ ∀ i, v.getLsbD i = (t.tval.getLsbD i && !(tvalFixed t.tvalWhole (fieldW 7 0 t.tcause) i))) ∧
    ∃ w : Word, g 8 w ∧ fieldW 47 24 w = t.ovr % 2 ^ 24 ∧ fieldW 23 8 w = t.area % 2 ^ 16 ∧
      (t.ras.length < 128 → fieldW 7 0 w = t.ras.length) ∧ fieldW 63 48 w = 0

/-- What SWR leaves of a thread: the named register's writable bits, and for TCTL, SPOV and the breakpoints the copies that
the device keeps for the launch (R348); nothing else but going on to the next bundle (LPST written by SWR is not counted by the
repeat it starts: log 15). -/
def Sys2Proof.Spec.Wrote (s : State) (n : Fin 26) (r : GReg) (want : Thread → Thread) : Prop :=
  ∃ t, exec (.swr r n) s = .next t ∧ t.mem = s.mem ∧ (∀ k, k ≠ s.cur.tid → t.thread k = s.thread k) ∧
    t.th.nt = s.th.nt + 1 + s.cur.stall ∧ t.th.bundles = s.th.bundles + 1 ∧
    t.th.pcc = (if s.cur.micro then s.th.pcc
      else capSetOff s.th.pcc (if n ≠ 9 ∧ (loopStep s.th.lpst).2 = true then fieldW 55 0 s.th.lpsa
        else s.th.pc + 2 * s.cur.words)) ∧
    want { s.th with
      pcc := t.th.pcc, nt := t.th.nt, bundles := t.th.bundles, noBreak := t.th.noBreak, atHome := t.th.atHome,
      run := t.th.run,
      lpst := (if s.cur.micro then s.th else { s.th with lpst := (loopStep s.th.lpst).1 }).lpst } = t.th

/-- SWR (R353, R354, R117, R121, R124, R31): each register's writable bits; the read-only ones are ignored. TVAL's reserved
bits are those of the map in force (R11); that it is the one of TCAUSE's cause, also after an SWR of TCAUSE, is the model's choice (log 61). -/
def Sys2Proof.Spec.SystemRegisterWrites : Prop :=
  ∀ (s : State) (r : GReg),
    let w := s.th.rg r
    let c := s.th.rc (Fin.ofNat 16 r.val)
    let only := fun (hi lo : Nat) => (w >>> lo <<< lo) &&& BitVec.ofNat 64 (2 ^ (hi + 1) - 1)
    Wrote s 0 r (fun t => { t with tctl := s.th.tctl &&& ~~~(3 : Word) ||| w &&& 3 }) ∧
    Wrote s 1 r (fun t => { t with tcause := only 63 63 ||| only 7 0 }) ∧
    Wrote s 2 r (fun t => { t with tepc := only 55 0 }) ∧
    (∃ v : Word, Wrote s 3 r (fun t => { t with tval := v }) ∧
      ∀ i, i < 64 → v.getLsbD i =
        (if tvalFixed s.th.tvalWhole (fieldW 7 0 s.th.tcause) i then s.th.tval.getLsbD i else w.getLsbD i)) ∧
    Wrote s 5 r (fun t => { t with lfsr := if w.setWidth 32 = (0 : BitVec 32) then 1 else w.setWidth 32 }) ∧
    Wrote s 7 r (fun t => { t with spov := c, kept := [] }) ∧
    Wrote s 8 r (fun t => { t with
      ovr := fieldW 47 24 w, area := fieldW 23 8 w,
      ras := (s.th.ras ++ List.replicate 16 (⟨0, 0, false⟩ : Cap)).take (min 16 (fieldW 4 0 w)) }) ∧
    (∃ l : Word, Wrote s 9 r (fun t => { t with lpst := l }) ∧
      (∀ i, i < 63 → l.getLsbD i = (decide (i < 32 ∨ 46 ≤ i) && w.getLsbD i)) ∧
      l.getLsbD 63 = (w.getLsbD 63 && decide (1 ≤ fieldW 59 53 w ∧ fieldW 59 53 w ≤ 64))) ∧
    Wrote s 10 r (fun t => { t with lpsa := only 55 0 }) ∧
    Wrote s 11 r (fun t => { t with mcx := only 12 0 }) ∧
    Wrote s 14 r (fun t => { t with tpcc := c }) ∧
    Wrote s 15 r (fun t => { t with dba0 := only 63 63 ||| only 55 0 }) ∧
    Wrote s 16 r (fun t => { t with dba1 := only 63 63 ||| only 55 0 }) ∧
    (∀ n : Fin 26, n ∈ [4, 6, 12, 13, 17, 18, 19, 20, 21, 22, 23, 24, 25].map (Fin.ofNat 26) → Wrote s n r id)

/-- MCALL (R118, R119, R124) in each of a core's eight contexts: nominal time moves past the bundle and the macro stands at entry 0, or at MCX.IDX when an ERET
resumes it with MCX.ACT set, both kinds of match being suppressed once (log 28's reading); an entry that is all zero ends the macro at
once, clears MCX.ACT and goes on. -/
def Sys2Proof.Spec.MacroCall : Prop :=
  ∀ (s : State) (num : Fin 128) (a b : Fin 64) (c : Fin 32) (i : Word),
    let resumes := s.th.noBreak && s.th.mcx.getLsbD 12
    let idx := if resumes then fieldW 11 7 s.th.mcx else 0
    let entry := s.bookEntry (coreCluster s.cur.core) num.val idx
    s.cur.ctx < 8 →
    (entry ≠ 0 → ∃ t, exec (.mcall num a b c i) s = .next t ∧ Only s t ∧
      t.th = { s.th with
        nt := s.th.nt + 1 + s.cur.stall, bundles := s.th.bundles + 1, noBreak := resumes, atHome := false,
        run := some ⟨num.val, idx, a.val, b.val, c.val, i, s.cur.words⟩ }) ∧
    (entry = 0 → ∃ t, exec (.mcall num a b c i) s = .next t ∧ Only s t ∧
      t.th = { s.th with
        nt := s.th.nt + 1 + s.cur.stall, bundles := s.th.bundles + 1, noBreak := resumes, atHome := false, run := none,
        mcx := t.th.mcx, lpst := (loopStep s.th.lpst).1,
        pcc := capSetOff s.th.pcc (if (loopStep s.th.lpst).2 then fieldW 55 0 s.th.lpsa else s.th.pc + 2 * s.cur.words) } ∧
      ∀ k, t.th.mcx.getLsbD k = (decide (k ≠ 12) && s.th.mcx.getLsbD k))

/-- WAITI (R358) in supervisor code: it completes at once where a task is queued on the core; else it parks, or in handler
code takes trap 0x0A with the base word (R159). A parked WAITI completes after its time limit. -/
def Sys2Proof.Spec.WaitForTask : Prop :=
  ∀ s : State,
    (s.th.tctl.getLsbD 2 = true → 0 < taskCount (s.queue s.cur.core) → Gives .waiti s none []) ∧
    (s.th.tctl.getLsbD 2 = true → taskCount (s.queue s.cur.core) = 0 → s.th.handler = false →
      ∃ t, exec .waiti s = .next t ∧ (∀ k, k ≠ s.cur.tid → t.thread k = s.thread k) ∧ t.mem = s.mem ∧
        ∃ p, p.why = .waiti ∧ p.bundle = s.cur ∧ t.th = { s.th with status := .parked p }) ∧
    (s.th.tctl.getLsbD 2 = true → taskCount (s.queue s.cur.core) = 0 → s.th.handler = true →
      Traps .waiti s 0x0A (BitVec.ofNat 64 s.cur.base.toNat)) ∧
    (∀ (core ctx : Nat) (p : Park), (s.thread (tidOf core ctx)).status = .parked p → p.why = .waiti →
      ∃ t, exec (.waitiTimeout core ctx) s = .next t ∧ (t.thread (tidOf core ctx)).status = .running ∧ t.mem = s.mem ∧
        ∀ k, k ≠ tidOf core ctx → t.thread k = s.thread k)

/-- Taking a trap, the trap instructions and the return from a trap; LPST of a BRK or TRAP in a repeated body is log 28's reading. -/
def Obligations.TrapsTaken : Prop :=
  Sys2Proof.Spec.HandledTrapEntry ∧ Sys2Proof.Spec.TrapInstructionsEnter ∧ Sys2Proof.Spec.UnhandledTrapEndsFiring ∧ Sys2Proof.Spec.ReturnFromTrap

/-- SRD and SWR for every system register; logs 15, 51 and 61 name the model's own readings. -/
def Obligations.SystemRegisters : Prop :=
  Sys2Proof.Spec.SystemRegisterReads ∧ Sys2Proof.Spec.SystemRegisterWrites

/-! ## Memory accesses of one thread (spec/07_one_thread.md R83, R87 to R89, R104, R105; spec/13_many_cores.md R185, R189) -/

/-- The instruction completes as a precise access (R372): its result is there before the next bundle issues, and memory
and every other register are unchanged. `s1` is the state after the translation. -/
def Sys2Proof.Spec.Loads (i : Instr) (s s1 : State) (w : RegWrite) : Prop :=
  ∃ t, exec i s = .next t ∧ Caches s t ∧ Goes s.cur s1.th t.th ∧ Rest (s1.th.now w) t.th ∧ t.th.pend = (s1.th.now w).pend

/-- The instruction completes by issuing one store (R189): it joins the thread's stores, and memory and every register are
unchanged. -/
def Sys2Proof.Spec.Stores (i : Instr) (s s1 : State) (addr : Nat) (bytes : List Byte) (tag : Bool) : Prop :=
  ∃ t r, exec i s = .next t ∧ Caches s t ∧ Goes s.cur s1.th t.th ∧
    Rest { s1.th with stores := s.th.stores ++ [r] } t.th ∧ t.th.pend = s.th.pend ∧
    r.addr = addr ∧ r.bytes = bytes ∧ r.tag = tag

/-- Byte k of a word. -/
def Sys2Proof.Spec.byteOf (v : Word) (k : Nat) : Byte := (v >>> (8 * k)).setWidth 8

/-- The exact effective offset of a memory operand (R104). -/
def Sys2Proof.Spec.effective (t : Thread) (a : MemOp) : Int := (capOff (t.rc a.base) : Int) + (src t a.off).toInt

/-- A translation that succeeds changes nothing but caches: no register but the run of bundles since the last ship page,
no byte, no other context. -/
def Sys2Proof.Spec.TranslationKeepsMachine : Prop :=
  ∀ (s s1 : State) (w : Src) (plain : Bool) (c : Cap) (off n perm addr : Nat) (e : TlbEntry), NoMoves s →
    locate w plain c off n perm s = .ok (addr, e) s1 →
    Caches s s1 ∧ s1.th = { s.th with bundles := s1.th.bundles } ∧ (e.loc ≠ 2 → s1.th.bundles = s.th.bundles)

/-- R235 to R237: an access whose page the most recently used TLB entry covers, with the rights it needs and LOC 1 in this
module, goes to FRAME of the slice HOME names, at the offset within the page. -/
def Sys2Proof.Spec.TlbHitAddress : Prop :=
  ∀ (s : State) (w : Src) (plain : Bool) (c : Cap) (off n perm : Nat) (e : TlbEntry) (rest : List TlbEntry),
    s.heldObj (capObj c) = .table → s.tlbOf s.cur.core = e :: rest →
    e.obj = capObj c → e.page ≤ off / 65536 → off / 65536 < e.page + e.count → missing perm e.perm = 0 →
    e.loc = 1 → e.mod = s.here → NoMoves s → s.redirects = [] →
    let addr := e.home * 2 ^ 32 + (e.frame + (off / 65536 - e.page)) * 65536 + off % 65536
    addr < 2 ^ 40 →
    locate w plain c off n perm s = .ok (addr, e) (s.setTlb s.cur.core (e :: rest))

/-- A precise result (R38, R372): its register reads the value at once, no older result of that register remains, every other
register reads as before; register 0 of a constant file stays. -/
def Sys2Proof.Spec.PreciseResultsAtOnce : Prop :=
  ∀ (t : Thread) (w : RegWrite),
    (w.dead = true → t.now w = t) ∧
    (w.dead = false →
      Sys2Proof.Spec.held (t.now w) w.reg = w ∧ (∀ e ∈ (t.now w).pend, e ∈ t.pend ∧ e.w.reg ≠ w.reg) ∧
      ∀ r, r ≠ w.reg → Sys2Proof.Spec.held (t.now w) r = Sys2Proof.Spec.held t r)

/-- The checks of R88 in their order, for LD, LDA, ST, STREL, LDC and STC: cause, and the TVAL of R89. -/
def Obligations.AccessChecksInOrder : Prop :=
  ∀ (s : State) (sz : Option Size) (sc : Scope) (g : GReg) (d : CReg) (a : MemOp),
    let c := s.th.rc a.base
    let ea := Sys2Proof.Spec.effective s.th a
    let n := accSize sz c
    let o := (ea % 2 ^ 56).toNat
    ∀ p ∈ [(Instr.ld sz g a, rR, n), (.lda sz sc g a, rR, n), (.st sz g a, rW, n), (.strel sz sc g a, rW, n),
        (.ldc d a, rR + rC, 16), (.stc d a, if (s.th.rc d).tag then rW + rS else rW, 16)],
      let tv := fun (offs : Nat) => tvalCap 1 a.base.val offs
      let lacks := missing p.2.1 (capRights c)
      let badFmt := capFmt c = 8 ∨ 18 ≤ capFmt c ∨ capBl c ≠ (if 11 ≤ capFmt c ∧ capFmt c ≤ 16 then 5 else 0)
      let outside := ea < capBase c ∨ capTop c < ea + p.2.2
      (c.tag = false → Traps p.1 s 0x04 (tv o)) ∧
      (c.tag = true → lacks ≠ 0 → Traps p.1 s 0x06 (tv lacks)) ∧
      (c.tag = true → lacks = 0 → badFmt → Traps p.1 s 0x07 (tv o)) ∧
      (c.tag = true → lacks = 0 → ¬badFmt → outside → Traps p.1 s 0x05 (tv o)) ∧
      (c.tag = true → lacks = 0 → ¬badFmt → ¬outside → ea % p.2.2 ≠ 0 → Traps p.1 s 0x0E (tv o))

/-- LD and LDA complete (R104, R194): ga is the zero-extended little-endian value of the bytes at the home, each byte the
thread's own latest queued store of it, else memory's (R125). -/
def Sys2Proof.Spec.LoadsComplete : Prop :=
  ∀ (s s1 : State) (sz : Option Size) (sc : Scope) (d : GReg) (a : MemOp) (addr : Nat) (e : TlbEntry),
    let c := s.th.rc a.base
    let n := accSize sz c
    let ea := Sys2Proof.Spec.effective s.th a
    NoMoves s → capCheck c rR ea n n = none → locate (creg a.base) true c ea.toNat n rR s = .ok (addr, e) s1 →
    isForeign addr = false → s1.poisoned addr n = false →
    ∃ v : Word, v.toNat < 2 ^ (8 * n) ∧
      (∀ k, k < n → Sys2Proof.Spec.byteOf v k = (ownByte s.th.stores (addr + k)).getD (memByte s.mem (addr + k))) ∧
      Loads (.ld sz d a) s s1 (.g d v) ∧ Loads (.lda sz sc d a) s s1 (.g d v)

/-- LDC completes (R105): the granule's 128 bits and its tag, as the thread's own queued stores leave them. -/
def Sys2Proof.Spec.CapabilityLoadCompletes : Prop :=
  ∀ (s s1 : State) (d : CReg) (a : MemOp) (addr : Nat) (e : TlbEntry),
    let c := s.th.rc a.base
    let ea := Sys2Proof.Spec.effective s.th a
    NoMoves s → capCheck c (rR + rC) ea 16 16 = none →
    locate (creg a.base) true c ea.toNat 16 rR s = .ok (addr, e) s1 →
    isForeign addr = false → s1.poisoned addr 16 = false →
    ∃ v : Cap,
      (∀ k, k < 8 → Sys2Proof.Spec.byteOf v.w0 k = (ownByte s.th.stores (addr + k)).getD (memByte s.mem (addr + k))) ∧
      (∀ k, k < 8 → Sys2Proof.Spec.byteOf v.w1 k = (ownByte s.th.stores (addr + 8 + k)).getD (memByte s.mem (addr + 8 + k))) ∧
      v.tag = ownTag s.th.stores addr (s.tags.contains (addr / 16)) ∧
      Loads (.ldc d a) s s1 (.c d v)

/-- ST, STREL and STC complete (R104, R105, R194): the low bytes of the register, or the 128 bits with the tag, join the
thread's stores for the address that its operand names; memory is unchanged until the home performs them. -/
def Sys2Proof.Spec.StoresComplete : Prop :=
  ∀ (s s1 : State) (sz : Option Size) (sc : Scope) (r : GReg) (d : CReg) (a : MemOp) (addr : Nat) (e : TlbEntry),
    let c := s.th.rc a.base
    let n := accSize sz c
    let ea := Sys2Proof.Spec.effective s.th a
    NoMoves s →
    (capCheck c rW ea n n = none → locate (creg a.base) true c ea.toNat n rW s = .ok (addr, e) s1 →
      let bytes := (List.range n).map (Sys2Proof.Spec.byteOf (s.th.rg r))
      Stores (.st sz r a) s s1 addr bytes false ∧ Stores (.strel sz sc r a) s s1 addr bytes false) ∧
    (capCheck c (if (s.th.rc d).tag then rW + rS else rW) ea 16 16 = none →
      locate (creg a.base) true c ea.toNat 16 rW s = .ok (addr, e) s1 →
      Stores (.stc d a) s s1 addr
        ((List.range 8).map (Sys2Proof.Spec.byteOf (s.th.rc d).w0) ++ (List.range 8).map (Sys2Proof.Spec.byteOf (s.th.rc d).w1))
        (s.th.rc d).tag)

/-- HOME_REQUEST_APPLY (R87, R125, R188): the oldest store of a context is performed where its address now leads; its bytes are
there, every other byte of memory is unchanged, its granules hold a tag only if it brings one, and it has left the queue. -/
def Obligations.StoreApplied : Prop :=
  ∀ (s : State) (core ctx : Nat) (r : StoreReq) (rest : List StoreReq),
    let tid := tidOf core ctx
    let addr := (s.reach core r.addr).1
    let len := r.bytes.length
    ctx < 8 → NoMoves s → (s.thread tid).stores = r :: rest → 0 < len → addr < 2 ^ 50 →
    ∃ t, exec (.homeRequestApply core ctx) s = .next t ∧
      (∀ k, k < len → memByte t.mem (addr + k) = r.bytes.getD k 0) ∧
      (∀ x, x < addr ∨ addr + len ≤ x → memByte t.mem x = memByte s.mem x) ∧
      (∀ g, g * 16 + 16 ≤ addr ∨ addr + len ≤ g * 16 → (t.tags.contains g = s.tags.contains g)) ∧
      (∀ g, addr < g * 16 + 16 → g * 16 < addr + len → r.tag = false → t.tags.contains g = false) ∧
      (r.tag = true → addr < 2 ^ 42 → t.tags.contains (addr / 16) = true) ∧
      (t.thread tid).stores = rest ∧ (t.thread tid).pend = (s.thread tid).pend ∧
      (∀ k, { t.thread k with status := .free, stores := [] } = { s.thread k with status := .free, stores := [] }) ∧
      ∀ k, k ≠ tid → (t.thread k).stores = (s.thread k).stores

/-- JTAB (R114): an index in the table jumps by its signed entry and sets p7; an index beyond it clears p7 and goes on; the
checks that come before the entry is read trap with OFFS at the base. -/
def Sys2Proof.Spec.JumpTable : Prop :=
  ∀ (s s1 : State) (a : CReg) (x : GReg) (addr : Nat) (e : TlbEntry),
    let c := s.th.rc a
    let i := (s.th.rg x).toNat
    let n := (capTop c - capBase c).toNat / 4
    let ea := capBase c + 4 * i
    let ok := c.tag = true ∧ c.w1.getLsbD 7 = true ∧ capBadFmt c = false
    (ok → n ≤ i → Loads (.jtab a x) s s (.p 7 false)) ∧
    (c.tag = false → Traps (.jtab a x) s 0x04 (tvalCap 1 a.val (capBase c))) ∧
    (c.tag = true → c.w1.getLsbD 7 = false → Traps (.jtab a x) s 0x06 (tvalCap 1 a.val 0x80)) ∧
    (c.tag = true → c.w1.getLsbD 7 = true → capBadFmt c = true → Traps (.jtab a x) s 0x07 (tvalCap 1 a.val (capBase c))) ∧
    (ok → i < n → ea % 4 ≠ 0 → Traps (.jtab a x) s 0x0E (tvalCap 1 a.val ea)) ∧
    (ok → i < n → ea % 4 = 0 → NoMoves s → locate (creg a) false c ea 4 rR s = .ok (addr, e) s1 →
      isForeign addr = false → s1.poisoned addr 4 = false →
      ∃ v : BitVec 32,
        (∀ k, k < 4 → (v >>> (8 * k)).setWidth 8 = (ownByte s.th.stores (addr + k)).getD (memByte s.mem (addr + k))) ∧
        let tgt : Int := (s.th.pc : Int) + 2 * v.toInt
        capBase s.th.pcc ≤ tgt → tgt < capTop s.th.pcc →
          ∃ t, exec (.jtab a x) s = .next t ∧ Caches s t ∧ Rest (s1.th.now (.p 7 true)) t.th ∧
            t.th.pend = (s1.th.now (.p 7 true)).pend ∧ Lands s.cur s1.th t.th (capSetOff s.th.pcc tgt.toNat))

/-- What registers read and what writes leave. -/
def Obligations.RegistersReadAndWritten : Prop :=
  Sys2Proof.Spec.RegisterZeroReads ∧ Sys2Proof.Spec.RegisterZeroWritesDiscarded ∧ Sys2Proof.Spec.LatestProducerRead ∧ Sys2Proof.Spec.PreciseResultsAtOnce ∧ Sys2Proof.Spec.InterlockedResultAwaited

/-- Branches, jumps, calls, returns and jump tables, with the spill and the reload of return addresses; logs 53, 62 and 63 name the model's
own choices in them. -/
def Obligations.BranchesAndCalls : Prop :=
  Sys2Proof.Spec.BranchesComplete ∧ Sys2Proof.Spec.CallsAndJumps ∧ Sys2Proof.Spec.ReturnPops ∧ Sys2Proof.Spec.JumpTable

/-- Translation: what it changes and the address of a hit. -/
def Obligations.AccessAddresses : Prop :=
  Sys2Proof.Spec.TranslationKeepsMachine ∧ Sys2Proof.Spec.TlbHitAddress

/-- LD, LDA, LDC, ST, STREL and STC complete. -/
def Obligations.LoadsAndStores : Prop :=
  Sys2Proof.Spec.LoadsComplete ∧ Sys2Proof.Spec.CapabilityLoadCompletes ∧ Sys2Proof.Spec.StoresComplete

/-! ## The vector engine (spec/09_vector.md R130 to R151) -/

/-- Element j of width w of a v register (R130). -/
def Sys2Proof.Spec.lane (w : Nat) (x : VWord) (j : Nat) : BitVec w := (x >>> (w * j)).setWidth w

/-- Element j of width w is active under a mask (R130): the bit of its lane, or bit 2j of a 64-bit element. -/
def Sys2Proof.Spec.active (w : Nat) (m : Mask) (j : Nat) : Bool := m.getLsbD (w * j / 32)

/-- The register x holds, element by element, a property where active, and old values or zero elsewhere (R131). -/
def Sys2Proof.Spec.Governed (t : Thread) (w : Nat) (vm : VM) (d : VReg) (x : VWord) (P : Nat → BitVec w → Prop) : Prop :=
  ∀ j, j < 512 / w →
    if Sys2Proof.Spec.active w (t.rm vm.mask) j then P j (lane w x j)
    else lane w x j = if vm.zero then 0 else lane w (t.rv d) j

/-- The instruction completes and gives a v register whose active elements have a property. -/
def Sys2Proof.Spec.GivesV (i : Instr) (s : State) (lat w : Nat) (d : VReg) (vm : VM) (P : Nat → BitVec w → Prop) : Prop :=
  ∃ x, Sys2Proof.Spec.Governed s.th w vm d x P ∧ Gives i s (some lat) [.v d x]

/-- The LFSR after n steps of a rounding mode (R31). -/
def Sys2Proof.Spec.lfsrAfter (r : Rnd) (l : BitVec 32) (n : Nat) : BitVec 32 := if r = .rs then lfsrStep^[n] l else l

/-- The active elements among the first n. -/
def Sys2Proof.Spec.activeIn (w : Nat) (m : Mask) (n : Nat) : Nat :=
  (List.range n).countP fun j => Sys2Proof.Spec.active w m j

/-- The instruction completes as lanes that round, in ascending order with one LFSR step for each active one (R31, R132). -/
def Sys2Proof.Spec.RoundsV (i : Instr) (s : State) (r : Rnd) (w : Nat) (d : VReg) (vm : VM)
    (f : BitVec 32 → Nat → BitVec w) : Prop :=
  let m := s.th.rm vm.mask
  let after := fun n => lfsrAfter r s.th.lfsr (Sys2Proof.Spec.activeIn w m n)
  ∃ x t, Sys2Proof.Spec.Governed s.th w vm d x (fun j v => v = f (after (j + 1)) j) ∧
    exec i s = .next t ∧ Only s t ∧ Goes s.cur s.th t.th ∧ Rest { s.th with lfsr := after (512 / w) } t.th ∧
    t.th.pend = Joined s.th.pend (some (s.th.nt + 4)) [.v d x]

/-- The integer element codes with their widths (R13). -/
def Sys2Proof.Spec.intCodes : List (Elem × Nat) := [(.i8, 8), (.i16, 16), (.i32, 32), (.i64, 64)]

/-- VADD, VSUB, VMUL, VMIN and VMAX on integer elements (R134), and VAND, VOR and VXOR (R135). -/
def Sys2Proof.Spec.VectorIntegerArithmetic : Prop :=
  ∀ (s : State) (r : Rnd) (d x y : VReg) (vm : VM),
    (∀ p ∈ intCodes,
      let w := p.2
      let a := fun j => lane w (s.th.rv x) j
      let b := fun j => lane w (s.th.rv y) j
      GivesV (.vadd r p.1 d x y vm) s 4 w d vm (fun j v => v = a j + b j) ∧
      GivesV (.vsub r p.1 d x y vm) s 4 w d vm (fun j v => v = a j - b j) ∧
      GivesV (.vmul r p.1 d x y vm) s 4 w d vm (fun j v => v = a j * b j) ∧
      GivesV (.vmin p.1 false d x y vm) s 4 w d vm (fun j v => v.toInt = min (a j).toInt (b j).toInt) ∧
      GivesV (.vmin p.1 true d x y vm) s 4 w d vm (fun j v => v.toNat = min (a j).toNat (b j).toNat) ∧
      GivesV (.vmax p.1 false d x y vm) s 4 w d vm (fun j v => v.toInt = max (a j).toInt (b j).toInt) ∧
      GivesV (.vmax p.1 true d x y vm) s 4 w d vm (fun j v => v.toNat = max (a j).toNat (b j).toNat)) ∧
    (let a := fun j => lane 32 (s.th.rv x) j
     let b := fun j => lane 32 (s.th.rv y) j
     GivesV (.vand d x y vm) s 4 32 d vm (fun j v => v = a j &&& b j) ∧
     GivesV (.vor d x y vm) s 4 32 d vm (fun j v => v = a j ||| b j) ∧
     GivesV (.vxor d x y vm) s 4 32 d vm (fun j v => v = a j ^^^ b j))

/-- VSHL, VSHR and VSAR with an immediate or an element count (R136), VCLZ, VPOPC and VBITI (R137). -/
def Sys2Proof.Spec.VectorShiftsAndBits : Prop :=
  ∀ (s : State) (d x y : VReg) (n : VOpd) (m : MReg) (vm : VM),
    (∀ p ∈ intCodes,
      let w := p.2
      let a := fun j => lane w (s.th.rv x) j
      let count := fun j => match n with | .imm v => v.toNat | .reg r => (lane w (s.th.rv r) j).toNat
      GivesV (.vshl p.1 d x n m) s 2 w d ⟨m, false⟩ (fun j v => v = if count j < w then a j <<< count j else 0) ∧
      GivesV (.vshr p.1 false d x n m) s 2 w d ⟨m, false⟩ (fun j v => v = if count j < w then a j >>> count j else 0) ∧
      GivesV (.vshr p.1 true d x n m) s 2 w d ⟨m, false⟩ (fun j v => ∀ k, k < w →
        v.getLsbD k = if k + count j < w then (a j).getLsbD (k + count j) else (a j).msb) ∧
      GivesV (.vclz p.1 d x vm) s 2 w d vm (fun j v =>
        (a j = 0 → v.toNat = w) ∧ (a j ≠ 0 → v.toNat < w ∧ (a j).toNat / 2 ^ (w - 1 - v.toNat) = 1)) ∧
      GivesV (.vpopc p.1 d x vm) s 2 w d vm (fun j v => v.toNat = countBits ((a j).setWidth 64) w)) ∧
    GivesV (.vbiti d x y vm) s 2 32 d vm (fun j v => ∀ k, k < 32 →
      v.getLsbD k = ((decide (0 < k) && (lane 32 (s.th.rv y) j).getLsbD (k - 1)) ||
        (decide (k % 3 = 0) && (lane 32 (s.th.rv x) j).getLsbD (k / 3))))

/-- VADD, VSUB, VMUL, VFMA, VMIN and VMAX on floating elements (R134), VCVT and VCVTF (R143): each lane as the scalar operation
gives it. -/
def Obligations.VectorFloat : Prop :=
  ∀ (s : State) (r : Rnd) (d x y : VReg) (vm : VM),
    (∀ p ∈ scalarFormats,
      let w := 1 + p.2.1 + p.2.2
      let f := elemFmt p.1
      let a := fun j => (lane w (s.th.rv x) j).toNat
      let b := fun j => (lane w (s.th.rv y) j).toNat
      let o := fun j => (lane w (s.th.rv d) j).toNat
      RoundsV (.vadd r p.1 d x y vm) s r w d vm (fun l j => BitVec.ofNat w (fAdd f r l (a j) (b j))) ∧
      RoundsV (.vsub r p.1 d x y vm) s r w d vm (fun l j => BitVec.ofNat w (fSub f r l (a j) (b j))) ∧
      RoundsV (.vmul r p.1 d x y vm) s r w d vm (fun l j => BitVec.ofNat w (fMul f r l (a j) (b j))) ∧
      RoundsV (.vfma r p.1 d x y vm) s r w d vm (fun l j => BitVec.ofNat w (fFma f r l (a j) (b j) (o j))) ∧
      GivesV (.vmin p.1 false d x y vm) s 4 w d vm (fun j v => v = BitVec.ofNat w (fMinMax f false (a j) (b j))) ∧
      GivesV (.vmax p.1 false d x y vm) s 4 w d vm (fun j v => v = BitVec.ofNat w (fMinMax f true (a j) (b j)))) ∧
    (∀ e ∈ [Elem.i32, .fp16, .bf16, .e4m3, .e5m2],
      let a := fun j => (lane 32 (s.th.rv x) j).toNat
      RoundsV (.vcvt false r e d x vm) s r 32 d vm (fun l j => (fromFp32 r l e (a j)).setWidth 32) ∧
      RoundsV (.vcvt true r e d x vm) s r 32 d vm (fun l j => BitVec.ofNat 32 (toFp32 r l e (a j))))

/-- VCMP (R138), VSEL (R139) and VMASK (R140): the result bits inside the governing mask, the others kept or cleared, and the
predicate. -/
def Sys2Proof.Spec.VectorCompareAndMasks : Prop :=
  ∀ (s : State) (c : Cond) (d : MReg) (v x y : VReg) (vm : VM) (p : PReg) (b1 b2 : MReg) (g : GReg),
    let t := s.th
    let gov := t.rm vm.mask
    (∀ q ∈ [(Elem.i32, 32), (.i64, 64), (.fp32, 32)],
      let w := q.2
      let test := fun j =>
        if q.1 = .fp32 then fpCond c (fp32.decode (lane w (t.rv x) j).toNat) (fp32.decode (lane w (t.rv y) j).toNat)
        else intCond c (lane w (t.rv x) j).toInt (lane w (t.rv y) j).toInt (lane w (t.rv x) j).toNat (lane w (t.rv y) j).toNat
      ∃ r : Mask, Gives (.vcmp c q.1 d x y vm) s (some 4) [.m d r] ∧
        ∀ k, k < 16 →
          let j := k * 32 / w
          r.getLsbD k = if Sys2Proof.Spec.active w gov j then test j else if vm.zero then false else (t.rm d).getLsbD k) ∧
    GivesV (.vsel v x y d) s 4 32 v ⟨0, false⟩ (fun j r =>
      r = if (t.rm d).getLsbD j then lane 32 (t.rv x) j else lane 32 (t.rv y) j) ∧
    (let inside := fun (r : Mask) (k : Nat) => r.getLsbD k && gov.getLsbD k
     let any := fun (r : Mask) => decide (r &&& gov ≠ 0)
     let into := fun (o : MaskOp) (r : Mask) => ∃ res : Mask,
       Gives (.vmask p o vm) s (some 1) [.m d res, .p p (any r)] ∧
       ∀ k, k < 16 → res.getLsbD k = if gov.getLsbD k then r.getLsbD k else if vm.zero then false else (t.rm d).getLsbD k
     let a := t.rm b1
     let b := t.rm b2
     into (.mov d b1) a ∧ into (.and d b1 b2) (a &&& b) ∧ into (.or d b1 b2) (a ||| b) ∧ into (.xor d b1 b2) (a ^^^ b) ∧
     into (.andn d b1 b2) (a &&& ~~~b) ∧ into (.not d b1) (~~~a) ∧ into (.fromG d g) ((t.rg g).setWidth 16) ∧
     (∃ low : Mask, into (.first d b1) low ∧
       ∀ k, k < 16 → (low.getLsbD k = true ↔ a.getLsbD k = true ∧ ∀ i, i < k → a.getLsbD i = false)) ∧
     ∃ r : Word, Gives (.vmask p (.toG g b1) vm) s (some 1) [.g g r, .p p (any a)] ∧
       ∀ k, r.getLsbD k = (decide (k < 16) && inside a k))

/-- VBCAST, VEXT, VINS (R141), VPERM (R142), VCOMP and VXPND (R144). -/
def Sys2Proof.Spec.VectorMoves : Prop :=
  ∀ (s : State) (d x y : VReg) (g : GReg) (idx : Opd) (vm : VM),
    let t := s.th
    (∀ p ∈ [(Elem.i8, 8), (.i16, 16), (.i32, 32), (.i64, 64), (.fp16, 16), (.bf16, 16), (.fp32, 32)],
      let w := p.2
      let i := (src t idx).toNat
      GivesV (.vbcast p.1 d g vm) s 4 w d vm (fun _ v => v = (t.rg g).setWidth w) ∧
      GivesG (.vext p.1 g x idx) s (some 4) g (fun v =>
        (512 / w ≤ i → v = 0) ∧
        (i < 512 / w → elemIsInt p.1 = true → v.toInt = (lane w (t.rv x) i).toInt) ∧
        (i < 512 / w → elemIsInt p.1 = false → v.toNat = (lane w (t.rv x) i).toNat)) ∧
      GivesV (.vins p.1 d g idx) s 4 w d ⟨0, false⟩ (fun j v =>
        v = if j = i then (t.rg g).setWidth w else lane w (t.rv d) j)) ∧
    GivesV (.vperm d x y vm) s 2 32 d vm (fun j v =>
      v = if (lane 32 (t.rv y) j).toNat < 16 then lane 32 (t.rv x) (lane 32 (t.rv y) j).toNat else 0) ∧
    (∀ p ∈ [(Elem.i32, 32), (.fp32, 32), (.i64, 64)],
      let w := p.2
      let on := Sys2Proof.Spec.active w (t.rm vm.mask)
      let before := Sys2Proof.Spec.activeIn w (t.rm vm.mask)
      GivesV (.vxpnd p.1 d x vm) s 4 w d vm (fun j v => v = lane w (t.rv x) (before j)) ∧
      ∃ r : VWord, Gives (.vcomp p.1 d x vm) s (some 4) [.v d r] ∧
        (∀ j, j < 512 / w → on j = true → lane w r (before j) = lane w (t.rv x) j) ∧
        ∀ k, before (512 / w) ≤ k → k < 512 / w → lane w r k = if vm.zero then 0 else lane w (t.rv d) k)

/-- VRED and VSCAN (R145, R146): on integers the sum, least or greatest of the active elements and of each prefix; on FP32 the
pairing order of R145, one rounding for each pair. -/
def Sys2Proof.Spec.VectorReductions : Prop :=
  ∀ (s : State) (r : Rnd) (g : GReg) (d x : VReg) (m : MReg) (vm : VM),
    let t := s.th
    (∀ p ∈ [(Elem.i32, 32), (.i64, 64)],
      let w := p.2
      let n := 512 / w
      let on := Sys2Proof.Spec.active w (t.rm m)
      let a := fun j => lane w (t.rv x) j
      let sum := fun (on : Nat → Bool) k => ((List.range k).filter fun j => on j).foldl (fun z j => z + a j) (0 : BitVec w)
      GivesG (.vred .add r p.1 g x m) s (some 8) g (fun v => v.toInt = (sum on n).toInt) ∧
      GivesG (.vred .min r p.1 g x m) s (some 8) g (fun v =>
        (∀ j, j < n → on j = true → v.toInt ≤ (a j).toInt) ∧
        ((∃ j, j < n ∧ on j = true ∧ v.toInt = (a j).toInt) ∨
          (∀ j, j < n → on j = false) ∧ v.toInt = 2 ^ (w - 1) - 1)) ∧
      GivesG (.vred .max r p.1 g x m) s (some 8) g (fun v =>
        (∀ j, j < n → on j = true → (a j).toInt ≤ v.toInt) ∧
        ((∃ j, j < n ∧ on j = true ∧ v.toInt = (a j).toInt) ∨
          (∀ j, j < n → on j = false) ∧ v.toInt = -2 ^ (w - 1))) ∧
      GivesV (.vscan .add r p.1 d x vm) s 8 w d vm (fun j v =>
        v = sum (Sys2Proof.Spec.active w (t.rm vm.mask)) (j + 1)) ∧
      GivesV (.vscan .min r p.1 d x vm) s 8 w d vm (fun j v =>
        (∀ k, k ≤ j → Sys2Proof.Spec.active w (t.rm vm.mask) k = true → v.toInt ≤ (a k).toInt) ∧
        ∃ k, k ≤ j ∧ Sys2Proof.Spec.active w (t.rm vm.mask) k = true ∧ v = a k) ∧
      GivesV (.vscan .max r p.1 d x vm) s 8 w d vm (fun j v =>
        (∀ k, k ≤ j → Sys2Proof.Spec.active w (t.rm vm.mask) k = true → (a k).toInt ≤ v.toInt) ∧
        ∃ k, k ≤ j ∧ Sys2Proof.Spec.active w (t.rm vm.mask) k = true ∧ v = a k)) ∧
    (let a := fun j => (lane 32 (t.rv x) j).toNat
     (∀ op, GivesG (.vred op r .fp32 g x m) s (some 8) g (fun v =>
        v = BitVec.ofNat 64 ((redPairs (redOp op r .fp32) 4 ((List.range 16).map fun j =>
          if (t.rm m).getLsbD j then some (a j) else none)).getD
            (match op with | .add => 0 | .min => 0x7F800000 | .max => 0xFF800000)))) ∧
     (∀ op, GivesV (.vscan op r .fp32 d x vm) s 8 32 d vm (fun j v =>
       match ((List.range (j + 1)).filter fun k => (t.rm vm.mask).getLsbD k).map a with
       | [] => False
       | h :: tl => v = BitVec.ofNat 32 (tl.foldl (redOp op r .fp32) h))))

/-- VTWO (R148): every row of its table, the two advance masks and the predicate. -/
def Sys2Proof.Spec.TwoPointerCompare : Prop :=
  ∀ (s : State) (mode : TwoMode) (k : Fin 3) (p : PReg) (d x y : VReg) (vm : VM),
    let t := s.th
    let on := fun j => (t.rm vm.mask).getLsbD j
    let a := fun j => lane 32 (t.rv x) j
    let b := fun j => lane 32 (t.rv y) j
    let fin : BitVec 32 := 0xFFFFFFFF
    let stops := fun j => match mode with
      | .intersect => a j = fin ∨ b j = fin
      | .union => a j = fin ∧ b j = fin
      | .difference => a j = fin
    let lt := fun j => (a j).toNat < (b j).toNat
    let gt := fun j => (b j).toNat < (a j).toNat
    ∃ (v : VWord) (ma mb : Mask) (live : Bool),
      Gives (.vtwo mode k p d x y vm) s (some 4)
        [.v d v, .m (Fin.ofNat 8 (2 * k.val + 2)) ma, .m (Fin.ofNat 8 (2 * k.val + 3)) mb, .p p live] ∧
      (∀ j, j < 16 →
        (on j = false → ma.getLsbD j = false ∧ mb.getLsbD j = false ∧
          lane 32 v j = if vm.zero then 0 else lane 32 (t.rv d) j) ∧
        (on j = true → stops j → lane 32 v j = fin ∧ ma.getLsbD j = false ∧ mb.getLsbD j = false) ∧
        (on j = true → ¬stops j → lt j → ma.getLsbD j = true ∧ mb.getLsbD j = false ∧
          lane 32 v j = match mode with | .intersect => fin | .union => a j | .difference => a j) ∧
        (on j = true → ¬stops j → gt j → ma.getLsbD j = false ∧ mb.getLsbD j = true ∧
          lane 32 v j = match mode with | .intersect => fin | .union => b j | .difference => fin) ∧
        (on j = true → ¬stops j → a j = b j → ma.getLsbD j = true ∧ mb.getLsbD j = true ∧
          lane 32 v j = match mode with | .intersect => a j | .union => a j | .difference => fin)) ∧
      (live = true ↔ ∃ j, j < 16 ∧ on j = true ∧ ¬stops j)

/-- VLD, VLDX, VST and VSTX complete where every active lane passes R88 and translates without changing anything (R149 to
R151): loads bring each active lane its bytes, converted for VLDX, and a VLD without an active lane does nothing; stores join the
thread's stores in ascending lane order. -/
def Sys2Proof.Spec.VectorMemory : Prop :=
  ∀ (s : State) (r : Rnd) (e : Elem) (u : Bool) (d ix : VReg) (a : MemOp) (c : CReg) (m : MReg) (vm : VM)
    (addr : Nat → Nat) (ent : Nat → TlbEntry),
    let t := s.th
    let lanes := fun (m : MReg) => (List.range 16).filter fun j => (t.rm m).getLsbD j
    let size := velemWidth e / 8
    let ea1 := fun (j : Nat) => Sys2Proof.Spec.effective t a + 4 * j
    let ea2 := fun (j : Nat) => (capOff (t.rc c) : Int) + (lane 32 (t.rv ix) j).toInt * size
    let good := fun (base : CReg) (need perm n : Nat) (ea : Nat → Int) (m : MReg) =>
      ∀ j ∈ lanes m, capCheck (t.rc base) need (ea j) n n = none ∧
        locate (creg base) true (t.rc base) (ea j).toNat n perm s = .ok (addr j, ent j) s ∧
        (ent j).mig = false ∧ isForeign (addr j) = false ∧ s.poisoned (addr j) n = false
    let read := fun (n j : Nat) => leNat ((List.range n).map fun k =>
      (ownByte t.stores (addr j + k)).getD (memByte s.mem (addr j + k)))
    let loads := fun (i : Instr) (vm : VM) (f : Nat → BitVec 32) =>
      ∃ x, Loads i s s (.v d x) ∧ Sys2Proof.Spec.Governed t 32 vm d x (fun j v => v = f j)
    let stores := fun (i : Instr) (n : Nat) (m : MReg) (l : BitVec 32) (f : Nat → Nat) =>
      ∃ t' rs, exec i s = .next t' ∧ Only s t' ∧ Goes s.cur t t'.th ∧
        Rest { t with stores := t.stores ++ rs, lfsr := l } t'.th ∧ t'.th.pend = t.pend ∧
        rs.map (fun q => (q.addr, q.bytes, q.tag)) = (lanes m).map fun j => (addr j, leBytes n (f j), false)
    (lanes m = [] → Gives (.vld d a m) s none []) ∧
    (lanes m ≠ [] → good a.base rR rR 4 ea1 m → loads (.vld d a m) ⟨m, false⟩ (fun j => BitVec.ofNat 32 (read 4 j))) ∧
    (good a.base rW rW 4 ea1 m → stores (.vst d a m) 4 m t.lfsr (fun j => (lane 32 (t.rv d) j).toNat)) ∧
    (e ∈ [Elem.i8, .i16, .i32, .fp16, .bf16, .fp32, .e4m3, .e5m2] → good c rR rR size ea2 vm.mask →
      loads (.vldx e u d c ix vm) vm (fun j => BitVec.ofNat 32 (intoLane e u (read size j)))) ∧
    (e ∈ [Elem.i8, .i16, .i32, .fp16, .bf16, .fp32, .e4m3, .e5m2] → good c rW rW size ea2 m →
      stores (.vstx r e d c ix m) size m (lfsrAfter r t.lfsr (lanes m).length) (fun j =>
        fromLane r (lfsrAfter r t.lfsr (Sys2Proof.Spec.activeIn 32 (t.rm m) (j + 1))) e (lane 32 (t.rv d) j).toNat))

/-- R149 to R151: the first active lane of VLD, VST, VLDX or VSTX, in ascending order, that fails R88 is the one reported, and nothing is
loaded or stored. -/
def Sys2Proof.Spec.VectorAccessChecks : Prop :=
  ∀ (s : State) (r : Rnd) (el : Elem) (u : Bool) (d ix : VReg) (a : MemOp) (c : CReg) (m : MReg) (vm : VM) (j cause offs : Nat),
    let t := s.th
    let size := velemWidth el / 8
    let ea1 := fun (j : Nat) => Sys2Proof.Spec.effective t a + 4 * j
    let ea2 := fun (j : Nat) => (capOff (t.rc c) : Int) + (lane 32 (t.rv ix) j).toInt * size
    let first := fun (base : CReg) (need n : Nat) (ea : Nat → Int) (m : MReg) =>
      (t.rm m).getLsbD j = true ∧
        (∀ i, i < j → (t.rm m).getLsbD i = true → capCheck (t.rc base) need (ea i) n n = none) ∧
        capCheck (t.rc base) need (ea j) n n = some (cause, offs)
    j < 16 →
    (first a.base rR 4 ea1 m → Traps (.vld d a m) s cause (tvalCap 1 a.base.val offs)) ∧
    (first a.base rW 4 ea1 m → Traps (.vst d a m) s cause (tvalCap 1 a.base.val offs)) ∧
    (el ∈ [Elem.i8, .i16, .i32, .fp16, .bf16, .fp32, .e4m3, .e5m2] →
      (first c rR size ea2 vm.mask → Traps (.vldx el u d c ix vm) s cause (tvalCap 1 c.val offs)) ∧
      (first c rW size ea2 m → Traps (.vstx r el d c ix m) s cause (tvalCap 1 c.val offs)))

/-- Integer, logical, shift and bit instructions of the vector engine. -/
def Obligations.VectorIntegers : Prop :=
  Sys2Proof.Spec.VectorIntegerArithmetic ∧ Sys2Proof.Spec.VectorShiftsAndBits

/-- Compares, masks, moves, reductions and two-pointer steps. -/
def Obligations.VectorComparesAndMoves : Prop :=
  Sys2Proof.Spec.VectorCompareAndMasks ∧ Sys2Proof.Spec.VectorMoves ∧ Sys2Proof.Spec.VectorReductions ∧ Sys2Proof.Spec.TwoPointerCompare

/-- Vector loads, stores, gathers and scatters; that all lanes of one are accessed in one step is the model's choice (log 85). -/
def Obligations.VectorMemory : Prop :=
  Sys2Proof.Spec.VectorMemory ∧ Sys2Proof.Spec.VectorAccessChecks

/-! ## Fences, atomics, counters and versioned words (spec/13_many_cores.md R193 to R197, R209; spec/11_one_core.md R176 to R180) -/

/-- Two states differ at most in memory and its tags and poison, in the contexts, the wait tables, and what `Caches` allows. -/
def Sys2Proof.Spec.Writes (s t : State) : Prop :=
  t = { s with
    mem := t.mem, tags := t.tags, poison := t.poison, bufPoison := t.bufPoison, threads := t.threads, waits := t.waits,
    vers := t.vers, vbuf := t.vbuf, tlb := t.tlb, pages := t.pages, notices := t.notices, fabric := t.fabric,
    frees := t.frees } ∧
    ∀ k, k ≠ s.cur.tid → { t.thread k with status := .free } = { s.thread k with status := .free }

/-- Bytes stand at an address, and every other byte of memory is as before. -/
def Sys2Proof.Spec.Stored (s t : State) (addr : Nat) (bytes : List Byte) : Prop :=
  (∀ k, k < bytes.length → memByte t.mem (addr + k) = bytes.getD k 0) ∧
    ∀ x, x < addr ∨ addr + bytes.length ≤ x → memByte t.mem x = memByte s.mem x

/-- The thread after a precise access with results `ws`, in order. -/
def Sys2Proof.Spec.Precise (s s1 t : State) (ws : List RegWrite) : Prop :=
  Goes s.cur s1.th t.th ∧ Rest (ws.foldl (fun u w => u.now w) s1.th) t.th ∧
    t.th.pend = (ws.foldl (fun u w => u.now w) s1.th).pend

/-- No redirect entry is kept for the frame of an address (R247). -/
def Sys2Proof.Spec.Settled (s : State) (addr : Nat) : Prop := ∀ r ∈ s.redirects, r.old ≠ frameOf addr

/-- The granules of n bytes at an address have no tag, and every other granule's is as before (R87, R197). -/
def Sys2Proof.Spec.Untagged (s t : State) (addr n : Nat) : Prop :=
  ∀ g, t.tags.contains g = (s.tags.contains g && decide (g * 16 + 16 ≤ addr ∨ addr + n ≤ g * 16))

/-- What an atomic access of n bytes meets when it goes through: the checks of R88 with rights R, W and A, a translation, no
store of the thread still queued, no poison. -/
def Sys2Proof.Spec.AtomicAt (s s1 : State) (a : CReg) (ea : Int) (n addr : Nat) (e : TlbEntry) : Prop :=
  NoMoves s ∧ Settled s addr ∧ s.th.status = .running ∧ s.th.stores = [] ∧ capCheck (s.th.rc a) (rR + rW + Machine.rA) ea n n = none ∧
    locate (creg a) true (s.th.rc a) ea.toNat n (rR + rW) s = .ok (addr, e) s1 ∧ isForeign addr = false ∧
    s1.poisoned addr n = false

/-- The new word of an AMO (R195). -/
def Sys2Proof.Spec.amoWord (op : AmoOp) {w : Nat} (x v : BitVec w) : BitVec w :=
  match op with
  | .swap => v
  | .add => x + v
  | .and => x &&& v
  | .or => x ||| v
  | .xor => x ^^^ v
  | .min => if x.toInt ≤ v.toInt then x else v
  | .max => if x.toInt ≤ v.toInt then v else x
  | .minu => if x.toNat ≤ v.toNat then x else v
  | .maxu => if x.toNat ≤ v.toNat then v else x
  | .fadd => BitVec.ofNat w (fAdd fp32 .rne 0 x.toNat v.toNat)

/-- The landings of transfers that a fence's kinds order (R193): those of RGET and RGETX for .LL, those of the others that write at
another home for .SS; .LS and .SL order none. -/
def Sys2Proof.Spec.orders (k : FenceKinds) (x : Xfer) : Prop :=
  (k.ll = true ∧ (x.kind = .get ∨ x.kind = .getx)) ∨
    (k.ss = true ∧ (x.kind = .send ∨ x.kind = .sig ∨ x.kind = .sendx ∨ x.kind = .arith))

/-- FENCE (R187, R193): where every unit of the firing's transfers whose landings it orders has landed, it completes, and where it orders
stores (.SL, .SS) no store whose home lies in its scope is queued after it; while a unit that it orders has still to land at a home in its
scope, it waits and changes nothing (the scopes' homes are log 22's reading of R187). -/
def Sys2Proof.Spec.FenceCompletes : Prop :=
  ∀ (s : State) (k : FenceKinds) (sc : Scope),
    let mine := fun (x : Xfer) => x ∈ s.xfers ∧ x.org.firing = s.origin.firing ∧ orders k x
    let landed := ∀ x, mine x → (x.kind = .sendx → x.list.isSome = true) ∧ ∀ u, u < s.units x → u ∈ x.landed
    let started := s.drainScope sc
    (landed → k.sl = false → k.ss = false → Gives (.fence k sc) s none []) ∧
    (landed → k.sl = true ∨ k.ss = true → ∃ t, exec (.fence k sc) s = .next t ∧ t = started.setTh t.th ∧
      Goes s.cur started.th t.th ∧ Rest started.th t.th ∧ t.th.pend = started.th.pend ∧
      (NoMoves s → s.redirects = [] → (∀ r ∈ s.th.stores, r.mig = false) →
        (∀ r ∈ t.th.stores, s.inScope sc r.addr = false) ∧ ∃ done, s.th.stores = done ++ t.th.stores)) ∧
    (∀ x u a, mine x → u < s.units x → u ∉ x.landed → s.unitHome x u = some a → s.inScope sc a = true →
      exec (.fence k sc) s = .next s)

/-- AMO (R195, R197) completes as one step at the home: ga becomes the old word, zero-extended, memory the new word, its granule's tag is
cleared, and nothing else of memory changes; a size of neither 4 nor 8 bytes, or FADD of 8, takes trap 0x07. -/
def Sys2Proof.Spec.AtomicReadModifyWrite : Prop :=
  ∀ (s s1 : State) (op : AmoOp) (sz : Option Size) (sc : Scope) (d : GReg) (a : MemOp) (addr : Nat) (e : TlbEntry),
    let c := s.th.rc a.base
    let n := accSize sz c
    let ea := Sys2Proof.Spec.effective s.th a
    let fits := n = 4 ∨ n = 8 ∧ op ≠ .fadd
    AtomicAt s s1 a.base ea n addr e →
    (fits → ∃ (t : State) (x : BitVec (8 * n)), exec (.amo op sz sc d a) s = .next t ∧ Writes s t ∧
      (∀ k, k < n → (x >>> (8 * k)).setWidth 8 = memByte s.mem (addr + k)) ∧
      Stored s t addr ((List.range n).map fun k =>
        (amoWord op x ((s.th.rg d).setWidth (8 * n)) >>> (8 * k)).setWidth 8) ∧ Untagged s t addr n ∧
      Precise s s1 t [.g d (x.setWidth 64)]) ∧
    (¬fits → Traps (.amo op sz sc d a) s 0x07 (tvalCap 1 a.base.val ea.toNat))

/-- CAS (R196, R197) completes: ga becomes the old word; where it equals the old ga the new word is stored, its granule's tag is cleared
and the predicate is true, else memory and tags are unchanged and the predicate is false; a size of neither 4 nor 8 bytes takes trap
0x07. -/
def Sys2Proof.Spec.CompareAndSwap : Prop :=
  ∀ (s s1 : State) (sz : Option Size) (sc : Scope) (p : PReg) (d : GReg) (a : CReg) (r : GReg) (addr : Nat) (e : TlbEntry),
    let c := s.th.rc a
    let n := accSize sz c
    AtomicAt s s1 a (capOff c) n addr e →
    (¬(n = 4 ∨ n = 8) → Traps (.cas sz sc p d a r) s 0x07 (tvalCap 1 a.val (capOff c))) ∧
    ((n = 4 ∨ n = 8) → ∃ (t : State) (x : BitVec (8 * n)), exec (.cas sz sc p d a r) s = .next t ∧ Writes s t ∧
      (∀ k, k < n → (x >>> (8 * k)).setWidth 8 = memByte s.mem (addr + k)) ∧
      (x = (s.th.rg d).setWidth (8 * n) →
        Stored s t addr ((List.range n).map (Sys2Proof.Spec.byteOf (s.th.rg r))) ∧ Untagged s t addr n ∧
        Precise s s1 t [.g d (x.setWidth 64), .p p true]) ∧
      (x ≠ (s.th.rg d).setWidth (8 * n) → t.mem = s.mem ∧ t.tags = s.tags ∧
        Precise s s1 t [.g d (x.setWidth 64), .p p false]))

/-- CNTRD, CNTWN and CNTW (R209): the counter's value, as a signed test against ga; a CNTW whose value stands above the
threshold parks, in the wait table where that has room, and completes with the value that its wake carries (log 32: the word as the write
that woke it left it); in handler code it takes trap 0x0A (R159). -/
def Sys2Proof.Spec.CountersComplete : Prop :=
  ∀ (s s1 : State) (p : PReg) (d : GReg) (a : CReg) (addr : Nat) (e : TlbEntry),
    let c := s.th.rc a
    let x := s.homeWord addr
    let thr := s.th.rg d
    (s.th.handler = true → Traps (.cntw d a) s 0x0A (BitVec.ofNat 64 s.cur.base.toNat)) ∧
    (s.th.handler = false → ∀ v, s.cur.carried = some v → Gives (.cntw d a) s none [.g d v]) ∧
    (NoMoves s → Settled s addr → s.th.stores = [] → capCheck c (rR + Machine.rA) (capOff c) 8 8 = none →
      locate (creg a) true c (capOff c) 8 rR s = .ok (addr, e) s1 → isForeign addr = false → s1.poisoned addr 8 = false →
      Loads (.cntrd d a) s s1 (.g d x) ∧
      (x.toInt ≤ thr.toInt → ∃ t, exec (.cntwn p d a) s = .next t ∧ Caches s t ∧ Precise s s1 t [.g d x, .p p true]) ∧
      (thr.toInt < x.toInt → Loads (.cntwn p d a) s s1 (.p p false)) ∧
      (s.th.handler = false → s.cur.carried = none → (∀ q ∈ s.waits, q.tid ≠ s.cur.tid) →
        (x.toInt ≤ thr.toInt → ∃ t, exec (.cntw d a) s = .next t ∧ Caches s t ∧ Goes s.cur s1.th t.th ∧
          Rest s1.th t.th ∧ t.th.pend = Joined s.th.pend none [.g d x]) ∧
        (thr.toInt < x.toInt → s.waitFull addr = false → ∃ t q, exec (.cntw d a) s = .next t ∧
          t.waits = s.waits ++ [⟨addr, .counter thr, s.cur.tid⟩] ∧ t.mem = s.mem ∧ q.why = .cntw addr thr true ∧
          q.bundle = s.cur ∧ t.th = { s1.th with status := .parked q }) ∧
        (thr.toInt < x.toInt → s.waitFull addr = true → ∃ t q, exec (.cntw d a) s = .next t ∧ t.waits = s.waits ∧
          t.mem = s.mem ∧ q.why = .cntw addr thr false ∧ q.bundle = s.cur ∧ t.th = { s1.th with status := .parked q })))

/-- LDVER and LDVERN (R178): the current version's value, or a buffered one; a newer version parks LDVER in the wait table and
gives LDVERN a false predicate; a reclaimed one takes trap 0x0B. -/
def Sys2Proof.Spec.VersionedLoads : Prop :=
  ∀ (s s1 : State) (p : PReg) (d : GReg) (a : MemOp) (addr : Nat) (e : TlbEntry),
    let c := s.th.rc a.base
    let ea := Sys2Proof.Spec.effective s.th a
    let want : BitVec 32 := (s.th.rg d).setWidth 32
    let cur := (s.verOf e.obj addr).version
    let kept := fun (q : VerEntry) => q.addr = addr && q.version = want
    let ahead := 1 ≤ (want - cur).toNat ∧ (want - cur).toNat < 2 ^ 31
    let tv := tvalCap 1 a.base.val ea.toNat
    (s.th.handler = true → Traps (.ldver d a) s 0x0A (BitVec.ofNat 64 s.cur.base.toNat)) ∧
    (s.th.handler = false → ∀ v, s.cur.carried = some v → Loads (.ldver d a) s s (.g d v)) ∧
    (NoMoves s → s.th.stores = [] → s.th.handler = false → s.cur.carried = none → (∀ q ∈ s.waits, q.tid ≠ s.cur.tid) →
      capCheck c (rR + rV) ea 8 8 = none → locate (creg a.base) true c ea.toNat 8 rR s = .ok (addr, e) s1 →
      isForeign addr = false → s1.poisoned addr 8 = false →
      (e.ver = false → exec (.ldver d a) s = .next (s1.stopped (.trap 0x07 tv))) ∧
      (e.ver = true → want = cur →
        Loads (.ldver d a) s s1 (.g d (s.homeWord addr)) ∧
        ∃ t, exec (.ldvern p d a) s = .next t ∧ Caches s t ∧ Precise s s1 t [.g d (s.homeWord addr), .p p true]) ∧
      (e.ver = true → want ≠ cur → ¬ahead → ∀ b, (s.adopt e.obj addr).vbuf.find? kept = some b →
        Loads (.ldver d a) s s1 (.g d b.value) ∧
        ∃ t, exec (.ldvern p d a) s = .next t ∧ Caches s t ∧ Precise s s1 t [.g d b.value, .p p true]) ∧
      (e.ver = true → want ≠ cur → ¬ahead → (s.adopt e.obj addr).vbuf.find? kept = none →
        exec (.ldver d a) s = .next (s1.stopped (.trap 0x0B (tvalVersion 0 a.base.val ea.toNat))) ∧
        exec (.ldvern p d a) s = .next (s1.stopped (.trap 0x0B (tvalVersion 0 a.base.val ea.toNat)))) ∧
      (e.ver = true → ahead → Loads (.ldvern p d a) s s1 (.p p false)) ∧
      (e.ver = true → ahead → s.waitFull addr = false → ∃ t q, exec (.ldver d a) s = .next t ∧
        t.waits = s.waits ++ [⟨addr, .version want, s.cur.tid⟩] ∧ t.mem = s.mem ∧
        q.why = .ldver addr want true ∧ q.bundle = s.cur ∧ t.th = { s1.th with status := .parked q }))

/-- STVER and RECLAIM (R179, R180): a new version one above the last, with its value in memory, the old value buffered unless
it was reclaimed, and the waits for the new version gone; an STVER waits behind one that reached the word before it (R177, log 75), in
handler code in real time; RECLAIM drops buffered versions up to the one it names. -/
def Sys2Proof.Spec.VersionedStores : Prop :=
  ∀ (s s1 : State) (r : GReg) (a : MemOp) (addr : Nat) (e : TlbEntry),
    let c := s.th.rc a.base
    let ea := Sys2Proof.Spec.effective s.th a
    let old := s.verOf e.obj addr
    let v : BitVec 32 := (s.th.rg r).setWidth 32
    let later := s.stverBefore s.cur.tid addr (s.cur.since.getD s.serial)
    NoMoves s → s.th.status = .running → s.th.stores = [] → capCheck c (rW + rV) ea 8 8 = none →
    locate (creg a.base) true c ea.toNat 8 rW s = .ok (addr, e) s1 → isForeign addr = false →
    (e.ver = false → exec (.stver r a) s = .next (s1.stopped (.trap 0x07 (tvalCap 1 a.base.val ea.toNat)))) ∧
    (e.ver = true → (old.rcl = true ∨ s.bufFull addr = false) → later = false → ∃ t, exec (.stver r a) s = .next t ∧
      Writes s t ∧
      Precise s s1 t [] ∧ Stored s t addr ((List.range 8).map (Sys2Proof.Spec.byteOf (s.th.rg r))) ∧
      t.verAt addr = ⟨old.version + 1, false, e.obj⟩ ∧ (∀ x, x ≠ addr → t.verAt x = s.verAt x) ∧
      t.vbuf = (s.adopt e.obj addr).vbuf ++ (if old.rcl then [] else [⟨addr, old.version, s.homeWord addr⟩]) ∧
      ∀ q ∈ t.waits, ¬(q.addr = addr ∧ q.what = .version (old.version + 1))) ∧
    (e.ver = true → old.rcl = false → s.bufFull addr = true → s.th.handler = true →
      exec (.stver r a) s = .next (s1.stopped (.trap 0x0A (BitVec.ofNat 64 s.cur.base.toNat)))) ∧
    (e.ver = true → (old.rcl = true ∨ s.bufFull addr = false) → later = true → s.th.handler = true →
      exec (.stver r a) s = .next s1) ∧
    (e.ver = true → (old.rcl = false ∧ s.bufFull addr = true ∨ later = true) → s.th.handler = false →
      ∃ t q, exec (.stver r a) s = .next t ∧ t.mem = s.mem ∧ q.why = .stver addr ∧ q.bundle = s.cur ∧
        t.th = { s1.th with status := .parked q }) ∧
    (e.ver = true → ∃ t, exec (.reclaim r a) s = .next t ∧ Writes s t ∧ Precise s s1 t [] ∧ t.mem = s.mem ∧
      t.vbuf = (s.adopt e.obj addr).vbuf.filter (fun q => decide ¬(q.addr = addr ∧ (q.version = v ∨ newer v q.version = true))) ∧
      t.verAt addr = (if v = old.version ∨ newer v old.version = true then { old with rcl := true } else old) ∧
      ∀ x, x ≠ addr → t.verAt x = s.verAt x)

/-- FENCE, AMO, CAS and the counter instructions. -/
def Obligations.AtomicsAndFences : Prop :=
  Sys2Proof.Spec.FenceCompletes ∧ Sys2Proof.Spec.AtomicReadModifyWrite ∧ Sys2Proof.Spec.CompareAndSwap ∧ Sys2Proof.Spec.CountersComplete

/-- LDVER, LDVERN, STVER and RECLAIM; the order of waiting STVERs is log 75's reading. -/
def Obligations.VersionedWords : Prop :=
  Sys2Proof.Spec.VersionedLoads ∧ Sys2Proof.Spec.VersionedStores

/-! ## Ports, messages, barriers and firings (spec/11_one_core.md R152 to R175) -/

/-- The executing thread's own team is resident. -/
def Sys2Proof.Spec.MyTeam (s : State) (tm : Team) : Prop :=
  s.myTeam = some tm ∧ tm.launch = s.th.launchId ∧ tm.no = s.th.teamNo

/-- From a thread `o` the bundle produces results and goes on, and nothing else of the thread changes. -/
def Sys2Proof.Spec.Ends (s t : State) (o : Thread) (lat : Option Nat) (ws : List RegWrite) : Prop :=
  Goes s.cur o t.th ∧ Rest o t.th ∧ t.th.pend = Joined o.pend (lat.map (o.nt + ·)) ws

/-- The instruction completes: what it asks for is done (`made`), its results join, and its thread, as `o`, goes on. -/
def Sys2Proof.Spec.Does (i : Instr) (s made : State) (o : Thread) (ws : List RegWrite) : Prop :=
  ∃ t, exec i s = .next t ∧ t = made.setTh t.th ∧ Ends s t o none ws

/-- The bundle parks its context and changes nothing else of the thread (R158). -/
def Sys2Proof.Spec.Parks (i : Instr) (s : State) (why : ParkWhy) : Prop :=
  ∃ t p, exec i s = .next t ∧ p.why = why ∧ p.bundle = s.cur ∧ p.woken = none ∧
    t = { s with threads := t.threads, serial := s.serial + 1 } ∧ t.th = { s.th with status := .parked p } ∧
    ∀ k, k ≠ s.cur.tid → t.thread k = s.thread k

/-- A push to a stage output with a free place (R162, R164, R167): the element, with the pusher's WORKID, is last at the bound
input port (no light handler being armed there), memory and the other contexts are unchanged, and the bundle goes on. -/
def Sys2Proof.Spec.Pushed (i : Instr) (s : State) (u : Team) (port : Nat) (x : Element) (ws : List RegWrite) : Prop :=
  ∃ t u', exec i s = .next t ∧ Ends s t s.th none ws ∧ smFind t.teams u.key = some u' ∧
    u'.elems port = u.elems port ++ [x] ∧ (∀ q, q ≠ port → u'.elems q = u.elems q) ∧
    t = { s with threads := t.threads, teams := t.teams, queues := t.queues } ∧
    (∀ k, k ≠ u.key → smFind t.teams k = smFind s.teams k) ∧ ∀ k, k ≠ s.cur.tid → t.thread k = s.thread k

/-- ENQ and ENQN (R162, R164): to a stage output or a command queue with a free place; to a full one ENQ parks and ENQN writes a
false predicate and pushes nothing. That a command queue whose free places are as many as the bundles that wait for them is full for a later
bundle is the model's reading (log 55). -/
def Sys2Proof.Spec.PortPushes : Prop :=
  ∀ (s : State) (ctl : Bool) (p : PReg) (r : GReg) (q : QPort) (tm u : Team) (b : BitVec 16),
    s.th.handler = false → s.th.stores = [] →
    (s.myPort q = .output b → MyTeam s tm → s.bindTeam tm b = some u → s.before q.val = 0 →
      (smFind u.lh (bindPort b)).isNone → (u.elems (bindPort b)).length < 16 →
      Pushed (.enq ctl r q) s u (bindPort b) ⟨s.th.rg r, ctl, s.th.workid⟩ [] ∧
      Pushed (.enqn ctl p r q) s u (bindPort b) ⟨s.th.rg r, ctl, s.th.workid⟩ [.p p true]) ∧
    (s.myPort q = .output b → MyTeam s tm → s.bindTeam tm b = some u → 16 ≤ (u.elems (bindPort b)).length →
      Parks (.enq ctl r q) s (.port q.val) ∧ Gives (.enqn ctl p r q) s none [.p p false]) ∧
    (s.myPort q = .command → s.pushersBefore q.val < s.commandRoom s.origin.core q.val →
      ∃ t, exec (.enq false r q) s = .next t ∧ t = (s.pushMarker q.val (s.th.rg r)).setTh t.th ∧ Ends s t s.th none [] ∧
        ∃ t', exec (.enqn false p r q) s = .next t' ∧ t' = (s.pushMarker q.val (s.th.rg r)).setTh t'.th ∧
          Ends s t' s.th none [.p p true]) ∧
    (s.myPort q = .command → s.commandRoom s.origin.core q.val ≤ s.pushersBefore q.val →
      Parks (.enq false r q) s (.port q.val) ∧ Gives (.enqn false p r q) s none [.p p false]) ∧
    (s.myPort q = .service → s.th.sup = true →
      ∃ t, exec (.enq false r q) s = .next t ∧ Ends s t s.th none [] ∧
        t = { s with fabric := { s.fabric with
          q6 := s.fabric.q6 ++ [(⟨s.cur.tid, s.origin.firing, s.th.rg r⟩ : Q6Cmd)] } }.setTh t.th)

/-- DEQ and DEQN (R162, R165): the oldest element of a stage input that no light handler guards, with its control bit, or the
oldest result element of the firing; on an empty port DEQ parks and DEQN writes a false predicate and keeps ga. -/
def Sys2Proof.Spec.PortPops : Prop :=
  ∀ (s : State) (p pc : PReg) (d : GReg) (q : QPort) (a : Nat) (tm : Team) (x : Element) (rest : List Element) (h : Held),
    s.th.handler = false →
    (s.myPort q = .input a → MyTeam s tm → s.before q.val = 0 → (smFind tm.lh q.val).isNone → q.val ∉ tm.lhBusy →
      tm.elems q.val = x :: rest → ∀ i ws, (i = Instr.deq d q pc ∧ ws = [RegWrite.g d x.data, .p pc x.ctl]) ∨
        (i = .deqn p d q pc ∧ ws = [.g d x.data, .p pc x.ctl, .p p true]) →
      ∃ t tm', exec i s = .next t ∧ Ends s t s.th none ws ∧ smFind t.teams tm.key = some tm' ∧ tm'.elems q.val = rest ∧
        (∀ z, z ≠ q.val → tm'.elems z = tm.elems z) ∧
        t = { s with threads := t.threads, teams := t.teams, queues := t.queues } ∧
        ∀ k, k ≠ s.cur.tid → t.thread k = s.thread k) ∧
    (s.myPort q = .input a → MyTeam s tm → tm.elems q.val = [] →
      Parks (.deq d q pc) s (.port q.val) ∧ Gives (.deqn p d q pc) s none [.p p false]) ∧
    (s.myPort q = .result → s.th.held.find? (fun e => e.port = q.val) = some h →
      ∃ t t', exec (.deq d q pc) s = .next t ∧ Only s t ∧
        Ends s t { s.th with held := s.th.held.erase h } none [.g d (h.words.getD 0 0), .p pc false] ∧
        exec (.deqn p d q pc) s = .next t' ∧ Only s t' ∧
        Ends s t' { s.th with held := s.th.held.erase h } none [.g d (h.words.getD 0 0), .p pc false, .p p true]) ∧
    (s.myPort q = .result → s.th.held.find? (fun e => e.port = q.val) = none →
      Parks (.deq d q pc) s (.port q.val) ∧ Gives (.deqn p d q pc) s none [.p p false])

/-- R162: a push to an input, result, unbound or reserved port, and a pop from an output, command, unbound or reserved one, takes trap
0x01 with reason 5; a control push to anything but a stage output takes it with reason 3; q6 in user code with reason 6. -/
def Sys2Proof.Spec.PortDirectionTraps : Prop :=
  ∀ (s : State) (p pc : PReg) (d r : GReg) (q : QPort) (a : Nat),
    let traps := fun (i : Instr) (reason : Nat) => ∃ tval : Word, fieldW 63 20 tval = reason ∧ Traps i s 0x01 tval
    (s.myPort q = .result ∨ s.myPort q = .input a ∨ s.myPort q = .unbound ∨ s.myPort q = .reserved →
      traps (.enq false r q) 5 ∧ traps (.enqn false p r q) 5 ∧ traps (.enq true r q) 3 ∧ traps (.enqn true p r q) 3) ∧
    (s.myPort q = .command → traps (.enq true r q) 3 ∧ traps (.enqn true p r q) 3) ∧
    (s.myPort q = .command ∨ (∃ b, s.myPort q = .output b) ∨ s.myPort q = .unbound ∨ s.myPort q = .reserved →
      traps (.deq d q pc) 5 ∧ traps (.deqn p d q pc) 5) ∧
    (s.myPort q = .service → s.th.tctl.getLsbD 2 = false →
      traps (.enq false r q) 6 ∧ traps (.enqn false p r q) 6 ∧ traps (.deq d q pc) 6 ∧ traps (.deqn p d q pc) 6)

/-- QCNT, QCTL and QLH (R166, R167) on a port of the team: the count, the status word, operation 1 discards a stage input's
elements, 2 disarms its light handler; QLH arms one for a message actor, and takes trap 0x05 for anything else. That QCNT and QCTL
complete on unbound and reserved ports too is the model's reading (log 20). -/
def Obligations.PortControl : Prop :=
  ∀ (s : State) (d : GReg) (q : QPort) (y : Opd) (a : Nat) (tm : Team),
    let v := src s.th y
    let status := fun (s : State) (w : Word) =>
      fieldW 4 0 w = s.portCount q % 32 ∧ fieldW 7 5 w = (s.myPort q).code ∧
      (w.getLsbD 9 = true ↔ ∃ m k, s.myTeam = some m ∧ smFind m.lh q.val = some k)
    let changed := fun (i : Instr) (tm' : Team) => ∃ (t : State) (w : Word),
      exec i s = .next t ∧ t = (s.setTeam tm').setTh t.th ∧ status (s.setTeam tm') w ∧ Ends s t s.th none [.g d w]
    q.val ≠ 6 →
    (Gives (.qcnt d q) s none [.g d (BitVec.ofNat 64 (s.portCount q % 32))]) ∧
    (s.myPort q = .input a → MyTeam s tm → s.portCount q = (tm.elems q.val).length) ∧
    (s.myPort q = .result → s.portCount q = (s.th.held.filter fun h => h.port = q.val).length) ∧
    (v.toNat ≠ 1 → v.toNat ≠ 2 → GivesG (.qctl d q y) s none d (status s)) ∧
    (s.myPort q = .input a → MyTeam s tm →
      changed (.qctlDiscard d q) (tm.setElems q.val []) ∧ changed (.qctlDisarm d q) { tm with lh := smDel tm.lh q.val } ∧
      (v = 1 → changed (.qctl d q y) (tm.setElems q.val [])) ∧
      (v = 2 → changed (.qctl d q y) { tm with lh := smDel tm.lh q.val })) ∧
    (s.myPort q = .input a → v.toNat < 64 → s.isKind s.th.launchId v.toNat 2 = true → MyTeam s tm →
      (∀ x rest, tm.elems q.val = x :: rest → x.ctl = false) →
      ∃ t tm', exec (.qlh q y) s = .next t ∧ Ends s t s.th none [] ∧ smFind t.teams tm.key = some tm' ∧
        smFind tm'.lh q.val = some v.toNat ∧ tm'.elems q.val = tm.elems q.val ∧ t.mem = s.mem) ∧
    (s.myPort q = .input a → (64 ≤ v.toNat ∨ s.isKind s.th.launchId v.toNat 2 = false) → TrapsWhole (.qlh q y) s 0x05 v)

/-- FIRE and FIREN (R168, R169): eight registers from gw on go as a message, at the emit priority and with the WORKID, to the
named message actor in the launch's team on the named core; FIRE parks and FIREN writes a false predicate while that core has
no room; where that core has no team of the launch, both complete and the launch's fault actor gets a notice of kind undeliverable
(R356) on the sending core; a bad descriptor takes trap 0x05. -/
def Sys2Proof.Spec.MessagesSent : Prop :=
  ∀ (s : State) (p : PReg) (d w : GReg) (tm : Team),
    let desc := s.th.rg d
    let dest := fieldW 11 0 desc
    let actor := fieldW 17 12 desc
    let ok := desc.toNat < 2 ^ 18 ∧ s.isKind s.th.launchId actor 2 = true
    let words := (List.range 8).map fun i => s.th.rg (Fin.ofNat 32 (w.val + i))
    s.th.handler = false → s.th.stores = [] →
    (¬ok → TrapsWhole (.fire d w) s 0x05 desc ∧ TrapsWhole (.firen p d w) s 0x05 desc) ∧
    (ok → s.teamOfLaunch s.th.launchId dest = some tm → s.room dest = true → s.fireBehind dest s.th.eprio = false →
      ∀ i ws, (i = Instr.fire d w ∧ ws = []) ∨ (i = .firen p d w ∧ ws = [RegWrite.p p true]) →
      ∃ t k, exec i s = .next t ∧ Ends s t s.th none ws ∧
        t = { s with threads := t.threads, queues := t.queues } ∧ (∀ x, x ≠ s.cur.tid → t.thread x = s.thread x) ∧
        t.queue dest = s.queue dest ++ [⟨s.th.eprio, .task k⟩] ∧ (∀ x, x ≠ dest → t.queue x = s.queue x) ∧
        k.launch = s.th.launchId ∧ k.team = tm.no ∧ k.actor = actor ∧ k.kind = 2 ∧ k.words = words ∧
        k.workid = s.th.workid) ∧
    (ok → s.teamOfLaunch s.th.launchId dest = none →
      ∃ n : Note, n.launch = some s.th.launchId ∧ n.team = s.th.teamNo ∧ n.core = s.cur.core ∧ n.actor = none ∧ n.record = false ∧
        n.words = [BitVec.ofNat 64 (32 + s.cur.core * 2 ^ 16 + s.cur.ctx * 2 ^ 32), desc] ++ words.take 6 ∧
        Does (.fire d w) s (s.post n) s.th [] ∧ Does (.firen p d w) s (s.post n) s.th [.p p true]) ∧
    (ok → s.teamOfLaunch s.th.launchId dest = some tm → s.room dest = false →
      Parks (.fire d w) s (.fire dest s.th.eprio) ∧ Gives (.firen p d w) s none [.p p false])

/-- The barrier after a step of it, tested once (R172): with every expected arrival in and no bytes due, the phase advances,
leavers go, and early arrivals count. -/
def Sys2Proof.Spec.BarrierTest : Prop :=
  ∀ b : Barrier,
    let fires := b.arrived = b.expect ∧ 0 < b.expect ∧ b.bytes = 0
    (¬fires → barrierTest 4 b = b) ∧
    (fires → ¬(b.next = b.expect - b.leave ∧ 0 < b.expect - b.leave) →
      barrierTest 4 b = { b with
        phase := b.phase + 1, expect := b.expect - b.leave, leave := 0, arrived := b.next, next := 0 })

/-- ARRIVE, ARRB, BWAIT and BWAITN (R171, R173): an arrival in the running phase gives the phase and counts, an early one gives the
next phase; BWAIT goes on once the phase named has passed, else parks; BWAITN says whether it has. -/
def Sys2Proof.Spec.BarrierInstructions : Prop :=
  ∀ (s : State) (leave : Bool) (p : PReg) (d n : GReg) (b : BReg) (tm : Team),
    let x := tm.bar b.val
    let bytes := (s.th.rg n).toNat
    let phase := s.th.rg d
    let passed := 1 ≤ (x.phase - phase.setWidth 32).toNat ∧ (x.phase - phase.setWidth 32).toNat < 2 ^ 31
    b.val < (s.spec s.th.launchId).barriers → MyTeam s tm → s.th.stores = [] →
    (x.arrived < x.expect →
      (∃ t, exec (.arrive leave d b) s = .next t ∧ Ends s t s.th none [.g d (x.phase.setWidth 64)] ∧
        t = (s.setTeam (tm.putBar b.val { x with
          arrived := x.arrived + 1, leave := x.leave + leave.toNat, bytes := wrap48 x.bytes })).setTh t.th) ∧
      (bytes < 2 ^ 40 → ∃ t, exec (.arrb leave d b n) s = .next t ∧ Ends s t s.th none [.g d (x.phase.setWidth 64)] ∧
        t = (s.setTeam (tm.putBar b.val { x with
          arrived := x.arrived + 1, leave := x.leave + leave.toNat, bytes := wrap48 (x.bytes + bytes) })).setTh t.th)) ∧
    (2 ^ 40 ≤ bytes → TrapsWhole (.arrb leave d b n) s 0x05 (s.th.rg n)) ∧
    (x.expect ≤ x.arrived → x.next ≠ x.expect →
      ∃ t, exec (.arrive false d b) s = .next t ∧ Ends s t s.th none [.g d ((x.phase + 1).setWidth 64)] ∧
        t = (s.setTeam (tm.putBar b.val { x with next := x.next + 1 })).setTh t.th) ∧
    (x.expect ≤ x.arrived → leave = true ∨ x.next = x.expect →
      TrapsWhole (.arrive leave d b) s 0x05 (BitVec.ofNat 64 b.val)) ∧
    (x.expect ≤ x.arrived → bytes < 2 ^ 40 → TrapsWhole (.arrb leave d b n) s 0x05 (BitVec.ofNat 64 b.val)) ∧
    (s.th.handler = false →
      (passed → Gives (.bwait d b) s none []) ∧ (¬passed → Parks (.bwait d b) s .bwait)) ∧
    (passed → Gives (.bwaitn p d b) s none [.p p true]) ∧
    (¬passed → Gives (.bwaitn p d b) s none [.p p false])

/-- R159: in handler code an ENQ, DEQ, BWAIT or FALIGN, which could park, takes trap 0x0A with the base word, as does FIRE. -/
def Sys2Proof.Spec.HandlersNeverPark : Prop :=
  ∀ (s : State) (pc : PReg) (d r : GReg) (q : QPort) (b : BReg), s.th.handler = true →
    let tv : Word := BitVec.ofNat 64 s.cur.base.toNat
    (s.legal (.enq false r q) = none → Traps (.enq false r q) s 0x0A tv) ∧
    (s.legal (.deq d q pc) = none → Traps (.deq d q pc) s 0x0A tv) ∧
    (s.legal (.bwait r b) = none → Traps (.bwait r b) s 0x0A tv) ∧
    Traps (.fire d r) s 0x0A tv ∧ Traps .falign s 0x0A tv

/-- WID, PRIO, DONE and FALIGN (R169, R173 to R175): the part of the work identifier; the emit priority, at most the launch's; the
end of a firing, whose stores stand; and the alignment, which goes on at once when the team's other contexts here are parked. -/
def Obligations.WorkAndEnds : Prop :=
  ∀ (s : State) (d : GReg) (y : Opd) (f : Firing) (l : Launch),
    let sp := s.spec s.th.launchId
    let id := s.th.workid.toNat
    let v := (src s.th y).toNat
    let below := (sp.widths.drop sp.teamLv).sum
    let between := ((sp.widths.take sp.teamLv).drop sp.arcLv).sum
    (GivesG (.wid d y) s (some 2) d (fun r =>
      (v ≤ 5 → r = BitVec.ofNat 64 (id / 2 ^ (sp.widths.drop (v + 1)).sum % 2 ^ sp.widths.getD v 0)) ∧
      (v = 6 → r = BitVec.ofNat 64 (id % 2 ^ below)) ∧
      (v = 7 → r = BitVec.ofNat 64 (id / 2 ^ below % 2 ^ between)) ∧
      (v = 8 → r = BitVec.ofNat 64 (id / 2 ^ (below + between) % 2 ^ (sp.widths.sum - below - between))) ∧
      (8 < v → r = 0))) ∧
    (s.launch? s.th.launchId = some l → ∃ t, exec (.prio y) s = .next t ∧ Only s t ∧
      Ends s t { s.th with eprio := min v l.spec.prio } none []) ∧
    (s.th.firing = some f → f.home = none → f.port = none → s.th.wg = [] → s.th.traps = [] →
      ∃ t, exec .done s = .next t ∧ f ∈ t.ended ∧ t.mem = s.mem ∧ t.th.status = .free ∧ t.th.firing = none ∧
        t.th.pend = [] ∧ t.th.ras = [] ∧ t.th.held = [] ∧ t.th.stores = s.th.stores ∧
        ∀ k, k ≠ s.cur.tid → t.thread k = s.thread k) ∧
    (s.th.handler = false → (∀ k, k < 8 → k ≠ s.cur.ctx → (s.thread (tidOf s.cur.core k)).firing = none) →
      s.th.status = .running → Gives .falign s none []) ∧
    (s.th.handler = false → s.cur.ctx < 8 →
      (∃ k, k < 8 ∧ k ≠ s.cur.ctx ∧ (s.thread (tidOf s.cur.core k)).status = .running ∧
        (s.thread (tidOf s.cur.core k)).firing.isSome = true ∧
        (s.thread (tidOf s.cur.core k)).launchId = s.th.launchId ∧
        (s.thread (tidOf s.cur.core k)).teamNo = s.th.teamNo) →
      Parks .falign s (.falign s.th.pc))

/-- ENQ, ENQN, DEQ and DEQN; log 55 names the model's reading of the order in which bundles take the places of a command queue. -/
def Obligations.PortTransfers : Prop :=
  Sys2Proof.Spec.PortPushes ∧ Sys2Proof.Spec.PortPops ∧ Sys2Proof.Spec.PortDirectionTraps

/-- FIRE and FIREN, and handlers that never park. -/
def Obligations.MessagesSent : Prop :=
  Sys2Proof.Spec.MessagesSent ∧ Sys2Proof.Spec.HandlersNeverPark

/-- Barriers and their instructions. -/
def Obligations.Barriers : Prop :=
  Sys2Proof.Spec.BarrierTest ∧ Sys2Proof.Spec.BarrierInstructions

/-! ## Transfers, copies and the cutter (spec/13_many_cores.md R198 to R208; spec/21_streamer.md R277 to R291) -/

/-- A counter that a transfer names: rights R, W and A over 16 bytes aligned to 8, format bytes or i64 (R198). -/
def Sys2Proof.Spec.Counter (c : Cap) : Prop :=
  (capFmt c = 0 ∨ capFmt c = 4) ∧ capCheck c (rR + rW + Machine.rA) (capOff c) 16 8 = none

/-- RGET, RSEND, RSIG, RGETX, RSENDX and RARITH (R198, R201, R206) complete once their operands pass: the command, with its
sides, counter and length, joins the streamer's queue, and starts when a place is free; it parks where the queue has no place (R158). That
it parks too where every free place is an earlier waiter's is the model's reading (log 55). -/
def Sys2Proof.Spec.TransfersIssue : Prop :=
  ∀ (s : State) (sc : Scope) (d c k : CReg) (n : GReg) (op : RedOp) (ord : Bool) (e : Elem),
    let t := s.th
    let desc := t.rg n
    let fresh := fun (x : XKind) => { Xfer.fresh x s.origin with dst := t.rc d, src := t.rc c, ctr := t.rc k }
    let es := [4, 8, 16, 64].getD (fieldW 9 8 desc) 4
    let cnt := fieldW 7 0 desc + 1
    let isz := if desc.getLsbD 10 then 8 else 4
    let ix := t.rc (Fin.ofNat 16 (fieldW 14 11 desc))
    let lists := fun (x : XKind) => { fresh x with scope := sc, n := cnt, esz := es, isz := isz, idx := some ix }
    let list := capCheck ix rR (capOff ix) (cnt * isz) isz = none
    let open_ := fun (x : Cap) (r : Nat) => x.tag = true ∧ missing r (capRights x) = 0 ∧ capBadFmt x = false
    let plain := [(Instr.rget sc d c n k, XKind.get), (.rsend sc d c n k, .send), (.rsig sc d c n k, .sig)]
    let pass := (k = 0 ∨ Counter (t.rc k)) ∧ capCheck (t.rc d) rW (capOff (t.rc d)) desc.toNat 1 = none ∧
      capCheck (t.rc c) rR (capOff (t.rc c)) desc.toNat 1 = none
    t.stores = [] →
    (s.pushersBefore 2 < s.streamRoom s.origin.core →
      (pass → ∀ x ∈ plain, Does x.1 s (s.pushStream { fresh x.2 with scope := sc, n := desc.toNat }) t []) ∧
      (Counter (t.rc k) → list → fieldW 63 15 desc = 0 →
        (capCheck (t.rc d) rW (capOff (t.rc d)) (cnt * es) 1 = none → open_ (t.rc c) rR →
          Does (.rgetx sc d c n k) s (s.pushStream (lists .getx)) t []) ∧
        (capCheck (t.rc c) rR (capOff (t.rc c)) (cnt * es) 1 = none → open_ (t.rc d) rW →
          Does (.rsendx sc d c n k) s (s.pushStream (lists .sendx)) t [])) ∧
      (let m := fieldW 8 0 desc + 1
       let r := Fin.ofNat 16 (fieldW 35 32 desc)
       fieldW 63 36 desc = 0 → fieldW 15 9 desc = 0 → (ord = false → fieldW 31 16 desc = 0) → (r = 0 ∨ Counter (t.rc r)) →
       capCheck (t.rc d) (rW + Machine.rA) (capOff (t.rc d)) (m * elemBytes e) (elemBytes e) = none →
       capCheck (t.rc c) rR (capOff (t.rc c)) (m * elemBytes e) 1 = none →
        Does (.rarith op ord e d c n) s
          (s.pushStream { fresh .arith with
            ctr := t.rc r, op := op, ordered := ord, elem := e, seq := fieldW 31 16 desc, n := m, esz := elemBytes e })
          t [])) ∧
    (s.streamRoom s.origin.core ≤ s.pushersBefore 2 → t.handler = false → pass → ∀ x ∈ plain, Parks x.1 s (.engine 2))

/-- The streamer holds a command, alone with its number, and the command runs. -/
def Sys2Proof.Spec.Runs (s : State) (x : Xfer) : Prop :=
  s.xfer? x.id = some x ∧ (∀ y ∈ s.xfers, y.id = x.id → y = x) ∧ x.phase = .running

/-- One unit of a streamer command may land now: the unit has not landed, no other command's packet carries it, none of the command waits
for its turn, and no earlier packet of its core to the same bank is due (R205). -/
def Sys2Proof.Spec.Landable (s : State) (x : Xfer) (u : Nat) : Prop :=
  Runs s x ∧ u ∉ x.landed ∧ u < s.units x ∧ (x.idx = none ∨ x.list.isSome = true) ∧ s.behind x u = false ∧
    (∀ r ∈ s.reorder, r.xfer ≠ x.id) ∧ ∀ y ∈ s.xfers, (u, x.id) ∉ y.merged

/-- A unit of a command lands (R200, R202, R203): the state is `s2` but for the streamer's commands, the unit counts as landed, and the counts
of the status word rise. -/
def Sys2Proof.Spec.UnitLands (s s2 : State) (x : Xfer) (u pdata pidx range : Nat) : Prop :=
  ∃ t y, exec (.transferPacketApply x.id u) s = .next t ∧ t = { s2 with xfers := t.xfers } ∧ t.xfer? x.id = some y ∧ u ∈ y.landed ∧
    y.pdata = x.pdata + pdata ∧ y.pidx = x.pidx + pidx ∧ y.range = x.range + range

/-- TRANSFER_PACKET_APPLY for the transfers that push or index (R200 to R203, R340): a unit of an RSEND or RSIG (its extent is log 16's
reading) is taken from the source as it was read, once, and goes to the destination with its poison; an RGETX or RSENDX reads its index
list before its first unit; an element of an RGETX in bounds and aligned is fetched into its slot, one that is not leaves a slot of zeros and
counts in RANGE, one whose index could not be read counts in PIDX; an element of an RSENDX in bounds and aligned is written, and one that is
not, or whose index could not be read, is skipped and counts. -/
def Sys2Proof.Spec.TransferUnits : Prop :=
  ∀ (s s1 s2 : State) (x x' : Xfer) (u : Nat) (k : Cap) (l : List (Option Int)) (b : List Byte) (p : List Bool),
    let c := s.elemAcc x
    let d := capOff x.dst
    let lo := 64 * (d / 64 + u) - d
    let n := min x.n (64 * (d / 64 + u + 1) - d) - lo
    let e := x.esz
    let one := fun (p : List Bool) => if true ∈ p then 1 else 0
    let to_ := fun (t t' : State) (off : Nat) (b : List Byte) (p : List Bool) =>
      t.engWriteMarked (t.elemAcc x) (capObj x.dst) off b p = (.ok (), t')
    let at_ := fun (side : Cap) (i : Int) => (capOff side : Int) + i * e
    let inside := fun (side : Cap) (i : Int) =>
      0 ≤ i ∧ capBase side ≤ at_ side i ∧ at_ side i + e ≤ capTop side ∧ at_ side i % (e : Int) = 0
    x.reported = 0 →
    (x.kind = .getx ∨ x.kind = .sendx → Runs s x → u ∉ x.landed → x.idx = some k → x.list = none →
      s.readList x k x.n = (.ok l, s1) → s1.xfers = s.xfers →
      exec (.transferPacketApply x.id u) s = exec (.transferPacketApply x.id u) (s1.putXfer { x with list := some l })) ∧
    (Landable s x u →
      (x.kind = .send ∨ x.kind = .sig → s.readSource x lo n = (.ok x', s1) →
        to_ s1 s2 (d + lo) (x'.held lo n).1 (x'.held lo n).2 → s2.xfers = s.xfers →
        UnitLands s s2 x u (one (x'.held lo n).2) 0 0) ∧
      (x.kind = .getx → x.list = some l →
        (∀ i, l[u]? = some (some i) → inside x.src i → s.engReadMarked c (capObj x.src) (at_ x.src i).toNat e = (.ok (b, p), s1) →
          to_ s1 s2 (d + u * e) b p → s2.xfers = s.xfers → UnitLands s s2 x u (one p) 0 0) ∧
        (∀ i, l[u]? = some (some i) → ¬inside x.src i →
          to_ s s2 (d + u * e) (List.replicate e 0) (List.replicate e false) → s2.xfers = s.xfers → UnitLands s s2 x u 0 0 1) ∧
        (l[u]? = some none → to_ s s2 (d + u * e) (List.replicate e 0) (List.replicate e false) → s2.xfers = s.xfers →
          UnitLands s s2 x u 0 1 0)) ∧
      (x.kind = .sendx → x.list = some l → s.readSource x (u * e) e = (.ok x', s1) → s1.xfers = s.xfers →
        (∀ i, l[u]? = some (some i) → inside x.dst i →
          to_ s1 s2 (at_ x.dst i).toNat (x'.held (u * e) e).1 (x'.held (u * e) e).2 → s2.xfers = s.xfers →
          UnitLands s s2 x u (one (x'.held (u * e) e).2) 0 0) ∧
        (∀ i, l[u]? = some (some i) → ¬inside x.dst i → UnitLands s s1 x u 0 0 1) ∧
        (l[u]? = some none → UnitLands s s1 x u 0 1 0)))

/-- RARITH at its destination (R206, R363): the elements of a packet are applied one after another, each to the element that stands at its
home, by addition modulo 2^w or the signed minimum or maximum for integers; a saturation and the poisoned elements join the command's status;
a poisoned destination stays as it is, a poisoned source poisons it, and both count in PDATA. -/
def Sys2Proof.Spec.ElementsApplied : Prop :=
  (∀ (s s1 s2 : State) (x x' y : Xfer) (u b : Nat) (ps : List (Nat × List Nat)) (is : List Nat),
    Landable s x u → x.reported = 0 → x.kind = .arith → x.ordered = false → x.parts = some ps → ps[u]? = some (b, is) →
    x.flight = [] → x.merged = [] → s.readElems x is = (.ok x', s1) →
    (s1.countPacket x' is).applyElems { x' with pdata := 0, ovf := false } (is.map fun i => (i, x'.operand i)) = (.ok y, s2) →
    s2.xfers = s.xfers →
      ∃ t z, exec (.transferPacketApply x.id u) s = .next t ∧ t = { s2 with xfers := t.xfers } ∧ t.xfer? x.id = some z ∧
        u ∈ z.landed ∧ z.pdata = x.pdata + y.pdata ∧ z.ovf = (x.ovf || y.ovf)) ∧
  (∀ (t t1 : State) (x y : Xfer) (i : Nat) (v : List Byte) (ps : List (Nat × Nat)) (rest : List (Nat × List Byte × Bool)),
    let c := t.accOf x.org
    let o := capObj x.dst
    let d := capOff x.dst + i * x.esz
    let r := combineElem x.elem x.op (ps.flatMap fun p => memBytes t1.mem p.1 p.2) v
    (t.xlatRange c o d (rR + rW) (pagesOf d x.esz) x.esz = (.ok ps, t1) →
      ((∀ p ∈ ps, isForeign p.1 = false) →
        ((∀ p ∈ ps, t1.poisoned p.1 p.2 = false) →
          t.applyElem x i v false = (.ok { x with ovf := x.ovf || r.2 }, t1.writePieces c.src ps r.1)) ∧
        ((∃ p ∈ ps, t1.poisoned p.1 p.2 = true) → t.applyElem x i v false = (.ok { x with pdata := x.pdata + 1 }, t1))) ∧
      (∀ a k b j, ps = [(a, k), (b, j)] → isForeign a = true → isForeign b = false → ∃ w z t2,
        t.applyElem x i v false = (.ok z, t2) ∧
        (z = { x with pdata := x.pdata + 1 } ∧ t2.mem = t1.mem ∨ w.drop k = memBytes t1.mem b j ∧ w.length = k + j ∧
          t2.mem = memPutBytes t1.mem b (((combineElem x.elem x.op w v).1.drop k).take j)))) ∧
    (t.engPoison c o d v = (.ok (), t1) → t.applyElem x i v true = (.ok { x with pdata := x.pdata + 1 }, t1)) ∧
    ∀ bad, t.applyElem x i v bad = (.ok y, t1) → t.applyElems x ((i, v, bad) :: rest) = t1.applyElems y rest) ∧
  (∀ a b : BitVec 32, ∀ p ∈ [(RedOp.add, a + b), (.min, if b.slt a then b else a), (.max, if a.slt b then b else a)],
    combineElem .i32 p.1 (leBytes 4 a.toNat) (leBytes 4 b.toNat) = (leBytes 4 p.2.toNat, false)) ∧
  ∀ a b : Word, ∀ p ∈ [(RedOp.add, a + b), (.min, if b.slt a then b else a), (.max, if a.slt b then b else a)],
    combineElem .i64 p.1 (leBytes 8 a.toNat) (leBytes 8 b.toNat) = (leBytes 8 p.2.toNat, false)

/-- Floating elements of destination arithmetic (R28, R206): of two NaNs, in FP32 the one with the smaller bits 21:10, then bits 9:0, is kept,
in FP16 and BF16 the one with the smaller fraction, and of equal ones the destination's; a NaN that meets another value is kept; else
addition rounds the exact sum to nearest even, and minimum and maximum are FMIN's and FMAX's. -/
def Sys2Proof.Spec.FloatsCombined : Prop :=
  ∀ (op : RedOp) (a b : Nat), ∀ p ∈ Sys2Proof.Spec.scalarFormats,
    let f := elemFmt p.1
    let nan := nanCode p.2.1 p.2.2
    let smaller := if p.1 = .fp32 then b / 2 ^ 10 % 2 ^ 12 < a / 2 ^ 10 % 2 ^ 12 ∨
        b / 2 ^ 10 % 2 ^ 12 = a / 2 ^ 10 % 2 ^ 12 ∧ b % 2 ^ 10 < a % 2 ^ 10
      else b % 2 ^ p.2.2 < a % 2 ^ p.2.2
    let gives := fun (c : Nat) =>
      combineElem p.1 op (leBytes (elemBytes p.1) a) (leBytes (elemBytes p.1) b) = (leBytes (elemBytes p.1) c, false)
    a < 2 ^ (1 + p.2.1 + p.2.2) → b < 2 ^ (1 + p.2.1 + p.2.2) →
    (nan a → nan b → smaller → gives b) ∧ (nan a → nan b → ¬smaller → gives a) ∧ (nan a → ¬nan b → gives a) ∧
    (¬nan a → nan b → gives b) ∧
    (¬nan a → ¬nan b →
      (op = .min → gives (fMinMax f false a b)) ∧ (op = .max → gives (fMinMax f true a b)) ∧
      (op = .add → gives (fAdd f .rne 0 a b)) ∧
      (op = .add → finite f a → finite f b → ∃ c, gives c ∧
        ExactlyRounded f .rne 0 (codeRat f a + codeRat f b) (minus f a && minus f b) c))

/-- The element that a minimum or maximum chooses among an infinity and another element, or an addition gives with infinities (R29): the code
that the block holds, by the codes of both. -/
def Sys2Proof.Spec.InfinitiesCombined (op : RedOp) (c d out : Nat) : Prop :=
  (c % 128 = 124 → d % 128 = 124 →
    (op = .add → out = if c = d then c else 127) ∧ (op = .min → out = if c = 252 ∨ d = 252 then 252 else 124) ∧
    (op = .max → out = if c = 124 ∨ d = 124 then 124 else 252)) ∧
  ∀ i j, (i, j) = (c, d) ∨ (i, j) = (d, c) → i % 128 = 124 → j % 128 < 124 →
    (op = .add → out = i) ∧ (op = .min → i = 252 → out = 252) ∧ (op = .max → i = 124 → out = 124)

/-- The exact finite result of one position of two blocks (R29), where there is one; x and y are the values of its elements. -/
def Sys2Proof.Spec.FiniteCombined (f : BFmt) (op : RedOp) (c d : Nat) (x y z : ℚ) : Prop :=
  let fin := finite f.elem
  (fin c ∧ fin d ∧ (op = .add → z = x + y) ∧ (op = .min → z = min x y) ∧ (op = .max → z = max x y)) ∨
  f = .e5 ∧ (fin c ∧ (op = .min ∧ d = 124 ∨ op = .max ∧ d = 252) ∧ z = x ∨
    fin d ∧ (op = .min ∧ c = 124 ∨ op = .max ∧ c = 252) ∧ z = y)

/-- MX blocks of destination arithmetic (R29): a NaN block keeps the destination's elements; else each element is the exact result rounded to
nearest even at the smallest scale, not below both blocks', at which every finite one fits, and saturated where there is none, which is
reported as overflow. The sign of a zero, and of a result that rounds to zero, is the model's choice (log 64) and stated nowhere here. -/
def Sys2Proof.Spec.BlocksCombined : Prop :=
  ∀ (op : RedOp) (a b : List Byte), ∀ p ∈ [(Elem.mxe4m3, BFmt.e4, 32), (.mxe5m2, .e5, 32), (.mxe2m1, .e2, 16)],
    let f := p.2.1
    let sa := (a.getD p.2.2 0).toNat
    let sb := (b.getD p.2.2 0).toNat
    a.length = p.2.2 + 1 → b.length = p.2.2 + 1 →
    (sa = 255 ∨ sb = 255 → combineElem p.1 op a b = (a.take p.2.2 ++ [0xFF], false)) ∧
    (sa < 255 → sb < 255 → ∃ out ovf, combineElem p.1 op a b = (out, ovf) ∧ out.length = p.2.2 + 1 ∧
      let s := (out.getD p.2.2 0).toNat
      let at_ := fun (i : Nat) (z : ℚ) =>
        FiniteCombined f op (f.code a i) (f.code b i) (codeRat f.elem (f.code a i) * (2 : ℚ) ^ ((sa : Int) - 127))
          (codeRat f.elem (f.code b i) * (2 : ℚ) ^ ((sb : Int) - 127)) z
      let rounds := fun (s : Nat) (z : ℚ) (m : Nat) => RoundsMag f.elem .rne 0 (z / (2 : ℚ) ^ ((s : Int) - 127)) m
      let fits := fun (s : Nat) => ∀ i z m, i < 32 → at_ i z → rounds s z m → m ≤ f.elem.top
      (∀ i, i < 32 →
        let c := f.code a i
        let d := f.code b i
        (f ≠ .e2 → f.elem.top + 1 < c % 128 ∨ f.elem.top + 1 < d % 128 ∨ f = .e4 ∧ (c % 128 = 127 ∨ d % 128 = 127) →
          f.code out i = 127) ∧
        (f = .e5 → InfinitiesCombined op c d (f.code out i)) ∧
        ∀ z m, at_ i z → rounds s z m →
          f.code out i % f.elem.sign = min m f.elem.top ∧ (min m f.elem.top ≠ 0 → minus f.elem (f.code out i) = decide (z < 0))) ∧
      max sa sb ≤ s ∧ s ≤ 254 ∧ (ovf = false → fits s ∧ ∀ s', max sa sb ≤ s' → s' < s → ¬fits s') ∧
      (ovf = true → s = 254 ∧ ∀ s', max sa sb ≤ s' → s' ≤ 254 → ¬fits s'))

/-- TRANSFER_COMPLETE (R198, R199, R203, R204): once everything has landed, the status word takes the counts, saturating at 511, and the
flags, and the counter is decremented modulo 2^64; a fault at the counter ends the command with neither written; an RSEND is reported once
its source has been read, whatever has landed. -/
def Sys2Proof.Spec.TransfersComplete : Prop :=
  ∀ (s s1 s2 : State) (x y : Xfer) (b : List Byte) (ps : List (Nat × Nat)),
    let c := s.accOf x.org
    let o := capOff x.ctr
    Runs s x → x.reported = 0 →
    (x.kind ∈ [XKind.get, .sig, .getx, .sendx, .arith] → (x.idx = none ∨ x.list.isSome = true) →
      (x.kind = .arith → x.parts.isSome = true) → s.units x ≤ x.landed.length → x.ctr.tag = true →
      (s.engReadWhole c (capObj x.ctr) o 16 = (.ok b, s1) → b.length = 16 →
        s1.xlatRange c (capObj x.ctr) o rW (pagesOf o 8) 8 = (.ok ps, s2) → s2.anyDown ps = false →
        let old := wordLe (b.drop 8)
        ∃ st : Word, fieldW 8 0 st = min 511 (fieldW 8 0 old + x.range) ∧ fieldW 17 9 st = min 511 (fieldW 17 9 old + x.pidx) ∧
          fieldW 26 18 st = min 511 (fieldW 26 18 old + x.pdata) ∧ st.getLsbD 27 = (old.getLsbD 27 || x.ovf) ∧
          st.getLsbD 28 = (old.getLsbD 28 || x.reord) ∧ fieldW 63 29 st = fieldW 63 29 old ∧
          ∀ s3, s2.engWrite c (capObj x.ctr) (o + 8) (leBytes 8 st.toNat) = (.ok (), s3) → s3.xfers = s.xfers →
            ∃ t, exec (.transferComplete x.id) s = .next t ∧ t.xfer? x.id = none ∧
              t.mem = (s3.writePieces c.src ps (leBytes 8 (wordLe (b.take 8) - 1).toNat)).mem) ∧
      (∀ k off, s.engReadWhole c (capObj x.ctr) o 16 = (.error (k, off), s1) → s1.xfers = s.xfers →
        ∃ t, exec (.transferComplete x.id) s = .next t ∧ t.xfer? x.id = none ∧ t.mem = s1.mem)) ∧
    (x.kind = .send → x.ctr.tag = false → x.landed.length < s.units x →
      s.readSpans x ((List.range (s.units x)).map fun u =>
        let lo := 64 * (capOff x.dst / 64 + u) - capOff x.dst
        (lo, min x.n (64 * (capOff x.dst / 64 + u + 1) - capOff x.dst) - lo)) = (.ok y, s1) → s1.xfers = s.xfers →
      ∃ t z, exec (.transferComplete x.id) s = .next t ∧ t.xfer? x.id = some z ∧ z.reported = 1 ∧ z.landed = x.landed ∧ t.mem = s1.mem)

/-- TRANSFER_PACKET_APPLY (R200): a unit of an RGET, the part of the data that lies in one aligned 64-byte block of the destination, lands:
its bytes, with their poison, go from the source's home to the destination's, it counts as landed, and in PDATA where it is poisoned
(R203); a fault at the source stops the command (R204). TRANSFER_COMPLETE (R198, R203): a command without a counter is reported once
everything has landed. ROUTER_COMBINE (R229): two unordered add packets for one element of another module, which wait for one lane group,
become one, which carries their sum and its saturation for both contributors (the units are log 16's reading, which of their accesses
count at a migratable page log 86's). -/
def Sys2Proof.Spec.TransferEvents : Prop :=
  ∀ (s : State) (x : Xfer) (u : Nat),
    let c := s.elemAcc x
    let d := capOff x.dst
    let lo := 64 * (d / 64 + u) - d
    let n := min x.n (64 * (d / 64 + u + 1) - d) - lo
    (x.kind = .get → x.reported = 0 → Landable s x u →
      (∀ s1 s2 b p, s.engReadMarked c (capObj x.src) (capOff x.src + lo) n = (.ok (b, p), s1) →
        s1.engWriteMarked c (capObj x.dst) (d + lo) b p = (.ok (), s2) → s2.xfers = s.xfers →
        ∃ t y, exec (.transferPacketApply x.id u) s = .next t ∧ t = { s2 with xfers := t.xfers } ∧ t.xfer? x.id = some y ∧
          u ∈ y.landed ∧ y.pdata = x.pdata + (if true ∈ p then 1 else 0)) ∧
      (∀ s1 k off, s.engReadMarked c (capObj x.src) (capOff x.src + lo) n = (.error (k, off), s1) →
        ∃ t, exec (.transferPacketApply x.id u) s = .next t ∧ t.xfer? x.id = none ∧ t.mem = s1.mem)) ∧
    (x.kind = .get → Runs s x → x.reported = 0 → x.idx = none → x.ctr.tag = false → s.units x ≤ x.landed.length →
      ∃ t, exec (.transferComplete x.id) s = .next t ∧ t.xfer? x.id = none ∧ t.mem = s.mem ∧ t.threads = s.threads) ∧
    (∀ (y x' y' : Xfer) (b i g : Nat) (ps qs : List (Nat × List Nat)) (s1 s2 : State),
      (∀ z ∈ [x, y], Runs s z ∧ z.kind = .arith ∧ z.ordered = false ∧ z.op = .add ∧ u ∉ z.landed ∧ z.flight = [] ∧ z.merged = []) →
      x.id < y.id → capObj x.dst = capObj y.dst → capOff x.dst = capOff y.dst → x.elem = y.elem → x.n = y.n →
      s.behind x u = false → (∀ z ∈ s.xfers, (u, x.id) ∉ z.merged ∧ (u, y.id) ∉ z.merged) →
      (∀ z ∈ s.xfers, z.id < y.id → z.id ≠ x.id → z.org.core ≠ y.org.core) →
      x.parts = some ps → y.parts = some qs → ps[u]? = some (b, [i]) → qs[u]? = some (b, [i]) → 2 ^ 20 ≤ b →
      s.outGroup x u = some g → s.outGroup y u = some g →
      s.readSource x (i * x.esz) x.esz = (.ok x', s1) → (x'.operand i).2 = false →
      s1.readSource y (i * y.esz) y.esz = (.ok y', s2) → (y'.operand i).2 = false → s2.xfers = s.xfers →
      let sum := combineElem x.elem .add (x'.operand i).1 (y'.operand i).1
      ∃ t z, exec (.routerCombine x.id y.id u) s = .next t ∧ t = { s2 with xfers := t.xfers } ∧ t.xfer? x.id = some z ∧
        z.merged = [(u, y.id)] ∧ z.flight = [⟨u, [sum.1], sum.2⟩])

/-- A 64-byte parameter block that a thread reads, with the state after the access (R279, R280): its bytes and granule tags. -/
def Sys2Proof.Spec.BlockAt (s s1 : State) (r : CReg) (b : List Byte × List Bool) : Prop :=
  let c := s.th.rc r
  ∃ a e, capCheck c (rR + rW + rC) (capOff c) 64 64 = none ∧ locate (creg r) false c (capOff c) 64 rR s = .ok (a, e) s1 ∧
    e.mig = false ∧ isForeign a = false ∧ s1.poisoned a 64 = false ∧ s1.th.stores = [] ∧ s1.th.status = .running ∧
    b = (memBytes s1.mem a 64, (List.range 4).map fun i => s1.tagAt (a + 16 * i))

/-- COPY, CRESUME and CDROP (R280, R282, R285): each completes once its block passes, with a command at the end of the streamer's queue,
with the capabilities that the block names now, and the result word TAG, NUM and the bits for a resumed and a dropped copy. That NUM
counts the copy itself (log 18) and that CDROP makes no checks (log 70) are the model's readings. -/
def Sys2Proof.Spec.CopiesIssue : Prop :=
  ∀ (s s1 : State) (d : GReg) (r : CReg) (b : List Byte × List Bool),
    let lw := blockWord b 48
    let cw := blockWord b 56
    let len := fieldW 35 0 lw
    let dst := blockCap b 0
    let src := blockCap b 1
    let ctr := blockCap b 2
    let core := s1.origin.core
    let num := smGet 0 s1.copies core + 1
    let passes := fun (at_ n : Nat) => capCheck dst rW (capOff dst + at_ : Nat) n 1 = none ∧
      capCheck src rR (capOff src + at_ : Nat) n 1 = none ∧ (ctr.tag = true → Counter ctr)
    BlockAt s s1 r b → s1.pushersBefore 2 < s1.streamRoom core →
    (fieldW 63 36 lw = 0 → fieldW 31 16 cw = 0 → fieldW 3 0 cw = 0 → cw.getLsbD 15 = false → passes 0 len →
      (cw.getLsbD 7 = true → s1.isKind s1.origin.launch (fieldW 13 8 cw) 2 = true) →
      (cw.getLsbD 6 = true → fieldW 5 4 cw < (s1.spec s1.origin.launch).barriers) →
      (cw.getLsbD 14 = true → missing rS (capRights dst) = 0 ∧ missing rC (capRights src) = 0 ∧ capOff dst % 16 = 0 ∧
        capOff src % 16 = 0 ∧ len % 16 = 0) →
      ∃ id : Word, fieldW 63 32 id = fieldW 63 32 cw ∧ fieldW 31 24 id = 0 ∧ fieldW 23 0 id = num % 2 ^ 24 ∧
        Does (.copy d r) s
          ({ s1 with copies := smPut s1.copies core (num % 2 ^ 24) }.pushStream
            { Xfer.fresh .copy s1.origin with
              dst := dst, src := src, ctr := ctr, blk := s1.th.rc r, n := len, ctl := cw, xferid := id }) s1.th [.g d id]) ∧
    (∀ x st, s1.suspendedFor (s1.th.rc r) = some (x, st) → cw.getLsbD 15 = true →
      (let at_ := min x.n (4096 * x.reported)
       passes at_ (x.n - at_) → ∃ id : Word, (∀ i, id.getLsbD i = (decide (i = 24) || x.xferid.getLsbD i)) ∧
        Does (.cresume d r) s
          (s1.pushBack s1.origin { x with phase := .queued, dst := dst, src := src, ctr := ctr, xferid := id, landed := [] })
          s1.th [.g d id]) ∧
      ∃ id : Word, (∀ i, id.getLsbD i = (decide (i = 25) || x.xferid.getLsbD i)) ∧
        Does (.cdrop d r) s
          (let s2 := if x.ctl.getLsbD 6 then s1.landBytes x.org.launch x.org.team (fieldW 5 4 x.ctl) (x.n - 4096 * x.reported)
             else s1
           s2.pushBack s1.origin { x with
             phase := .queued, dst := dst, src := src, xferid := id, reported := s2.units x, landed := [],
             ctr := if st then nullCap else ctr }) s1.th [.g d id])

/-- COPY_CHUNK_LAND (R278, R281, R283): the next chunk lands, its data sent from the source's home, and is reported; a fault at the source
suspends the copy. COPY_COMPLETE (R281, R282): a copy without counter and handler ends and delivers XFERID to q3 of the firing that issued
it. A streamer marker with no earlier command of its firing left, a CRESUME or CDROP of another firing's copy among them, delivers its value
to q3 (R277). Both wait while the engine holds a record for the core (R155). -/
def Sys2Proof.Spec.CopyEvents : Prop :=
  ∀ (s : State) (x : Xfer) (k : Nat),
    let c := s.accOf x.org
    let n := min 4096 (x.n - 4096 * x.reported)
    let gives := fun (t : State) => (t.thread k).held = (s.thread k).held ++ [⟨3, [x.xferid]⟩] ∧ t.mem = s.mem ∧
      ∀ j, j ≠ k → t.thread j = s.thread j
    (Runs s x → x.kind = .copy → 4096 * x.reported < x.n → x.landed = [] →
      (∀ s1 s2 parts, s.chunkRead c (capObj x.src) (capOff x.src + 4096 * x.reported) n = (.ok parts, s1) →
        s1.chunkWrite c (capObj x.dst) (capOff x.dst + 4096 * x.reported) parts = (.ok (), s2) → s2.xfers = s.xfers →
        ∃ t y, exec (.copyChunkLand x.id x.reported) s = .next t ∧ t.mem = s2.mem ∧ t.xfer? x.id = some y ∧
          y.reported = x.reported + 1 ∧ y.phase = .running ∧ (x.ctl.getLsbD 14 = false → t.tags = s2.tags)) ∧
      (∀ s1 e off, s.chunkRead c (capObj x.src) (capOff x.src + 4096 * x.reported) n = (.error (e, off), s1) →
        s1.xfers = s.xfers →
        ∃ t y, exec (.copyChunkLand x.id x.reported) s = .next t ∧ t.xfer? x.id = some y ∧ y.phase = .suspended false ∧
          y.reported = x.reported)) ∧
    (Runs s x → x.kind = .copy → x.n ≤ 4096 * x.reported → x.ctr.tag = false → x.ctl.getLsbD 7 = false →
      s.holding x.org.core 2 = false → s.firingCtx x.org.firing = some k →
      ∃ t, exec (.copyComplete x.id) s = .next t ∧ t.xfer? x.id = none ∧ gives t) ∧
    (∀ rest, s.xfers = x :: rest → x.kind = .marker → x.phase = .running →
      (∀ y ∈ s.xfers, y.org.core ≠ x.org.core ∨ (x.id ≤ y.id ∨ y.org.firing ≠ x.org.firing) ∧
        ∀ p ∈ y.pushed, x.id ≤ p.1 ∨ p.2 ≠ x.org.firing) →
      s.holding x.org.core 2 = false → s.firingCtx x.org.firing = some k →
      ∃ t, exec (.streamerMarkerDelivery x.org.core) s = .next t ∧ t.xfer? x.id = none ∧ gives t)

/-- CUT (R288) gathers the columns that its scan finds into a panel of two slabs with role 0 and answers the cut word, and
whether it found any; COCUT (R290) gathers the partner's elements for that cut word into a panel with role 1. Both run when the streamer
starts their command (R277): at once where it has a place and nothing waits there, else the bundle waits, with its command in the queue;
where the queue has no place, it parks, or in handler code takes trap 0x0A (R158, R159). That every free place may be an earlier waiter's is
the model's reading (log 55). -/
def Obligations.CutterCompletes : Prop :=
  ∀ (s s1 s2 : State) (pl : Fin 16) (p : PReg) (a : GReg) (d c : CReg) (wide : Bool),
    let dc := s.th.rc d
    let sc := s.th.rc c
    let x := s.th.rg a
    let word := fun (n k : Nat) (w : Word) => fieldW 63 48 w = fieldW 63 48 x ∧ fieldW 47 32 w = n ∧ fieldW 31 0 w = k % 2 ^ 32
    let panel := fun (np : Nat) => capFmt dc = 15 ∧ capCheck dc rW (capOff dc) (64 + 2 * (320 + 128 * np)) 64 = none
    s.th.stores = [] → s.cutPlace = none →
    (s.streamRoom s.origin.core ≤ s.pushersBefore 2 →
      let full := fun (i : Instr) =>
        (s.th.handler = false → Parks i s (.engine 2)) ∧ (s.th.handler = true → Traps i s 0x0A (BitVec.ofNat 64 s.cur.base.toNat))
      (panel (pl.val + 1) → capFmt sc = 16 → capCheck sc rR (capOff sc) 64 64 = none → full (.cut pl p a d c)) ∧
      (∀ ks, s.th.cut = some (x, ks) → fieldW 63 32 (s.th.rg (Fin.ofNat 32 (a.val + 1))) = 0 → fieldW 47 32 x = 0 →
        full (.cocut wide a d c))) ∧
    (s.pushersBefore 2 < s.streamRoom s.origin.core →
    (s.streamIdle s.origin.core = false →
      (panel (pl.val + 1) → capFmt sc = 16 → capCheck sc rR (capOff sc) 64 64 = none →
        exec (.cut pl p a d c) s = .next (s.pushXfer (Xfer.fresh .cut s.origin))) ∧
      (∀ ks, s.th.cut = some (x, ks) → fieldW 63 32 (s.th.rg (Fin.ofNat 32 (a.val + 1))) = 0 → fieldW 47 32 x = 0 →
        exec (.cocut wide a d c) s = .next (s.pushXfer (Xfer.fresh .cut s.origin)))) ∧
    (s.streamIdle s.origin.core = true →
    (∀ h l k, panel (pl.val + 1) → capFmt sc = 16 → capCheck sc rR (capOff sc) 64 64 = none →
      sparseHeader (creg c) sc s = .ok h s1 → fieldW 63 48 x ≤ h.nrs →
      cutScan (creg c) sc h (fieldW 63 48 x) 65537 (fieldW 31 0 x) [] s1 = .ok (l, k) s2 →
      (l = [] → ∃ w, word 0 k w ∧ Does (.cut pl p a d c) s s2 { s2.th with cut := some (w, []) } [.g a w, .p p false]) ∧
      (∀ cols s3 s4, l ≠ [] → l.length ≤ 64 → cutColumns (creg c) sc h.elem l s2 = .ok cols s3 →
        cutWrite (creg d) dc (capOff dc) (panelBytes (pl.val + 1) 0 (columnsToSlabs cols)) s3 = .ok () s4 →
        ∃ w, word l.length k w ∧
          Does (.cut pl p a d c) s s4 { s4.th with cut := some (w, l.map (·.1)) } [.g a w, .p p true])) ∧
    (let desc := s.th.rg (Fin.ofNat 32 (a.val + 1))
     let np := if wide then 16 else 8
     ∀ ks, s.th.cut = some (x, ks) → fieldW 63 32 desc = 0 →
      (fieldW 47 32 x = 0 → Gives (.cocut wide a d c) s none []) ∧
      (∀ e lanes, fieldW 47 32 x ≠ 0 → panel np →
        checkSource (creg c) sc (fieldW 31 0 desc) (fieldW 31 0 x) s = .ok e s →
        partnerLanes (creg c) sc e (fieldW 31 0 desc) ks 32 0 s = .ok lanes s1 →
        cutWrite (creg d) dc (capOff dc) (panelBytes np 1 ((List.range 2).map fun j =>
          lanes.map fun l => (List.range 32).map fun i => l.getD (32 * j + i) (.fin false 0 0))) s1 = .ok () s2 →
        Does (.cocut wide a d c) s s2 s2.th []))) ∧
    (∀ cw ks, s.th.cut = some (cw, ks) → cw ≠ x → TrapsWhole (.cocut wide a d c) s 0x05 x))

/-- Transfers between cores: issue, landing, completion and combining; logs 16, 55 and 86 name the model's readings. -/
def Obligations.Transfers : Prop :=
  Sys2Proof.Spec.TransfersIssue ∧ Sys2Proof.Spec.TransferEvents ∧ Sys2Proof.Spec.TransferUnits ∧ Sys2Proof.Spec.ElementsApplied ∧
    Sys2Proof.Spec.FloatsCombined ∧ Sys2Proof.Spec.BlocksCombined ∧ Sys2Proof.Spec.TransfersComplete

/-- COPY, CRESUME and CDROP, and how copies end; logs 18 and 70 name the model's readings. -/
def Obligations.Copies : Prop :=
  Sys2Proof.Spec.CopiesIssue ∧ Sys2Proof.Spec.CopyEvents

/-! ## The matrix unit (spec/19_matrix.md R253 to R273; spec/29_service.md R367) -/

/-- The word w' is w with some bits set and some cleared. -/
def Sys2Proof.Spec.Bits (w w' : Word) (on off : List Nat) : Prop :=
  ∀ i, w'.getLsbD i = (decide (i ∈ on) || decide (i ∉ off) && w.getLsbD i)

/-- A command for a tile joins the matrix queue, and bits of the tile's status word are set at once (R255). -/
def Sys2Proof.Spec.Queues (i : Instr) (s : State) (pt : Nat) (on : List Nat) (b : MBody) (o : Thread) : Prop :=
  ∃ w, Bits (s.tileStatus s.origin.core pt) w on [] ∧
    Does i s ((s.setTile s.origin.core pt { s.tile s.origin.core pt with status := w }).pushMatrix s.origin b) o []

/-- A panel that an MMA reads: format 15, right R, 64 bytes aligned to 64 (R264). -/
def Sys2Proof.Spec.Panel (c : Cap) : Prop := capFmt c = 15 ∧ capCheck c rR (capOff c) 64 64 = none

/-- MPLANE, MMA, MMAS, MEPI, MEPIRP, MZERO and MREL (R255, R262 to R270) complete once their checks pass: the command joins the
queue, FLT is set, and MMA sets D, MZERO sets V and D, MREL sets RELP; RS takes the LFSR 1,024 steps on. MMAS of an empty cut word does
nothing. -/
def Sys2Proof.Spec.MatrixCommandsIssue : Prop :=
  ∀ (s : State) (p : Fin 16) (d c : CReg) (n : GReg) (t : TReg) (pl : Option (Fin 16 × Fin 16)) (act : Act) (r : Rnd)
    (e : Option Elem) (tm : Team) (pt : Nat),
    let g := s.th.rg n
    let st := s.tileStatus s.origin.core pt
    let dc := s.th.rc d
    let cc := s.th.rc c
    let planes := pl.map fun x => (x.1.val + 1, x.2.val + 1)
    let usable := st.getLsbD 0 = true ∧ st.getLsbD 5 = false ∧ st.getLsbD 3 = false ∧ st.getLsbD 4 = false
    s.th.stores = [] → s.pushersBefore 0 < s.matrixRoom s.origin.core → s.myTeam = some tm → tm.tiles[t.val]? = some pt →
    (∀ x, fieldW 62 53 g = 0 → fieldW 47 32 g = 0 → capFmt dc = 15 →
      capCheck dc rW (capOff dc) (64 + (fieldW 52 48 g + 1) * (320 + 128 * (p.val + 1))) 64 = none →
      checkSource (creg c) cc (fieldW 31 0 g) (32 * (fieldW 52 48 g + 1)) s = .ok x s →
      Does (.mplane p d c n) s (s.pushMatrix s.origin
        (.plane (p.val + 1) dc cc (g.getLsbD 63).toNat (fieldW 52 48 g) (fieldW 31 0 g))) s.th []) ∧
    (usable → Panel dc → Panel cc →
      (let k := fieldW 31 16 g
       let len := fieldW 10 0 g
       fieldW 63 32 g = 0 → fieldW 15 11 g = 0 → k % 16 = 0 → len % 16 = 0 → 16 ≤ len → k + len ≤ 1024 →
        Queues (.mma pl t d c n) s pt [1, 2] (.mma t.val pt planes dc cc k len false) s.th) ∧
      (let m := fieldW 47 32 g
       0 < m → m ≤ 64 →
        Queues (.mmas pl t d c n) s pt [1, 2] (.mma t.val pt planes dc cc 0 (16 * ((m + 15) / 16)) true) s.th)) ∧
    (fieldW 47 32 g = 0 → Gives (.mmas pl t d c n) s none []) ∧
    (∀ el, usable → epiElem (capFmt dc) = some el → (e = none ∨ e = some el) → fieldW 31 0 g % laneAlign el = 0 →
      capCheck dc (if g.getLsbD 63 then rR + rW else rW) (capOff dc) (31 * fieldW 31 0 g + laneBytes el 32) (laneAlign el) =
        none → fieldW 62 48 g = 0 → (g.getLsbD 63 = true → el ≠ .e2m1x ∧ (blockFmt el = none ∨ r = .rne)) →
      (act = .clamp → fieldW 47 32 g ≤ 0x7F80) →
      Queues (.mepi act r e t d n) s pt [2]
        (.epi t.val pt ⟨dc, g.getLsbD 63, BitVec.ofNat 16 (fieldW 47 32 g), fieldW 31 0 g, act, r, s.th.lfsr⟩)
        { s.th with lfsr := if r = .rs then lfsrStep^[1024] s.th.lfsr else s.th.lfsr }) ∧
    (st.getLsbD 4 = true → Queues (.mepirp t) s pt [2] (.replay t.val pt) s.th) ∧
    (st.getLsbD 5 = false → st.getLsbD 4 = false → Queues (.mzero t) s pt [0, 1, 2] (.zero t.val pt) s.th) ∧
    (st.getLsbD 5 = false → st.getLsbD 0 = true → Queues (.mrel t) s pt [2, 5] (.release t.val pt) s.th)

/-- MSTAT, MSTATC and MWAIT (R271, R272): the status word; MSTATC then clears ERR, CODE and CHUNK; MWAIT goes on when FLT is 0,
else parks. -/
def Sys2Proof.Spec.TileStatus : Prop :=
  ∀ (s : State) (d : GReg) (t : TReg) (tm : Team) (pt : Nat),
    let core := s.origin.core
    let st := s.tileStatus core pt
    s.myTeam = some tm → tm.tiles[t.val]? = some pt →
    Gives (.mstat d t) s none [.g d st] ∧
    (∃ w, Bits st w [] ([3, 20, 21, 22, 23] ++ (List.range 8).map (32 + ·)) ∧
      Does (.mstatc d t) s (s.setTile core pt { s.tile core pt with status := w }) s.th [.g d st]) ∧
    (st.getLsbD 2 = false → Gives (.mwait t) s none []) ∧
    (st.getLsbD 2 = true → s.th.handler = false → Parks (.mwait t) s (.mwait pt)) ∧
    (st.getLsbD 2 = true → s.th.handler = true → Traps (.mwait t) s 0x0A (BitVec.ofNat 64 s.cur.base.toNat))

/-- The tile checks of R262: a specifier beyond the allocation takes trap 0x13 with bit 63 and the specifier; a state that the
instruction may not meet takes it with the status word (an MMAS of an empty cut word does nothing, so it meets no state). -/
def Sys2Proof.Spec.TileChecks : Prop :=
  ∀ (s : State) (t : TReg) (a b : CReg) (k d : GReg) (pl : Option (Fin 16 × Fin 16)) (act : Act) (r : Rnd) (e : Option Elem)
    (tm : Team), s.myTeam = some tm →
    (tm.tiles.length ≤ t.val → ∀ i ∈ [Instr.mma pl t a b k, .mmas pl t a b k, .mepi act r e t a k, .mepirp t, .mzero t, .mrel t,
      .mstat d t, .mstatc d t, .mwait t], Traps i s 0x13 (BitVec.ofNat 64 (2 ^ 63 + t.val))) ∧
    ∀ pt, tm.tiles[t.val]? = some pt →
      let st := s.tileStatus s.origin.core pt
      (st.getLsbD 0 = false ∨ st.getLsbD 5 = true ∨ st.getLsbD 3 = true ∨ st.getLsbD 4 = true →
        (∀ i ∈ [Instr.mma pl t a b k, .mepi act r e t a k], Traps i s 0x13 st) ∧
        (0 < fieldW 47 32 (s.th.rg k) → Traps (.mmas pl t a b k) s 0x13 st)) ∧
      (st.getLsbD 4 = false → Traps (.mepirp t) s 0x13 st) ∧
      (st.getLsbD 5 = true ∨ st.getLsbD 4 = true → Traps (.mzero t) s 0x13 st) ∧
      (st.getLsbD 0 = false ∨ st.getLsbD 5 = true → Traps (.mrel t) s 0x13 st)

/-- A tile's status word w' is w with ERR set and the CODE and CHUNK of a refusal (R254, R255). -/
def Sys2Proof.Spec.Refused (w w' : Word) (code chunk : Nat) : Prop :=
  w'.getLsbD 3 = true ∧ fieldW 23 20 w' = code ∧ fieldW 39 32 w' = chunk ∧
    ∀ i, i ≠ 3 → ¬(20 ≤ i ∧ i ≤ 23) → ¬(32 ≤ i ∧ i ≤ 39) → w'.getLsbD i = w.getLsbD i

/-- A command is at the head of a core's idle sequencer, with the state once it has left the queue (R258). -/
def Sys2Proof.Spec.Next (s s0 : State) (core : Nat) (cmd : MCmd) : Prop :=
  ∃ rest, (s.matrixOf core).queue = cmd :: rest ∧ (s.matrixOf core).running = none ∧ cmd.org.core = core ∧
    s0 = s.setMatrix core { s.matrixOf core with queue := rest }

/-- MMA and MMAS reach the unit (R262, R264): on a tile with ERR they are skipped, on one that holds an epilogue refused with CODE 4; both
headers are read; an invalid one or a wrong ROLE gives CODE 1, a plane count that does not fit CODE 2, a range beyond a panel's slabs or
bounds CODE 3, and a fault of the read CODE 5 to 7; else the command runs, from its first chunk on. -/
def Sys2Proof.Spec.MultipliesStart : Prop :=
  ∀ (s s0 : State) (core : Nat) (cmd : MCmd) (spec pt : Nat) (pl : Option (Nat × Nat)) (a b : Cap) (k len : Nat) (sp : Bool),
    let c := s0.accOf cmd.org
    let st := s0.tileStatus core pt
    let status := fun (t : State) (w : Word) => t.setTile core pt { t.tile core pt with status := w }
    let P := fun (x : List Byte) => fieldW 7 0 (wordLe (x.take 8))
    let role := fun (x : List Byte) => (wordLe (x.take 8)).getLsbD 8
    let slabs := fun (x : List Byte) => fieldW 20 16 (wordLe (x.take 8)) + 1
    let valid := fun (x : List Byte) =>
      1 ≤ P x ∧ P x ≤ 16 ∧ fieldW 15 9 (wordLe (x.take 8)) = 0 ∧ fieldW 63 21 (wordLe (x.take 8)) = 0 ∧ ∀ y ∈ x.drop 8, y = 0
    let start := exec (.matrixCommandStart core) s
    Next s s0 core cmd → cmd.body = .mma spec pt pl a b k len sp →
    (st.getLsbD 3 = true → start = .next s0) ∧
    (st.getLsbD 3 = false → st.getLsbD 4 = true → ∃ w, start = .next (status s0 w) ∧ Refused st w 4 0) ∧
    (st.getLsbD 3 = false → st.getLsbD 4 = false →
      (∀ e off s1, s0.engReadWhole c (capObj a) (capOff a) 64 = (.error (e, off), s1) → s1.matrix = s0.matrix →
        ∃ t, start = .next t ∧ Refused st (t.tileStatus core pt) (if e = 0x08 then 5 else if e = 0x06 then 6 else 7) 0 ∧
          (t.tile core pt).elems = (s0.tile core pt).elems ∧ t.mem = s1.mem) ∧
      (∀ x y s1 s2, s0.engReadWhole c (capObj a) (capOff a) 64 = (.ok x, s1) →
        s1.engReadWhole c (capObj b) (capOff b) 64 = (.ok y, s2) → s2.matrix = s0.matrix →
        let p := pl.getD (P x, P y)
        let last := (k + len - 1) / 32
        let refused := fun (code : Nat) => ∃ w, start = .next (status s2 w) ∧ Refused st w code 0
        let roles := valid x ∧ valid y ∧ role x = false ∧ role y = true
        let planes := p.1 ≤ P x ∧ p.2 = P y
        let reach := fun (z : Cap) (h : List Byte) =>
          k + len ≤ 32 * slabs h ∧ ((capOff z + 64 + (last + 1) * (320 + 128 * P h) : Nat) : Int) ≤ capTop z
        (¬roles → refused 1) ∧ (roles → ¬planes → refused 2) ∧ (roles → planes → ¬(reach a x ∧ reach b y) → refused 3) ∧
        (roles → planes → reach a x → reach b y →
          start = .next (s2.setMatrix core { s2.matrixOf core with
            running := some { cmd := cmd, pa := p.1, pb := p.2, held := P x, chunk := 0, before := (s2.tile core pt).elems, terms := [] } }))))

/-- MEPI and MEPIRP reach the unit (R262, R266, R268, R269): an epilogue is skipped or refused as an MMA is; its rows are stored in turn, each
once its pages are translated, an FP32 row being the activation of the tile's; a row that meets a fault stops it with HELD, the row as CURSOR and
its parameters kept; a replay goes on from CURSOR with what was kept, and does nothing where nothing was. -/
def Sys2Proof.Spec.EpiloguesStart : Prop :=
  ∀ (s s0 s1 : State) (core : Nat) (cmd : MCmd) (spec pt : Nat) (ep : Epilogue),
    let c := s0.accOf cmd.org
    let st := s0.tileStatus core pt
    let status := fun (t : State) (w : Word) => t.setTile core pt { t.tile core pt with status := w }
    let start := exec (.matrixCommandStart core) s
    let bit4 := fun (on : Bool) (row : Nat) (w : Word) =>
      w.getLsbD 4 = on ∧ fieldW 12 8 w = row ∧ ∀ i, i ≠ 4 → ¬(8 ≤ i ∧ i ≤ 12) → w.getLsbD i = st.getLsbD i
    let ran := fun (kept : List MCmd) (row : Nat) =>
      (s0.epiRows c core pt ep (32 - row) row = (none, s1) → s1.matrix = s0.matrix →
        ∃ w, start = .next (s1.setTile core pt { s1.tile core pt with status := w, kept := none }) ∧ bit4 false 0 w) ∧
      (∀ r k off, s0.epiRows c core pt ep (32 - row) row = (some (r, k, off), s1) → s1.matrix = s0.matrix → r < 32 →
        ∃ t, start = .next t ∧ bit4 true r (t.tileStatus core pt) ∧ (t.tile core pt).kept = some (kept, ep) ∧
          (t.tile core pt).elems = (s0.tile core pt).elems ∧ t.mem = s1.mem)
    Next s s0 core cmd →
    (cmd.body = .epi spec pt ep →
      (st.getLsbD 3 = true → start = .next s0) ∧
      (st.getLsbD 3 = false → st.getLsbD 4 = true → ∃ w, start = .next (status s0 w) ∧ Refused st w 4 0) ∧
      (st.getLsbD 3 = false → st.getLsbD 4 = false → ran [cmd] 0)) ∧
    (cmd.body = .replay spec pt →
      ((s0.tile core pt).kept = none → start = .next s0) ∧
      ∀ kept, (s0.tile core pt).kept = some (kept, ep) → ran (kept ++ [cmd]) (fieldW 12 8 st)) ∧
    ∀ (t0 t1 : State) (f row : Nat) (ps : List (Nat × Nat)),
      let off := capOff ep.dst + row * ep.stride
      let v := fun (j : Nat) => (smGet 0 (t0.tile core pt).elems (32 * row + j)).toNat
      let act := fun (x : Nat) =>
        if ep.act = .relu ∧ (fp32.decode x).isNaN = false ∧ ((fp32.decode x).neg = true ∨ (fp32.decode x).isZero = true) then 0 else x
      epiElem (capFmt ep.dst) = some .fp32 → ep.act = .none ∨ ep.act = .relu → ep.acc = false →
      (t0.xlatRange c (capObj ep.dst) off rW (pagesOf off 128) 128 = (.ok ps, t1) → t1.anyDown ps = false →
        t0.epiRows c core pt ep (f + 1) row =
          (t1.writePieces c.core ps ((List.range 32).flatMap fun j => leBytes 4 (act (v j)))).epiRows c core pt ep f (row + 1)) ∧
      ∀ k o, t0.xlatRange c (capObj ep.dst) off rW (pagesOf off 128) 128 = (.error (k, o), t1) →
        t0.epiRows c core pt ep (f + 1) row = (some (row, k, o), t1)

/-- MPLANE reaches the unit (R263): the header is written, then slab after slab, each from the exact values of the 32 lanes; a fault stops it
at its slab. -/
def Sys2Proof.Spec.PlanesStart : Prop :=
  ∀ (s s0 s1 : State) (core : Nat) (cmd : MCmd) (p : Nat) (dst src : Cap) (role ns stride : Nat) (e : Elem),
    let c := s0.accOf cmd.org
    Next s s0 core cmd → cmd.body = .plane p dst src role ns stride → 1 ≤ p → p ≤ 16 → role < 2 → ns < 32 → planeElem (capFmt src) = some e →
    (s0.engWrite c (capObj dst) (capOff dst) (leBytes 8 (ns * 2 ^ 16 + role * 2 ^ 8 + p) ++ leBytes 56 0) = (.ok (), s1) →
      exec (.matrixCommandStart core) s = .next (s1.planeSlabs cmd.org p dst src e stride (ns + 1) 0)) ∧
    ∀ (t t1 t2 : State) (f slab : Nat) (lanes : List (List FVal)),
      let n := laneBytes e 32
      (t.sourceSlab (t.accOf cmd.org) src e stride slab 32 0 = (.ok lanes, t1) →
        t1.engWrite (t.accOf cmd.org) (capObj dst) (capOff dst + 64 + slab * (320 + 128 * p)) (slabBytes p (lanes.map (planeBlock p))) =
          (.ok (), t2) →
        t.planeSlabs cmd.org p dst src e stride (f + 1) slab = t2.planeSlabs cmd.org p dst src e stride f (slab + 1)) ∧
      (∀ k off, t.sourceSlab (t.accOf cmd.org) src e stride slab 32 0 = (.error (k, off), t1) →
        (t.planeSlabs cmd.org p dst src e stride (f + 1) slab).mem = t1.mem) ∧
      ∀ (l : Nat) (b : List Byte) (rest : List (List FVal)),
        t.engReadWhole c (capObj src) (capOff src + l * stride + slab * n) n = (.ok b, t1) →
        t1.sourceSlab c src e stride slab f (l + 1) = (.ok rest, t2) →
        t.sourceSlab c src e stride slab (f + 1) l = (.ok (laneVals e b :: rest), t2)

/-- The conversion of a block at p planes (R22): its exponent is that of the greatest finite magnitude, −150 for a block of zeros, and each
significand is the value in units of 2^(E + 2 − p), rounded to nearest even and not above 2^(p − 1) − 1. -/
def Sys2Proof.Spec.PlanesConvert : Prop :=
  ∀ (p : Nat) (x : List FVal), 1 ≤ p → p ≤ 16 →
    let val := fun (v : FVal) =>
      match v with
      | .fin neg m e => (if neg then -1 else 1) * (m : ℚ) * (2 : ℚ) ^ e
      | .inf _ => 0
      | .nan _ _ _ => 0
    let b := planeBlock p x
    b.sig.length = x.length ∧
    ((∀ v ∈ x, val v = 0) → b.exp = -150 ∧ ∀ q ∈ b.sig, q = 0) ∧
    ((∃ v ∈ x, val v ≠ 0) →
      (∃ v ∈ x, (2 : ℚ) ^ b.exp ≤ |val v|) ∧ (∀ v ∈ x, |val v| < (2 : ℚ) ^ (b.exp + 1)) ∧
      ∀ i, i < x.length →
        let y := val (x.getD i (.fin false 0 0)) * (2 : ℚ) ^ ((p : Int) - 2 - b.exp)
        let q := b.sig.getD i 0
        let top : Int := 2 ^ (p - 1) - 1
        q ≤ top ∧ 2 * ((q : ℚ) - y) ≤ 1 ∧ (2 * ((q : ℚ) - y) = 1 → q % 2 = 0) ∧
          (q < top → 2 * (y - (q : ℚ)) ≤ 1 ∧ (2 * (y - (q : ℚ)) = 1 → q % 2 = 0)))

/-- The unit (R255, R258, R260, R261, R270, R367): MZERO clears the tile and its error; a chunk draws its energy tokens, or waits
for them, and adds its block to the tile, both halves of a slab with its first chunk (log 33's reading); an idle tile gives up a pending release and FLT; a marker whose commands are
complete delivers its value to q1; a microsecond adds 2,700 tokens, up to 4,096, to every core while the draw is within budget. -/
def Sys2Proof.Spec.MatrixRuns : Prop :=
  ∀ (s : State) (core : Nat),
    let u := s.matrixOf core
    (∀ cmd rest spec pt, u.queue = cmd :: rest → u.running = none → cmd.body = .zero spec pt →
      (s.tileStatus core pt).getLsbD 4 = false →
      ∃ t w, exec (.matrixCommandStart core) s = .next t ∧ Bits (s.tileStatus core pt) w []
        ([3, 20, 21, 22, 23] ++ (List.range 8).map (32 + ·)) ∧ (t.matrixOf core).queue = rest ∧
        t.tile core pt = { s.tile core pt with elems := [], status := w } ∧ t.mem = s.mem ∧ t.threads = s.threads) ∧
    (∀ r, u.running = some r →
      let cost := if r.pb ≤ 8 then r.pa else 2 * r.pa
      let held := smGet 0 s.tokens core
      (held < cost → exec (.matrixChunk core) s = .next s) ∧
      (∀ spec pt pl a b k len sp s1 s2 x y, cost ≤ held → r.cmd.body = .mma spec pt pl a b k len sp → r.cmd.org.core = core →
        (k + 16 * r.chunk) % 32 = 0 ∨ r.chunk = 0 →
        let slab := (k + 16 * r.chunk) / 32
        let s0 := { s with tokens := smPut s.tokens core (held - cost), drew := setIns core s.drew }
        s0.readSlab (s0.accOf r.cmd.org) a r.held r.pa slab = (.ok x, s1) →
        s1.readSlab (s0.accOf r.cmd.org) b r.pb r.pb slab = (.ok y, s2) → s2.matrix = s.matrix →
        ∃ t, exec (.matrixChunk core) s = .next t ∧ t = { s2 with matrix := t.matrix } ∧
          (t.tile core pt).status = (s.tile core pt).status ∧
          (t.tile core pt).elems = (applyBlock core r (s.tile core pt).elems x y (fun i => 32 * slab + i - k)
            ((List.range 32).filter fun i => k ≤ 32 * slab + i && 32 * slab + i < k + len)).1 ∧
          ((t.matrixOf core).running.map (·.chunk)) = (if len ≤ 16 * (r.chunk + 1) then none else some (r.chunk + 1)))) ∧
    (∀ pt, (∀ c ∈ u.queue, c.body.tile ≠ some pt) → (u.running.bind fun r => r.cmd.body.tile) ≠ some pt →
      (s.tileStatus core pt).getLsbD 4 = false →
      ∃ t w, exec (.tileRelease core pt) s = .next t ∧ t = s.setTile core pt { s.tile core pt with status := w } ∧
        ((s.tileStatus core pt).getLsbD 5 = false → Bits (s.tileStatus core pt) w [] [2]) ∧
        ((s.tileStatus core pt).getLsbD 5 = true → Bits (s.tileStatus core pt) w []
          ([0, 1, 2, 3, 5, 20, 21, 22, 23] ++ (List.range 8).map (32 + ·)))) ∧
    (∀ m rest k, u.markers = m :: rest → s.keptOf core m.org.firing = [] → s.holding core 0 = false →
      s.firingCtx m.org.firing = some k →
      ∃ t, exec (.matrixMarkerDelivery core) s = .next t ∧ (t.matrixOf core).markers = rest ∧ t.mem = s.mem ∧
        (t.thread k).held = (s.thread k).held ++ [⟨1, [m.value]⟩] ∧ ∀ j, j ≠ k → t.thread j = s.thread j) ∧
    ∀ draw : BitVec 16, draw.toNat ≤ fieldW 15 0 s.pwrbud →
      ∃ t, exec (.energyTokenRefill draw) s = .next t ∧ t.mem = s.mem ∧ t.threads = s.threads ∧ t.clock = s.clock + 1000 ∧
        fieldW 47 32 t.pwrbud = draw.toNat ∧ fieldW 31 0 t.pwrbud = fieldW 31 0 s.pwrbud ∧
        ∀ k, k < 4096 → smGet 0 t.tokens k = min 4096 (smGet 0 s.tokens k + 2700)

/-- The term of one k (R26), none where both elements are finite: of the marks of A's element and B's, and their significands as read. A NaN
term is `none` inside, an infinite one its sign. -/
def Sys2Proof.Spec.TermOf (u v : Option FVal) (qa qb : Int) (t : Option (Option Bool)) : Prop :=
  (u = none → v = none → t = none) ∧
  (∀ n f w, u = some (.nan n f w) ∨ v = some (.nan n f w) → t = some none) ∧
  (∀ x y, u = some (.inf x) → v = some (.inf y) → t = some (some (x ^^ y))) ∧
  (∀ x, u = some (.inf x) → v = none → t = if qb = 0 then some none else some (some (x ^^ decide (qb < 0)))) ∧
  (∀ y, u = none → v = some (.inf y) → t = if qa = 0 then some none else some (some (decide (qa < 0) ^^ y)))

/-- What a block does to each element of the tile (R25 to R27): without a term, the block's products are summed exactly and added, scaled by
both exponents, with one rounding to nearest even; a sum of zero, an infinity and a NaN leave the accumulator. With a term, those of the
command so far decide on the accumulator from before the command: a NaN stays; a NaN term or infinities of both signs, the accumulator's
among them, give the unit's NaN with the core's number and the lowest offset of those terms; else the infinity. -/
def Sys2Proof.Spec.MatrixSums : Prop :=
  ∀ (core : Nat) (r : MRun) (elems : SMap (BitVec 32)) (a b : List PlaneBlock) (at_ : Nat → Nat) (ks : List Nat) (i : Fin 1024),
    let x := a.getD (i.val / 32) ⟨0, [], []⟩
    let y := b.getD (i.val % 32) ⟨0, [], []⟩
    let res := applyBlock core r elems a b at_ ks
    let out := smGet 0 res.1 i.val
    let acc := smGet 0 elems i.val
    let before := smGet 0 r.before i.val
    let sum : Int := (ks.map fun k => x.sig.getD k 0 * y.sig.getD k 0).sum
    let z : ℚ := sum * (2 : ℚ) ^ (x.exp + 2 - r.pa) * (2 : ℚ) ^ (y.exp + 2 - r.pb)
    let ts := smGet [] res.2 i.val
    let made := fun (offs : List Nat) => ∃ k ∈ offs, (∀ j ∈ offs, k ≤ j) ∧ out.getLsbD 31 = false ∧ fieldW 30 23 (out.setWidth 64) = 255 ∧
      out.getLsbD 22 = true ∧ fieldW 21 10 (out.setWidth 64) = core % 4096 ∧ fieldW 9 0 (out.setWidth 64) = k % 1024
    (∃ term : Nat → Option (Option Bool),
      (∀ k, TermOf (x.markAt k) (y.markAt k) (x.sig.getD k 0) (y.sig.getD k 0) (term k)) ∧
      ts = smGet [] r.terms i.val ++ ks.filterMap fun k => (term k).map fun v => (at_ k, v)) ∧
    (ts = [] →
      (sum = 0 ∨ ¬finite fp32 acc.toNat → out = acc) ∧
      (sum ≠ 0 → finite fp32 acc.toNat → ExactlyRounded fp32 .rne 0 (codeRat fp32 acc.toNat + z) false out.toNat)) ∧
    (ts ≠ [] →
      let nans := (ts.filter fun t => t.2 = none).map (·.1)
      let infs := ts.filterMap (·.2)
      let old := fun (s : Bool) => before = if s then 0xFF800000 else 0x7F800000
      (nanCode 8 23 before.toNat → out = before) ∧
      (¬nanCode 8 23 before.toNat →
        (nans ≠ [] → made nans) ∧
        (nans = [] → true ∈ infs ∧ false ∈ infs ∨ (∃ s ∈ infs, old (!s)) → made (ts.map (·.1))) ∧
        ∀ s, nans = [] → (∀ u ∈ infs, u = s) → ¬old (!s) → out = if s then 0xFF800000 else 0x7F800000))

/-- A lane of a slab as the unit reads it (R23, R257): the two's-complement exponent; of each significand the planes read, sign plane first;
and the marks, by their two planes. -/
def Sys2Proof.Spec.LanesRead : Prop :=
  ∀ (n l i : Nat) (hd mks : List Byte), 1 ≤ n → n ≤ 16 → l < 32 → i < 32 →
    let word := fun (b : List Byte) (o : Nat) => leNat ((b.drop o).take 4)
    let b := laneBlock n hd mks l
    let q := b.sig.getD i 0
    let m0 := (word mks (4 * l)).testBit i
    let m1 := (word mks (128 + 4 * l)).testBit i
    b.exp = (BitVec.ofNat 16 (leNat ((hd.drop (2 * l)).take 2))).toInt ∧ -2 ^ (n - 1) ≤ q ∧ q < 2 ^ (n - 1) ∧
    (∀ j, j < n → (q / 2 ^ (n - 1 - j) % 2 = 1 ↔ (word hd (64 + 128 * j + 4 * l)).testBit i = true)) ∧
    b.markAt i = (if m1 && m0 then some (.nan false 0 0) else if m1 then some (.inf true) else if m0 then some (.inf false) else none)

/-- How the commands of the matrix unit start, proceed and end, and what a chunk adds; log 33 names the model's reading. -/
def Obligations.MatrixEvents : Prop :=
  Sys2Proof.Spec.MatrixRuns ∧ Sys2Proof.Spec.MatrixSums ∧ Sys2Proof.Spec.LanesRead ∧ Sys2Proof.Spec.MultipliesStart ∧ Sys2Proof.Spec.EpiloguesStart ∧ Sys2Proof.Spec.PlanesStart ∧
    Sys2Proof.Spec.PlanesConvert

/-- Matrix commands, tile status and tile checks. -/
def Obligations.MatrixCommands : Prop :=
  Sys2Proof.Spec.MatrixCommandsIssue ∧ Sys2Proof.Spec.TileStatus ∧ Sys2Proof.Spec.TileChecks

/-! ## Traversals, work graphs and pairs (spec/23_traversal.md R295 to R320, R373; spec/25_pairs.md R323 to R335) -/

/-- TRAV and DTRAV (R295, R300, R304) complete once their blocks pass: the command joins the core's buffer of four; a full one parks it
(R158). That one whose free places are all earlier waiters' parks it too is the model's reading (log 55). -/
def Sys2Proof.Spec.TraversalsIssue : Prop :=
  ∀ (s : State) (h r : CReg),
    let hc := s.th.rc h
    let rc := s.th.rc r
    let trav := capCheck hc rR (capOff hc) 64 64 = none ∧ capCheck rc (rR + rW) (capOff rc) 320 64 = none
    let dtrav := capCheck rc (rR + rW + rC) (capOff rc) 16448 64 = none
    s.th.stores = [] →
    (s.pushersBefore 4 < s.travRoom s.origin.core →
      (trav → Does (.trav h r) s (s.pushTrav s.origin (.trav hc rc)) s.th []) ∧
      (dtrav → Does (.dtrav r) s (s.pushTrav s.origin (.dtrav rc)) s.th [])) ∧
    (s.travRoom s.origin.core ≤ s.pushersBefore 4 → s.th.handler = false →
      (trav → Parks (.trav h r) s (.engine 4)) ∧ (dtrav → Parks (.dtrav r) s (.engine 4)))

/-- FP32 arithmetic rounded to nearest even once, in three components (R302). -/
abbrev Sys2Proof.Spec.V3 := Nat × Nat × Nat

def Sys2Proof.Spec.each (f : Nat → Nat → Nat) (a b : V3) : V3 := (f a.1 b.1, f a.2.1 b.2.1, f a.2.2 b.2.2)

/-- (x × x' + y × y') + z × z'. -/
def Sys2Proof.Spec.dot (a b : V3) : Nat :=
  let p := fAdd fp32 .rne 0
  let m := fMul fp32 .rne 0
  p (p (m a.1 b.1) (m a.2.1 b.2.1)) (m a.2.2 b.2.2)

/-- cross(a, b) of R302. -/
def Sys2Proof.Spec.cross (a b : V3) : V3 :=
  let s := fSub fp32 .rne 0
  let m := fMul fp32 .rne 0
  (s (m a.2.1 b.2.2) (m a.2.2 b.2.1), s (m a.2.2 b.1) (m a.1 b.2.2), s (m a.1 b.2.1) (m a.2.1 b.1))

/-- local(v) of R302 for u and qw. -/
def Sys2Proof.Spec.toLocalOf (u : V3) (qw : Nat) (v : V3) : V3 :=
  let p := fAdd fp32 .rne 0
  let m := fMul fp32 .rne 0
  let t := each m (0x40000000, 0x40000000, 0x40000000) (cross u v)
  each p (each p v (each m (qw, qw, qw) t)) (cross u t)

/-- The primitive test of R302 on the 48 bytes of an ellipsoid (R294): its T and D2 where it is a candidate. -/
def Sys2Proof.Spec.EllipsoidHit (r : Ray) (b : List Byte) (t d2 : Nat) : Prop :=
  let at_ := fun (i n : Nat) => leNat ((b.drop i).take n)
  let half := fun (i : Nat) => (fp16.decode (at_ i 2)).into fp32 .rne 0
  let neg := fun (c : Nat) => c ^^^ 2 ^ 31
  let m := fMul fp32 .rne 0
  let ray := fun (l : List Nat) => (l.getD 0 0, l.getD 1 0, l.getD 2 0)
  let is := (half 20, half 22, half 24)
  let loc := toLocalOf (neg (half 14), neg (half 16), neg (half 18)) (half 12)
  let o := each m (loc (each (fSub fp32 .rne 0) (ray r.org) (at_ 0 4, at_ 4 4, at_ 8 4))) is
  let d := each m (loc (ray r.dir)) is
  let dd := dot d d
  finite fp32 dd ∧ dd % 2 ^ 31 ≠ 0 ∧ t = neg (fDiv fp32 .rne 0 (dot o d) dd) ∧
    (let e := each (fAdd fp32 .rne 0) o (each m (t, t, t) d)
     d2 = dot e e ∧ fpCond .le (fp32.decode d2) (fp32.decode 0x41100000) = true ∧ fpCond .le (fp32.decode t) (fp32.decode r.tmax) = true)

/-- The node test of R302: a node is visited. -/
def Sys2Proof.Spec.BoxHit (r : Ray) (n : Node) : Prop :=
  let le := fun (a b : Nat) => fpCond .le (fp32.decode a) (fp32.decode b) = true
  let s := fSub fp32 .rne 0
  let m := fMul fp32 .rne 0
  let lower := fMinMax fp32 false
  let upper := fMinMax fp32 true
  ∃ near far : Nat → Nat,
    (∀ a, a < 3 →
      let org := r.org.getD a 0
      let dir := r.dir.getD a 0
      let lo := n.lo.getD a 0
      let hi := n.hi.getD a 0
      (dir % 2 ^ 31 = 0 → le lo org ∧ le org hi ∧ near a = 0xFF800000 ∧ far a = 0x7F800000) ∧
      (dir % 2 ^ 31 ≠ 0 →
        let inv := fDiv fp32 .rne 0 0x3F800000 dir
        near a = lower (m (s lo org) inv) (m (s hi org) inv) ∧ far a = upper (m (s lo org) inv) (m (s hi org) inv))) ∧
    let tn := upper (upper (near 0) (near 1)) (near 2)
    let tf := lower (lower (far 0) (far 1)) (far 2)
    le tn tf ∧ le r.tmin tf ∧ le tn r.tmax

/-- Key order (R303): T, then PRIM. -/
def Sys2Proof.Spec.Nearer (t p t' p' : Nat) : Prop :=
  fpCond .lt (fp32.decode t) (fp32.decode t') = true ∨ fpCond .eq (fp32.decode t) (fp32.decode t') = true ∧ p < p'

/-- The candidates of a round (R301 to R303): the two tests; a visited leaf's primitives are tested one after another, a visited inner node's
children are walked, and a node that fails its test or was expanded is skipped; a candidate whose key lies after the block's position
joins the list, once for each primitive, with the lowest leaf; and the list that a walk gives is in key order, nearest first, each
member being such a candidate. -/
def Sys2Proof.Spec.RaysFindNearest : Prop :=
  ∀ (s s1 : State) (c : Acc) (h : Hier) (r : Ray) (l : List Hit) (pz : Bool),
    let after := fun (t p : Nat) => fpCond .lt (fp32.decode r.tmin) (fp32.decode t) = true ∨
      fpCond .eq (fp32.decode t) (fp32.decode r.tmin) = true ∧ (r.last = 0xFFFFFFFF ∨ r.last < p)
    let inOrder := fun (l : List Hit) => l.Pairwise fun a b => Nearer a.t a.prim b.t b.prim ∧ a.prim ≠ b.prim
    let real := fun (l : List Hit) => ∀ x ∈ l, after x.t x.prim ∧ ∃ b, EllipsoidHit r b x.t x.d2
    (∀ b t d2, primTest r b = some (t, d2) ↔ EllipsoidHit r b t d2) ∧
    (∀ n : Node, visited r n = true ↔ BoxHit r n) ∧
    (∀ x : Hit, inOrder l → real l → after x.t x.prim → (∃ b, EllipsoidHit r b x.t x.d2) →
      inOrder (addHit x l) ∧ real (addHit x l) ∧
      ((∀ y ∈ l, y.prim ≠ x.prim) → ∀ y, y ∈ addHit x l ↔ y = x ∨ y ∈ l) ∧
      (∀ y ∈ l, y.prim = x.prim → ∀ z, z ∈ addHit x l ↔ z = { y with leaf := min y.leaf x.leaf } ∨ z ∈ l ∧ z.prim ≠ x.prim)) ∧
    (∀ n p leaf b, s.readPrim c h p = (.ok (b, false), s1) →
      let goesOn := fun (l' : List Hit) => s.leafHits c h r leaf (n + 1) p (l, pz) = s1.leafHits c h r leaf n (p + 1) (l', pz)
      (∀ t d2, EllipsoidHit r b t d2 → after t p → goesOn (addHit ⟨t, p, leaf, d2⟩ l)) ∧
      ((∀ t d2, EllipsoidHit r b t d2 → ¬after t p) → goesOn l)) ∧
    (∀ f i par rest seen n, s.readNode c h i par (fun _ => true) = (.ok n, s1) →
      let walk := s.rayWalk c h r (f + 1) ((i, par) :: rest) seen (l, pz)
      (i ∈ seen ∨ ¬BoxHit r n → walk = s1.rayWalk c h r f rest seen (l, pz)) ∧
      (i ∉ seen → BoxHit r n → n.leaf = false →
        walk = s1.rayWalk c h r f (n.child.map (fun j => (j, some n.depth)) ++ rest) (i :: seen) (l, pz)) ∧
      (i ∉ seen → BoxHit r n → n.leaf = true → n.kind ≠ 1 → walk = (.bad i pz, s1)) ∧
      (∀ acc s2, i ∉ seen → BoxHit r n → n.leaf = true → n.kind = 1 →
        s1.leafHits c h r i n.count n.first (l, pz) = (.ok acc, s2) → walk = s2.rayWalk c h r f rest (i :: seen) acc)) ∧
    ∀ f pend, s.rayWalk c h r f pend [] ([], false) = (.hits l pz, s1) → inOrder l ∧ real l

/-- The unit (R295, R296, R303): a TRAV that finds candidates writes the nearest K of them and delivers STATUS, COUNT and POISON
to q5 of its firing; a marker is delivered after the results of every earlier command of its firing, while the unit holds no record for
its core (R155). -/
def Sys2Proof.Spec.TraversalEvents : Prop :=
  ∀ (s : State) (x : TCmd) (k : Nat), s.travs = [x] →
    (∀ hc blk s1 s2 s3 s4 b h l p, x.body = .trav hc blk → x.running = false →
      let s0 := { s with served := smPut s.served (x.org.core / 16) (x.org.core % 16) }
      let c := s.unitAcc x.org
      let r := parseRay b
      s0.engReadWhole c (capObj blk) (capOff blk) 320 = (.ok b, s1) → 1 ≤ r.k → r.k ≤ 16 →
      (∀ i, 40 ≤ i → i < 64 → b.getD i 0 = 0) → b.length = 320 → s1.readHier c hc = (.ok h, s2) →
      s2.rayWalk c h r (5 * h.nnodes + 5) [(h.root, none)] [] ([], false) = (.hits l p, s3) →
      s3.writeHits c blk (l.take r.k) = (.ok (), s4) → s4.travs = [x] → s4.holding x.org.core 4 = false →
      s4.firingCtx x.org.firing = some k →
      ∃ t w, exec (.traversalCommandStart (x.org.core / 16)) s = .next t ∧ t = { s4 with travs := [], threads := t.threads } ∧
        (t.thread k).held = (s4.thread k).held ++ [⟨5, [w]⟩] ∧ (∀ j, j ≠ k → t.thread j = s4.thread j) ∧
        fieldW 63 60 w = (if r.k < l.length then 1 else 0) ∧ w.getLsbD 59 = p ∧ fieldW 39 32 w = min r.k l.length) ∧
    (∀ v w, x.body = .marker v → x.result = some w → s.holding x.org.core 4 = false → s.firingCtx x.org.firing = some k →
      ∃ t, exec (.traversalMarkerDelivery x.org.core) s = .next t ∧ t = { s with travs := [], threads := t.threads } ∧
        (t.thread k).held = (s.thread k).held ++ [⟨5, [w]⟩] ∧ ∀ j, j ≠ k → t.thread j = s.thread j)

/-- The one command of a unit ends in the state `s1` with a result (R296), which is delivered to q5 of its firing in context `k`. -/
def Sys2Proof.Spec.Answered (s1 t : State) (k status data : Nat) (poison : Bool) : Prop :=
  ∃ w, t = { s1 with travs := [], threads := t.threads } ∧ (t.thread k).held = (s1.thread k).held ++ [⟨5, [w]⟩] ∧
    (∀ j, j ≠ k → t.thread j = s1.thread j) ∧ fieldW 63 60 w = status ∧ fieldW 31 0 w = data % 2 ^ 32 ∧ w.getLsbD 59 = poison ∧
    fieldW 58 32 w = 0

/-- The unit holds one command alone, whose result the context `k` takes at once. -/
def Sys2Proof.Spec.Alone (s : State) (x : TCmd) (k : Nat) : Prop :=
  s.travs = [x] ∧ s.holding x.org.core 4 = false ∧ s.firingCtx x.org.firing = some k

/-- A descent begins (R304, R305): a block with BUSY set ends with STATUS 3; else, its capabilities, headers and queue standing, BUSY is
written, WORK of the queue rises, and a fresh descent starts from its two roots where they overlap, one that was stopped from the pairs of
its stack. -/
def Sys2Proof.Spec.DescentsBegin : Prop :=
  ∀ (s s1 s2 s3 s4 s5 s7 s8 : State) (x : TCmd) (k : Nat) (blk : Cap) (w : List Byte × List Bool) (h g : Hier) (q q' : WQueue) (a b : Node)
    (bs : List Byte),
    let c := s.unitAcc x.org
    let ctl := blockWord w 48
    let st := blockWord w 56
    let ha := blockCap w 0
    let hb := if ctl.getLsbD 2 then ha else blockCap w 1
    let qc := blockCap w 2
    let start := exec (.traversalCommandStart (x.org.core / 16)) s
    s.travs = [x] → x.body = .dtrav blk → x.running = false →
    { s with served := smPut s.served (x.org.core / 16) (x.org.core % 16) }.blockHead c blk 64 = (.ok w, s1) →
    (st.getLsbD 62 = true → Alone s1 x k → ∃ t, start = .next t ∧ Answered s1 t k 3 0xFFFFFFFF x.poison) ∧
    (st.getLsbD 62 = false → fieldW 31 3 ctl = 0 → fieldW 1 0 ctl < 2 → capCheck ha rR (capOff ha) 64 64 = none →
      capCheck hb rR (capOff hb) 64 64 = none → capCheck qc (rR + rW + Machine.rA) (capOff qc) 128 64 = none →
      s1.readHier c ha = (.ok h, s2) → s2.readHier c hb = (.ok g, s3) → s3.queueOf c qc = (.ok (some q), s4) →
      let c4 := s4.unitAcc x.org
      s4.engWrite c4 (capObj blk) (capOff blk + 56) (leBytes 8 (st.toNat + 2 ^ 62)) = (.ok (), s5) → s5.wq? q.id = some q' →
      let s6 := s5.setWq { q' with work := q'.work + 1 }
      let c6 := s6.unitAcc x.org
      let d : DRun := ⟨h, g, ctl, [], 0, 0, x.poison, q.id⟩
      let runs := fun (t s : State) (d : DRun) => t = { s with travs := [{ x with running := true, run := some d }] }
      (st.getLsbD 63 = false → s6.readNode c6 h h.root none (dLeaf ctl) = (.ok a, s7) →
        s7.readNode c6 g g.root none (dLeaf ctl) = (.ok b, s8) → s8.travs = [x] →
        ∃ t, start = .next t ∧ runs t s8 { d with stack := if overlap a b then [(h.root, g.root)] else [] }) ∧
      (let n := fieldW 43 32 st
       st.getLsbD 63 = true → n ≤ 2048 → s6.engReadWhole c4 (capObj blk) (capOff blk + 64) (8 * n) = (.ok bs, s7) → bs.length = 8 * n →
        s7.travs = [x] →
        ∃ t, start = .next t ∧ runs t s7 { d with
          emit := fieldW 31 0 st
          stack := (List.range n).reverse.map fun i => (leNat ((bs.drop (8 * i)).take 4), leNat ((bs.drop (8 * i + 4)).take 4)) }))

/-- A pair of a descent (R298, R305 to R308): a pair that names a poisoned node is dropped; two leaves give a record to the queue, but for one
leaf with itself and, in MODE 1, for spheres that do not overlap; any other pair is split into its overlapping child pairs, in the order of
slots; an empty stack ends the descent with STATUS 0; a full queue stops it with STATUS 2 and a bad node with STATUS 3, the pair still on
top, and the block then holds the pending pairs. -/
def Sys2Proof.Spec.DescentsStep : Prop :=
  ∀ (s s1 s2 s3 s4 : State) (x : TCmd) (k : Nat) (blk : Cap) (d : DRun),
    let c := s.unitAcc x.org
    let self := d.ctl.getLsbD 2
    let start := exec (.traversalCommandStart (x.org.core / 16)) s
    let goes := fun (s : State) (d : DRun) => s.travs = [x] → start = .next { s with travs := [{ x with run := some d }] }
    let at_ := capOff blk + 56
    let stopped := fun (u : State) (status data : Nat) =>
      u.engWrite (u.unitAcc x.org) (capObj blk) at_ (leBytes 8 (2 ^ 63 + d.stack.length * 2 ^ 32 + d.emit % 2 ^ 32) ++
        d.stack.reverse.flatMap fun p => leBytes 4 p.1 ++ leBytes 4 p.2) = (.ok (), s4) →
      Alone (s4.wqWork d.queue 1) x k → ∃ t, start = .next t ∧ Answered (s4.wqWork d.queue 1) t k status data d.poison
    s.travs = [x] → x.body = .dtrav blk → x.running = true → x.run = some d → x.result = none →
    (d.stack = [] → s.engWrite c (capObj blk) at_ (leBytes 8 (2 ^ 63 + d.emit % 2 ^ 32)) = (.ok (), s1) → Alone (s1.wqWork d.queue 1) x k →
      ∃ t, start = .next t ∧ Answered (s1.wqWork d.queue 1) t k 0 d.emitted d.poison) ∧
    (∀ i j rest ra rb, d.stack = (i, j) :: rest → d.stack.length ≤ 2048 → s.readNode c d.ha i none (dLeaf d.ctl) = (ra, s1) →
      s1.readNode c d.hb j none (dLeaf d.ctl) = (rb, s2) →
      let popped := { d with stack := rest }
      let c2 := s2.unitAcc x.org
      (ra = .poisoned ∨ rb = .poisoned → goes s2 { popped with poison := true }) ∧
      (ra = .bad → rb ≠ .poisoned → stopped s2 3 i) ∧
      (∀ a b, ra = .ok a → rb = .ok b →
        let same := self = true ∧ a.idx = b.idx
        let pair := if self then (min a.idx b.idx, max a.idx b.idx) else (a.idx, b.idx)
        let flags := (if d.ha.strict = true ∧ (self = true ∨ d.hb.strict = true) then 0 else 1) + (if self then 2 else 0) +
          (if fieldW 1 0 d.ctl = 1 then 4 else 0)
        let record := leBytes 4 pair.1 ++ leBytes 4 pair.2 ++ leBytes 4 (fieldW 63 32 d.ctl) ++ leBytes 1 flags ++ leBytes 18 0 ++
          leBytes 1 (max a.depth b.depth)
        let emits := fun (u : State) => ∀ q, u.wq? d.queue = some q →
          (q.used < q.cap → u.place q [record] = (.ok (), s3) → goes s3 { popped with emit := d.emit + 1, emitted := d.emitted + 1 }) ∧
          (q.cap ≤ q.used → stopped (u.refuseQueue q 1 x.org.workid) 2 d.emitted)
        (a.leaf = true → b.leaf = true → same → goes s2 popped) ∧
        (a.leaf = true → b.leaf = true → ¬same → fieldW 1 0 d.ctl = 0 → emits s2) ∧
        (a.leaf = true → b.leaf = true → ¬same → fieldW 1 0 d.ctl ≠ 0 → ∀ u v s5 s6, s2.sphereOf c2 d.ha a = (.ok (some u), s5) →
          s5.sphereOf c2 d.hb b = (.ok (some v), s6) →
          let add := fAdd fp32 .rne 0
          let mul := fMul fp32 .rne 0
          let df := fun (n : Nat) => fSub fp32 .rne 0 (u.1.getD n 0) (v.1.getD n 0)
          let d2 := add (add (mul (df 0) (df 0)) (mul (df 1) (df 1))) (mul (df 2) (df 2))
          let r := add u.2 v.2
          (fpCond .lt (fp32.decode d2) (fp32.decode (mul r r)) = true → emits s6) ∧
          (fpCond .lt (fp32.decode d2) (fp32.decode (mul r r)) = false → goes s6 popped)) ∧
        (¬(a.leaf = true ∧ b.leaf = true) →
          let kept := fun (l : List ((Nat × Option Node) × (Nat × Option Node))) => l.filterMap fun p =>
            match p.1.2, p.2.2 with
            | some y, some z => if overlap y z then some (p.1.1, p.2.1) else none
            | _, _ => none
          let none_ := fun (l : List (Nat × Option Node)) => l.any fun y => y.2.isNone
          let splits := fun (u : State) (l : List ((Nat × Option Node) × (Nat × Option Node))) (p : Bool) =>
            goes u { d with stack := kept l ++ rest, poison := d.poison || p }
          (same → ∀ l, s2.kids c2 d.ha d.ctl a.depth a.child = (.ok l, s3) →
            splits s3 ((List.range l.length).flatMap fun m => (List.range (l.length - m)).map fun n =>
              (l.getD m (0, none), l.getD (m + n) (0, none))) (none_ l)) ∧
          (¬same → a.leaf = true → ∀ l, s2.kids c2 d.hb d.ctl b.depth b.child = (.ok l, s3) →
            splits s3 (l.map fun y => ((a.idx, some a), y)) (none_ l)) ∧
          (¬same → b.leaf = true → ∀ l, s2.kids c2 d.ha d.ctl a.depth a.child = (.ok l, s3) →
            splits s3 (l.map fun y => (y, (b.idx, some b))) (none_ l)) ∧
          (¬same → a.leaf = false → b.leaf = false → ∀ l m u, s2.kids c2 d.ha d.ctl a.depth a.child = (.ok l, s3) →
            s3.kids c2 d.hb d.ctl b.depth b.child = (.ok m, u) →
            splits u (l.flatMap fun y => m.map fun z => (y, z)) (none_ l || none_ m))))) ∧
    ∀ a b : Node, overlap a b = true ↔ ∀ i, i < 3 →
      fpCond .le (fp32.decode (a.lo.getD i 0)) (fp32.decode (b.hi.getD i 0)) = true ∧
        fpCond .le (fp32.decode (b.lo.getD i 0)) (fp32.decode (a.hi.getD i 0)) = true

/-- A queue descriptor that a thread names, with the state after the access to its first page and its home address (R313). -/
def Sys2Proof.Spec.Descriptor (s s1 : State) (r : CReg) (a : Nat) (e : TlbEntry) : Prop :=
  let c := s.th.rc r
  capCheck c (rR + rW + Machine.rA) (capOff c) 128 64 = none ∧
    locate (creg r) false c (capOff c) (min 128 (65536 - capOff c % 65536)) (rR + rW) s = .ok (a, e) s1

/-- WGRES, WGCOM and WGABN (R313 to R315): n slots become reserved under a word GEN and R, with a true predicate, or the predicate is
false; a fifth reservation takes trap 0x0D before the queue is looked at; a commit stores the record in the reservation's next slot, where
it becomes dispatchable in the order of commitment; an abandoned reservation answers the slots left. -/
def Sys2Proof.Spec.QueueReservations : Prop :=
  ∀ (s s1 : State) (p : PReg) (d r : GReg) (x : CReg) (a : Nat) (e : TlbEntry) (q : WQueue),
    let n := (s.th.rg d).toNat
    let off := capOff (s.th.rc x)
    (n = 0 ∨ 64 < n → TrapsWhole (.wgres p d x) s 0x05 (s.th.rg d)) ∧
    (1 ≤ n → n ≤ 64 → capCheck (s.th.rc x) (rR + rW + Machine.rA) off 128 64 = none →
      (∀ k, k < 4 → (smFind s.th.wg k).isSome) → Traps (.wgres p d x) s 0x0D (tvalQueue 1 off)) ∧
    (Descriptor s s1 x a e → 1 ≤ n → n ≤ 64 →
      (∀ k, k < 4 → s1.th.wg = s.th.wg → (smFind s.th.wg k).isNone → (∀ j, j < k → (smFind s.th.wg j).isSome) →
        (s1.wqAt a = none → exec (.wgres p d x) s = .next (s1.stopped (.trap 0x0D (tvalQueue 3 off)))) ∧
        (s1.wqAt a = some q → n ≤ q.cap - q.used →
          let gen := (s.th.wgGen + 1) % 2 ^ 16
          Does (.wgres p d x) s (s1.reserve q n).2
            { s1.th with wgGen := gen, wg := smPut s1.th.wg k ⟨q.id, n, gen, (s1.reserve q n).1⟩ }
            [.g d (BitVec.ofNat 64 (gen * 2 ^ 8 + k)), .p p true]) ∧
        (s1.wqAt a = some q → q.cap - q.used < n →
          Does (.wgres p d x) s (s1.refuseQueue q n s1.th.workid) s1.th [.p p false]))) ∧
    (let w := s.th.rg r
     let k := fieldW 1 0 w
     let badWord := Traps (.wgcom d r) s 0x0D (tvalQueue 2 w.toNat) ∧ Traps (.wgabn d r) s 0x0D (tvalQueue 2 w.toNat)
     (smFind s.th.wg k = none → badWord) ∧
     ∀ v, smFind s.th.wg k = some v →
      (fieldW 63 24 w ≠ 0 ∨ fieldW 7 2 w ≠ 0 ∨ v.gen ≠ fieldW 23 8 w → badWord) ∧
      (fieldW 63 24 w = 0 → fieldW 7 2 w = 0 → v.gen = fieldW 23 8 w → s.th.status = .running →
        Does (.wgabn d r) s (s.wqAbandon v) { s.th with wg := smDel s.th.wg k } [.g d (BitVec.ofNat 64 v.remain)] ∧
        (∀ m l h, s.wq? v.queue = some q → v.slots = m :: l → s.th.stores = [] →
          (∀ src, slotHome src q m { s with frees := s.frees + 1 } = .ok h s1) → isForeign h = false → s1.cur = s.cur →
          s1.th.stores = [] → s1.th.status = .running → s1.wqueues = s.wqueues → s1.th.wg = s.th.wg →
          let bytes := (List.range 32).map fun i =>
            Sys2Proof.Spec.byteOf (s.th.rg (Fin.ofNat 32 (d.val + i / 8))) (i % 8)
          ∃ t q', exec (.wgcom d r) s = .next t ∧ Stored s1 t h bytes ∧ t.wq? q.id = some q' ∧
            q' = { q with slots := smPut q.slots m (.committed (bytes.getD 31 0).toNat s1.serial false false) } ∧
            t.serial = s1.serial + 1 ∧
            Goes s.cur s1.th t.th ∧
            t.th.wg = (if v.remain ≤ 1 then smDel s.th.wg k
              else smPut s.th.wg k { v with remain := v.remain - 1, slots := l }))))

/-- WGSTAT (R316): operations 0 and 3 answer STAT0 and STAT1; operation 1 activates a segment and arms the queue; operation 2 binds
a queue to the team, with the segments, counter and control word of its descriptor, each read where its page lies (the descriptor's own
page stays where it was translated: a move would end the statement's one home). -/
def Sys2Proof.Spec.QueueStatus : Prop :=
  ∀ (s s1 : State) (d op : GReg) (x : CReg) (a : Nat) (e : TlbEntry) (q : WQueue),
    let w := s.th.rg op
    let c := s.th.rc x
    let off := capOff c
    let unbound := Stop.trap 0x0D (tvalQueue 3 off)
    let stays := fun (t : State) => t.reach t.cur.core a = (a, t)
    Descriptor s s1 x a e → s1.th.stores = [] →
    (∀ (t t1 : State) (i h : Nat) (y : TlbEntry), t.th.stores = [] →
      locate (creg x) false c (off + 16 * i) 16 (rR + rW) t = .ok (h, y) t1 → y.mig = false → isForeign h = false →
      t1.th.stores = [] → t1.poisoned h 16 = false →
      readSegment x c i t = .ok (capFrom (memBytes t1.mem h 16) (t1.tagAt h)) t1) ∧
    (64 ≤ w.toNat ∨ 4 ≤ fieldW 3 0 w → TrapsWhole (.wgstat d x op) s 0x05 w) ∧
    (w.toNat < 64 → fieldW 3 0 w = 0 ∨ fieldW 3 0 w = 3 → s1.wqAt a = none → exec (.wgstat d x op) s = .next (s1.stopped unbound)) ∧
    (w.toNat < 64 → s1.wqAt a = some q →
      (fieldW 3 0 w = 0 → Does (.wgstat d x op) s s1 s1.th [.g d (stat0 q true)]) ∧
      (fieldW 3 0 w = 3 → Does (.wgstat d x op) s s1 s1.th [.g d (stat1 q)])) ∧
    (∀ (k : Fin 4) (g : Cap) (s2 : State), readSegment x c k.val s1 = .ok g s2 → stays s2 →
      let desc : Word := BitVec.ofNat 64 (16 * k.val + 1)
      (s2.wqAt a = none → ∀ i ∈ [Instr.wgstatExtend d x k, .wgstat d x op], (i = .wgstat d x op → w = desc) →
        exec i s = .next (s2.stopped (if segOk g then unbound else .trapWhole 0x05 desc))) ∧
      (s2.wqAt a = some q → k.val ∉ q.active → segOk g = true → q.cap + segSlots g < 2 ^ 18 →
        let q' := { q with
          segs := q.segs.set k.val g, active := q.active ++ [k.val], cap := q.cap + segSlots g, armed := true }
        Does (.wgstatExtend d x k) s (s2.setWq q') s2.th [.g d (stat0 q' true)] ∧
        (w = desc → Does (.wgstat d x op) s (s2.setWq q') s2.th [.g d (stat0 q' true)]))) ∧
    (∀ (b : List Byte) (h : Nat) (g0 g1 g2 g3 cnt : Cap) (s2 s3 s4 s5 s6 s7 : State),
     readDescriptor x c 80 8 s1 = .ok (b, h) s2 → readSegment x c 0 s2 = .ok g0 s3 → readSegment x c 1 s3 = .ok g1 s4 →
     readSegment x c 2 s4 = .ok g2 s5 → readSegment x c 3 s5 = .ok g3 s6 → readSegment x c 4 s6 = .ok cnt s7 →
     stays s2 → stays s7 →
     let ctl := wordLe b
     let o := s2.origin
     let segs := [g0, g1, g2, g3]
     let act := (List.range 4).filter fun k => (segs.getD k nullCap).tag
     s2.badQctl o.launch ctl = false → s2.wqAt a = none → s2.queuesFull a = false → badSegment segs 0 0 = none →
      let q' : WQueue := ⟨s2.serial, capObj c, off, a, o.launch, o.team, o.core, segs, act, cnt, ctl, true,
        sumNat (act.map fun k => segSlots (segs.getD k nullCap)), 0, 0, 0, 0, []⟩
      let made := { s7 with wqueues := s7.wqueues ++ [q'], serial := s7.serial + 1 }
      Does (.wgstatBind d x) s made s7.th [.g d (stat0 q' true)] ∧
      (w.toNat < 64 → fieldW 3 0 w = 2 → Does (.wgstat d x op) s made s7.th [.g d (stat0 q' true)]))

/-- RECORD_DISPATCH (R319, R335): the deepest record, by byte 31 and then by commit order, is read and becomes a task of the bound
team's core, with the team's identifier and its four words. -/
def Sys2Proof.Spec.RecordsDispatch : Prop :=
  ∀ (s s1 : State) (id n m o h : Nat) (q : WQueue) (tm : Team) (b : List Byte),
    s.wq? id = some q → s.team? q.launch q.team = some tm → taskCount (s.queue q.core) < 64 →
    (n, m, o) ∈ q.dispatchable → (∀ y ∈ q.dispatchable, y = (n, m, o) ∨ y.2.1 < m ∨ y.2.1 = m ∧ o < y.2.2) →
    s.engRead (s.wqAcc q) (capObj (q.slotAt n).1) (q.slotAt n).2 32 = (.ok (b, false), s1) →
    s1.queues = s.queues → s1.launches = s.launches → s1.wq? id = some { q with home := h } →
      ∃ t k, exec (.recordDispatch id) s = .next t ∧ t.mem = s1.mem ∧ t.threads = s1.threads ∧
        t.queue q.core = s.queue q.core ++ [⟨s.launchPrio q.launch, .task k⟩] ∧ k.kind = 3 ∧ k.launch = q.launch ∧
        k.team = q.team ∧ k.actor = fieldW 5 0 q.qctl ∧ k.record = some (id, n) ∧ k.depth = (b.getD 31 0).toNat ∧ k.commit = o ∧
        k.words = [BitVec.ofNat 64 (s1.teamIdent tm), wordLe (b.take 8), wordLe ((b.drop 8).take 8),
          wordLe ((b.drop 16).take 8), wordLe ((b.drop 24).take 8), 0, 0, 0]

/-- The words of PAIR, MOM and MOMD (R326): STATUS, COUNT and INLINE, everything else zero. -/
def Sys2Proof.Spec.PairWord (v : Word) (status count : Nat) (inl : Bool) : Prop :=
  fieldW 63 60 v = status ∧ fieldW 51 48 v = count % 16 ∧ v.getLsbD 58 = inl ∧ fieldW 31 0 v = 0 ∧ v.getLsbD 59 = false ∧
    fieldW 57 52 v = 0 ∧ fieldW 47 32 v = 0

/-- The decision of PAIR (R327), once its block, headers and nodes are read, with no KIND required of a leaf (log 35's reading): accepted where Q < T, in FP32 operations each rounded RNE once,
near where both nodes are leaves, and nothing is written; else the pair is split and its child pairs are placed. -/
def Sys2Proof.Spec.PairDecides : Prop :=
  ∀ (s s1 s2 s3 s4 s5 : State) (c : Acc) (blk stk : Cap) (wid w : Word) (p : PairBlock) (x y : Hier) (a b : Node),
    let ka := p.cap 0
    let kb := if p.ctl.getLsbD 0 then p.cap 0 else p.cap 1
    let add := fAdd fp32 .rne 0
    let sub := fSub fp32 .rne 0
    let mul := fMul fp32 .rne 0
    let sized := fun (n : Node) => (fp32.decode n.extent).isNaN = false ∧ fpCond .lt (fp32.decode n.extent) (fp32.decode 0) = false
    let mid := fun (n : Node) (i : Nat) => mul (add (n.lo.getD i 0) (n.hi.getD i 0)) 0x3F000000
    let dd := fun (i : Nat) => sub (mid a i) (mid b i)
    let d2 := add (add (mul (dd 0) (dd 0)) (mul (dd 1) (dd 1))) (mul (dd 2) (dd 2))
    let sum := add a.extent b.extent
    let far := fpCond .lt (fp32.decode (mul sum sum)) (fp32.decode (mul (mul p.theta p.theta) d2)) = true
    readPairBlock c blk s = .ok p s1 → capCheck ka rR (capOff ka) 64 64 = none → capCheck kb rR (capOff kb) 64 64 = none →
    capCheck (p.cap 2) (rR + rW + Machine.rA) (capOff (p.cap 2)) 128 64 = none →
    s1.readHier c ka = (.ok x, s2) → s2.readHier c kb = (.ok y, s3) →
    s3.readNode c x (fieldW 31 0 w) none (fun _ => true) = (.ok a, s4) → sized a →
    s4.readNode c y (fieldW 63 32 w) none (fun _ => true) = (.ok b, s5) → sized b →
    (far → ∃ v, PairWord v 0 0 false ∧ runPair c blk stk wid w s = .ok v s5) ∧
    (¬far → a.leaf = true → b.leaf = true → ∃ v, PairWord v 2 0 false ∧ runPair c blk stk wid w s = .ok v s5) ∧
    (¬far → ¬(a.leaf = true ∧ b.leaf = true) → ∀ l s6, pairSplit c (p.ctl.getLsbD 0) x y a b s5 = .ok l s6 →
      runPair c blk stk wid w s = placePairs c p stk wid l s6)

/-- The split of a pair (R328): both of one node with itself, i ≤ j ascending; else b where a is a leaf or neither is and EXTENT_a is the
smaller, else a; the children are read in slot order. -/
def Sys2Proof.Spec.PairSplits : Prop :=
  ∀ (s s1 : State) (c : Acc) (self : Bool) (x y : Hier) (a b : Node) (l : List Node),
    let same := self = true ∧ a.idx = b.idx
    let onB := a.leaf = true ∨ b.leaf = false ∧ fpCond .lt (fp32.decode a.extent) (fp32.decode b.extent) = true
    (same → pairKids c 0 x a.depth a.child s = .ok l s1 → l.map (·.idx) = a.child ∧
      pairSplit c self x y a b s = .ok ((List.range l.length).flatMap fun i =>
        (List.range (l.length - i)).map fun j => (l.getD i a, l.getD (i + j) a)) s1) ∧
    (¬same → onB → pairKids c (if self then 0 else 1) y b.depth b.child s = .ok l s1 → l.map (·.idx) = b.child ∧
      pairSplit c self x y a b s = .ok (l.map (a, ·)) s1) ∧
    (¬same → ¬onB → pairKids c 0 x a.depth a.child s = .ok l s1 → l.map (·.idx) = a.child ∧
      pairSplit c self x y a b s = .ok (l.map fun z => (z, b)) s1)

/-- Where n child pairs go (R329): records of R330 in the bound queue within HWM; else words on a usable pair stack; else records in the
queue while it has slots; else nowhere, with the refusal's notice; and an unbound queue is bad. That the pair stack is written as an
engine access (log 36), with a free SIDE (log 4), is the model's choice. -/
def Sys2Proof.Spec.PairPlaces : Prop :=
  ∀ (s s1 s2 : State) (c : Acc) (p : PairBlock) (stk : Cap) (wid : Word) (l : List (Node × Node)) (q : WQueue),
    let n := l.length
    let self := p.ctl.getLsbD 0
    let record := fun (z : Node × Node) => leBytes 4 z.1.idx ++ leBytes 4 z.2.idx ++ leBytes 4 (fieldW 63 32 p.ctl) ++
      [(if self then 0x0A else 0x08 : Byte)] ++ List.replicate 18 0 ++ [BitVec.ofNat 8 (max z.1.depth z.2.depth)]
    let within := q.used + n ≤ fieldW 31 16 q.qctl ∧ n ≤ q.cap - q.used
    let usable := stk.tag = true ∧ missing rW (capRights stk) = 0 ∧ capOff stk % 8 = 0 ∧ capBase stk ≤ capOff stk ∧
      ((capOff stk + 8 * n : Nat) : Int) ≤ capTop stk
    (s.queueOf c (p.cap 2) = (.ok none, s1) → placePairs c p stk wid l s = .error (.bad 0xFFFFFFFC) s1) ∧
    (s.queueOf c (p.cap 2) = (.ok (some q), s1) →
      (within ∨ ¬usable ∧ n ≤ q.cap - q.used → s1.place q (l.map record) = (.ok (), s2) →
        ∃ v, PairWord v 1 n false ∧ placePairs c p stk wid l s = .ok v s2) ∧
      (¬within → usable →
        { s1 with frees := s1.frees + 1 }.engWrite c (capObj stk) (capOff stk)
          (l.flatMap fun (z : Node × Node) => leBytes 4 z.1.idx ++ leBytes 4 z.2.idx) = (.ok (), s2) →
        ∃ v, PairWord v 1 n true ∧ placePairs c p stk wid l s = .ok v s2) ∧
      (¬usable → q.cap - q.used < n →
        ∃ v, PairWord v 5 0 false ∧ placePairs c p stk wid l s = .ok v (s1.refuseQueue q n wid)))

/-- MOM (R333) writes the sum of the children's moments, from the first on, one RNE addition for each component, and zeros for a node
without children; MOMD (R334) adds the node's entry, read before, into each child's in slot order, each component by the addition of
destination arithmetic at its home. -/
def Sys2Proof.Spec.MomentsSummed : Prop :=
  ∀ (s s1 s2 s3 s4 : State) (c : Acc) (blk : Cap) (w : Word) (p : PairBlock) (n : Node) (l : List Node),
    readPairBlock c blk s = .ok p s1 →
    (∀ es, momNode c p 3 (rR + rW) w s1 = .ok (n, l) s2 →
      let k := p.cap 3
      let off := capOff k + 16 * n.momacc
      let part := fun (i : Nat) =>
        match es with
        | [] => 0
        | (m : List Nat) :: t => t.foldl (fun v e => fAdd fp32 .rne 0 v (e.getD i 0)) (m.getD i 0)
      capBase k ≤ off → ((off + 16 : Nat) : Int) ≤ capTop k → readEntries c 4 k l s2 = .ok es s3 →
      s3.engWrite c (capObj k) off ((List.range 4).flatMap fun i => leBytes 4 (part i)) = (.ok (), s4) →
      ∃ v, PairWord v 0 l.length false ∧ runMom c blk w s = .ok v s4) ∧
    (∀ par, momNode c p 4 (rR + rW + Machine.rA) w s1 = .ok (n, l) s2 →
      let k := p.cap 4
      readEntry c 5 k n s2 = .ok par s3 → probeEntries c 5 k l s3 = .ok () s4 →
      ∃ v, PairWord v 0 l.length false ∧ runMomd c blk w s = .ok v (l.foldl (fun t m => (List.range 4).foldl
        (fun t i => t.addComponent c k (capOff k + 16 * m.momacc + 4 * i) (par.getD i 0)) t) s4)) ∧
    ∀ (t t1 t2 t3 : State) (k : Cap) (off v a : Nat) (e : TlbEntry) (b : List Byte),
      t.translate c.core (capObj k) off (rR + rW) = (.home a e, t1) → isForeign a = false →
      t.engRead c (capObj k) off 4 = (.ok (b, false), t2) →
      t2.engWrite c (capObj k) off (leBytes 4 (destCombine fp32 .add (leNat b) v)) = (.ok (), t3) → t.addComponent c k off v = t3

/-- PAIR, MOM and MOMD (R325, R326, R331, R332) complete with the result word of their computation at the unit; a bad block or node
ends with STATUS 3 and DATA, a fault with STATUS 4 and its record, a poisoned line with STATUS 6 and POISON. -/
def Sys2Proof.Spec.PairAnswers : Prop :=
  ∀ (s : State) (d : GReg) (pb stk : CReg) (i : Instr) (f : PairM Word) (kind : Nat),
    let b := s.th.rc pb
    let w := s.th.rg d
    let o := s.origin
    s.th.stores = [] → capCheck b rR (capOff b) 128 64 = none →
    (i = .pair d pb stk ∧ kind = 16 ∧ f = runPair (s.unitAcc o) b (s.th.rc stk) s.th.workid w ∨
      fieldW 63 33 w = 0 ∧ kind = 17 ∧
        (i = .mom d pb ∧ f = runMom (s.unitAcc o) b w ∨ i = .momd d pb ∧ f = runMomd (s.unitAcc o) b w)) →
    (∀ v s1, f s = .ok v s1 → Does i s s1 s1.th [.g d v]) ∧
    (∀ n s1, f s = .error (.bad n) s1 → ∃ v : Word, fieldW 63 60 v = 3 ∧ fieldW 31 0 v = n % 2 ^ 32 ∧
      v.getLsbD 59 = false ∧ Does i s s1 s1.th [.g d v]) ∧
    (∀ s1, f s = .error .dropped s1 → ∃ v : Word, fieldW 63 60 v = 6 ∧ v.getLsbD 59 = true ∧ Does i s s1 s1.th [.g d v]) ∧
    (∀ k side obj off s1, f s = .error (.fault k side obj off) s1 →
      let made := s1.post
        (o.note (faultWords kind k o.core (o.tid % 8) side obj off o.workid (capObj b) (capOff b) 0 0))
      ∃ v, PairWord v 4 0 false ∧ Does i s made made.th [.g d v])

/-- PAIR, MOM and MOMD: their results, and what they decide, split, place and sum; logs 4, 35 and 36 name the model's readings. -/
def Obligations.PairsComplete : Prop :=
  Sys2Proof.Spec.PairAnswers ∧ Sys2Proof.Spec.PairDecides ∧ Sys2Proof.Spec.PairSplits ∧ Sys2Proof.Spec.PairPlaces ∧
    Sys2Proof.Spec.MomentsSummed

/-- TRAV and DTRAV, and how traversals run; log 55 names the model's reading of the order in which bundles take the places of a buffer. -/
def Obligations.Traversals : Prop :=
  Sys2Proof.Spec.TraversalsIssue ∧ Sys2Proof.Spec.TraversalEvents ∧ Sys2Proof.Spec.RaysFindNearest ∧ Sys2Proof.Spec.DescentsBegin ∧ Sys2Proof.Spec.DescentsStep

/-- Work-graph queues: reserve, commit, abandon, status and dispatch. -/
def Obligations.WorkGraphQueues : Prop :=
  Sys2Proof.Spec.QueueReservations ∧ Sys2Proof.Spec.QueueStatus ∧ Sys2Proof.Spec.RecordsDispatch

/-! ## Supervisor instructions, die registers and services (spec/17_objects.md R242, R248, R249; spec/27_launch.md R348, R351, R352,
R358; spec/29_service.md R360 to R370) -/

/-- OBJINV and OBJINVO (R242) in supervisor code: ga becomes the number of TLB entries that held pages of the range, at most
65,535, and no TLB holds one any more; operands outside their fields take trap 0x05. -/
def Sys2Proof.Spec.ObjectsInvalidated : Prop :=
  ∀ (s : State) (whole : Bool) (d r : GReg),
    let a := s.th.rg d
    let b := s.th.rg r
    let pr : PageRange := if whole then ⟨fieldW 31 0 a, 0, 2 ^ 40⟩ else ⟨fieldW 31 0 a, fieldW 39 0 b, fieldW 63 52 b + 1⟩
    let ok := fieldW 50 40 b = 0 ∧ (whole = true → fieldW 63 52 b = 0 ∧ fieldW 39 0 b = 0)
    s.th.tctl.getLsbD 2 = true →
    (2 ^ 32 ≤ a.toNat → TrapsWhole (.objinv whole d r) s 0x05 a) ∧
    (a.toNat < 2 ^ 32 → ¬ok → TrapsWhole (.objinv whole d r) s 0x05 b) ∧
    (a.toNat < 2 ^ 32 → ok → s.th.stores = [] → s.th.status = .running →
      Does (.objinv whole d r) s (s.invalidate pr (b.getLsbD 51)) s.th [.g d (BitVec.ofNat 64 (min 65535 (s.tlbMeets pr)))] ∧
      (b.getLsbD 51 = false → ∀ core, ∀ e ∈ (s.invalidate pr false).tlbOf core, pr.meets e = false))

/-- MRD and MWR (R248, R358) in supervisor code: the die register that ga names is answered, for MWR after its write; a number
without a register takes trap 0x05, and a bit that must be zero trap 0x01 with reason 3. -/
def Sys2Proof.Spec.DieRegisterAccess : Prop :=
  ∀ (s : State) (d r : GReg),
    let w := s.th.rg d
    let die := fieldW 17 16 w
    let num := fieldW 11 0 w
    s.th.tctl.getLsbD 2 = true →
    (fieldW 63 18 w ≠ 0 ∨ fieldW 15 12 w ≠ 0 →
      ∀ i ∈ [Instr.mwr d r, .mrd d], ∃ tval : Word, fieldW 63 20 tval = 3 ∧ Traps i s 0x01 tval) ∧
    (fieldW 63 18 w = 0 → fieldW 15 12 w = 0 →
      (s.dieReg die num = none → TrapsWhole (.mwr d r) s 0x05 w ∧ TrapsWhole (.mrd d) s 0x05 w) ∧
      (∀ v, s.dieReg die num = some v → Gives (.mrd d) s none [.g d v] ∧
        (s.th.stores = [] → ∃ x, (s.writeReg die num (s.th.rg r)).dieReg die num = some x ∧
          Does (.mwr d r) s (s.writeReg die num (s.th.rg r)) s.th [.g d x])))

/-- Writes of die registers (R248, R251, R352, R361, R364, R367, R369), as MWR performs them: each map's bits, the refusals that leave a
register as it was (SAVPOOL's while a save area is given out, or where its frames do not lie in the die's own slices), and no other
register changes. That a pushed frame is the first taken from its pool is the model's reading
(log 6). -/
def Sys2Proof.Spec.DieRegisterWrites : Prop :=
  ∀ (s : State) (die : Fin 4) (num : BitVec 12) (v : Word) (slice : Fin 64),
    let low := fun (n : Nat) => BitVec.ofNat 64 (v.toNat % 2 ^ n)
    let reg := fun (s : State) (n : Nat) => s.dieReg die.val n
    let inDram := fieldW 41 0 v < 2 ^ 34
    (∃ t, exec (.dieRegisterWrite die num v) s = .next t ∧ t = { s with dies := t.dies } ∧
      (num = 0 → reg t 0 = if inDram then some (low 60) else reg s 0) ∧
      (num = 1 → fieldW 47 32 v = 0 → reg t 1 = reg s 1) ∧
      (num = 1 → fieldW 47 32 v ≠ 0 → ∃ x, reg t 1 = some x ∧ fieldW 47 32 x = fieldW 47 32 v ∧
        fieldW 27 24 x = fieldW 27 24 v ∧ fieldW 15 0 x = fieldW 15 0 v ∧ fieldW 62 48 x = 0) ∧
      (num = 2 → reg t 2 = some (low 32)) ∧ (num = 3 → reg t 3 = some (low 18)) ∧
      (let d := s.die die.val
       let frames := fieldW 31 0 v + fieldW 63 32 v
       num = 4 → reg t 4 = if d.savUsed = [] ∧ fieldW 31 0 v / 2 ^ 22 = die.val ∧ frames ≤ (die.val + 1) * 2 ^ 22 then some v
         else reg s 4) ∧
      (num = 6 → ¬inDram → reg t 6 = reg s 6) ∧
      (num = 6 → inDram → ∃ x y, reg s 6 = some y ∧ reg t 6 = some x ∧ fieldW 41 0 x = fieldW 41 0 v ∧ fieldW 51 42 x = fieldW 51 42 y ∧
        fieldW 63 52 x = if fieldW 63 52 v = 0 then fieldW 63 52 y else 0) ∧
      (∀ c : Fin 64, num.toNat = 512 + c.val → ∃ x, reg t (512 + c.val) = some x ∧
        ∀ i, x.getLsbD i = (decide (i = 15 ∨ i < 12) && v.getLsbD i)) ∧
      ∀ d n, (d ≠ die.val ∨ n ≠ num.toNat) → t.dieReg d n = s.dieReg d n) ∧
    (∃ t, exec (.poolPush die slice v) s = .next t ∧ t = { s with dies := t.dies } ∧
      t.pool (64 * die.val + slice.val) = (if (s.pool (64 * die.val + slice.val)).length < 64
        then fieldW 15 0 v :: s.pool (64 * die.val + slice.val) else s.pool (64 * die.val + slice.val))) ∧
    (∃ t, exec (.pwrbudWrite v) s = .next t ∧ t = { s with pwrbud := t.pwrbud } ∧
      fieldW 15 0 t.pwrbud = max 1000 (min 5000 (fieldW 15 0 v)) ∧ fieldW 63 16 t.pwrbud = fieldW 63 16 s.pwrbud) ∧
    (∃ t, exec (.attestBodyWrite v) s = .next t ∧ t = { s with attest := t.attest } ∧
      (s.attest.getLsbD 63 = true ∨ ¬inDram → t.attest = s.attest) ∧
      (s.attest.getLsbD 63 = false → inDram → t.attest.getLsbD 63 = true ∧ fieldW 41 0 t.attest = fieldW 41 0 v)) ∧
    (∀ up, ∃ t, exec (.memoryPortLinkChange die up) s = .next t ∧
      t = s.setDie die.val { s.die die.val with linkUp := up })

/-- The dump that a fatal error leaves in the state t (R365, R366), for an error of die, unit and location at a time: the header, with every
section complete, the table of the sections' offsets and sizes and the digest of all; and the sections: die registers, the fabric
registers that exist by KIND, I1 and I2, context records, tiles, scratchpad slices and the rings. -/
def Sys2Proof.Spec.Dumped (t : State) (die unit : Nat) (addr : Word) (time : Nat) (secs : List (List Byte)) : Prop :=
  let at_ := 0xFF80000000
  let part := fun (k o n : Nat) => (((secs.getD k []).drop o).take n)
  secs.map List.length = [16384, 62980, 134217728, 285212672, 1073741824, 131072] ∧
  memBytes t.mem at_ 8 = leBytes 4 0x444D5031 ++ leBytes 2 1 ++ [BitVec.ofNat 8 die, BitVec.ofNat 8 unit] ∧
  memBytes t.mem (at_ + 8) 24 = leBytes 8 addr.toNat ++ leBytes 8 time ++ leBytes 8 0x3F ∧
  (∀ k, k < 6 → memBytes t.mem (at_ + 32 + 16 * k) 16 =
    leBytes 8 (4096 + ((secs.take k).map List.length).sum) ++ leBytes 8 (secs.getD k []).length) ∧
  memBytes t.mem (at_ + 128) 32 = sm3 secs.flatten ∧ (∀ i, 160 ≤ i → i < 4096 → memByte t.mem (at_ + i) = 0) ∧
  memBytes t.mem (at_ + 4096) secs.flatten.length = secs.flatten ∧
  (∀ d n, d < 4 → n < 512 → part 0 (4096 * d + 8 * n) 8 = leBytes 8 ((t.dieReg d n).getD 0).toNat) ∧
  (∃ ix : List (Nat × Nat × Nat),
    (ix.Pairwise fun x y => x.1 < y.1 ∨ x.1 = y.1 ∧ (x.2.1 < y.2.1 ∨ x.2.1 = y.2.1 ∧ x.2.2 < y.2.2)) ∧
    (∀ x, x ∈ ix ↔ (t.fabricReg x.1 x.2.1 x.2.2).isSome = true) ∧
    secs.getD 1 [] = ix.flatMap fun x => leBytes 4 ((t.fabricReg x.1 x.2.1 x.2.2).getD 0).toNat) ∧
  (∀ k, k < 32768 → part 2 (4096 * k) 7 = leBytes 4 0x43580001 ++ leBytes 2 (k / 8) ++ leBytes 1 (k % 8) ∧
    part 2 (4096 * k + 8) 16 = leBytes 8 (t.thread k).workid.toNat ++ leBytes 8 (t.thread k).pc) ∧
  (∀ k, k < 65536 → part 3 (4352 * k) 8 = leBytes 8 (t.tile (k / 16) (k % 16)).status.toNat ∧
    part 3 (4352 * k + 256) 4096 = (t.tile (k / 16) (k % 16)).image) ∧
  (∀ k, k < 4096 → part 4 (262144 * k) 262144 = memBytes t.mem (sliceAddr k 0) 262144) ∧
  ∀ d, d < 4 → (t.die d).errBase * 64 + 32768 ≤ at_ → part 5 (32768 * d) 32768 = memBytes t.mem ((t.die d).errBase * 64) 32768

/-- Services (R360 to R366, R369): a takeover of a core or a cluster starts where no takeover is in progress, a spare is left, the cluster
holds no arcade and is not the port cluster of a running module, and is refused elsewhere; it ends with BUSY clear, the spare at
the position's number and cold contexts there; a signature is written behind its body, and an unreadable body sets FAIL; a
corrected error counts; an uncorrectable one poisons its granule and is logged (logs 47, 65), and in control state it is fatal:
issue stops, the dump is written whole (log 50's reading) and vector 0 is raised. -/
def Sys2Proof.Spec.Services : Prop :=
  ∀ (s : State) (die : Fin 4) (v : Word) (unit : ErrUnit) (addr : Nat),
    let d := s.die die.val
    let kind := fieldW 15 14 v
    let cl := fieldW 13 8 v
    let refused := d.takeover.isSome = true ∨ (kind = 1 ∧ (smFind d.cores cl).isSome = true) ∨
      (kind = 2 ∧ fieldW 41 40 d.spare = 0) ∨ cl ∈ s.busyClusters die.val ∨ (cl = 63 ∧ s.boot = .running)
    let log := d.errBase * 64 + 32 * d.errHead
    let body := fieldW 41 0 s.attest * 64
    (kind = 1 ∨ kind = 2 → ¬refused → ∃ x, exec (.spareTakeover die v) s =
        .next (s.setDie die.val { d with spare := x, takeover := some ⟨kind, cl, fieldW 3 0 v⟩ }) ∧ x.getLsbD 63 = true ∧
      fieldW 41 40 x = fieldW 41 40 d.spare - (if kind = 2 then 1 else 0) ∧ fieldW 15 14 x = kind ∧ fieldW 13 8 x = cl ∧
      fieldW 3 0 x = fieldW 3 0 v) ∧
    (refused ∨ kind = 0 → exec (.spareTakeover die v) s = .next s) ∧
    (∀ k, d.takeover = some k → k.kind = 1 ∨ k.kind = 2 → k.core < 16 → k.cluster < 64 →
      ∃ t, exec (.spareTakeoverComplete die) s = .next t ∧ t.mem = s.mem ∧ t.tags = s.tags ∧ t.poison = s.poison ∧
        (t.die die.val).takeover = none ∧ (t.die die.val).spare.getLsbD 63 = false ∧
        fieldW 62 0 (t.die die.val).spare = fieldW 62 0 d.spare ∧
        (k.kind = 1 → smFind (t.die die.val).cores k.cluster = some k.core ∧
          ∀ n, t.thread n = (if n / 8 = 1024 * die.val + 16 * k.cluster + k.core then Thread.init else s.thread n)) ∧
        (k.kind = 2 → smFind (t.die die.val).cores k.cluster = none ∧
          (∀ n, t.thread n = (if n / 128 = 64 * die.val + k.cluster then Thread.init else s.thread n)) ∧
          smFind t.icache (64 * die.val + k.cluster) = none ∧ smFind t.ncache (64 * die.val + k.cluster) = none ∧
          smFind t.loops (64 * die.val + k.cluster) = none)) ∧
    (s.attest.getLsbD 63 = true → body + 320 ≤ 2 ^ 40 → ∃ t, exec .attestComplete s = .next t ∧ t.attest.getLsbD 63 = false ∧
      (s.poisoned body 256 = true → t.attest.getLsbD 62 = true ∧ t.mem = s.mem ∧ fieldW 61 0 t.attest = fieldW 61 0 s.attest) ∧
      (s.poisoned body 256 = false → fieldW 62 0 t.attest = fieldW 62 0 s.attest ∧
        memBytes t.mem (body + 256) 64 = (s.signature (memBytes s.mem body 256)).1 ∧
        ∀ x, x < body + 256 ∨ body + 320 ≤ x → memByte t.mem x = memByte s.mem x)) ∧
    (∃ t, exec (.correctedError unit addr) s = .next t ∧
      (let e := s.die (errDie unit addr)
       t = s.setDie (errDie unit addr) { e with errCorr := min 4095 (e.errCorr + 1) })) ∧
    (log + 32 ≤ 2 ^ 40 → addr < 2 ^ 40 → ∀ u ∈ [ErrUnit.dram, .sliceBuffer], ∃ t,
      exec (.uncorrectableError u die addr) s = .next t ∧ (u = .dram → addr / 64 * 64 ∈ t.poison) ∧
      (u = .sliceBuffer → addr / 8 * 8 + 8 ≤ log ∨ log + 32 ≤ addr / 8 * 8 → addr / 8 * 8 ∈ t.bufPoison) ∧
      (t.die die.val).errHead = (d.errHead + 1) % 1024 ∧ (t.die die.val).errSeq = d.errSeq + 1 ∧ memByte t.mem log = 1 ∧
      ∀ x, x < log ∨ log + 32 ≤ x → memByte t.mem x = memByte s.mem x) ∧
    (∀ i ∈ [Instr.fatalError die .control v, .uncorrectableError .control die v.toNat], ∃ t, exec i s = .next t ∧
      t.boot = .stopped ∧ t.host.irqs = s.host.irqs ++ [0] ∧ ∃ secs, Dumped t die.val 5 v s.clock secs) ∧
    (unit ≠ .control → exec (.fatalError die unit v) s = exec (.uncorrectableError unit die v.toNat) s)

/-- BOOT_RESET (R341, R365, R368): the module boots where the digest of the image's public key is the fused one and the image's
signature is good (logs 49, 71), and stays in reset otherwise. In both, memory with its tags keeps its contents but for what the
boot record and the image write, no context runs, and registers that the image does not write are at their values at reset. That the
boot launch has the identifier 2^16, with SUP set whatever the image says, is the model's choice (log 42). -/
def Sys2Proof.Spec.BootResets : Prop :=
  ∀ (s : State) (img : BootImage),
    let good := sm3 (beBytes 32 img.key.1 ++ beBytes 32 img.key.2) =
        (List.range 32).map (fun i => Config.fusedKey (Fin.ofNat 32 i)) ∧
      sm2Verify ((List.range 16).map fun i => Config.bootSigner (Fin.ofNat 16 i)) (some img.key) img.image img.sig.1 img.sig.2 = true
    (¬good → ∃ t, exec (.bootReset img) s = .next t ∧ t.boot = .inReset ∧ t.mem = s.mem ∧ t.tags = s.tags ∧
      t.threads = [] ∧ t.launches = [] ∧ t.queues = [] ∧ ∀ d, t.die d = Die.reset) ∧
    (good → ∃ t, exec (.bootReset img) s = .next t ∧ t.boot = .running ∧ t.threads = [] ∧ t.queues = [] ∧
      t.fabric.torus = BitVec.ofNat 32 (img.torus.toNat % 2 ^ 24) ∧
      (∀ l, img.launch = some l → t.supvId = some (2 ^ 16) ∧ t.supvSpill = l.spill ∧
        ∃ p, t.launch? (2 ^ 16) = some p ∧ p.spec = { l with supv := true } ∧ p.phase = .live) ∧
      (img.regs = [] → ∀ d, t.die d = Die.reset) ∧
      (img.mem = [] → (∀ x, x < 0xFF00000000 → memByte t.mem x = memByte s.mem x) ∧
        memBytes t.mem 0xFF00000000 32 = sm3 img.image ∧ memBytes t.mem 0xFF00000020 32 = sm3 img.rhanik ∧
        ∀ f r, f < 192 → r < 26 → memBytes t.mem (0xFF00001000 + 2 * (26 * f + r)) 2 =
          leBytes 2 (smGet 0 t.fabric.heat (32 * f + r)).toNat))

/-- LAUNCH (R348) in supervisor code answers STATUS, DETAIL and ID: a header and table that pass are accepted as a live launch with
the next unused identifier; the first bad field answers 1 or 2 with its offset, a full module 3, and nothing is launched. That a full
module is tested last, and that a refusal shows the next unused identifier, are the model's readings (log 41). -/
def Obligations.LaunchAnswers : Prop :=
  ∀ (s s1 s2 s3 : State) (d : GReg) (h ov : CReg) (head : List Byte × List Bool) (tb : List Byte) (dram : Bool),
    let ac := blockCap head 1
    let n := if tableReadable ac then 32 * tableLength ac else 0
    let l := parseSpec head (s.th.rg d) (s.th.rc ov) ((List.range (n / 32)).map fun i => parseActor (tb.drop (32 * i)))
    s.th.tctl.getLsbD 2 = true → fieldW 17 0 (s.th.rg d) = 0 → s.th.stores = [] →
    capCheck (s.th.rc h) rR (capOff (s.th.rc h)) 128 64 = none → loadBlock h rR 128 64 s = .ok head s1 →
    loadRange (creg h) ac (capBase ac) (pagesOf (capBase ac) n) n s1 = .ok tb s2 → s2.notifyOk s2.cur.core l.notify = (dram, s3) →
    let bad := firstBad (headerChecks l head.1 dram s2.supvSpill)
    let worse := firstBad (tableChecks l tb)
    let word := fun (st de : Nat) (w : Word) => fieldW 63 60 w = st ∧ fieldW 31 16 w = de % 2 ^ 16 ∧
      fieldW 15 0 w = s2.nextLaunch % 2 ^ 16 ∧ fieldW 59 32 w = 0
    (bad = none → worse = none → s2.liveLaunches < 256 → ∃ w, word 0 0 w ∧
      Does (.launch d h ov) s (s3.accept l s2.nextLaunch) s3.th [.g d w] ∧
      ∃ l', (s3.accept l s2.nextLaunch).launch? s2.nextLaunch = some l' ∧ l'.spec = l ∧ l'.phase = .live ∧ l'.placed = []) ∧
    (dram = false ∨ s2.answersHost = false →
      (∀ o, bad = some o → ∃ w, word 1 o w ∧ Does (.launch d h ov) s s3 s3.th [.g d w]) ∧
      (∀ o, bad = none → worse = some o → ∃ w, word 2 o w ∧ Does (.launch d h ov) s s3 s3.th [.g d w]) ∧
      (bad = none → worse = none → 256 ≤ s2.liveLaunches → ∃ w, word 3 0 w ∧ Does (.launch d h ov) s s3 s3.th [.g d w]))

/-- CLOSE (R351, R358) in supervisor code: 1 where no launch has the identifier, 2 where it is in no state for the operation, else 0,
and the operation follows the bundle; a closing launch has a timer on every die, a resumed one is live again. CLOSE_TIMER_EXPIRY
ends a die's timer and sweeps the die. The TVAL of a bad operation (log 44) and the phases that answer 2 (log 45) are the model's
readings. -/
def Sys2Proof.Spec.CloseAnswers : Prop :=
  ∀ (s : State) (d r : GReg) (op : Nat) (i : Instr) (l : Launch) (die : Nat),
    let w := s.th.rg d
    (i = .close d r ∧ (s.th.rg r).toNat = op ∨ i = .closeResume d ∧ op = 1 ∨ i = .closeCancel d ∧ op = 2) →
    s.th.tctl.getLsbD 2 = true →
    (2 ^ 16 ≤ w.toNat → ∃ tval : Word, fieldW 63 20 tval = 3 ∧ Traps i s 0x01 tval) ∧
    (w.toNat < 2 ^ 16 → 3 ≤ op → TrapsWhole i s 0x05 (s.th.rg r)) ∧
    (w.toNat < 2 ^ 16 → op < 3 → s.launch? w.toNat = none → Gives i s none [.g d 1]) ∧
    (w.toNat < 2 ^ 16 → s.launch? w.toNat = some l →
      (op = 0 ∧ l.phase ≠ .live ∨ op = 1 ∧ l.phase ≠ .swept → Gives i s none [.g d 2]) ∧
      (op = 0 ∧ l.phase = .live ∨ op = 1 ∧ l.phase = .swept ∨ op = 2 →
        ∃ u, Only s u ∧ Ends s u s.th none [.g d 0] ∧
          (op = 0 → exec i s = .next (u.closeLaunch l)) ∧
          (op = 0 → (∀ k, k < 4 → fieldW 31 0 (s.die k).closectl ≠ 0) →
            u.closeLaunch l = u.setLaunch { l with phase := .closing, timers := [0, 1, 2, 3], since := none }) ∧
          (op = 1 → exec i s = .next (u.setLaunch { l with phase := .live })) ∧
          (op = 2 → exec i s = .next (u.cancelLaunch l)))) ∧
    (s.launch? w.toNat = some l → l.phase = .closing → die ∈ l.timers →
      exec (.closeTimerExpiry die w.toNat) s =
        .next ((s.setLaunch { l with timers := l.timers.filter (· ≠ die) }).sweepDie w.toNat die))

/-- CTXSV and CTXLD (R123, R358) in supervisor code: a parked context leaves its core for a record, with the return addresses spilled
in its carve-out and through SPOV, and its place is free, which for a shipped thread is the context it came from (R241) with the one it ran in; a record
that CTXSV wrote, which is recognised by its bytes (log 46's reading), runs again in a free context of a core on which its team is
resident. -/
def Sys2Proof.Spec.ContextsSavedAndLoaded : Prop :=
  ∀ (s s1 s3 s4 : State) (d : GReg) (a : CReg) (b : List Byte),
    let c := s.th.rc a
    let tid := fieldW 14 0 (s.th.rg d)
    let core := tid / 8
    s.th.tctl.getLsbD 2 = true →
    (capCheck c rW (capOff c) 4096 64 = none → reachAll (creg a) c rW (capOff c) 2 4096 s = .ok () s1 →
      (s1.saveTarget tid = none → Does (.ctxsv d a) s s1 s1.th [.g d 1]) ∧
      ((s1.thread tid).status.savable = true → tid ≠ s.cur.tid → s1.cur = s.cur →
        (s1.drain tid).recordOf ((s1.drain tid).thread tid) tid = (b, s3) →
        storeRange (creg a) c (capOff c) 2 b s3 = .ok () s4 →
        let z := s4.drain s.cur.tid
        let home := (z.thread tid).place tid
        (z.thread tid).stores = [] → home ≠ s.cur.tid → (home ≠ tid → (z.thread tid).pend = []) →
        ∃ t v, exec (.ctxsv d a) s = .next t ∧ t.saved = z.saved ++ [v] ∧ v.how = .ctxsv ∧ v.tid = tid ∧ v.image = b ∧
          v.thread.pcc = (z.thread tid).pcc ∧ v.thread.g = (z.thread tid).g ∧
          (let u := z.setThread home { z.thread home with
             area := (z.thread tid).area, ovr := (z.thread tid).ovr, spov := (z.thread tid).spov, kept := (z.thread tid).kept }
           v.spills = u.spilled home ∧ v.thread.kept = u.spillsKept home) ∧
          (t.thread tid).status = .free ∧ (t.thread tid).firing = none ∧ (t.thread home).status = .free ∧
          (t.thread home).firing = none ∧ t.mem = z.mem ∧ Ends s t z.th none [.g d 0])) ∧
    (capCheck c rR (capOff c) 4096 64 = none → loadRange (creg a) c (capOff c) 2 4096 s = .ok b s1 →
      (s1.saved.find? (fun v => v.how = .ctxsv && v.image = b) = none → Does (.ctxld d a) s s1 s1.th [.g d 3]) ∧
      (∀ v, s1.saved.find? (fun v => v.how = .ctxsv && v.image = b) = some v →
        (s1.freeContext core = none → Does (.ctxld d a) s s1 s1.th [.g d 2]) ∧
        (∀ k tm, s1.freeContext core = some k → smFind s1.teams v.team = some tm →
          (tm.core ≠ core → Does (.ctxld d a) s s1 s1.th [.g d 2]) ∧
          (tm.core = core → s1.th.status = .running → v.fault = false → ∃ t, exec (.ctxld d a) s = .next t ∧
            (t.thread k).status = .running ∧ (t.thread k).pcc = v.thread.pcc ∧ (t.thread k).g = v.thread.g ∧
            (t.thread k).kept = v.thread.kept ∧ t.saved = s1.saved.erase v ∧
            (v.spills = [] → (s1.thread k).stores = [] → t.mem = s1.mem) ∧
            Ends s t s1.th none [.g d 0]))))

/-- OBJINV, MRD, MWR and the writes of die registers; the order of a frame pool is log 6's reading. -/
def Obligations.DieRegisters : Prop :=
  Sys2Proof.Spec.ObjectsInvalidated ∧ Sys2Proof.Spec.DieRegisterAccess ∧ Sys2Proof.Spec.DieRegisterWrites

/-- Spare takeover, attestation, errors and boot; logs 42, 47, 49, 50, 65 and 71 name the model's own choices. -/
def Obligations.ServicesAndBoot : Prop :=
  Sys2Proof.Spec.Services ∧ Sys2Proof.Spec.BootResets

/-- CLOSE with its operations, CTXSV and CTXLD; logs 44, 45 and 46 name the model's readings. -/
def Obligations.ClosingAndContexts : Prop :=
  Sys2Proof.Spec.CloseAnswers ∧ Sys2Proof.Spec.ContextsSavedAndLoaded

/-! ## Events of one core (spec/11_one_core.md R152 to R179; spec/07_one_thread.md R118; spec/27_launch.md R349, R357) -/

/-- TASK_START (R81, R153, R156): a free context starts the next queued task: g1 on hold its words, PCC its actor's handler, the
emit priority its place's priority; the place leaves the queue. TASK_PRIORITY_RAISE (R156): a place joins the tail one priority
higher. LIGHT_HANDLER_TASK (R167): a control value becomes the light handler's message task. -/
def Obligations.TasksStart : Prop :=
  ∀ (s : State) (core ctx idx : Nat) (e : QEntry) (k : Task) (tm : Team) (l : Launch) (act : Actor),
    let tid := tidOf core ctx
    ((s.thread tid).status = .free → s.saved = [] → nextPlace (s.queue core) = some e → e.item = .task k → k.record = none →
      s.team? k.launch k.team = some tm → s.launch? k.launch = some l → l.spec.table[k.actor]? = some act →
      k.words.length = 8 →
      ∃ t f, exec (.taskStart core ctx) s = .next t ∧ t.queue core = (s.queue core).erase e ∧ t.mem = s.mem ∧
        (∀ j, j ≠ tid → t.thread j = s.thread j) ∧
        (∀ j : Fin 8, (t.thread tid).rg (Fin.ofNat 32 (j.val + 1)) = k.words.getD j.val 0) ∧
        (t.thread tid).rc 1 = l.spec.args ∧ (t.thread tid).pcc = capSetOff l.spec.code act.handler ∧
        (t.thread tid).status = .running ∧ (t.thread tid).workid = k.workid ∧ (t.thread tid).eprio = e.prio ∧
        (t.thread tid).pend = [] ∧ (t.thread tid).ras = [] ∧ (t.thread tid).lfsr ≠ 0 ∧ (t.thread tid).firing = some f ∧
        f.launch = k.launch ∧ f.team = k.team ∧ f.actor = k.actor ∧ f.kind = k.kind) ∧
    ((s.queue core)[idx]? = some e → e.prio < 3 → ∃ t, exec (.taskPriorityRaise core idx) s = .next t ∧
      t = s.setQueue core ((s.queue core).eraseIdx idx ++ [{ e with prio := e.prio + 1 }])) ∧
    (∀ q a x rest, smFind s.teams tm.key = some tm → smFind tm.lh q = some a → tm.elems q = x :: rest → x.ctl = true →
      (∀ y z, rest = y :: z → y.ctl = false) → s.room tm.core = true →
      ∃ t k' more tm', exec (.lightHandlerTask tm.key q) s = .next t ∧ t.mem = s.mem ∧ t.threads = s.threads ∧
        t.queue tm.core = s.queue tm.core ++ ⟨s.launchPrio tm.launch, .task k'⟩ :: more ∧ k'.actor = a ∧ k'.kind = 2 ∧
        k'.port = some q ∧ k'.workid = x.workid ∧
        k'.words = [x.data, BitVec.ofNat 64 q, BitVec.ofNat 64 rest.length, 0, 0, 0, 0, 0] ∧
        smFind t.teams tm.key = some tm' ∧ tm'.elems q = rest ∧ tm'.lhBusy = q :: tm.lhBusy)

/-- Micro-operations and wakes (R118, R158): an entry that decodes, with nothing before it, executes as a bundle of its macro, and completes;
a parked bundle whose event has come, and an accepted FIRE or a resent LDVER or CNTW, executes again in its context, as its instruction
does there; the message of an accepted FIRE joins its destination's queue (R168); a WAITI with a task queued completes. -/
def Sys2Proof.Spec.BundlesExecuteAgain : Prop :=
  ∀ (s : State) (core ctx : Nat) (p : Park) (r : MacroRun) (i : Instr) (stall : Nat) (base : IWord),
    let tid := tidOf core ctx
    ((encParts i).isSome = true → issue i s = exec i s) ∧
    (let at_ : Cur := { s.cur with
        core := core, ctx := ctx, stall := stall, words := r.words, base := base, micro := true, instr := i,
        carried := none, since := none }
     let s' := { s with cur := at_ }
     ctx < 8 → (s.thread tid).status = .running → (s.thread tid).run = some r →
      microDecode (s.bookEntry (core / 16) r.num r.idx) r = some (i, stall, base) → s'.th.returning i = none →
      s'.legal i = none → s'.mbpHit core s'.th r = false → s'.th.tctl.getLsbD 0 = false →
      ∃ u, issue i (s'.settled i) = .next u ∧ exec (.macroMicroOperation core ctx) s = .next (u.macroNext tid)) ∧
    ((s.thread tid).status = .parked p →
      let again := { s with cur := { p.bundle with carried := p.woken, since := some p.order } }.setThread tid
        { s.thread tid with status := .running }
      (∃ u, issue p.bundle.instr again = .next u ∧
        let t := { u.macroNext tid with cur := s.cur }
        (s.canWake tid p = true → (∀ x, p.why ≠ .falign x) → p.why ≠ .waiti →
          exec (.parkedBundleWake core ctx) s = .next t) ∧
        (∀ d n, p.why = .fire d n → exec (.messageAccept core ctx) s = .next t) ∧
        (∀ a v, p.why = .ldver a v false → exec (.ldverResend core ctx) s = .next t) ∧
        (∀ a v, p.why = .cntw a v false → exec (.cntwResend core ctx) s = .next t)) ∧
      (∀ (d w : GReg) (tm : Team) (n : Nat),
        let th := again.th
        let dest := fieldW 11 0 (th.rg d)
        p.why = .fire dest n → p.bundle.instr = .fire d w → p.bundle.core = core → p.bundle.ctx = ctx → th.run = none →
        th.handler = false → th.stores = [] → (th.rg d).toNat < 2 ^ 18 →
        again.isKind th.launchId (fieldW 17 12 (th.rg d)) 2 = true → again.teamOfLaunch th.launchId dest = some tm →
        s.room dest = true → again.fireBehind dest th.eprio = false →
        ∃ t k, exec (.messageAccept core ctx) s = .next t ∧ (t.thread tid).status = .running ∧ Goes p.bundle th (t.thread tid) ∧
          t.queue dest = s.queue dest ++ [⟨th.eprio, .task k⟩] ∧ (∀ x, x ≠ dest → t.queue x = s.queue x) ∧
          k.launch = th.launchId ∧ k.team = tm.no ∧ k.actor = fieldW 17 12 (th.rg d) ∧ k.kind = 2 ∧
          k.words = (List.range 8).map (fun j => th.rg (Fin.ofNat 32 (w.val + j))) ∧ k.workid = th.workid ∧ t.mem = s.mem ∧
          ∀ j, j ≠ tid → t.thread j = s.thread j) ∧
      (p.why = .waiti → 0 < taskCount (s.queue core) → ctx < 8 → ∃ t, exec (.parkedBundleWake core ctx) s = .next t ∧
        (t.thread tid).status = .running ∧ t.mem = s.mem ∧ ∀ j, j ≠ tid → t.thread j = s.thread j))

/-- Ends of waits and firings (R44, R160, R173, R175, R179, R357): an interlocked result arrives; a record that waits is delivered by
trap 0x14; an STVER that has waited too long takes trap 0x0B with KIND 1; an FALIGN that has waited too long goes on; the
context parked longest is saved and its place is free; an ended item firing retires and counts. -/
def Sys2Proof.Spec.WaitsEnd : Prop :=
  ∀ (s : State) (core ctx : Nat) (p : Park) (l : Launch) (f : Firing) (w : RegWrite),
    let tid := tidOf core ctx
    let th := s.thread tid
    let v := capSetOff l.spec.code l.spec.trap.toNat
    ctx < 8 →
    (th.pend = [⟨w, none⟩] → w.dead = false → ∃ t, exec (.interlockedResultArrival core ctx) s = .next t ∧
      Sys2Proof.Spec.held (t.thread tid) w.reg = w ∧ (t.thread tid).pend = [] ∧ t.mem = s.mem ∧
      ∀ j, j ≠ tid → t.thread j = s.thread j) ∧
    (th.firing = some f → s.launch? f.launch = some l → l.spec.trap ≠ 0xFFFFFFFF → th.tcause.getLsbD 63 = false →
      (∀ rec rest, th.traps = rec :: rest → th.status = .running → ∃ t, exec (.engineFaultDelivery core ctx) s = .next t ∧
        (t.thread tid).frec = rec.words ∧ (t.thread tid).tval = rec.words.getD 0 0 ∧ (t.thread tid).traps = rest ∧
        (t.thread tid).tcause = BitVec.ofNat 64 (2 ^ 63 + 0x14) ∧ (t.thread tid).tepc = BitVec.ofNat 64 (th.pc % 2 ^ 56) ∧
        (t.thread tid).tpcc = th.pcc ∧ (t.thread tid).pcc = v ∧ (t.thread tid).status = .running ∧ t.mem = s.mem) ∧
      (∀ h r a, th.status = .parked p → p.why = .stver h → p.bundle.instr = .stver r a → p.bundle.core = core →
        p.bundle.ctx = ctx → s.bufFull h = true ∧ (s.verAt h).rcl = false ∨ isForeign h = true →
        ∃ t, exec (.stverBufferTimeout core ctx) s = .next t ∧
          (t.thread tid).tcause = BitVec.ofNat 64 (2 ^ 63 + 0x0B) ∧
          (t.thread tid).tval = tvalVersion 1 a.base.val (Sys2Proof.Spec.effective th a).toNat ∧ (t.thread tid).pcc = v ∧
          (t.thread tid).status = .running ∧ t.mem = s.mem ∧ t.vers = s.vers ∧ t.vbuf = s.vbuf ∧ t.cur = s.cur)) ∧
    (th.status = .parked p → p.why = .falign th.pc → th.firing.isSome = true → p.bundle.micro = false → th.run = none →
      ∃ t, exec (.falignReleaseTimeout core ctx) s = .next t ∧ t.mem = s.mem ∧ (t.thread tid).status = .running ∧
        Goes p.bundle th (t.thread tid)) ∧
    (∀ tm r, (∀ k, k < 8 → ∃ q, (s.thread (tidOf core k)).status = .parked q ∧ (s.thread (tidOf core k)).firing.isSome = true ∧
        (∀ h, q.why ≠ .stver h) ∧ (k ≠ ctx → ∀ p', th.status = .parked p' → p'.order < q.order)) →
      s.queue core ≠ [] → s.teamOf th = some tm → tm.area.free = some r → tm.area.used.length + 9 ≤ tm.area.records →
      ∃ t x, exec (.parkOut core) s = .next t ∧ t.saved = s.saved ++ [x] ∧ x.how = .parkOut ∧ x.tid = tid ∧
        x.thread.pcc = th.pcc ∧ x.thread.g = th.g ∧ (t.thread tid).status = .free ∧ (t.thread tid).firing = none ∧
        ∀ q ∈ t.waits, q.tid ≠ tid) ∧
    (∀ rest, s.ended = f :: rest → (∀ y ∈ rest, y.id ≠ f.id) → f.kind = 0 → f.record = none → s.launch? f.launch = some l →
      l.id = f.launch → (∀ x ∈ s.threads, ∀ q ∈ x.2.stores, q.firing ≠ f.id) →
      ∃ t, exec (.firingRetire f.id) s = .next t ∧ t.threads = s.threads ∧
        t.ended = rest ∧ t.mem = s.mem ∧ ∃ l', t.launch? f.launch = some l' ∧ l'.items = l.items + 1)

/-- MCALL, micro-operations and parked bundles that execute again; how an MCALL is resumed is log 28's reading. -/
def Obligations.MacrosAndWakes : Prop :=
  Sys2Proof.Spec.MacroCall ∧ Sys2Proof.Spec.BundlesExecuteAgain

/-- WAITI, and how waits and firings end. -/
def Obligations.WaitsEnd : Prop :=
  Sys2Proof.Spec.WaitForTask ∧ Sys2Proof.Spec.WaitsEnd

/-! ## Shipping, migration, placement and the host port (spec/17_objects.md R241 to R250; spec/27_launch.md R342 to R350) -/

/-- SHIPPED_RECORD_ARRIVAL, SHIP_RECORD_RESEND and THREAD_RETURN (R241, R243): the oldest record of a port cluster starts in a free
context there, while its own is held travelling; a refused record is sent again, and of a thread that ships a second time the place
stays its original context's (log 9); a thread that returns, before an instruction that has it return or after a run of bundles, goes on in
its own context, where its next bundle executes (log 73), and the one it used is free. -/
def Obligations.ThreadsTravel : Prop :=
  ∀ (s : State) (die core ctx tid : Nat) (p : Park) (f : Firing),
    let at_ := tidOf core ctx
    (∀ rest, s.shipQueue die = tid :: rest → s.portContext die = some at_ → (s.thread tid).status = .travelQueued →
      ∃ t, exec (.shippedRecordArrival (64 * die + 63)) s = .next t ∧ t.shipQueue die = rest ∧ t.mem = s.mem ∧
        (t.thread at_).status = .running ∧ (t.thread at_).bundles = 1 ∧ (t.thread at_).g = (s.thread tid).g ∧ (t.thread at_).pcc = (s.thread tid).pcc ∧
        (t.thread at_).firing = (s.thread tid).firing.map (fun x => { x with home := some tid }) ∧
        (t.thread tid).status = .travelling at_ ∧ ∀ j, j ≠ tid → j ≠ at_ → t.thread j = s.thread j) ∧
    (∀ m, (s.thread at_).status = .parked p → p.why = .ship die m → (s.shipQueue die).length < 64 →
      ((s.thread at_).firing.bind (·.home) = none → ∃ t, exec (.shipRecordResend core ctx) s = .next t ∧
        t.shipQueue die = s.shipQueue die ++ [at_] ∧ t.thread at_ = { s.thread at_ with status := .travelQueued } ∧ t.mem = s.mem ∧
        ∀ j, j ≠ at_ → t.thread j = s.thread j) ∧
      ((s.thread at_).firing = some f → f.home = some tid → tid ≠ at_ → (s.thread at_).stores = [] → (s.thread at_).pend = [] →
        ∃ t, exec (.shipRecordResend core ctx) s = .next t ∧ t.shipQueue die = s.shipQueue die ++ [tid] ∧
          (t.thread tid).status = .travelQueued ∧ (t.thread tid).g = (s.thread at_).g ∧ (t.thread at_).status = .free ∧
          t.mem = s.mem ∧ ∀ j, j ≠ at_ → j ≠ tid → t.thread j = s.thread j)) ∧
    ((s.thread at_).status = .running → (s.thread at_).firing = some f → f.home = some tid → tid ≠ at_ →
      (s.thread at_).stores = [] → (s.thread at_).pend = [] →
      let back := fun (t : State) =>
        (t.thread tid).status = .running ∧ (t.thread tid).atHome = true ∧ t.fabric = s.fabric ∧
        (t.thread tid).firing = some { f with home := none } ∧ (t.thread tid).g = (s.thread at_).g ∧
        (t.thread tid).c = (s.thread at_).c ∧ (t.thread tid).pcc = (s.thread at_).pcc ∧ (t.thread at_).status = .free ∧
        (t.thread at_).firing = none ∧ t.mem = s.mem
      (256 < (s.thread at_).bundles → ∃ t, exec (.threadReturn core ctx) s = .next t ∧ back t) ∧
      ((s.thread at_).bundles ≤ 256 → exec (.threadReturn core ctx) s = .next s) ∧
      (s.cur.tid = at_ → ∀ i, returnsFor i = true → ∃ t, s.enter i = .next t ∧ back t))

/-- Migration (R245 to R247): a move copies a page's bytes to a frame of the new slice's pool and leaves a redirect entry; a
window's end clears MOVES; a request at an old frame goes to the new home, with a notice to its core; a notice replaces the core's
translation; a retired entry gives the frame back and leaves no translation of the page. That a move takes the frame given back last, and
that a retired one is the next to be taken, is the model's reading (log 6). -/
def Obligations.PagesMigrate : Prop :=
  ∀ (s : State) (slice f fr to_ tid n : Nat) (rest : List Nat) (p : PageMeta) (x : Redirect) (r : StoreReq) (z : Notice),
    (let nf := to_ * 65536 + fr
     s.pages.find? (fun q => frameSlice q.1 = slice && q.2.moving.isSome) = some (f, p) → p.moving = some to_ →
      s.pool to_ = fr :: rest → (s.redirectsOf slice).length < 256 → memWf s.mem = true → f ≠ nf →
      (∀ o, o < 16 → frameOf (s.leafAddr p.obj p.page + o) ≠ nf) → fr < 2 ^ 16 →
      ∃ t y, exec (.migrationMoveComplete slice) s = .next t ∧ t.redirects = s.redirects ++ [y] ∧ y.old = f ∧ y.obj = p.obj ∧
        y.page = p.page ∧ y.new.home = to_ ∧ y.new.frame = fr ∧ y.new.loc = 1 ∧ t.pool to_ = rest ∧
        (t.page nf).moving = none ∧ (t.page nf).run = 0 ∧
        ∀ o, o < 65536 → memByte t.mem (nf * 65536 + o) = memByte s.mem (f * 65536 + o)) ∧
    (∀ w, (s.page f).window = some w → ∃ t, exec (.migrationWindowEnd f) s = .next t ∧
      t = { s with clock := max s.clock (w + migWin (s.die (f * 65536 / 2 ^ 38)).migctl * 1000) }.setPage f
        { s.page f with window := none, moves := 0 }) ∧
    (s.redirects = [x] → frameSlice x.old = slice → r.addr < 2 ^ 40 → r.addr / 65536 = x.old →
      x.new.home * 65536 + x.new.frame ≠ x.old → (s.thread tid).stores = [r] → (∀ j, j ≠ tid → (s.thread j).stores = []) →
      ∃ t, exec (.redirectForward slice) s = .next t ∧ t.mem = s.mem ∧ t.notices = s.notices ++ [⟨tid / 8, x.new⟩] ∧
        (t.thread tid).stores =
          [{ r with addr := (x.new.home * 2 ^ 32 + x.new.frame * 65536) + r.addr % 65536 }] ∧
        ∀ j, j ≠ tid → t.thread j = s.thread j) ∧
    (s.notices[n]? = some z → ∃ t, exec (.redirectNotice n) s = .next t ∧ t.notices = s.notices.eraseIdx n ∧
      t.tlbOf z.core = (s.tlbOf z.core).map (fun e => if e.obj = z.entry.obj ∧ e.page ≤ z.entry.page ∧
        z.entry.page < e.page + e.count then z.entry else e) ∧ (∀ k, k ≠ z.core → t.tlbOf k = s.tlbOf k) ∧ t.mem = s.mem) ∧
    (∀ l, s.redirectsOf slice = x :: l → (∀ j, (s.thread j).stores = []) → slice / 64 < 4 →
      ∃ t, exec (.redirectRetire slice) s = .next t ∧ t.redirects = s.redirects.erase x ∧ t.mem = s.mem ∧
        t.pool slice = x.old % 65536 :: s.pool slice ∧ s.clock ≤ t.clock ∧
        ∀ k, ∀ e ∈ t.tlbOf k, ¬(e.obj = x.obj ∧ e.page ≤ x.page ∧ x.page < e.page + e.count))

/-- Placement (R345, R346): the next arcade of the first launch in order whose arcade fits goes to its clusters; the next team of an
arcade becomes resident with its items, its tiles, a save area and a free slot, and takes its place in the core's queue. The number of an
arcade's window is the model's choice (log 7). -/
def Sys2Proof.Spec.ArcadesAndTeams : Prop :=
  ∀ (s : State) (die core m slot no : Nat) (l : Launch) (p : Placed) (cl : List Nat) (a : SaveArea) (d : Die),
    (die < 4 → (∃ t, s.placeOrder die = l :: t) → s.fitting die l = some cl → l.swept = [] →
      ∃ t l', exec (.arcadePlacement die) s = .next t ∧ t.launch? l.id = some l' ∧
        l'.placed = l.placed ++ [⟨l.next, die, cl, s.windowFor die cl, [], die⟩] ∧ l'.next = l.next + 1 ∧ l'.since = none ∧ t.mem = s.mem ∧
        t.threads = s.threads) ∧
    ((∃ t, s.arcadesAt core = (l, p) :: t) → p.memberOf core = some m → s.freeSlot core = some slot →
      l.spec.tiles ≤ (s.freeTiles core).length → s.sameSpill core l.spec = true → s.sweptFor l p m = none →
      p.nextTeam l.spec m = some no → (s.die (core / 1024)).giveArea l.spec = some (a, d) →
      ∃ t tm, exec (.teamResidency core) s = .next t ∧ t.team? l.id no = some tm ∧ tm.core = core ∧ tm.slot = slot ∧
        tm.items = 2 ^ itemBits l.spec ∧ tm.next = 0 ∧ tm.tiles = (s.freeTiles core).take l.spec.tiles ∧
        (∀ b, tm.bar b = ⟨0, tm.items, 0, 0, 0, 0⟩) ∧ (∀ k ∈ tm.tiles, t.tile core k = Tile.clear) ∧
        t.queue core = s.queue core ++ [⟨l.spec.prio, .items tm.key⟩] ∧ t.mem = s.mem ∧ t.threads = s.threads)

/-- The host port (R250, R342, R349, R365, R371): a line written to the message window lies there and fires the host actor with its
words, and a module that does not run accepts none; a write or read of bonded DRAM is performed at its home, but one that a fatal
error has stopped takes no write (log 50's reading); the end of a window sends the interrupt it held. -/
def Sys2Proof.Spec.HostPort : Prop :=
  ∀ (s : State) (off line vec : Nat) (b : List Byte) (tm : Team) (l : Launch) (v : VecClock),
    (let at_ := 2 ^ 40 + 1008 * 2 ^ 18 + 196608 + 64 * line
     s.boot = .running → line < 1024 → b.length = 64 → s.host.held = [] → s.room 1008 = true → s.supvId = some l.id →
      s.launch? l.id = some l → s.team? l.id 0 = some tm → tm.core = 1008 →
      ∃ t k, exec (.hostMessageWrite (2 ^ 40 + 64 * line) b) s = .next t ∧ Stored s t at_ b ∧ t.host.held = [] ∧
        t.queue 1008 = s.queue 1008 ++ [⟨l.spec.prio, .task k⟩] ∧ k.launch = l.id ∧ k.team = tm.no ∧ k.kind = 2 ∧
        k.actor = fieldW 17 12 (s.die 0).supact ∧ k.words = (List.range 8).map fun i => wordLe ((b.drop (8 * i)).take 8)) ∧
    (off + b.length ≤ 2 ^ 40 →
      (s.boot = .running → ∃ t, exec (.hostMemoryAccess true off b) s = .next t ∧ Stored s t off b ∧ t.host = s.host) ∧
      (s.boot ≠ .inReset → ∃ t, exec (.hostMemoryAccess false off b) s = .next t ∧
        t.host.read = memBytes s.mem off b.length ∧
        t = { s with host := { s.host with read := t.host.read, poison := s.poisoned off b.length } }) ∧
      (s.boot = .stopped → exec (.hostMemoryAccess true off b) s = .next s)) ∧
    (s.boot ≠ .running → exec (.hostMessageWrite (2 ^ 40 + 64 * line) b) s = .next s) ∧
    (smFind s.host.vecs vec = some v → v.held = true → ∃ t, exec (.interruptWindowExpiry vec) s = .next t ∧
      t.host.irqs = s.host.irqs ++ [vec] ∧ t.clock = max s.clock (v.sent + v.window * 1000) ∧
      t = { s with clock := t.clock, host := t.host } ∧ ∀ w, smFind t.host.vecs vec = some w → w.held = false)

/-- Arcades and teams are placed; the host's accesses; logs 7 and 50 name the model's own choices. -/
def Obligations.PlacementAndHost : Prop :=
  Sys2Proof.Spec.ArcadesAndTeams ∧ Sys2Proof.Spec.HostPort

/-! ## The fabric (spec/15_fabric.md R210 to R233) -/

/-- Tokens, rings and the torus router (R211 to R218): a port serves in turn the two sources with a packet that the token admits, sends up to 4 flits
where the period still has room for them, and may not capture again until the token passes its owner, which then releases it by
its free buffers (how many it has freed is open, log 4); a packet on a cluster ring goes on, enters or leaves, at the optical
port for the router or its cluster's writer port; a packet at the router joins its lane group's queue with its flits, where the
next router has a free buffer, or two for one that enters the dimension (how many it has is open, log 26). -/
def Obligations.PacketsMove : Prop :=
  ∀ (s : State) (chan port : Nat) (p : PortPkt) (r : RingPkt) (q : TorusPkt),
    let k := s.token chan
    let last := smGet false k.served port
    let waiting := s.fabric.ports.filter fun x =>
      x.chan = chan && x.port = port && (x.left < x.pkt.flits || k.state.admits x.pkt.resp)
    let n := min (min 4 p.left) (12 - k.load)
    let dest := p.pkt.bank / 8 % 16
    (nextAtPort (portTurn last waiting) = some p → port ∉ k.barred → (k.state = .opened ∨ k.state = .respOnly ∧ p.pkt.resp = true) →
      0 < p.left → k.load < 12 →
      ((∀ x ∈ waiting, x.left = x.pkt.flits) → (∃ x ∈ waiting, x.slice ≠ last) → p.slice ≠ last) ∧
      ∃ t, exec (.tokenCapture chan port) s = .next t ∧ t = { s with fabric := t.fabric } ∧
        (t.token chan).barred = port :: k.barred ∧ (t.token chan).state = k.state ∧ (t.token chan).load = k.load + n ∧
        smGet false (t.token chan).served port = p.slice ∧
        (t.token chan).freeRq = k.freeRq - (if p.pkt.resp then 0 else n) ∧
        (t.token chan).freeRs = k.freeRs - (if p.pkt.resp then n else 0) ∧
        (p.left = n → t.fabric.ports = s.fabric.ports.erase p ∧ (256 ≤ chan → ∃ cw, t.fabric.ring = s.fabric.ring ++
          [⟨chan - 256, 17, cw, true, dest, p.pkt⟩])) ∧
        (n < p.left → t.fabric.ring = s.fabric.ring ∧
          t.fabric.ports = s.fabric.ports.map fun x => if x = p then { p with left := p.left - n } else x) ∧
        (chan < 256 → t.fabric.ring = s.fabric.ring)) ∧
    (k.freeRq ≤ 128 → k.freeRs ≤ 128 → ∃ t, exec (.tokenOwnerPass chan) s = .next t ∧ t.mem = s.mem ∧ t.threads = s.threads ∧
      (let k' := t.token chan
       k'.barred = [] ∧ k'.load = 0 ∧ k'.served = k.served ∧
        k.freeRq ≤ k'.freeRq ∧ k'.freeRq ≤ 128 ∧ k.freeRs ≤ k'.freeRs ∧ k'.freeRs ≤ 128 ∧
        k'.state = if k'.freeRs < 16 then .withheld else if k'.freeRq < 16 then .respOnly else .opened)) ∧
    (s.fabric.ring = [r] → ∃ t, exec (.ringAdvance r.cluster r.stop r.cw r.pkt.resp) s = .next t ∧ t.mem = s.mem ∧
      (r.entering = true → t.fabric.ring = [{ r with entering := false }]) ∧
      (r.entering = false → r.dest ≠ r.stop →
        t.fabric.ring = [{ r with stop := if r.cw then (r.stop + 1) % 18 else (r.stop + 17) % 18 }]) ∧
      (r.entering = false → r.dest = r.stop → t.fabric.ring = [] ∧
        (r.stop = 17 → (∀ d, s.routeDir r.pkt.mod = some d → t.fabric.torusQ = s.fabric.torusQ ++ [⟨d, true, none, r.pkt⟩]) ∧
          (s.routeDir r.pkt.mod = none →
            t.fabric.ports = s.fabric.ports ++ [⟨bankChannel r.pkt.bank, r.cluster, false, r.pkt.flits, r.pkt⟩])))) ∧
    (∀ (dir : Fin 6), s.fabric.torusQ = [q] → q.dir = dir.val →
      let n := laneOf dir.val q.pkt.src q.pkt.bank
      let g := s.group n
      let room := (Config.freeByte s.frees).toNat % 9
      let need := if q.enters then 2 else 1
      g.subst = [] → (∀ j, n ∉ (s.group j).subst) → g.txq.length + q.pkt.flits ≤ 1024 → ∃ t, exec (.torusHop dir q.pkt.resp) s = .next t ∧
        (room < need → t = { s with frees := t.frees }) ∧
        (need ≤ room → q.input = none ∨ s.fabric.rxq = [] →
          t = { s with frees := t.frees, fabric := t.fabric } ∧ t.fabric.torusQ = [] ∧
          t.group n = { g with txq := g.txq ++ pktFlits n q.pkt } ∧ (pktFlits n q.pkt).length = q.pkt.flits ∧
          ∀ j, j ≠ n → t.group j = s.group j))

/-- Retry (R221 to R223): a flit with a bad CRC counts and is refused by a NAK with the SEQ expected, and a receiver that has refused one
SEQ 16 times gives up its width; a good ACK or NAK flit acts as the group's acknowledgement; a WIDTH flit in order is accepted;
the timer acknowledges what was accepted, and a group that sends nothing owes its ACK or NAK until it sends again; an ACK empties the replay buffer up to its SEQ; a NAK counts a retry and resends what
is left at the width of its earliest flit, after idle flits that bring lane 0 to a multiple of that width's slice, or, while a ring
moves, later; the sixteenth NAK of one SEQ takes the group down. That a bad flit is NAKed even while flits are discarded, that what is
owed in a silent state is sent later, and that the receiver gives up its width at its sixteenth NAK, are the model's readings (log 37). -/
def Obligations.FlitsRetried : Prop :=
  ∀ (s : State) (n : Fin 288) (flit : BitVec 288) (seq : BitVec 12),
    let g := s.group n.val
    let crcOk := (crc16 (flit.toNat % 2 ^ 272) 272 0xFFFF).toNat = flit.toNat / 2 ^ 272
    let kind := flit.toNat / 2 ^ 268 % 16
    let fseq := flit.toNat / 2 ^ 256 % 4096
    let own := fun (t : State) (g' : LaneGroup) => t = s.setGroup n.val g'
    let width := g.lgctl.toNat % 4
    let state := g.lgctl.toNat / 2 ^ 24 % 4
    let spoken := fun (kind payload : Nat) => g.sent ++ [⟨kind, 0, BitVec.ofNat 256 payload, width, 0, 0⟩]
    let live := state = 0 ∨ (state = 1 ∧ g.wake = some false)
    (¬crcOk ∨ 8 ≤ kind → ∃ t c, exec (.flitReceive n flit) s = .next t ∧
      (live → g.rxNaks < 15 → own t { g with
        linkerr := c, discard := true, nakDue := false, rxNaks := g.rxNaks + 1, sent := spoken 4 g.expSeq }) ∧
      (live → 15 ≤ g.rxNaks → t.group n.val = { g with
        linkerr := c, discard := true, nakDue := false, rxNaks := g.rxNaks + 1, sent := spoken 4 g.expSeq, rxWidth := 0,
        farLit := [] }) ∧
      (¬live → g.rxNaks < 16 → own t { g with linkerr := c, discard := true, nakDue := true }) ∧
      c.toNat / 2 ^ 16 = min 0xFFFF (g.linkerr.toNat / 2 ^ 16 + 1) ∧ c.toNat % 2 ^ 16 = g.linkerr.toNat % 2 ^ 16) ∧
    (crcOk → kind = 0 → exec (.flitReceive n flit) s = .next s) ∧
    (crcOk → kind = 3 → exec (.flitReceive n flit) s = exec (.ackReceive n (flit.setWidth 12)) s) ∧
    (crcOk → kind = 4 → exec (.flitReceive n flit) s = exec (.nakReceive n (flit.setWidth 12)) s) ∧
    (crcOk → kind = 7 → fseq = g.expSeq → g.unacked < 63 → ∃ t, exec (.flitReceive n flit) s = .next t ∧
      own t { g with
        expSeq := (fseq + 1) % 4096, lastAck := fseq, discard := false, nakDue := false, rxNaks := 0,
        unacked := g.unacked + 1, rxNext := some (flit.toNat % 4) }) ∧
    (0 < g.unacked → ∃ t, exec (.ackTimer n) s = .next t ∧
      (live → own t { g with unacked := 0, sent := spoken 3 g.lastAck }) ∧ (¬live → own t g)) ∧
    (∀ a x b, g.replay = a ++ x :: b → x.seq = seq.toNat → (∀ y ∈ a, y.seq ≠ seq.toNat) →
      ∃ t part, exec (.ackReceive n seq) s = .next t ∧ own t { g with replay := b, naks := 0, part := part } ∧
        ∀ y ∈ part, y ∈ g.part ++ a ++ [x]) ∧
    (g.nakSeq ≠ seq.toNat → (∀ y ∈ g.replay, y.seq ≠ (seq.toNat + 4095) % 4096) →
      (∀ f rest, live → g.replay = f :: rest → ∃ t c idle, exec (.nakReceive n seq) s = .next t ∧
        own t { g with
          naks := 1, nakSeq := seq.toNat, owed := false, linkerr := c,
          sent := g.sent ++ idle ++ g.replay.map fun x => { x with width := f.width } } ∧
        c.toNat / 2 ^ 8 % 2 ^ 8 = min 255 (g.linkerr.toNat / 2 ^ 8 % 2 ^ 8 + 1) ∧ c.toNat / 2 ^ 16 = g.linkerr.toNat / 2 ^ 16 ∧
        (∀ y ∈ idle, y.kind = 0 ∧ y.width = width) ∧ (f.width = width → idle = []) ∧
        ((∀ y ∈ g.sent, 1 ≤ y.width ∧ y.width ≤ 3) → 1 ≤ width → 1 ≤ f.width → f.width ≤ 3 →
          (g.laneBits + idle.length * sliceLen width) % sliceLen f.width = 0 ∨ f.width = width)) ∧
      (¬live → ∃ t, exec (.nakReceive n seq) s = .next t ∧
        own t { g with naks := 1, nakSeq := seq.toNat, owed := true })) ∧
    (g.nakSeq = seq.toNat → 15 ≤ g.naks → ∃ t, exec (.nakReceive n seq) s = .next t ∧ t.mem = s.mem ∧
      (t.group n.val).lgctl.toNat / 2 ^ 24 % 4 = 3 ∧ (t.group n.val).linkerr.getLsbD 0 = true ∧ (t.group n.val).replay = [] ∧
      (t.group n.val).wake = none ∧ (t.group n.val).move = none)

/-- Waking, widths, ring moves and trim (R222, R225 to R228): an automatic wake raises TGT to MAXW and sends WAKE, and other boundaries send the
next flit or an idle one; the far end lights its lanes and heats their rings, and sends READY when they lock; READY within the budget
puts TGT in force, once the replay buffer has room for WIDTH, and the budget's end without READY parks the rings again with WERR;
an accepted WIDTH sets the receiver's width; a ring move
ends in force, or returns to the old ring; a parked ring's detector samples zero, and a powered one's at most 3,000. That a retrain whose
budget ends leaves the group down with WERR set, that a READY which meets a full replay buffer waits there (log 37), and that WAKE names its width in PAYLOAD[1:0] (log 79), are the model's
choices. -/
def Sys2Proof.Spec.LaneGroupsWake : Prop :=
  ∀ (s : State) (n : Fin 288) (code : BitVec 2),
    let g := s.group n.val
    let c := g.lgctl
    let bits := fun (hi lo : Nat) (w : BitVec 32) => w.toNat / 2 ^ lo % 2 ^ (hi - lo + 1)
    let far := 96 + n.val / 3
    (g.ready = none → g.parking = false → c.getLsbD 31 = true → bits 25 24 c = 0 → bits 1 0 c < bits 9 8 c → bits 10 0 g.qthr ≤ min 1024 g.txq.length →
      ∃ t g', exec (.autoWake n) s = .next t ∧ t = { s with fabric := t.fabric } ∧ t.group n.val = g' ∧
        bits 5 4 g'.lgctl = bits 9 8 c ∧ bits 25 24 g'.lgctl = 1 ∧ bits 1 0 g'.lgctl = bits 1 0 c ∧ g'.wake = some false ∧
        g'.txq = g.txq ∧ g'.sent = g.sent ++ [⟨5, 0, BitVec.ofNat 256 (bits 9 8 c), bits 1 0 c, 0, 0⟩]) ∧
    (g.ready = none → g.parking = false → c.getLsbD 31 = false → bits 25 24 c = 0 → ∃ t, exec (.autoWake n) s = .next t ∧
      (∀ f rest, g.txq = f :: rest → g.replay.length < 1024 →
        let x := { f with seq := g.nextSeq, width := bits 1 0 c }
        t = s.setGroup n.val { g with
          txq := rest, nextSeq := (g.nextSeq + 1) % 4096, replay := g.replay ++ [x], sent := g.sent ++ [x] }) ∧
      (g.txq = [] → t = s.setGroup n.val { g with sent := g.sent ++ [⟨0, 0, 0, bits 1 0 c, 0, 0⟩] })) ∧
    (∃ t, exec (.wakeFlitReceive n code) s = .next t ∧ t = { s with fabric := t.fabric } ∧
      (let on := (List.range (if code = 0 then 0 else 2 ^ code.toNat)).filter fun l =>
         (if g.rxWidth = 0 then 0 else 2 ^ g.rxWidth) ≤ l
       t.fabric.groups = (s.setGroup n.val { g with farLit := on }).fabric.groups ∧
       ∀ l ∈ on, smGet 0 t.fabric.applied (32 * far + s.ringOf far (8 * (n.val % 3) + l)) =
         smGet 0 s.fabric.heat (32 * far + s.ringOf far (8 * (n.val % 3) + l)))) ∧
    (bits 25 24 c < 2 → ∃ t, exec (.cdrLock n) s = .next t ∧
      t = s.setGroup n.val { g with sent := g.sent ++ [⟨6, 0, 0, bits 1 0 c, 0, 0⟩] }) ∧
    (∀ re elapsed, g.wake = some re → elapsed ≤ 2000 → g.replay.length < 1024 → ∃ t g',
      exec (.readyReceive n elapsed) s = .next t ∧ t.group n.val = g' ∧ t.mem = s.mem ∧ bits 1 0 g'.lgctl = bits 5 4 c ∧
      bits 25 24 g'.lgctl = 0 ∧ bits 23 12 g'.lgctl = elapsed ∧ g'.wake = none ∧ g'.nextSeq = (g.nextSeq + 1) % 4096 ∧
      ∃ more, g'.sent = g.sent ++ ⟨7, g.nextSeq, BitVec.ofNat 256 (bits 5 4 c), bits 1 0 c, 0, n.val⟩ :: more ∧
        (re = false → more = [] ∧ ∀ j, j ≠ n.val → t.group j = s.group j)) ∧
    (∀ re elapsed, g.wake = some re → elapsed ≤ 2000 → 1024 ≤ g.replay.length → ∃ t, exec (.readyReceive n elapsed) s = .next t ∧
      t = s.setGroup n.val { g with ready := some elapsed } ∧ exec (.wakeBudgetExpiry n) t = .next t) ∧
    (∀ re, g.ready = none → g.wake = some re → ∃ t g', exec (.wakeBudgetExpiry n) s = .next t ∧ t.group n.val = g' ∧ t.mem = s.mem ∧
      bits 1 0 g'.lgctl = bits 1 0 c ∧ bits 25 24 g'.lgctl = (if re then 3 else 0) ∧ g'.lgctl.getLsbD 29 = true ∧
      g'.wake = none ∧ g'.sent = g.sent) ∧
    (g.rxNext = some code.toNat → ∃ t, exec (.widthFlitReceive n code) s = .next t ∧
      t = s.setGroup n.val { g with rxWidth := code.toNat, rxNext := none, farLit := [] }) ∧
    (∀ f w old new, g.move = some (f, w, old, new) →
      (∃ t, exec (.ringMoveReady n) s = .next t ∧ (t.group n.val).move = none ∧ bits 25 24 (t.group n.val).lgctl = 0 ∧
        t.fabric.ringmap = s.fabric.ringmap ∧ t.mem = s.mem) ∧
      ∃ t, exec (.ringMoveBudgetExpiry n) s = .next t ∧ (t.group n.val).move = none ∧ bits 25 24 (t.group n.val).lgctl = 0 ∧
        t.ringOf f w = old ∧ t.mem = s.mem) ∧
    (∀ (f : Fin 192) (r : Fin 26), ∃ t x, exec (.mpdSample f r) s = .next t ∧ t.mem = s.mem ∧ t.threads = s.threads ∧
      t.fabric = { s.fabric with mpd := smPut s.fabric.mpd (32 * f.val + r.val) x } ∧ (s.litRing f.val r.val = false → x = 0) ∧
      x.toNat ≤ 3000)

/-- A q6 command of a context is answered (R231): STATUS, the command's bits 59:32, and a value, to the firing that pushed it; the commands of
the port that stay are `rest`. -/
def Sys2Proof.Spec.Answers (s t : State) (core ctx : Nat) (w : Word) (rest : List Q6Cmd) (status value : Nat) : Prop :=
  ∃ a : Word, fieldW 63 60 a = status ∧ fieldW 59 32 a = fieldW 59 32 w ∧ fieldW 31 0 a = value ∧ t.fabric.q6 = rest ∧
    (t.thread (tidOf core ctx)) = { s.thread (tidOf core ctx) with
      held := (s.thread (tidOf core ctx)).held ++ [⟨6, [a]⟩] } ∧ t.mem = s.mem ∧
    ∀ j, j ≠ tidOf core ctx → t.thread j = s.thread j

/-- The oldest q6 command of a context and of its firing, and the commands of the port without it. -/
def Sys2Proof.Spec.Oldest (s : State) (tid n : Nat) (w : Word) (rest : List Q6Cmd) : Prop :=
  ∃ before after, s.fabric.q6 = before ++ ⟨tid, n, w⟩ :: after ∧ rest = before ++ after ∧ ∀ x ∈ before, x.tid ≠ tid ∧ x.firing ≠ n

/-- The fabric service port q6 (R224, R225, R227 to R232): a read answers STATUS 0 and the register, or STATUS 1, and a malformed command
STATUS 3 with the register it names; a write of QTHR, LGCTL, HEAT, RINGMAP or TORUSPOS takes effect and answers the register's
new value, or STATUS 2 where its rule refuses it (a command of a firing that has ended takes effect and is not answered, R162), and no event serves a
context while an older command of its firing waits in another: a TGT below CUR parks at the next flit boundary, and a ring written to an active lane
starts a move (for a receive fibre in the group of log 38). The answer of a park shows the register before the flit boundary (log 39's
reading). -/
def Sys2Proof.Spec.FabricRegisters : Prop :=
  ∀ (s : State) (core ctx n : Nat) (w : Word) (rest : List Q6Cmd),
    let tid := tidOf core ctx
    let kind := fieldW 55 52 w
    let i := fieldW 51 40 w
    let j := fieldW 39 32 w
    let v := fieldW 31 0 w
    let op := fun (n : Nat) => fieldW 63 60 w = n ∧ fieldW 59 56 w = 0
    let c := (s.group i).lgctl
    let bits := fun (hi lo : Nat) (w : BitVec 32) => w.toNat / 2 ^ lo % 2 ^ (hi - lo + 1)
    (∀ before after x, s.fabric.q6 = before ++ ⟨tid, n, w⟩ :: after → (∀ x ∈ before, x.tid ≠ tid) → x ∈ before → x.firing = n →
      ctx < 8 → ∀ e ∈ q6Events tid, exec e s = .next s) ∧
    (Oldest s tid n w rest → s.firingCtx n = none → (∀ v ∈ s.saved, v.thread.firing.map (·.id) ≠ some n) →
      op 1 → kind = 2 → i < 288 → j = 0 →
      ∃ t, exec (.fabricRegisterWrite core ctx) s = .next t ∧ t.group i = { s.group i with qthr := BitVec.ofNat 32 (v % 2 ^ 11) } ∧
        t.fabric.q6 = rest ∧ t.threads = s.threads ∧ t.saved = s.saved) ∧
    (Oldest s tid n w rest → s.firingCtx n = some tid →
    (op 0 → ∃ t, exec (.fabricRegisterRead core ctx) s = .next t ∧ t.fabric = { s.fabric with q6 := rest } ∧
      match s.fabricReg kind i j with
      | some x => Answers s t core ctx w rest 0 x.toNat
      | none => Answers s t core ctx w rest 1 0) ∧
    (2 ≤ fieldW 63 60 w ∨ fieldW 59 56 w ≠ 0 → ∃ t, exec (.fabricRegisterWrite core ctx) s = .next t ∧
      t.fabric = { s.fabric with q6 := rest } ∧ Answers s t core ctx w rest 3 ((s.fabricReg kind i j).getD 0).toNat) ∧
    (op 1 → kind = 2 → i < 288 → j = 0 → ∃ t, exec (.fabricRegisterWrite core ctx) s = .next t ∧
      t.group i = { s.group i with qthr := BitVec.ofNat 32 (v % 2 ^ 11) } ∧ Answers s t core ctx w rest 0 (v % 2 ^ 11)) ∧
    (op 1 → kind = 1 → i < 288 → j = 0 →
      ((v / 2 ^ 4 % 4 = 0 ∨ v / 2 ^ 8 % 4 = 0) → ∃ t, exec (.lgctlWrite core ctx) s = .next t ∧
        t.fabric = { s.fabric with q6 := rest } ∧ Answers s t core ctx w rest 2 c.toNat) ∧
      (v / 2 ^ 4 % 4 ≠ 0 → v / 2 ^ 8 % 4 ≠ 0 → bits 25 24 c = 0 → v / 2 ^ 4 % 4 = bits 1 0 c →
        ∃ t c', exec (.lgctlWrite core ctx) s = .next t ∧ (t.group i) = { s.group i with lgctl := c', parking := false } ∧
          bits 5 4 c' = v / 2 ^ 4 % 4 ∧ bits 9 8 c' = v / 2 ^ 8 % 4 ∧ bits 1 0 c' = bits 1 0 c ∧ bits 25 24 c' = 0 ∧
          c'.getLsbD 31 = w.getLsbD 31 ∧ c'.getLsbD 30 = (c.getLsbD 30 && !w.getLsbD 30) ∧
          c'.getLsbD 29 = (c.getLsbD 29 && !w.getLsbD 29) ∧ Answers s t core ctx w rest 0 c'.toNat) ∧
      (v / 2 ^ 4 % 4 ≠ 0 → v / 2 ^ 8 % 4 ≠ 0 → bits 25 24 c = 0 → v / 2 ^ 4 % 4 < bits 1 0 c → (s.group i).replay.length < 1024 →
        ∃ t, exec (.lgctlWrite core ctx) s = .next t ∧ bits 1 0 (t.group i).lgctl = v / 2 ^ 4 % 4 ∧
          (t.group i).lgctl.getLsbD 30 = true ∧ (t.group i).sent = (s.group i).sent ++
            [⟨7, (s.group i).nextSeq, BitVec.ofNat 256 (v / 2 ^ 4 % 4), bits 1 0 c, 0, i⟩])) ∧
    (op 1 → kind = 4 → i < 192 → j < 26 → ∃ t, exec (.heatWrite core ctx) s = .next t ∧
      smGet 0 t.fabric.heat (32 * i + j) = BitVec.ofNat 12 v ∧ t.fabric.groups = s.fabric.groups ∧
      (s.litRing i j = true → smGet 0 t.fabric.applied (32 * i + j) = BitVec.ofNat 12 v) ∧
      (s.litRing i j = false → t.fabric.applied = s.fabric.applied) ∧
      Answers s t core ctx w rest 0 (if v % 4096 = 4095 then 8191 else v % 4096)) ∧
    (op 1 → kind = 6 → i < 192 → j < 24 →
      (25 < v % 32 ∨ (∃ u, u < 24 ∧ u ≠ j ∧ s.ringOf i u = v % 32) → ∃ t, exec (.ringmapWrite core ctx) s = .next t ∧
        t.fabric = { s.fabric with q6 := rest } ∧ Answers s t core ctx w rest 2 (s.ringOf i j % 2 ^ 32)) ∧
      (v % 32 ≤ 25 → (∀ u, u < 24 → u ≠ j → s.ringOf i u ≠ v % 32) → s.litLane i j = false →
        bits 25 24 (s.group (3 * (i % 96) + j / 8)).lgctl = 0 → ∃ t, exec (.ringmapWrite core ctx) s = .next t ∧
          t.ringOf i j = v % 32 ∧ (∀ u, u ≠ j → u < 32 → t.ringOf i u = s.ringOf i u) ∧
          Answers s t core ctx w rest 0 (v % 32)) ∧
      (let n := 3 * (i % 96) + j / 8
       v % 32 ≤ 25 → (∀ u, u < 24 → u ≠ j → s.ringOf i u ≠ v % 32) → s.litLane i j = true → bits 25 24 (s.group n).lgctl = 0 →
        ∃ t, exec (.ringmapWrite core ctx) s = .next t ∧ t.ringOf i j = v % 32 ∧ bits 25 24 (t.group n).lgctl = 2 ∧
          (t.group n).move = some (i, j, s.ringOf i j, v % 32) ∧ Answers s t core ctx w rest 0 (v % 32))) ∧
    (op 1 → kind = 8 → i = 0 → j = 0 →
      (s.fabric.trained = true → ∃ t, exec (.torusposWrite core ctx) s = .next t ∧
        t.fabric = { s.fabric with q6 := rest } ∧ Answers s t core ctx w rest 2 s.fabric.torus.toNat) ∧
      (s.fabric.trained = false → ∃ t, exec (.torusposWrite core ctx) s = .next t ∧
        t.fabric = { s.fabric with q6 := rest, torus := BitVec.ofNat 32 (v % 2 ^ 24) } ∧ Answers s t core ctx w rest 0 (v % 2 ^ 24))))

/-- A firing that was saved while its q6 commands wait is answered in its record (R160, R231), whatever runs in the context now. -/
def Sys2Proof.Spec.SavedContextsAnswered : Prop :=
  ∀ (s : State) (core ctx n : Nat) (w : Word) (rest : List Q6Cmd),
    Oldest s (tidOf core ctx) n w rest → s.firingCtx n = none → fieldW 63 60 w = 0 → fieldW 59 56 w = 0 →
      ∃ t a, exec (.fabricRegisterRead core ctx) s = .next t ∧
        t = { s with
          fabric := { s.fabric with q6 := rest }
          saved := s.saved.map fun u =>
            if u.thread.firing.map (·.id) = some n then { u with thread := { u.thread with held := u.thread.held ++ [⟨6, [a]⟩] } } else u } ∧
        fieldW 59 32 a = fieldW 59 32 w ∧
        match s.fabricReg (fieldW 55 52 w) (fieldW 51 40 w) (fieldW 39 32 w) with
        | some x => fieldW 63 60 a = 0 ∧ fieldW 31 0 a = x.toNat
        | none => fieldW 63 60 a = 1 ∧ fieldW 31 0 a = 0

/-- Lane groups wake; the fabric's registers; logs 37, 38, 39 and 79 name the model's own choices. -/
def Obligations.FabricRegistersAndWakes : Prop :=
  Sys2Proof.Spec.LaneGroupsWake ∧ Sys2Proof.Spec.FabricRegisters ∧ Sys2Proof.Spec.SavedContextsAnswered

/-! ## Encoding, the step and reset (spec/03_encoding.md R33 to R41, R47 to R56; spec/29_service.md R365, R368) -/

/-- Decode and encode agree on the instructions of some pages: every operand, at every value that the encoding admits, and
every stall count come back (R33 to R41, R47 to R50). -/
def Sys2Proof.Spec.RoundTrips (pages : List Nat) : Prop :=
  ∀ (i : Instr) (stall : BitVec 8) (page op : Nat) (e : Enc),
    encParts i = some (page, op, e) → page ∈ pages → (∀ w c, i ≠ .ill w c) → i.encodable stall = true →
    decodeWords (encode i stall) = .ok ⟨i, stall, (encode i stall).length⟩

/-- Decode and encode agree on page 0, the core instructions; a word of slot 0 is ILL with its own bits (R55). -/
def Sys2Proof.Spec.CorePageRoundTrips : Prop :=
  Sys2Proof.Spec.RoundTrips [0] ∧
  ∀ code : IWord, opOf code = 0 → decodeWords (encode (.ill 0 code) 0) = .ok ⟨.ill 0 code, (code >>> 14).setWidth 8, 1⟩

/-- Decode and encode agree on page 1, bit, capability and floating-point instructions, and on page 2, the vector engine. -/
def Sys2Proof.Spec.ArithmeticPagesRoundTrip : Prop := Sys2Proof.Spec.RoundTrips [1, 2]

/-- Decode and encode agree on pages 3 to 7: ports, memory, engines, work graphs, traps and supervisor instructions. -/
def Obligations.SystemPagesRoundTrip : Prop := Sys2Proof.Spec.RoundTrips [3, 4, 5, 6, 7]

/-- Words written out from the encodings of R34, R35 and R56 decode to what they stand for. -/
def Obligations.WordsDecode : Prop :=
  -- ADD g3, g3, g5 with SC 2: SC 10, OP 00100, a 0011, b 0101, m 0
  decodeWords [0b1000100001101010] = .ok ⟨.add 3 3 5, 2, 1⟩ ∧
  -- MOVI g1, -3: PFX.I 111111111, then OP 00011, a 0001, i 11101
  decodeWords [0b0011111111111111, 0b0000011000111101] = .ok ⟨.movi 1 (-3), 0, 2⟩ ∧
  -- SEL g9, p5, g2, g17: form D, PFX.R ah 01, bh 00, c 10001; a 001, b 010, c 101
  decodeWords [0b0111111010010001, 0b0010000001010101] = .ok ⟨.sel 9 5 2 17, 0, 2⟩ ∧
  -- LD.W g20, [c4 + 8]: PFX.I 8, PFX.R ah 01, PFX.M size 011; OP 10001, a 0100, b 0100, m 1
  decodeWords [0b0011111000001000, 0b0111111010000000, 0b1111111011000000, 0b0010001010001001] =
    .ok ⟨.ld (some .w) 20 ⟨4, .imm 8⟩, 0, 4⟩ ∧
  -- FADD.RZ.BF16 g4, g1, g2 with stall 5: PFX.P page 001, s 000001; PFX.R c 00010; PFX.M rounding 001, element 0110
  decodeWords [0b1011111001000001, 0b0111111000000010, 0b1111111001011000, 0b0110011010000010] =
    .ok ⟨.fadd .rz .bf16 4 1 2, 5, 4⟩ ∧
  -- VADD v1, v2, v3 under m5, zeroing: PFX.P page 010; PFX.R ah 10, bh 10, c 00011; OP 00100, m 1
  decodeWords [0b1011111010000000, 0b0111111101000011, 0b0000100000100101] = .ok ⟨.vadd .rne .fp32 1 2 3 ⟨5, true⟩, 0, 3⟩ ∧
  -- FIRE g7, g9: PFX.P page 011; OP 00101, a 0111, b 1001
  decodeWords [0b1011111011000000, 0b0000101011110010] = .ok ⟨.fire 7 9, 0, 2⟩ ∧
  -- RGET c1, c2, g3 without a counter: PFX.P page 100; PFX.R c 00011; OP 01001
  decodeWords [0b1011111100000000, 0b0111111000000011, 0b0001001000100100] = .ok ⟨.rget .core 1 2 3 0, 0, 3⟩ ∧
  -- MZERO t2: PFX.P page 101; OP 00100, a 0010
  decodeWords [0b1011111101000000, 0b0000100001000000] = .ok ⟨.mzero 2, 0, 2⟩ ∧
  -- TRAV c3, c4: PFX.P page 110; OP 00000
  decodeWords [0b1011111110000000, 0b0000000001101000] = .ok ⟨.trav 3 4, 0, 2⟩ ∧
  -- SRD g2, 9: PFX.P page 111; OP 00010, a 0010, i 01001
  decodeWords [0b1011111111000000, 0b0000010001001001] = .ok ⟨.srd 2 9, 0, 2⟩

/-- ILL and reserved slots in decoding (R53, R55): a page-0 base word with OP 0 is ILL, with the word's index and bits, whatever
other faults its bundle has; a reserved slot of a page is refused with reason 0 at the base word, whatever else is wrong; a fifth
prefix word (trap 0x02) comes before both, and so does a fetch that fails. -/
def Sys2Proof.Spec.IllAndReservedSlots : Prop :=
  (∀ ws x, splitBundle 4 [] ws = .ok x → x.page = 0 → opOf x.base = 0 →
    ∃ b w, decodeWords ws = .ok b ∧ b.instr = .ill w x.base ∧ w.val = x.pre.length) ∧
  (∀ ws x, splitBundle 4 [] ws = .ok x → 3 ≤ x.page → [31, 31, 31, 14, 18, 12, 8, 15].getD x.page 0 ≤ opOf x.base →
    decodeWords ws = .error (.illegal 0 x.pre.length x.base)) ∧
  (∀ n c, tvalDec (.illegal 0 n c) = (0x01, BitVec.ofNat 64 (n % 8 * 2 ^ 16 + c.toNat))) ∧
  (∀ (a b c d e : IWord) (rest : List IWord), (∀ w ∈ [a, b, c, d, e], opOf w = 31) →
    decodeWords (a :: b :: c :: d :: e :: rest) = .error (.chain e)) ∧
  ∀ (s s2 : State) (core ctx : Nat) (e : Stop),
    let s1 := { s with cur := Cur.at_ core ctx, last := smPut s.last core ctx }
    s1.th.mustDeliver = false → s1.th.run = none → fetchBundle s1 = .error e s2 →
    s.issueAt core ctx = .next (s2.stopped e)

/-- A step in which a context issues (R33, R54, R157): the words of its bundle, once they decode, execute as the instruction that
they decode to, at the thread whose fixed-latency results that are due have arrived; words that do not decode take the trap and TVAL
of R53, or those of the least reason that the team or the mode gives, where that is smaller (log 11); a fetch that fails takes its own trap. What follows of itself is `settleAll`. That the schedule names the context that
issues is the model's (log 1). -/
def Obligations.StepRunsDecoded : Prop :=
  ∀ (s : State) (core ctx : Nat) (rest : List Turn),
    let s1 := { s with clock := s.clock + 1, sched := rest, cur := Cur.at_ core ctx, last := smPut s.last core ctx }
    s.boot = .running → s.sched = .issue core ctx :: rest → (s.thread (tidOf core ctx)).status = .running →
    s1.th.mustDeliver = false → s1.th.run = none →
    (∀ ws s2, fetchBundle s1 = .ok ws s2 →
      (∀ b, decodeWords ws = .ok b →
        let s3 := { s2 with cur := Cur.ofBundle core ctx b (ws.getLastD 0) }
        (s3.th.returning b.instr).isSome = false → s3.legal b.instr = none → s3.th.breakAt b.words = none →
        s3.th.earlyTrap (s3.th.reads b.instr) = none →
        step s = settleAll (exec b.instr (s3.settled b.instr))) ∧
      ∀ e, decodeWords ws = .error e →
        let s3 := { s2 with cur := Cur.ofWords core ctx ws }
        ∃ c tval, step s = settleAll (.next (s3.trapsAt c tval)) ∧
          ((∀ x, splitBundle 4 [] ws = .ok x → s3.legal (decodeRaw x).2 = none) → (c, tval) = tvalDec e) ∧
          ∀ x r w code v, splitBundle 4 [] ws = .ok x → e = .illegal r w code → s3.legal (decodeRaw x).2 = some (1, v) →
            (fieldW 23 20 v < r → (c, tval) = (1, v)) ∧ (r < fieldW 23 20 v → (c, tval) = tvalDec e)) ∧
    ∀ e s2, fetchBundle s1 = .error e s2 → step s = settleAll (.next (s2.stopped e))

/-- Fetching a word (R33, R82, R122, R182): outside PCC's rights or bounds it takes its trap with the address of the word; else the word is
two bytes, low byte first, of the line that the cluster's instruction cache filled for the launch, or of the home of its address
where it holds none; poison takes trap 0x0F. That bit 0 of PCC's offset is dropped (log 53), and that a cached line serves a launch by
the time of its fill (log 54), are the model's choices. -/
def Obligations.FetchReadsCode : Prop :=
  ∀ (s s1 : State) (i a : Nat) (e : TlbEntry),
    let t := s.th
    let o := t.pc / 2 * 2 + 2 * i
    let x := t.pcc.w1.getLsbD 5
    (t.pcc.tag = false → fetchWord i s = .error (.trap 0x04 (BitVec.ofNat 64 o)) s) ∧
    (t.pcc.tag = true → x = false → fetchWord i s = .error (.trap 0x06 (BitVec.ofNat 64 o)) s) ∧
    let began := ((s.launch? t.launchId).bind (·.began)).getD 0
    (t.pcc.tag = true → x = true → (o < capBase t.pcc ∨ capTop t.pcc < (o + 2 : Nat)) →
      fetchWord i s = .error (.trap 0x05 (BitVec.ofNat 64 o)) s) ∧
    (t.pcc.tag = true → x = true → capBase t.pcc ≤ o → (o + 2 : Nat) ≤ capTop t.pcc → s.bodyOf t = none → codeHome o s = .ok (a, e) s1 →
      (∀ l, s.codeLine (coreCluster s.cur.core) (capObj t.pcc) o began = some l → began ≤ l.made ∧
        (o % 64 / 8 ∈ l.poison → fetchWord i s = .error (.trap 0x0F (BitVec.ofNat 64 o)) s1) ∧
        (o % 64 / 8 ∉ l.poison → l.bytes.length = 64 →
          fetchWord i s = .ok (l.bytes.getD (o % 64 + 1) 0 ++ l.bytes.getD (o % 64) 0) s1)) ∧
      (s.codeLine (coreCluster s.cur.core) (capObj t.pcc) o began = none →
        (s1.poisoned a 2 = true → fetchWord i s = .error (.trap 0x0F (BitVec.ofNat 64 o)) s1) ∧
        (s1.poisoned a 2 = false → isForeign a = false → o % 64 ≤ a →
          ∃ s2, fetchWord i s = .ok (memByte s1.mem (a + 1) ++ memByte s1.mem a) s2 ∧ s2.mem = s1.mem)))

/-- Reset (R368 and the maps of R224, R225, R248, R352, R361, R364, R367, R369): the module is in reset, lane groups have width 3 and
QTHR 64, every die's registers and the module's hold their reset values, no launch and no firing is there. The model's own choices:
memory reads zero and has no tags (log 2); no poison, what an idle context holds, and ring numbers beyond the map (log 3); and a step in
reset that only moves the clock (logs 1 and 57). -/
def Sys2Proof.Spec.ResetState : Prop :=
  let s := State.reset
  s.boot = .inReset ∧ s.poison = [] ∧ s.launches = [] ∧ s.pwrbud = 5000 ∧ s.attest = 0 ∧ s.fabric.torus = 0 ∧
  (∀ n, s.thread n = Thread.init ∧ (s.thread n).firing = none ∧ (s.thread n).status = .free ∧ (s.thread n).tctl = 0 ∧
    (s.thread n).tcause = 0 ∧ (s.thread n).lpst = 0 ∧ (s.thread n).mcx = 0) ∧
  (∀ n, (s.group n).lgctl = 0x333 ∧ (s.group n).qthr = 64 ∧ (s.group n).linkerr = 0 ∧ (s.group n).txq = []) ∧
  (∀ f w, w < 32 → s.ringOf f w = w ∧ smGet 0 s.fabric.heat (32 * f + w) = 0) ∧
  (∀ d, d < 4 → s.dieReg d 0 = some 0 ∧ s.dieReg d 1 = some (1000 * 2 ^ 32 + 4 * 2 ^ 24 + 256) ∧ s.dieReg d 2 = some 2000 ∧
    s.dieReg d 3 = some 0 ∧ s.dieReg d 4 = some 0 ∧ s.dieReg d 5 = some (2 * 2 ^ 40) ∧ s.dieReg d 6 = some 0 ∧
    ∀ k, k < 64 → s.dieReg d (0x100 + k) = some 0 ∧ s.dieReg d (0x200 + k) = some 0) ∧
  (∀ a, memByte s.mem a = 0) ∧ s.tags = [] ∧
  step s = .next { s with clock := 1 }

/-- A step of a module that is not running (R365, R368): with nothing scheduled, a module that a fatal error stopped stays stopped, by the
model's fault moduleStopped (log 57), and one in reset does nothing (log 57); no bundle issues, whatever context the schedule names. A
turn moves the clock by one, the model's choice (log 1). -/
def Obligations.StoppedModuleIssuesNothing : Prop :=
  ∀ (s : State) (core ctx : Nat) (rest : List Turn),
    (s.boot = .stopped → s.sched = [] → step s = .fault .moduleStopped) ∧
    (s.boot = .inReset → s.sched = [] → step s = .next { s with clock := s.clock + 1 }) ∧
    (s.boot ≠ .running → s.sched = .issue core ctx :: rest →
      step s = .next { s with clock := s.clock + 1, sched := rest })

/-- Memory keeps its one canonical form (the model's, so that equal memories are equal data): every step from a state that has it
gives a state that has it. -/
def Obligations.StepKeepsMemoryCanonical : Prop := Kept State.memCanonical

/-- Reset has the canonical memory. -/
def Sys2Proof.Spec.ResetMemoryCanonical : Prop := State.reset.memCanonical

/-- Decode of encode is the instruction, pages 0 to 2. -/
def Obligations.CorePagesRoundTrip : Prop :=
  Sys2Proof.Spec.CorePageRoundTrips ∧ Sys2Proof.Spec.ArithmeticPagesRoundTrip

/-- ILL, reserved slots and supervisor instructions in user code. -/
def Obligations.IllegalInstructions : Prop :=
  Sys2Proof.Spec.IllAndReservedSlots ∧ Sys2Proof.Spec.SupervisorInstructionsTrapInUserCode

/-- The module right after reset; logs 1, 2, 3 and 57 name the model's own choices in it. -/
def Obligations.ResetState : Prop :=
  Sys2Proof.Spec.ResetState ∧ Sys2Proof.Spec.ResetMemoryCanonical
end

