-- ==== Sys2Proof/Laws/Table.lean ====
section
/-!
SUPPORT. The laws of sparse tables: what a table reads as after a write, and that a write keeps the keys rising.
-/

namespace Sys2Proof.Machine

variable {α : Type}

@[simp] theorem smFind_nil (k : Nat) : smFind ([] : SMap α) k = none := rfl

@[simp] theorem smGet_nil (d : α) (k : Nat) : smGet d [] k = d := rfl

@[simp] theorem smFind_smPut_self (m : SMap α) (k : Nat) (v : α) : smFind (smPut m k v) k = some v := by
  induction m with
  | nil => simp [smPut, smFind]
  | cons e t ih =>
    obtain ⟨j, w⟩ := e
    simp only [smPut]
    split
    · simp [smFind]
    · split
      · simp [smFind]
      · simp [smFind, *]

theorem smFind_smPut_other (m : SMap α) (k j : Nat) (v : α) (h : j ≠ k) : smFind (smPut m k v) j = smFind m j := by
  induction m with
  | nil => simp [smPut, smFind, h]
  | cons e t ih =>
    obtain ⟨i, w⟩ := e
    simp only [smPut]
    split
    · simp [smFind, h]
    · split
      · subst_vars
        simp [smFind, h]
      · simp only [smFind, ih]

@[simp] theorem smGet_smPut_self (d : α) (m : SMap α) (k : Nat) (v : α) : smGet d (smPut m k v) k = v := by
  simp [smGet]

theorem smGet_smPut_other (d : α) (m : SMap α) (k j : Nat) (v : α) (h : j ≠ k) :
    smGet d (smPut m k v) j = smGet d m j := by
  simp [smGet, smFind_smPut_other m k j v h]

theorem smFind_smDel_self (m : SMap α) (k : Nat) : smFind (smDel m k) k = none := by
  induction m with
  | nil => rfl
  | cons e t ih =>
    obtain ⟨j, w⟩ := e
    simp only [smDel]
    split
    · exact ih
    · simp [smFind, *]

theorem smFind_smDel_other (m : SMap α) (k j : Nat) (h : j ≠ k) : smFind (smDel m k) j = smFind m j := by
  induction m with
  | nil => rfl
  | cons e t ih =>
    obtain ⟨i, w⟩ := e
    simp only [smDel]
    split
    · subst_vars
      simp [smFind, h, ih]
    · simp only [smFind, ih]

/-- A table that lists nothing equal to its default, read after a write. -/
@[simp] theorem smGet_smSet_self [DecidableEq α] (d : α) (m : SMap α) (k : Nat) (v : α) :
    smGet d (smSet d m k v) k = v := by
  unfold smSet
  split
  · simp [smGet, smFind_smDel_self, *]
  · simp

theorem smGet_smSet_other [DecidableEq α] (d : α) (m : SMap α) (k j : Nat) (v : α) (h : j ≠ k) :
    smGet d (smSet d m k v) j = smGet d m j := by
  unfold smSet
  split
  · simp [smGet, smFind_smDel_other m k j h]
  · exact smGet_smPut_other d m k j v h

/-! ## Rising keys -/

/-- The keys of a table are above a bound and rise. -/
theorem smSorted_cons (a : Nat) (v : α) (t : SMap α) :
    smSorted ((a, v) :: t) = true ↔ (∀ e ∈ t, a < e.1) ∧ smSorted t = true := by
  induction t generalizing a v with
  | nil => simp [smSorted]
  | cons e t ih =>
    obtain ⟨b, w⟩ := e
    simp only [smSorted, Bool.and_eq_true, decide_eq_true_eq, List.mem_cons, forall_eq_or_imp]
    constructor
    · rintro ⟨hab, hs⟩
      have := (ih b w).1 hs
      exact ⟨⟨hab, fun e he => Nat.lt_trans hab (this.1 e he)⟩, hs⟩
    · rintro ⟨⟨hab, _⟩, hs⟩
      exact ⟨hab, hs⟩

theorem mem_smPut (m : SMap α) (k : Nat) (v : α) (e : Nat × α) (h : e ∈ smPut m k v) : e = (k, v) ∨ e ∈ m := by
  induction m with
  | nil => simpa [smPut] using h
  | cons x t ih =>
    obtain ⟨j, w⟩ := x
    simp only [smPut] at h
    split at h
    · simpa using h
    · split at h
      · simp only [List.mem_cons] at h ⊢
        tauto
      · simp only [List.mem_cons] at h ⊢
        rcases h with h | h
        · tauto
        · rcases ih h with h | h <;> tauto

theorem mem_smDel (m : SMap α) (k : Nat) (e : Nat × α) (h : e ∈ smDel m k) : e ∈ m := by
  induction m with
  | nil => simp [smDel] at h
  | cons x t ih =>
    obtain ⟨j, w⟩ := x
    simp only [smDel] at h
    split at h
    · exact List.mem_cons_of_mem _ (ih h)
    · simp only [List.mem_cons] at h ⊢
      rcases h with h | h
      · tauto
      · exact .inr (ih h)

theorem smSorted_smPut (m : SMap α) (k : Nat) (v : α) (h : smSorted m = true) : smSorted (smPut m k v) = true := by
  induction m with
  | nil => rfl
  | cons x t ih =>
    obtain ⟨j, w⟩ := x
    have hc := (smSorted_cons j w t).1 h
    simp only [smPut]
    split
    · rename_i hk
      refine (smSorted_cons k v _).2 ⟨?_, h⟩
      intro e he
      rcases List.mem_cons.1 he with he | he
      · simpa [he] using hk
      · exact Nat.lt_trans hk (hc.1 e he)
    · split
      · subst_vars
        exact (smSorted_cons _ v t).2 hc
      · refine (smSorted_cons j w _).2 ⟨?_, ih hc.2⟩
        intro e he
        rcases mem_smPut t k v e he with he | he
        · subst he
          simp only
          omega
        · exact hc.1 e he

theorem smSorted_smDel (m : SMap α) (k : Nat) (h : smSorted m = true) : smSorted (smDel m k) = true := by
  induction m with
  | nil => rfl
  | cons x t ih =>
    obtain ⟨j, w⟩ := x
    have hc := (smSorted_cons j w t).1 h
    simp only [smDel]
    split
    · exact ih hc.2
    · exact (smSorted_cons j w _).2 ⟨fun e he => hc.1 e (mem_smDel t k e he), ih hc.2⟩

end Sys2Proof.Machine
end

