-- ==== Sys2Proof/Laws/Memory.lean ====
section
/-!
SUPPORT. The laws of memory: a byte written reads back and no other byte changes; every operation that changes memory keeps
its canonical form (log 2).
-/

namespace Sys2Proof.Machine

/-! ## One byte -/

@[simp] theorem memByte_memPut_self (m : List Host.Cell) (a : Nat) (b : Byte) : memByte (memPut m a b) a = b := by
  simp [memByte, memPut]

theorem memByte_memPut_other (m : List Host.Cell) (a k : Nat) (b : Byte) (h : k ≠ a) :
    memByte (memPut m a b) k = memByte m k :=
  smGet_smSet_other unlisted m a k b h

theorem memWf_iff (m : List Host.Cell) : memWf m = true ↔ smSorted m = true ∧ ∀ c ∈ m, c.2 ≠ unlisted := by
  simp [memWf]

theorem memWf_memPut (m : List Host.Cell) (a : Nat) (b : Byte) (h : memWf m = true) : memWf (memPut m a b) = true := by
  rw [memWf_iff] at h ⊢
  unfold memPut smSet
  split
  · exact ⟨smSorted_smDel m a h.1, fun c hc => h.2 c (mem_smDel m a c hc)⟩
  · rename_i hb
    refine ⟨smSorted_smPut m a b h.1, fun c hc => ?_⟩
    rcases mem_smPut m a b c hc with hc | hc
    · rw [hc]
      exact hb
    · exact h.2 c hc

/-! ## Runs of bytes -/

theorem memWf_memPutBytes (bs : List Byte) (m : List Host.Cell) (a : Nat) (h : memWf m = true) :
    memWf (memPutBytes m a bs) = true := by
  induction bs generalizing m a with
  | nil => exact h
  | cons b t ih => exact ih _ _ (memWf_memPut m a b h)

theorem memByte_memPutBytes_outside (bs : List Byte) (m : List Host.Cell) (a k : Nat) (h : k < a ∨ a + bs.length ≤ k) :
    memByte (memPutBytes m a bs) k = memByte m k := by
  induction bs generalizing m a with
  | nil => rfl
  | cons b t ih =>
    simp only [List.length_cons] at h
    rw [memPutBytes, ih _ _ (by omega)]
    exact memByte_memPut_other m a k b (by omega)

theorem memByte_memPutBytes_inside (bs : List Byte) (m : List Host.Cell) (a i : Nat) (h : i < bs.length) :
    memByte (memPutBytes m a bs) (a + i) = bs[i] := by
  induction bs generalizing m a i with
  | nil => simp at h
  | cons b t ih =>
    cases i with
    | zero => rw [memPutBytes, memByte_memPutBytes_outside _ _ _ _ (by omega)]; simp
    | succ i =>
      have := ih (memPut m a b) (a + 1) i (by simpa using h)
      rw [memPutBytes, show a + (i + 1) = a + 1 + i by omega, this]
      rfl

@[simp] theorem length_memBytes (m : List Host.Cell) (a n : Nat) : (memBytes m a n).length = n := by
  induction n generalizing a with
  | zero => rfl
  | succ n ih => simp [memBytes, ih]

/-- Bytes written read back. -/
theorem memBytes_memPutBytes (bs : List Byte) (m : List Host.Cell) (a : Nat) :
    memBytes (memPutBytes m a bs) a bs.length = bs := by
  induction bs generalizing m a with
  | nil => rfl
  | cons b t ih =>
    simp only [memPutBytes, List.length_cons, memBytes, ih]
    rw [memByte_memPutBytes_outside _ _ _ _ (by omega)]
    simp

/-! ## Numbers in bytes (R13) -/

@[simp] theorem length_leBytes (n v : Nat) : (leBytes n v).length = n := by
  induction n generalizing v with
  | zero => rfl
  | succ n ih => simp [leBytes, ih]

theorem leNat_leBytes (n v : Nat) : leNat (leBytes n v) = v % 256 ^ n := by
  induction n generalizing v with
  | zero => simp [leBytes, leNat, Nat.mod_one]
  | succ n ih =>
    rw [leBytes, leNat, ih, BitVec.toNat_ofNat, show 2 ^ 8 = 256 from rfl, Nat.pow_succ, Nat.mul_comm (256 ^ n) 256,
      Nat.mod_mul]

/-! ## Writes at a home -/

theorem wakeWith_mem (s : State) (t : Nat) (v : Word) : (s.wakeWith t v).mem = s.mem := by
  unfold State.wakeWith
  dsimp only
  split <;> rfl

theorem wakeCounters_mem (s : State) (a n : Nat) : (s.wakeCounters a n).mem = s.mem := by
  unfold State.wakeCounters
  have h : ∀ (l : List WaitEntry) (s : State) (f : State → WaitEntry → State), (∀ s e, (f s e).mem = s.mem) →
      (l.foldl f s).mem = s.mem := by
    intro l
    induction l with
    | nil => intros; rfl
    | cons x t ih => intro s f hf; rw [List.foldl_cons, ih _ _ hf, hf]
  rw [h _ _ _ (fun s e => wakeWith_mem _ _ _)]

theorem sendPacket_mem (s : State) (src a : Nat) (b : List Byte) : (s.sendPacket src a b).mem = s.mem := rfl

/-- Memory after a write at a home of this module. -/
theorem homeWrite_mem (s : State) (src a : Nat) (bs : List Byte) (h : isForeign a = false) :
    (s.homeWrite src a bs).mem = memPutBytes s.mem a bs := by
  unfold State.homeWrite
  split
  · rename_i hb
    rw [hb]
    rfl
  · simp [h, wakeCounters_mem]

/-- A write at a home keeps the canonical form. -/
theorem homeWrite_canonical (s : State) (src a : Nat) (bs : List Byte) (h : memWf s.mem = true) :
    memWf (s.homeWrite src a bs).mem = true := by
  cases hf : isForeign a with
  | false =>
    rw [homeWrite_mem s src a bs hf]
    exact memWf_memPutBytes bs s.mem a h
  | true =>
    unfold State.homeWrite
    split
    · exact h
    · have hl : ∀ (l : List (Nat × List Byte)) (s : State),
          (l.foldl (fun s p => s.sendPacket src p.1 p.2) s).mem = s.mem := by
        intro l
        induction l with
        | nil => intro s; rfl
        | cons x t ih => intro s; rw [List.foldl_cons, ih, sendPacket_mem]
      rw [hl]
      exact h

/-- Every byte outside a write at a home of this module reads as before. -/
theorem homeWrite_outside (s : State) (src a k : Nat) (bs : List Byte) (h : isForeign a = false)
    (hk : k < a ∨ a + bs.length ≤ k) : memByte (s.homeWrite src a bs).mem k = memByte s.mem k := by
  rw [homeWrite_mem s src a bs h]
  exact memByte_memPutBytes_outside bs s.mem a k hk

/-! ## The other operations that change memory -/

theorem memWf_copyFrame (m : List Host.Cell) (f g : Nat) (h : memWf m = true) : memWf (copyFrame m f g) = true := by
  have hs : ∀ (l : List Host.Cell) (p : Host.Cell → Bool), memWf l = true → memWf (l.filter p) = true := by
    intro l p hl
    rw [memWf_iff] at hl ⊢
    refine ⟨?_, fun c hc => hl.2 c (List.mem_filter.1 hc).1⟩
    have h1 := hl.1
    clear hl h
    induction l with
    | nil => rfl
    | cons e t ih =>
      obtain ⟨k, v⟩ := e
      have hc := (smSorted_cons k v t).1 h1
      rw [List.filter_cons]
      split
      · exact (smSorted_cons k v _).2 ⟨fun e he => hc.1 e (List.mem_filter.1 he).1, ih hc.2⟩
      · exact ih hc.2
  have hf : ∀ (l : List Host.Cell) (m : List Host.Cell), memWf m = true →
      memWf (l.foldl (fun m c => memPut m (g * 65536 + c.1 % 65536) c.2) m) = true := by
    intro l
    induction l with
    | nil => intro m hm; exact hm
    | cons x t ih => intro m hm; exact ih _ (memWf_memPut _ _ _ hm)
  exact hf _ _ (hs _ _ h)

/-- The tag that a home of this module answers with. -/
theorem homeTag_here (s : State) (a : Nat) (h : isForeign a = false) : s.homeTag a = (s.tagAt a, s) := by
  simp [State.homeTag, h]

theorem reset_canonical : memWf State.reset.mem = true := rfl

end Sys2Proof.Machine
end

