-- ==== Sys2Proof/Laws/Next.lean ====
section
/-!
SUPPORT. Every instruction and every event of the device answers a next state: no meaning stops the machine. So a bundle that executes
again (R118, R158) completes wherever its instruction does.
-/

namespace Sys2Proof.Machine

/-- A body of a meaning answers a next state: its own, or that of its stop. -/
theorem run_answers (b : M Unit) (s : State) : ∃ t, run b s = .next t := by
  unfold run
  split <;> exact ⟨_, rfl⟩

/-- An event answers a next state. -/
theorem event_answers (f : State → State) (s : State) : ∃ t, event f s = .next t := ⟨_, rfl⟩

/-- FENCE answers a next state. -/
theorem fence_answers (k : FenceKinds) (sc : Scope) (s : State) : ∃ t, execFence k sc s = .next t := by
  unfold execFence
  split <;> exact ⟨_, rfl⟩

/-- An arithmetic instruction of the vector engine answers a next state. -/
theorem vArith2_answers (r : Rnd) (e : Elem) (d x y : VReg) (vm : VM) (fi : Nat → Nat → Nat)
    (ff : FFmt → Rnd → BitVec 32 → Nat → Nat → Nat) (s : State) : ∃ t, vArith2 r e d x y vm fi ff s = .next t := by
  simp only [vArith2]
  split <;> exact ⟨_, rfl⟩

/-- A bundle's instruction answers a next state. -/
theorem issue_answers (i : Instr) (s : State) : ∃ t, issue i s = .next t := by
  cases i
  case vadd r e d x y vm => exact vArith2_answers r e d x y vm (fun a b => a + b) fAdd s
  case vsub r e d x y vm => exact vArith2_answers r e d x y vm (fun a b => a + (2 ^ velemWidth e - b)) fSub s
  case vmul r e d x y vm => exact vArith2_answers r e d x y vm (fun a b => a * b) fMul s
  case fence => exact fence_answers _ _ _
  all_goals first
    | exact run_answers _ _
    | exact ⟨_, rfl⟩

/-- A micro-operation answers a next state. -/
theorem micro_answers (r : MacroRun) (s : State) : ∃ t, s.micro r = .next t := by
  simp only [State.micro]
  split
  · exact ⟨_, rfl⟩
  · split
    · exact ⟨_, rfl⟩
    · split
      · exact ⟨_, rfl⟩
      · split
        · exact ⟨_, rfl⟩
        · split
          · exact ⟨_, rfl⟩
          · split
            · exact ⟨_, rfl⟩
            · rename_i h
              obtain ⟨t, ht⟩ := issue_answers _ _
              rw [ht] at h
              cases h
            · rename_i h
              obtain ⟨t, ht⟩ := issue_answers _ _
              rw [ht] at h
              cases h

/-- A parked bundle that executes again answers a next state. -/
theorem rerun_answers (tid : Nat) (p : Park) (s : State) : ∃ t, s.rerun tid p = .next t := by
  simp only [State.rerun]
  split
  · exact ⟨_, rfl⟩
  · rename_i h
    obtain ⟨t, ht⟩ := issue_answers _ _
    rw [ht] at h
    cases h
  · rename_i h
    obtain ⟨t, ht⟩ := issue_answers _ _
    rw [ht] at h
    cases h

end Sys2Proof.Machine
end

