-- ==== Sys2Proof/Laws/State.lean ====
section
/-!
SUPPORT. The laws of State and of Thread: what each update leaves, one lemma for each field and update, so that no proof
unfolds a record update.
-/

namespace Sys2Proof.Machine

/-! ## State.setThread -/

@[simp] theorem setThread_mem (s : State) (t : Nat) (x : Thread) : (s.setThread t x).mem = s.mem := rfl
@[simp] theorem setThread_tags (s : State) (t : Nat) (x : Thread) : (s.setThread t x).tags = s.tags := rfl
@[simp] theorem setThread_poison (s : State) (t : Nat) (x : Thread) : (s.setThread t x).poison = s.poison := rfl
@[simp] theorem setThread_bufPoison (s : State) (t : Nat) (x : Thread) : (s.setThread t x).bufPoison = s.bufPoison := rfl
@[simp] theorem setThread_vers (s : State) (t : Nat) (x : Thread) : (s.setThread t x).vers = s.vers := rfl
@[simp] theorem setThread_vbuf (s : State) (t : Nat) (x : Thread) : (s.setThread t x).vbuf = s.vbuf := rfl
@[simp] theorem setThread_waits (s : State) (t : Nat) (x : Thread) : (s.setThread t x).waits = s.waits := rfl
@[simp] theorem setThread_threads (s : State) (t : Nat) (x : Thread) : (s.setThread t x).threads = smPut s.threads t x := rfl
@[simp] theorem setThread_queues (s : State) (t : Nat) (x : Thread) : (s.setThread t x).queues = s.queues := rfl
@[simp] theorem setThread_last (s : State) (t : Nat) (x : Thread) : (s.setThread t x).last = s.last := rfl
@[simp] theorem setThread_teams (s : State) (t : Nat) (x : Thread) : (s.setThread t x).teams = s.teams := rfl
@[simp] theorem setThread_launches (s : State) (t : Nat) (x : Thread) : (s.setThread t x).launches = s.launches := rfl
@[simp] theorem setThread_ended (s : State) (t : Nat) (x : Thread) : (s.setThread t x).ended = s.ended := rfl
@[simp] theorem setThread_torn (s : State) (t : Nat) (x : Thread) : (s.setThread t x).torn = s.torn := rfl
@[simp] theorem setThread_saved (s : State) (t : Nat) (x : Thread) : (s.setThread t x).saved = s.saved := rfl
@[simp] theorem setThread_swept (s : State) (t : Nat) (x : Thread) : (s.setThread t x).swept = s.swept := rfl
@[simp] theorem setThread_notes (s : State) (t : Nat) (x : Thread) : (s.setThread t x).notes = s.notes := rfl
@[simp] theorem setThread_tlb (s : State) (t : Nat) (x : Thread) : (s.setThread t x).tlb = s.tlb := rfl
@[simp] theorem setThread_icache (s : State) (t : Nat) (x : Thread) : (s.setThread t x).icache = s.icache := rfl
@[simp] theorem setThread_loops (s : State) (t : Nat) (x : Thread) : (s.setThread t x).loops = s.loops := rfl
@[simp] theorem setThread_pages (s : State) (t : Nat) (x : Thread) : (s.setThread t x).pages = s.pages := rfl
@[simp] theorem setThread_redirects (s : State) (t : Nat) (x : Thread) : (s.setThread t x).redirects = s.redirects := rfl
@[simp] theorem setThread_notices (s : State) (t : Nat) (x : Thread) : (s.setThread t x).notices = s.notices := rfl
@[simp] theorem setThread_shipq (s : State) (t : Nat) (x : Thread) : (s.setThread t x).shipq = s.shipq := rfl
@[simp] theorem setThread_matrix (s : State) (t : Nat) (x : Thread) : (s.setThread t x).matrix = s.matrix := rfl
@[simp] theorem setThread_xfers (s : State) (t : Nat) (x : Thread) : (s.setThread t x).xfers = s.xfers := rfl
@[simp] theorem setThread_copies (s : State) (t : Nat) (x : Thread) : (s.setThread t x).copies = s.copies := rfl
@[simp] theorem setThread_turns (s : State) (t : Nat) (x : Thread) : (s.setThread t x).turns = s.turns := rfl
@[simp] theorem setThread_reorder (s : State) (t : Nat) (x : Thread) : (s.setThread t x).reorder = s.reorder := rfl
@[simp] theorem setThread_travs (s : State) (t : Nat) (x : Thread) : (s.setThread t x).travs = s.travs := rfl
@[simp] theorem setThread_ncache (s : State) (t : Nat) (x : Thread) : (s.setThread t x).ncache = s.ncache := rfl
@[simp] theorem setThread_served (s : State) (t : Nat) (x : Thread) : (s.setThread t x).served = s.served := rfl
@[simp] theorem setThread_wqueues (s : State) (t : Nat) (x : Thread) : (s.setThread t x).wqueues = s.wqueues := rfl
@[simp] theorem setThread_book (s : State) (t : Nat) (x : Thread) : (s.setThread t x).book = s.book := rfl
@[simp] theorem setThread_tokens (s : State) (t : Nat) (x : Thread) : (s.setThread t x).tokens = s.tokens := rfl
@[simp] theorem setThread_drew (s : State) (t : Nat) (x : Thread) : (s.setThread t x).drew = s.drew := rfl
@[simp] theorem setThread_fabric (s : State) (t : Nat) (x : Thread) : (s.setThread t x).fabric = s.fabric := rfl
@[simp] theorem setThread_dies (s : State) (t : Nat) (x : Thread) : (s.setThread t x).dies = s.dies := rfl
@[simp] theorem setThread_pwrbud (s : State) (t : Nat) (x : Thread) : (s.setThread t x).pwrbud = s.pwrbud := rfl
@[simp] theorem setThread_attest (s : State) (t : Nat) (x : Thread) : (s.setThread t x).attest = s.attest := rfl
@[simp] theorem setThread_host (s : State) (t : Nat) (x : Thread) : (s.setThread t x).host = s.host := rfl
@[simp] theorem setThread_outbox (s : State) (t : Nat) (x : Thread) : (s.setThread t x).outbox = s.outbox := rfl
@[simp] theorem setThread_boot (s : State) (t : Nat) (x : Thread) : (s.setThread t x).boot = s.boot := rfl
@[simp] theorem setThread_supvSpill (s : State) (t : Nat) (x : Thread) : (s.setThread t x).supvSpill = s.supvSpill := rfl
@[simp] theorem setThread_supvId (s : State) (t : Nat) (x : Thread) : (s.setThread t x).supvId = s.supvId := rfl
@[simp] theorem setThread_nextId (s : State) (t : Nat) (x : Thread) : (s.setThread t x).nextId = s.nextId := rfl
@[simp] theorem setThread_clock (s : State) (t : Nat) (x : Thread) : (s.setThread t x).clock = s.clock := rfl
@[simp] theorem setThread_serial (s : State) (t : Nat) (x : Thread) : (s.setThread t x).serial = s.serial := rfl
@[simp] theorem setThread_frees (s : State) (t : Nat) (x : Thread) : (s.setThread t x).frees = s.frees := rfl
@[simp] theorem setThread_cur (s : State) (t : Nat) (x : Thread) : (s.setThread t x).cur = s.cur := rfl
@[simp] theorem setThread_sched (s : State) (t : Nat) (x : Thread) : (s.setThread t x).sched = s.sched := rfl

/-! ## State.setTh -/

@[simp] theorem setTh_mem (s : State) (x : Thread) : (s.setTh x).mem = s.mem := rfl
@[simp] theorem setTh_tags (s : State) (x : Thread) : (s.setTh x).tags = s.tags := rfl
@[simp] theorem setTh_poison (s : State) (x : Thread) : (s.setTh x).poison = s.poison := rfl
@[simp] theorem setTh_bufPoison (s : State) (x : Thread) : (s.setTh x).bufPoison = s.bufPoison := rfl
@[simp] theorem setTh_vers (s : State) (x : Thread) : (s.setTh x).vers = s.vers := rfl
@[simp] theorem setTh_vbuf (s : State) (x : Thread) : (s.setTh x).vbuf = s.vbuf := rfl
@[simp] theorem setTh_waits (s : State) (x : Thread) : (s.setTh x).waits = s.waits := rfl
@[simp] theorem setTh_threads (s : State) (x : Thread) : (s.setTh x).threads = smPut s.threads s.cur.tid x := rfl
@[simp] theorem setTh_queues (s : State) (x : Thread) : (s.setTh x).queues = s.queues := rfl
@[simp] theorem setTh_last (s : State) (x : Thread) : (s.setTh x).last = s.last := rfl
@[simp] theorem setTh_teams (s : State) (x : Thread) : (s.setTh x).teams = s.teams := rfl
@[simp] theorem setTh_launches (s : State) (x : Thread) : (s.setTh x).launches = s.launches := rfl
@[simp] theorem setTh_ended (s : State) (x : Thread) : (s.setTh x).ended = s.ended := rfl
@[simp] theorem setTh_torn (s : State) (x : Thread) : (s.setTh x).torn = s.torn := rfl
@[simp] theorem setTh_saved (s : State) (x : Thread) : (s.setTh x).saved = s.saved := rfl
@[simp] theorem setTh_swept (s : State) (x : Thread) : (s.setTh x).swept = s.swept := rfl
@[simp] theorem setTh_notes (s : State) (x : Thread) : (s.setTh x).notes = s.notes := rfl
@[simp] theorem setTh_tlb (s : State) (x : Thread) : (s.setTh x).tlb = s.tlb := rfl
@[simp] theorem setTh_icache (s : State) (x : Thread) : (s.setTh x).icache = s.icache := rfl
@[simp] theorem setTh_loops (s : State) (x : Thread) : (s.setTh x).loops = s.loops := rfl
@[simp] theorem setTh_pages (s : State) (x : Thread) : (s.setTh x).pages = s.pages := rfl
@[simp] theorem setTh_redirects (s : State) (x : Thread) : (s.setTh x).redirects = s.redirects := rfl
@[simp] theorem setTh_notices (s : State) (x : Thread) : (s.setTh x).notices = s.notices := rfl
@[simp] theorem setTh_shipq (s : State) (x : Thread) : (s.setTh x).shipq = s.shipq := rfl
@[simp] theorem setTh_matrix (s : State) (x : Thread) : (s.setTh x).matrix = s.matrix := rfl
@[simp] theorem setTh_xfers (s : State) (x : Thread) : (s.setTh x).xfers = s.xfers := rfl
@[simp] theorem setTh_copies (s : State) (x : Thread) : (s.setTh x).copies = s.copies := rfl
@[simp] theorem setTh_turns (s : State) (x : Thread) : (s.setTh x).turns = s.turns := rfl
@[simp] theorem setTh_reorder (s : State) (x : Thread) : (s.setTh x).reorder = s.reorder := rfl
@[simp] theorem setTh_travs (s : State) (x : Thread) : (s.setTh x).travs = s.travs := rfl
@[simp] theorem setTh_ncache (s : State) (x : Thread) : (s.setTh x).ncache = s.ncache := rfl
@[simp] theorem setTh_served (s : State) (x : Thread) : (s.setTh x).served = s.served := rfl
@[simp] theorem setTh_wqueues (s : State) (x : Thread) : (s.setTh x).wqueues = s.wqueues := rfl
@[simp] theorem setTh_book (s : State) (x : Thread) : (s.setTh x).book = s.book := rfl
@[simp] theorem setTh_tokens (s : State) (x : Thread) : (s.setTh x).tokens = s.tokens := rfl
@[simp] theorem setTh_drew (s : State) (x : Thread) : (s.setTh x).drew = s.drew := rfl
@[simp] theorem setTh_fabric (s : State) (x : Thread) : (s.setTh x).fabric = s.fabric := rfl
@[simp] theorem setTh_dies (s : State) (x : Thread) : (s.setTh x).dies = s.dies := rfl
@[simp] theorem setTh_pwrbud (s : State) (x : Thread) : (s.setTh x).pwrbud = s.pwrbud := rfl
@[simp] theorem setTh_attest (s : State) (x : Thread) : (s.setTh x).attest = s.attest := rfl
@[simp] theorem setTh_host (s : State) (x : Thread) : (s.setTh x).host = s.host := rfl
@[simp] theorem setTh_outbox (s : State) (x : Thread) : (s.setTh x).outbox = s.outbox := rfl
@[simp] theorem setTh_boot (s : State) (x : Thread) : (s.setTh x).boot = s.boot := rfl
@[simp] theorem setTh_supvSpill (s : State) (x : Thread) : (s.setTh x).supvSpill = s.supvSpill := rfl
@[simp] theorem setTh_supvId (s : State) (x : Thread) : (s.setTh x).supvId = s.supvId := rfl
@[simp] theorem setTh_nextId (s : State) (x : Thread) : (s.setTh x).nextId = s.nextId := rfl
@[simp] theorem setTh_clock (s : State) (x : Thread) : (s.setTh x).clock = s.clock := rfl
@[simp] theorem setTh_serial (s : State) (x : Thread) : (s.setTh x).serial = s.serial := rfl
@[simp] theorem setTh_frees (s : State) (x : Thread) : (s.setTh x).frees = s.frees := rfl
@[simp] theorem setTh_cur (s : State) (x : Thread) : (s.setTh x).cur = s.cur := rfl
@[simp] theorem setTh_sched (s : State) (x : Thread) : (s.setTh x).sched = s.sched := rfl

/-! ## State.setTeam -/

@[simp] theorem setTeam_mem (s : State) (x : Team) : (s.setTeam x).mem = s.mem := rfl
@[simp] theorem setTeam_tags (s : State) (x : Team) : (s.setTeam x).tags = s.tags := rfl
@[simp] theorem setTeam_poison (s : State) (x : Team) : (s.setTeam x).poison = s.poison := rfl
@[simp] theorem setTeam_bufPoison (s : State) (x : Team) : (s.setTeam x).bufPoison = s.bufPoison := rfl
@[simp] theorem setTeam_vers (s : State) (x : Team) : (s.setTeam x).vers = s.vers := rfl
@[simp] theorem setTeam_vbuf (s : State) (x : Team) : (s.setTeam x).vbuf = s.vbuf := rfl
@[simp] theorem setTeam_waits (s : State) (x : Team) : (s.setTeam x).waits = s.waits := rfl
@[simp] theorem setTeam_threads (s : State) (x : Team) : (s.setTeam x).threads = s.threads := rfl
@[simp] theorem setTeam_queues (s : State) (x : Team) : (s.setTeam x).queues = s.queues := rfl
@[simp] theorem setTeam_last (s : State) (x : Team) : (s.setTeam x).last = s.last := rfl
@[simp] theorem setTeam_teams (s : State) (x : Team) : (s.setTeam x).teams = smPut s.teams x.key x := rfl
@[simp] theorem setTeam_launches (s : State) (x : Team) : (s.setTeam x).launches = s.launches := rfl
@[simp] theorem setTeam_ended (s : State) (x : Team) : (s.setTeam x).ended = s.ended := rfl
@[simp] theorem setTeam_torn (s : State) (x : Team) : (s.setTeam x).torn = s.torn := rfl
@[simp] theorem setTeam_saved (s : State) (x : Team) : (s.setTeam x).saved = s.saved := rfl
@[simp] theorem setTeam_swept (s : State) (x : Team) : (s.setTeam x).swept = s.swept := rfl
@[simp] theorem setTeam_notes (s : State) (x : Team) : (s.setTeam x).notes = s.notes := rfl
@[simp] theorem setTeam_tlb (s : State) (x : Team) : (s.setTeam x).tlb = s.tlb := rfl
@[simp] theorem setTeam_icache (s : State) (x : Team) : (s.setTeam x).icache = s.icache := rfl
@[simp] theorem setTeam_loops (s : State) (x : Team) : (s.setTeam x).loops = s.loops := rfl
@[simp] theorem setTeam_pages (s : State) (x : Team) : (s.setTeam x).pages = s.pages := rfl
@[simp] theorem setTeam_redirects (s : State) (x : Team) : (s.setTeam x).redirects = s.redirects := rfl
@[simp] theorem setTeam_notices (s : State) (x : Team) : (s.setTeam x).notices = s.notices := rfl
@[simp] theorem setTeam_shipq (s : State) (x : Team) : (s.setTeam x).shipq = s.shipq := rfl
@[simp] theorem setTeam_matrix (s : State) (x : Team) : (s.setTeam x).matrix = s.matrix := rfl
@[simp] theorem setTeam_xfers (s : State) (x : Team) : (s.setTeam x).xfers = s.xfers := rfl
@[simp] theorem setTeam_copies (s : State) (x : Team) : (s.setTeam x).copies = s.copies := rfl
@[simp] theorem setTeam_turns (s : State) (x : Team) : (s.setTeam x).turns = s.turns := rfl
@[simp] theorem setTeam_reorder (s : State) (x : Team) : (s.setTeam x).reorder = s.reorder := rfl
@[simp] theorem setTeam_travs (s : State) (x : Team) : (s.setTeam x).travs = s.travs := rfl
@[simp] theorem setTeam_ncache (s : State) (x : Team) : (s.setTeam x).ncache = s.ncache := rfl
@[simp] theorem setTeam_served (s : State) (x : Team) : (s.setTeam x).served = s.served := rfl
@[simp] theorem setTeam_wqueues (s : State) (x : Team) : (s.setTeam x).wqueues = s.wqueues := rfl
@[simp] theorem setTeam_book (s : State) (x : Team) : (s.setTeam x).book = s.book := rfl
@[simp] theorem setTeam_tokens (s : State) (x : Team) : (s.setTeam x).tokens = s.tokens := rfl
@[simp] theorem setTeam_drew (s : State) (x : Team) : (s.setTeam x).drew = s.drew := rfl
@[simp] theorem setTeam_fabric (s : State) (x : Team) : (s.setTeam x).fabric = s.fabric := rfl
@[simp] theorem setTeam_dies (s : State) (x : Team) : (s.setTeam x).dies = s.dies := rfl
@[simp] theorem setTeam_pwrbud (s : State) (x : Team) : (s.setTeam x).pwrbud = s.pwrbud := rfl
@[simp] theorem setTeam_attest (s : State) (x : Team) : (s.setTeam x).attest = s.attest := rfl
@[simp] theorem setTeam_host (s : State) (x : Team) : (s.setTeam x).host = s.host := rfl
@[simp] theorem setTeam_outbox (s : State) (x : Team) : (s.setTeam x).outbox = s.outbox := rfl
@[simp] theorem setTeam_boot (s : State) (x : Team) : (s.setTeam x).boot = s.boot := rfl
@[simp] theorem setTeam_supvSpill (s : State) (x : Team) : (s.setTeam x).supvSpill = s.supvSpill := rfl
@[simp] theorem setTeam_supvId (s : State) (x : Team) : (s.setTeam x).supvId = s.supvId := rfl
@[simp] theorem setTeam_nextId (s : State) (x : Team) : (s.setTeam x).nextId = s.nextId := rfl
@[simp] theorem setTeam_clock (s : State) (x : Team) : (s.setTeam x).clock = s.clock := rfl
@[simp] theorem setTeam_serial (s : State) (x : Team) : (s.setTeam x).serial = s.serial := rfl
@[simp] theorem setTeam_frees (s : State) (x : Team) : (s.setTeam x).frees = s.frees := rfl
@[simp] theorem setTeam_cur (s : State) (x : Team) : (s.setTeam x).cur = s.cur := rfl
@[simp] theorem setTeam_sched (s : State) (x : Team) : (s.setTeam x).sched = s.sched := rfl

/-! ## State.setLaunch -/

@[simp] theorem setLaunch_mem (s : State) (x : Launch) : (s.setLaunch x).mem = s.mem := rfl
@[simp] theorem setLaunch_tags (s : State) (x : Launch) : (s.setLaunch x).tags = s.tags := rfl
@[simp] theorem setLaunch_poison (s : State) (x : Launch) : (s.setLaunch x).poison = s.poison := rfl
@[simp] theorem setLaunch_bufPoison (s : State) (x : Launch) : (s.setLaunch x).bufPoison = s.bufPoison := rfl
@[simp] theorem setLaunch_vers (s : State) (x : Launch) : (s.setLaunch x).vers = s.vers := rfl
@[simp] theorem setLaunch_vbuf (s : State) (x : Launch) : (s.setLaunch x).vbuf = s.vbuf := rfl
@[simp] theorem setLaunch_waits (s : State) (x : Launch) : (s.setLaunch x).waits = s.waits := rfl
@[simp] theorem setLaunch_threads (s : State) (x : Launch) : (s.setLaunch x).threads = s.threads := rfl
@[simp] theorem setLaunch_queues (s : State) (x : Launch) : (s.setLaunch x).queues = s.queues := rfl
@[simp] theorem setLaunch_last (s : State) (x : Launch) : (s.setLaunch x).last = s.last := rfl
@[simp] theorem setLaunch_teams (s : State) (x : Launch) : (s.setLaunch x).teams = s.teams := rfl
@[simp] theorem setLaunch_launches (s : State) (x : Launch) : (s.setLaunch x).launches = smPut s.launches x.id x := rfl
@[simp] theorem setLaunch_ended (s : State) (x : Launch) : (s.setLaunch x).ended = s.ended := rfl
@[simp] theorem setLaunch_torn (s : State) (x : Launch) : (s.setLaunch x).torn = s.torn := rfl
@[simp] theorem setLaunch_saved (s : State) (x : Launch) : (s.setLaunch x).saved = s.saved := rfl
@[simp] theorem setLaunch_swept (s : State) (x : Launch) : (s.setLaunch x).swept = s.swept := rfl
@[simp] theorem setLaunch_notes (s : State) (x : Launch) : (s.setLaunch x).notes = s.notes := rfl
@[simp] theorem setLaunch_tlb (s : State) (x : Launch) : (s.setLaunch x).tlb = s.tlb := rfl
@[simp] theorem setLaunch_icache (s : State) (x : Launch) : (s.setLaunch x).icache = s.icache := rfl
@[simp] theorem setLaunch_loops (s : State) (x : Launch) : (s.setLaunch x).loops = s.loops := rfl
@[simp] theorem setLaunch_pages (s : State) (x : Launch) : (s.setLaunch x).pages = s.pages := rfl
@[simp] theorem setLaunch_redirects (s : State) (x : Launch) : (s.setLaunch x).redirects = s.redirects := rfl
@[simp] theorem setLaunch_notices (s : State) (x : Launch) : (s.setLaunch x).notices = s.notices := rfl
@[simp] theorem setLaunch_shipq (s : State) (x : Launch) : (s.setLaunch x).shipq = s.shipq := rfl
@[simp] theorem setLaunch_matrix (s : State) (x : Launch) : (s.setLaunch x).matrix = s.matrix := rfl
@[simp] theorem setLaunch_xfers (s : State) (x : Launch) : (s.setLaunch x).xfers = s.xfers := rfl
@[simp] theorem setLaunch_copies (s : State) (x : Launch) : (s.setLaunch x).copies = s.copies := rfl
@[simp] theorem setLaunch_turns (s : State) (x : Launch) : (s.setLaunch x).turns = s.turns := rfl
@[simp] theorem setLaunch_reorder (s : State) (x : Launch) : (s.setLaunch x).reorder = s.reorder := rfl
@[simp] theorem setLaunch_travs (s : State) (x : Launch) : (s.setLaunch x).travs = s.travs := rfl
@[simp] theorem setLaunch_ncache (s : State) (x : Launch) : (s.setLaunch x).ncache = s.ncache := rfl
@[simp] theorem setLaunch_served (s : State) (x : Launch) : (s.setLaunch x).served = s.served := rfl
@[simp] theorem setLaunch_wqueues (s : State) (x : Launch) : (s.setLaunch x).wqueues = s.wqueues := rfl
@[simp] theorem setLaunch_book (s : State) (x : Launch) : (s.setLaunch x).book = s.book := rfl
@[simp] theorem setLaunch_tokens (s : State) (x : Launch) : (s.setLaunch x).tokens = s.tokens := rfl
@[simp] theorem setLaunch_drew (s : State) (x : Launch) : (s.setLaunch x).drew = s.drew := rfl
@[simp] theorem setLaunch_fabric (s : State) (x : Launch) : (s.setLaunch x).fabric = s.fabric := rfl
@[simp] theorem setLaunch_dies (s : State) (x : Launch) : (s.setLaunch x).dies = s.dies := rfl
@[simp] theorem setLaunch_pwrbud (s : State) (x : Launch) : (s.setLaunch x).pwrbud = s.pwrbud := rfl
@[simp] theorem setLaunch_attest (s : State) (x : Launch) : (s.setLaunch x).attest = s.attest := rfl
@[simp] theorem setLaunch_host (s : State) (x : Launch) : (s.setLaunch x).host = s.host := rfl
@[simp] theorem setLaunch_outbox (s : State) (x : Launch) : (s.setLaunch x).outbox = s.outbox := rfl
@[simp] theorem setLaunch_boot (s : State) (x : Launch) : (s.setLaunch x).boot = s.boot := rfl
@[simp] theorem setLaunch_supvSpill (s : State) (x : Launch) : (s.setLaunch x).supvSpill = s.supvSpill := rfl
@[simp] theorem setLaunch_supvId (s : State) (x : Launch) : (s.setLaunch x).supvId = s.supvId := rfl
@[simp] theorem setLaunch_nextId (s : State) (x : Launch) : (s.setLaunch x).nextId = s.nextId := rfl
@[simp] theorem setLaunch_clock (s : State) (x : Launch) : (s.setLaunch x).clock = s.clock := rfl
@[simp] theorem setLaunch_serial (s : State) (x : Launch) : (s.setLaunch x).serial = s.serial := rfl
@[simp] theorem setLaunch_frees (s : State) (x : Launch) : (s.setLaunch x).frees = s.frees := rfl
@[simp] theorem setLaunch_cur (s : State) (x : Launch) : (s.setLaunch x).cur = s.cur := rfl
@[simp] theorem setLaunch_sched (s : State) (x : Launch) : (s.setLaunch x).sched = s.sched := rfl

/-! ## State.setQueue -/

@[simp] theorem setQueue_mem (s : State) (k : Nat) (x : List QEntry) : (s.setQueue k x).mem = s.mem := rfl
@[simp] theorem setQueue_tags (s : State) (k : Nat) (x : List QEntry) : (s.setQueue k x).tags = s.tags := rfl
@[simp] theorem setQueue_poison (s : State) (k : Nat) (x : List QEntry) : (s.setQueue k x).poison = s.poison := rfl
@[simp] theorem setQueue_bufPoison (s : State) (k : Nat) (x : List QEntry) : (s.setQueue k x).bufPoison = s.bufPoison := rfl
@[simp] theorem setQueue_vers (s : State) (k : Nat) (x : List QEntry) : (s.setQueue k x).vers = s.vers := rfl
@[simp] theorem setQueue_vbuf (s : State) (k : Nat) (x : List QEntry) : (s.setQueue k x).vbuf = s.vbuf := rfl
@[simp] theorem setQueue_waits (s : State) (k : Nat) (x : List QEntry) : (s.setQueue k x).waits = s.waits := rfl
@[simp] theorem setQueue_threads (s : State) (k : Nat) (x : List QEntry) : (s.setQueue k x).threads = s.threads := rfl
@[simp] theorem setQueue_queues (s : State) (k : Nat) (x : List QEntry) : (s.setQueue k x).queues = smPut s.queues k x := rfl
@[simp] theorem setQueue_last (s : State) (k : Nat) (x : List QEntry) : (s.setQueue k x).last = s.last := rfl
@[simp] theorem setQueue_teams (s : State) (k : Nat) (x : List QEntry) : (s.setQueue k x).teams = s.teams := rfl
@[simp] theorem setQueue_launches (s : State) (k : Nat) (x : List QEntry) : (s.setQueue k x).launches = s.launches := rfl
@[simp] theorem setQueue_ended (s : State) (k : Nat) (x : List QEntry) : (s.setQueue k x).ended = s.ended := rfl
@[simp] theorem setQueue_torn (s : State) (k : Nat) (x : List QEntry) : (s.setQueue k x).torn = s.torn := rfl
@[simp] theorem setQueue_saved (s : State) (k : Nat) (x : List QEntry) : (s.setQueue k x).saved = s.saved := rfl
@[simp] theorem setQueue_swept (s : State) (k : Nat) (x : List QEntry) : (s.setQueue k x).swept = s.swept := rfl
@[simp] theorem setQueue_notes (s : State) (k : Nat) (x : List QEntry) : (s.setQueue k x).notes = s.notes := rfl
@[simp] theorem setQueue_tlb (s : State) (k : Nat) (x : List QEntry) : (s.setQueue k x).tlb = s.tlb := rfl
@[simp] theorem setQueue_icache (s : State) (k : Nat) (x : List QEntry) : (s.setQueue k x).icache = s.icache := rfl
@[simp] theorem setQueue_loops (s : State) (k : Nat) (x : List QEntry) : (s.setQueue k x).loops = s.loops := rfl
@[simp] theorem setQueue_pages (s : State) (k : Nat) (x : List QEntry) : (s.setQueue k x).pages = s.pages := rfl
@[simp] theorem setQueue_redirects (s : State) (k : Nat) (x : List QEntry) : (s.setQueue k x).redirects = s.redirects := rfl
@[simp] theorem setQueue_notices (s : State) (k : Nat) (x : List QEntry) : (s.setQueue k x).notices = s.notices := rfl
@[simp] theorem setQueue_shipq (s : State) (k : Nat) (x : List QEntry) : (s.setQueue k x).shipq = s.shipq := rfl
@[simp] theorem setQueue_matrix (s : State) (k : Nat) (x : List QEntry) : (s.setQueue k x).matrix = s.matrix := rfl
@[simp] theorem setQueue_xfers (s : State) (k : Nat) (x : List QEntry) : (s.setQueue k x).xfers = s.xfers := rfl
@[simp] theorem setQueue_copies (s : State) (k : Nat) (x : List QEntry) : (s.setQueue k x).copies = s.copies := rfl
@[simp] theorem setQueue_turns (s : State) (k : Nat) (x : List QEntry) : (s.setQueue k x).turns = s.turns := rfl
@[simp] theorem setQueue_reorder (s : State) (k : Nat) (x : List QEntry) : (s.setQueue k x).reorder = s.reorder := rfl
@[simp] theorem setQueue_travs (s : State) (k : Nat) (x : List QEntry) : (s.setQueue k x).travs = s.travs := rfl
@[simp] theorem setQueue_ncache (s : State) (k : Nat) (x : List QEntry) : (s.setQueue k x).ncache = s.ncache := rfl
@[simp] theorem setQueue_served (s : State) (k : Nat) (x : List QEntry) : (s.setQueue k x).served = s.served := rfl
@[simp] theorem setQueue_wqueues (s : State) (k : Nat) (x : List QEntry) : (s.setQueue k x).wqueues = s.wqueues := rfl
@[simp] theorem setQueue_book (s : State) (k : Nat) (x : List QEntry) : (s.setQueue k x).book = s.book := rfl
@[simp] theorem setQueue_tokens (s : State) (k : Nat) (x : List QEntry) : (s.setQueue k x).tokens = s.tokens := rfl
@[simp] theorem setQueue_drew (s : State) (k : Nat) (x : List QEntry) : (s.setQueue k x).drew = s.drew := rfl
@[simp] theorem setQueue_fabric (s : State) (k : Nat) (x : List QEntry) : (s.setQueue k x).fabric = s.fabric := rfl
@[simp] theorem setQueue_dies (s : State) (k : Nat) (x : List QEntry) : (s.setQueue k x).dies = s.dies := rfl
@[simp] theorem setQueue_pwrbud (s : State) (k : Nat) (x : List QEntry) : (s.setQueue k x).pwrbud = s.pwrbud := rfl
@[simp] theorem setQueue_attest (s : State) (k : Nat) (x : List QEntry) : (s.setQueue k x).attest = s.attest := rfl
@[simp] theorem setQueue_host (s : State) (k : Nat) (x : List QEntry) : (s.setQueue k x).host = s.host := rfl
@[simp] theorem setQueue_outbox (s : State) (k : Nat) (x : List QEntry) : (s.setQueue k x).outbox = s.outbox := rfl
@[simp] theorem setQueue_boot (s : State) (k : Nat) (x : List QEntry) : (s.setQueue k x).boot = s.boot := rfl
@[simp] theorem setQueue_supvSpill (s : State) (k : Nat) (x : List QEntry) : (s.setQueue k x).supvSpill = s.supvSpill := rfl
@[simp] theorem setQueue_supvId (s : State) (k : Nat) (x : List QEntry) : (s.setQueue k x).supvId = s.supvId := rfl
@[simp] theorem setQueue_nextId (s : State) (k : Nat) (x : List QEntry) : (s.setQueue k x).nextId = s.nextId := rfl
@[simp] theorem setQueue_clock (s : State) (k : Nat) (x : List QEntry) : (s.setQueue k x).clock = s.clock := rfl
@[simp] theorem setQueue_serial (s : State) (k : Nat) (x : List QEntry) : (s.setQueue k x).serial = s.serial := rfl
@[simp] theorem setQueue_frees (s : State) (k : Nat) (x : List QEntry) : (s.setQueue k x).frees = s.frees := rfl
@[simp] theorem setQueue_cur (s : State) (k : Nat) (x : List QEntry) : (s.setQueue k x).cur = s.cur := rfl
@[simp] theorem setQueue_sched (s : State) (k : Nat) (x : List QEntry) : (s.setQueue k x).sched = s.sched := rfl

/-! ## State.setTlb -/

@[simp] theorem setTlb_mem (s : State) (k : Nat) (x : List TlbEntry) : (s.setTlb k x).mem = s.mem := rfl
@[simp] theorem setTlb_tags (s : State) (k : Nat) (x : List TlbEntry) : (s.setTlb k x).tags = s.tags := rfl
@[simp] theorem setTlb_poison (s : State) (k : Nat) (x : List TlbEntry) : (s.setTlb k x).poison = s.poison := rfl
@[simp] theorem setTlb_bufPoison (s : State) (k : Nat) (x : List TlbEntry) : (s.setTlb k x).bufPoison = s.bufPoison := rfl
@[simp] theorem setTlb_vers (s : State) (k : Nat) (x : List TlbEntry) : (s.setTlb k x).vers = s.vers := rfl
@[simp] theorem setTlb_vbuf (s : State) (k : Nat) (x : List TlbEntry) : (s.setTlb k x).vbuf = s.vbuf := rfl
@[simp] theorem setTlb_waits (s : State) (k : Nat) (x : List TlbEntry) : (s.setTlb k x).waits = s.waits := rfl
@[simp] theorem setTlb_threads (s : State) (k : Nat) (x : List TlbEntry) : (s.setTlb k x).threads = s.threads := rfl
@[simp] theorem setTlb_queues (s : State) (k : Nat) (x : List TlbEntry) : (s.setTlb k x).queues = s.queues := rfl
@[simp] theorem setTlb_last (s : State) (k : Nat) (x : List TlbEntry) : (s.setTlb k x).last = s.last := rfl
@[simp] theorem setTlb_teams (s : State) (k : Nat) (x : List TlbEntry) : (s.setTlb k x).teams = s.teams := rfl
@[simp] theorem setTlb_launches (s : State) (k : Nat) (x : List TlbEntry) : (s.setTlb k x).launches = s.launches := rfl
@[simp] theorem setTlb_ended (s : State) (k : Nat) (x : List TlbEntry) : (s.setTlb k x).ended = s.ended := rfl
@[simp] theorem setTlb_torn (s : State) (k : Nat) (x : List TlbEntry) : (s.setTlb k x).torn = s.torn := rfl
@[simp] theorem setTlb_saved (s : State) (k : Nat) (x : List TlbEntry) : (s.setTlb k x).saved = s.saved := rfl
@[simp] theorem setTlb_swept (s : State) (k : Nat) (x : List TlbEntry) : (s.setTlb k x).swept = s.swept := rfl
@[simp] theorem setTlb_notes (s : State) (k : Nat) (x : List TlbEntry) : (s.setTlb k x).notes = s.notes := rfl
@[simp] theorem setTlb_tlb (s : State) (k : Nat) (x : List TlbEntry) : (s.setTlb k x).tlb = smPut s.tlb k x := rfl
@[simp] theorem setTlb_icache (s : State) (k : Nat) (x : List TlbEntry) : (s.setTlb k x).icache = s.icache := rfl
@[simp] theorem setTlb_loops (s : State) (k : Nat) (x : List TlbEntry) : (s.setTlb k x).loops = s.loops := rfl
@[simp] theorem setTlb_pages (s : State) (k : Nat) (x : List TlbEntry) : (s.setTlb k x).pages = s.pages := rfl
@[simp] theorem setTlb_redirects (s : State) (k : Nat) (x : List TlbEntry) : (s.setTlb k x).redirects = s.redirects := rfl
@[simp] theorem setTlb_notices (s : State) (k : Nat) (x : List TlbEntry) : (s.setTlb k x).notices = s.notices := rfl
@[simp] theorem setTlb_shipq (s : State) (k : Nat) (x : List TlbEntry) : (s.setTlb k x).shipq = s.shipq := rfl
@[simp] theorem setTlb_matrix (s : State) (k : Nat) (x : List TlbEntry) : (s.setTlb k x).matrix = s.matrix := rfl
@[simp] theorem setTlb_xfers (s : State) (k : Nat) (x : List TlbEntry) : (s.setTlb k x).xfers = s.xfers := rfl
@[simp] theorem setTlb_copies (s : State) (k : Nat) (x : List TlbEntry) : (s.setTlb k x).copies = s.copies := rfl
@[simp] theorem setTlb_turns (s : State) (k : Nat) (x : List TlbEntry) : (s.setTlb k x).turns = s.turns := rfl
@[simp] theorem setTlb_reorder (s : State) (k : Nat) (x : List TlbEntry) : (s.setTlb k x).reorder = s.reorder := rfl
@[simp] theorem setTlb_travs (s : State) (k : Nat) (x : List TlbEntry) : (s.setTlb k x).travs = s.travs := rfl
@[simp] theorem setTlb_ncache (s : State) (k : Nat) (x : List TlbEntry) : (s.setTlb k x).ncache = s.ncache := rfl
@[simp] theorem setTlb_served (s : State) (k : Nat) (x : List TlbEntry) : (s.setTlb k x).served = s.served := rfl
@[simp] theorem setTlb_wqueues (s : State) (k : Nat) (x : List TlbEntry) : (s.setTlb k x).wqueues = s.wqueues := rfl
@[simp] theorem setTlb_book (s : State) (k : Nat) (x : List TlbEntry) : (s.setTlb k x).book = s.book := rfl
@[simp] theorem setTlb_tokens (s : State) (k : Nat) (x : List TlbEntry) : (s.setTlb k x).tokens = s.tokens := rfl
@[simp] theorem setTlb_drew (s : State) (k : Nat) (x : List TlbEntry) : (s.setTlb k x).drew = s.drew := rfl
@[simp] theorem setTlb_fabric (s : State) (k : Nat) (x : List TlbEntry) : (s.setTlb k x).fabric = s.fabric := rfl
@[simp] theorem setTlb_dies (s : State) (k : Nat) (x : List TlbEntry) : (s.setTlb k x).dies = s.dies := rfl
@[simp] theorem setTlb_pwrbud (s : State) (k : Nat) (x : List TlbEntry) : (s.setTlb k x).pwrbud = s.pwrbud := rfl
@[simp] theorem setTlb_attest (s : State) (k : Nat) (x : List TlbEntry) : (s.setTlb k x).attest = s.attest := rfl
@[simp] theorem setTlb_host (s : State) (k : Nat) (x : List TlbEntry) : (s.setTlb k x).host = s.host := rfl
@[simp] theorem setTlb_outbox (s : State) (k : Nat) (x : List TlbEntry) : (s.setTlb k x).outbox = s.outbox := rfl
@[simp] theorem setTlb_boot (s : State) (k : Nat) (x : List TlbEntry) : (s.setTlb k x).boot = s.boot := rfl
@[simp] theorem setTlb_supvSpill (s : State) (k : Nat) (x : List TlbEntry) : (s.setTlb k x).supvSpill = s.supvSpill := rfl
@[simp] theorem setTlb_supvId (s : State) (k : Nat) (x : List TlbEntry) : (s.setTlb k x).supvId = s.supvId := rfl
@[simp] theorem setTlb_nextId (s : State) (k : Nat) (x : List TlbEntry) : (s.setTlb k x).nextId = s.nextId := rfl
@[simp] theorem setTlb_clock (s : State) (k : Nat) (x : List TlbEntry) : (s.setTlb k x).clock = s.clock := rfl
@[simp] theorem setTlb_serial (s : State) (k : Nat) (x : List TlbEntry) : (s.setTlb k x).serial = s.serial := rfl
@[simp] theorem setTlb_frees (s : State) (k : Nat) (x : List TlbEntry) : (s.setTlb k x).frees = s.frees := rfl
@[simp] theorem setTlb_cur (s : State) (k : Nat) (x : List TlbEntry) : (s.setTlb k x).cur = s.cur := rfl
@[simp] theorem setTlb_sched (s : State) (k : Nat) (x : List TlbEntry) : (s.setTlb k x).sched = s.sched := rfl

/-! ## State.setMatrix -/

@[simp] theorem setMatrix_mem (s : State) (k : Nat) (x : MUnit) : (s.setMatrix k x).mem = s.mem := rfl
@[simp] theorem setMatrix_tags (s : State) (k : Nat) (x : MUnit) : (s.setMatrix k x).tags = s.tags := rfl
@[simp] theorem setMatrix_poison (s : State) (k : Nat) (x : MUnit) : (s.setMatrix k x).poison = s.poison := rfl
@[simp] theorem setMatrix_bufPoison (s : State) (k : Nat) (x : MUnit) : (s.setMatrix k x).bufPoison = s.bufPoison := rfl
@[simp] theorem setMatrix_vers (s : State) (k : Nat) (x : MUnit) : (s.setMatrix k x).vers = s.vers := rfl
@[simp] theorem setMatrix_vbuf (s : State) (k : Nat) (x : MUnit) : (s.setMatrix k x).vbuf = s.vbuf := rfl
@[simp] theorem setMatrix_waits (s : State) (k : Nat) (x : MUnit) : (s.setMatrix k x).waits = s.waits := rfl
@[simp] theorem setMatrix_threads (s : State) (k : Nat) (x : MUnit) : (s.setMatrix k x).threads = s.threads := rfl
@[simp] theorem setMatrix_queues (s : State) (k : Nat) (x : MUnit) : (s.setMatrix k x).queues = s.queues := rfl
@[simp] theorem setMatrix_last (s : State) (k : Nat) (x : MUnit) : (s.setMatrix k x).last = s.last := rfl
@[simp] theorem setMatrix_teams (s : State) (k : Nat) (x : MUnit) : (s.setMatrix k x).teams = s.teams := rfl
@[simp] theorem setMatrix_launches (s : State) (k : Nat) (x : MUnit) : (s.setMatrix k x).launches = s.launches := rfl
@[simp] theorem setMatrix_ended (s : State) (k : Nat) (x : MUnit) : (s.setMatrix k x).ended = s.ended := rfl
@[simp] theorem setMatrix_torn (s : State) (k : Nat) (x : MUnit) : (s.setMatrix k x).torn = s.torn := rfl
@[simp] theorem setMatrix_saved (s : State) (k : Nat) (x : MUnit) : (s.setMatrix k x).saved = s.saved := rfl
@[simp] theorem setMatrix_swept (s : State) (k : Nat) (x : MUnit) : (s.setMatrix k x).swept = s.swept := rfl
@[simp] theorem setMatrix_notes (s : State) (k : Nat) (x : MUnit) : (s.setMatrix k x).notes = s.notes := rfl
@[simp] theorem setMatrix_tlb (s : State) (k : Nat) (x : MUnit) : (s.setMatrix k x).tlb = s.tlb := rfl
@[simp] theorem setMatrix_icache (s : State) (k : Nat) (x : MUnit) : (s.setMatrix k x).icache = s.icache := rfl
@[simp] theorem setMatrix_loops (s : State) (k : Nat) (x : MUnit) : (s.setMatrix k x).loops = s.loops := rfl
@[simp] theorem setMatrix_pages (s : State) (k : Nat) (x : MUnit) : (s.setMatrix k x).pages = s.pages := rfl
@[simp] theorem setMatrix_redirects (s : State) (k : Nat) (x : MUnit) : (s.setMatrix k x).redirects = s.redirects := rfl
@[simp] theorem setMatrix_notices (s : State) (k : Nat) (x : MUnit) : (s.setMatrix k x).notices = s.notices := rfl
@[simp] theorem setMatrix_shipq (s : State) (k : Nat) (x : MUnit) : (s.setMatrix k x).shipq = s.shipq := rfl
@[simp] theorem setMatrix_matrix (s : State) (k : Nat) (x : MUnit) : (s.setMatrix k x).matrix = smPut s.matrix k x := rfl
@[simp] theorem setMatrix_xfers (s : State) (k : Nat) (x : MUnit) : (s.setMatrix k x).xfers = s.xfers := rfl
@[simp] theorem setMatrix_copies (s : State) (k : Nat) (x : MUnit) : (s.setMatrix k x).copies = s.copies := rfl
@[simp] theorem setMatrix_turns (s : State) (k : Nat) (x : MUnit) : (s.setMatrix k x).turns = s.turns := rfl
@[simp] theorem setMatrix_reorder (s : State) (k : Nat) (x : MUnit) : (s.setMatrix k x).reorder = s.reorder := rfl
@[simp] theorem setMatrix_travs (s : State) (k : Nat) (x : MUnit) : (s.setMatrix k x).travs = s.travs := rfl
@[simp] theorem setMatrix_ncache (s : State) (k : Nat) (x : MUnit) : (s.setMatrix k x).ncache = s.ncache := rfl
@[simp] theorem setMatrix_served (s : State) (k : Nat) (x : MUnit) : (s.setMatrix k x).served = s.served := rfl
@[simp] theorem setMatrix_wqueues (s : State) (k : Nat) (x : MUnit) : (s.setMatrix k x).wqueues = s.wqueues := rfl
@[simp] theorem setMatrix_book (s : State) (k : Nat) (x : MUnit) : (s.setMatrix k x).book = s.book := rfl
@[simp] theorem setMatrix_tokens (s : State) (k : Nat) (x : MUnit) : (s.setMatrix k x).tokens = s.tokens := rfl
@[simp] theorem setMatrix_drew (s : State) (k : Nat) (x : MUnit) : (s.setMatrix k x).drew = s.drew := rfl
@[simp] theorem setMatrix_fabric (s : State) (k : Nat) (x : MUnit) : (s.setMatrix k x).fabric = s.fabric := rfl
@[simp] theorem setMatrix_dies (s : State) (k : Nat) (x : MUnit) : (s.setMatrix k x).dies = s.dies := rfl
@[simp] theorem setMatrix_pwrbud (s : State) (k : Nat) (x : MUnit) : (s.setMatrix k x).pwrbud = s.pwrbud := rfl
@[simp] theorem setMatrix_attest (s : State) (k : Nat) (x : MUnit) : (s.setMatrix k x).attest = s.attest := rfl
@[simp] theorem setMatrix_host (s : State) (k : Nat) (x : MUnit) : (s.setMatrix k x).host = s.host := rfl
@[simp] theorem setMatrix_outbox (s : State) (k : Nat) (x : MUnit) : (s.setMatrix k x).outbox = s.outbox := rfl
@[simp] theorem setMatrix_boot (s : State) (k : Nat) (x : MUnit) : (s.setMatrix k x).boot = s.boot := rfl
@[simp] theorem setMatrix_supvSpill (s : State) (k : Nat) (x : MUnit) : (s.setMatrix k x).supvSpill = s.supvSpill := rfl
@[simp] theorem setMatrix_supvId (s : State) (k : Nat) (x : MUnit) : (s.setMatrix k x).supvId = s.supvId := rfl
@[simp] theorem setMatrix_nextId (s : State) (k : Nat) (x : MUnit) : (s.setMatrix k x).nextId = s.nextId := rfl
@[simp] theorem setMatrix_clock (s : State) (k : Nat) (x : MUnit) : (s.setMatrix k x).clock = s.clock := rfl
@[simp] theorem setMatrix_serial (s : State) (k : Nat) (x : MUnit) : (s.setMatrix k x).serial = s.serial := rfl
@[simp] theorem setMatrix_frees (s : State) (k : Nat) (x : MUnit) : (s.setMatrix k x).frees = s.frees := rfl
@[simp] theorem setMatrix_cur (s : State) (k : Nat) (x : MUnit) : (s.setMatrix k x).cur = s.cur := rfl
@[simp] theorem setMatrix_sched (s : State) (k : Nat) (x : MUnit) : (s.setMatrix k x).sched = s.sched := rfl

/-! ## State.setDie -/

@[simp] theorem setDie_mem (s : State) (k : Nat) (x : Die) : (s.setDie k x).mem = s.mem := rfl
@[simp] theorem setDie_tags (s : State) (k : Nat) (x : Die) : (s.setDie k x).tags = s.tags := rfl
@[simp] theorem setDie_poison (s : State) (k : Nat) (x : Die) : (s.setDie k x).poison = s.poison := rfl
@[simp] theorem setDie_bufPoison (s : State) (k : Nat) (x : Die) : (s.setDie k x).bufPoison = s.bufPoison := rfl
@[simp] theorem setDie_vers (s : State) (k : Nat) (x : Die) : (s.setDie k x).vers = s.vers := rfl
@[simp] theorem setDie_vbuf (s : State) (k : Nat) (x : Die) : (s.setDie k x).vbuf = s.vbuf := rfl
@[simp] theorem setDie_waits (s : State) (k : Nat) (x : Die) : (s.setDie k x).waits = s.waits := rfl
@[simp] theorem setDie_threads (s : State) (k : Nat) (x : Die) : (s.setDie k x).threads = s.threads := rfl
@[simp] theorem setDie_queues (s : State) (k : Nat) (x : Die) : (s.setDie k x).queues = s.queues := rfl
@[simp] theorem setDie_last (s : State) (k : Nat) (x : Die) : (s.setDie k x).last = s.last := rfl
@[simp] theorem setDie_teams (s : State) (k : Nat) (x : Die) : (s.setDie k x).teams = s.teams := rfl
@[simp] theorem setDie_launches (s : State) (k : Nat) (x : Die) : (s.setDie k x).launches = s.launches := rfl
@[simp] theorem setDie_ended (s : State) (k : Nat) (x : Die) : (s.setDie k x).ended = s.ended := rfl
@[simp] theorem setDie_torn (s : State) (k : Nat) (x : Die) : (s.setDie k x).torn = s.torn := rfl
@[simp] theorem setDie_saved (s : State) (k : Nat) (x : Die) : (s.setDie k x).saved = s.saved := rfl
@[simp] theorem setDie_swept (s : State) (k : Nat) (x : Die) : (s.setDie k x).swept = s.swept := rfl
@[simp] theorem setDie_notes (s : State) (k : Nat) (x : Die) : (s.setDie k x).notes = s.notes := rfl
@[simp] theorem setDie_tlb (s : State) (k : Nat) (x : Die) : (s.setDie k x).tlb = s.tlb := rfl
@[simp] theorem setDie_icache (s : State) (k : Nat) (x : Die) : (s.setDie k x).icache = s.icache := rfl
@[simp] theorem setDie_loops (s : State) (k : Nat) (x : Die) : (s.setDie k x).loops = s.loops := rfl
@[simp] theorem setDie_pages (s : State) (k : Nat) (x : Die) : (s.setDie k x).pages = s.pages := rfl
@[simp] theorem setDie_redirects (s : State) (k : Nat) (x : Die) : (s.setDie k x).redirects = s.redirects := rfl
@[simp] theorem setDie_notices (s : State) (k : Nat) (x : Die) : (s.setDie k x).notices = s.notices := rfl
@[simp] theorem setDie_shipq (s : State) (k : Nat) (x : Die) : (s.setDie k x).shipq = s.shipq := rfl
@[simp] theorem setDie_matrix (s : State) (k : Nat) (x : Die) : (s.setDie k x).matrix = s.matrix := rfl
@[simp] theorem setDie_xfers (s : State) (k : Nat) (x : Die) : (s.setDie k x).xfers = s.xfers := rfl
@[simp] theorem setDie_copies (s : State) (k : Nat) (x : Die) : (s.setDie k x).copies = s.copies := rfl
@[simp] theorem setDie_turns (s : State) (k : Nat) (x : Die) : (s.setDie k x).turns = s.turns := rfl
@[simp] theorem setDie_reorder (s : State) (k : Nat) (x : Die) : (s.setDie k x).reorder = s.reorder := rfl
@[simp] theorem setDie_travs (s : State) (k : Nat) (x : Die) : (s.setDie k x).travs = s.travs := rfl
@[simp] theorem setDie_ncache (s : State) (k : Nat) (x : Die) : (s.setDie k x).ncache = s.ncache := rfl
@[simp] theorem setDie_served (s : State) (k : Nat) (x : Die) : (s.setDie k x).served = s.served := rfl
@[simp] theorem setDie_wqueues (s : State) (k : Nat) (x : Die) : (s.setDie k x).wqueues = s.wqueues := rfl
@[simp] theorem setDie_book (s : State) (k : Nat) (x : Die) : (s.setDie k x).book = s.book := rfl
@[simp] theorem setDie_tokens (s : State) (k : Nat) (x : Die) : (s.setDie k x).tokens = s.tokens := rfl
@[simp] theorem setDie_drew (s : State) (k : Nat) (x : Die) : (s.setDie k x).drew = s.drew := rfl
@[simp] theorem setDie_fabric (s : State) (k : Nat) (x : Die) : (s.setDie k x).fabric = s.fabric := rfl
@[simp] theorem setDie_dies (s : State) (k : Nat) (x : Die) : (s.setDie k x).dies = smPut s.dies k x := rfl
@[simp] theorem setDie_pwrbud (s : State) (k : Nat) (x : Die) : (s.setDie k x).pwrbud = s.pwrbud := rfl
@[simp] theorem setDie_attest (s : State) (k : Nat) (x : Die) : (s.setDie k x).attest = s.attest := rfl
@[simp] theorem setDie_host (s : State) (k : Nat) (x : Die) : (s.setDie k x).host = s.host := rfl
@[simp] theorem setDie_outbox (s : State) (k : Nat) (x : Die) : (s.setDie k x).outbox = s.outbox := rfl
@[simp] theorem setDie_boot (s : State) (k : Nat) (x : Die) : (s.setDie k x).boot = s.boot := rfl
@[simp] theorem setDie_supvSpill (s : State) (k : Nat) (x : Die) : (s.setDie k x).supvSpill = s.supvSpill := rfl
@[simp] theorem setDie_supvId (s : State) (k : Nat) (x : Die) : (s.setDie k x).supvId = s.supvId := rfl
@[simp] theorem setDie_nextId (s : State) (k : Nat) (x : Die) : (s.setDie k x).nextId = s.nextId := rfl
@[simp] theorem setDie_clock (s : State) (k : Nat) (x : Die) : (s.setDie k x).clock = s.clock := rfl
@[simp] theorem setDie_serial (s : State) (k : Nat) (x : Die) : (s.setDie k x).serial = s.serial := rfl
@[simp] theorem setDie_frees (s : State) (k : Nat) (x : Die) : (s.setDie k x).frees = s.frees := rfl
@[simp] theorem setDie_cur (s : State) (k : Nat) (x : Die) : (s.setDie k x).cur = s.cur := rfl
@[simp] theorem setDie_sched (s : State) (k : Nat) (x : Die) : (s.setDie k x).sched = s.sched := rfl

/-! ## State.setVer -/

@[simp] theorem setVer_mem (s : State) (k : Nat) (x : VerMeta) : (s.setVer k x).mem = s.mem := rfl
@[simp] theorem setVer_tags (s : State) (k : Nat) (x : VerMeta) : (s.setVer k x).tags = s.tags := rfl
@[simp] theorem setVer_poison (s : State) (k : Nat) (x : VerMeta) : (s.setVer k x).poison = s.poison := rfl
@[simp] theorem setVer_bufPoison (s : State) (k : Nat) (x : VerMeta) : (s.setVer k x).bufPoison = s.bufPoison := rfl
@[simp] theorem setVer_vers (s : State) (k : Nat) (x : VerMeta) : (s.setVer k x).vers = smSet ⟨0, true, 0⟩ s.vers k x := rfl
@[simp] theorem setVer_vbuf (s : State) (k : Nat) (x : VerMeta) : (s.setVer k x).vbuf = s.vbuf := rfl
@[simp] theorem setVer_waits (s : State) (k : Nat) (x : VerMeta) : (s.setVer k x).waits = s.waits := rfl
@[simp] theorem setVer_threads (s : State) (k : Nat) (x : VerMeta) : (s.setVer k x).threads = s.threads := rfl
@[simp] theorem setVer_queues (s : State) (k : Nat) (x : VerMeta) : (s.setVer k x).queues = s.queues := rfl
@[simp] theorem setVer_last (s : State) (k : Nat) (x : VerMeta) : (s.setVer k x).last = s.last := rfl
@[simp] theorem setVer_teams (s : State) (k : Nat) (x : VerMeta) : (s.setVer k x).teams = s.teams := rfl
@[simp] theorem setVer_launches (s : State) (k : Nat) (x : VerMeta) : (s.setVer k x).launches = s.launches := rfl
@[simp] theorem setVer_ended (s : State) (k : Nat) (x : VerMeta) : (s.setVer k x).ended = s.ended := rfl
@[simp] theorem setVer_torn (s : State) (k : Nat) (x : VerMeta) : (s.setVer k x).torn = s.torn := rfl
@[simp] theorem setVer_saved (s : State) (k : Nat) (x : VerMeta) : (s.setVer k x).saved = s.saved := rfl
@[simp] theorem setVer_swept (s : State) (k : Nat) (x : VerMeta) : (s.setVer k x).swept = s.swept := rfl
@[simp] theorem setVer_notes (s : State) (k : Nat) (x : VerMeta) : (s.setVer k x).notes = s.notes := rfl
@[simp] theorem setVer_tlb (s : State) (k : Nat) (x : VerMeta) : (s.setVer k x).tlb = s.tlb := rfl
@[simp] theorem setVer_icache (s : State) (k : Nat) (x : VerMeta) : (s.setVer k x).icache = s.icache := rfl
@[simp] theorem setVer_loops (s : State) (k : Nat) (x : VerMeta) : (s.setVer k x).loops = s.loops := rfl
@[simp] theorem setVer_pages (s : State) (k : Nat) (x : VerMeta) : (s.setVer k x).pages = s.pages := rfl
@[simp] theorem setVer_redirects (s : State) (k : Nat) (x : VerMeta) : (s.setVer k x).redirects = s.redirects := rfl
@[simp] theorem setVer_notices (s : State) (k : Nat) (x : VerMeta) : (s.setVer k x).notices = s.notices := rfl
@[simp] theorem setVer_shipq (s : State) (k : Nat) (x : VerMeta) : (s.setVer k x).shipq = s.shipq := rfl
@[simp] theorem setVer_matrix (s : State) (k : Nat) (x : VerMeta) : (s.setVer k x).matrix = s.matrix := rfl
@[simp] theorem setVer_xfers (s : State) (k : Nat) (x : VerMeta) : (s.setVer k x).xfers = s.xfers := rfl
@[simp] theorem setVer_copies (s : State) (k : Nat) (x : VerMeta) : (s.setVer k x).copies = s.copies := rfl
@[simp] theorem setVer_turns (s : State) (k : Nat) (x : VerMeta) : (s.setVer k x).turns = s.turns := rfl
@[simp] theorem setVer_reorder (s : State) (k : Nat) (x : VerMeta) : (s.setVer k x).reorder = s.reorder := rfl
@[simp] theorem setVer_travs (s : State) (k : Nat) (x : VerMeta) : (s.setVer k x).travs = s.travs := rfl
@[simp] theorem setVer_ncache (s : State) (k : Nat) (x : VerMeta) : (s.setVer k x).ncache = s.ncache := rfl
@[simp] theorem setVer_served (s : State) (k : Nat) (x : VerMeta) : (s.setVer k x).served = s.served := rfl
@[simp] theorem setVer_wqueues (s : State) (k : Nat) (x : VerMeta) : (s.setVer k x).wqueues = s.wqueues := rfl
@[simp] theorem setVer_book (s : State) (k : Nat) (x : VerMeta) : (s.setVer k x).book = s.book := rfl
@[simp] theorem setVer_tokens (s : State) (k : Nat) (x : VerMeta) : (s.setVer k x).tokens = s.tokens := rfl
@[simp] theorem setVer_drew (s : State) (k : Nat) (x : VerMeta) : (s.setVer k x).drew = s.drew := rfl
@[simp] theorem setVer_fabric (s : State) (k : Nat) (x : VerMeta) : (s.setVer k x).fabric = s.fabric := rfl
@[simp] theorem setVer_dies (s : State) (k : Nat) (x : VerMeta) : (s.setVer k x).dies = s.dies := rfl
@[simp] theorem setVer_pwrbud (s : State) (k : Nat) (x : VerMeta) : (s.setVer k x).pwrbud = s.pwrbud := rfl
@[simp] theorem setVer_attest (s : State) (k : Nat) (x : VerMeta) : (s.setVer k x).attest = s.attest := rfl
@[simp] theorem setVer_host (s : State) (k : Nat) (x : VerMeta) : (s.setVer k x).host = s.host := rfl
@[simp] theorem setVer_outbox (s : State) (k : Nat) (x : VerMeta) : (s.setVer k x).outbox = s.outbox := rfl
@[simp] theorem setVer_boot (s : State) (k : Nat) (x : VerMeta) : (s.setVer k x).boot = s.boot := rfl
@[simp] theorem setVer_supvSpill (s : State) (k : Nat) (x : VerMeta) : (s.setVer k x).supvSpill = s.supvSpill := rfl
@[simp] theorem setVer_supvId (s : State) (k : Nat) (x : VerMeta) : (s.setVer k x).supvId = s.supvId := rfl
@[simp] theorem setVer_nextId (s : State) (k : Nat) (x : VerMeta) : (s.setVer k x).nextId = s.nextId := rfl
@[simp] theorem setVer_clock (s : State) (k : Nat) (x : VerMeta) : (s.setVer k x).clock = s.clock := rfl
@[simp] theorem setVer_serial (s : State) (k : Nat) (x : VerMeta) : (s.setVer k x).serial = s.serial := rfl
@[simp] theorem setVer_frees (s : State) (k : Nat) (x : VerMeta) : (s.setVer k x).frees = s.frees := rfl
@[simp] theorem setVer_cur (s : State) (k : Nat) (x : VerMeta) : (s.setVer k x).cur = s.cur := rfl
@[simp] theorem setVer_sched (s : State) (k : Nat) (x : VerMeta) : (s.setVer k x).sched = s.sched := rfl

/-! ## Threads read after an update -/

@[simp] theorem thread_setThread_self (s : State) (t : Nat) (x : Thread) : (s.setThread t x).thread t = x := by
  simp [State.thread]

theorem thread_setThread_other (s : State) (t k : Nat) (x : Thread) (h : k ≠ t) :
    (s.setThread t x).thread k = s.thread k := by
  simp [State.thread, smGet_smPut_other _ _ _ _ _ h]

@[simp] theorem th_setTh (s : State) (x : Thread) : (s.setTh x).th = x := by
  simp [State.th, State.thread]

theorem thread_setTh_other (s : State) (k : Nat) (x : Thread) (h : k ≠ s.cur.tid) :
    (s.setTh x).thread k = s.thread k :=
  thread_setThread_other s s.cur.tid k x h

@[simp] theorem setTh_setTh (s : State) (x y : Thread) : (s.setTh x).setTh y = s.setTh y := by
  have h : ∀ (m : SMap Thread) (k : Nat), smPut (smPut m k x) k y = smPut m k y := by
    intro m k
    induction m with
    | nil => simp [smPut]
    | cons e t ih =>
      obtain ⟨j, w⟩ := e
      simp only [smPut]
      by_cases h1 : k < j
      · simp [h1, smPut]
      · by_cases h2 : k = j
        · simp [h2, smPut]
        · simp [h1, h2, smPut, ih]
  simp [State.setTh, State.setThread, h]

/-! ## Registers (R38) -/

@[simp] theorem rg_zero (t : Thread) : t.rg 0 = 0 := rfl
@[simp] theorem rc_zero (t : Thread) : t.rc 0 = nullCap := rfl
@[simp] theorem rp_zero (t : Thread) : t.rp 0 = true := rfl
@[simp] theorem rm_zero (t : Thread) : t.rm 0 = 0xFFFF := rfl

/-! ## Thread.tick -/

@[simp] theorem tick_g (t : Thread) (c : Cur) : (t.tick c).g = t.g := by
  rfl
@[simp] theorem tick_c (t : Thread) (c : Cur) : (t.tick c).c = t.c := by
  rfl
@[simp] theorem tick_p (t : Thread) (c : Cur) : (t.tick c).p = t.p := by
  rfl
@[simp] theorem tick_v (t : Thread) (c : Cur) : (t.tick c).v = t.v := by
  rfl
@[simp] theorem tick_m (t : Thread) (c : Cur) : (t.tick c).m = t.m := by
  rfl
@[simp] theorem tick_pend (t : Thread) (c : Cur) : (t.tick c).pend = t.pend := by
  rfl
@[simp] theorem tick_pcc (t : Thread) (c : Cur) : (t.tick c).pcc = t.pcc := by
  rfl
@[simp] theorem tick_ras (t : Thread) (c : Cur) : (t.tick c).ras = t.ras := by
  rfl
@[simp] theorem tick_area (t : Thread) (c : Cur) : (t.tick c).area = t.area := by
  rfl
@[simp] theorem tick_ovr (t : Thread) (c : Cur) : (t.tick c).ovr = t.ovr := by
  rfl
@[simp] theorem tick_tctl (t : Thread) (c : Cur) : (t.tick c).tctl = t.tctl := by
  rfl
@[simp] theorem tick_tcause (t : Thread) (c : Cur) : (t.tick c).tcause = t.tcause := by
  rfl
@[simp] theorem tick_tepc (t : Thread) (c : Cur) : (t.tick c).tepc = t.tepc := by
  rfl
@[simp] theorem tick_tval (t : Thread) (c : Cur) : (t.tick c).tval = t.tval := by
  rfl
@[simp] theorem tick_workid (t : Thread) (c : Cur) : (t.tick c).workid = t.workid := by
  rfl
@[simp] theorem tick_lfsr (t : Thread) (c : Cur) : (t.tick c).lfsr = t.lfsr := by
  rfl
@[simp] theorem tick_xferid (t : Thread) (c : Cur) : (t.tick c).xferid = t.xferid := by
  rfl
@[simp] theorem tick_spov (t : Thread) (c : Cur) : (t.tick c).spov = t.spov := by
  rfl
@[simp] theorem tick_lpst (t : Thread) (c : Cur) : (t.tick c).lpst = t.lpst := by
  rfl
@[simp] theorem tick_lpsa (t : Thread) (c : Cur) : (t.tick c).lpsa = t.lpsa := by
  rfl
@[simp] theorem tick_mcx (t : Thread) (c : Cur) : (t.tick c).mcx = t.mcx := by
  rfl
@[simp] theorem tick_arcw (t : Thread) (c : Cur) : (t.tick c).arcw = t.arcw := by
  rfl
@[simp] theorem tick_tpcc (t : Thread) (c : Cur) : (t.tick c).tpcc = t.tpcc := by
  rfl
@[simp] theorem tick_dba0 (t : Thread) (c : Cur) : (t.tick c).dba0 = t.dba0 := by
  rfl
@[simp] theorem tick_dba1 (t : Thread) (c : Cur) : (t.tick c).dba1 = t.dba1 := by
  rfl
@[simp] theorem tick_eprio (t : Thread) (c : Cur) : (t.tick c).eprio = t.eprio := by
  rfl
@[simp] theorem tick_frec (t : Thread) (c : Cur) : (t.tick c).frec = t.frec := by
  rfl
@[simp] theorem tick_run (t : Thread) (c : Cur) : (t.tick c).run = t.run := by
  rfl
@[simp] theorem tick_status (t : Thread) (c : Cur) : (t.tick c).status = t.status := by
  rfl
@[simp] theorem tick_firing (t : Thread) (c : Cur) : (t.tick c).firing = t.firing := by
  rfl
@[simp] theorem tick_stores (t : Thread) (c : Cur) : (t.tick c).stores = t.stores := by
  rfl
@[simp] theorem tick_held (t : Thread) (c : Cur) : (t.tick c).held = t.held := by
  rfl
@[simp] theorem tick_traps (t : Thread) (c : Cur) : (t.tick c).traps = t.traps := by
  rfl
@[simp] theorem tick_cut (t : Thread) (c : Cur) : (t.tick c).cut = t.cut := by
  rfl
@[simp] theorem tick_wg (t : Thread) (c : Cur) : (t.tick c).wg = t.wg := by
  rfl
@[simp] theorem tick_wgGen (t : Thread) (c : Cur) : (t.tick c).wgGen = t.wgGen := by
  rfl
@[simp] theorem tick_tvalWhole (t : Thread) (c : Cur) : (t.tick c).tvalWhole = t.tvalWhole := by
  rfl
@[simp] theorem tick_kept (t : Thread) (c : Cur) : (t.tick c).kept = t.kept := by
  rfl

/-! ## Thread.post -/

@[simp] theorem post_g (t : Thread) (w : RegWrite) (d : Option Nat) : (t.post w d).g = t.g := by
  unfold Thread.post
  repeat' split
  all_goals rfl
@[simp] theorem post_c (t : Thread) (w : RegWrite) (d : Option Nat) : (t.post w d).c = t.c := by
  unfold Thread.post
  repeat' split
  all_goals rfl
@[simp] theorem post_p (t : Thread) (w : RegWrite) (d : Option Nat) : (t.post w d).p = t.p := by
  unfold Thread.post
  repeat' split
  all_goals rfl
@[simp] theorem post_v (t : Thread) (w : RegWrite) (d : Option Nat) : (t.post w d).v = t.v := by
  unfold Thread.post
  repeat' split
  all_goals rfl
@[simp] theorem post_m (t : Thread) (w : RegWrite) (d : Option Nat) : (t.post w d).m = t.m := by
  unfold Thread.post
  repeat' split
  all_goals rfl
@[simp] theorem post_nt (t : Thread) (w : RegWrite) (d : Option Nat) : (t.post w d).nt = t.nt := by
  unfold Thread.post
  repeat' split
  all_goals rfl
@[simp] theorem post_pcc (t : Thread) (w : RegWrite) (d : Option Nat) : (t.post w d).pcc = t.pcc := by
  unfold Thread.post
  repeat' split
  all_goals rfl
@[simp] theorem post_ras (t : Thread) (w : RegWrite) (d : Option Nat) : (t.post w d).ras = t.ras := by
  unfold Thread.post
  repeat' split
  all_goals rfl
@[simp] theorem post_area (t : Thread) (w : RegWrite) (d : Option Nat) : (t.post w d).area = t.area := by
  unfold Thread.post
  repeat' split
  all_goals rfl
@[simp] theorem post_ovr (t : Thread) (w : RegWrite) (d : Option Nat) : (t.post w d).ovr = t.ovr := by
  unfold Thread.post
  repeat' split
  all_goals rfl
@[simp] theorem post_tctl (t : Thread) (w : RegWrite) (d : Option Nat) : (t.post w d).tctl = t.tctl := by
  unfold Thread.post
  repeat' split
  all_goals rfl
@[simp] theorem post_tcause (t : Thread) (w : RegWrite) (d : Option Nat) : (t.post w d).tcause = t.tcause := by
  unfold Thread.post
  repeat' split
  all_goals rfl
@[simp] theorem post_tepc (t : Thread) (w : RegWrite) (d : Option Nat) : (t.post w d).tepc = t.tepc := by
  unfold Thread.post
  repeat' split
  all_goals rfl
@[simp] theorem post_tval (t : Thread) (w : RegWrite) (d : Option Nat) : (t.post w d).tval = t.tval := by
  unfold Thread.post
  repeat' split
  all_goals rfl
@[simp] theorem post_workid (t : Thread) (w : RegWrite) (d : Option Nat) : (t.post w d).workid = t.workid := by
  unfold Thread.post
  repeat' split
  all_goals rfl
@[simp] theorem post_lfsr (t : Thread) (w : RegWrite) (d : Option Nat) : (t.post w d).lfsr = t.lfsr := by
  unfold Thread.post
  repeat' split
  all_goals rfl
@[simp] theorem post_xferid (t : Thread) (w : RegWrite) (d : Option Nat) : (t.post w d).xferid = t.xferid := by
  unfold Thread.post
  repeat' split
  all_goals rfl
@[simp] theorem post_spov (t : Thread) (w : RegWrite) (d : Option Nat) : (t.post w d).spov = t.spov := by
  unfold Thread.post
  repeat' split
  all_goals rfl
@[simp] theorem post_lpst (t : Thread) (w : RegWrite) (d : Option Nat) : (t.post w d).lpst = t.lpst := by
  unfold Thread.post
  repeat' split
  all_goals rfl
@[simp] theorem post_lpsa (t : Thread) (w : RegWrite) (d : Option Nat) : (t.post w d).lpsa = t.lpsa := by
  unfold Thread.post
  repeat' split
  all_goals rfl
@[simp] theorem post_mcx (t : Thread) (w : RegWrite) (d : Option Nat) : (t.post w d).mcx = t.mcx := by
  unfold Thread.post
  repeat' split
  all_goals rfl
@[simp] theorem post_arcw (t : Thread) (w : RegWrite) (d : Option Nat) : (t.post w d).arcw = t.arcw := by
  unfold Thread.post
  repeat' split
  all_goals rfl
@[simp] theorem post_tpcc (t : Thread) (w : RegWrite) (d : Option Nat) : (t.post w d).tpcc = t.tpcc := by
  unfold Thread.post
  repeat' split
  all_goals rfl
@[simp] theorem post_dba0 (t : Thread) (w : RegWrite) (d : Option Nat) : (t.post w d).dba0 = t.dba0 := by
  unfold Thread.post
  repeat' split
  all_goals rfl
@[simp] theorem post_dba1 (t : Thread) (w : RegWrite) (d : Option Nat) : (t.post w d).dba1 = t.dba1 := by
  unfold Thread.post
  repeat' split
  all_goals rfl
@[simp] theorem post_eprio (t : Thread) (w : RegWrite) (d : Option Nat) : (t.post w d).eprio = t.eprio := by
  unfold Thread.post
  repeat' split
  all_goals rfl
@[simp] theorem post_frec (t : Thread) (w : RegWrite) (d : Option Nat) : (t.post w d).frec = t.frec := by
  unfold Thread.post
  repeat' split
  all_goals rfl
@[simp] theorem post_noBreak (t : Thread) (w : RegWrite) (d : Option Nat) : (t.post w d).noBreak = t.noBreak := by
  unfold Thread.post
  repeat' split
  all_goals rfl
@[simp] theorem post_atHome (t : Thread) (w : RegWrite) (d : Option Nat) : (t.post w d).atHome = t.atHome := by
  unfold Thread.post
  repeat' split
  all_goals rfl
@[simp] theorem post_run (t : Thread) (w : RegWrite) (d : Option Nat) : (t.post w d).run = t.run := by
  unfold Thread.post
  repeat' split
  all_goals rfl
@[simp] theorem post_status (t : Thread) (w : RegWrite) (d : Option Nat) : (t.post w d).status = t.status := by
  unfold Thread.post
  repeat' split
  all_goals rfl
@[simp] theorem post_firing (t : Thread) (w : RegWrite) (d : Option Nat) : (t.post w d).firing = t.firing := by
  unfold Thread.post
  repeat' split
  all_goals rfl
@[simp] theorem post_stores (t : Thread) (w : RegWrite) (d : Option Nat) : (t.post w d).stores = t.stores := by
  unfold Thread.post
  repeat' split
  all_goals rfl
@[simp] theorem post_held (t : Thread) (w : RegWrite) (d : Option Nat) : (t.post w d).held = t.held := by
  unfold Thread.post
  repeat' split
  all_goals rfl
@[simp] theorem post_traps (t : Thread) (w : RegWrite) (d : Option Nat) : (t.post w d).traps = t.traps := by
  unfold Thread.post
  repeat' split
  all_goals rfl
@[simp] theorem post_cut (t : Thread) (w : RegWrite) (d : Option Nat) : (t.post w d).cut = t.cut := by
  unfold Thread.post
  repeat' split
  all_goals rfl
@[simp] theorem post_wg (t : Thread) (w : RegWrite) (d : Option Nat) : (t.post w d).wg = t.wg := by
  unfold Thread.post
  repeat' split
  all_goals rfl
@[simp] theorem post_wgGen (t : Thread) (w : RegWrite) (d : Option Nat) : (t.post w d).wgGen = t.wgGen := by
  unfold Thread.post
  repeat' split
  all_goals rfl
@[simp] theorem post_tvalWhole (t : Thread) (w : RegWrite) (d : Option Nat) : (t.post w d).tvalWhole = t.tvalWhole := by
  unfold Thread.post
  repeat' split
  all_goals rfl
@[simp] theorem post_kept (t : Thread) (w : RegWrite) (d : Option Nat) : (t.post w d).kept = t.kept := by
  unfold Thread.post
  repeat' split
  all_goals rfl
@[simp] theorem post_bundles (t : Thread) (w : RegWrite) (d : Option Nat) : (t.post w d).bundles = t.bundles := by
  unfold Thread.post
  repeat' split
  all_goals rfl

theorem post_pend (t : Thread) (w : RegWrite) (d : Option Nat) :
    (t.post w d).pend = if w.dead then t.pend else t.pend ++ [⟨w, d⟩] := by
  unfold Thread.post
  split <;> rfl

@[simp] theorem tick_nt (t : Thread) (c : Cur) : (t.tick c).nt = t.nt + 1 + c.stall := rfl
@[simp] theorem tick_noBreak (t : Thread) (c : Cur) : (t.tick c).noBreak = false := rfl
@[simp] theorem tick_atHome (t : Thread) (c : Cur) : (t.tick c).atHome = false := rfl
@[simp] theorem tick_bundles (t : Thread) (c : Cur) : (t.tick c).bundles = t.bundles + 1 := rfl

/-! ## Thread.step and Thread.goto -/

@[simp] theorem step_g (t : Thread) (c : Cur) : (t.step c).g = t.g := by
  unfold Thread.step
  dsimp only
  split <;> rfl
@[simp] theorem step_c (t : Thread) (c : Cur) : (t.step c).c = t.c := by
  unfold Thread.step
  dsimp only
  split <;> rfl
@[simp] theorem step_p (t : Thread) (c : Cur) : (t.step c).p = t.p := by
  unfold Thread.step
  dsimp only
  split <;> rfl
@[simp] theorem step_v (t : Thread) (c : Cur) : (t.step c).v = t.v := by
  unfold Thread.step
  dsimp only
  split <;> rfl
@[simp] theorem step_m (t : Thread) (c : Cur) : (t.step c).m = t.m := by
  unfold Thread.step
  dsimp only
  split <;> rfl
@[simp] theorem step_pend (t : Thread) (c : Cur) : (t.step c).pend = t.pend := by
  unfold Thread.step
  dsimp only
  split <;> rfl
@[simp] theorem step_ras (t : Thread) (c : Cur) : (t.step c).ras = t.ras := by
  unfold Thread.step
  dsimp only
  split <;> rfl
@[simp] theorem step_area (t : Thread) (c : Cur) : (t.step c).area = t.area := by
  unfold Thread.step
  dsimp only
  split <;> rfl
@[simp] theorem step_ovr (t : Thread) (c : Cur) : (t.step c).ovr = t.ovr := by
  unfold Thread.step
  dsimp only
  split <;> rfl
@[simp] theorem step_tctl (t : Thread) (c : Cur) : (t.step c).tctl = t.tctl := by
  unfold Thread.step
  dsimp only
  split <;> rfl
@[simp] theorem step_tcause (t : Thread) (c : Cur) : (t.step c).tcause = t.tcause := by
  unfold Thread.step
  dsimp only
  split <;> rfl
@[simp] theorem step_tepc (t : Thread) (c : Cur) : (t.step c).tepc = t.tepc := by
  unfold Thread.step
  dsimp only
  split <;> rfl
@[simp] theorem step_tval (t : Thread) (c : Cur) : (t.step c).tval = t.tval := by
  unfold Thread.step
  dsimp only
  split <;> rfl
@[simp] theorem step_workid (t : Thread) (c : Cur) : (t.step c).workid = t.workid := by
  unfold Thread.step
  dsimp only
  split <;> rfl
@[simp] theorem step_lfsr (t : Thread) (c : Cur) : (t.step c).lfsr = t.lfsr := by
  unfold Thread.step
  dsimp only
  split <;> rfl
@[simp] theorem step_xferid (t : Thread) (c : Cur) : (t.step c).xferid = t.xferid := by
  unfold Thread.step
  dsimp only
  split <;> rfl
@[simp] theorem step_spov (t : Thread) (c : Cur) : (t.step c).spov = t.spov := by
  unfold Thread.step
  dsimp only
  split <;> rfl
@[simp] theorem step_lpsa (t : Thread) (c : Cur) : (t.step c).lpsa = t.lpsa := by
  unfold Thread.step
  dsimp only
  split <;> rfl
@[simp] theorem step_mcx (t : Thread) (c : Cur) : (t.step c).mcx = t.mcx := by
  unfold Thread.step
  dsimp only
  split <;> rfl
@[simp] theorem step_arcw (t : Thread) (c : Cur) : (t.step c).arcw = t.arcw := by
  unfold Thread.step
  dsimp only
  split <;> rfl
@[simp] theorem step_tpcc (t : Thread) (c : Cur) : (t.step c).tpcc = t.tpcc := by
  unfold Thread.step
  dsimp only
  split <;> rfl
@[simp] theorem step_dba0 (t : Thread) (c : Cur) : (t.step c).dba0 = t.dba0 := by
  unfold Thread.step
  dsimp only
  split <;> rfl
@[simp] theorem step_dba1 (t : Thread) (c : Cur) : (t.step c).dba1 = t.dba1 := by
  unfold Thread.step
  dsimp only
  split <;> rfl
@[simp] theorem step_eprio (t : Thread) (c : Cur) : (t.step c).eprio = t.eprio := by
  unfold Thread.step
  dsimp only
  split <;> rfl
@[simp] theorem step_frec (t : Thread) (c : Cur) : (t.step c).frec = t.frec := by
  unfold Thread.step
  dsimp only
  split <;> rfl
@[simp] theorem step_status (t : Thread) (c : Cur) : (t.step c).status = t.status := by
  unfold Thread.step
  dsimp only
  split <;> rfl
@[simp] theorem step_firing (t : Thread) (c : Cur) : (t.step c).firing = t.firing := by
  unfold Thread.step
  dsimp only
  split <;> rfl
@[simp] theorem step_stores (t : Thread) (c : Cur) : (t.step c).stores = t.stores := by
  unfold Thread.step
  dsimp only
  split <;> rfl
@[simp] theorem step_held (t : Thread) (c : Cur) : (t.step c).held = t.held := by
  unfold Thread.step
  dsimp only
  split <;> rfl
@[simp] theorem step_traps (t : Thread) (c : Cur) : (t.step c).traps = t.traps := by
  unfold Thread.step
  dsimp only
  split <;> rfl
@[simp] theorem step_cut (t : Thread) (c : Cur) : (t.step c).cut = t.cut := by
  unfold Thread.step
  dsimp only
  split <;> rfl
@[simp] theorem step_wg (t : Thread) (c : Cur) : (t.step c).wg = t.wg := by
  unfold Thread.step
  dsimp only
  split <;> rfl
@[simp] theorem step_wgGen (t : Thread) (c : Cur) : (t.step c).wgGen = t.wgGen := by
  unfold Thread.step
  dsimp only
  split <;> rfl
@[simp] theorem step_tvalWhole (t : Thread) (c : Cur) : (t.step c).tvalWhole = t.tvalWhole := by
  unfold Thread.step
  dsimp only
  split <;> rfl
@[simp] theorem step_kept (t : Thread) (c : Cur) : (t.step c).kept = t.kept := by
  unfold Thread.step
  dsimp only
  split <;> rfl
@[simp] theorem step_nt (t : Thread) (c : Cur) : (t.step c).nt = t.nt + 1 + c.stall := by
  unfold Thread.step
  dsimp only
  split <;> rfl
@[simp] theorem step_noBreak (t : Thread) (c : Cur) : (t.step c).noBreak = false := by
  unfold Thread.step
  dsimp only
  split <;> rfl
@[simp] theorem step_atHome (t : Thread) (c : Cur) : (t.step c).atHome = false := by
  unfold Thread.step
  dsimp only
  split <;> rfl
@[simp] theorem step_bundles (t : Thread) (c : Cur) : (t.step c).bundles = t.bundles + 1 := by
  unfold Thread.step
  dsimp only
  split <;> rfl
@[simp] theorem goto_g (t : Thread) (c : Cur) (x : Cap) : (t.goto c x).g = t.g := rfl
@[simp] theorem goto_c (t : Thread) (c : Cur) (x : Cap) : (t.goto c x).c = t.c := rfl
@[simp] theorem goto_p (t : Thread) (c : Cur) (x : Cap) : (t.goto c x).p = t.p := rfl
@[simp] theorem goto_v (t : Thread) (c : Cur) (x : Cap) : (t.goto c x).v = t.v := rfl
@[simp] theorem goto_m (t : Thread) (c : Cur) (x : Cap) : (t.goto c x).m = t.m := rfl
@[simp] theorem goto_pend (t : Thread) (c : Cur) (x : Cap) : (t.goto c x).pend = t.pend := rfl
@[simp] theorem goto_ras (t : Thread) (c : Cur) (x : Cap) : (t.goto c x).ras = t.ras := rfl
@[simp] theorem goto_area (t : Thread) (c : Cur) (x : Cap) : (t.goto c x).area = t.area := rfl
@[simp] theorem goto_ovr (t : Thread) (c : Cur) (x : Cap) : (t.goto c x).ovr = t.ovr := rfl
@[simp] theorem goto_tctl (t : Thread) (c : Cur) (x : Cap) : (t.goto c x).tctl = t.tctl := rfl
@[simp] theorem goto_tcause (t : Thread) (c : Cur) (x : Cap) : (t.goto c x).tcause = t.tcause := rfl
@[simp] theorem goto_tepc (t : Thread) (c : Cur) (x : Cap) : (t.goto c x).tepc = t.tepc := rfl
@[simp] theorem goto_tval (t : Thread) (c : Cur) (x : Cap) : (t.goto c x).tval = t.tval := rfl
@[simp] theorem goto_workid (t : Thread) (c : Cur) (x : Cap) : (t.goto c x).workid = t.workid := rfl
@[simp] theorem goto_lfsr (t : Thread) (c : Cur) (x : Cap) : (t.goto c x).lfsr = t.lfsr := rfl
@[simp] theorem goto_xferid (t : Thread) (c : Cur) (x : Cap) : (t.goto c x).xferid = t.xferid := rfl
@[simp] theorem goto_spov (t : Thread) (c : Cur) (x : Cap) : (t.goto c x).spov = t.spov := rfl
@[simp] theorem goto_lpsa (t : Thread) (c : Cur) (x : Cap) : (t.goto c x).lpsa = t.lpsa := rfl
@[simp] theorem goto_mcx (t : Thread) (c : Cur) (x : Cap) : (t.goto c x).mcx = t.mcx := rfl
@[simp] theorem goto_arcw (t : Thread) (c : Cur) (x : Cap) : (t.goto c x).arcw = t.arcw := rfl
@[simp] theorem goto_tpcc (t : Thread) (c : Cur) (x : Cap) : (t.goto c x).tpcc = t.tpcc := rfl
@[simp] theorem goto_dba0 (t : Thread) (c : Cur) (x : Cap) : (t.goto c x).dba0 = t.dba0 := rfl
@[simp] theorem goto_dba1 (t : Thread) (c : Cur) (x : Cap) : (t.goto c x).dba1 = t.dba1 := rfl
@[simp] theorem goto_eprio (t : Thread) (c : Cur) (x : Cap) : (t.goto c x).eprio = t.eprio := rfl
@[simp] theorem goto_frec (t : Thread) (c : Cur) (x : Cap) : (t.goto c x).frec = t.frec := rfl
@[simp] theorem goto_run (t : Thread) (c : Cur) (x : Cap) : (t.goto c x).run = t.run := rfl
@[simp] theorem goto_status (t : Thread) (c : Cur) (x : Cap) : (t.goto c x).status = t.status := rfl
@[simp] theorem goto_firing (t : Thread) (c : Cur) (x : Cap) : (t.goto c x).firing = t.firing := rfl
@[simp] theorem goto_stores (t : Thread) (c : Cur) (x : Cap) : (t.goto c x).stores = t.stores := rfl
@[simp] theorem goto_held (t : Thread) (c : Cur) (x : Cap) : (t.goto c x).held = t.held := rfl
@[simp] theorem goto_traps (t : Thread) (c : Cur) (x : Cap) : (t.goto c x).traps = t.traps := rfl
@[simp] theorem goto_cut (t : Thread) (c : Cur) (x : Cap) : (t.goto c x).cut = t.cut := rfl
@[simp] theorem goto_wg (t : Thread) (c : Cur) (x : Cap) : (t.goto c x).wg = t.wg := rfl
@[simp] theorem goto_wgGen (t : Thread) (c : Cur) (x : Cap) : (t.goto c x).wgGen = t.wgGen := rfl
@[simp] theorem goto_tvalWhole (t : Thread) (c : Cur) (x : Cap) : (t.goto c x).tvalWhole = t.tvalWhole := rfl
@[simp] theorem goto_kept (t : Thread) (c : Cur) (x : Cap) : (t.goto c x).kept = t.kept := rfl
@[simp] theorem goto_nt (t : Thread) (c : Cur) (x : Cap) : (t.goto c x).nt = t.nt + 1 + c.stall := rfl
@[simp] theorem goto_atHome (t : Thread) (c : Cur) (x : Cap) : (t.goto c x).atHome = false := rfl
@[simp] theorem goto_pcc (t : Thread) (c : Cur) (x : Cap) : (t.goto c x).pcc = x := rfl

/-- The address of the next bundle, where no repeat is active. -/
theorem step_pcc (t : Thread) (c : Cur) (hm : c.micro = false) (hl : bitW 63 t.lpst = false) :
    (t.step c).pcc = capSetOff t.pcc (t.pc + 2 * c.words) := by
  simp [Thread.step, loopStep, hm, hl, Thread.pc, Thread.tick]

/-- A micro-operation leaves the MCALL's address in PCC. -/
theorem step_micro (t : Thread) (c : Cur) (hm : c.micro = true) :
    (t.step c).pcc = t.pcc ∧ (t.step c).lpst = t.lpst := by
  simp [Thread.step, hm, Thread.nextMicro, Thread.tick]

/-! ## Thread.commit -/

@[simp] theorem commit_nt (t : Thread) (w : RegWrite) : (t.commit w).nt = t.nt := by cases w <;> rfl
@[simp] theorem commit_pend (t : Thread) (w : RegWrite) : (t.commit w).pend = t.pend := by cases w <;> rfl
@[simp] theorem commit_pcc (t : Thread) (w : RegWrite) : (t.commit w).pcc = t.pcc := by cases w <;> rfl
@[simp] theorem commit_ras (t : Thread) (w : RegWrite) : (t.commit w).ras = t.ras := by cases w <;> rfl
@[simp] theorem commit_area (t : Thread) (w : RegWrite) : (t.commit w).area = t.area := by cases w <;> rfl
@[simp] theorem commit_ovr (t : Thread) (w : RegWrite) : (t.commit w).ovr = t.ovr := by cases w <;> rfl
@[simp] theorem commit_tctl (t : Thread) (w : RegWrite) : (t.commit w).tctl = t.tctl := by cases w <;> rfl
@[simp] theorem commit_tcause (t : Thread) (w : RegWrite) : (t.commit w).tcause = t.tcause := by cases w <;> rfl
@[simp] theorem commit_tepc (t : Thread) (w : RegWrite) : (t.commit w).tepc = t.tepc := by cases w <;> rfl
@[simp] theorem commit_tval (t : Thread) (w : RegWrite) : (t.commit w).tval = t.tval := by cases w <;> rfl
@[simp] theorem commit_workid (t : Thread) (w : RegWrite) : (t.commit w).workid = t.workid := by cases w <;> rfl
@[simp] theorem commit_lfsr (t : Thread) (w : RegWrite) : (t.commit w).lfsr = t.lfsr := by cases w <;> rfl
@[simp] theorem commit_xferid (t : Thread) (w : RegWrite) : (t.commit w).xferid = t.xferid := by cases w <;> rfl
@[simp] theorem commit_spov (t : Thread) (w : RegWrite) : (t.commit w).spov = t.spov := by cases w <;> rfl
@[simp] theorem commit_lpst (t : Thread) (w : RegWrite) : (t.commit w).lpst = t.lpst := by cases w <;> rfl
@[simp] theorem commit_lpsa (t : Thread) (w : RegWrite) : (t.commit w).lpsa = t.lpsa := by cases w <;> rfl
@[simp] theorem commit_mcx (t : Thread) (w : RegWrite) : (t.commit w).mcx = t.mcx := by cases w <;> rfl
@[simp] theorem commit_arcw (t : Thread) (w : RegWrite) : (t.commit w).arcw = t.arcw := by cases w <;> rfl
@[simp] theorem commit_tpcc (t : Thread) (w : RegWrite) : (t.commit w).tpcc = t.tpcc := by cases w <;> rfl
@[simp] theorem commit_dba0 (t : Thread) (w : RegWrite) : (t.commit w).dba0 = t.dba0 := by cases w <;> rfl
@[simp] theorem commit_dba1 (t : Thread) (w : RegWrite) : (t.commit w).dba1 = t.dba1 := by cases w <;> rfl
@[simp] theorem commit_eprio (t : Thread) (w : RegWrite) : (t.commit w).eprio = t.eprio := by cases w <;> rfl
@[simp] theorem commit_frec (t : Thread) (w : RegWrite) : (t.commit w).frec = t.frec := by cases w <;> rfl
@[simp] theorem commit_noBreak (t : Thread) (w : RegWrite) : (t.commit w).noBreak = t.noBreak := by cases w <;> rfl
@[simp] theorem commit_atHome (t : Thread) (w : RegWrite) : (t.commit w).atHome = t.atHome := by cases w <;> rfl
@[simp] theorem commit_run (t : Thread) (w : RegWrite) : (t.commit w).run = t.run := by cases w <;> rfl
@[simp] theorem commit_status (t : Thread) (w : RegWrite) : (t.commit w).status = t.status := by cases w <;> rfl
@[simp] theorem commit_firing (t : Thread) (w : RegWrite) : (t.commit w).firing = t.firing := by cases w <;> rfl
@[simp] theorem commit_stores (t : Thread) (w : RegWrite) : (t.commit w).stores = t.stores := by cases w <;> rfl
@[simp] theorem commit_held (t : Thread) (w : RegWrite) : (t.commit w).held = t.held := by cases w <;> rfl
@[simp] theorem commit_traps (t : Thread) (w : RegWrite) : (t.commit w).traps = t.traps := by cases w <;> rfl
@[simp] theorem commit_cut (t : Thread) (w : RegWrite) : (t.commit w).cut = t.cut := by cases w <;> rfl
@[simp] theorem commit_wg (t : Thread) (w : RegWrite) : (t.commit w).wg = t.wg := by cases w <;> rfl
@[simp] theorem commit_wgGen (t : Thread) (w : RegWrite) : (t.commit w).wgGen = t.wgGen := by cases w <;> rfl
@[simp] theorem commit_tvalWhole (t : Thread) (w : RegWrite) : (t.commit w).tvalWhole = t.tvalWhole := by cases w <;> rfl
@[simp] theorem commit_kept (t : Thread) (w : RegWrite) : (t.commit w).kept = t.kept := by cases w <;> rfl
@[simp] theorem commit_bundles (t : Thread) (w : RegWrite) : (t.commit w).bundles = t.bundles := by cases w <;> rfl

end Sys2Proof.Machine
end

