-- ==== Sys2Proof/Laws/Run.lean ====
section
/-!
SUPPORT. What the shared operations can do, once for each: a meaning that runs a body, a body in steps, the results and the
going on of a thread, the checks of an access, a trap taken, and a park.
-/

namespace Sys2Proof.Machine

/-! ## A body in steps -/

theorem bind_ok {α β : Type} {m : M α} {f : α → M β} {s s' : State} {a : α} (h : m s = .ok a s') :
    (m >>= f) s = f a s' := by
  change EStateM.bind m f s = _
  simp [EStateM.bind, h]

theorem bind_error {α β : Type} {m : M α} {f : α → M β} {s s' : State} {e : Stop} (h : m s = .error e s') :
    (m >>= f) s = .error e s' := by
  change EStateM.bind m f s = _
  simp [EStateM.bind, h]

@[simp] theorem pure_run {α : Type} (a : α) (s : State) : (pure a : M α) s = .ok a s := rfl
@[simp] theorem get_run (s : State) : (get : M State) s = .ok s s := rfl
@[simp] theorem getTh_run (s : State) : getTh s = .ok s.th s := rfl
@[simp] theorem modify_run (f : State → State) (s : State) : (modify f : M Unit) s = .ok () (f s) := rfl
@[simp] theorem modTh_run (f : Thread → Thread) (s : State) : modTh f s = .ok () (s.setTh (f s.th)) := rfl
@[simp] theorem stop_run {α : Type} (e : Stop) (s : State) : (stop e : M α) s = .error e s := rfl
@[simp] theorem trap_run {α : Type} (n : Nat) (v : Word) (s : State) : (trap n v : M α) s = .error (.trap n v) s := rfl
@[simp] theorem trapWhole_run {α : Type} (n : Nat) (v : Word) (s : State) :
    (trapWhole n v : M α) s = .error (.trapWhole n v) s := rfl
@[simp] theorem writeL_run (k : Nat) (w : RegWrite) (s : State) :
    writeL k w s = .ok () (s.setTh (s.th.post w (some (s.th.nt + k)))) := rfl
@[simp] theorem writeI_run (w : RegWrite) (s : State) : writeI w s = .ok () (s.setTh (s.th.post w none)) := rfl
@[simp] theorem writeNow_run (w : RegWrite) (s : State) : writeNow w s = .ok () (s.setTh (s.th.now w)) := rfl
@[simp] theorem advance_run (s : State) : advance s = .ok () (s.setTh (s.th.step s.cur)) := rfl
@[simp] theorem jump_run (c : Cap) (s : State) : jump c s = .ok () (s.setTh (s.th.goto s.cur c)) := rfl

theorem runS_run {α : Type} (f : State → α × State) (s : State) : runS f s = .ok (f s).1 (f s).2 := rfl

/-! ## Meanings -/

/-- A body that ends gives its state; one that stops gives the state after the stop. -/
theorem run_ok {body : M Unit} {s t : State} (h : body s = .ok () t) : run body s = .next t := by
  unfold run
  rw [h]

theorem run_error {body : M Unit} {s t : State} {e : Stop} (h : body s = .error e t) :
    run body s = .next (t.stopped e) := by
  unfold run
  rw [h]

/-- A meaning over a body never faults and is never refused. -/
theorem run_next (body : M Unit) (s : State) : ∃ t, run body s = .next t := by
  unfold run
  split
  · exact ⟨_, rfl⟩
  · exact ⟨_, rfl⟩

theorem event_next (f : State → State) (s : State) : event f s = .next (f s) := rfl

/-- The state after a bundle that cannot stop. -/
theorem produce_next (lat : Option Nat) (f : Thread → List RegWrite) (s : State) :
    produce lat f s = .next (s.retire lat (f s.th)) := rfl

/-- A bundle that produces one result. -/
theorem retire_one (s : State) (lat : Option Nat) (w : RegWrite) :
    s.retire lat [w] = s.setTh ((s.th.post w (lat.map (s.th.nt + ·))).step s.cur) := rfl

/-! ## Checks (R88) -/

theorem checkCap_ok (w : Src) (c : Cap) (need : Nat) (ea : Int) (n align : Nat) (s : State)
    (h : capCheck c need ea n align = none) : checkCap w c need ea n align s = .ok () s := by
  simp [checkCap, h]

theorem checkCap_trap (w : Src) (c : Cap) (need : Nat) (ea : Int) (n align : Nat) (s : State) (k o : Nat)
    (h : capCheck c need ea n align = some (k, o)) :
    checkCap w c need ea n align s = .error (.trap k (tvalCap w.src w.creg o)) s := by
  simp [checkCap, h]

/-! ## Traps (R355, R358) -/

/-- The thread after a trap that its handler takes. -/
def Thread.trapped (t : Thread) (cause tepc : Nat) (tval : Word) (v : Cap) : Thread :=
  { t with
    tcause := BitVec.ofNat 64 (2 ^ 63 + cause)
    tepc := BitVec.ofNat 64 (tepc % 2 ^ 56)
    tval := tval
    tpcc := t.pcc
    lpst := putField 61 61 t.lpst 1
    mcx := (t.run.map mcxAt).getD t.mcx
    run := none
    status := .running
    noBreak := false
    atHome := false
    pcc := v }

theorem takeTrap_handled (s : State) (k cause tepc : Nat) (tval : Word) (v : Cap)
    (hv : s.trapVector (s.thread k).launchId = some v) (hi : (s.thread k).intrap = false) :
    s.takeTrap k cause tepc tval = s.setThread k ((s.thread k).trapped cause tepc tval v) := by
  simp [State.takeTrap, hv, hi, Thread.trapped]

theorem takeTrap_double (s : State) (k cause tepc : Nat) (tval : Word) (hi : (s.thread k).intrap = true) :
    s.takeTrap k cause tepc tval = s.unhandled k cause tepc tval := by
  unfold State.takeTrap
  dsimp only
  split
  · simp [hi]
  · rfl

theorem takeTrap_noHandler (s : State) (k cause tepc : Nat) (tval : Word)
    (hv : s.trapVector (s.thread k).launchId = none) :
    s.takeTrap k cause tepc tval = s.unhandled k cause tepc tval := by
  simp [State.takeTrap, hv]

/-! ## Parks (R158, R159) -/

theorem parkOr_parks {α : Type} (why : ParkWhy) (s : State) (h : s.th.handler = false) :
    (parkOr why : M α) s = .error (.park why) s := by
  unfold parkOr
  rw [bind_ok (get_run s)]
  simp [h]

theorem parkOr_traps {α : Type} (why : ParkWhy) (s : State) (h : s.th.handler = true) :
    (parkOr why : M α) s = .error (.trap 0x0A (BitVec.ofNat 64 s.cur.base.toNat)) s := by
  unfold parkOr
  rw [bind_ok (get_run s)]
  simp [h]

theorem park_thread (s : State) (k : Nat) (why : ParkWhy) :
    (s.park k why).thread k =
      { s.thread k with status := .parked ⟨why, s.cur.since.getD s.serial, s.cur, none⟩ } := by
  simp [State.park, State.thread, State.setThread]

/-! ## Stores (R189) -/

theorem issueStore_run (a : Nat) (bs : List Byte) (tag : Bool) (e : TlbEntry) (page : Nat) (s : State) :
    issueStore a bs tag e page s =
      .ok () (s.setTh
        { s.th with
          stores := s.th.stores ++
            [{ addr := a, bytes := bs, tag := tag, firing := (s.th.firing.map (·.id)).getD 0, obj := e.obj, page := page,
               mig := e.counts a, perm := e.perm }] }) := rfl

/-! ## Loads -/

theorem readHome_poison (w : Src) (off a n : Nat) (e : TlbEntry) (s : State)
    (h : s.poisonedPast s.th.stores a n = true) :
    readHome w off a n e s = .error (.trap 0x0F (tvalCap w.src w.creg off)) (s.countLoad off a e) := by
  unfold readHome
  rw [bind_ok (get_run s)]
  simp only [h, if_true]
  rfl

/-- A load at a home of this module that is not poisoned reads its bytes under the thread's own queued stores. -/
theorem readHome_ok (w : Src) (off a n : Nat) (e : TlbEntry) (s : State)
    (hp : s.poisonedPast s.th.stores a n = false) (hf : isForeign a = false) (hm : e.mig = false) :
    readHome w off a n e s = .ok (overlay s.th.stores a (memBytes s.mem a n)) s := by
  unfold readHome
  rw [bind_ok (get_run s)]
  simp only [hp, if_false, Bool.false_eq_true]
  rw [bind_ok (runS_run _ s)]
  simp only [State.homeRead, hf, if_false, Bool.false_eq_true]
  have hc : ∀ t : State, t.countLoad off a e = t := fun t => by simp [State.countLoad, TlbEntry.counts, hm]
  simp only [hc]
  rfl

end Sys2Proof.Machine
end

