-- ==== Sys2Proof/Tests/Slice0.lean ====
section
/-!
SUPPORT. Tests: words decode to what their encodings say, ill-formed terms are refused, single steps give what the rules
say, and witnesses that the hypotheses of each statement can be met together.
-/

namespace Sys2Proof.Tests

set_option Elab.async false

open Sys2Proof Sys2Proof.Machine Sys2Proof.Spec

/-! ## Decoding: words from the layouts of R34 and R35 and the slots of R56, fields written by hand -/

/-- The words decode to the instruction with the stall count, all of them in one bundle. -/
def reads (ws : List IWord) (i : Instr) (stall : Nat) : Bool :=
  match decodeWords ws with
  | .ok b => b.instr = i && b.stall.toNat = stall && b.words = ws.length
  | .error _ => false

theorem test_decode_page0_a :
    [
      reads [0x0000] (.ill 0 0) 0,
      reads [0xC200] (.nop) 3,
      reads [0x046A] (.mov 3 5) 0,
      reads [0x046B] (.movCap 3 5) 0,
      reads [0x0675] (.movi 3 (-11)) 0,
      reads [0x086A] (.add 3 3 5) 0,
      reads [0x7EA7, 0x0A6A] (.sub 19 21 7) 0,
      reads [0x7E06, 0x0C6A] (.addi 3 6 10) 0,
      reads [0x0E6A] (.and 3 3 5) 0,
      reads [0x106A] (.or 3 3 5) 0,
      reads [0x126A] (.xor 3 3 5) 0,
      reads [0x3F2C, 0x146B] (.shl 3 3 (.imm (-212))) 0,
      reads [0x166A] (.shr 3 3 (.reg 5)) 0,
      reads [0x7E09, 0x186A] (.sar 3 5 (.reg 9)) 0,
      reads [0x1A6A] (.mul 3 3 5) 0,
      reads [0xFE42, 0x1C6A] (.cmp .lt .i8 1 3 5) 0].all id = true := by decide

theorem test_decode_page0_b :
    [
      reads [0x7E04, 0xFE14, 0x1E7F] (.cmpi .gt 4 3 (-1)) 0,
      reads [0x20EA] (.sel 3 2 5 0) 0,
      reads [0x3E10, 0xFE40, 0x226B] (.ld (some .b) 3 ⟨5, .imm 16⟩) 0,
      reads [0x7E08, 0x246A] (.st none 3 ⟨5, .reg 8⟩) 0,
      reads [0x266B] (.ldc 3 ⟨5, .imm 0⟩) 0,
      reads [0x286B] (.stc 3 ⟨5, .imm 0⟩) 0,
      reads [0x2A6A] (.cadd 3 3 (.reg 5)) 0,
      reads [0x2DFF] (.b (-1)) 0,
      reads [0x2EE5] (.bc 3 true 5) 0,
      reads [0x3E01, 0x3002] (.call 514) 0,
      reads [0x3200] (.ret) 0,
      reads [0x346A] (.jmp 3 5) 0,
      reads [0x346B] (.jmpl 3 5) 0,
      reads [0x366A] (.jtab 3 5) 0,
      reads [0x3873] (.enq true 3 9) 0,
      reads [0x7E02, 0x3A72] (.deq 3 9 2) 0].all id = true := by decide

theorem test_decode_page0_c :
    [
      reads [0x3C00] (.done) 0].all id = true := by decide

theorem test_decode_page1_a :
    [
      reads [0xBE40, 0x006A] (.clz 3 5) 0,
      reads [0xBE40, 0x026A] (.ctz 3 5) 0,
      reads [0xBE40, 0x046A] (.popc 3 5) 0,
      reads [0xBE40, 0x066B] (.biti true 3 3 5) 0,
      reads [0xBE40, 0x086A] (.bitd false 3 3 5) 0,
      reads [0xBE40, 0x3E08, 0x3E04, 0x0A6B] (.bfx 3 3 (.imm 4100)) 0,
      reads [0xBE40, 0x0C6A] (.bfi 3 3 (.reg 5)) 0,
      reads [0xBE40, 0x0E6B] (.mulh true 3 3 5) 0,
      reads [0xBE40, 0x106A] (.div false 3 3 5) 0,
      reads [0xBE40, 0x126B] (.rem true 3 3 5) 0,
      reads [0xBE40, 0x146B] (.min true 3 3 5) 0,
      reads [0xBE40, 0x166A] (.max false 3 3 5) 0,
      reads [0xBE40, 0x186A] (.csetb 3 3 (.reg 5)) 0,
      reads [0xBE40, 0x3F00, 0x1861] (.csetb 3 3 (.imm 256)) 0,
      reads [0xBE40, 0x7E15, 0x1A6A] (.cseta 3 5 (.reg 21)) 0,
      reads [0xBE40, 0x1C6A] (.cgeta 3 5) 0,
      reads [0xBE40, 0x1C6B] (.cgeto 3 5) 0].all id = true := by decide

theorem test_decode_page1_b :
    [
      reads [0xBE40, 0x1E6A] (.cgetl 3 5) 0,
      reads [0xBE40, 0x1E6B] (.cgetb 3 5) 0,
      reads [0xBE40, 0x206A] (.cres 3 3 5) 0,
      reads [0xBE40, 0x226A] (.cfmt 3 3 5) 0,
      reads [0xBE40, 0x7E80, 0x246A] (.cgetf 19 5) 0,
      reads [0xBE40, 0xFF14, 0x266A] (.fadd .rs .fp16 3 3 5) 0,
      reads [0xBE40, 0xFF14, 0x286A] (.fsub .rs .fp16 3 3 5) 0,
      reads [0xBE40, 0xFF14, 0x2A6A] (.fmul .rs .fp16 3 3 5) 0,
      reads [0xBE40, 0xFF14, 0x2C6A] (.ffma .rs .fp16 3 3 5) 0,
      reads [0xBE40, 0xFF14, 0x2E6A] (.fdiv .rs .fp16 3 3 5) 0,
      reads [0xBE40, 0xFED8, 0x306A] (.fsqrt .rd .bf16 3 5) 0,
      reads [0xBE40, 0x326A] (.fmin .fp32 3 3 5) 0,
      reads [0xBE40, 0xFE18, 0x346A] (.fmax .bf16 3 3 5) 0,
      reads [0xBE40, 0x7E07, 0xFF4E, 0x366A] (.fcmp .un .fp32 3 5 7) 0,
      reads [0xBE40, 0xFE4C, 0x386A] (.fcvt .rz .i32 3 5) 0,
      reads [0xBE40, 0xFEA4, 0x386B] (.fcvtf .ru .e4m3 3 5) 0].all id = true := by decide

theorem test_decode_page1_c :
    [
      reads [0xBE40, 0xFE80, 0x3A6A] (.sext .h 3 5) 0,
      reads [0xBE40, 0xFEC0, 0x3C6A] (.zext .w 3 5) 0].all id = true := by decide

theorem test_decode_page2_a :
    [
      reads [0xBE80, 0x3E08, 0x006B] (.vld 3 ⟨5, .imm 8⟩ 0) 0,
      reads [0xBE80, 0x7EC9, 0x026A] (.vst 3 ⟨5, .reg 9⟩ 3) 0,
      reads [0xBE80, 0x7E07, 0xFE09, 0x046B] (.vldx .i16 true 3 5 7 ⟨0, true⟩) 0,
      reads [0xBE80, 0x7E47, 0xFEA4, 0x066A] (.vstx .ru .e4m3 3 5 7 1) 0,
      reads [0xBE80, 0xFE54, 0x086B] (.vadd .rz .fp16 3 3 5 ⟨0, true⟩) 0,
      reads [0xBE80, 0xFE54, 0x0A6B] (.vsub .rz .fp16 3 3 5 ⟨0, true⟩) 0,
      reads [0xBE80, 0xFE54, 0x0C6B] (.vmul .rz .fp16 3 3 5 ⟨0, true⟩) 0,
      reads [0xBE80, 0xFE54, 0x0E6B] (.vfma .rz .fp16 3 3 5 ⟨0, true⟩) 0,
      reads [0xBE80, 0x7FC7, 0xFE05, 0x106A] (.vmin .i8 true 3 5 7 ⟨7, false⟩) 0,
      reads [0xBE80, 0xFE10, 0x126A] (.vmax .i64 false 3 3 5 ⟨0, false⟩) 0,
      reads [0xBE80, 0x146A] (.vand 3 3 5 ⟨0, false⟩) 0,
      reads [0xBE80, 0x166A] (.vor 3 3 5 ⟨0, false⟩) 0,
      reads [0xBE80, 0x186A] (.vxor 3 3 5 ⟨0, false⟩) 0,
      reads [0xBE80, 0x7E00, 0xFE08, 0x3E07, 0x1A6B] (.vshl .i16 3 5 (.imm 7) 0) 0,
      reads [0xBE80, 0x7F06, 0xFE0D, 0x1C6A] (.vshr .i32 true 3 5 (.reg 6) 4) 0,
      reads [0xBE80, 0x7E06, 0xFEC6, 0x1E6A] (.vcmp .ltu .i32 3 5 6 ⟨0, false⟩) 0].all id = true := by decide

/-- R138's example, read and written as its source names the suffixes (R64). -/
theorem test_vcmp_example :
    (reads [0xBE80, 0x7E03, 0xFE4E, 0x1E42] (.vcmp .lt .fp32 2 1 3 ⟨0, false⟩) 0 &&
      encodeWritten [.cond .lt, .elem .fp32] (.vcmp .lt .fp32 2 1 3 ⟨0, false⟩) 0 = some [0xBE80, 0x7E03, 0xFE4E, 0x1E42]) = true := by
  decide

/-- Words of the examples of R118 and R198, whose payload an operand gives, and suffixes that raise E102 (R64). -/
theorem test_written_suffixes :
    (encodeWritten [] (.mcall 12 20 21 9 40) 0 = some [0x3E28, 0xBFC0, 0x7EA9, 0xFE0C, 0x088B] &&
      encodeWritten [.scope .dev] (.rget .dev 6 7 8 9) 0 = some [0xBF00, 0x7E08, 0xFE29, 0x12CE] &&
      encodeWritten [.rnd .rz] (.add 3 3 4) 0 = none &&
      encodeWritten [.rnd .rz, .rnd .rz] (.fadd .rz .fp32 3 3 4) 0 = none) = true := by decide

/-- VMASK and VTWOI with a payload of zero (R133), FENCE's kinds as R193's example writes them, and an explicit rounding and scope (R64). -/
theorem test_written_zero_payload :
    (encodeWritten [] (.vmask 1 (.mov 3 5) ⟨0, false⟩) 0 = some [0xBE80, 0xFE00, 0x3C6A] &&
      (encodeWritten [] (.vtwo .intersect 0 1 2 3 4 ⟨0, false⟩) 0).any (fun l => 0xFE00 ∈ l) &&
      encodeWritten [.kind .sl, .scope .dev] (.fence ⟨false, false, true, false⟩ .dev) 0 = some [0xBF00, 0xFE24, 0x0000] &&
      encodeWritten [.kind .ll, .kind .ls, .kind .sl, .kind .ss] (.fence ⟨true, true, true, true⟩ .core) 0 = some [0xBF00, 0xFE0F, 0x0000] &&
      encodeWritten [.kind .ll, .kind .ll] (.fence ⟨true, false, false, false⟩ .core) 0 = none &&
      (encodeWritten [.rnd .rne] (.fmin .fp32 1 2 3) 0).any (fun l => 0xFE00 ∈ l)) = true := by decide

theorem test_decode_page2_b :
    [
      reads [0xBE80, 0x7E86, 0x206A] (.vsel 3 5 6 2) 0,
      reads [0xBE80, 0xFE14, 0x226A] (.vbcast .fp16 3 5 ⟨0, false⟩) 0,
      reads [0xBE80, 0x3E02, 0xFE04, 0x246B] (.vext .i8 3 5 (.imm 2)) 0,
      reads [0xBE80, 0x7E09, 0x266A] (.vins .i32 3 5 (.reg 9)) 0,
      reads [0xBE80, 0xFE9C, 0x286A] (.vred .add .ru .fp32 3 5 0) 0,
      reads [0xBE80, 0xFE0E, 0x2A6B] (.vscan .max .rne .i32 3 5 ⟨0, true⟩) 0,
      reads [0xBE80, 0x2C6A] (.vperm 3 3 5 ⟨0, false⟩) 0,
      reads [0xBE80, 0xFF18, 0x2E6A] (.vcvt false .rs .bf16 3 5 ⟨0, false⟩) 0,
      reads [0xBE80, 0x7E06, 0xFEC9, 0x306A] (.vtwo .union 2 3 3 5 6 ⟨0, false⟩) 0,
      reads [0xBE80, 0xFE1C, 0x326A] (.vcomp .fp32 3 5 ⟨0, false⟩) 0,
      reads [0xBE80, 0x346B] (.vxpnd .i32 3 5 ⟨0, true⟩) 0,
      reads [0xBE80, 0x366A] (.vbiti 3 3 5 ⟨0, false⟩) 0,
      reads [0xBE80, 0xFE10, 0x386A] (.vclz .i64 3 5 ⟨0, false⟩) 0,
      reads [0xBE80, 0xFE04, 0x3A6A] (.vpopc .i8 3 5 ⟨0, false⟩) 0,
      reads [0xBE80, 0x7E06, 0xFE84, 0x3C6A] (.vmask 2 (.andn 3 5 6) ⟨0, false⟩) 0,
      reads [0xBE80, 0xFE07, 0x3C6A] (.vmask 1 (.toG 3 5) ⟨0, false⟩) 0].all id = true := by decide

theorem test_decode_page3 :
    [
      reads [0xBEC0, 0xFE80, 0x0073] (.enqn true 2 3 9) 0,
      reads [0xBEC0, 0xFE80, 0x7E04, 0x0272] (.deqn 2 3 9 4) 0,
      reads [0xBEC0, 0x0472] (.qcnt 3 9) 0,
      reads [0xBEC0, 0x0673] (.qctl 3 9 (.imm 0)) 0,
      reads [0xBEC0, 0x3E01, 0x0673] (.qctlDiscard 3 9) 0,
      reads [0xBEC0, 0x3E02, 0x0673] (.qctlDisarm 3 9) 0,
      reads [0xBEC0, 0x7E06, 0x0920] (.qlh 9 (.reg 6)) 0,
      reads [0xBEC0, 0x0A70] (.fire 3 8) 0,
      reads [0xBEC0, 0xFE80, 0x0C70] (.firen 2 3 8) 0,
      reads [0xBEC0, 0x0E65] (.arrive true 3 2) 0,
      reads [0xBEC0, 0x7E06, 0x1064] (.arrb false 3 2 6) 0,
      reads [0xBEC0, 0x1264] (.bwait 3 2) 0,
      reads [0xBEC0, 0xFE80, 0x1464] (.bwaitn 2 3 2) 0,
      reads [0xBEC0, 0x1600] (.falign) 0,
      reads [0xBEC0, 0x3E07, 0x1861] (.wid 3 (.imm 7)) 0,
      reads [0xBEC0, 0x7E06, 0x1A00] (.prio (.reg 6)) 0].all id = true := by decide

theorem test_decode_page4_a :
    [
      reads [0xBF00, 0xFE29, 0x0000] (.fence ⟨true, false, false, true⟩ .dev) 0,
      reads [0xBF00, 0xFE90, 0x026B] (.lda (some .h) .arc 3 ⟨5, .imm 0⟩) 0,
      reads [0xBF00, 0xFEF0, 0x046B] (.strel (some .w) .sys 3 ⟨5, .imm 0⟩) 0,
      reads [0xBF00, 0x066B] (.ldver 3 ⟨5, .imm 0⟩) 0,
      reads [0xBF00, 0xFF00, 0x086B] (.ldvern 4 3 ⟨5, .imm 0⟩) 0,
      reads [0xBF00, 0x0A6B] (.stver 3 ⟨5, .imm 0⟩) 0,
      reads [0xBF00, 0x0C6B] (.reclaim 3 ⟨5, .imm 0⟩) 0,
      reads [0xBF00, 0xFED9, 0x0E6B] (.amo .fadd (some .w) .arc 3 ⟨5, .imm 0⟩) 0,
      reads [0xBF00, 0x7E06, 0xFF26, 0x106A] (.cas (some .d) .dev 3 3 5 6) 0,
      reads [0xBF00, 0x7E06, 0xFE27, 0x126A] (.rget .dev 3 5 6 7) 0,
      reads [0xBF00, 0x7E06, 0xFE27, 0x146A] (.rsend .dev 3 5 6 7) 0,
      reads [0xBF00, 0x7E06, 0xFE27, 0x166A] (.rgetx .dev 3 5 6 7) 0,
      reads [0xBF00, 0x7E06, 0xFE27, 0x186A] (.rsendx .dev 3 5 6 7) 0,
      reads [0xBF00, 0x7E06, 0xFE27, 0x1A6A] (.rsig .dev 3 5 6 7) 0,
      reads [0xBF00, 0x7E06, 0xFE0E, 0x1C6B] (.rarith .max true .i32 3 5 6) 0,
      reads [0xBF00, 0x1E6A] (.cntw 3 5) 0].all id = true := by decide

theorem test_decode_page4_b :
    [
      reads [0xBF00, 0xFE80, 0x206A] (.cntwn 2 3 5) 0,
      reads [0xBF00, 0x226A] (.cntrd 3 5) 0].all id = true := by decide

theorem test_decode_page5 :
    [
      reads [0xBF40, 0x7E06, 0xFE80, 0x006A] (.mplane 4 3 5 6) 0,
      reads [0xBF40, 0x7E06, 0xFE6A, 0x02EA] (.mma (some (3, 5)) 3 5 2 6) 0,
      reads [0xBF40, 0x7E06, 0x04EA] (.mmas none 3 5 2 6) 0,
      reads [0xBF40, 0x7E06, 0xFF1A, 0x066A] (.mepi .gelu .rs (some .bf16) 3 5 6) 0,
      reads [0xBF40, 0x0661] (.mepirp 3) 0,
      reads [0xBF40, 0x0860] (.mzero 3) 0,
      reads [0xBF40, 0x0A60] (.mrel 3) 0,
      reads [0xBF40, 0x0D26] (.mstat 9 3) 0,
      reads [0xBF40, 0x0D27] (.mstatc 9 3) 0,
      reads [0xBF40, 0x0E06] (.mwait 3) 0,
      reads [0xBF40, 0x106A] (.copy 3 5) 0,
      reads [0xBF40, 0x7E06, 0xFE8B, 0x126A] (.cut 11 2 3 5 6) 0,
      reads [0xBF40, 0x7E06, 0x146B] (.cocut true 3 5 6) 0,
      reads [0xBF40, 0x166A] (.cresume 3 5) 0,
      reads [0xBF40, 0x166B] (.cdrop 3 5) 0].all id = true := by decide

theorem test_decode_page6 :
    [
      reads [0xBF80, 0x006A] (.trav 3 5) 0,
      reads [0xBF80, 0x0260] (.dtrav 3) 0,
      reads [0xBF80, 0x7E06, 0x046A] (.pair 3 5 6) 0,
      reads [0xBF80, 0xFE80, 0x066A] (.wgres 2 3 5) 0,
      reads [0xBF80, 0x0870] (.wgcom 3 8) 0,
      reads [0xBF80, 0x0A70] (.wgabn 3 8) 0,
      reads [0xBF80, 0x7E08, 0x0C6A] (.wgstat 3 5 8) 0,
      reads [0xBF80, 0x0E6A] (.mom 3 5) 0,
      reads [0xBF80, 0x0E6B] (.momd 3 5) 0].all id = true := by decide

theorem test_decode_page7 :
    [
      reads [0xBFC0, 0x01F4] (.trap 500) 0,
      reads [0xBFC0, 0x03F4] (.brk (-12)) 0,
      reads [0xBFC0, 0x046E] (.srd 3 14) 0,
      reads [0xBFC0, 0x0661] (.swr 3 1) 0,
      reads [0xBFC0, 0x7FC8, 0xFE4D, 0x086A] (.mcall 77 51 37 8 0) 0,
      reads [0xBFC0, 0x0A43] (.rep 3 2) 0,
      reads [0xBFC0, 0x0C83] (.loopp 3 2) 0,
      reads [0xBFC0, 0x0E00] (.eret) 0,
      reads [0xBFC0, 0x106B] (.objinv true 3 5) 0,
      reads [0xBFC0, 0x126A] (.mwr 3 5) 0,
      reads [0xBFC0, 0x1261] (.mrd 3) 0,
      reads [0xBFC0, 0x7E06, 0x146A] (.launch 3 5 6) 0,
      reads [0xBFC0, 0x166A] (.close 3 5) 0,
      reads [0xBFC0, 0x186A] (.ctxsv 3 5) 0,
      reads [0xBFC0, 0x1A6A] (.ctxld 3 5) 0,
      reads [0xBFC0, 0x1C00] (.waiti) 0].all id = true := by decide

/-! ## WellFormed: an ill-formed term for each check -/

theorem test_wf_refuses_immediates :
    [Instr.movi 1 (2 ^ 40), .addi 1 2 (2 ^ 40), .bc 1 false (2 ^ 40), .b (2 ^ 44), .call (2 ^ 44), .shl 1 1 (.imm (2 ^ 35)),
      .cadd 1 1 (.imm (2 ^ 35)), .cmpi .eq 1 1 (2 ^ 40), .ld none 1 ⟨2, .imm (2 ^ 35)⟩, .vshl .i32 1 1 (.imm (2 ^ 36)) 0,
      .wid 1 (.imm (2 ^ 36)), .csetb 1 1 (.imm (2 ^ 36)), .qlh 9 (.imm (2 ^ 35)), .trap (2 ^ 45), .brk (2 ^ 44), .mcall 1 1 1 1 (2 ^ 35),
      .vld 1 ⟨2, .imm (2 ^ 35)⟩ 0].any Instr.wf = false := by decide

theorem test_wf_refuses_codes :
    [Instr.cmp .eq .fp32 1 1 1, .cmp .un .i64 1 1 1, .cmpi .ord 1 1 0, .fadd .rne .i32 1 1 1, .fcmp .ltu .fp32 1 1 1,
      .fcvt .rne .i8 1 1, .sext .d 1 1, .vldx .i64 false 1 1 1 ⟨0, false⟩, .vstx .rz .i8 1 1 1 0,
      .vadd .rs .fp16 1 1 1 ⟨0, false⟩, .vadd .rne .e4m3 1 1 1 ⟨0, false⟩, .vfma .rne .i32 1 1 1 ⟨0, false⟩,
      .vmin .fp32 true 1 1 1 ⟨0, false⟩, .vshl .fp32 1 1 (.reg 1) 0, .vcmp .eq .fp16 1 1 1 ⟨0, false⟩,
      .vcmp .un .i32 1 1 1 ⟨0, false⟩, .vbcast .e4m3 1 1 ⟨0, false⟩, .vred .min .rz .fp32 1 1 0, .vred .add .rs .fp32 1 1 0,
      .vcvt true .rz .fp16 1 1 ⟨0, false⟩, .vcvt true .rne .i64 1 1 ⟨0, false⟩, .vcomp .fp16 1 1 ⟨0, false⟩,
      .vclz .fp32 1 1 ⟨0, false⟩, .amo .swap (some .b) .core 1 ⟨1, .imm 0⟩, .amo .fadd (some .d) .core 1 ⟨1, .imm 0⟩,
      .cas (some .h) .core 1 1 1 1, .rarith .add false .fp16 1 1 1, .mepi .none .rne (some .i8) 1 1 1,
      .fence ⟨false, false, false, false⟩ .core].any Instr.wf = false := by decide

theorem test_wf_refuses_registers :
    [Instr.vld 1 ⟨2, .reg 16⟩ 0, .vbcast .i32 1 16 ⟨0, false⟩, .vext .i32 16 1 (.imm 0), .vins .i32 1 16 (.imm 0),
      .vred .add .rne .i32 16 1 0, .vmask 1 (.fromG 1 16) ⟨0, false⟩, .vmask 1 (.toG 16 1) ⟨0, false⟩,
      .vmask 0 (.mov 1 1) ⟨0, false⟩, .vtwo .union 0 0 1 1 1 ⟨0, false⟩, .enqn false 0 1 9, .deqn 0 1 9 1, .bwaitn 0 1 1,
      .cntwn 0 1 1, .wgres 0 1 1, .firen 0 1 1, .ldvern 0 1 ⟨1, .imm 0⟩, .cut 1 0 1 1 1, .fire 1 25, .cocut true 31 1 1,
      .wgcom 29 1, .mma none 1 1 8 1, .rgetx .core 1 1 1 0, .srd 16 7, .qctl 1 9 (.imm 1), .qctl 1 9 (.imm 2), .ill 1 0,
      .ill 0 0x0200, .waitiTimeout 0 0, .closeResume 1, .wgstatBind 1 1].any Instr.wf = false := by decide

/-- A fifth prefix word would be needed: three PFX.I with PFX.R and PFX.P. -/
theorem test_wf_refuses_six_words :
    (Instr.bfx 1 2 (.imm (2 ^ 30))).wf = true ∧ (Instr.bfx 1 2 (.imm (2 ^ 30))).encodable 0 = false := by decide

/-- R38, R53: specifiers beyond their files, set must-be-zero bits and prefixes that are not accepted take trap 0x01. -/
theorem test_decoder_refuses :
    -- MOV c16: PFX.R ah 1
    decodeWords [0x7E80, 0x0401] = .error (.illegal 5 0 0x7E80) ∧
    -- NOP with an operand bit set
    decodeWords [0x0201] = .error (.illegal 3 0 0x0201) ∧
    -- NOP with a PFX.I
    decodeWords [0x3E01, 0x0200] = .error (.illegal 2 0 0x3E01) ∧
    -- two PFX.R
    decodeWords [0x7E00, 0x7E01, 0x0860] = .error (.illegal 1 1 0x7E01) ∧
    -- CMP with condition code 12
    decodeWords [0xFF80, 0x1C60] = .error (.illegal 4 0 0xFF80) ∧
    -- page 3 slot 14
    decodeWords [0xBEC0, 0x1C00] = .error (.illegal 0 1 0x1C00) ∧
    -- five prefix words
    decodeWords [0x3E00, 0x3E00, 0x3E00, 0x3E00, 0x7E01] = .error (.chain 0x7E01) := by decide

/-! ## A small state -/

/-- The module with an item firing of a supervisor launch in context 0 of core 1,008, whose trap handler stands at 0x100. -/
def base : State := { State.reset.load [] with cur := ⟨1008, 0, 0, 1, 0, false, .nop, none, none⟩, sched := [] }

/-- The executing thread changed. -/
def thr (f : Thread → Thread) (s : State) : State := s.setTh (f s.th)

/-- g registers set. -/
def gs (l : SMap Word) (s : State) : State := thr (fun t => { t with g := l }) s

/-- c registers set. -/
def cs (l : SMap Cap) (s : State) : State := thr (fun t => { t with c := l }) s

/-- A capability with every right over 64 KiB of object 1. -/
def data (fmt bl off : Nat) : Cap :=
  let c := capOver 1 0 65536 off 0xFF
  { c with w0 := BitVec.ofNat 64 (fmt * 2 ^ 59 + bl * 2 ^ 56 + off) }

/-- Page 0 of object 1, with every right, in frame 32 of slice 0: home address 2,097,152. -/
def page0 : TlbEntry :=
  { obj := 1, page := 0, count := 1, loc := 1, perm := 0xFF, frame := 32, home := 0, mod := 0, ship := false, mig := false,
    ver := false }

/-- The small state with object 1 in the core's TLB and named by c1 at offset 64. -/
def withData : State := cs [(1, data 0 0 64)] { base with tlb := [(1008, [page0, loadEntry 0])] }

/-- The same object with the versioned attribute. -/
def withVers : State := cs [(1, data 0 0 64)] { base with tlb := [(1008, [{ page0 with ver := true }, loadEntry 0])] }

/-- Handler code. -/
def inHandler (s : State) : State :=
  thr (fun t => { t with firing := t.firing.map fun (f : Firing) => { f with kind := 2 } }) s

/-- The body went through. -/
def okM {α : Type} : EStateM.Result Stop State α → Bool
  | .ok _ _ => true
  | .error _ _ => false

/-- The body stopped. -/
def stopM {α : Type} (r : EStateM.Result Stop State α) : Bool := !okM r

/-- The engine's access went through. -/
def okE {ε α β : Type} : Except ε α × β → Bool
  | (.ok _, _) => true
  | (.error _, _) => false

/-- The translation gave an address. -/
def at_ (a : Nat) : EStateM.Result Stop State (Nat × TlbEntry) → Bool
  | .ok (x, _) _ => x = a
  | .error _ _ => false

/-- All of a list of conditions hold. -/
def allOf (l : List Bool) : Bool := l.all id

/-- The next state has a property. -/
def gives (o : Host.Outcome State Fault Refusal) (p : State → Bool) : Bool :=
  match o with
  | .next s => p s
  | .fault _ => false
  | .refused _ => false

theorem test_base_has_no_moves : NoMoves base ∧ NoMoves withData ∧ NoMoves withVers := ⟨fun _ => rfl, fun _ => rfl, fun _ => rfl⟩

/-! ## Steps: a placed word runs as the first instruction after reset -/

/-- ADDI g1, 5 is the word 0x0C25: g1 becomes 5 at nominal time 1, and the next bundle is at 2. -/
theorem test_step_runs_addi :
    gives (step (State.reset.withFetchWord 16 0x0C25)) (fun s =>
      let t := s.thread 8064
      t.pc = 2 && t.nt = 1 && (t.settle []).rg 1 = 5) = true := by decide +kernel

/-- Page 7 slot 7, ERET with INTRAP clear, takes trap 0x01: the handler stands at 0x100 and TEPC at the bundle (R355, R358). -/
theorem test_step_takes_trap :
    gives (step (State.reset.withFetchWord 32 0xBFC00E00)) (fun s =>
      let t := s.thread 8064
      t.pc = 0x100 && t.tcause = BitVec.ofNat 64 (2 ^ 63 + 1) && t.tepc = 0) = true := by decide +kernel

/-- A word of memory that lists nothing is ILL (R55). -/
theorem test_step_on_empty_memory :
    gives (step { base with sched := [.issue 1008 0] }) (fun s =>
      (s.thread 8064).tval = BitVec.ofNat 64 (7 * 2 ^ 20)) = true := by decide +kernel

/-! ## Hypotheses that can be met: encoding, step and fetch -/

theorem test_meets_CorePagesRoundTrip :
    (encParts (.add 3 3 5)).map (·.1) = some 0 ∧ (Instr.add 3 3 5).encodable 255 = true ∧
    (encParts (.fdiv .rs .fp16 31 30 29)).map (·.1) = some 1 ∧ (Instr.fdiv .rs .fp16 31 30 29).encodable 255 = true ∧
    (encParts (.vbiti 1 2 3 ⟨7, true⟩)).map (·.1) = some 2 ∧ (Instr.vbiti 1 2 3 ⟨7, true⟩).encodable 255 = true ∧
    opOf 0xC1FF = 0 := by decide +kernel

theorem test_meets_SystemPagesRoundTrip :
    (encParts .falign).map (·.1) = some 3 ∧ Instr.falign.encodable 0 = true ∧
    (encParts (.cntrd 31 15)).map (·.1) = some 4 ∧ (Instr.cntrd 31 15).encodable 3 = true ∧
    (encParts (.mwait 7)).map (·.1) = some 5 ∧ (Instr.mwait 7).encodable 4 = true ∧
    (encParts (.momd 31 15)).map (·.1) = some 6 ∧ (Instr.momd 31 15).encodable 255 = true ∧
    (encParts (.loopp 63 0x3FFFFFFF)).map (·.1) = some 7 ∧ (Instr.loopp 63 0x3FFFFFFF).encodable 255 = true := by decide +kernel

/-- ADDI g1, 5 placed; a reserved word; and a PCC without a tag. -/
theorem test_meets_StepRunsDecoded :
    let s := { State.reset.withFetchWord 16 0x0C25 with cur := Cur.at_ 1008 0 }
    let i := Instr.addi 1 1 5
    allOf [s.boot = .running, s.sched = [.issue 1008 0], (s.thread (tidOf 1008 0)).status = .running, !s.th.mustDeliver,
      s.th.run = none, (match fetchBundle s with
        | .ok ws _ => decodeWords ws = .ok ⟨i, 0, 1⟩
        | .error _ _ => false),
      (s.th.returning i).isNone, s.legal i = none, s.th.breakAt 1 = none, s.th.earlyTrap (s.th.reads i) = none,
      (match fetchBundle { State.reset.withFetchWord 32 0xBEC01C00 with cur := Cur.at_ 1008 0 } with
        | .ok ws _ => decodeWords ws = .error (.illegal 0 1 0x1C00)
        | .error _ _ => false),
      stopM (fetchBundle (thr (fun t => { t with pcc := nullCap }) s)),
      -- ERET with INTRAP clear and a PFX.R: reason 0 of the state is smaller than reason 2 of the words
      (let ws : List IWord := [0xBFC0, 0x7E00, 0x0E00]
       match splitBundle 4 [] ws, decodeWords ws with
        | .ok x, .error (.illegal r _ _) =>
          match ({ s with cur := Cur.ofWords 1008 0 ws } : State).legal (decodeRaw x).2 with
          | some (c, v) => c = 1 && fieldW 23 20 v < r
          | none => false
        | _, _ => false)] = true := by decide +kernel

theorem test_meets_FetchReadsCode :
    (nullCap.tag = false) ∧
    (let c := capOver 0 0 64 0 rR
     c.tag = true ∧ c.w1.getLsbD 5 = false) ∧
    (let c := capOver 0 0 64 64 (rR + rX)
     c.tag = true ∧ c.w1.getLsbD 5 = true ∧ capTop c < 64 + 2) ∧
    (let t := base.th
     t.pcc.w1.getLsbD 5 = true ∧ capBase t.pcc ≤ 0 ∧ 0 + 2 ≤ capTop t.pcc ∧ base.bodyOf t = none ∧
     at_ loadAddr (codeHome 0 base) = true ∧ base.codeLine 63 0 0 0 = none ∧ base.poisoned loadAddr 2 = false ∧
     isForeign loadAddr = false ∧ ({ base with poison := [loadAddr] }).poisoned loadAddr 2 = true ∧
     (({ base with icache := [(63, [⟨0, 0, List.replicate 64 1, [1], 0⟩])] }).codeLine 63 0 0 0).isSome = true) := by decide +kernel

theorem test_meets_IllegalInstructions :
    let split := fun (ws : List IWord) (page op : Nat) =>
      match splitBundle 4 [] ws with
      | .ok x => decide (x.page = page ∧ opOf x.base = op)
      | .error _ => false
    allOf [split [0x7E00, 0x7E00, 0x0001] 0 0, split [0xBFC0, 0x1E00] 7 15, split [0xBEC0, 0x3C00] 3 30,
      [0x3E00, 0x7E00, 0xBE00, 0xFE00, (0x3FFF : IWord)].all fun w => opOf w = 31,
      !(thr (fun t => { t with tctl := 3 }) base).th.tctl.getLsbD 2] = true := by decide +kernel

theorem test_meets_StoppedModuleIssuesNothing :
    let stopped := { base with boot := .stopped }
    allOf [stopped.sched = [], (match step stopped with | .fault .moduleStopped => true | .next _ | .refused _ => false),
      State.reset.boot = .inReset, State.reset.sched = []] = true := by decide +kernel

theorem test_meets_StepKeepsMemoryCanonical :
    (State.reset.withFetchWord 16 0x0C25).memCanonical ∧ (State.reset.withFetchWord 16 0x0C25).mem ≠ [] ∧
    gives (step (State.reset.withFetchWord 16 0x0C25)) (fun _ => true) = true :=
  ⟨by unfold State.memCanonical; decide, by decide, by decide⟩

/-! ## Scalar instructions -/

/-- R95: each row of the table for each m. -/
theorem test_meets_DivisionCases :
    let s := gs [(1, 7), (2, 0), (3, BitVec.ofInt 64 (-2 ^ 63)), (4, BitVec.ofInt 64 (-1)), (5, BitVec.ofInt 64 (-2))] base
    s.th.rg 2 = 0 ∧ s.th.rg 5 ≠ 0 ∧ (s.th.rg 3).toInt = -2 ^ 63 ∧ (s.th.rg 4).toInt = -1 ∧
    ¬((s.th.rg 1).toInt = -2 ^ 63 ∧ (s.th.rg 5).toInt = -1) := by decide +kernel

/-- -7 / 2 rounds toward zero, the remainder takes the sign of x, and unsigned division by 0 gives all ones (R95). -/
theorem test_division :
    let s := gs [(1, BitVec.ofInt 64 (-7)), (2, 2)] base
    gives (exec (.div false 3 1 2) s) (fun t => (t.th.settle [.g 3]).rg 3 = BitVec.ofInt 64 (-3)) = true ∧
    gives (exec (.rem false 3 1 2) s) (fun t => (t.th.settle [.g 3]).rg 3 = BitVec.ofInt 64 (-1)) = true ∧
    gives (exec (.div true 3 1 0) s) (fun t => (t.th.settle [.g 3]).rg 3 = BitVec.ofNat 64 (2 ^ 64 - 1)) = true := by decide +kernel

/-- A NaN first, second and third, in each format. -/
theorem test_meets_FirstNaNOperandReturned :
    (nanCode 8 23 0x7F800001 ∧ ¬nanCode 8 23 0x7F800000 ∧ ¬nanCode 8 23 0x3F800000 ∧ nanCode 5 10 0xFC01 ∧ ¬nanCode 5 10 0x7C00 ∧
      nanCode 8 7 0x7F81 ∧ ¬nanCode 8 7 0xFF80) := by unfold nanCode; decide

/-- Finite operands of each sign, a zero and an infinity's code in each format; a greater magnitude under RU, and a root. -/
theorem test_meets_FloatOperations :
    finite fp32 0x3F800000 ∧ finite fp32 0x80000000 ∧ finite fp16 0xBC00 ∧ finite bf16 0x3F80 ∧ ¬finite fp32 0x7F800000 ∧
      minus fp32 0x80000000 = true ∧ minus fp32 0x3F800000 = false ∧ (fp32.magValue 0x3F800000).1 ≠ 0 ∧ finite e4m3 126 := by
  unfold finite; decide

/-- CSETB: a clear tag; a region past 2^56; one that only larger exponents hold; one that the source does not hold, by a rounded
bound; and one that it holds exactly. -/
theorem test_meets_CapabilityOperations :
    (nullCap.tag = false) ∧
    (let c := { data 0 0 0 with w0 := BitVec.ofNat 64 (2 ^ 56 - 1) }
     c.tag = true ∧ capOff c + 2 > 2 ^ 56) ∧
    (let lo := 1
     let hi := 1 + 2 ^ 55
     hi ≤ 2 ^ 56 ∧ ∃ e, e ≤ 47 ∧ (hi + 2 ^ e - 1) / 2 ^ e - lo / 2 ^ e ≤ 447) ∧
    (let c := data 0 0 65000
     let hi := 65000 + 536
     c.tag = true ∧ (hi + 1) / 2 - 65000 / 2 ≤ 447 ∧ 447 < hi - 65000 ∧ (hi + 1) / 2 * 2 ≤ capTop c ∧ capBase c ≤ 65000 / 2 * 2) ∧
    (let c := data 0 0 65000
     let hi := 65000 + 600
     (hi + 1) / 2 - 65000 / 2 ≤ 447 ∧ 447 < hi - 65000 ∧ capTop c < (hi + 1) / 2 * 2) ∧
    (let f := 17
     f ≠ 8 ∧ f < 18) := by
  refine ⟨by decide, by decide, ?_, by decide, by decide, by decide⟩
  exact ⟨by decide, 47, by decide, by decide⟩

/-- CFMT to format 11 sets BL 5, and to 18 traps 0x07 with the base (R109). -/
theorem test_cfmt :
    let s := gs [(3, 11), (4, 18)] withData
    gives (exec (.cfmt 2 1 3) s) (fun t =>
      let c := (({ t.th with nt := 2 } : Thread).settle []).rc 2
      capBl c = 5 && capFmt c = 11) = true ∧
    gives (exec (.cfmt 2 1 4) s) (fun t => t.th.tcause = BitVec.ofNat 64 (2 ^ 63 + 7)) = true := by decide +kernel


/-! ## Hypotheses that can be met: registers, repeats, branches -/

theorem test_meets_RegistersReadAndWritten :
    let t := { base.th with nt := 5, pend := [⟨.g 3 7, some 5⟩, ⟨.g 3 8, some 6⟩, ⟨.g 3 9, none⟩] }
    allOf [(RegWrite.g 0 5).dead, !(RegWrite.g 31 5).dead, (RegWrite.p 0 false).dead,
      ({ t with pend := [⟨.g 3 8, some 6⟩] } : Thread).settle [.g 3] |>.pend.any fun e => e.w.reg = .g 3 && e.due = some 6,
      (t.settle []).rg 3 = 7, t.nt ≤ 6] = true := by decide +kernel

/-- Nothing stops the bundle, and with SCBCHK a result of g3 at 6 is early, or nothing is; without it nothing is tested. -/
theorem test_meets_EarlyReadTraps :
    let i := Instr.add 1 3 0
    let s := fun (chk : Word) (l : List Pend) => thr (fun t => { t with tctl := chk, nt := 5, pend := l }) base
    let e : Pend := ⟨.g 3 8, some 6⟩
    let earlier := s 5 [⟨.g 3 7, some 9⟩, ⟨.g 3 8, some 5⟩]
    allOf [((s 5 [e]).th.returning i).isNone, (s 5 [e]).legal i = none, (s 5 [e]).th.breakAt (s 5 [e]).cur.words = none,
      e ∈ ((s 5 [e]).th.settle (readsOf i)).pend, Reg.g 3 ∈ readsOf i, (s 5 [e]).th.tctl.getLsbD 0,
      (((s 5 []).th.settle (readsOf i)).pend = []), !(s 4 [e]).th.tctl.getLsbD 0, 6 - (s 5 [e]).th.nt < 256,
      !(s 5 [e]).th.tcause.getLsbD 63, earlier.th.earlyTrap (earlier.th.reads i) = none] = true := by decide +kernel

/-- LPST with ACT clear, with HOLD set, in the middle of a body, and at its end: endless, with passes left, and the last. -/
theorem test_meets_RepeatedBodies :
    let l := fun (act hold inf n idx left : Nat) =>
      BitVec.ofNat 64 (act * 2 ^ 63 + hold * 2 ^ 61 + inf * 2 ^ 60 + n * 2 ^ 53 + idx * 2 ^ 46 + left)
    let at_ := fun (w : Word) (n idx left : Nat) => fieldW 59 53 w = n && fieldW 52 46 w = idx && fieldW 31 0 w = left
    allOf [!(l 0 0 0 3 2 1).getLsbD 63, (l 1 1 0 3 2 1).getLsbD 61, at_ (l 1 0 0 3 1 9) 3 1 9, (l 1 0 1 3 2 0).getLsbD 60,
      at_ (l 1 0 1 3 2 0) 3 2 0, !(l 1 0 0 3 2 1).getLsbD 60, at_ (l 1 0 0 3 2 1) 3 2 1, at_ (l 1 0 0 64 63 0) 64 63 0,
      (l 1 0 0 64 63 0).getLsbD 63, !(l 1 0 0 64 63 0).getLsbD 61] = true := by decide +kernel

/-- REP 3, 2 counts three bundles and two more passes from the next bundle (R120). -/
theorem test_rep :
    gives (exec (.rep 2 2) base) (fun t =>
      t.th.lpsa = 2 && t.th.lpst = BitVec.ofNat 64 (2 ^ 63 + 3 * 2 ^ 53 + 2) && t.th.pc = 2) = true := by decide +kernel

/-- A return address: code at an offset. -/
def entryAt (off : Nat) : Cap := capOver 0 0 65536 off (rR + rX)

/-- A return-address stack with a free place, and with none; a jump table. -/
theorem test_meets_BranchesAndCalls :
    let s := cs [(1, entryAt 8), (2, nullCap), (3, data 0 0 64), (4, capOver 1 0 8 0 rR), (5, capOver 1 2 6 2 rR)]
      (gs [(1, 65526), (2, 65527), (3, 1), (4, 65528), (5, 2), (6, BitVec.ofInt 64 (-8))] withData)
    let full := { thr (fun t => { t with ras := List.replicate 16 (entryAt 4) }) s with supvSpill := 4 }
    let tgt := fun (off : Word) => (s.th.pc : Int) + 2 * off.toInt
    let z := fun (a : CReg) (x : GReg) => (capOff (s.th.rc a) : Int) + (s.th.rg x).toInt
    allOf [tgt 32767 < capTop s.th.pcc, capTop s.th.pcc ≤ tgt 32768, tgt (-1) < capBase s.th.pcc,
      !(s.th.rp 1 ^^ false), s.th.rp 1 ^^ true, s.th.ras.length < 16, full.th.ras.length = 16,
      full.th.area < full.returnCap] = true ∧
    (let spov := fun (ovr : Nat) (c : Cap) => thr (fun t => { t with ras := List.replicate 16 (entryAt 4), spov := c, ovr := ovr }) s
     let empty := fun (ovr area : Nat) => thr (fun t => { t with spov := data 0 0 64, ovr := ovr, area := area }) s
     let kept := thr (fun t => { t with kept := [(1, .read (capBytes (entryAt 8)) true false)] }) (empty 2 0)
     let a := spov 0 (data 0 0 64)
     let r := empty 2 0
     allOf [a.returnCap ≤ a.th.area, a.th.ras.length = 16, (capCheck a.th.spov (rW + rS) 64 16 16).isNone,
       at_ 2097216 (locate ⟨3, 0⟩ false a.th.spov 64 16 rW a), (spov (2 ^ 24 - 1) (data 0 0 64)).th.ovr + 1 = 2 ^ 24,
       (capCheck (spov 0 nullCap).th.spov (rW + rS) 0 16 16).isSome, r.th.ras.isEmpty, 0 < r.th.ovr,
       (smFind r.th.kept 1).isNone, smFind kept.th.kept 1 = some (.read (capBytes (entryAt 8)) true false),
       (let v := capFrom (capBytes (entryAt 8)) true
        decide (capBase v ≤ capOff v ∧ capOff v < capTop v)), (capCheck r.th.spov rR (64 + 16 * 1) 16 16).isNone, at_ 2097232 (locate ⟨3, 0⟩ false r.th.spov 80 16 rR r), !isForeign 2097232,
       !r.poisoned 2097232 16, (capCheck nullCap rR 0 16 16).isSome, (empty 0 1).th.ovr = 0, 0 < (empty 0 1).th.area,
       !isForeign ((empty 0 1).returnSlot 0).1, !(empty 0 1).poisoned ((empty 0 1).returnSlot 0).1 16] = true) ∧
    allOf [(s.th.rc 1).tag, (s.th.rc 1).w1.getLsbD 5, z 1 1 % 2 = 0, z 1 1 + 2 ≤ capTop (s.th.rc 1), z 1 2 % 2 ≠ 0,
      capTop (s.th.rc 1) < z 1 4 + 2, capBase (s.th.rc 1) ≤ z 1 6, !(s.th.rc 2).tag,
      !(capOver 1 0 64 0 rR).w1.getLsbD 5] = true ∧
    allOf [(entryAt 8).tag, capBase (entryAt 0) ≤ capOff (entryAt 0), capTop (entryAt 65536) ≤ capOff (entryAt 65536), s.th.ras.isEmpty,
      s.th.ovr = 0, s.th.area = 0] = true ∧
    allOf [(s.th.rc 4).tag, (s.th.rc 4).w1.getLsbD 7, !capBadFmt (s.th.rc 4), capTop (s.th.rc 4) = 8, !(capOver 1 0 64 0 rW).w1.getLsbD 7,
      capBadFmt { data 8 0 0 with tag := true }, (data 8 0 0).w1.getLsbD 7, capBase (s.th.rc 5) % 4 ≠ 0,
      at_ 2097156 (locate (creg 4) false (s.th.rc 4) 4 4 rR s), !isForeign 2097156, !s.poisoned 2097156 4] = true := by decide +kernel

/-- CALL pushes the next bundle's address, and RET comes back to it (R113, R115). -/
theorem test_call_and_ret :
    gives (exec (.call 8) base) (fun t =>
      t.th.pc = 16 && t.th.ras.length = 1 &&
        gives (exec .ret t) (fun u => u.th.pc = 2 && u.th.ras.length = 0)) = true := by decide +kernel

/-! ## Hypotheses that can be met: traps and system registers -/

theorem test_meets_TrapsTaken :
    let l := bootPlaced loadSpec
    allOf [!base.th.tcause.getLsbD 63, base.launch? base.th.launchId = some l, l.spec.trap ≠ 0xFFFFFFFF, !base.cur.micro,
      l.id = bootLaunch, base.th.wg = [], base.th.traps = [],
      (match base.th.firing with
        | some f => f.home = none && f.port = none && f.launch = bootLaunch
        | none => false),
      (thr (fun t => { t with tcause := BitVec.ofNat 64 (2 ^ 63) }) base).th.tcause.getLsbD 63,
      (thr (fun t => { t with tctl := 3 }) base).th.tctl.getLsbD 2 = false] = true := by decide +kernel

/-- BRK 3 enters the handler with cause 0x10, TEPC at the next bundle and TVAL 3 (R358, R359). -/
theorem test_brk :
    gives (exec (.brk 3) base) (fun t =>
      t.th.pc = 0x100 && t.th.tcause = BitVec.ofNat 64 (2 ^ 63 + 0x10) && t.th.tepc = 2 && t.th.tval = 3) = true := by
  decide +kernel

theorem test_meets_SystemRegisters :
    base.th.ras.length < 128 ∧ (∀ n : Fin 26, n.val = 25 → 18 ≤ n.val) := by decide +kernel

/-- SWR to LFSR writes 1 for 0 (R31), and SRD of COREID reads the core. -/
theorem test_system_registers :
    gives (exec (.swr 0 5) base) (fun t => t.th.lfsr = 1) = true ∧
    gives (exec (.srd 2 13) base) (fun t => (t.th.settle [.g 2]).rg 2 = 1008) = true := by decide +kernel

/-! ## Hypotheses that can be met: memory -/

theorem test_meets_AccessAddresses :
    allOf [at_ 2097216 (locate (creg 1) true (data 0 0 64) 64 8 rR withData), withData.heldObj 1 = .table,
      withData.tlbOf withData.cur.core = [page0, loadEntry 0], missing rW page0.perm = 0, withData.here = 0,
      withData.redirects = [], 64 / 65536 < page0.page + page0.count] = true := by decide +kernel

/-- For each access of AccessChecksInOrder a capability that fails each check first: no tag, a right missing, a reserved format,
bounds passed by one byte, an odd address; at the last good place none does. -/
theorem test_meets_AccessChecksInOrder :
    let bad := fun (c : Cap) (need : Nat) (ea : Int) (n cause : Nat) =>
      match capCheck c need ea n n with
      | some (k, _) => k = cause
      | none => cause = 0
    let c := data 0 0 64
    allOf [bad { c with tag := false } rR 64 8 4, bad (capOver 1 0 65536 64 rW) rR 64 8 6, bad (data 8 0 64) rR 64 8 7,
      bad (data 18 0 64) rR 64 8 7, bad (data 0 3 64) rR 64 8 7, bad (data 11 0 64) rR 64 8 7, bad c rR 65529 8 5, bad c rR (-1) 8 5,
      bad c rR 65524 8 0x0E, bad c rR 65528 8 0, bad c rR 0 8 0, bad (data 11 5 0) rR 0 8 0] = true := by decide +kernel

theorem test_meets_LoadsAndStores :
    let e := fun (s : State) (n : Int) => Sys2Proof.Spec.effective s.th ⟨1, .imm (BitVec.ofInt 64 n)⟩
    let s := withData
    let t := cs [(1, data 0 0 64), (2, data 0 0 0), (3, nullCap)] s
    allOf [accSize (some .d) (s.th.rc 1) = 8, e s (-64) = 0, e s 65464 = 65528,
      (capCheck (s.th.rc 1) rR 65528 8 8).isNone, at_ 2162680 (locate (creg 1) true (s.th.rc 1) 65528 8 rR s),
      !isForeign 2162680, !s.poisoned 2162680 8, (capCheck (s.th.rc 1) (rR + rC) 64 16 16).isNone,
      at_ 2097216 (locate (creg 1) true (s.th.rc 1) 64 16 rR s), !s.poisoned 2097216 16,
      (capCheck (s.th.rc 1) rW 64 1 1).isNone, at_ 2097216 (locate (creg 1) true (s.th.rc 1) 64 1 rW s), (t.th.rc 2).tag,
      !(t.th.rc 3).tag, (capCheck (t.th.rc 1) (rW + rS) 64 16 16).isNone,
      at_ 2097216 (locate (creg 1) true (t.th.rc 1) 64 16 rW t)] = true := by decide +kernel

/-- ST.H then LD.B of its upper byte: the thread reads its own queued store (R125), little-endian (R12). -/
theorem test_store_and_load :
    let s := gs [(3, 0x1234)] withData
    gives (exec (.st (some .h) 3 ⟨1, .imm 0⟩) s) (fun t =>
      t.th.stores.map (·.bytes) = [[0x34, 0x12]] && t.mem = s.mem &&
        gives (exec (.ld (some .b) 4 ⟨1, .imm 1⟩) t) (fun u => u.th.rg 4 = 0x12)) = true := by decide +kernel

/-- A tagged and an untagged store. -/
theorem test_meets_StoreApplied :
    let q := fun (tag : Bool) => StoreReq.mk 2097216 [0x34, 0x12] tag 0 1 0 false rW
    let s := fun (tag : Bool) => thr (fun t => { t with stores := [q tag] }) base
    allOf [((s true).reach 1008 2097216).1 = 2097216, ((s true).thread (tidOf 1008 0)).stores = [q true], (q true).tag,
      !(q false).tag, (s false).th.stores = [q false], [(0x34 : Byte), 0x12].length ≠ 0, decide (2097216 < 2 ^ 42)] = true := by
  decide +kernel

theorem test_store_performed :
    let s := thr (fun t => { t with stores := [StoreReq.mk 2097216 [0x34, 0x12] false 0 1 0 false rW] }) { base with tags := [131076] }
    gives (exec (.homeRequestApply 1008 0) s) (fun t =>
      memByte t.mem 2097217 = 0x12 && t.th.stores = [] && t.tags = []) = true := by decide +kernel

/-! ## Hypotheses that can be met: vector memory, atomics, versions -/

/-- The translation gave an address of a page that does not migrate, and changed nothing. -/
def stays (a : Nat) (s : State) : EStateM.Result Stop State (Nat × TlbEntry) → Bool
  | .ok (x, e) t => x = a && !e.mig && t = s
  | .error _ _ => false

/-- Lanes 0 and 15 are active and pass, for each width; lane 1 is the first that fails. -/
theorem test_meets_VectorMemory :
    let s := thr (fun t => { t with m := [(1, 0x8001), (2, 3)] }) withData
    let c := s.th.rc 1
    allOf [((List.range 16).filter fun j => (s.th.rm 1).getLsbD j) = [0, 15], (capCheck c rR 64 4 4).isNone,
      (capCheck c rW 124 4 4).isNone, stays 2097216 s (locate (creg 1) true c 64 4 rR s),
      stays 2097276 s (locate (creg 1) true c 124 4 rR s), stays 2097216 s (locate (creg 1) true c 64 4 rW s),
      stays 2097276 s (locate (creg 1) true c 124 4 rW s), !isForeign 2097216, !s.poisoned 2097216 4, !s.poisoned 2097276 4] = true ∧
    allOf [(capCheck c rR 64 2 2).isNone, stays 2097216 s (locate (creg 1) true c 64 2 rR s),
      stays 2097216 s (locate (creg 1) true c 64 1 rR s), stays 2097216 s (locate (creg 1) true c 64 1 rW s),
      (s.th.rm 2).getLsbD 1, (capCheck c rR 65532 4 4).isNone, capCheck c rR 65536 4 4 = some (5, 65536),
      (capCheck c rW 65532 4 4).isNone, capCheck c rW 65536 4 4 = some (5, 65536)] = true ∧
    (let s := thr (fun t => { t with v := [(3, 0x7FFF * 2 ^ 32)] }) s
     allOf [(lane 32 (s.th.rv 3) 0).toInt = 0, (lane 32 (s.th.rv 3) 1).toInt = 32767, (capCheck c rR (64 + 0 * 2) 2 2).isNone,
       capCheck c rR (64 + 32767 * 2) 2 2 = some (5, 65598), (capCheck c rW (64 + 0 * 2) 2 2).isNone,
       capCheck c rW (64 + 32767 * 2) 2 2 = some (5, 65598)] = true) := by decide +kernel

/-- VADD.I8 wraps in each lane, and an inactive lane keeps the destination's old value (R131, R134). -/
theorem test_vadd :
    let s := thr (fun t => { t with v := [(1, 0x7F80), (2, 0xFF81), (3, 0x1234 * 2 ^ 32)], m := [(1, 1)] }) base
    gives (exec (.vadd .rne .i8 3 1 2 ⟨1, false⟩) s) (fun t =>
      (({ t.th with nt := 5 } : Thread).settle []).rv 3 = 0x1234 * 2 ^ 32 + 0x7E01) = true := by decide +kernel

/-- A transfer of the firing of 4 bytes to offset 64 of object 1, of which the listed units have landed. -/
def landing (k : XKind) (l : List Nat) (s : State) : State :=
  { s with xfers := [{ Xfer.fresh k s.origin with phase := .running, dst := data 0 0 64, src := data 0 0 128, n := 4, landed := l }] }

theorem test_meets_AtomicsAndFences :
    let s := gs [(3, 5), (4, BitVec.ofInt 64 (-1))] withData
    let c := s.th.rc 1
    let due := landing .get [] s
    allOf [(due.xfers.map fun x => (due.units x, due.unitHome x 0, x.landed)) = [(1, some 2097216, [])], due.inScope .dev 2097216,
      due.landingDue ⟨true, false, false, false⟩ .dev, !due.inScope .core 2097216, !due.landingDue ⟨true, false, false, false⟩ .core,
      !(landing .get [0] s).landingDue ⟨true, false, false, false⟩ .sys, !(landing .send [0] s).landingDue ⟨false, false, true, true⟩ .sys,
      s.th.status = .running, s.th.stores.isEmpty, (capCheck c (rR + rW + Machine.rA) 64 8 8).isNone, (capCheck c (rR + rW + Machine.rA) 64 4 4).isNone,
      (capCheck c (rR + rW + Machine.rA) 64 2 2).isNone, at_ 2097216 (locate (creg 1) true c 64 8 (rR + rW) s),
      at_ 2097216 (locate (creg 1) true c 64 4 (rR + rW) s), at_ 2097216 (locate (creg 1) true c 64 2 (rR + rW) s),
      !s.poisoned 2097216 8, accSize (some .h) c = 2] = true ∧
    allOf [(inHandler s).th.handler, !s.th.handler, s.homeWord 2097216 = 0, decide ((0 : Int) ≤ (s.th.rg 3).toInt),
      decide ((s.th.rg 4).toInt < 0), s.waits.isEmpty, !s.waitFull 2097216, (capCheck c (rR + Machine.rA) 64 8 8).isNone,
      at_ 2097216 (locate (creg 1) true c 64 8 rR s),
      ({ s with cur := { s.cur with carried := some 7 } }).cur.carried = some 7] = true := by decide +kernel

/-- AMO.ADD.W adds in memory and answers the old word (R195). -/
theorem test_amo :
    let s := { gs [(3, 5)] withData with mem := [(2097216, 2)] }
    gives (exec (.amo .add (some .w) .core 3 ⟨1, .imm 0⟩) s) (fun t => memByte t.mem 2097216 = 7 && t.th.rg 3 = 2) = true := by
  decide +kernel

theorem buffer_full (x : VerEntry) (s : State) (n : Nat) (h : isSlice x.addr = false) (hn : 8192 ≤ n) :
    ({ s with vbuf := List.replicate n x } : State).bufFull x.addr = true := by
  simp [State.bufFull, bufCap, h, hn]

/-- The word at 64 of the versioned object is at version 5, with version 4 buffered: 5 is current, 4 buffered, 3 gone, 6 and the
farthest newer one ahead, 2^31 beyond it behind. -/
theorem test_meets_VersionedWords :
    let s := gs [(1, 5), (2, 4), (3, 3), (4, 6), (5, 5 + 0x7FFFFFFF), (6, 5 + 0x80000000)]
      { withVers with vers := [(2097216, ⟨5, false, 1⟩)], vbuf := [⟨2097216, 4, 9⟩] }
    let c := s.th.rc 1
    let d := fun (r : GReg) => (((s.th.rg r).setWidth 32 : BitVec 32) - (s.verOf 1 2097216).version).toNat
    let found := fun (r : GReg) =>
      ((s.adopt 1 2097216).vbuf.find? fun q => q.addr = 2097216 && q.version = (s.th.rg r).setWidth 32).isSome
    allOf [(capCheck c (rR + rV) 64 8 8).isNone, at_ 2097216 (locate (creg 1) true c 64 8 rR s), !s.poisoned 2097216 8,
      (match locate (creg 1) true c 64 8 rR s with
        | .ok (_, e) _ => e.ver
        | .error _ _ => false),
      !page0.ver, at_ 2097216 (locate (creg 1) true c 64 8 rR withData), decide (d 1 = 0), found 2, decide (2 ^ 31 ≤ d 2), !found 3, decide (2 ^ 31 ≤ d 3),
      decide (d 4 = 1), decide (d 5 = 2 ^ 31 - 1), decide (d 6 = 2 ^ 31), !found 6] = true ∧
    allOf [!s.waitFull 2097216, s.waits.isEmpty, (capCheck c (rW + rV) 64 8 8).isNone,
      at_ 2097216 (locate (creg 1) true c 64 8 rW s), !s.bufFull 2097216, !(s.verOf 1 2097216).rcl,
      (withVers.verOf 1 2097216).rcl, isSlice 2097216 = false, (inHandler s).th.handler, !s.th.handler, s.th.stores.isEmpty,
      !s.stverBefore s.cur.tid 2097216 s.serial, !(inHandler s).stverBefore s.cur.tid 2097216 s.serial] = true ∧
    (let first := { s.setThread 8065 { loadThread with status := .parked ⟨.stver 2097216, 0, s.cur, none⟩ } with serial := 1 }
     allOf [first.stverBefore first.cur.tid 2097216 first.serial, first.th.status = .running, !first.bufFull 2097216,
       (inHandler first).stverBefore first.cur.tid 2097216 first.serial] = true) := by
  decide +kernel

/-- STVER makes the next version and buffers the old one, and LDVERN reads either (R178, R179). -/
theorem test_versions :
    let s := gs [(1, 7), (2, 4)] { withVers with vers := [(2097216, ⟨4, false, 1⟩)], mem := [(2097216, 9)] }
    gives (exec (.stver 1 ⟨1, .imm 0⟩) s) (fun t =>
      t.verAt 2097216 = ⟨5, false, 1⟩ && memByte t.mem 2097216 = 7 &&
        gives (exec (.ldvern 1 2 ⟨1, .imm 0⟩) t) (fun u => u.th.rg 2 = 9 && u.th.rp 1)) = true := by decide +kernel

/-! ## Hypotheses that can be met: ports, messages, barriers, firings -/

/-- The small launch with a stage actor of input q8 and output q9, bound to q8 of the same core, and a message actor. -/
def portSpec : LaunchSpec :=
  { loadSpec with table := [⟨0, 0, 0, 0, 0, []⟩, ⟨0x200, 1, 1, 2, 0, [0, 0x8000]⟩, ⟨0x300, 2, 0, 0, 0, []⟩] }

/-- The team of that launch with elements at q8. -/
def portTeam (l : List Element) : Team := { loadTeam with ports := [(8, l)] }

/-- The small state under that launch. -/
def ported (l : List Element) : State :=
  { base with launches := [(bootLaunch, bootPlaced portSpec)], teams := [(loadTeam.key, portTeam l)] }

def elem (ctl : Bool) : Element := ⟨7, ctl, 3⟩

/-- The team is the executing thread's own. -/
def mine (tm : Team) (s : State) : Bool := s.myTeam = some tm && tm.launch = s.th.launchId && tm.no = s.th.teamNo

theorem test_meets_PortTransfers :
    let s := ported []
    let full := ported (List.replicate 16 (elem false))
    let one := ported [elem true, elem false]
    let busy := { s with matrix := [(1008, ⟨[⟨0, s.origin, .marker 0⟩, ⟨1, s.origin, .marker 0⟩], none, [], []⟩)] }
    let result := thr (fun t => { t with held := [⟨1, [5]⟩] }) s
    allOf [!s.th.handler, s.th.stores.isEmpty, s.myPort 9 = .output 0x8000, mine (portTeam []) s,
      s.bindTeam (portTeam []) 0x8000 = some (portTeam []), s.before 9 = 0, (portTeam []).elems (bindPort 0x8000) = [],
      full.bindTeam (portTeam (List.replicate 16 (elem false))) 0x8000 = some (portTeam (List.replicate 16 (elem false))),
      mine (portTeam (List.replicate 16 (elem false))) full] = true ∧
    allOf [s.myPort 0 = .command, s.commandRoom 1008 0 = 2, s.origin.core = 1008, busy.commandRoom 1008 0 = 0,
      s.myPort 6 = .service, s.th.sup, !(thr (fun t => { t with tctl := 0 }) s).th.tctl.getLsbD 2, s.myPort 8 = .input 1,
      mine (portTeam [elem true, elem false]) one, s.before 8 = 0, (portTeam [elem true]).elems 8 = [elem true]] = true ∧
    allOf [s.myPort 1 = .result, result.th.held.find? (fun e => e.port = 1) = some ⟨1, [5]⟩,
      s.th.held.find? (fun e => e.port = 1) = none, s.myPort 10 = .unbound, s.myPort 7 = .reserved] = true := by decide +kernel

/-- ENQC to q9 reaches q8 with the control bit and WORKID, and DEQ takes it back (R163 to R165, R167). -/
theorem test_enq_and_deq :
    let s := gs [(3, 11)] (ported [])
    gives (exec (.enq true 3 9) s) (fun t =>
      t.myTeam.map (·.elems 8) = some [⟨11, true, 0⟩] &&
        gives (exec (.deq 4 8 2) t) (fun u => (u.th.settle [.g 4]).rg 4 = 11 && (u.th.settle [.p 2]).rp 2)) = true := by
  decide +kernel

theorem test_meets_PortControl :
    let s := ported [elem false, elem true]
    allOf [s.myPort 8 = .input 1, s.myPort 9 = .output 0x8000, s.myPort 1 = .result, mine (portTeam [elem false, elem true]) s,
      s.isKind s.th.launchId 2 2, !s.isKind s.th.launchId 1 2, !s.isKind s.th.launchId 63 2, (ported []).myPort 8 = .input 1,
      (portTeam [elem false]).elems 8 = [elem false], !(elem false).ctl] = true := by decide +kernel

theorem test_meets_MessagesSent :
    let s := gs [(1, 9200), (2, 9200 + 2 ^ 18), (3, 1008)] (ported [])
    let k : QEntry := ⟨0, .task ⟨0, 0, 0, 0, [], 0, 0, none, none, none, 0⟩⟩
    let full := { s with queues := [(1008, List.replicate 192 k)] }
    allOf [fieldW 11 0 (s.th.rg 1) = 1008, fieldW 17 12 (s.th.rg 1) = 2, s.isKind s.th.launchId 2 2, !s.isKind s.th.launchId 0 2,
      fieldW 17 12 (s.th.rg 3) = 0, decide (2 ^ 18 ≤ (s.th.rg 2).toNat), s.teamOfLaunch s.th.launchId 1008 = some (portTeam []),
      s.room 1008, (s.teamOfLaunch s.th.launchId 7).isNone, !full.room 1008, full.teamOfLaunch full.th.launchId 1008 = some (portTeam []), !s.fireBehind 1008 s.th.eprio,
      (inHandler s).th.handler] = true ∧
    allOf [(inHandler s).legal (.enq false 1 9) = none, (inHandler s).legal (.deq 1 8 1) = none,
      (inHandler s).legal (.bwait 1 3) = none] = true := by decide +kernel

/-- FIRE to the message actor of core 1,008 queues its eight words (R168, R169). -/
theorem test_fire :
    let s := gs [(1, 9200), (8, 21)] (ported [])
    gives (exec (.fire 1 8) s) (fun t =>
      match t.queue 1008 with
      | [⟨_, .task k⟩] => k.actor = 2 && k.kind = 2 && k.words = [21, 0, 0, 0, 0, 0, 0, 0]
      | _ => false) = true := by decide +kernel

theorem test_meets_Barriers :
    let b := fun (arrived next : Nat) => Barrier.mk 9 2 arrived next 0 0
    let tm := fun (x : Barrier) => { loadTeam with bars := [(3, x)] }
    let s := fun (x : Barrier) =>
      gs [(1, 8), (2, 9), (3, BitVec.ofNat 64 (2 ^ 40)), (4, BitVec.ofNat 64 (2 ^ 40 - 1))] { base with teams := [(loadTeam.key, tm x)] }
    let gap := fun (v : BitVec 32) => ((9 : BitVec 32) - v).toNat
    allOf [(b 2 0).arrived = (b 2 0).expect, (b 1 0).arrived ≠ (b 1 0).expect, (s (b 1 0)).myTeam = some (tm (b 1 0)),
      (tm (b 1 0)).bar 3 = b 1 0, (s (b 1 0)).th.launchId = bootLaunch, ((s (b 1 0)).spec bootLaunch).barriers = 4,
      (s (b 1 0)).th.stores.isEmpty] = true ∧
    allOf [(tm (b 2 1)).bar 3 = b 2 1, (tm (b 2 2)).bar 3 = b 2 2, decide (gap 8 = 1), decide (gap 9 = 0),
      decide (gap (9 - 0x7FFFFFFF) = 2 ^ 31 - 1), decide (gap (9 - 0x80000000) = 2 ^ 31), !(s (b 1 0)).th.handler,
      decide (((s (b 1 0)).th.rg 4).toNat < 2 ^ 40)] = true := by decide +kernel

/-- The last arrival gives the running phase and starts the next one (R171, R172). -/
theorem test_arrive :
    let s := { base with teams := [(loadTeam.key, { loadTeam with bars := [(3, ⟨9, 2, 1, 0, 0, 0⟩)] })] }
    gives (exec (.arrive false 4 3) s) (fun t =>
      t.myTeam.map (·.bar 3) = some ⟨10, 2, 0, 0, 0, 0⟩ && (t.th.settle [.g 4]).rg 4 = 9) = true := by decide +kernel

theorem test_meets_WorkAndEnds :
    let two := base.setThread 8065 loadThread
    allOf [(base.launch? base.th.launchId).isSome, base.th.firing = loadThread.firing, base.th.wg = [], base.th.traps = [],
      (match loadThread.firing with
        | some f => f.home = none && f.port = none
        | none => false),
      !base.th.handler, (List.range 8).all fun k => k = 0 || (base.thread (tidOf 1008 k)).firing = none,
      base.th.status = .running, two.cur.ctx < 8, (two.thread (tidOf 1008 1)).status = .running,
      (two.thread (tidOf 1008 1)).firing.isSome, (two.thread (tidOf 1008 1)).launchId = two.th.launchId,
      (two.thread (tidOf 1008 1)).teamNo = two.th.teamNo] = true := by decide +kernel

/-! ## Hypotheses that can be met: transfers and copies -/

/-- A counter, indexed lists and data in object 1: c1 data at 64, c2 data at 128, c3 a counter at 256, c4 an index list at 512. -/
def moving : State :=
  gs [(1, 64), (2, BitVec.ofNat 64 (4 * 2 ^ 11)), (3, 0)]
    (cs [(1, data 0 0 64), (2, data 0 0 128), (3, data 0 0 256), (4, data 0 0 512)] withData)

/-- A page of another module. -/
def farPage : TlbEntry := { page0 with obj := 2, mod := 1 }

/-- A command of the executing thread. -/
def command (k : XKind) (n : Nat) (id : Nat) : Xfer :=
  { Xfer.fresh k moving.origin with id := id, phase := .running, dst := data 0 0 64, src := data 0 0 128, n := n }

theorem test_meets_Transfers :
    let s := moving
    let full := { s with xfers := (List.range 8).map fun i => { Xfer.fresh .get s.origin with id := i } }
    let ctr := s.th.rc 3
    allOf [s.th.stores.isEmpty, s.pushersBefore 2 = 0, 0 < s.streamRoom s.origin.core, (capCheck (s.th.rc 1) rW 64 64 1).isNone,
      (capCheck (s.th.rc 2) rR 128 64 1).isNone, capFmt ctr = 0, (capCheck ctr (rR + rW + Machine.rA) 256 16 8).isNone,
      full.streamRoom full.origin.core = 0, !full.th.handler] = true ∧
    allOf [fieldW 14 11 (s.th.rg 2) = 4, fieldW 9 8 (s.th.rg 2) = 0, fieldW 63 15 (s.th.rg 2) = 0, fieldW 15 9 (s.th.rg 3) = 0,
      (capCheck (s.th.rc 4) rR 512 4 4).isNone, (capCheck (s.th.rc 1) rW 64 4 1).isNone, (capCheck (s.th.rc 2) rR 128 4 1).isNone,
      (s.th.rc 2).tag, missing rR (capRights (s.th.rc 2)) = 0, missing rW (capRights (s.th.rc 1)) = 0, !capBadFmt (s.th.rc 2),
      (capCheck (s.th.rc 1) (rW + Machine.rA) 64 4 4).isNone] = true ∧
    (let x := command .get 65 3
     let s := { s with xfers := [x] }
     let lost := { s with xfers := [{ x with src := capOver 9 0 64 0 rR }] }
     let done := { x with landed := [1, 0] }
     allOf [s.xfer? 3 = some x, x.phase = .running, s.units x = 2, s.reorder.isEmpty, !s.behind x 1,
      (match s.engReadMarked (s.elemAcc x) 1 192 1 with
        | (.ok (b, p), t) => okE (t.engWriteMarked (s.elemAcc x) 1 128 b p)
        | (.error _, _) => false),
      !okE (lost.engReadMarked (lost.elemAcc x) 9 0 64), !x.ctr.tag, s.units done = 2] = true) ∧
    (let x := { command .arith 1 3 with op := .add, elem := .i32, esz := 4, dst := { data 0 0 64 with w1 := (capOver 2 0 65536 64 0xFF).w1 } }
     let x := { x with parts := some [(2 ^ 20 + 2 ^ 20 + 5, [0])] }
     let y := { x with id := 4, src := data 0 0 132 }
     let s := { s with
       xfers := [x, y], tlb := [(1008, [farPage, page0, loadEntry 0])],
       fabric := { s.fabric with torus := BitVec.ofNat 32 (2 ^ 12) } }
     allOf [s.xfer? 3 = some x, s.xfer? 4 = some y, x.merged.isEmpty, capObj x.dst = 2,
      (s.outGroup x 0).isSome, s.outGroup x 0 = s.outGroup y 0, !s.behind x 0,
      (match s.readSource x 0 4 with
        | (.ok z, t) => !(z.operand 0).2 && (match t.readSource y 0 4 with
          | (.ok z, u) => !(z.operand 0).2 && u.xfers = s.xfers
          | (.error _, _) => false)
        | (.error _, _) => false),
      gives (exec (.routerCombine 3 4 0) s) fun t => (t.xfer? 3).map (·.merged) = some [(0, 4)]] = true) := by decide +kernel

/-- A command of the executing thread over three elements of 4 bytes with an index list: in bounds, negative and unreadable. -/
def indexed (k : XKind) : Xfer :=
  { command k 3 3 with esz := 4, isz := 4, idx := some (data 0 0 512), list := some [some 1, some (-1), none] }

theorem test_meets_transfer_units :
    let with_ := fun (x : Xfer) => { moving with xfers := [x] }
    let runs := fun (x : Xfer) (u : Nat) =>
      let s := with_ x
      s.xfer? 3 = some x && decide (u < s.units x) && !s.behind x u && s.reorder.isEmpty
    let lands := fun (s : State) (x : Xfer) (off n : Nat) =>
      okE (s.engWriteMarked (s.elemAcc x) 1 off (List.replicate n 0) (List.replicate n false))
    let reads := fun (x : Xfer) (lo n off : Nat) =>
      match (with_ x).readSource x lo n with
      | (.ok y, t) => lands t x off (y.held lo n).1.length && t.xfers = [x]
      | (.error _, _) => false
    let fresh := { indexed .getx with list := none }
    allOf [runs (command .send 65 3) 1, reads (command .send 65 3) 64 1 128, runs (indexed .getx) 0, runs (indexed .getx) 2,
      okE ((with_ (indexed .getx)).engReadMarked ((with_ (indexed .getx)).elemAcc (indexed .getx)) 1 132 4),
      lands (with_ (indexed .getx)) (indexed .getx) 72 4, okE ((with_ fresh).readList fresh (data 0 0 512) 3),
      runs (indexed .sendx) 2, reads (indexed .sendx) 0 4 68, reads (indexed .sendx) 8 4 68] = true := by decide +kernel

/-- A packet of one element, its destination, and a counter at offset 256 of object 1. -/
theorem test_meets_elements_and_completion :
    let x := { command .arith 1 3 with op := .add, elem := .i32, esz := 4, parts := some [(0, [0])] }
    let s := { moving with xfers := [x] }
    let c := s.accOf x.org
    let v := [1, 0, 0, 0]
    let pieces := fun (t : State) (obj off n : Nat) =>
      match t.xlatRange c obj off (rR + rW) (pagesOf off n) n with
      | (.ok ps, u) => ps.map fun p => (isForeign p.1, u.poisoned p.1 p.2)
      | (.error _, _) => []
    let astride := { moving with tlb := [(1008, [farPage, { page0 with obj := 2, page := 1 }])] }
    let marked := { s with poison := [2097216] }
    allOf [s.xfer? 3 = some x, decide (0 < s.units x), !s.behind x 0, x.flight.isEmpty, x.merged.isEmpty,
      (match s.readElems x [0] with
        | (.ok y, t) => (match (t.countPacket y [0]).applyElems { y with pdata := 0, ovf := false } [(0, y.operand 0)] with
          | (.ok _, u) => u.xfers = [x]
          | (.error _, _) => false)
        | (.error _, _) => false),
      (match (s.translate 1008 1 64 (rR + rW)).1 with
        | .home a _ => !isForeign a
        | .bad | .absent | .noPerm _ _ => false),
      pieces s 1 64 4 = [(false, false)], pieces marked 1 64 4 = [(false, true)],
      pieces astride 2 65505 33 = [(true, false), (false, false)], okE (s.engPoison c 1 64 v)] = true ∧
    (let y := { command .get 4 3 with landed := [0], ctr := data 0 0 256 }
     let lost := { y with ctr := capOver 9 0 64 0 0xFF }
     let s := { moving with xfers := [y] }
     let z := command .send 65 3
     allOf [s.xfer? 3 = some y, y.ctr.tag, s.units y = 1,
       (match s.engReadWhole c 1 256 16 with
        | (.ok b, t) => b.length = 16 && (match t.xlatRange c 1 256 rW (pagesOf 256 8) 8 with
          | (.ok ps, u) => !u.anyDown ps && okE (u.engWrite c 1 264 (leBytes 8 0))
          | (.error _, _) => false)
        | (.error _, _) => false),
       !okE ({ s with xfers := [lost] }.engReadWhole c 9 0 16), ({ s with xfers := [z] }).units z = 2, !z.ctr.tag,
       okE ({ s with xfers := [z] }.readSpans z [(0, 64), (64, 1)])] = true) := by decide +kernel

/-- Blocks of each format, and NaNs in FP32 and BF16, the second with the smaller fields. -/
theorem test_meets_combines :
    allOf [(List.replicate 33 (0 : Byte)).length = 32 + 1, ((List.replicate 33 (5 : Byte)).getD 32 0).toNat = 5,
      (List.replicate 17 (0 : Byte)).length = 16 + 1, ((List.replicate 33 (255 : Byte)).getD 32 0).toNat = 255,
      decide (0x7FC00000 / 2 ^ 10 % 2 ^ 12 < 0x7FC00400 / 2 ^ 10 % 2 ^ 12), decide (0x7FC1 % 2 ^ 7 < 0x7FC2 % 2 ^ 7)] = true ∧
    nanCode 8 23 0x7FC00400 ∧ nanCode 8 7 0x7FC2 ∧ ¬nanCode 8 23 0x3F800000 := by
  refine ⟨by decide +kernel, ?_⟩
  unfold nanCode
  decide

/-- Two MX-E4M3 blocks of 448 sum to 448 at twice the scale, and the NaN with the smaller core number is kept (R28, R29). -/
theorem test_combines :
    let b := List.replicate 32 (0x7E : Byte)
    combineElem .mxe4m3 .add (b ++ [127]) (b ++ [127]) = (b ++ [128], false) ∧
    combineElem .fp32 .add (leBytes 4 0x7FC00801) (leBytes 4 0x7FC00402) = (leBytes 4 0x7FC00402, false) := by decide +kernel

/-- A whole RGET of 4 bytes lands and counts (R198 to R200). -/
theorem test_rget_lands :
    let s := { moving with mem := [(2097280, 0x55)], xfers := [command .get 4 3] }
    gives (exec (.transferPacketApply 3 0) s) (fun t => memByte t.mem 2097216 = 0x55) = true := by decide +kernel

/-- A copy block at offset 0 of object 1, as R280 lays it out: destination, source, counter, and the control word. -/
def copyMem (len ctl : Nat) : List (Nat × List Byte) :=
  [(2097152, capBytes (data 0 0 4096)), (2097168, capBytes (data 0 0 8192)), (2097200, leBytes 8 len), (2097208, leBytes 8 ctl)]

/-- The state with such a block, named by c5. -/
def copying (len ctl : Nat) : State :=
  let s := cs [(5, data 0 0 0)] withData
  { s with
    mem := (copyMem len ctl).foldl (fun m p => memPutBytes m p.1 p.2) s.mem
    tags := [131072, 131073] }

theorem test_meets_Copies :
    let s := copying 4097 0
    let b := (memBytes s.mem 2097152 64, (List.range 4).map fun i => s.tagAt (2097152 + 16 * i))
    let z := copying 0 (2 ^ 15)
    let x := { command .copy 4097 3 with dst := data 0 0 4096, src := data 0 0 8192, blk := data 0 0 0 }
    let halted := { z with xfers := [{ x with phase := .suspended false }] }
    allOf [(capCheck (s.th.rc 5) (rR + rW + rC) 0 64 64).isNone, stays 2097152 s (locate (creg 5) false (s.th.rc 5) 0 64 rR s),
      !isForeign 2097152, !s.poisoned 2097152 64, s.th.stores.isEmpty, s.th.status = .running, s.pushersBefore 2 = 0, 0 < s.streamRoom s.origin.core,
      fieldW 35 0 (blockWord b 48) = 4097, fieldW 63 36 (blockWord b 48) = 0, blockWord b 56 = 0,
      blockCap b 0 = data 0 0 4096, (capCheck (blockCap b 0) rW 4096 4097 1).isNone, (capCheck (blockCap b 1) rR 8192 4097 1).isNone,
      !(blockCap b 2).tag] = true ∧
    allOf [(halted.suspendedFor (halted.th.rc 5)).isSome,
      (blockWord (memBytes z.mem 2097152 64, [true, true, false, false]) 56).getLsbD 15,
      ({ s with xfers := [x] }).xfer? 3 = some x,
      (match s.chunkRead (s.accOf x.org) 1 8192 64 with
        | (.ok c, t) => (c.map (·.2.length)) = [64] && t.xfers = s.xfers && okE (t.chunkWrite (s.accOf x.org) 1 4096 c) &&
            !s.holding x.org.core 2
        | (.error _, _) => false),
      !okE (s.chunkRead (s.accOf x.org) 9 0 64),
      s.firingCtx x.org.firing = some 8064, !x.ctr.tag, !x.ctl.getLsbD 7] = true := by decide +kernel

/-! ## Hypotheses that can be met: the cutter and the matrix unit -/

/-- A bitmap-sparse i8 operand at offset 1,024 of object 1 with a first word for segment 0, a panel at 4,096 and a partner at 8,192. -/
def cutting (bm w1 : Nat) : State :=
  let s := gs [(1, 0), (2, BitVec.ofNat 64 (2 ^ 32 + 32)), (3, 32), (4, 32)]
    (cs [(1, data 15 5 4096), (2, data 16 5 1024), (3, data 1 0 8192)] withData)
  { s with mem := memPutBytes (memPutBytes s.mem 2098176 (leBytes 8 1)) 2098240 (leBytes 8 bm ++ leBytes 8 w1) }

/-- An operand without columns, and one with a column; no partner, and one. -/
theorem test_meets_CutterCompletes :
    let s := cutting 0 0
    let one := cutting 1 (2 ^ 56 + 2048)
    let scan := fun (s : State) (n k : Nat) =>
      match sparseHeader (creg 2) (s.th.rc 2) s with
      | .ok h t =>
        match cutScan (creg 2) (s.th.rc 2) h 0 65537 0 [] t with
        | .ok (l, j) u => h.nrs = 0 && l.length = n && j = k && okM (cutColumns (creg 2) (s.th.rc 2) h.elem l u)
        | .error _ _ => false
      | .error _ _ => false
    let paired := thr (fun t => { t with cut := some (BitVec.ofNat 64 (2 ^ 32 + 32), [0]) }) s
    allOf [s.th.stores.isEmpty, s.cutPlace.isNone, s.pushersBefore 2 = 0, 0 < s.streamRoom s.origin.core, s.streamIdle 1008,
      s.origin.core = 1008, !({ s with xfers := [Xfer.fresh .get s.origin] }).streamIdle 1008, capFmt (s.th.rc 1) = 15, capFmt (s.th.rc 2) = 16,
      (capCheck (s.th.rc 1) rW 4096 (64 + 2 * (320 + 128 * 16)) 64).isNone, (capCheck (s.th.rc 2) rR 1024 64 64).isNone,
      scan s 0 64, scan one 1 64] = true ∧
    allOf [okM (cutWrite (creg 1) (s.th.rc 1) 4096 (panelBytes 1 0 (columnsToSlabs [List.replicate 32 (.fin false 1 0)])) s),
      paired.th.cut = some (paired.th.rg 2, [0]), fieldW 47 32 (paired.th.rg 2) = 1, fieldW 47 32 (paired.th.rg 1) = 0,
      fieldW 63 32 (paired.th.rg 3) = 0, paired.th.rg 1 ≠ paired.th.rg 2,
      ({ s with xfers := List.replicate 8 (Xfer.fresh .get s.origin) }).streamRoom 1008 = 0, !s.th.handler,
      (inHandler s).th.handler, (inHandler s).cutPlace.isNone] = true ∧
    allOf [(match checkSource (creg 3) (s.th.rc 3) 32 32 s with
        | .ok e t => e = .i8 && t = s
        | .error _ _ => false),
      okM (partnerLanes (creg 3) (s.th.rc 3) .i8 32 [0] 32 0 s)] = true := by decide +kernel

/-- The small state with a status word in tile 2. -/
def tiled (w : Word) (s : State) : State := { s with matrix := [(1008, ⟨[], none, [], [(2, ⟨[], w, none⟩)]⟩)] }

/-- A panel of object 1. -/
def panel (off : Nat) : Cap := data 15 5 off

theorem test_meets_MatrixCommands :
    let c := cs [(1, panel 0), (2, panel 4096), (3, data 1 0 8192), (4, data 7 0 12288)]
    let g := gs [(1, BitVec.ofNat 64 (2 ^ 48 + 32)), (2, BitVec.ofNat 64 (1008 * 2 ^ 16 + 16)), (3, BitVec.ofNat 64 (64 * 2 ^ 32)),
      (4, BitVec.ofNat 64 (2 ^ 63 + 128)), (5, 0), (6, 1024)]
    let s := g (c (tiled 1 withData))
    let few := { s with teams := [(loadTeam.key, { loadTeam with tiles := [0, 1] })] }
    let st := s.tileStatus 1008 2
    allOf [s.th.stores.isEmpty, s.pushersBefore 0 < s.matrixRoom s.origin.core, s.myTeam = some loadTeam, loadTeam.tiles[(2 : TReg).val]? = some 2,
      st = 1, fieldW 62 53 (s.th.rg 1) = 0, fieldW 47 32 (s.th.rg 1) = 0, capFmt (s.th.rc 1) = 15,
      (capCheck (s.th.rc 1) rW 0 (64 + 2 * (320 + 128 * 16)) 64).isNone,
      (match checkSource (creg 3) (s.th.rc 3) 32 64 s with
        | .ok e t => e = .i8 && t = s
        | .error _ _ => false)] = true ∧
    allOf [capFmt (s.th.rc 2) = 15, (capCheck (s.th.rc 2) rR 4096 64 64).isNone, (capCheck (s.th.rc 1) rR 0 64 64).isNone,
      fieldW 31 16 (s.th.rg 2) = 1008, fieldW 10 0 (s.th.rg 2) = 16, fieldW 63 32 (s.th.rg 2) = 0,
      fieldW 10 0 (s.th.rg 6) = 1024, fieldW 31 16 (s.th.rg 6) = 0, fieldW 47 32 (s.th.rg 3) = 64, fieldW 47 32 (s.th.rg 5) = 0] = true ∧
    allOf [epiElem (capFmt (s.th.rc 4)) = some .fp32, fieldW 31 0 (s.th.rg 4) = 128, (s.th.rg 4).getLsbD 63,
      (capCheck (s.th.rc 4) (rR + rW) 12288 (31 * 128 + 128) 4).isNone, fieldW 62 48 (s.th.rg 4) = 0, (blockFmt .fp32).isNone,
      ((tiled 0x10 s).tileStatus 1008 2).getLsbD 4, !((tiled 0 s).tileStatus 1008 2).getLsbD 0,
      ((tiled 0x24 s).tileStatus 1008 2).getLsbD 5, ((tiled 4 s).tileStatus 1008 2).getLsbD 2, !s.th.handler, (inHandler s).th.handler,
      few.myTeam = some { loadTeam with tiles := [0, 1] }, 0 < fieldW 47 32 (s.th.rg 3)] = true := by decide +kernel

/-- MZERO joins the queue and sets V, D and FLT at once (R255, R269). -/
theorem test_mzero :
    gives (exec (.mzero 2) (tiled 0 base)) (fun t =>
      t.tileStatus 1008 2 = 7 && (t.matrixOf 1008).queue.map (·.body) = [.zero 2 2]) = true := by decide +kernel

theorem test_meets_MatrixEvents :
    let o := withData.origin
    let zero : MCmd := ⟨0, o, .zero 2 2⟩
    let run : MRun := ⟨⟨1, o, .mma 2 2 none (panel 0) (panel 0) 0 16 false⟩, 1, 1, 1, 0, [], []⟩
    let s := { withData with
      matrix := [(1008, ⟨[zero], none, [⟨5, o, []⟩], []⟩)], tokens := [(1008, 1)] }
    let r := { s with matrix := [(1008, ⟨[], some run, [], []⟩)] }
    let poor := { r with tokens := [(1008, 0)] }
    allOf [(s.matrixOf 1008).queue = [zero], (s.matrixOf 1008).running = none, !(s.tileStatus 1008 2).getLsbD 4,
      (r.matrixOf 1008).running = some run, smGet 0 r.tokens 1008 = run.pa, smGet 0 poor.tokens 1008 < run.pa, run.chunk = 0,
      (r.matrixOf 1008).queue = [], (s.matrixOf 1008).markers = [⟨5, o, []⟩], s.keptOf 1008 o.firing = [],
      s.firingCtx o.firing = some 8064, ((5000 : BitVec 16)).toNat ≤ fieldW 15 0 s.pwrbud] = true ∧
    (match r.readSlab (r.accOf o) (panel 0) 1 1 0 with
      | (.ok _, t) => match t.readSlab (r.accOf o) (panel 0) 1 1 0 with
        | (.ok _, u) => decide (u.matrix = r.matrix)
        | (.error _, _) => false
      | (.error _, _) => false) = true := by decide +kernel

/-- Blocks with one row and one column: elements 2 and 3 alone, marked as infinite and finite, and marked NaN; and the first lane of a slab. -/
theorem test_meets_matrix_sums :
    let o := withData.origin
    let run : MRun := ⟨⟨1, o, .mma 2 2 none (panel 0) (panel 0) 0 16 false⟩, 4, 4, 4, 0, [], []⟩
    let one := fun (q : Int) (l : List (Nat × FVal)) => [PlaneBlock.mk 0 [q] l]
    let out := fun (a b : List PlaneBlock) => applyBlock 5 run [] a b id [0]
    allOf [(smGet [] (out (one 2 []) (one 3 [])).2 0).isEmpty, smGet 0 (out (one 2 []) (one 3 [])).1 0 = 0x3EC00000,
      (smGet [] (out (one 0 [(0, .inf true)]) (one 3 [])).2 0) = [(0, some true)],
      smGet 0 (out (one 0 [(0, .inf true)]) (one 3 [])).1 0 = 0xFF800000,
      (smGet [] (out (one 0 [(0, .nan false 0 0)]) (one 3 [])).2 0) = [(0, none)],
      smGet 0 (out (one 0 [(0, .nan false 0 0)]) (one 3 [])).1 0 = 0x7FC01400] = true ∧
    finite fp32 0 ∧ ¬nanCode 8 23 0 ∧ (1 ≤ 4 ∧ 4 ≤ 16 ∧ 31 < 32) := by
  refine ⟨by decide +kernel, ?_⟩
  unfold finite nanCode
  decide

/-- A command at the head of the sequencer of core 1,008, with a status word in tile 2 and an epilogue that the tile keeps. -/
def heading (b : MBody) (w : Word) (kept : Option (List MCmd × Epilogue)) : State :=
  { withData with matrix := [(1008, ⟨[⟨0, withData.origin, b⟩], none, [], [(2, ⟨[], w, kept⟩)]⟩)] }

/-- A header of a panel of one plane and one slab, of either role. -/
def header (role : Nat) : List Byte := panelHeader 1 role 0

/-- Panels at offsets 0 and 4,096 of object 1, one whose object is absent, and an FP32 destination at offset 8,192. -/
theorem test_meets_matrix_starts :
    let mma := MBody.mma 2 2 none (panel 0) (panel 4096) 0 16 false
    let heads := fun (x y : List Byte) =>
      let s := heading mma 1 none
      { s with mem := memPutBytes (memPutBytes s.mem 2097152 x) 2101248 y }
    let valid := fun (x : List Byte) (r : Bool) =>
      let h := wordLe (x.take 8)
      fieldW 7 0 h = 1 && fieldW 15 9 h = 0 && fieldW 63 21 h = 0 && h.getLsbD 8 = r && (x.drop 8).all (· = 0)
    let read := fun (s : State) (good : Bool) =>
      match s.engReadWhole (s.accOf s.origin) 1 0 64 with
      | (.ok x, t) => (match t.engReadWhole (s.accOf s.origin) 1 4096 64 with
        | (.ok y, u) => decide (u.matrix = s.matrix) && (valid x false && valid y true) = good
        | (.error _, _) => false)
      | (.error _, _) => false
    let st := fun (w : Word) => ((heading mma w none).tileStatus 1008 2)
    allOf [read (heads (header 0) (header 1)) true, read (heads (header 1) (header 1)) false, (st 9).getLsbD 3, (st 0x11).getLsbD 4,
      !(st 1).getLsbD 3, !(st 1).getLsbD 4, !okE (withData.engReadWhole (withData.accOf withData.origin) 9 0 64),
      capTop (panel 0) = 65536] = true ∧
    (let ep : Epilogue := ⟨data 7 0 8192, false, 0, 128, .none, .rne, 1⟩
     let lost := { ep with dst := capOver 9 0 65536 0 0xFF }
     let s := heading (.epi 2 2 ep) 1 none
     let cmd : MCmd := ⟨0, withData.origin, .replay 2 2⟩
     let again := heading (.replay 2 2) 0x511 (some ([cmd], ep))
     let c := s.accOf s.origin
     let ends := fun (p : Option (Nat × Nat × Nat) × State) => p.1.isNone && decide (p.2.matrix = s.matrix)
     allOf [epiElem (capFmt ep.dst) = some .fp32, ends (s.epiRows c 1008 2 ep 1 31), (s.epiRows c 1008 2 lost 32 0).1.isSome,
       okE (s.xlatRange c 1 8192 rW (pagesOf 8192 128) 128), (again.tile 1008 2).kept = some ([cmd], ep),
       fieldW 12 8 (again.tileStatus 1008 2) = 5, ((heading (.replay 2 2) 1 none).tile 1008 2).kept = none] = true) ∧
    (let p := MBody.plane 1 (panel 0) (data 1 0 8192) 0 0 32
     let s := heading p 1 none
     let c := s.accOf s.origin
     allOf [planeElem (capFmt (data 1 0 8192)) = some .i8, okE (s.engWrite c 1 0 (header 0)), okE (s.sourceSlab c (data 1 0 8192) .i8 32 0 32 0),
       okE (s.engReadWhole c 1 8192 32), okE (s.engWrite c 1 64 (slabBytes 1 (List.replicate 32 (planeBlock 1 [.fin false 1 0]))))] = true) := by
  decide +kernel

/-- A block of 1 and -3 at 4 planes: exponent 1, in units of 2^-1 (R22). -/
theorem test_plane_block :
    planeBlock 4 [.fin false 1 0, .fin true 3 0, .fin false 0 0] = ⟨1, [2, -6, 0], []⟩ := by decide +kernel

/-- A refill adds 2,700 tokens, and 4,096 is the most that a core holds (R261). -/
theorem test_refill :
    gives (exec (.energyTokenRefill 5000) { base with tokens := [(5, 1000), (6, 2000)] }) (fun t =>
      smGet 0 t.tokens 5 = 3700 && smGet 0 t.tokens 6 = 4096) = true := by decide +kernel

/-! ## Hypotheses that can be met: traversal unit, work graphs, pairs -/

/-- Bytes written to memory. -/
def wrote (l : List (Nat × List Byte)) (s : State) : State :=
  { s with mem := l.foldl (fun m p => memPutBytes m p.1 p.2) s.mem }

/-- In object 1: a pair block at 0, a ray block at 512 with K 1, a hierarchy at 1,024 of an inner node without children and an
empty leaf, and moments at 4,096. -/
def graph : State :=
  let h := capBytes (data 0 0 1024)
  let none_ := leBytes 16 (2 ^ 128 - 1)
  let s := wrote [(2097152, h ++ h ++ capBytes (data 0 0 2048) ++ capBytes (data 0 0 4096) ++ capBytes (data 0 0 4096)),
      (2097152 + 80, leBytes 8 1), (2097664 + 36, leBytes 4 1), (2098176, leBytes 4 2),
      (2098240, leBytes 8 (2 * 2 ^ 8)), (2098272, none_), (2098304, leBytes 8 (1 + 2 ^ 16))]
    (cs [(1, data 0 0 0), (2, data 0 0 512), (3, data 0 0 1024), (4, data 0 0 4096)] withData)
  { s with tags := (List.range 5).map (131072 + ·) }

/-- A ray from (0, 0, -10) along z, and the unit sphere at the origin (R294, R301). -/
def ray1 : Ray := ⟨[0, 0, 0xC1200000], 0, [0, 0, 0x3F800000], 0x42C80000, 0xFFFFFFFF, 1⟩
def ball : List Byte :=
  leBytes 12 0 ++ leBytes 2 0x3C00 ++ leBytes 6 0 ++ leBytes 2 0x3C00 ++ leBytes 2 0x3C00 ++ leBytes 2 0x3C00 ++ leBytes 22 0

/-- It is a candidate with T 10 and D2 0, after a fresh block's position; a box about the origin is visited, and one aside is not. -/
theorem test_meets_rays :
    let box := fun (x : Nat) => Node.mk 0 1 true 1 [x, 0xBF800000, 0xBF800000] [0x40000000, 0x3F800000, 0x3F800000] [] 0 1 0 0
    EllipsoidHit ray1 ball 0x41200000 0 ∧ fpCond .lt (fp32.decode ray1.tmin) (fp32.decode 0x41200000) = true ∧
    primTest ray1 ball = some (0x41200000, 0) ∧ visited ray1 (box 0xBF800000) = true ∧ visited ray1 (box 0x3F800000) = false := by
  refine ⟨?_, by decide +kernel, by decide +kernel, by decide +kernel, by decide +kernel⟩
  unfold EllipsoidHit finite
  decide +kernel

theorem test_meets_Traversals :
    let s := graph
    let c := fun (r : CReg) => s.th.rc r
    let x : TCmd := ⟨0, s.origin, .trav (c 3) (c 2), false, false, none, none⟩
    let m : TCmd := ⟨0, s.origin, .marker 5, false, true, none, some 5⟩
    let full := { s with travs := List.replicate 4 x }
    let u := { s with travs := [x], served := smPut s.served (x.org.core / 16) (x.org.core % 16) }
    let a := u.unitAcc x.org
    allOf [s.th.stores.isEmpty, (capCheck (c 3) rR 1024 64 64).isNone, (capCheck (c 2) (rR + rW) 512 320 64).isNone,
      (capCheck (c 4) (rR + rW + rC) 4096 16448 64).isNone, s.pushersBefore 4 = 0, 0 < s.travRoom s.origin.core, full.travRoom full.origin.core = 0,
      !s.th.handler, s.firingCtx m.org.firing = some 8064] = true ∧
    (match u.engReadWhole a 1 512 320 with
      | (.ok b, s1) =>
        match s1.readHier a (c 3) with
        | (.ok h, s2) =>
          match s2.rayWalk a h (parseRay b) (5 * h.nnodes + 5) [(h.root, none)] [] ([], false) with
          | (.hits l _, s3) =>
            let r := s3.writeHits a (c 2) (l.take (parseRay b).k)
            allOf [(parseRay b).k = 1, (List.range 24).all fun i => b.getD (40 + i) 0 = 0, b.length = 320, okE r,
              r.2.travs = [x], r.2.firingCtx x.org.firing = some 8064]
          | (_, _) => false
        | (_, _) => false
      | (.error _, _) => false) = true := by decide +kernel

/-- A queue at the descriptor at offset 64 of object 1, with a segment of four slots. -/
def queue1 (used : Nat) (slots : SMap WSlot) : WQueue :=
  ⟨5, 1, 64, 2097216, bootLaunch, 0, 1008, [capOver 1 4096 4224 4096 0xFF, nullCap, nullCap, nullCap], [0], nullCap, 0, true, 4, used,
    used, 0, 0, slots⟩

/-- The same with the actor of its records. -/
def graphSpec : LaunchSpec := { loadSpec with table := [⟨0, 0, 0, 0, 0, []⟩, ⟨0x200, 3, 0, 0, 0, []⟩] }

/-- The state with such a queue bound, and its descriptor's segment 1 and control word in memory. -/
def queued (qs : List WQueue) : State :=
  let s := wrote [(2097232, capBytes (capOver 1 8192 8224 8192 0xFF)), (2097296, leBytes 8 1)]
    (gs [(1, 1), (2, 64), (3, 65), (4, 0x100), (5, 17), (6, 2), (7, 3), (8, 4), (9, 5)] withData)
  { s with tags := [131077], wqueues := qs, launches := [(bootLaunch, bootPlaced graphSpec)] }

/-- A descent's block at offset 8,192 of object 1, over the hierarchy of `graph` and one of a leaf with an ellipsoid at 16,384, and with a
queue's descriptor at 64. -/
def descent (ctl state : Nat) (x : Origin → TCmd) : State :=
  let h := capBytes (data 0 0 1024)
  let s := wrote [(2105344, h ++ h ++ capBytes (data 0 0 64) ++ leBytes 8 ctl ++ leBytes 8 state), (2113536, leBytes 4 2),
    (2113536 + 8, leBytes 8 256), (2113536 + 16, leBytes 4 1), (2113664, leBytes 8 (1 + 2 ^ 16)), (2113664 + 36, leBytes 4 1)] graph
  { s with tags := [131584, 131585, 131586], wqueues := [queue1 0 []], travs := [x s.origin] }

theorem test_meets_descents_begin :
    let x := fun (o : Origin) => (⟨0, o, .dtrav (data 0 0 8192), false, false, none, none⟩ : TCmd)
    let s := fun (state : Nat) =>
      let s := descent 0 state x
      { s with served := smPut s.served 63 0 }
    let alone := fun (t : State) => !t.holding 1008 4 && t.firingCtx t.origin.firing = some 8064
    let begun := fun (state : Nat) =>
      let s := s state
      let c := s.unitAcc s.origin
      match s.blockHead c (data 0 0 8192) 64 with
      | (.ok w, s1) =>
        match s1.readHier c (blockCap w 0) with
        | (.ok h, s2) =>
          match s2.readHier c (blockCap w 1) with
          | (.ok g, s3) =>
            match s3.queueOf c (blockCap w 2) with
            | (.ok (some q), s4) =>
              match s4.engWrite c 1 8248 (leBytes 8 (state + 2 ^ 62)) with
              | (.ok _, s5) =>
                blockWord w 56 = BitVec.ofNat 64 state && (capCheck (blockCap w 2) (rR + rW + Machine.rA) 64 128 64).isNone &&
                  (capCheck (blockCap w 0) rR 1024 64 64).isNone && (s5.wq? q.id).isSome && okE (s5.engReadWhole c 1 8256 8) &&
                  (match s5.readNode c h h.root none (dLeaf 0) with
                  | (.ok _, s7) =>
                    match s7.readNode c g g.root none (dLeaf 0) with
                    | (.ok _, s8) => s8.travs = [x s.origin]
                    | (_, _) => false
                  | (_, _) => false)
              | (.error _, _) => false
            | (_, _) => false
          | (_, _) => false
        | (_, _) => false
      | (.error _, _) => false
    allOf [begun 0, begun (2 ^ 63 + 2 ^ 32),
      (match (s (2 ^ 62)).blockHead ((s 0).unitAcc (s 0).origin) (data 0 0 8192) 64 with
        | (.ok w, t) => (blockWord w 56).getLsbD 62 && alone t
        | (.error _, _) => false)] = true := by decide +kernel

theorem test_meets_descents_step :
    let hier := fun (off nprim poff : Nat) => (⟨data 0 0 off, 2, 0, poff, nprim, false⟩ : Hier)
    let run := fun (ctl : Word) (l : List (Nat × Nat)) =>
      (⟨hier (if ctl = 1 then 16384 else 1024) (if ctl = 1 then 1 else 0) (if ctl = 1 then 256 else 0), hier (if ctl = 1 then 16384 else 1024)
        (if ctl = 1 then 1 else 0) (if ctl = 1 then 256 else 0), ctl, l, 0, 0, false, 5⟩ : DRun)
    let x := fun (d : DRun) (o : Origin) => (⟨0, o, .dtrav (data 0 0 8192), false, true, some d, none⟩ : TCmd)
    let s := fun (d : DRun) => descent 0 (2 ^ 63 + 2 ^ 62) (x d)
    let c := base.origin
    let node := fun (s : State) (d : DRun) (i : Nat) => s.readNode (s.unitAcc c) d.ha i none (dLeaf d.ctl)
    let kind := fun (m : Met Node × State) =>
      match m.1 with
      | .ok a => if a.leaf then 1 else 0
      | .bad => 2
      | .poisoned => 3
      | .fault _ _ _ => 4
    let alone := fun (t : State) => !t.holding 1008 4 && t.firingCtx c.firing = some 8064
    let d0 := run 0 []
    let d1 := run 0 [(1, 1)]
    allOf [okE ((s d0).engWrite ((s d0).unitAcc c) 1 8248 (leBytes 8 (2 ^ 63))), alone ((s d0).wqWork 5 1), kind (node (s d0) d0 0) = 0,
      kind (node (s d0) d0 1) = 1, kind (node (s d0) d0 2) = 2, kind (node { s d0 with poison := [2098240] } d0 0) = 3,
      kind (node (s (run 1 [])) (run 1 []) 1) = 1, ((s d1).wq? 5).isSome, ({ s d1 with wqueues := [queue1 4 []] }.wq? 5) = some (queue1 4 []),
      okE ((s d1).place (queue1 0 []) [List.replicate 32 0]), okE ((s d0).kids ((s d0).unitAcc c) d0.ha 0 0 [])] = true ∧
    (match (node (s (run 1 [])) (run 1 []) 1) with
      | (.ok a, t) => (match t.sphereOf (t.unitAcc c) (run 1 []).ha a with
        | (.ok v, _) => v.isSome
        | (.error _, _) => false)
      | (_, _) => false) = true := by decide +kernel

theorem test_meets_WorkGraphQueues :
    let s := queued [queue1 3 []]
    let here := fun (t : State) => decide ((t.reach t.cur.core 2097216).1 = 2097216 ∧ (t.reach t.cur.core 2097216).2 = t)
    let at_ := fun {α : Type} (_ : Nat) (r : EStateM.Result Stop State α) =>
      match r with
      | .ok _ t => here t
      | .error _ _ => false
    let none_ := queued []
    let c := s.th.rc 1
    let res : WgRes := ⟨5, 1, 1, [0]⟩
    let held := thr (fun t => { t with wg := [(0, res)] }) s
    let four := thr (fun t => { t with wg := [(0, res), (1, res), (2, res), (3, res)] }) s
    allOf [s.th.rg 2 = 64, s.th.rg 3 = 65, s.th.rg 11 = 0, (capCheck c (rR + rW + Machine.rA) 64 128 64).isNone,
      stays 2097216 s (locate (creg 1) false c 64 (min 128 (65536 - 64 % 65536)) (rR + rW) s), ((List.range 4).all fun k => (smFind four.th.wg k).isSome),
      (smFind s.th.wg 0).isNone, (none_.wqAt 2097216).isNone, s.wqAt 2097216 = some (queue1 3 []), (queue1 3 []).cap - 3 = 1] = true ∧
    allOf [fieldW 1 0 (held.th.rg 4) = 0, smFind held.th.wg 0 = some res, fieldW 23 8 (held.th.rg 4) = res.gen,
      fieldW 63 24 (held.th.rg 4) = 0, fieldW 7 2 (held.th.rg 4) = 0, fieldW 23 8 (held.th.rg 5) ≠ res.gen, held.th.status = .running,
      held.th.stores.isEmpty, held.wq? 5 = some (queue1 3 []), (queue1 3 []).slotAt 0 = (capOver 1 4096 4224 4096 0xFF, 4096),
      held.redirects.isEmpty, !isForeign 2101248] = true ∧
    allOf [!isForeign (2097216 + 128), s.poison.isEmpty, fieldW 3 0 (s.th.rg 8) = 4, 64 ≤ (s.th.rg 2).toNat,
      fieldW 3 0 (s.th.rg 11) = 0, fieldW 3 0 (s.th.rg 7) = 3, (s.th.rg 5).toNat = 16 * 1 + 1, fieldW 3 0 (s.th.rg 6) = 2,
      segOk (capFrom (memBytes s.mem 2097232 16) (s.tagAt 2097232)), !(queue1 3 []).active.contains 1,
      !none_.badQctl bootLaunch (wordLe (memBytes none_.mem 2097296 8)), !none_.queuesFull 2097216,
      badSegment [nullCap, capFrom (memBytes s.mem 2097232 16) true, nullCap, nullCap] 0 0 = none,
      ((List.range 5).all fun k => at_ k (readSegment 1 c k s)), at_ 5 (readDescriptor 1 c 80 8 s), here s] = true ∧
    (let q := queue1 2 [(0, .committed 1 0 false false), (1, .committed 2 1 false false)]
     let s := queued [q]
     allOf [s.wq? 5 = some q, s.team? bootLaunch 0 = some loadTeam, taskCount (s.queue 1008) < 64, (1, 2, 1) ∈ q.dispatchable,
       q.dispatchable.all fun y => y = (1, 2, 1) || y.2.1 < 2,
       (match s.engRead (s.wqAcc q) 1 4128 32 with
         | (.ok (_, p), t) => !p && t.queues = s.queues && t.launches = s.launches && t.wq? 5 = some { q with home := q.home }
         | (.error _, _) => false)] = true) := by decide +kernel

/-- WGCOM's slot translates whatever SRC and CREG a fault would name. -/
theorem test_meets_commit (w : Src) :
    (match slotHome w (queue1 3 []) 0 { queued [queue1 3 []] with frees := 1 } with
      | .ok a _ => a
      | .error _ _ => 0) = 2101248 := rfl

/-- The same hierarchy with the leaf as a child of the inner node, boxes at 0 and at (4, 0, 0), and a THETA. -/
def tree (theta self : Nat) : State :=
  wrote [(2097232, leBytes 8 self), (2097240, leBytes 4 theta), (2098272, leBytes 4 1 ++ leBytes 12 (2 ^ 96 - 1)),
    (2098304, leBytes 8 (1 + 2 ^ 16 + 2 ^ 24)), (2098312, leBytes 4 0x40800000), (2098324, leBytes 4 0x40800000)] graph

/-- A queue of such pairs with an HWM and used slots. -/
def pairQueue (hwm used : Nat) : WQueue := { queue1 used [] with home := 2099200, off := 2048, qctl := BitVec.ofNat 64 (hwm * 2 ^ 16) }

/-- The step went through, to a state in which the next one does. -/
def andThen {ε α β : Type} (r : EStateM.Result ε State α) (f : α → State → β) (d : β) : β :=
  match r with
  | .ok a s => f a s
  | .error _ _ => d

/-- A pair that is accepted, one of leaves, and the three splits; the four places of child pairs and an unbound queue; sums. -/
theorem test_meets_pair_parts :
    let met := fun (s : State) (i j : Nat) (far leaves : Bool) (kids : List (Nat × Nat)) =>
      andThen (readPairBlock s.acc (s.th.rc 1) s) (fun p s1 =>
        match s1.readHier s1.acc (p.cap 0) with
        | (.ok x, s2) =>
          match s2.readNode s1.acc x i none (fun _ => true) with
          | (.ok a, s3) =>
            match s3.readNode s1.acc x j none (fun _ => true) with
            | (.ok b, s4) => accepted p.theta a b = far && (a.leaf && b.leaf) = leaves &&
                andThen (pairSplit s1.acc (p.ctl.getLsbD 0) x x a b s4) (fun l _ => l.map (fun z => (z.1.idx, z.2.idx)) = kids) false
            | _ => false
          | _ => false
        | _ => false) false
    allOf [met (tree 0x3F800000 1) 0 1 true false [(1, 1)], met (tree 0 1) 1 1 false true [], met (tree 0 1) 0 0 false false [(1, 1)],
      met (tree 0 1) 1 0 false false [(1, 1)], met (tree 0 1) 0 1 false false [(1, 1)]] = true := by decide +kernel

theorem test_meets_pair_places :
    let s := fun (q : List WQueue) => { tree 0 1 with wqueues := q, launches := [(bootLaunch, bootPlaced graphSpec)] }
    let c := base.acc
    let k := data 0 0 2048
    let rec_ := [List.replicate 32 0]
    let found := fun (q : WQueue) =>
      match (s [q]).queueOf c k with
      | (.ok (some x), t) => x = q && okE (t.place x rec_) && okE (t.engWrite c 1 8192 [0])
      | _ => false
    allOf [(match (s []).queueOf c k with
        | (.ok none, _) => true
        | _ => false), found (pairQueue 4 0), found (pairQueue 0 0), (pairQueue 0 4).cap - (pairQueue 0 4).used = 0,
      stackUsable (data 0 0 8192) 1, !stackUsable nullCap 1,
      andThen (readPairBlock c (data 0 0 0) (tree 0 1)) (fun p t =>
        andThen (momNode c p 3 (rR + rW) 0 t) (fun x u => x.2.length = 1 && andThen (readEntries c 4 (p.cap 3) x.2 u) (fun _ _ => true) false) false &&
        andThen (momNode c p 4 (rR + rW + Machine.rA) 0 t) (fun x u =>
          andThen (readEntry c 5 (p.cap 4) x.1 u) (fun _ _ => true) false &&
            andThen (probeEntries c 5 (p.cap 4) x.2 u) (fun _ _ => true) false) false) false] = true := by decide +kernel

/-- PAIR, MOM and MOMD with a result, a bad node, and poison. -/
theorem test_meets_PairsComplete :
    let s := graph
    let sick := { s with poison := [2098240] }
    let b := s.th.rc 1
    let a := s.unitAcc s.origin
    let good := fun (r : EStateM.Result PairEnd State Word) =>
      match r with
      | .ok _ _ => true
      | .error _ _ => false
    let bad := fun (r : EStateM.Result PairEnd State Word) =>
      match r with
      | .error (.bad n) _ => n = 2
      | .ok _ _ => false
      | .error _ _ => false
    let lost := fun (r : EStateM.Result PairEnd State Word) =>
      match r with
      | .error .dropped _ => true
      | .ok _ _ => false
      | .error _ _ => false
    allOf [s.th.stores.isEmpty, (capCheck b rR 0 128 64).isNone, fieldW 63 33 (s.th.rg 0) = 0,
      good (runPair a b nullCap 0 (BitVec.ofNat 64 (2 ^ 32 + 1)) s), bad (runPair a b nullCap 0 2 s),
      lost (runPair a b nullCap 0 0 sick), good (runMom a b 0 s), bad (runMom a b 2 s), lost (runMom a b 0 sick),
      good (runMomd a b 0 s), bad (runMomd a b 2 s), lost (runMomd a b 0 sick), sick.unitAcc sick.origin = a] = true := by decide +kernel

/-! ## Hypotheses that can be met: supervisor instructions, die registers, services -/

theorem test_meets_DieRegisters :
    let s := gs [(1, BitVec.ofNat 64 (2 ^ 32)), (2, BitVec.ofNat 64 (2 ^ 32 - 1)), (3, BitVec.ofNat 64 (2 ^ 40)), (4, 1),
      (5, BitVec.ofNat 64 (2 ^ 18)), (6, 0x240), (7, BitVec.ofNat 64 (3 * 2 ^ 16)), (8, BitVec.ofNat 64 (2 ^ 47))] base
    allOf [s.th.tctl.getLsbD 2, decide (2 ^ 32 ≤ (s.th.rg 1).toNat), decide ((s.th.rg 2).toNat < 2 ^ 32), fieldW 50 40 (s.th.rg 3) = 1,
      fieldW 50 40 (s.th.rg 4) = 0, fieldW 39 0 (s.th.rg 4) = 1, s.th.stores.isEmpty, s.th.status = .running, !(s.th.rg 4).getLsbD 51,
      fieldW 63 18 (s.th.rg 5) = 1, fieldW 63 18 (s.th.rg 6) = 0, fieldW 15 12 (s.th.rg 6) = 0, (s.dieReg 0 0x240).isNone] = true ∧
    allOf [fieldW 17 16 (s.th.rg 7) = 3, (s.dieReg 3 0).isSome, fieldW 41 0 (s.th.rg 2) < 2 ^ 34, 2 ^ 34 ≤ fieldW 41 0 (s.th.rg 3),
      fieldW 47 32 (s.th.rg 3) = 256, fieldW 47 32 (s.th.rg 4) = 0, !s.attest.getLsbD 63,
      ({ s with attest := BitVec.ofNat 64 (2 ^ 63) } : State).attest.getLsbD 63] = true := by decide +kernel

/-- Frames in die 1's slices, and not; a save area given out; CORR written and not; the first and the last MBP. -/
theorem test_meets_die_writes :
    let v : Word := BitVec.ofNat 64 (8 * 2 ^ 32 + 2 ^ 22 + 512)
    let d := { Die.reset with savUsed := [0] }
    allOf [Die.reset.savUsed.isEmpty, !d.savUsed.isEmpty, fieldW 31 0 v / 2 ^ 22 = 1, decide (fieldW 31 0 v + fieldW 63 32 v ≤ 2 * 2 ^ 22),
      fieldW 63 52 (BitVec.ofNat 64 (2 ^ 52)) = 1, fieldW 63 52 v = 0, ((0x200 : BitVec 12)).toNat = 512 + (0 : Fin 64).val,
      ((0x23F : BitVec 12)).toNat = 512 + (63 : Fin 64).val] = true := by decide +kernel

/-- SAVPOOL takes frames of its own die, and refuses others and any while a save area is given out (R251, R352). -/
theorem test_savpool :
    let v : Word := BitVec.ofNat 64 (8 * 2 ^ 32 + 2 ^ 22 + 512)
    let used := base.setDie 1 { Die.reset with savUsed := [0] }
    gives (exec (.dieRegisterWrite 1 4 v) base) (fun t => t.dieReg 1 4 = some v) = true ∧
    gives (exec (.dieRegisterWrite 0 4 v) base) (fun t => t.dieReg 0 4 = some 0) = true ∧
    gives (exec (.dieRegisterWrite 1 4 v) used) (fun t => t.dieReg 1 4 = some 0) = true := by decide +kernel

/-- OBJINV of page 0 of object 1 drops its translation and answers 1 (R242). -/
theorem test_objinv :
    gives (exec (.objinv false 1 2) (gs [(1, 1)] withData)) (fun t =>
      (t.th.settle [.g 1]).rg 1 = 1 && t.tlbOf 1008 = [loadEntry 0]) = true := by decide +kernel

theorem test_meets_ServicesAndBoot :
    let s := base.setDie 1 { Die.reset with takeover := some ⟨1, 5, 9⟩ }
    let image : BootImage := ⟨[], (0, 0), (0, 0), [], [], 0, [], [], some loadSpec, []⟩
    allOf [(s.die 0).takeover = none, fieldW 41 40 (s.die 0).spare = 2, fieldW 15 14 (BitVec.ofNat 64 (2 ^ 15 + 62 * 2 ^ 8)) = 2,
      fieldW 13 8 (BitVec.ofNat 64 (2 ^ 15 + 62 * 2 ^ 8)) = 62, 62 ∉ s.busyClusters 0, (s.die 1).takeover = some ⟨1, 5, 9⟩,
      ({ s with attest := BitVec.ofNat 64 (2 ^ 63 + 1) } : State).attest.getLsbD 63, !s.poisoned 64 256,
      (s.die 0).errBase * 64 + 32 * (s.die 0).errHead + 32 ≤ 2 ^ 40, image.regs.isEmpty, image.mem.isEmpty,
      image.launch = some loadSpec, (smFind (s.die 1).cores 5).isNone, fieldW 15 14 (0x4000 : Word) = 1,
      fieldW 13 8 (0x7F00 : Word) = 63] = true := by decide +kernel

/-- A header at 1,024 of object 1 with one item actor in the code object, and NOTIFY at 16,384. -/
def launching (prio kind : Nat) (n : Nat) : State :=
  let s := wrote [(2098176, capBytes loadCode), (2098192, capBytes (capOver 0 32768 32800 32768 rR)),
      (2098224, capBytes (data 0 0 16384)), (2098176 + 73, leBytes 2 (0xFF + prio * 2 ^ 8)), (2098176 + 80, leBytes 4 0xFFFFFFFF),
      (1048576 + 32768 + 4, leBytes 1 kind)]
    (cs [(1, data 0 0 1024)] withData)
  let l := (List.range n).map fun i => (i + 1, { bootPlaced loadSpec with id := i + 1 })
  { s with tags := [131136, 131137, 131139], launches := l ++ s.launches }

/-- A header and table that pass, a bad PRIO, a bad KIND, and a module with 256 launches. -/
theorem test_meets_LaunchAnswers :
    let judged := fun (s : State) (bad worse : Option Nat) =>
      match loadBlock 1 rR 128 64 s with
      | .ok head s1 =>
        let ac := blockCap head 1
        let n := if tableReadable ac then 32 * tableLength ac else 0
        match loadRange (creg 1) ac (capBase ac) (pagesOf (capBase ac) n) n s1 with
        | .ok tb s2 =>
          let l := parseSpec head (s.th.rg 0) (s.th.rc 0) ((List.range (n / 32)).map fun i => parseActor (tb.drop (32 * i)))
          let d := (s2.notifyOk s2.cur.core l.notify).1
          d && firstBad (headerChecks l head.1 d s2.supvSpill) = bad && firstBad (tableChecks l tb) = worse && !s2.answersHost
        | .error _ _ => false
      | .error _ _ => false
    let s := launching 0 0 0
    allOf [s.th.tctl.getLsbD 2, fieldW 17 0 (s.th.rg 0) = 0, s.th.stores.isEmpty, (capCheck (s.th.rc 1) rR 1024 128 64).isNone,
      judged s none none, judged (launching 4 0 0) (some 74) none, judged (launching 0 4 0) (some 72) (some 4),
      s.liveLaunches = 0, (launching 0 0 256).liveLaunches = 256] = true := by decide +kernel

/-- LAUNCH of that header is accepted with the next identifier (R348). -/
theorem test_launch :
    gives (exec (.launch 2 1 0) { launching 3 0 0 with nextId := 7 }) (fun t =>
      (t.th.settle [.g 2]).rg 2 = 7 && ((t.launch? 7).map fun l => (l.spec.prio, l.phase)) = some (3, .live)) = true := by decide +kernel

/-- A parked context. -/
def parkedAs (why : ParkWhy) (s : State) (tid : Nat) : State :=
  s.setThread tid { loadThread with status := .parked ⟨why, 0, { s.cur with core := tid / 8, ctx := tid % 8, words := 1 }, none⟩ }

theorem test_meets_ClosingAndContexts :
    let l := { bootPlaced loadSpec with id := 7 }
    let s := gs [(1, 7), (2, 8), (3, BitVec.ofNat 64 (2 ^ 16)), (4, 1), (5, 2), (6, 3), (7, 8065)]
      { withData with launches := [(7, l), (bootLaunch, bootPlaced loadSpec)] }
    let swept := { s with launches := [(7, { l with phase := .swept }), (bootLaunch, bootPlaced loadSpec)] }
    let closing := { s with launches := [(7, { l with phase := .closing, timers := [2] })] }
    let two := parkedAs .bwait s 8065
    let home : Firing := ⟨0, 7, 0, 0, 0, 0, none, none, some 8065⟩
    let shipped := s.setThread 8129 { loadThread with
      firing := some home, status := .parked ⟨.absent 9 0 1 0, 0, { s.cur with core := 1016, ctx := 1 }, none⟩ }
    allOf [s.th.tctl.getLsbD 2, decide (2 ^ 16 ≤ (s.th.rg 3).toNat), (s.launch? 8).isNone, s.launch? 7 = some l, l.phase = .live,
      (swept.launch? 7).map (·.phase) = some .swept, (s.th.rg 4) = 1, (s.th.rg 5) = 2, (s.th.rg 6) = 3,
      (List.range 4).all fun k => fieldW 31 0 (s.die k).closectl ≠ 0,
      (closing.launch? 7).map (fun l => (l.phase, l.timers)) = some (.closing, [2])] = true ∧
    allOf [fieldW 14 0 (s.th.rg 7) = 8065, (s.saveTarget 8065).isNone, (two.thread 8065).status.savable, 8065 ≠ two.cur.tid,
      (two.thread 8065).stores.isEmpty, (two.thread 8065).place 8065 = 8065, (shipped.thread 8129).status.savable,
      (shipped.thread 8129).place 8129 = 8064 + 1, (shipped.thread 8129).pend.isEmpty,
      (capCheck (s.th.rc 1) rW 64 4096 64).isNone, okM (reachAll (creg 1) (s.th.rc 1) rW 64 2 4096 two),
      okM (storeRange (creg 1) (two.th.rc 1) 64 2 (List.replicate 4096 1) two)] = true := by decide +kernel

/-- The bytes that a load gave. -/
def loaded : EStateM.Result Stop State (List Byte) → List Byte
  | .ok b _ => b
  | .error _ _ => []

/-- The load of a context's record through c1. -/
def loadRecord (s : State) : EStateM.Result Stop State (List Byte) := loadRange (creg 1) (s.th.rc 1) 64 2 4096 s

/-- A record of context 1 that CTXSV wrote, with the bytes that stand at c1. -/
def savedOne : Saved := ⟨.ctxsv, 8065, loadTeam.key, 0, loaded (loadRecord withData), loadThread, [], false, false⟩

/-- The state with that record. -/
def withSaved : State := gs [(7, 8065), (8, 8)] { withData with saved := [savedOne] }

theorem test_meets_context_load :
    okM (loadRecord withSaved) = true ∧ loaded (loadRecord withSaved) = savedOne.image ∧
    ([savedOne].find? fun v => v.how = .ctxsv && v.image = savedOne.image) = some savedOne ∧ withData.saved = [] ∧
    allOf [(capCheck (withSaved.th.rc 1) rR 64 4096 64).isNone, withSaved.freeContext 1008 = some 8065, loadTeam.core = 1008,
      ((List.range 8).foldl (fun s k => s.setThread (8064 + k) loadThread) base).freeContext 1008 = none,
      withSaved.freeContext 1 = some 8, smFind withSaved.teams loadTeam.key = some loadTeam, !savedOne.fault,
      withSaved.th.status = .running] = true :=
  ⟨by decide +kernel, rfl, by simp [savedOne], rfl, by decide +kernel⟩

/-! ## Hypotheses that can be met: tasks, macros, waits -/

/-- A message task. -/
def task1 : Task := ⟨bootLaunch, 0, 2, 2, [1, 2, 3, 4, 5, 6, 7, 8], 9, 0, none, none, none, 0⟩

theorem test_meets_TasksStart :
    let s := { ported [] with queues := [(1008, [⟨2, .task task1⟩, ⟨3, .task task1⟩])] }
    let tm := { portTeam [elem true, elem false] with lh := [(8, 2)] }
    let lit := { ported [] with teams := [(tm.key, tm)] }
    allOf [(s.thread (tidOf 1008 1)).status = .free, s.saved.isEmpty, (nextPlace (s.queue 1008)).isSome, task1.record.isNone,
      s.team? task1.launch task1.team = some (portTeam []), s.launch? task1.launch = some (bootPlaced portSpec),
      (portSpec.table[task1.actor]?).isSome, task1.words.length = 8, (s.queue 1008)[0]? = some ⟨2, .task task1⟩] = true ∧
    allOf [smFind lit.teams tm.key = some tm, smFind tm.lh 8 = some 2, tm.elems 8 = [elem true, elem false], (elem true).ctl,
      !(elem false).ctl, lit.room tm.core] = true := by decide +kernel

/-- TASK_START of the task of higher priority: g1, the handler's address and the emit priority (R153, R156). -/
theorem test_task_start :
    gives (exec (.taskStart 1008 1) { ported [] with queues := [(1008, [⟨2, .task task1⟩, ⟨3, .task { task1 with words := [5] }⟩])] })
      (fun t => (t.thread 8065).rg 1 = 5 && (t.thread 8065).pc = 0x300 && (t.thread 8065).eprio = 3 && (t.queue 1008).length = 1) =
      true := by decide +kernel

/-- The small state with a macro 3 of one NOP, run by context 0. -/
def inMacro : State :=
  let s := { base with book := [(63 * 4096 + 3 * 32, 0x0200)] }
  thr (fun t => { t with run := some ⟨3, 0, 1, 2, 3, 0, 1⟩ }) s

theorem test_meets_MacrosAndWakes :
    let s := inMacro
    let r : MacroRun := ⟨3, 0, 1, 2, 3, 0, 1⟩
    let resumed := thr (fun t => { t with noBreak := true, mcx := BitVec.ofNat 64 (2 ^ 12) }) s
    let at_ := { s with cur := { s.cur with micro := true } }
    let runs := fun (why : ParkWhy) =>
      let s := parkedAs why base 8064
      match (s.thread 8064).status with
      | .parked p =>
        gives (issue p.bundle.instr
          ({ s with cur := { p.bundle with carried := p.woken, since := some p.order } }.setThread 8064
            { s.thread 8064 with status := .running })) fun _ => true
      | _ => false
    allOf [s.bookEntry 63 3 0 ≠ 0, s.bookEntry 63 3 1 = 0, resumed.th.noBreak, resumed.th.mcx.getLsbD 12, !s.th.noBreak,
      s.th.status = .running, s.th.run = some r, microDecode (s.bookEntry 63 3 0) r = some (.nop, 0, 0x0200), at_.legal .nop = none,
      !at_.mbpHit 1008 at_.th r, !at_.th.tctl.getLsbD 0,
      gives (issue .nop (at_.setTh (at_.th.settle (readsOf .nop)))) fun _ => true] = true ∧
    allOf [runs (.mwait 2), runs (.fire 1008 0), runs (.ldver 0 0 false), runs (.cntw 0 0 false),
      (parkedAs (.mwait 2) base 8064).canWake 8064 ⟨.mwait 2, 0, base.cur, none⟩,
      taskCount ({ base with queues := [(1008, [⟨0, .task task1⟩])] }.queue 1008) = 1] = true := by decide +kernel

/-- A micro-operation executes, and the macro's empty second entry ends it after the MCALL bundle (R118). -/
theorem test_macro :
    gives (exec (.macroMicroOperation 1008 0) inMacro) (fun t => t.th.run = none && t.th.pc = 2) = true := by decide +kernel

theorem test_meets_WaitsEnd :
    let user := thr (fun t => { t with tctl := 0 }) base
    let waits := { base with queues := [(1008, [⟨0, .task task1⟩])] }
    let f : Firing := ⟨0, bootLaunch, 0, 0, 0, 0, none, none, none⟩
    let late := thr (fun t => { t with pend := [⟨.g 3 5, none⟩], traps := [⟨0, [1, 2]⟩] }) base
    let st : Park := ⟨.stver 2097216, 0, { base.cur with instr := .stver 1 ⟨1, .imm 0⟩ }, none⟩
    let stver := thr (fun t => { t with status := .parked st }) base
    let fa : Park := ⟨.falign 0, 0, base.cur, none⟩
    let aligned := thr (fun t => { t with status := .parked fa }) base
    allOf [base.th.tctl.getLsbD 2, !user.th.tctl.getLsbD 2, taskCount (waits.queue 1008) = 1, taskCount (base.queue 1008) = 0,
      !base.th.handler, (inHandler base).th.handler, late.th.pend = [⟨.g 3 5, none⟩], !(RegWrite.g 3 5).dead,
      late.th.firing = some f, late.launch? f.launch = some (bootPlaced loadSpec), loadSpec.trap ≠ 0xFFFFFFFF,
      !late.th.tcause.getLsbD 63, late.th.traps = [⟨0, [1, 2]⟩], late.th.status = .running] = true ∧
    allOf [stver.th.status = .parked st, st.bundle.core = 1008, st.bundle.ctx = 0, aligned.th.status = .parked fa,
      !(({ stver with vers := [(2097216, ⟨5, false, 1⟩)] }).verAt 2097216).rcl, isForeign foreignBase, fa.why = .falign aligned.th.pc, !fa.bundle.micro, aligned.th.run.isNone,
      ({ base with ended := [f] }).ended = [f], f.kind = 0, f.record.isNone, (base.threads.all fun x => x.2.stores.isEmpty)] = true := by
  decide +kernel

/-- Eight parked contexts, the one of context 0 for longest, with a task queued and a save area of 16 records. -/
def crowded : State :=
  let area : SaveArea := ⟨16777216, 1, 16, []⟩
  let s := { base with queues := [(1008, [⟨0, .task task1⟩])], teams := [(loadTeam.key, { loadTeam with area := area })] }
  (List.range 8).foldl
    (fun s k => s.setThread (8064 + k) { loadThread with status := .parked ⟨.bwait, k, { s.cur with ctx := k }, none⟩ }) s

theorem test_meets_park_out :
    allOf [(List.range 8).all fun k => (crowded.thread (tidOf 1008 k)).status = .parked ⟨.bwait, k, { base.cur with ctx := k }, none⟩ &&
        (crowded.thread (tidOf 1008 k)).firing.isSome, !(crowded.queue 1008).isEmpty,
      (crowded.teamOf crowded.th).map (fun tm => (tm.area.free, decide (tm.area.used.length + 9 ≤ tm.area.records))) = some (some 0, true)] = true := by
  decide +kernel

/-! ## Hypotheses that can be met: shipping, migration, placement, the host port -/

theorem test_meets_ThreadsTravel :
    let f : Firing := ⟨0, bootLaunch, 0, 0, 0, 0, none, none, some 8064⟩
    let s := { base.setThread 8064 { loadThread with status := .travelQueued } with shipq := [(0, [8064])] }
    let r := parkedAs (.ship 0 0) base 8064
    let h := base.setThread 8128 { loadThread with firing := some f, bundles := 257 }
    let again := base.setThread 8128 { (r.thread 8064) with firing := some f }
    allOf [256 < (h.thread 8128).bundles, returnsFor (.enq false 3 9), (tidOf 1016 0) = ({ h with cur := Cur.at_ 1016 0 }).cur.tid, (again.thread 8128).stores.isEmpty, (again.thread 8128).pend.isEmpty,
      (again.thread 8128).firing = some f, s.shipQueue 0 = [8064], s.portContext 0 = some 8128, (s.thread 8064).status = .travelQueued,
      (match (r.thread 8064).status with
        | .parked p => p.why = .ship 0 0
        | _ => false),
      (r.shipQueue 0).length < 64, ((r.thread 8064).firing.bind (·.home)).isNone, tidOf 1016 0 = 8128, (h.thread 8128).status = .running, (h.thread 8128).firing = some f,
      f.home = some 8064, (h.thread 8128).stores.isEmpty, (h.thread 8128).pend.isEmpty] = true := by decide +kernel

/-- A translation of page 0 of object 1 at its new home: slice 1, frame 40. -/
def newHome : TlbEntry := { page0 with home := 1, frame := 40 }

/-- A move, a window, a redirect entry and a notice of page 0 of object 1, in frame 32 of slice 0. -/
theorem test_meets_PagesMigrate :
    let p : PageMeta := ⟨1, 0, 0, 1, 3, 0, some 0, rW, some 1⟩
    let x : Redirect := ⟨32, 1, 0, newHome, 0⟩
    let r : StoreReq := ⟨2097216, [1], false, 0, 1, 0, false, rW⟩
    let s :=
      { State.reset.setDie 0 { Die.reset with pools := [(1, [40, 41])] } with
        pages := [(32, p)], redirects := [x], mem := [(2097152, 7)], threads := [], notices := [⟨1008, newHome⟩],
        tlb := [(1008, [page0])] }
    let q := { s with threads := [(8064, { Thread.init with stores := [r] })] }
    allOf [(s.pages.find? fun q => frameSlice q.1 = 0 && q.2.moving.isSome) = some (32, p), s.pool 1 = [40, 41],
      (s.redirectsOf 0).length < 256, memWf s.mem, (List.range 16).all fun o => frameOf (s.leafAddr 1 0 + o) ≠ 65536 + 40,
      (s.page 32).window = some 0, s.redirects = [x], frameSlice x.old = 0, r.addr / 65536 = x.old, newHome.home * 65536 + newHome.frame ≠ x.old,
      (q.thread 8064).stores = [r], s.notices[0]? = some ⟨1008, newHome⟩, s.redirectsOf 0 = [x]] = true ∧
    (∀ j, (s.thread j).stores = []) ∧ ∀ j, j ≠ 8064 → (q.thread j).stores = [] := by
  refine ⟨by decide +kernel, fun _ => rfl, fun j h => ?_⟩
  simp [State.thread, smGet, smFind, h, Thread.init]

/-- A user launch of two arcades, one of them placed on cluster 0. -/
def userLaunch (placed : List Placed) : Launch :=
  { bootPlaced loadSpec with
    id := 7, spec := { loadSpec with supv := false, widths := [1, 0, 0, 0, 0, 0], arcLv := 1, teamLv := 1 }, next := placed.length,
    placed := placed }

theorem test_meets_PlacementAndHost :
    let p : Placed := ⟨0, 0, [0], 0, [], 0⟩
    let s := { base with launches := [(7, userLaunch []), (bootLaunch, bootPlaced loadSpec)] }
    let t :=
      { base.setDie 0 { Die.reset with savpool := BitVec.ofNat 64 (8 * 2 ^ 32 + 512) } with
        launches := [(7, userLaunch [p]), (bootLaunch, bootPlaced loadSpec)] }
    let v : VecClock := ⟨100, 10, true⟩
    let h := { base with host := { base.host with vecs := [(3, v)] } }
    allOf [s.placeOrder 0 = [userLaunch []], (s.fitting 0 (userLaunch [])).isSome, (userLaunch []).swept.isEmpty,
      t.arcadesAt 0 = [(userLaunch [p], p)], p.memberOf 0 = some 0, t.freeSlot 0 = some 0,
      (userLaunch [p]).spec.tiles ≤ (t.freeTiles 0).length, t.sameSpill 0 (userLaunch [p]).spec, t.sweptFor (userLaunch [p]) p 0 = none,
      p.nextTeam (userLaunch [p]).spec 0 = some 0, ((t.die 0).giveArea (userLaunch [p]).spec).isSome] = true ∧
    allOf [base.boot = .running, base.host.held.isEmpty, base.room 1008, base.supvId = some bootLaunch,
      base.launch? bootLaunch = some (bootPlaced loadSpec), base.team? bootLaunch 0 = some loadTeam, loadTeam.core = 1008,
      smFind h.host.vecs 3 = some v, v.held] = true := by decide +kernel

/-- A line of the message window fires the host actor with its words (R342, R349). -/
theorem test_host_message :
    gives (exec (.hostMessageWrite (2 ^ 40) (leBytes 64 5)) base) (fun t =>
      match t.queue 1008 with
      | [⟨_, .task k⟩] => k.words.take 2 = [5, 0] && k.kind = 2
      | _ => false) = true := by decide +kernel

/-! ## Hypotheses that can be met: the fabric -/

/-- A request packet of 64 bytes for DRAM slice 3 of this module. -/
def pkt1 : Pkt := ⟨0, false, 17, 32771, 0, List.replicate 64 0⟩

/-- The small state with one packet in a part of the fabric. -/
def fabricOf (f : Fabric) : State := { base with fabric := f }

theorem test_meets_PacketsMove :
    let p : PortPkt := ⟨3, 5, true, pkt1.flits, pkt1⟩
    let q : TorusPkt := ⟨2, true, none, { pkt1 with mod := 16 }⟩
    let ring := fun (entering : Bool) (stop : Nat) => RingPkt.mk 0 stop true entering 3 pkt1
    let s := fabricOf { Fabric.reset with ports := [p] }
    let resp := fabricOf { Fabric.reset with
      ports := [{ p with pkt := { pkt1 with resp := true } }], tokens := [(3, ⟨.respOnly, [], 0, 128, 0, []⟩)] }
    let t := fabricOf { Fabric.reset with torusQ := [q] }
    allOf [nextAtPort (portTurn (smGet false (s.token 3).served 5) (s.fabric.ports.filter fun x => x.chan = 3 && x.port = 5 && (x.left < x.pkt.flits || (s.token 3).state.admits x.pkt.resp))) = some p,
      nextAtPort (portTurn (smGet false (resp.token 3).served 5) (resp.fabric.ports.filter fun x => x.chan = 3 && x.port = 5 && (x.left < x.pkt.flits || (resp.token 3).state.admits x.pkt.resp))) =
        some { p with pkt := { pkt1 with resp := true } },
      5 ∉ (s.token 3).barred, (s.token 3).load < 12, p.slice ≠ smGet false (s.token 3).served 5,
      (s.token 3).state = .opened, 0 < p.left, (resp.token 3).state = .respOnly, (s.token 3).freeRq ≤ 128, (s.token 3).freeRs ≤ 128,
      (fabricOf { Fabric.reset with ring := [ring true 3] }).fabric.ring = [ring true 3], (ring false 17).dest ≠ 17,
      (ring false 3).dest = 3, t.fabric.torusQ = [q], (t.group (laneOf 2 17 32771)).subst = [], t.fabric.groups = [], LaneGroup.reset.subst = [],
      (t.group (laneOf 2 17 32771)).txq.length + pkt1.flits ≤ 1024] = true := by decide +kernel

/-- A flit with KIND, SEQ and a payload, and its CRC. -/
def flitOf (kind seq payload : Nat) : BitVec 288 :=
  let n := kind * 2 ^ 268 + seq * 2 ^ 256 + payload
  BitVec.ofNat 288 ((crc16 n 272 0xFFFF).toNat * 2 ^ 272 + n)

theorem test_meets_FlitsRetried :
    let f := fun (seq : Nat) => Flit.mk 1 seq 0 3 0 0
    let g := { LaneGroup.reset with unacked := 62, replay := [f 4095, f 0, f 1], expSeq := 9, nakSeq := 5 }
    let s := fabricOf { Fabric.reset with groups := [(287, g)] }
    let good := fun (kind seq : Nat) =>
      let x := (flitOf kind seq 2).toNat
      (crc16 (x % 2 ^ 272) 272 0xFFFF).toNat = x / 2 ^ 272 && x / 2 ^ 268 % 16 = kind && x / 2 ^ 256 % 4096 = seq
    let down := { g with lgctl := 0x03000333 }
    let live := fun (g : LaneGroup) => g.lgctl.toNat / 2 ^ 24 % 4 = 0 || g.lgctl.toNat / 2 ^ 24 % 4 = 1 && g.wake = some false
    allOf [live g, live { g with lgctl := 0x01000333, wake := some false }, !live { g with lgctl := 0x01000333, wake := some true },
      !live down, down.rxNaks < 16, (fabricOf { Fabric.reset with groups := [(287, down)] }).group 287 = down, s.group 287 = g, good 0 0, good 3 0, good 4 0, good 7 9, good 8 0, g.unacked < 63, 0 < g.unacked,
      (flitOf 3 0 0).toNat / 2 ^ 272 ≠ (crc16 ((flitOf 3 0 0 ^^^ 1).toNat % 2 ^ 272) 272 0xFFFF).toNat,
      g.replay = [f 4095] ++ f 0 :: [f 1], (f 4095).seq ≠ 0, g.nakSeq ≠ 8, g.replay.all fun y => y.seq ≠ (8 + 4095) % 4096] = true ∧
    (let h := { g with rxNaks := 15, naks := 15, nakSeq := 8, lgctl := 0x02000333 }
     let s := fabricOf { Fabric.reset with groups := [(287, h)] }
     allOf [s.group 287 = h, 15 ≤ h.rxNaks, h.nakSeq = 8, 15 ≤ h.naks, h.lgctl.toNat / 2 ^ 24 % 4 = 2, g.rxNaks < 15,
       g.lgctl.toNat / 2 ^ 24 % 4 = 0, g.sent.isEmpty, g.lgctl.toNat % 4 = 3, (f 4095).width = 3, g.replay.head? = some (f 4095)] =
         true) := by
  decide +kernel

/-- An ACK of SEQ 0 leaves what follows it in the replay buffer, across the wrap of SEQ (R221). -/
theorem test_ack :
    let f := fun (seq : Nat) => Flit.mk 1 seq 0 3 0 0
    let s := fabricOf { Fabric.reset with groups := [(5, { LaneGroup.reset with replay := [f 4095, f 0, f 1] })] }
    gives (exec (.ackReceive 5 0) s) (fun t => (t.group 5).replay.map (·.seq) = [1]) = true := by decide +kernel

/-- A q6 command: operation, register kind, indices and a value. -/
def q6cmd (op kind i j v : Nat) : Word := BitVec.ofNat 64 (op * 2 ^ 60 + kind * 2 ^ 52 + i * 2 ^ 40 + j * 2 ^ 32 + v)

theorem test_meets_FabricRegistersAndWakes :
    let lg := fun (w : BitVec 32) (g : LaneGroup) =>
      (fabricOf { Fabric.reset with groups := [(9, { g with lgctl := w })] }).group 9
    let auto := lg 0x80000322 { LaneGroup.reset with qthr := 0 }
    let q : Q6Cmd := ⟨8064, base.origin.firing, q6cmd 1 2 287 0 0⟩
    let s := fabricOf { Fabric.reset with q6 := [⟨8065, 9, 0⟩, q] }
    let behind := fabricOf { Fabric.reset with q6 := [⟨8065, q.firing, 0⟩, q] }
    let gone := fabricOf { Fabric.reset with q6 := [{ q with firing := 77 }] }
    let field := fun (w : Word) => [fieldW 63 60 w, fieldW 59 56 w, fieldW 55 52 w, fieldW 51 40 w, fieldW 39 32 w]
    let dark := fabricOf { Fabric.reset with groups := [(9, { LaneGroup.reset with lgctl := 0x311, rxWidth := 1 })] }
    allOf [!auto.parking, auto.lgctl.getLsbD 31, auto.lgctl.toNat / 2 ^ 24 % 4 = 0, auto.lgctl.toNat % 4 < auto.lgctl.toNat / 2 ^ 8 % 4,
      auto.qthr.toNat % 2 ^ 11 ≤ min 1024 auto.txq.length, (base.group 9).txq.isEmpty, !(base.group 9).lgctl.getLsbD 31, (lg 0x333 { LaneGroup.reset with wake := some true }).wake = some true,
      (lg 0x333 { LaneGroup.reset with rxNext := some 3 }).rxNext = some 3,
      (lg 0x333 { LaneGroup.reset with move := some (3, 3, 3, 24) }).move = some (3, 3, 3, 24), !(fieldW 63 60 (q6cmd 2 0 0 0 0) < 2),
      s.fabric.q6 = [⟨8065, 9, 0⟩] ++ q :: [], q.firing ≠ 9, tidOf 1008 0 = q.tid, s.firingCtx q.firing = some q.tid,
      behind.fabric.q6 = [⟨8065, q.firing, 0⟩] ++ q :: [], (gone.firingCtx 77).isNone, gone.saved.isEmpty, field (q6cmd 1 2 287 0 7) = [1, 0, 2, 287, 0],
      field (q6cmd 1 4 191 25 7) = [1, 0, 4, 191, 25], fieldW 31 0 (q6cmd 1 1 287 0 0x330) = 0x330] = true ∧
    allOf [base.litRing 0 0, !dark.litRing 3 2, !base.litRing 191 25, base.litLane 100 0, !dark.litLane 99 2, !dark.litLane 3 2,
      dark.litLane 3 1, (base.group 9).replay.length < 1024, 0x310 / 2 ^ 4 % 4 < (base.group 9).lgctl.toNat % 4,
      (dark.group 9).lgctl.toNat / 2 ^ 24 % 4 = 0, (List.range 24).all fun u => base.ringOf 100 u ≠ 25, base.ringOf 100 1 = 1,
      (base.group 9).ready = none, 
      !base.fabric.trained, (fabricOf { Fabric.reset with trained := true }).fabric.trained, (base.group 287).lgctl = 0x333,
      0x330 / 2 ^ 4 % 4 = (base.group 287).lgctl.toNat % 4] = true := by decide +kernel

/-- A firing saved while its q6 command waits is answered in its record (R231). -/
theorem test_meets_saved_q6 :
    let f : Firing := ⟨9, bootLaunch, 0, 0, 0, 0, none, none, none⟩
    let v := { savedOne with tid := 8064, image := [], thread := { loadThread with firing := some f } }
    let s := { fabricOf { Fabric.reset with q6 := [⟨8064, 9, q6cmd 0 2 3 0 0⟩] } with saved := [v] }
    allOf [(s.firingCtx 9).isNone, gives (exec (.fabricRegisterRead 1008 0) s) (fun t =>
      t.fabric.q6.isEmpty && (t.saved.map (·.thread.held)) = [[⟨6, [q6cmd 0 2 3 0 64]⟩]])] = true := by decide +kernel

/-- A READY that meets a full replay buffer waits there (R226). -/
theorem test_meets_ready_waits (f : Flit) :
    let g := { LaneGroup.reset with wake := some false, replay := List.replicate 1024 f }
    g.replay.length = 1024 ∧ g.wake = some false ∧ (fabricOf { Fabric.reset with groups := [(9, g)] }).group 9 = g :=
  ⟨List.length_replicate, rfl, rfl⟩

/-- A read of QTHR through q6 answers STATUS 0, the command's bits and the value (R231). -/
theorem test_q6_read :
    gives (exec (.fabricRegisterRead 1008 0) (fabricOf { Fabric.reset with q6 := [⟨8064, base.origin.firing, q6cmd 0 2 3 0 0⟩] }))
      (fun t => t.th.held = [⟨6, [q6cmd 0 2 3 0 64]⟩] && t.fabric.q6.isEmpty) = true := by decide +kernel

/-- The digest of the three bytes of abc (R366; the standard's own example). -/
theorem test_sm3 :
    sm3 [0x61, 0x62, 0x63] =
      beBytes 32 0x66c7f0f462eeedd9d1f2d46bdc10e4e24167c4875cf2f7a2297da02b8f4ba8e0 := by decide +kernel

/-- A positive magnitude and the four formats. -/
theorem test_meets_RoundingNeighbours : (fp32 ∈ [fp32, fp16, bf16, e5m2]) ∧ 0 < 1 ∧ 0 < 3 := by decide +kernel
end Sys2Proof.Tests
end

section
/-!
SUPPORT. How a bundle that cannot stop completes: the vocabulary `Only`, `Goes`, `Rest`, `Joined` of the statements, once for
`retire` and once for `rounding`, then one lemma for each scalar floating-point instruction (R110).
-/

namespace Sys2Proof.Machine

open Sys2Proof.Spec

/-! ## What a completed bundle changes -/

/-- Replacing the executing thread changes nothing else. -/
theorem only_setTh (s : State) (x : Thread) : Only s (s.setTh x) :=
  ⟨rfl, fun k hk => thread_setTh_other s k x hk⟩

/-- A bundle that does not transfer control goes on as R42 and R120 say. -/
theorem goes_step (c : Cur) (t : Thread) : Goes c t (t.step c) := by
  refine ⟨step_nt t c, step_bundles t c, step_noBreak t c, step_atHome t c, fun hm => ?_, fun hm => ?_⟩
  · simp [Thread.step, hm, Thread.nextMicro, Thread.tick]
  · simp only [Thread.step, hm, Bool.false_eq_true, if_false]
    exact ⟨rfl, rfl, rfl⟩

/-- A bundle that does not transfer control leaves the rest of the thread. -/
theorem rest_step (c : Cur) (t : Thread) : Rest t (t.step c) := by
  unfold Rest Thread.step
  dsimp only
  split <;> rfl

/-- One result joins the results on their way. -/
theorem post_eq_joined (t : Thread) (w : RegWrite) (due : Option Nat) :
    t.post w due = { t with pend := Spec.Joined t.pend due [w] } := by
  cases h : w.dead <;> simp [Thread.post, Spec.Joined, h]

/-- Results join one after the other. -/
theorem joined_cons (old : List Pend) (due : Option Nat) (w : RegWrite) (ws : List RegWrite) :
    Spec.Joined old due (w :: ws) = Spec.Joined (Spec.Joined old due [w]) due ws := by
  cases h : w.dead <;> simp [Spec.Joined, h]

/-- Producing results in turn adds them to those on their way and changes nothing else. -/
theorem foldl_post (due : Option Nat) (ws : List RegWrite) (t : Thread) :
    ws.foldl (fun t w => t.post w due) t = { t with pend := Spec.Joined t.pend due ws } := by
  induction ws generalizing t with
  | nil => simp [Spec.Joined]
  | cons w ws ih => rw [List.foldl_cons, ih, post_eq_joined, joined_cons t.pend due w ws]

/-- The state after a bundle that cannot stop, with its results among those on their way. -/
theorem retire_eq_setTh (s : State) (lat : Option Nat) (ws : List RegWrite) :
    s.retire lat ws =
      s.setTh (({ s.th with pend := Spec.Joined s.th.pend (lat.map (s.th.nt + ·)) ws } : Thread).step s.cur) := by
  rw [State.retire, foldl_post]

/-- An instruction whose meaning is `produce` completes with the results that it computes. -/
theorem gives_of_produce {i : Instr} {s : State} {lat : Option Nat} {f : Thread → List RegWrite}
    {ws : List RegWrite} (h : exec i s = produce lat f s) (hw : f s.th = ws) : Gives i s lat ws := by
  subst hw
  refine ⟨_, h.trans (produce_next lat f s), ?_⟩
  rw [retire_eq_setTh, th_setTh]
  exact ⟨only_setTh _ _, goes_step _ _, rest_step _ _, step_pend _ _⟩

/-- An instruction whose meaning is `rounding` completes as a rounding operation (R31). -/
theorem rounds_of_rounding {i : Instr} {s : State} {lat : Option Nat} {r : Rnd} {d : GReg}
    {f : Thread → BitVec 32 → Word} {v : Word} (h : exec i s = rounding lat r d f s)
    (hv : f s.th (lfsrFor r s.th.lfsr) = v) : Rounds i s lat r d v := by
  subst hv
  refine ⟨_, h, ?_⟩
  rw [retire_eq_setTh, setTh_setTh, setTh_cur, th_setTh, th_setTh]
  exact ⟨only_setTh _ _, goes_step _ _, rest_step _ _, step_pend _ _⟩

/-! ## The scalar floating-point instructions (R110) -/

theorem rounds_fadd (s : State) (r : Rnd) (e : Elem) (d x y : GReg) :
    Rounds (.fadd r e d x y) s (some 4) r d (BitVec.ofNat 64 (fAdd (elemFmt e) r (lfsrFor r s.th.lfsr)
      (codeOf (elemFmt e) (s.th.rg x)) (codeOf (elemFmt e) (s.th.rg y)))) :=
  rounds_of_rounding (show exec _ s = execFadd r e d x y s from rfl) rfl

theorem rounds_fsub (s : State) (r : Rnd) (e : Elem) (d x y : GReg) :
    Rounds (.fsub r e d x y) s (some 4) r d (BitVec.ofNat 64 (fSub (elemFmt e) r (lfsrFor r s.th.lfsr)
      (codeOf (elemFmt e) (s.th.rg x)) (codeOf (elemFmt e) (s.th.rg y)))) :=
  rounds_of_rounding (show exec _ s = execFsub r e d x y s from rfl) rfl

theorem rounds_fmul (s : State) (r : Rnd) (e : Elem) (d x y : GReg) :
    Rounds (.fmul r e d x y) s (some 4) r d (BitVec.ofNat 64 (fMul (elemFmt e) r (lfsrFor r s.th.lfsr)
      (codeOf (elemFmt e) (s.th.rg x)) (codeOf (elemFmt e) (s.th.rg y)))) :=
  rounds_of_rounding (show exec _ s = execFmul r e d x y s from rfl) rfl

theorem rounds_ffma (s : State) (r : Rnd) (e : Elem) (d x y : GReg) :
    Rounds (.ffma r e d x y) s (some 4) r d (BitVec.ofNat 64 (fFma (elemFmt e) r (lfsrFor r s.th.lfsr)
      (codeOf (elemFmt e) (s.th.rg x)) (codeOf (elemFmt e) (s.th.rg y)) (codeOf (elemFmt e) (s.th.rg d)))) :=
  rounds_of_rounding (show exec _ s = execFfma r e d x y s from rfl) rfl

theorem rounds_fdiv (s : State) (r : Rnd) (e : Elem) (d x y : GReg) :
    Rounds (.fdiv r e d x y) s none r d (BitVec.ofNat 64 (fDiv (elemFmt e) r (lfsrFor r s.th.lfsr)
      (codeOf (elemFmt e) (s.th.rg x)) (codeOf (elemFmt e) (s.th.rg y)))) :=
  rounds_of_rounding (show exec _ s = execFdiv r e d x y s from rfl) rfl

theorem rounds_fsqrt (s : State) (r : Rnd) (e : Elem) (d x : GReg) :
    Rounds (.fsqrt r e d x) s none r d (BitVec.ofNat 64 (fSqrt (elemFmt e) r (lfsrFor r s.th.lfsr)
      (codeOf (elemFmt e) (s.th.rg x)))) :=
  rounds_of_rounding (show exec _ s = execFsqrt r e d x s from rfl) rfl

theorem gives_fmin (s : State) (e : Elem) (d x y : GReg) :
    Gives (.fmin e d x y) s (some 4) [.g d (BitVec.ofNat 64 (fMinMax (elemFmt e) false
      (codeOf (elemFmt e) (s.th.rg x)) (codeOf (elemFmt e) (s.th.rg y))))] :=
  gives_of_produce (show exec _ s = execFmin e d x y s from rfl) rfl

theorem gives_fmax (s : State) (e : Elem) (d x y : GReg) :
    Gives (.fmax e d x y) s (some 4) [.g d (BitVec.ofNat 64 (fMinMax (elemFmt e) true
      (codeOf (elemFmt e) (s.th.rg x)) (codeOf (elemFmt e) (s.th.rg y))))] :=
  gives_of_produce (show exec _ s = execFmax e d x y s from rfl) rfl

end Sys2Proof.Machine
end

section
/-!
PROOFS. NaN operands (R15): the first NaN operand in operand order is returned, made quiet.
-/

namespace Sys2Proof.Machine

open Sys2Proof.Spec

/-! ## The first NaN of a list of operands -/

section FirstNaN

variable {f : FFmt} {r : Rnd} {l : BitVec 32} {a b c q : Nat} {t : List Nat}

theorem firstNaN_cons_of_nan (h : (f.decode c).isNaN = true) : firstNaN f (c :: t) = some (f.quiet c) := by
  simp [firstNaN, h]

theorem firstNaN_cons_of_not_nan (h : ¬(f.decode c).isNaN = true) : firstNaN f (c :: t) = firstNaN f t := by
  simp [firstNaN, h]

theorem fAdd_of_firstNaN (h : firstNaN f [a, b] = some q) : fAdd f r l a b = q := by simp [fAdd, h]
theorem fSub_of_firstNaN (h : firstNaN f [a, b] = some q) : fSub f r l a b = q := by simp [fSub, h]
theorem fMul_of_firstNaN (h : firstNaN f [a, b] = some q) : fMul f r l a b = q := by simp [fMul, h]
theorem fFma_of_firstNaN (h : firstNaN f [a, b, c] = some q) : fFma f r l a b c = q := by simp [fFma, h]
theorem fDiv_of_firstNaN (h : firstNaN f [a, b] = some q) : fDiv f r l a b = q := by simp [fDiv, h]
theorem fSqrt_of_firstNaN (h : firstNaN f [a] = some q) : fSqrt f r l a = q := by simp [fSqrt, h]
theorem fMinMax_of_firstNaN {m : Bool} (h : firstNaN f [a, b] = some q) : fMinMax f m a b = q := by simp [fMinMax, h]

end FirstNaN

/-! ## The scalar formats (R14) -/

/-- A scalar format has the fields that R14 gives it. -/
theorem scalarFormats_fields {p : Elem × Nat × Nat} (hp : p ∈ scalarFormats) :
    (elemFmt p.1).width = 1 + p.2.1 + p.2.2 ∧ (elemFmt p.1).frac = p.2.2 := by
  revert p
  decide

/-- The decoder takes for a NaN what lies above the infinities of the format, where it has infinities. -/
theorem isNaN_decode (f : FFmt) (c : Nat) :
    (f.decode c).isNaN = true ↔ f.top < c % f.sign ∧ ¬(f.kind = .ieee ∧ c % f.sign = f.top + 1) := by
  by_cases hfin : c % f.sign ≤ f.top
  · simp [FFmt.decode, hfin, FVal.isNaN]
  · by_cases hinf : f.kind = .ieee ∧ c % f.sign = f.top + 1
    · simp [FFmt.decode, hinf, FVal.isNaN]
    · simp only [FFmt.decode, hfin, hinf, if_false, FVal.isNaN, not_false_eq_true, and_true, true_iff]
      exact Nat.lt_of_not_le hfin

/-- The decoder takes a code for a NaN where R14 does. -/
theorem isNaN_decode_iff {p : Elem × Nat × Nat} (hp : p ∈ scalarFormats) (c : Nat) :
    ((elemFmt p.1).decode c).isNaN = true ↔ nanCode p.2.1 p.2.2 c := by
  simp only [scalarFormats, List.mem_cons, List.not_mem_nil, or_false] at hp
  obtain rfl | rfl | rfl := hp
  all_goals
    simp only [isNaN_decode, elemFmt, fp32, fp16, bf16, FFmt.sign, nanCode, true_and]
    omega

/-! ## The statement -/

/-- Settles O15: each operation asks `firstNaN` of its operands in order before it computes. -/
theorem firstNaNOperandReturned : Obligations.FirstNaNOperandReturned := by
  intro s r d x y p hp
  obtain ⟨hw, hf⟩ := scalarFormats_fields hp
  have hnan := isNaN_decode_iff hp
  have hquiet (c : Nat) : (elemFmt p.1).quiet c = c ||| 2 ^ (p.2.2 - 1) := by rw [FFmt.quiet, hf]
  simp only [← hnan, ← hquiet, ← hw]
  refine ⟨fun ha => ?_, fun ha hb => ?_, fun ha hb ho => ?_⟩
  · have h1 := firstNaN_cons_of_nan (t := []) ha
    have h2 := fun b => firstNaN_cons_of_nan (t := [b]) ha
    have h3 := fun b c => firstNaN_cons_of_nan (t := [b, c]) ha
    exact ⟨fAdd_of_firstNaN (h2 _) ▸ rounds_fadd s r p.1 d x y, fSub_of_firstNaN (h2 _) ▸ rounds_fsub s r p.1 d x y,
      fMul_of_firstNaN (h2 _) ▸ rounds_fmul s r p.1 d x y, fFma_of_firstNaN (h3 _ _) ▸ rounds_ffma s r p.1 d x y,
      fDiv_of_firstNaN (h2 _) ▸ rounds_fdiv s r p.1 d x y, fSqrt_of_firstNaN h1 ▸ rounds_fsqrt s r p.1 d x,
      fMinMax_of_firstNaN (h2 _) ▸ gives_fmin s p.1 d x y, fMinMax_of_firstNaN (h2 _) ▸ gives_fmax s p.1 d x y⟩
  · have h2 := (firstNaN_cons_of_not_nan ha).trans (firstNaN_cons_of_nan (t := []) hb)
    have h3 := fun c => (firstNaN_cons_of_not_nan ha).trans (firstNaN_cons_of_nan (t := [c]) hb)
    exact ⟨fAdd_of_firstNaN h2 ▸ rounds_fadd s r p.1 d x y, fSub_of_firstNaN h2 ▸ rounds_fsub s r p.1 d x y,
      fMul_of_firstNaN h2 ▸ rounds_fmul s r p.1 d x y, fFma_of_firstNaN (h3 _) ▸ rounds_ffma s r p.1 d x y,
      fDiv_of_firstNaN h2 ▸ rounds_fdiv s r p.1 d x y, fMinMax_of_firstNaN h2 ▸ gives_fmin s p.1 d x y,
      fMinMax_of_firstNaN h2 ▸ gives_fmax s p.1 d x y⟩
  · have h3 := (firstNaN_cons_of_not_nan ha).trans ((firstNaN_cons_of_not_nan hb).trans (firstNaN_cons_of_nan (t := []) ho))
    exact fFma_of_firstNaN h3 ▸ rounds_ffma s r p.1 d x y

end Sys2Proof.Machine
end

section
/-!
SUPPORT. Magnitudes as rational numbers (R14, R16): a format's values grow with their codes, and `magFloor` gives the neighbour at or
below a quotient with the rest as a fraction of the distance to the next value, in an exponent range with no upper end.
-/

namespace Sys2Proof.Machine

open Sys2Proof.Spec

/-! ## The values of a format -/

/-- The value of a code in the binade of exponent `emin + k`, its ends included; subnormal codes lie in the binade of `emin`. -/
theorem magRat_binade (f : FFmt) (k m : Nat) (hlo : k = 0 ∨ 2 ^ f.frac ≤ m) (hhi : m ≤ 2 * 2 ^ f.frac) :
    magRat f (k * 2 ^ f.frac + m) = m * (2 : ℚ) ^ (f.emin - f.frac + k) := by
  have hq : 0 < 2 ^ f.frac := Nat.two_pow_pos _
  obtain hsub | hnorm := Nat.lt_or_ge m (2 ^ f.frac)
  · obtain rfl : k = 0 := by omega
    simp [magRat, FFmt.magValue, Nat.div_eq_of_lt hsub, Nat.mod_eq_of_lt hsub]
  · obtain htop | hend := Nat.lt_or_ge m (2 * 2 ^ f.frac)
    · obtain ⟨i, rfl⟩ := Nat.exists_eq_add_of_le hnorm
      have hi : i < 2 ^ f.frac := by omega
      have hcode : k * 2 ^ f.frac + (2 ^ f.frac + i) = i + 2 ^ f.frac * (k + 1) := by ring
      rw [hcode]
      simp [magRat, FFmt.magValue, Nat.add_mul_div_left _ _ hq, Nat.div_eq_of_lt hi, Nat.mod_eq_of_lt hi, add_comm]
    · obtain rfl : m = 2 * 2 ^ f.frac := by omega
      have hcode : k * 2 ^ f.frac + 2 * 2 ^ f.frac = 2 ^ f.frac * (k + 2) := by ring
      have hexp : (f.emin - f.frac + ((k : ℤ) + 2 - 1)) = (f.emin - f.frac + k) + 1 := by ring
      rw [hcode]
      simp [magRat, FFmt.magValue, Nat.mul_div_cancel_left _ hq, hexp, zpow_add_one₀]
      ring

/-- Every code lies in a binade, below its upper end. -/
theorem exists_binade (f : FFmt) (c : Nat) :
    ∃ k m, c = k * 2 ^ f.frac + m ∧ (k = 0 ∨ 2 ^ f.frac ≤ m) ∧ m < 2 * 2 ^ f.frac := by
  obtain hsub | hnorm := Nat.lt_or_ge c (2 ^ f.frac)
  · exact ⟨0, c, by omega, .inl rfl, by omega⟩
  · obtain ⟨i, rfl⟩ := Nat.exists_eq_add_of_le hnorm
    have hmod := Nat.mod_lt i (Nat.two_pow_pos f.frac)
    refine ⟨i / 2 ^ f.frac, 2 ^ f.frac + i % 2 ^ f.frac, ?_, .inr (by omega), by omega⟩
    have := Nat.div_add_mod' i (2 ^ f.frac)
    omega

/-- A greater code has a greater value. -/
theorem magRat_strictMono (f : FFmt) : StrictMono (magRat f) := by
  refine strictMono_nat_of_lt_succ fun c => ?_
  obtain ⟨k, m, rfl, hlo, hhi⟩ := exists_binade f c
  rw [add_assoc, magRat_binade f k m hlo (by omega), magRat_binade f k (m + 1) (by omega) (by omega)]
  have := zpow_pos (two_pos (α := ℚ)) (f.emin - f.frac + k)
  push_cast
  linarith

@[simp] theorem magRat_zero (f : FFmt) : magRat f 0 = 0 := by
  simp [magRat, FFmt.magValue]

/-! ## Quotients over a power of two -/

/-- The numerator and the denominator of n / d / 2^k, as `ilog2` and `magFloor` form them. -/
def scaledNum (n : Nat) (k : Int) : Nat := if k ≥ 0 then n else n * 2 ^ (-k).toNat
def scaledDen (d : Nat) (k : Int) : Nat := if k ≥ 0 then d * 2 ^ k.toNat else d

theorem scaledDen_pos {d : Nat} (hd : 0 < d) (k : Int) : 0 < scaledDen d k := by
  unfold scaledDen
  split
  · positivity
  · exact hd

theorem scaled_div (n d : Nat) (k : Int) :
    (scaledNum n k : ℚ) / scaledDen d k = (n : ℚ) / d / (2 : ℚ) ^ k := by
  obtain ⟨j, rfl | rfl⟩ := k.eq_nat_or_neg
  · simp [scaledNum, scaledDen, div_div]
  · obtain rfl | hj := Nat.eq_zero_or_pos j
    · simp [scaledNum, scaledDen]
    · simp [scaledNum, scaledDen, hj.ne']
      ring

/-- The scaled quotient is at least 1 where the quotient is at least the power of two. -/
theorem scaledDen_le_scaledNum_iff (n : Nat) {d : Nat} (hd : 0 < d) (k : Int) :
    scaledDen d k ≤ scaledNum n k ↔ (2 : ℚ) ^ k ≤ (n : ℚ) / d := by
  have hden : (0 : ℚ) < scaledDen d k := by exact_mod_cast scaledDen_pos hd k
  rw [← one_le_div (zpow_pos (two_pos (α := ℚ)) k), ← scaled_div, one_le_div hden, Nat.cast_le]

/-! ## The exponent of a quotient -/

/-- `ilog2` starts from the difference of the bit lengths and corrects it by one comparison. -/
theorem ilog2_eq (n d : Nat) :
    ilog2 n d =
      if scaledDen d ((n.log2 : ℤ) - d.log2) ≤ scaledNum n ((n.log2 : ℤ) - d.log2) then (n.log2 : ℤ) - d.log2
      else (n.log2 : ℤ) - d.log2 - 1 := by
  unfold ilog2 scaledNum scaledDen
  dsimp only
  split <;> rfl

/-- The difference of the bit lengths is the exponent of the quotient or one more. -/
theorem log2_sub_bounds {n d : Nat} (hn : 0 < n) (hd : 0 < d) :
    (2 : ℚ) ^ ((n.log2 : ℤ) - d.log2 - 1) ≤ (n : ℚ) / d ∧ (n : ℚ) / d < (2 : ℚ) ^ ((n.log2 : ℤ) - d.log2 + 1) := by
  have hd' : (0 : ℚ) < d := by exact_mod_cast hd
  have hnlo : (2 : ℚ) ^ n.log2 ≤ n := by exact_mod_cast Nat.log2_self_le hn.ne'
  have hnhi : (n : ℚ) < 2 ^ (n.log2 + 1) := by exact_mod_cast Nat.lt_log2_self
  have hdlo : (2 : ℚ) ^ d.log2 ≤ d := by exact_mod_cast Nat.log2_self_le hd.ne'
  have hdhi : (d : ℚ) ≤ 2 ^ (d.log2 + 1) := by exact_mod_cast Nat.lt_log2_self.le
  constructor
  · rw [le_div_iff₀ hd']
    calc (2 : ℚ) ^ ((n.log2 : ℤ) - d.log2 - 1) * d
        ≤ (2 : ℚ) ^ ((n.log2 : ℤ) - d.log2 - 1) * 2 ^ (d.log2 + 1) := by gcongr
      _ = 2 ^ n.log2 := by
          rw [← zpow_natCast, ← zpow_natCast, ← zpow_add₀ two_ne_zero]
          congr 1
          push_cast
          ring
      _ ≤ n := hnlo
  · rw [div_lt_iff₀ hd']
    calc (n : ℚ) < 2 ^ (n.log2 + 1) := hnhi
      _ = (2 : ℚ) ^ ((n.log2 : ℤ) - d.log2 + 1) * 2 ^ d.log2 := by
          rw [← zpow_natCast, ← zpow_natCast, ← zpow_add₀ two_ne_zero]
          congr 1
          push_cast
          ring
      _ ≤ (2 : ℚ) ^ ((n.log2 : ℤ) - d.log2 + 1) * d := by gcongr

/-- `ilog2` is the exponent of the greatest power of two at or below the quotient. -/
theorem ilog2_bounds {n d : Nat} (hn : 0 < n) (hd : 0 < d) :
    (2 : ℚ) ^ ilog2 n d ≤ (n : ℚ) / d ∧ (n : ℚ) / d < (2 : ℚ) ^ (ilog2 n d + 1) := by
  obtain ⟨hlo, hhi⟩ := log2_sub_bounds hn hd
  rw [ilog2_eq]
  split
  case isTrue h => exact ⟨(scaledDen_le_scaledNum_iff n hd _).mp h, hhi⟩
  case isFalse h =>
    rw [scaledDen_le_scaledNum_iff n hd, not_le] at h
    exact ⟨hlo, by rwa [sub_add_cancel]⟩

/-! ## The neighbour at or below -/

/-- c is the code of the greatest value of the format at or below x, and num/den the rest over the distance to the next value. -/
def IsFloor (f : FFmt) (x : ℚ) (c num den : Nat) : Prop :=
  num < den ∧ x = magRat f c + (num : ℚ) / den * (magRat f (c + 1) - magRat f c)

/-- `magFloor` divides by the unit in the last place at the greater of the quotient's exponent and `emin`. -/
theorem magFloor_eq (f : FFmt) {n d : Nat} (hn : 0 < n) :
    magFloor f n d =
      (let e := max (ilog2 n d) f.emin
       let num := scaledNum n (e - f.frac)
       let den := scaledDen d (e - f.frac)
       ((e - f.emin).toNat * 2 ^ f.frac + num / den, num % den, den)) := by
  simp only [magFloor, hn.ne', if_false, scaledNum, scaledDen]

/-- `magFloor` gives the neighbour at or below and the rest. -/
theorem magFloor_isFloor (f : FFmt) {n d : Nat} (hn : 0 < n) (hd : 0 < d) :
    IsFloor f ((n : ℚ) / d) (magFloor f n d).1 (magFloor f n d).2.1 (magFloor f n d).2.2 := by
  obtain ⟨hlo, hhi⟩ := ilog2_bounds hn hd
  rw [magFloor_eq f hn]
  dsimp only
  obtain ⟨k, hk⟩ : ∃ k : ℕ, max (ilog2 n d) f.emin = f.emin + k := ⟨(max (ilog2 n d) f.emin - f.emin).toNat, by omega⟩
  have hulp : f.emin + k - f.frac = f.emin - f.frac + k := by ring
  rw [hk, hulp, add_sub_cancel_left, Int.toNat_natCast]
  set u : ℤ := f.emin - f.frac + k with hu
  set num := scaledNum n u with hnum
  set den := scaledDen d u with hden
  have hden0 : 0 < den := scaledDen_pos hd u
  have hdenQ : (0 : ℚ) < den := by exact_mod_cast hden0
  have hpow : (0 : ℚ) < 2 ^ u := zpow_pos two_pos u
  have hquot : (num : ℚ) / den = (n : ℚ) / d / 2 ^ u := scaled_div n d u
  have hbinade : (2 : ℚ) ^ (f.emin + k) = 2 ^ f.frac * 2 ^ u := by
    rw [← zpow_natCast, ← zpow_add₀ two_ne_zero, hu]
    congr 1
    ring
  have hlt : num / den < 2 * 2 ^ f.frac := by
    have hx : (n : ℚ) / d < 2 * 2 ^ f.frac * 2 ^ u :=
      calc (n : ℚ) / d < 2 ^ (ilog2 n d + 1) := hhi
        _ ≤ 2 ^ (f.emin + k + 1) := zpow_le_zpow_right₀ one_le_two (by omega)
        _ = 2 * 2 ^ f.frac * 2 ^ u := by rw [zpow_add_one₀ two_ne_zero, hbinade]; ring
    rw [← div_lt_iff₀ hpow, ← hquot, div_lt_iff₀ hdenQ] at hx
    exact (Nat.div_lt_iff_lt_mul hden0).mpr (by exact_mod_cast hx)
  have hge : k = 0 ∨ 2 ^ f.frac ≤ num / den := by
    refine or_iff_not_imp_left.mpr fun hk0 => ?_
    have hx : 2 ^ f.frac * 2 ^ u ≤ (n : ℚ) / d := by
      rw [← hbinade, show f.emin + k = ilog2 n d by omega]
      exact hlo
    rw [← le_div_iff₀ hpow, ← hquot, le_div_iff₀ hdenQ] at hx
    exact (Nat.le_div_iff_mul_le hden0).mpr (by exact_mod_cast hx)
  refine ⟨Nat.mod_lt _ hden0, ?_⟩
  rw [add_assoc, magRat_binade f k _ hge hlt.le, magRat_binade f k _ (by omega) (by omega), ← hu]
  have hmod : (num : ℚ) = den * (num / den : ℕ) + (num % den : ℕ) := by exact_mod_cast (Nat.div_add_mod num den).symm
  have hx : (n : ℚ) / d = num / den * 2 ^ u := by rw [hquot, div_mul_cancel₀ _ hpow.ne']
  rw [hx, hmod]
  push_cast
  field_simp
  ring

section IsFloor

variable {f : FFmt} {x : ℚ} {c num den : Nat}

/-- x lies at or above its floor. -/
theorem IsFloor.le (h : IsFloor f x c num den) : magRat f c ≤ x := by
  have hgap := magRat_strictMono f c.lt_succ_self
  have hrest : (0 : ℚ) ≤ num / den * (magRat f (c + 1) - magRat f c) := mul_nonneg (by positivity) (by linarith)
  linarith [h.2]

/-- x lies below the value after its floor. -/
theorem IsFloor.lt (h : IsFloor f x c num den) : x < magRat f (c + 1) := by
  obtain ⟨hlt, hx⟩ := h
  have hgap := magRat_strictMono f c.lt_succ_self
  have hrest : (num : ℚ) / den < 1 := (div_lt_one (by exact_mod_cast Nat.zero_lt_of_lt hlt)).mpr (by exact_mod_cast hlt)
  have := mul_lt_of_lt_one_left (sub_pos.mpr hgap) hrest
  linarith

/-- x is its floor where nothing is discarded, and only there. -/
theorem IsFloor.eq_iff (h : IsFloor f x c num den) : x = magRat f c ↔ num = 0 := by
  obtain ⟨hlt, hx⟩ := h
  have hgap := (sub_pos.mpr (magRat_strictMono f c.lt_succ_self)).ne'
  have hden : (den : ℚ) ≠ 0 := by exact_mod_cast (Nat.zero_lt_of_lt hlt).ne'
  rw [hx]
  simp [hgap, hden]

/-- x lies on the side of the middle between the neighbours that twice the rest lies on of the distance. -/
theorem IsFloor.sub_middle (h : IsFloor f x c num den) :
    (2 * x - (magRat f c + magRat f (c + 1))) * den = (2 * (num : ℚ) - den) * (magRat f (c + 1) - magRat f c) := by
  obtain ⟨hlt, hx⟩ := h
  have hden : (den : ℚ) ≠ 0 := by exact_mod_cast (Nat.zero_lt_of_lt hlt).ne'
  rw [hx]
  field_simp
  ring

theorem IsFloor.below_middle (h : IsFloor f x c num den) (hnum : 2 * num < den) :
    2 * x < magRat f c + magRat f (c + 1) := by
  have hgap := sub_pos.mpr (magRat_strictMono f c.lt_succ_self)
  have hneg : (2 * (num : ℚ) - den) < 0 := sub_neg.mpr (by exact_mod_cast hnum)
  have hmul := h.sub_middle.trans_lt (mul_neg_of_neg_of_pos hneg hgap)
  exact sub_neg.mp (neg_of_mul_neg_left hmul den.cast_nonneg)

theorem IsFloor.above_middle (h : IsFloor f x c num den) (hnum : den < 2 * num) :
    magRat f c + magRat f (c + 1) < 2 * x := by
  have hgap := sub_pos.mpr (magRat_strictMono f c.lt_succ_self)
  have hpos : 0 < (2 * (num : ℚ) - den) := sub_pos.mpr (by exact_mod_cast hnum)
  have hmul := (mul_pos hpos hgap).trans_eq h.sub_middle.symm
  exact sub_pos.mp (pos_of_mul_pos_left hmul den.cast_nonneg)

theorem IsFloor.at_middle (h : IsFloor f x c num den) (hnum : 2 * num = den) :
    2 * x = magRat f c + magRat f (c + 1) := by
  have hden : (den : ℚ) ≠ 0 := by exact_mod_cast (Nat.zero_lt_of_lt h.1).ne'
  have hzero : (2 * (num : ℚ) - den) = 0 := sub_eq_zero.mpr (by exact_mod_cast hnum)
  have hmul := h.sub_middle
  rw [hzero, zero_mul] at hmul
  exact sub_eq_zero.mp ((mul_eq_zero.mp hmul).resolve_right hden)

end IsFloor

end Sys2Proof.Machine
end

section
/-!
PROOFS. Rounding a positive magnitude (R30) toward zero, up and to nearest even: the neighbour that the mode names in an exponent range
with no upper end, then the result above the greatest finite value (R15, R17).
-/

namespace Sys2Proof.Machine

open Sys2Proof.Spec

/-- The code that the mode names of the floor and the next code, for a positive magnitude. -/
def chosen (r : Rnd) (l : BitVec 32) (c num den : Nat) : Nat :=
  if roundsUp r l false (c % 2 = 1) num den then c + 1 else c

/-- `roundMag` of a positive magnitude: the chosen neighbour, or the overflow result. -/
theorem roundMag_positive (f : FFmt) (r : Rnd) (l : BitVec 32) (n d : Nat) :
    roundMag f r l false n d =
      (let c := chosen r l (magFloor f n d).1 (magFloor f n d).2.1 (magFloor f n d).2.2
       if c > f.top then overflowCode f r false else c) := by
  simp [roundMag, chosen]

section Neighbours

variable {f : FFmt} {x : ℚ} {c num den : Nat} {l : BitVec 32}

/-! ## Toward zero -/

@[simp] theorem chosen_rz : chosen .rz l c num den = c := by simp [chosen, roundsUp]

/-- Toward zero, a magnitude above the range gives the greatest finite value (R15). -/
theorem roundMag_rz (hk : f.kind = .ieee) {n d : Nat} (hn : 0 < n) (hd : 0 < d) :
    let c := roundMag f .rz l false n d
    c ≤ f.top ∧ magRat f c ≤ (n : ℚ) / d ∧ (c < f.top → (n : ℚ) / d < magRat f (c + 1)) := by
  have hfloor := magFloor_isFloor f hn hd
  rw [roundMag_positive, chosen_rz]
  dsimp only
  split
  case isTrue hover =>
    simp only [overflowCode, hk]
    exact ⟨le_rfl, ((magRat_strictMono f).monotone hover.le).trans hfloor.le, fun h => absurd h (lt_irrefl _)⟩
  case isFalse hin => exact ⟨not_lt.mp hin, hfloor.le, fun _ => hfloor.lt⟩

/-! ## Up -/

/-- Up, the code chosen is the least whose value is not below a positive x. -/
theorem IsFloor.chosen_ru (h : IsFloor f x c num den) (hx : 0 < x) :
    0 < chosen .ru l c num den ∧ magRat f (chosen .ru l c num den - 1) < x ∧ x ≤ magRat f (chosen .ru l c num den) := by
  by_cases hnum : num = 0
  · have hc : chosen .ru l c num den = c := by simp [chosen, roundsUp, hnum]
    have hxc : x = magRat f c := h.eq_iff.mpr hnum
    have hc0 : 0 < c := (magRat_strictMono f).lt_iff_lt.mp (by rwa [magRat_zero, ← hxc])
    rw [hc]
    exact ⟨hc0, (magRat_strictMono f (by omega)).trans_eq hxc.symm, hxc.le⟩
  · have hc : chosen .ru l c num den = c + 1 := by simp [chosen, roundsUp, hnum]
    rw [hc]
    exact ⟨c.succ_pos, lt_of_le_of_ne h.le fun heq => hnum (h.eq_iff.mp heq.symm), h.lt.le⟩

/-- Up, a positive magnitude above the range gives infinity (R15). -/
theorem roundMag_ru (hk : f.kind = .ieee) {n d : Nat} (hn : 0 < n) (hd : 0 < d) :
    let c := roundMag f .ru l false n d
    c ≤ f.top + 1 ∧ 0 < c ∧ magRat f (c - 1) < (n : ℚ) / d ∧ (c ≤ f.top → (n : ℚ) / d ≤ magRat f c) := by
  obtain ⟨hpos, hbelow, habove⟩ := (magFloor_isFloor f hn hd).chosen_ru (l := l) (by positivity)
  rw [roundMag_positive]
  dsimp only
  split
  case isTrue hover =>
    simp only [overflowCode, hk]
    exact ⟨le_rfl, f.top.succ_pos, ((magRat_strictMono f).monotone (Nat.le_sub_one_of_lt hover)).trans_lt hbelow,
      fun h => absurd h f.top.lt_irrefl⟩
  case isFalse hin => exact ⟨by omega, hpos, hbelow, fun _ => habove⟩

/-! ## To nearest, even at a tie -/

/-- c is the code of a value nearest to x, and even where another value is as near. -/
def NearestEven (f : FFmt) (x : ℚ) (c : Nat) : Prop :=
  2 * x ≤ magRat f c + magRat f (c + 1) ∧ (0 < c → magRat f (c - 1) + magRat f c ≤ 2 * x) ∧
    (2 * x = magRat f c + magRat f (c + 1) → c % 2 = 0) ∧ (0 < c → magRat f (c - 1) + magRat f c = 2 * x → c % 2 = 0)

/-- The floor is nearest up to the middle, which it may take where it is even. -/
theorem IsFloor.nearestEven_floor (h : IsFloor f x c num den) (hle : 2 * x ≤ magRat f c + magRat f (c + 1))
    (htie : 2 * x = magRat f c + magRat f (c + 1) → c % 2 = 0) : NearestEven f x c := by
  have hbelow : 0 < c → magRat f (c - 1) + magRat f c < 2 * x := fun hc => by
    have := magRat_strictMono f (Nat.sub_lt hc one_pos)
    linarith [h.le]
  exact ⟨hle, fun hc => (hbelow hc).le, htie, fun hc heq => absurd heq (hbelow hc).ne⟩

/-- The next value is nearest from the middle on, which it may take where the floor is odd. -/
theorem IsFloor.nearestEven_next (h : IsFloor f x c num den) (hge : magRat f c + magRat f (c + 1) ≤ 2 * x)
    (htie : magRat f c + magRat f (c + 1) = 2 * x → c % 2 = 1) : NearestEven f x (c + 1) := by
  have habove : 2 * x < magRat f (c + 1) + magRat f (c + 1 + 1) := by
    have := magRat_strictMono f (c + 1).lt_succ_self
    linarith [h.lt]
  exact ⟨habove.le, fun _ => hge, fun heq => absurd heq habove.ne, fun _ heq => by have := htie heq; omega⟩

/-- To nearest even, the code chosen is that of a nearest value. -/
theorem IsFloor.chosen_rne (h : IsFloor f x c num den) : NearestEven f x (chosen .rne l c num den) := by
  obtain hlt | heq | hgt := lt_trichotomy (2 * num) den
  · have hc : chosen .rne l c num den = c := by simp [chosen, roundsUp, hlt.ne, hlt.le]
    have hmid := h.below_middle hlt
    rw [hc]
    exact h.nearestEven_floor hmid.le fun heq => absurd heq hmid.ne
  · have hmid := h.at_middle heq
    obtain heven | hodd := Nat.mod_two_eq_zero_or_one c
    · have hc : chosen .rne l c num den = c := by simp [chosen, roundsUp, heq, heven]
      rw [hc]
      exact h.nearestEven_floor hmid.le fun _ => heven
    · have hc : chosen .rne l c num den = c + 1 := by simp [chosen, roundsUp, heq, hodd]
      rw [hc]
      exact h.nearestEven_next hmid.ge fun _ => hodd
  · have hc : chosen .rne l c num den = c + 1 := by simp [chosen, roundsUp, hgt]
    have hmid := h.above_middle hgt
    rw [hc]
    exact h.nearestEven_next hmid.le fun heq => absurd heq hmid.ne

/-- To nearest even, the code of infinity counts as the next value of the range, and it is even. -/
theorem roundMag_rne (hk : f.kind = .ieee) (hodd : f.top % 2 = 1) {n d : Nat} (hn : 0 < n) (hd : 0 < d) :
    let c := roundMag f .rne l false n d
    c ≤ f.top + 1 ∧
      (c ≤ f.top → 2 * ((n : ℚ) / d) ≤ magRat f c + magRat f (c + 1)) ∧
      (0 < c → magRat f (c - 1) + magRat f c ≤ 2 * ((n : ℚ) / d)) ∧
      (c ≤ f.top → 2 * ((n : ℚ) / d) = magRat f c + magRat f (c + 1) → c % 2 = 0) ∧
      (0 < c → magRat f (c - 1) + magRat f c = 2 * ((n : ℚ) / d) → c % 2 = 0) := by
  obtain ⟨habove, hbelow, htieAbove, htieBelow⟩ := (magFloor_isFloor f hn hd).chosen_rne (l := l)
  rw [roundMag_positive]
  dsimp only
  split
  case isTrue hover =>
    have hmono := (magRat_strictMono f).monotone
    have hmid := (add_le_add (hmono (Nat.le_sub_one_of_lt hover)) (hmono hover)).trans (hbelow (Nat.zero_lt_of_lt hover))
    simp only [overflowCode, hk]
    exact ⟨le_rfl, fun h => absurd h f.top.lt_irrefl, fun _ => hmid, fun h => absurd h f.top.lt_irrefl, fun _ _ => by omega⟩
  case isFalse hin => exact ⟨by omega, fun _ => habove, hbelow, fun _ => htieAbove, htieBelow⟩

end Neighbours

/-! ## The statement -/

/-- Settles O16: the three modes, each from what `magFloor` discards. -/
theorem roundingNeighbours : Obligations.RoundingNeighbours := by
  intro f hf l n d hn hd
  have hfmt : ∀ f ∈ [fp32, fp16, bf16, e5m2], f.kind = .ieee ∧ f.top % 2 = 1 := by decide
  obtain ⟨hk, hodd⟩ := hfmt f hf
  exact ⟨roundMag_rz hk hn hd, roundMag_ru hk hn hd, roundMag_rne hk hodd hn hd⟩

end Sys2Proof.Machine
end

section
/-!
SUPPORT. The words that the encoder lays out (R34, R35, R63) read back: the fields of a PFX word and of a base word, the parts of a
bundle of such words, and the instruction decoded from them.
-/

namespace Sys2Proof

/-! ## One word (R34, R35) -/

section Words

variable {k p sc op o : Nat}

theorem opOf_preWord (hp : p < 512) : opOf (preWord k p) = 31 := by
  simp only [opOf, preWord, BitVec.toNat_ofNat]
  omega

theorem kindOf_preWord (hk : k < 4) (hp : p < 512) : kindOf (preWord k p) = k := by
  simp only [kindOf, preWord, BitVec.toNat_ofNat]
  omega

theorem payOf_preWord (hp : p < 512) : payOf (preWord k p) = p := by
  simp only [payOf, preWord, BitVec.toNat_ofNat]
  omega

theorem opOf_baseWord (hop : op < 32) (ho : o < 512) : opOf (baseWord sc op o) = op := by
  simp only [opOf, baseWord, BitVec.toNat_ofNat]
  omega

theorem kindOf_baseWord (hs : sc < 4) (hop : op < 32) (ho : o < 512) : kindOf (baseWord sc op o) = sc := by
  simp only [kindOf, baseWord, BitVec.toNat_ofNat]
  omega

theorem payOf_baseWord (ho : o < 512) : payOf (baseWord sc op o) = o := by
  simp only [payOf, baseWord, BitVec.toNat_ofNat]
  omega

end Words

/-! ## The PFX words of one kind -/

/-- The PFX words of a kind, in order. -/
def ofKind (k : Nat) (l : List IWord) : List IWord := l.filter fun w => kindOf w = k

theorem ofKind_append (k : Nat) (l t : List IWord) : ofKind k (l ++ t) = ofKind k l ++ ofKind k t := List.filter_append ..

/-- Of PFX words laid out with one kind, those of that kind are all, and of another none. -/
theorem ofKind_preWords {kind : Nat} {ps : List Nat} (k : Nat) (hk : kind < 4) (hps : ∀ p ∈ ps, p < 512) :
    ofKind k (ps.map (preWord kind)) = if kind = k then ps.map (preWord kind) else [] := by
  have hkind : ∀ w ∈ ps.map (preWord kind), kindOf w = kind := by
    simp only [List.mem_map, forall_exists_index, and_imp, forall_apply_eq_imp_iff₂]
    exact fun p hp => kindOf_preWord hk (hps p hp)
  split
  next h => exact List.filter_eq_self.2 fun w hw => by simp [hkind w hw, h]
  next h => exact List.filter_eq_nil_iff.2 fun w hw => by simp [hkind w hw, h]

theorem payOf_preWords {kind : Nat} {ps : List Nat} (hps : ∀ p ∈ ps, p < 512) :
    (ps.map (preWord kind)).map payOf = ps := by
  rw [List.map_map]
  exact (List.map_congr_left (g := id) fun p hp => payOf_preWord (hps p hp)).trans (List.map_id _)

theorem payloadOf_eq (k : Nat) (l : List IWord) : payloadOf k l = ((ofKind k l).map payOf).head? := by
  induction l with
  | nil => rfl
  | cons w ws ih => by_cases h : kindOf w = k <;> simp_all [payloadOf, ofKind]

theorem firstOf_eq_none (k : Nat) (l : List IWord) (i : Nat) : firstOf k l i = none ↔ ofKind k l = [] := by
  induction l generalizing i with
  | nil => simp [firstOf, ofKind]
  | cons w ws ih => by_cases h : kindOf w = k <;> simp_all [firstOf, ofKind]

/-- A kind that stands at most once is not repeated. -/
theorem secondOf_eq_none {k : Nat} {l : List IWord} {i : Nat} {seen : Bool} (h : (ofKind k l).length + seen.toNat ≤ 1) :
    secondOf k l i seen = none := by
  induction l generalizing i seen with
  | nil => rfl
  | cons w ws ih =>
    by_cases hw : kindOf w = k
    · cases seen
      · simp only [secondOf, hw, if_true, Bool.false_eq_true, if_false]
        exact ih (by simpa [ofKind, hw] using h)
      · simp [ofKind, hw] at h
    · simp only [secondOf, hw, if_false]
      exact ih (by simpa [ofKind, hw] using h)

/-- Prefix words and a base word make a bundle, where the chain is not too long (R33, R36). -/
theorem splitBundle_append (n : Nat) (seen pre : List IWord) (b : IWord) (hpre : ∀ w ∈ pre, opOf w = 31) (hb : opOf b ≠ 31)
    (hlen : pre.length ≤ n) : splitBundle n seen (pre ++ [b]) = .ok ⟨seen ++ pre, b⟩ := by
  induction pre generalizing n seen with
  | nil => cases n <;> simp [splitBundle, hb]
  | cons w ws ih =>
    obtain _ | n := n
    · simp at hlen
    · simp only [List.mem_cons, forall_eq_or_imp] at hpre
      simp only [List.cons_append, splitBundle, hpre.1, if_true]
      rw [ih n _ hpre.2 (by simpa using hlen)]
      simp

/-! ## The parts of an encoding -/

/-- Every part fits its field of a word (R34, R35). -/
structure Enc.InRange (e : Enc) : Prop where
  imms : ∀ p ∈ e.imms, p < 512
  r : ∀ p ∈ e.r.toList, p < 512
  m : ∀ p ∈ e.m.toList, p < 512
  o : e.o < 512

/-- A bundle holds the parts of an encoding. -/
structure Raw.Carries (x : Raw) (e : Enc) : Prop where
  imms : x.imms = e.imms
  rp : x.rp = e.r
  mp : x.mp = e.m
  o : x.o = e.o

/-- The payload of PFX.P, where a bundle needs one (R41). -/
def pagePays (page stall : Nat) : List Nat := if page = 0 ∧ stall < 4 then [] else [page * 64 + stall / 4]

/-- The bundle that `mkWords` lays out: PFX.I, PFX.P, PFX.R, PFX.M, base word (R63). -/
def Enc.raw (e : Enc) (page op stall : Nat) : Raw where
  pre := e.imms.map (preWord 0) ++ ((pagePays page stall).map (preWord 2)
    ++ (e.r.toList.map (preWord 1) ++ e.m.toList.map (preWord 3)))
  base := baseWord (stall % 4) op e.o

theorem mkWords_eq (page op stall : Nat) (e : Enc) :
    mkWords page op stall e = (e.raw page op stall).pre ++ [(e.raw page op stall).base] := by
  obtain ⟨is, r, m, o⟩ := e
  cases r <;> cases m <;> simp [mkWords, Enc.raw, pagePays, apply_ite (List.map (preWord 2))]

theorem pagePays_lt {page stall : Nat} (hpage : page < 8) (hstall : stall < 256) : ∀ p ∈ pagePays page stall, p < 512 := by
  unfold pagePays
  split
  · simp
  · simp only [List.mem_singleton, forall_eq]
    omega

namespace Enc.InRange

variable {e : Enc} {page op stall : Nat} (he : e.InRange) (hpage : page < 8) (hstall : stall < 256)
include he hpage hstall

/-- The PFX words laid out, kind by kind. -/
theorem ofKind_raw (k : Nat) : ofKind k (e.raw page op stall).pre =
    (if 0 = k then e.imms.map (preWord 0) else []) ++ ((if 2 = k then (pagePays page stall).map (preWord 2) else [])
      ++ ((if 1 = k then e.r.toList.map (preWord 1) else []) ++ (if 3 = k then e.m.toList.map (preWord 3) else []))) := by
  simp only [raw, ofKind_append, ofKind_preWords k (by decide : 0 < 4) he.imms, ofKind_preWords k (by decide : 1 < 4) he.r,
    ofKind_preWords k (by decide : 3 < 4) he.m, ofKind_preWords k (by decide : 2 < 4) (pagePays_lt hpage hstall)]

/-- Every word in front of the base word is a PFX word. -/
theorem opOf_raw : ∀ w ∈ (e.raw page op stall).pre, opOf w = 31 := by
  simp only [raw, List.mem_append, List.mem_map]
  rintro w (⟨p, hp, rfl⟩ | ⟨p, hp, rfl⟩ | ⟨p, hp, rfl⟩ | ⟨p, hp, rfl⟩)
  · exact opOf_preWord (he.imms p hp)
  · exact opOf_preWord (pagePays_lt hpage hstall p hp)
  · exact opOf_preWord (he.r p hp)
  · exact opOf_preWord (he.m p hp)

/-- The bundle laid out holds the parts. -/
theorem raw_carries : (e.raw page op stall).Carries e where
  imms := by
    change (ofKind 0 (e.raw page op stall).pre).map payOf = _
    simp [he.ofKind_raw hpage hstall, -List.map_map, payOf_preWords he.imms]
  rp := by simp [Raw.rp, payloadOf_eq, he.ofKind_raw hpage hstall, -List.map_map, payOf_preWords he.r]
  mp := by simp [Raw.mp, payloadOf_eq, he.ofKind_raw hpage hstall, -List.map_map, payOf_preWords he.m]
  o := payOf_baseWord he.o

/-- No PFX kind is repeated. -/
theorem dupFaults_raw : dupFaults (e.raw page op stall).pre = [] := by
  have hpays : (pagePays page stall).length ≤ 1 := by unfold pagePays; split <;> simp
  have hone {k : Nat} (hk : k = 1 ∨ k = 2 ∨ k = 3) : secondOf k (e.raw page op stall).pre 0 false = none :=
    secondOf_eq_none (by
      rw [he.ofKind_raw hpage hstall]
      obtain rfl | rfl | rfl := hk <;> simp [hpays, Option.length_toList_le])
  simp [dupFaults, dupFault, hone]

theorem pp_raw : (e.raw page op stall).pp = (pagePays page stall).head? := by
  simp [Raw.pp, payloadOf_eq, he.ofKind_raw hpage hstall, -List.map_map, payOf_preWords (pagePays_lt hpage hstall)]

theorem page_raw : (e.raw page op stall).page = page := by
  rw [Raw.page, he.pp_raw hpage hstall, pagePays]
  split <;> simp <;> omega

theorem stall_raw (hop : op < 32) : (e.raw page op stall).stall = stall := by
  rw [Raw.stall, he.pp_raw hpage hstall, pagePays, raw, kindOf_baseWord (Nat.mod_lt _ (by decide)) hop he.o]
  split <;> simp <;> omega

end Enc.InRange

/-- A bundle without faults decodes to the instruction of its slot. -/
theorem decodeBundle_of_slot {x : Raw} {i : Instr} (hill : x.isIll = false) (hdup : dupFaults x.pre = [])
    (hslot : slotOf x = some ([], i)) : decodeBundle x = .ok i := by
  simp [decodeBundle, decodeRaw, hill, hdup, hslot, worst]

/-- Words laid out from parts decode to the instruction that the slot's decoder reads from those parts. -/
theorem decodeWords_mkWords {e : Enc} {page op : Nat} {i : Instr} (stall : BitVec 8) (he : e.InRange) (hpage : page < 8)
    (hop : op < 31) (hill : ¬(page = 0 ∧ op = 0))
    (hslot : ∀ x : Raw, x.Carries e → x.page = page → opOf x.base = op → slotOf x = some ([], i))
    (hlen : (mkWords page op stall.toNat e).length ≤ 5) :
    decodeWords (mkWords page op stall.toNat e) = .ok ⟨i, stall, (mkWords page op stall.toNat e).length⟩ := by
  have hstall := stall.isLt
  have hpg := he.page_raw (op := op) hpage hstall
  have hopx : opOf (e.raw page op stall.toNat).base = op := opOf_baseWord (by omega) he.o
  have hill' : (e.raw page op stall.toNat).isIll = false := by simpa [Raw.isIll, hpg, hopx] using hill
  have hbase : opOf (e.raw page op stall.toNat).base ≠ 31 := by omega
  rw [mkWords_eq, List.length_append, List.length_singleton] at hlen ⊢
  have hsplit := splitBundle_append 4 [] _ _ (he.opOf_raw hpage hstall) hbase (Nat.le_of_succ_le_succ hlen)
  have hdec := decodeBundle_of_slot hill' (he.dupFaults_raw hpage hstall) (hslot _ (he.raw_carries hpage hstall) hpg hopx)
  have hst : (e.raw page op stall.toNat).stall = stall.toNat := he.stall_raw hpage hstall (by omega)
  simp only [decodeWords, hsplit, List.nil_append, Raw.nb]
  simp only [hdec, hst, BitVec.ofNat_toNat, BitVec.setWidth_eq]

end Sys2Proof
end

section
/-!
SUPPORT. What a bundle's parts read as, each once: the immediates (R37), the fault lists that are empty (R36, R53), and the layouts of
PFX.M (R47).
-/

namespace Sys2Proof

/-! ## Immediates (R37) -/

theorem immPays_succ (w n : Nat) (v : Word) : immPays w (n + 1) v = v.toNat / 2 ^ (w + 9 * n) % 512 :: immPays w n v := by
  simp only [immPays, List.range_succ_eq_map, List.map_cons, List.map_map, Nat.add_sub_cancel, Nat.sub_zero]
  congr 1
  refine List.map_congr_left fun j _ => ?_
  simp [Nat.succ_eq_add_one, Nat.sub_sub, Nat.add_comm]

theorem immPays_lt (w n : Nat) (v : Word) : ∀ p ∈ immPays w n v, p < 512 := by
  simp only [immPays, List.mem_map, forall_exists_index, and_imp]
  rintro _ _ _ rfl
  exact Nat.mod_lt _ (by decide)

theorem length_immPays (w n : Nat) (v : Word) : (immPays w n v).length = n := by simp [immPays]

/-- The payloads, most significant first, make up the bits of the value above its base field. -/
theorem foldl_immPays (w n : Nat) (v : Word) (acc : Nat) :
    (immPays w n v).foldl (fun a p => a * 512 + p) acc = acc * 512 ^ n + v.toNat / 2 ^ w % 512 ^ n := by
  induction n generalizing acc with
  | zero => simp [immPays, Nat.mod_one]
  | succ n ih =>
    rw [immPays_succ, List.foldl_cons, ih, Nat.pow_add, ← Nat.div_div_eq_div_mul, Nat.pow_mul,
      show (2 : Nat) ^ 9 = 512 from rfl, Nat.pow_succ, Nat.mod_mul]
    ring

section Immediates

variable {x : Raw} {fits : Nat → Word → Bool} {w n : Nat} {v : Word}

theorem Raw.composed_immPays (h : x.imms = immPays w n v) :
    x.composed w (v.toNat % 2 ^ w) = v.toNat % 2 ^ (x.immBits w) := by
  have hm := Nat.mod_mul (x := v.toNat) (a := 2 ^ w) (b := 512 ^ n)
  rw [composed, h, foldl_immPays, immBits, h, length_immPays, Nat.add_comm (9 * n), Nat.pow_add, Nat.pow_mul,
    show (2 : Nat) ^ 9 = 512 from rfl, hm]
  ring

/-- Where the widest composed value equals the immediate, the composed value of the chosen number of PFX.I does (R63). -/
theorem fits_immCount (h : fits (w + 36) v = true) : fits (9 * immCount fits w v + w) v = true := by
  unfold immCount
  repeat' split
  all_goals simp_all [Nat.add_comm]

theorem Raw.simm_immPays (h : x.imms = immPays w (immCount fitsS w v) v) (hv : fitsS (w + 36) v = true) :
    x.simm w (v.toNat % 2 ^ w) = v := by
  have := fits_immCount hv
  rw [Raw.simm, composed_immPays h, immBits, h, length_immPays]
  simpa [fitsS] using this

/-- An immediate read unsigned is its composed value. -/
theorem Raw.composed_of_fitsU (h : x.imms = immPays w (immCount fitsU w v) v) (hv : fitsU (w + 36) v = true) :
    x.composed w (v.toNat % 2 ^ w) = v.toNat := by
  have := fits_immCount hv
  rw [composed_immPays h, immBits, h, length_immPays, Nat.mod_eq_of_lt (by simpa [fitsU] using this)]

theorem Raw.uimm_immPays (h : x.imms = immPays w (immCount fitsU w v) v) (hv : fitsU (w + 36) v = true) :
    x.uimm w (v.toNat % 2 ^ w) = v := by
  simp [Raw.uimm, composed_of_fitsU h hv]

theorem Raw.simm_formB (h : x.imms = immPays 5 (immCount fitsS 5 v) v) (hv : fitsS 41 v = true) :
    x.simm 5 (v.toNat % 32) = v := x.simm_immPays h hv
theorem Raw.simm_formC (h : x.imms = immPays 9 (immCount fitsS 9 v) v) (hv : fitsS 45 v = true) :
    x.simm 9 (v.toNat % 512) = v := x.simm_immPays h hv
theorem Raw.uimm_formC (h : x.imms = immPays 9 (immCount fitsU 9 v) v) (hv : fitsU 45 v = true) :
    x.uimm 9 (v.toNat % 512) = v := x.uimm_immPays h hv

/-- A number below 2^45 in form C is its composed value. -/
theorem Raw.composed_formC {k : Nat} (h : x.imms = immPays 9 (immCount fitsU 9 (BitVec.ofNat 64 k)) (BitVec.ofNat 64 k))
    (hk : k < 2 ^ 45) : x.composed 9 ((BitVec.ofNat 64 k).toNat % 512) = k := by
  have hn : (BitVec.ofNat 64 k).toNat = k := by rw [BitVec.toNat_ofNat]; omega
  exact (x.composed_of_fitsU h (by simpa [fitsU, hn] using hk)).trans hn

/-- A number below 2^41 in form B is its composed value. -/
theorem Raw.composed_formB {k : Nat} (h : x.imms = immPays 5 (immCount fitsU 5 (BitVec.ofNat 64 k)) (BitVec.ofNat 64 k))
    (hk : k < 2 ^ 41) : x.composed 5 ((BitVec.ofNat 64 k).toNat % 32) = k := by
  have hn : (BitVec.ofNat 64 k).toNat = k := by rw [BitVec.toNat_ofNat]; omega
  exact (x.composed_of_fitsU h (by simpa [fitsU, hn] using hk)).trans hn

/-- The PFX.I payloads of an immediate without a base field: none for zero. -/
def immPays0 (fits : Nat → Word → Bool) (v : Word) : List Nat := if v = 0 then [] else immPays 0 (immCount fits 0 v) v

theorem immPays0_lt : ∀ p ∈ immPays0 fits v, p < 512 := by
  unfold immPays0
  split
  · simp
  · exact immPays_lt 0 _ v

theorem Raw.simm_immPays0 (h : x.imms = immPays0 fitsS v) (hv : fitsS 36 v = true) : x.simm 0 0 = v := by
  by_cases hz : v = 0
  · simp [simm, immBits, immPays0, h, hz, signed64]
  · simpa [Nat.mod_one] using x.simm_immPays (w := 0) (h.trans (if_neg hz)) hv

theorem Raw.uimm_immPays0 (h : x.imms = immPays0 fitsU v) (hv : fitsU 36 v = true) : x.uimm 0 0 = v := by
  by_cases hz : v = 0
  · simp [uimm, composed, immPays0, h, hz]
  · simpa [Nat.mod_one] using x.uimm_immPays (w := 0) (h.trans (if_neg hz)) hv

end Immediates

/-! ## Fault lists that are empty (R36, R53) -/

@[simp] theorem need_eq_nil (ok : Bool) (r w : Nat) : need ok r w = [] ↔ ok = true := by cases ok <;> simp [need]

namespace Raw

variable (x : Raw)

theorem firstOf_match_eq_nil (k : Nat) :
    (match firstOf k x.pre 0 with | none => ([] : Faults) | some i => [(2, i)]) = [] ↔ ofKind k x.pre = [] := by
  rw [← firstOf_eq_none k x.pre 0]
  cases firstOf k x.pre 0 <;> simp

@[simp] theorem noI_eq_nil : x.noI = [] ↔ x.imms = [] :=
  (x.firstOf_match_eq_nil 0).trans (List.map_eq_nil_iff (f := payOf)).symm

theorem payloadOf_eq_none (k : Nat) : payloadOf k x.pre = none ↔ ofKind k x.pre = [] := by
  rw [payloadOf_eq, List.head?_eq_none_iff, List.map_eq_nil_iff]

@[simp] theorem noR_eq_nil : x.noR = [] ↔ x.rp = none := (x.firstOf_match_eq_nil 1).trans (x.payloadOf_eq_none 1).symm
@[simp] theorem noM_eq_nil : x.noM = [] ↔ x.mp = none := (x.firstOf_match_eq_nil 3).trans (x.payloadOf_eq_none 3).symm
@[simp] theorem iWithM_eq_nil : x.iWithM = [] ↔ (x.m ≠ 1 → x.imms = []) := by unfold iWithM; split <;> simp [*]
@[simp] theorem c0_eq_nil : x.c0 = [] ↔ x.c = 0 := by simp [c0]
@[simp] theorem bh0_eq_nil : x.bh0 = [] ↔ x.bh = 0 := by simp [bh0]
@[simp] theorem ah0_eq_nil : x.ah0 = [] ↔ x.ah = 0 := by simp [ah0]
@[simp] theorem m0_eq_nil : x.m0 = [] ↔ x.m = 0 := by simp [m0]
@[simp] theorem b0_eq_nil : x.b0 = [] ↔ x.vb = 0 := by simp [b0]
@[simp] theorem a0_eq_nil : x.a0 = [] ↔ x.va = 0 := by simp [a0]
@[simp] theorem o0_eq_nil : x.o0 = [] ↔ x.o = 0 := by simp [o0]
@[simp] theorem vz_eq_nil : x.vz = [] ↔ x.bh % 2 = 0 ∧ x.c < 16 := by simp [vz]
@[simp] theorem noVm_eq_nil : x.noVm = [] ↔ x.vm = 0 := by simp [noVm]
@[simp] theorem aLt_eq_nil (n : Nat) : x.aLt n = [] ↔ x.a < n := by simp [aLt]
@[simp] theorem bLt_eq_nil (n : Nat) : x.bLt n = [] ↔ x.b < n := by simp [bLt]
@[simp] theorem cLt_eq_nil (n : Nat) : x.cLt n = [] ↔ x.c < n := by simp [cLt]
@[simp] theorem mOk_eq_nil (ok : Bool) : x.mOk ok = [] ↔ ok = true := by simp [mOk]
@[simp] theorem mZ_eq_nil (ok : Bool) : x.mZ ok = [] ↔ ok = true := by simp [mZ]
@[simp] theorem immC0_eq_nil : x.immC0 = [] ↔ (x.m = 1 → x.c = 0) := by unfold immC0; split <;> simp [*]
@[simp] theorem p0_eq_nil : x.p0 = [] ↔ x.mod % 64 = 0 := by simp [p0]

@[simp] theorem g2_eq_nil (mm : Bool) : x.g2 mm = [] ↔ x.imms = [] ∧ (mm = false → x.m = 0) ∧ x.a < 32 ∧ x.b < 32 := by
  cases mm <;> simp [g2]
@[simp] theorem one_eq_nil (mm : Bool) (na nb : Nat) :
    x.one mm na nb = [] ↔ x.imms = [] ∧ x.c = 0 ∧ (mm = false → x.m = 0) ∧ x.a < na ∧ x.b < nb := by
  cases mm <;> simp [one]
@[simp] theorem g2i_eq_nil (na nb : Nat) :
    x.g2i na nb = [] ↔ (x.m ≠ 1 → x.imms = []) ∧ (x.m = 1 → x.c = 0) ∧ x.a < na ∧ x.b < nb := by
  simp [g2i]
@[simp] theorem memA_eq_nil (na : Nat) : x.memA na = [] ↔ (x.m ≠ 1 → x.imms = []) ∧ x.a < na ∧ x.b < 16 := by
  simp [memA]
@[simp] theorem vA_eq_nil : x.vA = [] ↔ x.imms = [] ∧ x.bh % 2 = 0 ∧ x.c < 16 := by simp [vA]
@[simp] theorem supF_eq_nil (mm : Bool) :
    x.supF mm = [] ↔ x.imms = [] ∧ x.mp = none ∧ (mm = false → x.m = 0) ∧ x.a < 32 := by
  cases mm <;> simp [supF]

end Raw

/-! ## Registers and codes back from their numbers -/

@[simp] theorem gOf_val (r : GReg) : gOf r = r := Fin.ext (Nat.mod_eq_of_lt r.isLt)
@[simp] theorem cOf_val (r : CReg) : cOf r = r := Fin.ext (Nat.mod_eq_of_lt r.isLt)
@[simp] theorem pOf_val (r : PReg) : pOf r = r := Fin.ext (Nat.mod_eq_of_lt r.isLt)
@[simp] theorem vOf_val (r : VReg) : vOf r = r := Fin.ext (Nat.mod_eq_of_lt r.isLt)
@[simp] theorem mOf_val (r : MReg) : mOf r = r := Fin.ext (Nat.mod_eq_of_lt r.isLt)
@[simp] theorem tOf_val (r : TReg) : tOf r = r := Fin.ext (Nat.mod_eq_of_lt r.isLt)
@[simp] theorem qOf_val (r : QPort) : qOf r = r := Fin.ext (Nat.mod_eq_of_lt r.isLt)
@[simp] theorem bOf_val (r : BReg) : bOf r = r := Fin.ext (Nat.mod_eq_of_lt r.isLt)

@[simp] theorem cOf_mod (n : Nat) : cOf (n % 16) = cOf n := Fin.ext (Nat.mod_mod n 16)
@[simp] theorem vOf_mod (n : Nat) : vOf (n % 16) = vOf n := Fin.ext (Nat.mod_mod n 16)
@[simp] theorem qOf_mod (n : Nat) : qOf (n % 16) = qOf n := Fin.ext (Nat.mod_mod n 16)
@[simp] theorem tOf_mod (n : Nat) : tOf (n % 16) = tOf n := Fin.ext (Nat.mod_mod_of_dvd n (by decide))
@[simp] theorem bOf_mod (n : Nat) : bOf (n % 16) = bOf n := Fin.ext (Nat.mod_mod_of_dvd n (by decide))

theorem predOf_predCode {p : PReg} (hp : p ≠ 0) : predOf (predCode p) = p := by
  revert hp p
  decide

@[simp] theorem bN_eq_one (b : Bool) : bN b = 1 ↔ b = true := by cases b <;> simp [bN]
@[simp] theorem decide_bN (b : Bool) : decide (bN b = 1) = b := by cases b <;> rfl
@[simp] theorem bN_le_one (b : Bool) : bN b ≤ 1 := by cases b <;> decide
theorem bN_lt (b : Bool) : bN b < 2 := by cases b <;> decide

theorem rndOfCode_code (r : Rnd) : rndOfCode r.code = some r := by cases r <;> rfl
theorem condOfCode_code (c : Cond) : condOfCode c.code = some c := by cases c <;> rfl
theorem elemOfCode_elemCode (d e : Elem) : elemOfCode d (elemCode d e) = some e := by
  unfold elemCode
  split
  · simp [elemOfCode, *]
  · cases e <;> rfl
theorem sizeOfCode_sizeCode (z : Option Size) : sizeOfCode (sizeCode z) = z := by
  obtain _ | z := z
  · rfl
  · cases z <;> rfl
theorem scopeOfCode_code (sc : Scope) : scopeOfCode sc.code = sc := by cases sc <;> rfl
@[simp] theorem redOfCode_code (op : RedOp) : redOfCode op.code = op := by cases op <;> rfl
@[simp] theorem amoOfCode_code (op : AmoOp) : amoOfCode op.code = some op := by cases op <;> rfl
@[simp] theorem actOfCode_code (a : Act) : actOfCode a.code = a := by cases a <;> rfl
@[simp] theorem modeOfCode_code (m : TwoMode) : modeOfCode m.code = m := by cases m <;> rfl

theorem Rnd.code_lt (r : Rnd) : r.code < 5 := by cases r <;> decide
theorem Cond.code_lt (c : Cond) : c.code < 12 := by cases c <;> decide
theorem elemCode_lt (d e : Elem) : elemCode d e < 16 := by
  unfold elemCode
  split
  · decide
  · cases e <;> decide
theorem sizeCode_lt (z : Option Size) : sizeCode z < 5 := by
  obtain _ | z := z
  · decide
  · cases z <;> decide
theorem Scope.code_lt (sc : Scope) : sc.code < 4 := by cases sc <;> decide
theorem RedOp.code_lt (op : RedOp) : op.code < 3 := by cases op <;> decide
theorem AmoOp.code_lt (op : AmoOp) : op.code < 10 := by cases op <;> decide
theorem Act.code_lt (a : Act) : a.code < 4 := by cases a <;> decide
theorem TwoMode.code_lt (m : TwoMode) : m.code < 3 := by cases m <;> decide
theorem predCode_lt (p : PReg) : predCode p < 8 := by unfold predCode; split <;> omega

end Sys2Proof
end

section
/-!
SUPPORT. The operand forms (R34, R39, R40, R90, R101, R131): for each form that the encoder writes, the fields that the decoder reads from
a bundle that holds it; and PFX.M's layouts (R47). `Instr.ReadFrom` says that a slot's decoder reads an instruction back.
-/

namespace Sys2Proof

/-! ## What is to be read -/

/-- The payload of a PFX word fits (R35). -/
def InField (p : Option Nat) : Prop := ∀ n ∈ p.toList, n < 512

@[simp] theorem inField_none : InField none := by simp [InField]
@[simp] theorem inField_some (n : Nat) : InField (some n) ↔ n < 512 := by simp [InField]

theorem inField_ite {c : Prop} [Decidable c] {a b : Option Nat} (ha : InField a) (hb : InField b) :
    InField (if c then a else b) := by
  split <;> assumption

/-- From every bundle that holds the parts `e` in a slot of the map, the slot's decoder reads the instruction and no fault. -/
structure Instr.ReadFrom (i : Instr) (page op : Nat) (e : Enc) : Prop where
  slot : page < 8 ∧ op < 31 ∧ ¬(page = 0 ∧ op = 0)
  inRange : e.InRange
  reads : ∀ x : Raw, x.page = page → opOf x.base = op → x.Carries e → slotOf x = some ([], i)

/-! ## The fields of each form -/

/-- The fields of forms A and Ai (R34, R39, R40). -/
structure Raw.FormA (x : Raw) (a b c m : Nat) : Prop where
  a_eq : x.a = a
  b_eq : x.b = b
  c_eq : x.c = c
  m_eq : x.m = m
  ah_eq : x.ah = a / 16
  bh_eq : x.bh = b / 16
  va_eq : x.va = a % 16
  vb_eq : x.vb = b % 16

/-- The operands of the two-source shapes (R39, R90): without PFX.R the destination is the first source. -/
structure Raw.TwoSource (x : Raw) (d s y m : Nat) : Prop where
  a_eq : x.a = d
  b_eq : x.b = if x.hasR then s else y
  c_eq : x.c = if x.hasR then y else 0
  td_eq : x.td = d
  tx_eq : x.tx = s
  ty_eq : x.ty = y
  m_eq : x.m = m

/-- The fields of form B (R34, R39). -/
structure Raw.FormB (x : Raw) (a c : Nat) (v : Word) : Prop where
  a_eq : x.a = a
  bh_eq : x.bh = 0
  c_eq : x.c = c
  low_eq : x.o % 32 = v.toNat % 32

/-- The fields of form D (R34, R39). -/
structure Raw.FormD (x : Raw) (a b c r : Nat) : Prop where
  da_eq : x.da = a
  db_eq : x.db = b
  dc_eq : x.dc = c
  c_eq : x.c = r

/-- The fields of page 2 (R40). -/
structure Raw.FormV (x : Raw) (a b c mask m : Nat) : Prop where
  va_eq : x.va = a
  vb_eq : x.vb = b
  c_eq : x.c = c
  vm_eq : x.vm = mask
  m_eq : x.m = m
  bh_even : x.bh % 2 = 0

/-- The operands of page 2's two-source shape (R131). -/
structure Raw.TwoSourceV (x : Raw) (d s y mask m : Nat) : Prop where
  va_eq : x.va = d
  vx_eq : x.vx = s
  vy_eq : x.vy = y
  c_lt : x.c < 16
  c_le : x.c ≤ y
  vb_le : x.vb ≤ max s y
  vm_eq : x.vm = mask
  m_eq : x.m = m
  bh_even : x.bh % 2 = 0

section Fields

variable {x : Raw} {a b c d s y m r mask : Nat} {v : Word}

theorem Raw.formA (hr : x.rv = rA a b c) (ho : x.o = oA a b m) (hb : b < 64) (hc : c < 32) (hm : m < 2) :
    x.FormA a b c m := by
  constructor <;> simp only [Raw.a, Raw.b, Raw.c, Raw.m, ah, bh, va, vb, hr, ho, rA, oA] <;> omega

theorem Raw.twoSource_of_noR (hR : x.hasR = false) (h : x.FormA d y 0 m) : x.TwoSource d d y m := by
  cases h
  constructor <;> simp [td, tx, ty, *]

theorem Raw.twoSource_of_R (hR : x.hasR = true) (h : x.FormA d s y m) : x.TwoSource d s y m := by
  cases h
  constructor <;> simp [td, tx, ty, *]

theorem Raw.formB (hr : x.rv = a / 16 * 128 + c) (ho : x.o = a % 16 * 32 + v.toNat % 32) (hc : c < 32) : x.FormB a c v := by
  constructor <;> simp only [Raw.a, ah, bh, Raw.c, hr, ho] <;> omega

theorem Raw.formD (hr : x.rv = a / 8 * 128 + b / 8 * 32 + r) (ho : x.o = a % 8 * 64 + b % 8 * 8 + c) (hb : b < 32) (hc : c < 8)
    (hr' : r < 32) : x.FormD a b c r := by
  constructor <;> simp only [da, db, dc, ah, bh, Raw.c, hr, ho] <;> omega

theorem Raw.formV (hr : x.rv = mask / 2 * 128 + mask % 2 * 64 + c) (ho : x.o = oA a b m) (ha : a < 16) (hb : b < 16)
    (hc : c < 32) (hm : m < 2) : x.FormV a b c mask m := by
  constructor <;> simp only [va, vb, vm, ah, bh, Raw.c, Raw.m, hr, ho, oA] <;> omega

theorem Raw.twoSourceV_of_noR (hR : x.hasR = false) (h : x.FormV d y 0 mask m) : x.TwoSourceV d d y mask m := by
  cases h
  constructor <;> simp [vx, vy, *]

theorem Raw.twoSourceV_of_R (hR : x.hasR = true) (hy : y < 16) (h : x.FormV d s y mask m) : x.TwoSourceV d s y mask m := by
  cases h
  constructor <;> simp [vx, vy, *]

theorem Raw.compare_of_noR (hi : x.imms = []) (hR : x.hasR = false) (h : x.FormA s y 0 0) (hs : s < 32) (hy : y < 32) :
    x.cmpF = [] ∧ x.cmpP = 1 ∧ x.cmpX = s ∧ x.cmpY = y := by
  simp [cmpF, cmpP, cmpX, cmpY, hi, hR, h.a_eq, h.b_eq, h.m_eq, hs, hy]

theorem Raw.compare_of_R {p : PReg} (hi : x.imms = []) (hR : x.hasR = true) (h : x.FormA p s y 0) (hs : s < 32) :
    x.cmpF = [] ∧ x.cmpP = p ∧ x.cmpX = s ∧ x.cmpY = y := by
  simp [cmpF, cmpP, cmpX, cmpY, hi, hR, h.a_eq, h.b_eq, h.c_eq, h.m_eq, hs]

end Fields

/-! ## Bundles without and with PFX.R -/

namespace Raw.Carries

variable {x : Raw} {is : List Nat} {mp : Option Nat} {o p : Nat}

theorem hasR_of_none (h : x.Carries ⟨is, none, mp, o⟩) : x.hasR = false := by simp [hasR, h.rp]
theorem rv_of_none (h : x.Carries ⟨is, none, mp, o⟩) : x.rv = 0 := by simp [rv, h.rp]
theorem hasR_of_some (h : x.Carries ⟨is, some p, mp, o⟩) : x.hasR = true := by simp [hasR, h.rp]
theorem rv_of_some (h : x.Carries ⟨is, some p, mp, o⟩) : x.rv = p := by simp [rv, h.rp]

/-- A PFX.R that is left out where its payload would be zero reads as that payload. -/
theorem rv_of_ite {q : Prop} [Decidable q] (h : x.Carries ⟨is, if q then none else some p, mp, o⟩) (hq : q → p = 0) :
    x.rv = p := by
  split at h
  next hc => rw [h.rv_of_none, hq hc]
  next => exact h.rv_of_some

end Raw.Carries

/-! ## Instructions read from a form -/

section Forms

variable {page op a b c d s y m r mask : Nat} {mp : Option Nat} {v : Word} {i : Instr}
  {fits : Nat → Word → Bool} {is : List Nat}

/-- Operand bits without PFX.R. -/
theorem readFrom_noR {o : Nat}
    (hs : ∀ x : Raw, x.page = page → opOf x.base = op → x.imms = is → x.rp = none → x.mp = mp → x.o = o →
      slotOf x = some ([], i))
    (his : ∀ p ∈ is, p < 512 := by simp)
    (hslot : page < 8 ∧ op < 31 ∧ ¬(page = 0 ∧ op = 0) := by decide) (hmp : InField mp := by simp) (ho : o < 512 := by omega) :
    i.ReadFrom page op ⟨is, none, mp, o⟩ where
  slot := hslot
  inRange := ⟨his, by simp, hmp, ho⟩
  reads x hp ho h := hs x hp ho h.imms h.rp h.mp h.o

/-- Form A with PFX.I payloads. -/
theorem readFrom_formA
    (hs : ∀ x : Raw, x.page = page → opOf x.base = op → x.imms = is → x.mp = mp → x.FormA a b c m → slotOf x = some ([], i))
    (his : ∀ p ∈ is, p < 512 := by simp)
    (hslot : page < 8 ∧ op < 31 ∧ ¬(page = 0 ∧ op = 0) := by decide) (hmp : InField mp := by simp) (ha : a < 64 := by omega)
    (hb : b < 64 := by omega) (hc : c < 32 := by omega) (hm : m < 2 := by omega) :
    i.ReadFrom page op ⟨is, if a < 16 ∧ b < 16 ∧ c = 0 then none else some (rA a b c), mp, oA a b m⟩ where
  slot := hslot
  inRange := ⟨his, inField_ite (by simp) (by simp only [inField_some, rA]; omega), hmp, by simp only [oA]; omega⟩
  reads x hp ho h := hs x hp ho h.imms h.mp (Raw.formA (h.rv_of_ite (by rw [rA]; omega)) h.o hb hc hm)

theorem readFrom_encA
    (hs : ∀ x : Raw, x.page = page → opOf x.base = op → x.imms = [] → x.mp = mp → x.FormA a b c m → slotOf x = some ([], i))
    (hslot : page < 8 ∧ op < 31 ∧ ¬(page = 0 ∧ op = 0) := by decide) (hmp : InField mp := by simp) (ha : a < 64 := by omega)
    (hb : b < 64 := by omega) (hc : c < 32 := by omega) (hm : m < 2 := by omega) : i.ReadFrom page op (encA a b c m mp) :=
  readFrom_formA hs (by simp) hslot hmp ha hb hc hm

/-- The two-source shape with PFX.I payloads (R39, R90). -/
theorem readFrom_twoSource {q : Prop} [Decidable q]
    (hs : ∀ x : Raw, x.page = page → opOf x.base = op → x.imms = is → x.mp = mp → x.TwoSource d s y m →
      slotOf x = some ([], i))
    (hq : q → d = s ∧ d < 16 ∧ y < 16)
    (his : ∀ p ∈ is, p < 512 := by simp)
    (hslot : page < 8 ∧ op < 31 ∧ ¬(page = 0 ∧ op = 0) := by decide) (hmp : InField mp := by simp) (hd : d < 64 := by omega)
    (hx : s < 64 := by omega) (hy : y < 32 := by omega) (hm : m < 2 := by omega) :
    i.ReadFrom page op (if q then ⟨is, none, mp, oA d y m⟩ else ⟨is, some (rA d s y), mp, oA d s m⟩) := by
  split
  case isTrue h =>
    obtain ⟨rfl, hd16, hy16⟩ := hq h
    exact
      { slot := hslot
        inRange := ⟨his, by simp, hmp, by simp only [oA]; omega⟩
        reads x hp ho h := hs x hp ho h.imms h.mp (Raw.twoSource_of_noR h.hasR_of_none
          (Raw.formA (h.rv_of_none.trans (by rw [rA]; omega)) h.o (by omega) (by omega) hm)) }
  case isFalse =>
    exact
      { slot := hslot
        inRange := ⟨his, by simp [rA]; omega, hmp, by simp only [oA]; omega⟩
        reads x hp ho h := hs x hp ho h.imms h.mp
          (Raw.twoSource_of_R h.hasR_of_some (Raw.formA h.rv_of_some h.o hx hy hm)) }

theorem readFrom_enc2
    (hs : ∀ x : Raw, x.page = page → opOf x.base = op → x.imms = [] → x.mp = mp → x.TwoSource d s y m → slotOf x = some ([], i))
    (hslot : page < 8 ∧ op < 31 ∧ ¬(page = 0 ∧ op = 0) := by decide) (hmp : InField mp := by simp) (hd : d < 64 := by omega)
    (hx : s < 64 := by omega) (hy : y < 32 := by omega) (hm : m < 2 := by omega) : i.ReadFrom page op (enc2 d s y m mp) :=
  readFrom_twoSource hs id (by simp) hslot hmp hd hx hy hm

/-- The two-source shape with an immediate (R90). -/
theorem readFrom_enc2i
    (hs : ∀ x : Raw, x.page = page → opOf x.base = op → x.imms = immPays0 fits v → x.mp = none → x.TwoSource d s 0 1 →
      slotOf x = some ([], i))
    (hslot : page < 8 ∧ op < 31 ∧ ¬(page = 0 ∧ op = 0) := by decide) (hd : d < 64 := by omega) (hx : s < 64 := by omega) :
    i.ReadFrom page op (enc2i fits d s (.imm v)) :=
  readFrom_twoSource hs (fun h => ⟨h.1, h.2, by decide⟩) immPays0_lt hslot (by simp) hd hx (by decide) (by decide)

/-- Field c replaced by an immediate (R104, R141, R166 to R174). -/
theorem readFrom_encC
    (hs : ∀ x : Raw, x.page = page → opOf x.base = op → x.imms = immPays0 fits v → x.mp = mp → x.FormA a b 0 1 →
      slotOf x = some ([], i))
    (hslot : page < 8 ∧ op < 31 ∧ ¬(page = 0 ∧ op = 0) := by decide) (hmp : InField mp := by simp) (ha : a < 64 := by omega)
    (hb : b < 64 := by omega) : i.ReadFrom page op (encC fits a b (.imm v) mp) := by
  have h := readFrom_formA (c := 0) hs immPays0_lt hslot hmp ha hb (by decide) (by decide)
  simpa [encC, immPays0] using h

/-- Form B (R34, R37), with or without PFX.R. -/
theorem readFrom_formB {n : Nat} {r : Option Nat}
    (hs : ∀ x : Raw, x.page = page → opOf x.base = op → x.imms = immPays 5 n v → x.mp = mp → x.hasR = r.isSome →
      x.FormB a c v → slotOf x = some ([], i))
    (hr : r.getD 0 = a / 16 * 128 + c)
    (hslot : page < 8 ∧ op < 31 ∧ ¬(page = 0 ∧ op = 0) := by decide) (hmp : InField mp := by simp) (ha : a < 64 := by omega)
    (hc : c < 32 := by omega) : i.ReadFrom page op ⟨immPays 5 n v, r, mp, a % 16 * 32 + v.toNat % 32⟩ where
  slot := hslot
  inRange := ⟨immPays_lt 5 n v, by cases r <;> simp_all; omega, hmp, by simp only; omega⟩
  reads x hp ho h := hs x hp ho h.imms h.mp (by rw [Raw.hasR, h.rp]) (Raw.formB (by rw [Raw.rv, h.rp, hr]) h.o hc)

theorem readFrom_encB
    (hs : ∀ x : Raw, x.page = page → opOf x.base = op → x.imms = immPays 5 (immCount fits 5 v) v → x.mp = mp →
      x.hasR = decide ¬(a < 16 ∧ c = 0) → x.FormB a c v → slotOf x = some ([], i))
    (hslot : page < 8 ∧ op < 31 ∧ ¬(page = 0 ∧ op = 0) := by decide) (hmp : InField mp := by simp) (ha : a < 64 := by omega)
    (hc : c < 32 := by omega) : i.ReadFrom page op (encB fits a c v mp) := by
  refine readFrom_formB (fun x hp ho hi hm hR => hs x hp ho hi hm ?_) ?_ hslot hmp ha hc
  · rw [hR]
    split <;> simp_all
  · split
    · simp
      omega
    · rfl

/-- Form C (R34, R37). -/
theorem readFrom_encCC
    (hs : ∀ x : Raw, x.page = page → opOf x.base = op → x.imms = immPays 9 (immCount fits 9 v) v → x.rp = none → x.mp = none →
      x.o = v.toNat % 512 → slotOf x = some ([], i))
    (hslot : page < 8 ∧ op < 31 ∧ ¬(page = 0 ∧ op = 0) := by decide) : i.ReadFrom page op (encCC fits v) :=
  readFrom_noR hs (immPays_lt 9 _ v) hslot

/-- Form D (R34, R39). -/
theorem readFrom_encD
    (hs : ∀ x : Raw, x.page = page → opOf x.base = op → x.imms = [] → x.mp = mp → x.FormD a b c r → slotOf x = some ([], i))
    (hslot : page < 8 ∧ op < 31 ∧ ¬(page = 0 ∧ op = 0) := by decide) (hmp : InField mp := by simp) (ha : a < 32 := by omega)
    (hb : b < 32 := by omega) (hc : c < 8 := by omega) (hr : r < 32 := by omega) :
    i.ReadFrom page op (encD a b c r mp) where
  slot := hslot
  inRange := ⟨by simp [encD], inField_ite (by simp) (by simp only [inField_some]; omega), hmp, by simp only [encD]; omega⟩
  reads x hp ho h := hs x hp ho h.imms h.mp (Raw.formD (h.rv_of_ite (by omega)) h.o hb hc hr)

/-- Page 2 with PFX.I payloads (R40). -/
theorem readFrom_encVI
    (hs : ∀ x : Raw, x.page = page → opOf x.base = op → x.imms = is → x.mp = mp → x.FormV a b c mask m →
      slotOf x = some ([], i))
    (his : ∀ p ∈ is, p < 512 := by simp)
    (hslot : page < 8 ∧ op < 31 ∧ ¬(page = 0 ∧ op = 0) := by decide) (hmp : InField mp := by simp) (ha : a < 16 := by omega)
    (hb : b < 16 := by omega) (hc : c < 32 := by omega) (hmask : mask < 8 := by omega) (hm : m < 2 := by omega) :
    i.ReadFrom page op (encVI a b mask is c m mp) where
  slot := hslot
  inRange := ⟨his, inField_ite (by simp) (by simp only [inField_some]; omega), hmp, by simp only [encVI, oA]; omega⟩
  reads x hp ho h := hs x hp ho h.imms h.mp (Raw.formV (h.rv_of_ite (by omega)) h.o ha hb hc hm)

theorem readFrom_encV
    (hs : ∀ x : Raw, x.page = page → opOf x.base = op → x.imms = [] → x.mp = mp → x.FormV a b c mask m → slotOf x = some ([], i))
    (hslot : page < 8 ∧ op < 31 ∧ ¬(page = 0 ∧ op = 0) := by decide) (hmp : InField mp := by simp) (ha : a < 16 := by omega)
    (hb : b < 16 := by omega) (hc : c < 32 := by omega) (hmask : mask < 8 := by omega) (hm : m < 2 := by omega) :
    i.ReadFrom page op (encV a b c mask m mp) :=
  readFrom_encVI hs (by simp) hslot hmp ha hb hc hmask hm

/-- Page 2's two-source shape with PFX.I payloads (R131, R136). -/
theorem readFrom_twoSourceV {q : Prop} [Decidable q]
    (hs : ∀ x : Raw, x.page = page → opOf x.base = op → x.imms = is → x.mp = mp → x.TwoSourceV d s y mask m →
      slotOf x = some ([], i))
    (hq : q → mask = 0 ∧ d = s)
    (his : ∀ p ∈ is, p < 512 := by simp)
    (hslot : page < 8 ∧ op < 31 ∧ ¬(page = 0 ∧ op = 0) := by decide) (hmp : InField mp := by simp) (hd : d < 16 := by omega)
    (hx : s < 16 := by omega) (hy : y < 16 := by omega) (hmask : mask < 8 := by omega) (hm : m < 2 := by omega) :
    i.ReadFrom page op (if q then ⟨is, none, mp, oA d y m⟩
      else ⟨is, some (mask / 2 * 128 + mask % 2 * 64 + y), mp, oA d s m⟩) := by
  split
  case isTrue h =>
    obtain ⟨rfl, rfl⟩ := hq h
    exact
      { slot := hslot
        inRange := ⟨his, by simp, hmp, by simp only [oA]; omega⟩
        reads x hp ho h := hs x hp ho h.imms h.mp (Raw.twoSourceV_of_noR h.hasR_of_none
          (Raw.formV h.rv_of_none h.o hd hy (by decide) hm)) }
  case isFalse =>
    exact
      { slot := hslot
        inRange := ⟨his, by simp; omega, hmp, by simp only [oA]; omega⟩
        reads x hp ho h := hs x hp ho h.imms h.mp
          (Raw.twoSourceV_of_R h.hasR_of_some hy (Raw.formV h.rv_of_some h.o hd hx (by omega) hm)) }

theorem readFrom_encV2
    (hs : ∀ x : Raw, x.page = page → opOf x.base = op → x.imms = [] → x.mp = mp → x.TwoSourceV d s y mask m →
      slotOf x = some ([], i))
    (hslot : page < 8 ∧ op < 31 ∧ ¬(page = 0 ∧ op = 0) := by decide) (hmp : InField mp := by simp) (hd : d < 16 := by omega)
    (hx : s < 16 := by omega) (hy : y < 16 := by omega) (hmask : mask < 8 := by omega) (hm : m < 2 := by omega) :
    i.ReadFrom page op (encV2 d s y mask m mp) :=
  readFrom_twoSourceV hs id (by simp) hslot hmp hd hx hy hmask hm

/-- A vector shift by an immediate (R136). -/
theorem readFrom_vopd
    (hs : ∀ x : Raw, x.page = page → opOf x.base = op → x.imms = immPays0 fitsU v → x.mp = mp → x.TwoSourceV d s 0 mask 1 →
      slotOf x = some ([], i))
    (hslot : page < 8 ∧ op < 31 ∧ ¬(page = 0 ∧ op = 0) := by decide) (hmp : InField mp := by simp) (hd : d < 16 := by omega)
    (hx : s < 16 := by omega) (hmask : mask < 8 := by omega) : i.ReadFrom page op (vopd d s mask (.imm v) mp) := by
  have h := readFrom_twoSourceV (y := 0) hs id immPays0_lt hslot hmp hd hx (by decide) hmask (by decide)
  simpa only [vopd, encVI, immPays0, Nat.add_zero] using h

/-- A compare (R101): the predicate p1 where there is no PFX.R. -/
theorem readFrom_compare {p : PReg} {s y : GReg}
    (hs : ∀ x : Raw, x.page = page → opOf x.base = op → x.mp = mp → x.cmpF = [] ∧ x.cmpP = p ∧ x.cmpX = s ∧ x.cmpY = y →
      slotOf x = some ([], i))
    (hslot : page < 8 ∧ op < 31 ∧ ¬(page = 0 ∧ op = 0) := by decide) (hmp : InField mp := by simp) :
    i.ReadFrom page op (if p.val = 1 ∧ s.val < 16 ∧ y.val < 16 then ⟨[], none, mp, oA s y 0⟩
      else ⟨[], some (rA p s y), mp, oA p s 0⟩) := by
  split
  case isTrue h =>
    obtain ⟨hp1, hs16, hy16⟩ := h
    obtain rfl : 1 = p := Fin.ext hp1.symm
    have ho : oA s y 0 < 512 := by simp only [oA]; omega
    exact
      { slot := hslot
        inRange := ⟨by simp, by simp, hmp, ho⟩
        reads x hp ho h := by
          have hr : x.rv = rA s y 0 := h.rv_of_none.trans (by rw [rA]; omega)
          have hf := Raw.formA hr h.o (by omega) (by decide) (by decide)
          exact hs x hp ho h.mp (Raw.compare_of_noR h.imms h.hasR_of_none hf s.isLt y.isLt) }
  case isFalse =>
    have hr : rA p s y < 512 := by simp only [rA]; omega
    have ho : oA p s 0 < 512 := by simp only [oA]; omega
    exact
      { slot := hslot
        inRange := ⟨by simp, by simpa using hr, hmp, ho⟩
        reads x hp ho h := by
          have hf := Raw.formA h.rv_of_some h.o (by omega) y.isLt (by decide)
          exact hs x hp ho h.mp (Raw.compare_of_R h.imms h.hasR_of_some hf s.isLt) }

end Forms

/-! ## PFX.M (R47) -/

section Layouts

variable {x : Raw} {n : Nat}

theorem Raw.mod_of_none (h : x.mp = none) : x.mod = 0 := by simp [mod, h]
theorem Raw.mod_of_some (h : x.mp = some n) : x.mod = n := by simp [mod, h]
theorem Raw.mod_of_mNZ (h : x.mp = mNZ n) : x.mod = n := by
  rw [mNZ] at h
  split at h
  next hz => rw [mod_of_none h, hz]
  next => exact mod_of_some h

theorem inField_mNZ (h : n < 512) : InField (mNZ n) := inField_ite (by simp) (by simpa using h)

theorem inField_mF (r : Rnd) (d e : Elem) {own : Nat} (h : own < 4) : InField (mF r (elemCode d e) own) := by
  have := r.code_lt
  have := elemCode_lt d e
  exact inField_mNZ (by omega)

/-- Layout F: rounding, element and the entry's own bits, and when the entry accepts them. -/
theorem Raw.layoutF {r : Rnd} {d e : Elem} {own : Nat} (h : x.mp = mF r (elemCode d e) own) (ho : own < 4 := by decide) :
    x.rndD = r ∧ x.elemD d = e ∧ x.own = own ∧ ∀ (l : List Elem) (ow : Nat → Bool) (rr : Rnd → Elem → Bool),
      l.headD .fp32 = d → (x.fOk l ow rr = [] ↔ e ∈ l ∧ ow own = true ∧ rr r e = true) := by
  have hm := mod_of_mNZ h
  have := elemCode_lt d e
  have hr : x.rnd = some r := by
    rw [rnd, ← rndOfCode_code r, hm]
    congr 1
    omega
  have he : x.elem d = some e := by
    rw [elem, ← elemOfCode_elemCode d e, hm]
    congr 1
    omega
  have hown : x.own = own := by
    rw [Raw.own, hm]
    omega
  refine ⟨by simp [rndD, hr], by simp [elemD, he], hown, fun l ow rr hl => ?_⟩
  simp only [fOk, hr, hl, he, hown, mOk_eq_nil]
  simp [and_assoc]

theorem inField_mK (c : Cond) (d e : Elem) : InField (mK c (elemCode d e)) := by
  have := c.code_lt
  have := elemCode_lt d e
  exact inField_mNZ (by omega)

/-- Layout K: condition and element, and when the entry accepts them. -/
theorem Raw.layoutK {c : Cond} {d e : Elem} (h : x.mp = mK c (elemCode d e)) :
    x.condD = c ∧ x.kElem d = e ∧ ∀ l : List Elem, l.headD .fp32 = d → (x.kOk l = [] ↔ e ∈ l ∧ condFits c e.isInt = true) := by
  have hm := mod_of_mNZ h
  have := elemCode_lt d e
  have hc : x.cond = some c := by
    rw [cond, ← condOfCode_code c, hm]
    congr 1
    omega
  have he : elemOfCode d (x.mod / 2 % 16) = some e := by
    rw [← elemOfCode_elemCode d e, hm]
    congr 1
    omega
  have hz : x.mod % 2 = 0 := by omega
  refine ⟨by simp [condD, hc], by simp [kElem, he], fun l hl => ?_⟩
  simp only [kOk, hc, hl, he, hz]
  simp

/-- The payload of CMPI (R102): the condition in [5:2]. -/
theorem Raw.layoutCmpi {c : Cond} (h : x.mp = mNZ (c.code * 4)) (hc : condFits c true = true) :
    x.mod / 64 = 0 ∧ x.mod % 4 = 0 ∧ x.mod / 4 % 16 = c.code ∧ c.code < 10 := by
  have hm := mod_of_mNZ h
  have hlt : c.code < 10 := by revert hc; cases c <;> decide
  omega

theorem predCode_mul_add_lt (p : PReg) {own : Nat} (h : own < 64) : predCode p * 64 + own < 512 := by
  have := predCode_lt p
  omega

/-- Layout P: the predicate destination and the entry's own bits. -/
theorem Raw.layoutP {p : PReg} {own : Nat} (h : x.mod = predCode p * 64 + own) (ho : own < 64) (hp : p ≠ 0) :
    x.pred = p ∧ x.mod % 64 = own := by
  refine ⟨?_, by omega⟩
  rw [pred, show x.mod / 64 = predCode p by omega, predOf_predCode hp]

theorem inField_mP (p : PReg) {own : Nat} (h : own < 64) : InField (mP p own) := inField_mNZ (predCode_mul_add_lt p h)

theorem inField_mSpelt (p : PReg) {own : Nat} (h : own < 64) : InField (mSpelt p own) :=
  (inField_some _).2 (predCode_mul_add_lt p h)

theorem inField_mS (z : Option Size) (sc : Scope) {own : Nat} (h : own < 16) : InField (mS z sc own) := by
  have := sizeCode_lt z
  have := sc.code_lt
  exact inField_mNZ (by omega)

/-- Layout S: size, scope and the entry's own bits. -/
theorem Raw.layoutS {z : Option Size} {sc : Scope} {own : Nat} (h : x.mp = mS z sc own) (ho : own < 16) :
    x.size = z ∧ x.scope = sc ∧ x.sOwn = own ∧ x.mod / 64 = sizeCode z ∧ x.mod % 64 = sc.code * 16 + own := by
  have hm := mod_of_mNZ h
  have hz := sizeCode_lt z
  have hc := sc.code_lt
  have hs : x.mod / 64 = sizeCode z := by omega
  refine ⟨by rw [size, hs, sizeOfCode_sizeCode], ?_, by rw [sOwn]; omega, hs, by omega⟩
  rw [scope, show x.mod / 16 % 4 = sc.code by omega, scopeOfCode_code]

end Layouts

end Sys2Proof
end

section
/-!
PROOFS. Page 0 reads back (R56): for each instruction of the page, its form and then the slot's own checks and operands.
-/

namespace Sys2Proof

/-- Page 0, the core instructions. -/
theorem readFrom_page0 {op : Nat} {e : Enc} {i : Instr} (h : encParts i = some (0, op, e)) (hw : i.wf = true)
    (hill : ∀ w c, i ≠ .ill w c) : i.ReadFrom 0 op e := by
  cases i
  case ill w c => exact absurd rfl (hill w c)
  case nop | ret | done =>
    cases h
    exact readFrom_noR fun x _ _ _ _ _ _ => by simp [slotOf, page0, *]
  case mov d s | movCap d s | jmp a s | jmpl a s | jtab a s | deq d q p =>
    cases h
    refine readFrom_encA fun x _ _ _ _ h => ?_
    cases h
    simp [slotOf, page0, *]
  case enq k s q =>
    cases h
    refine readFrom_encA (hm := bN_lt k) fun x _ _ _ _ h => ?_
    cases h
    simp [slotOf, page0, *]
  case movi d v =>
    cases h
    refine readFrom_encB fun x _ _ hi _ _ h => ?_
    have hv := x.simm_formB hi hw
    cases h
    simp [slotOf, page0, *]
  case addi d s v =>
    cases h
    split
    next hd =>
      obtain ⟨rfl, hd⟩ := hd
      refine readFrom_encB fun x _ _ hi _ _ h => ?_
      have hv := x.simm_formB hi hw
      cases h
      simp [slotOf, page0, *]
    next =>
      refine readFrom_formB (fun x _ _ hi _ _ h => ?_) rfl
      have hv := x.simm_formB hi hw
      cases h
      simp [slotOf, page0, *]
  case cmpi c p s v =>
    obtain ⟨hc, hv⟩ := Bool.and_eq_true_iff.1 hw
    cases h
    have hmp : InField (mNZ (c.code * 4)) := inField_mNZ (by have := c.code_lt; omega)
    split
    next hd =>
      obtain ⟨hp, hs⟩ := hd
      obtain rfl : 1 = p := Fin.ext hp.symm
      refine readFrom_formB (c := 0) (fun x _ _ hi hm _ h => ?_) (by simp; omega) (hmp := hmp)
      have hv := x.simm_formB hi hv
      have hmod := Raw.layoutCmpi hm hc
      cases h
      simp [slotOf, page0, condOfCode_code, *]
    next =>
      refine readFrom_formB (fun x _ _ hi hm _ h => ?_) rfl (hmp := hmp)
      have hv := x.simm_formB hi hv
      have hmod := Raw.layoutCmpi hm hc
      cases h
      simp [slotOf, page0, condOfCode_code, *]
  case add d s y | sub d s y | and d s y | or d s y | xor d s y | mul d s y =>
    cases h
    refine readFrom_enc2 fun x _ _ _ _ h => ?_
    cases h
    cases hR : x.hasR <;> simp [slotOf, page0, *]
  case shl d s y | shr d s y | sar d s y | cadd d s y =>
    cases h
    cases y with
    | imm v =>
      refine readFrom_enc2i fun x _ _ hi _ h => ?_
      have hv := x.simm_immPays0 hi hw
      cases h
      cases hR : x.hasR <;> simp [slotOf, page0, Raw.opd, *]
    | reg r =>
      refine readFrom_enc2 fun x _ _ _ _ h => ?_
      cases h
      cases hR : x.hasR <;> simp [slotOf, page0, Raw.opd, *]
  case cmp c e p s y =>
    obtain ⟨he, hc⟩ := Bool.and_eq_true_iff.1 hw
    cases h
    refine readFrom_compare (hmp := inField_mK c .i64 e) fun x _ _ hm _ => ?_
    obtain ⟨_, _, hk⟩ := Raw.layoutK hm
    simp_all [slotOf, page0, hk cmpElems rfl]
  case sel d p s y =>
    cases h
    refine readFrom_encD fun x _ _ _ _ h => ?_
    cases h
    simp [slotOf, page0, *]
  case ld z d a | st z d a =>
    obtain ⟨base, off⟩ := a
    cases h
    have hmp := inField_mS z .core (by decide : 0 < 16)
    cases off with
    | imm v =>
      refine readFrom_encC (hmp := hmp) fun x _ _ hi hm h => ?_
      have hv := x.simm_immPays0 hi hw
      have hS := Raw.layoutS hm (by decide)
      have hz := sizeCode_lt z
      cases h
      simp [slotOf, page0, Raw.mem, Scope.code, *]
    | reg r =>
      refine readFrom_encA (hmp := hmp) fun x _ _ hi hm h => ?_
      have hS := Raw.layoutS hm (by decide)
      have hz := sizeCode_lt z
      cases h
      simp [slotOf, page0, Raw.mem, Scope.code, *]
  case ldc d a | stc d a =>
    obtain ⟨base, off⟩ := a
    cases h
    cases off with
    | imm v =>
      refine readFrom_encC fun x _ _ hi hm h => ?_
      have hv := x.simm_immPays0 hi hw
      have hS := Raw.mod_of_none hm
      cases h
      simp [slotOf, page0, Raw.mem, *]
    | reg r =>
      refine readFrom_encA fun x _ _ hi hm h => ?_
      have hS := Raw.mod_of_none hm
      cases h
      simp [slotOf, page0, Raw.mem, *]
  case b v | call v =>
    cases h
    refine readFrom_encCC fun x _ _ hi _ _ ho => ?_
    have hv := x.simm_formC hi hw
    simp [slotOf, page0, *]
  case bc p inv v =>
    cases h
    have hb := bN_lt inv
    refine readFrom_noR (fun x _ _ hi _ _ ho => ?_) (immPays_lt 5 _ v)
    have hv := x.simm_formB hi hw
    have hp : x.o / 64 = p := by omega
    have hn : x.o / 32 % 2 = bN inv := by omega
    have hl : x.o % 32 = v.toNat % 32 := by omega
    clear ho
    simp [slotOf, page0, *]
  all_goals cases h
end Sys2Proof
end

section
/-!
PROOFS. Pages 1 and 2 read back (R56).
-/

namespace Sys2Proof

/-- Page 1: bit, capability and scalar floating-point instructions. -/
theorem readFrom_page1 {op : Nat} {e : Enc} {i : Instr} (h : encParts i = some (1, op, e)) (hw : i.wf = true) :
    i.ReadFrom 1 op e := by
  cases i
  case clz d s | ctz d s | popc d s | cgeta d s | cgeto d s | cgetl d s | cgetb d s | cgetf d s =>
    cases h
    refine readFrom_encA fun x _ _ _ _ h => ?_
    cases h
    simp [slotOf, page1, *]
  case biti u d s y | bitd u d s y | mulh u d s y | div u d s y | rem u d s y | min u d s y | max u d s y =>
    cases h
    refine readFrom_enc2 (hm := bN_lt u) fun x _ _ _ _ h => ?_
    cases h
    cases hR : x.hasR <;> simp [slotOf, page1, *]
  case cres d s y | cfmt d s y =>
    cases h
    refine readFrom_enc2 fun x _ _ _ _ h => ?_
    cases h
    cases hR : x.hasR <;> simp [slotOf, page1, *]
  case bfx d s y | bfi d s y =>
    cases h
    cases y with
    | imm v =>
      refine readFrom_enc2i fun x _ _ hi _ h => ?_
      have hv := x.simm_immPays0 hi hw
      cases h
      cases hR : x.hasR <;> simp [slotOf, page1, Raw.opd, *]
    | reg r =>
      refine readFrom_enc2 fun x _ _ _ _ h => ?_
      cases h
      cases hR : x.hasR <;> simp [slotOf, page1, Raw.opd, *]
  case cseta d s y =>
    have hs : s.val < 32 := by omega
    cases h
    cases y with
    | imm v =>
      refine readFrom_enc2i fun x _ _ hi _ h => ?_
      have hv := x.simm_immPays0 hi hw
      cases h
      cases hR : x.hasR <;> simp [slotOf, page1, Raw.opd, *]
    | reg r =>
      refine readFrom_enc2 fun x _ _ _ _ h => ?_
      cases h
      cases hR : x.hasR <;> simp [slotOf, page1, Raw.opd, *]
  case csetb d s y =>
    have hs : s.val < 32 := by omega
    cases h
    cases y with
    | imm v =>
      refine readFrom_enc2i fun x _ _ hi _ h => ?_
      have hv := x.uimm_immPays0 hi hw
      cases h
      cases hR : x.hasR <;> simp [slotOf, page1, Raw.opdU, *]
    | reg r =>
      refine readFrom_enc2 fun x _ _ _ _ h => ?_
      cases h
      cases hR : x.hasR <;> simp [slotOf, page1, Raw.opdU, *]
  case fadd r e d s y | fsub r e d s y | fmul r e d s y | ffma r e d s y | fdiv r e d s y =>
    have he : e ∈ fpElems := List.contains_iff_mem.1 hw
    cases h
    refine readFrom_enc2 (hmp := inField_mF r .fp32 e (by decide)) fun x _ _ _ hm h => ?_
    obtain ⟨_, _, _, hf⟩ := Raw.layoutF hm
    cases h
    cases hR : x.hasR <;> simp [slotOf, page1, Raw.fp, hf fpElems _ _ rfl, *]
  case fmin e d s y | fmax e d s y =>
    have he : e ∈ fpElems := List.contains_iff_mem.1 hw
    cases h
    refine readFrom_enc2 (hmp := inField_mF .rne .fp32 e (by decide)) fun x _ _ _ hm h => ?_
    obtain ⟨_, _, _, hf⟩ := Raw.layoutF hm
    cases h
    cases hR : x.hasR <;> simp [slotOf, page1, Raw.fp, hf fpElems _ _ rfl, *]
  case fsqrt r e d s =>
    have he : e ∈ fpElems := List.contains_iff_mem.1 hw
    cases h
    refine readFrom_encA (hmp := inField_mF r .fp32 e (by decide)) fun x _ _ _ hm h => ?_
    obtain ⟨_, _, _, hf⟩ := Raw.layoutF hm
    cases h
    simp [slotOf, page1, hf fpElems _ _ rfl, *]
  case fcvt r e d s | fcvtf r e d s =>
    have he : e ∈ cvtElems := List.contains_iff_mem.1 hw
    cases h
    refine readFrom_encA (hmp := inField_mF r .i64 e (by decide)) fun x _ _ _ hm h => ?_
    obtain ⟨_, _, _, hf⟩ := Raw.layoutF hm
    cases h
    simp [slotOf, page1, hf cvtElems _ _ rfl, *]
  case fcmp c e p s y =>
    obtain ⟨he, hc⟩ := Bool.and_eq_true_iff.1 hw
    cases h
    refine readFrom_compare (hmp := inField_mK c .fp32 e) fun x _ _ hm _ => ?_
    obtain ⟨_, _, hk⟩ := Raw.layoutK hm
    simp_all [slotOf, page1, hk fpElems rfl]
  case sext z d s | zext z d s =>
    have hz : z ≠ .d := of_decide_eq_true hw
    cases h
    refine readFrom_encA (hmp := inField_mS z .core (by decide)) fun x _ _ _ hm h => ?_
    have hS := Raw.layoutS hm (by decide)
    cases h
    cases z <;> simp [slotOf, page1, sizeCode, Size.code, Scope.code, *] at hz ⊢
  all_goals cases h

/-- VMASK (R140): the operation in the own bits of layout P names the files of its operands. -/
theorem readFrom_vmask {p : PReg} {o : MaskOp} {vm : VM} (hp : p ≠ 0) (ho : o.wf = true) :
    (Instr.vmask p o vm).ReadFrom 2 30 (maskEnc p o vm) := by
  have hlayout {x : Raw} {n : Nat} (hn : n < 16) (hm : x.mp = mSpelt p n) :
      x.pred = p ∧ x.mod % 16 = n ∧ x.mod / 16 % 4 = 0 := by
    have hmod := Raw.mod_of_some hm
    exact ⟨(Raw.layoutP hmod (by omega) hp).1, by omega, by omega⟩
  cases o
  case mov | not | first =>
    refine readFrom_encV (hm := bN_lt _) (hmp := inField_mSpelt p (by decide)) fun x _ _ _ hm h => ?_
    obtain ⟨_, _, _⟩ := hlayout (by decide) hm
    cases h
    simp [slotOf, page2, Raw.vmz, Raw.maskF, Raw.maskOp, *]
  case fromG d b =>
    have hb : b.val < 16 := of_decide_eq_true ho
    refine readFrom_encV (hm := bN_lt _) (hmp := inField_mSpelt p (by decide)) fun x _ _ _ hm h => ?_
    obtain ⟨_, _, _⟩ := hlayout (by decide) hm
    cases h
    simp [slotOf, page2, Raw.vmz, Raw.maskF, Raw.maskOp, *]
  case toG d b =>
    have hd : d.val < 16 := of_decide_eq_true ho
    refine readFrom_encV (hm := bN_lt _) (hmp := inField_mSpelt p (by decide)) fun x _ _ _ hm h => ?_
    obtain ⟨_, _, _⟩ := hlayout (by decide) hm
    cases h
    simp [slotOf, page2, Raw.vmz, Raw.maskF, Raw.maskOp, *]
  case and d s y | or d s y | xor d s y | andn d s y =>
    refine readFrom_encV2 (hm := bN_lt _) (hmp := inField_mSpelt p (by decide)) fun x _ _ _ hm h => ?_
    obtain ⟨_, _, _⟩ := hlayout (by decide) hm
    have hc : x.c < 8 := h.c_le.trans_lt y.isLt
    have hb : x.vb < 8 := h.vb_le.trans_lt (max_lt s.isLt y.isLt)
    cases h
    simp [slotOf, page2, Raw.vmz, Raw.maskF, Raw.maskOp, *]

/-- Page 2, the vector engine. -/
theorem readFrom_page2 {op : Nat} {e : Enc} {i : Instr} (h : encParts i = some (2, op, e)) (hw : i.wf = true) :
    i.ReadFrom 2 op e := by
  cases i
  case vld d a m | vst d a m =>
    obtain ⟨base, off⟩ := a
    obtain ⟨ha, hr⟩ := Bool.and_eq_true_iff.1 hw
    cases h
    cases off with
    | imm v =>
      refine readFrom_encVI (fun x _ _ hi _ h => ?_) immPays0_lt
      have hv := x.simm_immPays0 hi ha
      cases h
      simp [slotOf, page2, Raw.vmem, *]
    | reg r =>
      have hr : r.val < 16 := of_decide_eq_true hr
      refine readFrom_encVI fun x _ _ hi _ h => ?_
      cases h
      simp [slotOf, page2, Raw.vmem, *]
  case vldx e u d s y vm =>
    have he : e ∈ vMems := List.contains_iff_mem.1 hw
    cases h
    have hu : bN u < 4 := (bN_lt u).trans (by decide)
    refine readFrom_encV (hm := bN_lt _) (hmp := inField_mF .rne .i32 e hu) fun x _ _ _ hm h => ?_
    obtain ⟨_, _, _, hf⟩ := Raw.layoutF hm hu
    cases h
    simp [slotOf, page2, Raw.vmz, hf vMems _ _ rfl, *]
  case vstx r e d s y m =>
    obtain ⟨he, hr⟩ := Bool.and_eq_true_iff.1 hw
    cases h
    refine readFrom_encV (hmp := inField_mF r .i32 e (by decide)) fun x _ _ _ hm h => ?_
    obtain ⟨_, _, _, hf⟩ := Raw.layoutF hm
    cases h
    simp_all [slotOf, page2, hf vMems _ _ rfl]
  case vand d s y vm | vor d s y vm | vxor d s y vm | vperm d s y vm | vbiti d s y vm =>
    cases h
    refine readFrom_encV2 (hm := bN_lt _) fun x _ _ _ _ h => ?_
    cases h
    simp [slotOf, page2, Raw.vmz, *]
  case vsel d s y m =>
    cases h
    refine readFrom_encV2 fun x _ _ _ _ h => ?_
    cases h
    simp [slotOf, page2, *]
  case vadd r e d s y vm | vsub r e d s y vm | vmul r e d s y vm =>
    obtain ⟨he, hr⟩ := Bool.and_eq_true_iff.1 hw
    cases h
    refine readFrom_encV2 (hm := bN_lt _) (hmp := inField_mF r .fp32 e (by decide)) fun x _ _ _ hm h => ?_
    obtain ⟨_, _, _, hf⟩ := Raw.layoutF hm
    cases h
    simp_all [slotOf, page2, Raw.vmz, hf vArith _ _ rfl]
  case vfma r e d s y vm =>
    obtain ⟨he, hr⟩ := Bool.and_eq_true_iff.1 hw
    cases h
    refine readFrom_encV2 (hm := bN_lt _) (hmp := inField_mF r .fp32 e (by decide)) fun x _ _ _ hm h => ?_
    obtain ⟨_, _, _, hf⟩ := Raw.layoutF hm
    cases h
    simp_all [slotOf, page2, Raw.vmz, hf fpElems _ _ rfl]
  case vmin e u d s y vm | vmax e u d s y vm =>
    obtain ⟨he, hu⟩ := Bool.and_eq_true_iff.1 hw
    cases h
    have hown : bN u < 4 := (bN_lt u).trans (by decide)
    refine readFrom_encV2 (hm := bN_lt _) (hmp := inField_mF .rne .fp32 e hown) fun x _ _ _ hm h => ?_
    obtain ⟨_, _, _, hf⟩ := Raw.layoutF hm hown
    cases h
    cases u <;> simp_all [slotOf, page2, Raw.vmz, bN, hf vArith _ _ rfl]
  case vshl e d s y m =>
    obtain ⟨he, hy⟩ := Bool.and_eq_true_iff.1 hw
    cases h
    have hmp := inField_mF .rne .i32 e (by decide : 0 < 4)
    cases y with
    | imm v =>
      refine readFrom_vopd (hmp := hmp) fun x _ _ hi hm h => ?_
      have hv := x.uimm_immPays0 hi hy
      obtain ⟨_, _, _, hf⟩ := Raw.layoutF hm
      cases h
      simp_all [slotOf, page2, hf vInts _ _ rfl]
    | reg r =>
      refine readFrom_encV2 (hmp := hmp) fun x _ _ _ hm h => ?_
      obtain ⟨_, _, _, hf⟩ := Raw.layoutF hm
      cases h
      simp_all [slotOf, page2, hf vInts _ _ rfl]
  case vshr e u d s y m =>
    obtain ⟨he, hy⟩ := Bool.and_eq_true_iff.1 hw
    cases h
    have hown : bN u < 4 := (bN_lt u).trans (by decide)
    have hmp := inField_mF .rne .i32 e hown
    cases y with
    | imm v =>
      refine readFrom_vopd (hmp := hmp) fun x _ _ hi hm h => ?_
      have hv := x.uimm_immPays0 hi hy
      obtain ⟨_, _, _, hf⟩ := Raw.layoutF hm hown
      cases h
      simp_all [slotOf, page2, hf vInts _ _ rfl]
    | reg r =>
      refine readFrom_encV2 (hmp := hmp) fun x _ _ _ hm h => ?_
      obtain ⟨_, _, _, hf⟩ := Raw.layoutF hm hown
      cases h
      simp_all [slotOf, page2, hf vInts _ _ rfl]
  case vcmp c e d s y vm =>
    obtain ⟨he, hc⟩ := Bool.and_eq_true_iff.1 hw
    cases h
    refine readFrom_encV2 (hm := bN_lt _) (hmp := inField_mK c .fp32 e) fun x _ _ _ hm h => ?_
    obtain ⟨_, _, hk⟩ := Raw.layoutK hm
    cases h
    simp_all [slotOf, page2, Raw.vmz, hk vWords rfl]
  case vbcast e d s vm =>
    obtain ⟨he, hs⟩ := Bool.and_eq_true_iff.1 hw
    have hs : s.val < 16 := of_decide_eq_true hs
    cases h
    refine readFrom_encV (hm := bN_lt _) (hmp := inField_mF .rne .i32 e (by decide)) fun x _ _ _ hm h => ?_
    obtain ⟨_, _, _, hf⟩ := Raw.layoutF hm
    cases h
    simp_all [slotOf, page2, Raw.vmz, hf vMoves _ _ rfl]
  case vext e d s y =>
    obtain ⟨hw, hr⟩ := Bool.and_eq_true_iff.1 hw
    obtain ⟨hw, hy⟩ := Bool.and_eq_true_iff.1 hw
    obtain ⟨he, hd⟩ := Bool.and_eq_true_iff.1 hw
    have hd : d.val < 16 := of_decide_eq_true hd
    have hmp := inField_mF .rne .i32 e (by decide : 0 < 4)
    cases h
    cases y with
    | imm v =>
      refine readFrom_encC (hmp := hmp) fun x _ _ hi hm h => ?_
      have hv := x.uimm_immPays0 hi hy
      obtain ⟨_, _, _, hf⟩ := Raw.layoutF hm
      cases h
      simp_all [slotOf, page2, Raw.copd, Raw.vm, Nat.mod_eq_of_lt, Nat.div_eq_of_lt, hf vMoves _ _ rfl]
    | reg r =>
      have hr : r.val < 16 := of_decide_eq_true hr
      refine readFrom_encA (hmp := hmp) fun x _ _ _ hm h => ?_
      obtain ⟨_, _, _, hf⟩ := Raw.layoutF hm
      cases h
      simp_all [slotOf, page2, Raw.copd, Raw.vm, Nat.mod_eq_of_lt, Nat.div_eq_of_lt, hf vMoves _ _ rfl]
  case vins e d s y =>
    obtain ⟨hw, hr⟩ := Bool.and_eq_true_iff.1 hw
    obtain ⟨hw, hy⟩ := Bool.and_eq_true_iff.1 hw
    obtain ⟨he, hs⟩ := Bool.and_eq_true_iff.1 hw
    have hs : s.val < 16 := of_decide_eq_true hs
    have hmp := inField_mF .rne .i32 e (by decide : 0 < 4)
    cases h
    cases y with
    | imm v =>
      refine readFrom_encC (hmp := hmp) fun x _ _ hi hm h => ?_
      have hv := x.uimm_immPays0 hi hy
      obtain ⟨_, _, _, hf⟩ := Raw.layoutF hm
      cases h
      simp_all [slotOf, page2, Raw.copd, Raw.vm, Nat.mod_eq_of_lt, Nat.div_eq_of_lt, hf vMoves _ _ rfl]
    | reg r =>
      have hr : r.val < 16 := of_decide_eq_true hr
      refine readFrom_encA (hmp := hmp) fun x _ _ _ hm h => ?_
      obtain ⟨_, _, _, hf⟩ := Raw.layoutF hm
      cases h
      simp_all [slotOf, page2, Raw.copd, Raw.vm, Nat.mod_eq_of_lt, Nat.div_eq_of_lt, hf vMoves _ _ rfl]
  case vred o r e d s m =>
    obtain ⟨hw, hd⟩ := Bool.and_eq_true_iff.1 hw
    obtain ⟨he, hr⟩ := Bool.and_eq_true_iff.1 hw
    have hd : d.val < 16 := of_decide_eq_true hd
    cases h
    have hown : o.code < 4 := o.code_lt.trans (by decide)
    refine readFrom_encV (hmp := inField_mF r .fp32 e hown) fun x _ _ _ hm h => ?_
    obtain ⟨_, _, _, hf⟩ := Raw.layoutF hm hown
    cases h
    simp_all [slotOf, page2, o.code_lt, hf vWords _ _ rfl]
  case vscan o r e d s vm =>
    obtain ⟨he, hr⟩ := Bool.and_eq_true_iff.1 hw
    cases h
    have hown : o.code < 4 := o.code_lt.trans (by decide)
    refine readFrom_encV (hm := bN_lt _) (hmp := inField_mF r .fp32 e hown) fun x _ _ _ hm h => ?_
    obtain ⟨_, _, _, hf⟩ := Raw.layoutF hm hown
    cases h
    simp_all [slotOf, page2, Raw.vmz, o.code_lt, hf vWords _ _ rfl]
  case vcvt u r e d s vm =>
    obtain ⟨he, hr⟩ := Bool.and_eq_true_iff.1 hw
    cases h
    have hown : bN u < 4 := (bN_lt u).trans (by decide)
    refine readFrom_encV (hm := bN_lt _) (hmp := inField_mF r .i32 e hown) fun x _ _ _ hm h => ?_
    obtain ⟨_, _, _, hf⟩ := Raw.layoutF hm hown
    cases h
    simp_all [slotOf, page2, Raw.vmz, hf vCvts _ _ rfl]
  case vtwo md k p d s y vm =>
    have hp : p ≠ 0 := of_decide_eq_true hw
    cases h
    have hmd := md.code_lt
    have hown : md.code + 4 * k.val < 64 := by omega
    refine readFrom_encV2 (hm := bN_lt _) (hmp := inField_mSpelt p hown) fun x _ _ _ hm h => ?_
    have hmod := Raw.mod_of_some hm
    have hP := Raw.layoutP hmod hown hp
    have hmode : x.mod % 4 = md.code := by omega
    have hk : x.mod / 4 % 4 = k := by omega
    have hz : x.mod / 16 % 4 = 0 := by omega
    clear hmod
    cases h
    simp [slotOf, page2, Raw.vmz, Nat.mod_eq_of_lt, *]
  case vcomp e d s vm | vxpnd e d s vm =>
    have he : e ∈ [Elem.i32, .fp32, .i64] := by
      have := List.contains_iff_mem.1 hw
      simp_all [vWords, or_left_comm]
    cases h
    refine readFrom_encV (hm := bN_lt _) (hmp := inField_mF .rne .i32 e (by decide)) fun x _ _ _ hm h => ?_
    obtain ⟨_, _, _, hf⟩ := Raw.layoutF hm
    cases h
    simp [slotOf, page2, Raw.vmz, hf [.i32, .fp32, .i64] _ _ rfl, *]
  case vclz e d s vm | vpopc e d s vm =>
    have he : e ∈ vInts := List.contains_iff_mem.1 hw
    cases h
    refine readFrom_encV (hm := bN_lt _) (hmp := inField_mF .rne .i32 e (by decide)) fun x _ _ _ hm h => ?_
    obtain ⟨_, _, _, hf⟩ := Raw.layoutF hm
    cases h
    simp_all [slotOf, page2, Raw.vmz, hf vInts _ _ rfl]
  case vmask p o vm =>
    obtain ⟨hp, ho⟩ := Bool.and_eq_true_iff.1 hw
    cases h
    exact readFrom_vmask (of_decide_eq_true hp) ho
  all_goals cases h
end Sys2Proof
end

section
/-!
PROOFS. Pages 3 and 4 read back (R56).
-/

namespace Sys2Proof

/-- Page 3: queue ports, firings, barriers and priorities. -/
theorem readFrom_page3 {op : Nat} {e : Enc} {i : Instr} (h : encParts i = some (3, op, e)) (hw : i.wf = true) :
    i.ReadFrom 3 op e := by
  cases i
  case enqn k p s q =>
    have hp : p ≠ 0 := of_decide_eq_true hw
    cases h
    refine readFrom_encA (hm := bN_lt k) (hmp := inField_mP p (by decide)) fun x _ _ _ hm h => ?_
    have hP := Raw.layoutP (Raw.mod_of_mNZ hm) (by decide) hp
    cases h
    simp [slotOf, page3, *]
  case deqn p d q pc =>
    have hp : p ≠ 0 := of_decide_eq_true hw
    cases h
    refine readFrom_encA (hmp := inField_mP p (by decide)) fun x _ _ _ hm h => ?_
    have hP := Raw.layoutP (Raw.mod_of_mNZ hm) (by decide) hp
    cases h
    simp [slotOf, page3, *]
  case bwaitn p s b =>
    have hp : p ≠ 0 := of_decide_eq_true hw
    cases h
    refine readFrom_encA (hmp := inField_mP p (by decide)) fun x _ _ _ hm h => ?_
    have hP := Raw.layoutP (Raw.mod_of_mNZ hm) (by decide) hp
    cases h
    simp [slotOf, page3, *]
  case qcnt d q | bwait s b =>
    cases h
    refine readFrom_encA fun x _ _ _ _ h => ?_
    cases h
    simp [slotOf, page3, *]
  case qctl d q y =>
    obtain ⟨hw, h2⟩ := Bool.and_eq_true_iff.1 hw
    obtain ⟨hy, h1⟩ := Bool.and_eq_true_iff.1 hw
    cases h
    cases y with
    | imm v =>
      refine readFrom_encC fun x _ _ hi _ h => ?_
      have hv := x.simm_immPays0 hi hy
      cases h
      simp_all [slotOf, page3, Raw.copd]
    | reg r =>
      refine readFrom_encA fun x _ _ _ _ h => ?_
      cases h
      simp [slotOf, page3, Raw.copd, *]
  case qctlDiscard d q | qctlDisarm d q =>
    cases h
    refine readFrom_encC fun x _ _ hi _ h => ?_
    have hv := x.simm_immPays0 hi (by decide)
    cases h
    simp [slotOf, page3, *]
  case qlh q y =>
    cases h
    cases y with
    | imm v =>
      refine readFrom_encC fun x _ _ hi _ h => ?_
      have hv := x.simm_immPays0 hi hw
      cases h
      simp [slotOf, page3, Raw.copd, *]
    | reg r =>
      refine readFrom_encA fun x _ _ _ _ h => ?_
      cases h
      simp [slotOf, page3, Raw.copd, *]
  case fire d w =>
    have hw : w.val < 25 := of_decide_eq_true hw
    cases h
    refine readFrom_encA fun x _ _ _ _ h => ?_
    cases h
    simp [slotOf, page3, *]
  case firen p d w =>
    obtain ⟨hp, hw⟩ := Bool.and_eq_true_iff.1 hw
    have hp : p ≠ 0 := of_decide_eq_true hp
    have hw : w.val < 25 := of_decide_eq_true hw
    cases h
    refine readFrom_encA (hmp := inField_mP p (by decide)) fun x _ _ _ hm h => ?_
    have hP := Raw.layoutP (Raw.mod_of_mNZ hm) (by decide) hp
    cases h
    simp [slotOf, page3, *]
  case arrive l d b | arrb l d b n =>
    have hb : b.val < 16 := by omega
    cases h
    refine readFrom_encA (hm := bN_lt l) fun x _ _ _ _ h => ?_
    cases h
    simp [slotOf, page3, Nat.mod_eq_of_lt, Nat.div_eq_of_lt, *]
  case falign =>
    cases h
    exact readFrom_noR fun x _ _ _ hr _ _ => by simp [slotOf, page3, Raw.rv, *]
  case wid d y =>
    cases h
    cases y with
    | imm v =>
      refine readFrom_encC fun x _ _ hi _ h => ?_
      have hv := x.uimm_immPays0 hi hw
      cases h
      simp [slotOf, page3, Raw.copd, *]
    | reg r =>
      refine readFrom_encA fun x _ _ _ _ h => ?_
      cases h
      simp [slotOf, page3, Raw.copd, *]
  case prio y =>
    cases h
    cases y with
    | imm v =>
      refine readFrom_encC fun x _ _ hi _ h => ?_
      have hv := x.uimm_immPays0 hi hw
      cases h
      simp [slotOf, page3, Raw.copd, *]
    | reg r =>
      refine readFrom_encA fun x _ _ _ _ h => ?_
      cases h
      simp [slotOf, page3, Raw.copd, *]
  all_goals cases h

theorem kindBits_lt (k : FenceKinds) : kindBits k < 16 := by
  obtain ⟨ll, ls, sl, ss⟩ := k
  revert ll ls sl ss
  decide

/-- The kinds of a FENCE back from its own bits, 0 for all four (R193). -/
theorem Raw.kinds_of_kindBits {x : Raw} {k : FenceKinds} (h : x.sOwn = kindBits k)
    (hk : (k.ll || k.ls || k.sl || k.ss) = true) : x.kinds = k := by
  obtain ⟨ll, ls, sl, ss⟩ := k
  rw [kinds, h]
  clear h
  revert ll ls sl ss
  decide

/-- Page 4: memory, versions, atomics, transfers and counters. -/
theorem readFrom_page4 {op : Nat} {e : Enc} {i : Instr} (h : encParts i = some (4, op, e)) (hw : i.wf = true) :
    i.ReadFrom 4 op e := by
  cases i
  case fence k sc =>
    cases h
    have hk := kindBits_lt k
    have hS : mNZ (sc.code * 16 + kindBits k) = mS none sc (kindBits k) := by simp [mS, sizeCode]
    refine readFrom_noR (hmp := hS ▸ inField_mS none sc hk) fun x _ _ _ _ hm _ => ?_
    obtain ⟨_, _, hown, _⟩ := Raw.layoutS (hm.trans hS) hk
    have hkinds := Raw.kinds_of_kindBits hown hw
    simp [slotOf, page4, sizeCode, *]
  case lda z sc d a | strel z sc d a =>
    obtain ⟨base, off⟩ := a
    cases h
    have hmp := inField_mS z sc (by decide : 0 < 16)
    have hz := sizeCode_lt z
    cases off with
    | imm v =>
      refine readFrom_encC (hmp := hmp) fun x _ _ hi hm h => ?_
      have hv := x.simm_immPays0 hi hw
      have hS := Raw.layoutS hm (by decide)
      cases h
      simp [slotOf, page4, Raw.mem, *]
    | reg r =>
      refine readFrom_encA (hmp := hmp) fun x _ _ hi hm h => ?_
      have hS := Raw.layoutS hm (by decide)
      cases h
      simp [slotOf, page4, Raw.mem, *]
  case ldver d a | stver d a | reclaim d a =>
    obtain ⟨base, off⟩ := a
    cases h
    cases off with
    | imm v =>
      refine readFrom_encC fun x _ _ hi hm h => ?_
      have hv := x.simm_immPays0 hi hw
      cases h
      simp [slotOf, page4, Raw.mem, *]
    | reg r =>
      refine readFrom_encA fun x _ _ hi hm h => ?_
      cases h
      simp [slotOf, page4, Raw.mem, *]
  case ldvern p d a =>
    obtain ⟨hp, ha⟩ := Bool.and_eq_true_iff.1 hw
    have hp : p ≠ 0 := of_decide_eq_true hp
    obtain ⟨base, off⟩ := a
    cases h
    cases off with
    | imm v =>
      refine readFrom_encC (hmp := inField_mP p (by decide)) fun x _ _ hi hm h => ?_
      have hv := x.simm_immPays0 hi ha
      have hP := Raw.layoutP (Raw.mod_of_mNZ hm) (by decide) hp
      cases h
      simp [slotOf, page4, Raw.mem, *]
    | reg r =>
      refine readFrom_encA (hmp := inField_mP p (by decide)) fun x _ _ hi hm h => ?_
      have hP := Raw.layoutP (Raw.mod_of_mNZ hm) (by decide) hp
      cases h
      simp [slotOf, page4, Raw.mem, *]
  case amo o z sc d a =>
    obtain ⟨hsz, ha⟩ := Bool.and_eq_true_iff.1 hw
    obtain ⟨base, off⟩ := a
    cases h
    have ho : o.code < 16 := o.code_lt.trans (by decide)
    have hmp := inField_mS z sc ho
    have hz := sizeCode_lt z
    cases off with
    | imm v =>
      refine readFrom_encC (hmp := hmp) fun x _ _ hi hm h => ?_
      have hv := x.simm_immPays0 hi ha
      have hS := Raw.layoutS hm ho
      cases h
      simp [slotOf, page4, Raw.mem, *]
    | reg r =>
      refine readFrom_encA (hmp := hmp) fun x _ _ hi hm h => ?_
      have hS := Raw.layoutS hm ho
      cases h
      simp [slotOf, page4, Raw.mem, *]
  case cas z sc p d a n =>
    cases h
    have hp : 2 * p.val < 16 := by omega
    refine readFrom_encA (hmp := inField_mS z sc hp) fun x _ _ _ hm h => ?_
    have hS := Raw.layoutS hm hp
    have hz := sizeCode_lt z
    have h2 : x.mod % 2 = 0 := by omega
    have hpp : x.mod / 2 % 8 = p := by omega
    cases h
    have hw : casSizeOk z = true := hw
    simp [slotOf, page4, *]
  case rget sc d s n k | rsend sc d s n k | rsig sc d s n k =>
    cases h
    refine readFrom_encA (hmp := inField_mS none sc k.isLt) fun x _ _ _ hm h => ?_
    have hS := Raw.layoutS hm k.isLt
    cases h
    simp [slotOf, page4, Raw.xf, sizeCode, *]
  case rgetx sc d s n k | rsendx sc d s n k =>
    have hk : k ≠ 0 := of_decide_eq_true hw
    have hk : k.val ≠ 0 := fun h => hk (Fin.ext h)
    cases h
    refine readFrom_encA (hmp := inField_mS none sc k.isLt) fun x _ _ _ hm h => ?_
    have hS := Raw.layoutS hm k.isLt
    cases h
    simp [slotOf, page4, Raw.xf, sizeCode, *]
  case rarith o od e d s n =>
    have he : e ∈ arithElems := List.contains_iff_mem.1 hw
    cases h
    have hown : o.code < 4 := o.code_lt.trans (by decide)
    refine readFrom_encA (hm := bN_lt od) (hmp := inField_mF .rne .fp32 e hown) fun x _ _ _ hm h => ?_
    obtain ⟨_, _, _, hf⟩ := Raw.layoutF hm hown
    cases h
    simp [slotOf, page4, o.code_lt, hf arithElems _ _ rfl, *]
  case cntw d a | cntrd d a =>
    cases h
    refine readFrom_encA fun x _ _ _ _ h => ?_
    cases h
    simp [slotOf, page4, *]
  case cntwn p d a =>
    have hp : p ≠ 0 := of_decide_eq_true hw
    cases h
    refine readFrom_encA (hmp := inField_mP p (by decide)) fun x _ _ _ hm h => ?_
    have hP := Raw.layoutP (Raw.mod_of_mNZ hm) (by decide) hp
    cases h
    simp [slotOf, page4, *]
  all_goals cases h

end Sys2Proof
end

section
/-!
PROOFS. Pages 5 to 7 read back (R56), and with them every page: decode of encode is the instruction.
-/

namespace Sys2Proof

theorem Elem.code_pos (e : Elem) : e.code ≠ 0 := by cases e <;> decide
theorem Elem.code_lt (e : Elem) : e.code < 16 := by cases e <;> decide
theorem elemOfCode_code (d e : Elem) : elemOfCode d e.code = some e := by cases e <;> rfl

theorem inField_mepi (r : Rnd) (ac : Act) {ec : Nat} (h : ec < 16) : InField (mF r ec ac.code) := by
  have := r.code_lt
  have := ac.code_lt
  exact inField_mNZ (by omega)

/-- The payload of MEPI (R266): rounding, the code of the element and the activation. -/
theorem Raw.layoutMepi {x : Raw} {r : Rnd} {ec : Nat} {ac : Act} (h : x.mp = mF r ec ac.code) (hec : ec < 16) :
    x.rnd = some r ∧ x.own = ac.code ∧ x.mod / 4 % 16 = ec := by
  have hm := mod_of_mNZ h
  have hac := ac.code_lt
  refine ⟨?_, by rw [own]; omega, by omega⟩
  rw [rnd, ← rndOfCode_code r]
  congr 1
  omega

theorem inField_mM (pl : Option (Fin 16 × Fin 16)) : InField (mM pl) := by
  obtain _ | ⟨pa, pb⟩ := pl
  · exact inField_none
  · exact (inField_some _).2 (by omega)

/-- Layout M: the plane counts, none without PFX.M. -/
theorem Raw.layoutM {x : Raw} {pl : Option (Fin 16 × Fin 16)} (h : x.mp = mM pl) : x.mod % 2 = 0 ∧ x.planes = pl := by
  obtain _ | ⟨pa, pb⟩ := pl
  · have h : x.mp = none := h
    simp [planes, mod, h]
  · have h : x.mp = some (pa.val * 32 + pb.val * 2) := h
    have hm := mod_of_some h
    have ha : x.pa = pa := Fin.ext (by simp only [Raw.pa]; omega)
    have hb : x.pb = pb := Fin.ext (by simp only [Raw.pb]; omega)
    exact ⟨by omega, by simp [planes, h, ha, hb]⟩

/-- The predicate destination and the plane count of CUT, the defaults without PFX.M. -/
theorem Raw.layoutCut {x : Raw} {pl : Fin 16} {p : PReg} (hp : p ≠ 0)
    (h : x.mp = if pl.val = 7 ∧ p.val = 1 then none else some (predCode p * 64 + pl.val)) :
    x.mod / 16 % 4 = 0 ∧ x.pred = p ∧ (if x.mp.isSome then ⟨x.mod % 16, Nat.mod_lt _ (by decide)⟩ else (7 : Fin 16)) = pl := by
  split at h
  next hd =>
    obtain rfl : pl = 7 := Fin.ext hd.1
    obtain rfl : p = 1 := Fin.ext hd.2
    simp [pred, predOf, mod, h]
  next =>
    have hm := mod_of_some h
    have hpl : x.mod % 16 = pl := by omega
    exact ⟨by omega, (layoutP hm (by omega) hp).1, by simp [h, hpl]⟩

/-- Page 5: the matrix engine and the streamer. -/
theorem readFrom_page5 {op : Nat} {e : Enc} {i : Instr} (h : encParts i = some (5, op, e)) (hw : i.wf = true) :
    i.ReadFrom 5 op e := by
  cases i
  case mplane p d s n =>
    cases h
    refine readFrom_encA (hmp := inField_ite (by simp) (by simp; omega)) fun x _ _ _ hm h => ?_
    cases h
    by_cases hp : p.val = 7
    · rw [if_pos hp] at hm
      obtain rfl : p = 7 := Fin.ext hp
      simp [slotOf, page5, Raw.mod_of_none hm, *]
    · rw [if_neg hp] at hm
      simp [slotOf, page5, Raw.pa, Raw.mod_of_some hm, Nat.mod_eq_of_lt, *]
  case mma pl t ca cb k | mmas pl t ca cb k =>
    have hb : cb.val < 8 := of_decide_eq_true hw
    cases h
    refine readFrom_encD (hmp := inField_mM pl) fun x _ _ _ hm h => ?_
    have hM := Raw.layoutM hm
    cases h
    simp [slotOf, page5, Raw.mmaF, *]
  case mepi ac r e t d n =>
    cases h
    cases e with
    | none =>
      refine readFrom_encA (hmp := inField_mepi r ac (by decide : 0 < 16)) fun x _ _ _ hm h => ?_
      have hM := Raw.layoutMepi hm (by decide)
      cases h
      simp [slotOf, page5, Raw.rndD, *]
    | some e =>
      have he : e ∈ epiElems := List.contains_iff_mem.1 hw
      refine readFrom_encA (hmp := inField_mepi r ac e.code_lt) fun x _ _ _ hm h => ?_
      have hM := Raw.layoutMepi hm e.code_lt
      cases h
      simp [slotOf, page5, Raw.rndD, Raw.elemD, Raw.elem, elemOfCode_code, e.code_pos, *]
  case mepirp t =>
    cases h
    refine readFrom_encA fun x _ _ _ _ h => ?_
    have hr : x.rv = 0 := by
      have := h.a_eq
      have := h.b_eq
      have := h.c_eq
      simp only [Raw.a, Raw.b, Raw.c, Raw.ah, Raw.bh] at *
      omega
    cases h
    simp [slotOf, page5, *]
  case mzero t | mrel t =>
    cases h
    refine readFrom_encA fun x _ _ _ _ h => ?_
    cases h
    simp [slotOf, page5, Raw.tileF, *]
  case mstat d t | mstatc d t | mwait t =>
    cases h
    have ht : t.val < 16 := by omega
    refine readFrom_encA fun x _ _ _ _ h => ?_
    cases h
    simp [slotOf, page5, Nat.mod_eq_of_lt, Nat.div_eq_of_lt, *]
  case copy d b | cresume d b | cdrop d b =>
    cases h
    refine readFrom_encA fun x _ _ _ _ h => ?_
    cases h
    simp [slotOf, page5, *]
  case cut pl p d a b =>
    have hp : p ≠ 0 := of_decide_eq_true hw
    cases h
    refine readFrom_encA (hmp := inField_ite (by simp) (by have := predCode_lt p; simp; omega)) fun x _ _ _ hm h => ?_
    have hM := Raw.layoutCut hp hm
    clear hm
    cases h
    simp [slotOf, page5, *]
  case cocut w a d s =>
    have ha : a.val < 31 := of_decide_eq_true hw
    cases h
    refine readFrom_encA (hm := bN_lt w) fun x _ _ _ _ h => ?_
    cases h
    simp [slotOf, page5, *]
  all_goals cases h

/-- Page 6: traversals, pairs and work graphs. -/
theorem readFrom_page6 {op : Nat} {e : Enc} {i : Instr} (h : encParts i = some (6, op, e)) (hw : i.wf = true) :
    i.ReadFrom 6 op e := by
  cases i
  case trav a b | dtrav a | pair d a k | wgabn d r | wgstat d a r | mom d a | momd d a =>
    cases h
    refine readFrom_encA fun x _ _ _ _ h => ?_
    cases h
    simp [slotOf, page6, *]
  case wgres p d a =>
    have hp : p ≠ 0 := of_decide_eq_true hw
    cases h
    refine readFrom_encA (hmp := inField_mP p (by decide)) fun x _ _ _ hm h => ?_
    have hP := Raw.layoutP (Raw.mod_of_mNZ hm) (by decide) hp
    cases h
    simp [slotOf, page6, *]
  case wgcom a r =>
    have ha : a.val < 29 := of_decide_eq_true hw
    cases h
    refine readFrom_encA fun x _ _ _ _ h => ?_
    cases h
    simp [slotOf, page6, *]
  all_goals cases h

@[simp] theorem sysOf_val (n : Fin 26) : sysOf n = n := Fin.ext (Nat.mod_eq_of_lt n.isLt)

/-- The faults of SRD and SWR are none, and the number is read back (R353, R354). -/
theorem Raw.sysF_eq_nil {x : Raw} {d : GReg} {n : Fin 26} (hn : x.composed 5 (x.o % 32) = n) (hm : x.mp = none)
    (h : x.FormB d 0 (BitVec.ofNat 64 n)) (hw : (!sysIsCap n.val || d.val < 16) = true) : x.sysF = [] := by
  cases h
  cases hc : sysIsCap n.val <;> simp_all [sysF]

/-- Page 7: traps, system registers, macros, repeats and supervisor instructions. -/
theorem readFrom_page7 {op : Nat} {e : Enc} {i : Instr} (h : encParts i = some (7, op, e)) (hw : i.wf = true) :
    i.ReadFrom 7 op e := by
  cases i
  case trap v =>
    cases h
    refine readFrom_encCC fun x _ _ hi _ _ ho => ?_
    have hv := x.uimm_formC hi hw
    simp [slotOf, page7, *]
  case brk v =>
    cases h
    refine readFrom_encCC fun x _ _ hi _ _ ho => ?_
    have hv := x.simm_formC hi hw
    simp [slotOf, page7, *]
  case srd d n | swr d n =>
    cases h
    refine readFrom_encB fun x _ _ hi hm _ h => ?_
    have hn := Raw.composed_formB hi (by omega)
    rw [← h.low_eq] at hn
    have hf := Raw.sysF_eq_nil hn hm h hw
    simp [slotOf, page7, h.a_eq, *]
  case mcall num a b c v =>
    cases h
    have hmp : InField (mNZ num.val) := inField_mNZ (by omega)
    refine readFrom_formA (is := immPays0 fitsS v) (his := immPays0_lt) (hmp := hmp) (hm := by split <;> decide)
      fun x _ _ hi hm h => ?_
    have hv := x.simm_immPays0 hi hw
    have hmod := Raw.mod_of_mNZ hm
    cases h
    by_cases hz : v = 0
    · subst hz
      simp_all [slotOf, page7, immPays0, Nat.mod_eq_of_lt]
    · simp_all [slotOf, page7, Nat.mod_eq_of_lt]
  case rep n k =>
    cases h
    refine readFrom_encCC fun x _ _ hi _ _ ho => ?_
    have hv := Raw.composed_formC hi (by omega)
    rw [← ho] at hv
    have hn : BitVec.ofNat 5 (k.toNat * 32 + n.toNat) = n := by bv_omega
    have hk : BitVec.ofNat 32 ((k.toNat * 32 + n.toNat) / 32) = k := by bv_omega
    clear ho
    simp [slotOf, page7, *]
    omega
  case loopp n k =>
    cases h
    refine readFrom_encCC fun x _ _ hi _ _ ho => ?_
    have hv := Raw.composed_formC hi (by omega)
    rw [← ho] at hv
    have hn : BitVec.ofNat 6 (k.toNat * 64 + n.toNat) = n := by bv_omega
    have hk : BitVec.ofNat 32 ((k.toNat * 64 + n.toNat) / 64) = k := by bv_omega
    clear ho
    simp [slotOf, page7, *]
    omega
  case eret | waiti =>
    cases h
    exact readFrom_noR fun x _ _ _ _ _ _ => by simp [slotOf, page7, *]
  case objinv w d r =>
    cases h
    refine readFrom_encA (hm := bN_lt w) fun x _ _ _ _ h => ?_
    cases h
    simp [slotOf, page7, *]
  case mwr d s | mrd d | launch d a b | close d s | ctxsv d a | ctxld d a =>
    cases h
    refine readFrom_encA fun x _ _ _ _ h => ?_
    cases h
    simp [slotOf, page7, *]
  all_goals cases h

/-! ## All pages -/

/-- The decoder of its slot reads an instruction of any page back from its encoding. -/
theorem readFrom_encParts {page op : Nat} {e : Enc} {i : Instr} (h : encParts i = some (page, op, e)) (hw : i.wf = true)
    (hill : ∀ w c, i ≠ .ill w c) (hpage : page < 8) : i.ReadFrom page op e := by
  interval_cases page
  · exact readFrom_page0 h hw hill
  · exact readFrom_page1 h hw
  · exact readFrom_page2 h hw
  · exact readFrom_page3 h hw
  · exact readFrom_page4 h hw
  · exact readFrom_page5 h hw
  · exact readFrom_page6 h hw
  · exact readFrom_page7 h hw

/-- Every instruction but ILL is laid out from its parts. -/
theorem encode_eq {page op : Nat} {e : Enc} {i : Instr} (h : encParts i = some (page, op, e))
    (hill : ∀ w c, i ≠ .ill w c) (stall : BitVec 8) : encode i stall = mkWords page op stall.toNat e := by
  unfold encode
  split
  next w c => exact absurd rfl (hill w c)
  next => rw [h]

/-- Decode of encode is the instruction, on any pages of the map. -/
theorem roundTrips {pages : List Nat} (hpages : ∀ p ∈ pages, p < 8) : Spec.RoundTrips pages := by
  intro i stall page op e h hmem hill henc
  obtain ⟨hw, hfits⟩ := Bool.and_eq_true_iff.1 henc
  obtain ⟨⟨hpg, hop, hslot⟩, hin, hreads⟩ := readFrom_encParts h hw hill (hpages page hmem)
  have hlen : (encode i stall).length ≤ 5 := of_decide_eq_true hfits
  rw [encode_eq h hill] at hlen ⊢
  exact decodeWords_mkWords stall hin hpg hop hslot (fun x hc hp ho => hreads x hp ho hc) hlen

/-- A word of slot 0 of page 0 is ILL with its own bits (R55). -/
theorem decodeWords_encode_ill (code : IWord) (h : opOf code = 0) :
    decodeWords (encode (.ill 0 code) 0) = .ok ⟨.ill 0 code, (code >>> 14).setWidth 8, 1⟩ := by
  have hst : BitVec.ofNat 8 (Raw.stall ⟨[], code⟩) = (code >>> 14).setWidth 8 := by
    apply BitVec.eq_of_toNat_eq
    simp [Raw.stall, Raw.pp, payloadOf, kindOf, Nat.shiftRight_eq_div_pow]
  simp [encode, decodeWords, splitBundle, h, decodeBundle, Raw.isIll, Raw.page, Raw.pp, payloadOf, Raw.nb, hst]

/-- Settles O2: the slot's decoder of each page reads the parts of an encoding back. -/
theorem corePagesRoundTrip : Obligations.CorePagesRoundTrip :=
  ⟨⟨roundTrips (by decide), decodeWords_encode_ill⟩, roundTrips (by decide)⟩

/-- Settles O3, as O2. -/
theorem systemPagesRoundTrip : Obligations.SystemPagesRoundTrip := roundTrips (by decide)

end Sys2Proof
end

section
/-!
PROOFS. ILL, reserved slots and supervisor instructions (R53 to R55), and the step in which a context issues (R33, R54, R157).
-/

namespace Sys2Proof.Machine

open Sys2Proof.Spec

/-! ## Bundles (R33, R36) -/

/-- A bundle has the words seen before it and at most as many PFX words as the chain allows (R36). -/
theorem length_pre_of_splitBundle {n : Nat} {seen ws : List IWord} {x : Raw} (h : splitBundle n seen ws = .ok x) :
    x.pre.length ≤ seen.length + n := by
  induction ws generalizing n seen with
  | nil => cases n <;> simp [splitBundle] at h
  | cons w ws ih =>
    cases n with
    | zero =>
      simp only [splitBundle] at h
      split at h <;> cases h
      simp
    | succ n =>
      simp only [splitBundle] at h
      split at h
      · have := ih h
        simp at this
        omega
      · cases h
        simp

/-- The base word of a bundle is no PFX word (R33). -/
theorem opOf_base_of_splitBundle {n : Nat} {seen ws : List IWord} {x : Raw} (h : splitBundle n seen ws = .ok x) :
    opOf x.base < 31 := by
  have hlt (w : IWord) : opOf w < 32 := Nat.mod_lt _ (by decide)
  induction ws generalizing n seen with
  | nil => cases n <;> simp [splitBundle] at h
  | cons w ws ih =>
    have := hlt w
    cases n with
    | zero =>
      simp only [splitBundle] at h
      split at h <;> cases h
      simp only
      omega
    | succ n =>
      simp only [splitBundle] at h
      split at h
      · exact ih h
      · cases h
        simp only
        omega

/-- A page-0 base word with opcode 0 is ILL, whatever else its bundle holds (R55). -/
theorem decodeWords_ill {ws : List IWord} {x : Raw} (hx : splitBundle 4 [] ws = .ok x) (hp : x.page = 0)
    (ho : opOf x.base = 0) : ∃ b w, decodeWords ws = .ok b ∧ b.instr = .ill w x.base ∧ w.val = x.pre.length := by
  have hill : x.isIll = true := by simp [Raw.isIll, hp, ho]
  have hlen := length_pre_of_splitBundle hx
  have hlt : x.pre.length < 5 := by
    simp only [List.length_nil] at hlen
    omega
  exact ⟨_, _, by simp only [decodeWords, hx, decodeBundle, hill, if_true]; rfl, rfl, Nat.mod_eq_of_lt hlt⟩

/-! ## Reserved slots (R53, R56) -/

theorem page_lt (x : Raw) : x.page < 8 := by
  have hpay (w : IWord) : payOf w < 512 := Nat.mod_lt _ (by decide)
  have hpp : ∀ (l : List IWord), (payloadOf 2 l).getD 0 < 512 := by
    intro l
    induction l with
    | nil => decide
    | cons w ws ih =>
      simp only [payloadOf]
      split
      · exact hpay w
      · exact ih
  have := hpp x.pre
  rw [Raw.page, Raw.pp]
  omega

/-- A reserved slot holds no instruction. -/
theorem slotOf_reserved {x : Raw} (h3 : 3 ≤ x.page) (hr : [31, 31, 31, 14, 18, 12, 8, 15].getD x.page 0 ≤ opOf x.base)
    (ho : opOf x.base < 31) : slotOf x = none := by
  have h8 := page_lt x
  unfold slotOf
  revert h3 hr ho
  generalize opOf x.base = op
  generalize x.page = page at h8
  intro h3 hr ho
  interval_cases page
  all_goals
    simp only [List.getD_cons_succ, List.getD_cons_zero] at hr
    interval_cases op <;> rfl

/-- The reported fault is one of those found. -/
theorem mem_of_worst {l : Faults} {f : Nat × Nat} (h : worst l = some f) : f ∈ l := by
  induction l generalizing f with
  | nil => cases h
  | cons g gs ih =>
    simp only [worst] at h
    split at h
    next => simp_all
    next v hv =>
      split at h <;> cases h
      · exact List.mem_cons_self
      · exact List.mem_cons_of_mem _ (ih hv)

/-- The fault of the least reason is reported (R53). -/
theorem worst_cons_of_lt {f : Nat × Nat} {l : Faults} (h : ∀ g ∈ l, f.1 < g.1) : worst (f :: l) = some f := by
  simp only [worst]
  split
  next => rfl
  next g hg => rw [if_pos (.inl (h g (mem_of_worst hg)))]

/-- Repeated prefixes are faults of reason 1 (R53). -/
theorem reason_of_mem_dupFaults {pre : List IWord} {g : Nat × Nat} (h : g ∈ dupFaults pre) : g.1 = 1 := by
  simp only [dupFaults, List.mem_append] at h
  have hone (k : Nat) (hg : g ∈ dupFault k pre) : g.1 = 1 := by
    unfold dupFault at hg
    split at hg <;> simp_all
  obtain (h | h) | h := h <;> exact hone _ h

/-- A reserved slot is refused with reason 0 at the base word, whatever else is wrong (R53). -/
theorem decodeWords_reserved {ws : List IWord} {x : Raw} (hx : splitBundle 4 [] ws = .ok x) (h3 : 3 ≤ x.page)
    (hr : [31, 31, 31, 14, 18, 12, 8, 15].getD x.page 0 ≤ opOf x.base) :
    decodeWords ws = .error (.illegal 0 x.pre.length x.base) := by
  have hill : x.isIll = false := by
    have : x.page ≠ 0 := by omega
    simp [Raw.isIll, this]
  have hworst : worst ((0, x.pre.length) :: dupFaults x.pre) = some (0, x.pre.length) :=
    worst_cons_of_lt fun g hg => by simp [reason_of_mem_dupFaults hg]
  have hslot := slotOf_reserved h3 hr (opOf_base_of_splitBundle hx)
  simp [decodeWords, hx, decodeBundle, hill, decodeRaw, hslot, hworst, Raw.nb]

/-- A fifth PFX word is trap 0x02, whatever follows (R36). -/
theorem decodeWords_chain {a b c d e : IWord} {rest : List IWord} (h : ∀ w ∈ [a, b, c, d, e], opOf w = 31) :
    decodeWords (a :: b :: c :: d :: e :: rest) = .error (.chain e) := by
  simp only [List.mem_cons, List.not_mem_nil, or_false, forall_eq_or_imp, forall_eq] at h
  obtain ⟨ha, hb, hc, hd, he⟩ := h
  simp [decodeWords, splitBundle, ha, hb, hc, hd, he]

/-! ## A context issues (R33, R54, R157) -/

section Issue

variable {s s2 : State} {core ctx : Nat} {ws : List IWord}

/-- A fetch that fails takes its own trap. -/
theorem issueAt_fetch_error {e : Stop}
    (hd : ({ s with cur := Cur.at_ core ctx, last := smPut s.last core ctx } : State).th.mustDeliver = false)
    (hr : ({ s with cur := Cur.at_ core ctx, last := smPut s.last core ctx } : State).th.run = none)
    (hf : fetchBundle { s with cur := Cur.at_ core ctx, last := smPut s.last core ctx } = .error e s2) :
    s.issueAt core ctx = .next (s2.stopped e) := by
  simp [State.issueAt, hd, hr, hf]

/-- Words that decode are entered as their bundle. -/
theorem issueAt_decoded {b : Bundle}
    (hd : ({ s with cur := Cur.at_ core ctx, last := smPut s.last core ctx } : State).th.mustDeliver = false)
    (hr : ({ s with cur := Cur.at_ core ctx, last := smPut s.last core ctx } : State).th.run = none)
    (hf : fetchBundle { s with cur := Cur.at_ core ctx, last := smPut s.last core ctx } = .ok ws s2)
    (hb : decodeWords ws = .ok b) :
    s.issueAt core ctx = ({ s2 with cur := Cur.ofBundle core ctx b (ws.getLastD 0) } : State).enter b.instr := by
  simp [State.issueAt, hd, hr, hf, hb]

/-- Words that do not decode take their trap. -/
theorem issueAt_misdecoded {e : DecFault}
    (hd : ({ s with cur := Cur.at_ core ctx, last := smPut s.last core ctx } : State).th.mustDeliver = false)
    (hr : ({ s with cur := Cur.at_ core ctx, last := smPut s.last core ctx } : State).th.run = none)
    (hf : fetchBundle { s with cur := Cur.at_ core ctx, last := smPut s.last core ctx } = .ok ws s2)
    (he : decodeWords ws = .error e) :
    s.issueAt core ctx = .next (({ s2 with cur := Cur.ofWords core ctx ws } : State).misdecode ws e) := by
  simp [State.issueAt, hd, hr, hf, he]

/-- A bundle that nothing before R45 stops executes at the thread with its results settled where no read is early (R54). -/
theorem enter_executes {i : Instr} (h : Unstopped s i) (hearly : s.th.earlyTrap (s.th.reads i) = none) :
    s.enter i = exec i (s.settled i) := by
  obtain ⟨hret, hlegal, hbreak⟩ := h
  simp [State.enter, hret, hlegal, hbreak, hearly]

/-- A bundle that nothing before R45 stops takes the trap of its early read (R54). -/
theorem enter_traps {i : Instr} {tval : Word} (h : Unstopped s i) (hearly : s.th.earlyTrap (s.th.reads i) = some tval) :
    s.enter i = .next (s.stopped (.trap 0x03 tval)) := by
  obtain ⟨hret, hlegal, hbreak⟩ := h
  simp [State.enter, hret, hlegal, hbreak, hearly, State.trapsAt]

/-- What only the encoding makes illegal is reported as the decoder found it (R53). -/
theorem misdecoded_of_legal {e : DecFault} (h : ∀ x, splitBundle 4 [] ws = .ok x → s.legal (decodeRaw x).2 = none) :
    s.misdecoded ws e = tvalDec e := by
  unfold State.misdecoded
  split
  next x r w code hx => simp [h x hx]
  next => rfl

/-- The smaller of the reasons that the encoding and the state give is reported (R53). -/
theorem misdecoded_of_illegal {x : Raw} {r w : Nat} {code : IWord} {v : Word} (hx : splitBundle 4 [] ws = .ok x)
    (h : s.legal (decodeRaw x).2 = some (1, v)) :
    (fieldW 23 20 v < r → s.misdecoded ws (.illegal r w code) = (1, v)) ∧
      (r < fieldW 23 20 v → s.misdecoded ws (.illegal r w code) = tvalDec (.illegal r w code)) := by
  constructor <;> intro hlt
  · simp [State.misdecoded, hx, h, hlt]
  · have h1 : ¬fieldW 23 20 v < r := by omega
    have h2 : fieldW 23 20 v ≠ r := by omega
    simp [State.misdecoded, hx, h, h1, h2]

/-- The schedule's first turn is taken and removed (R157). -/
theorem nextTurn_cons {turn : Turn} {rest : List Turn} (h : s.sched = turn :: rest) :
    s.nextTurn = (some turn, { s with sched := rest }) := by
  simp [State.nextTurn, h]

/-- A running context issues when its turn comes. -/
theorem doTurn_issue (hb : s.boot = .running) (hr : (s.thread (tidOf core ctx)).status = .running) :
    s.doTurn (.issue core ctx) = s.issueAt core ctx := by
  simp [State.doTurn, hb, Thread.ready, hr]

/-- A turn in which a running context issues (R157). -/
theorem step_issue {rest : List Turn} (hb : s.boot = .running) (hs : s.sched = .issue core ctx :: rest)
    (hr : (s.thread (tidOf core ctx)).status = .running) :
    step s = settleAll (({ s with clock := s.clock + 1, sched := rest } : State).issueAt core ctx) := by
  simp only [step, State.turn, nextTurn_cons (s := { s with clock := s.clock + 1 }) hs]
  exact congrArg settleAll (doTurn_issue (s := { s with clock := s.clock + 1, sched := rest }) hb hr)

end Issue

/-- Settles O4: the turn issues, and the words fetched are entered, misdecoded or stopped. -/
theorem stepRunsDecoded : Obligations.StepRunsDecoded := by
  intro s core ctx rest s1 hb hs hr hd hrun
  rw [step_issue hb hs hr]
  let s0 : State := { s with clock := s.clock + 1, sched := rest }
  refine ⟨fun ws s2 hf => ⟨?_, ?_⟩, ?_⟩
  · intro b hdec s3 hret hlegal hbreak hearly
    rw [issueAt_decoded (s := s0) hd hrun hf hdec, enter_executes ⟨Option.isNone_iff_eq_none.1 (by simpa using hret), hlegal, hbreak⟩ hearly]
  · intro e he s3
    refine ⟨_, _, by rw [issueAt_misdecoded (s := s0) hd hrun hf he]; rfl, misdecoded_of_legal, ?_⟩
    rintro x r w code v hx rfl hl
    exact misdecoded_of_illegal hx hl
  · intro e s2 hf
    rw [issueAt_fetch_error (s := s0) hd hrun hf]

/-! ## Supervisor instructions (R55) -/

/-- A meaning that checks its lawfulness first takes the trap of what is not lawful. -/
theorem run_lawful_trap {f : State → Illegal} {body : M Unit} {s : State} {cause : Nat} {tval : Word}
    (h : f s = some (cause, tval)) : run (lawful f >>= fun _ => body) s = .next (s.stopped (.trap cause tval)) := by
  refine run_error (bind_error ?_)
  rw [lawful, bind_ok (get_run s), h]
  rfl

/-- The reason that a TVAL of trap 0x01 holds (R53). -/
theorem fieldW_bad (c : Cur) (reason : Nat) (h : reason < 16) : fieldW 63 20 (c.bad reason) = reason := by
  have := c.base.isLt
  simp only [fieldW, bitsOf, Cur.bad, BitVec.toNat_ofNat]
  omega

/-- Supervisor instructions in user code take trap 0x01 with reason 6. -/
theorem supervisorInstructionsTrap : Spec.SupervisorInstructionsTrapInUserCode := by
  intro s whole a b c d hs i hi
  have hill : s.supIllegal = some (1, s.cur.bad 6) := by
    simp only [State.supIllegal, Thread.sup, bitW, hs]
    rfl
  refine ⟨s.cur.bad 6, fieldW_bad s.cur 6 (by decide), ?_⟩
  simp only [supervisor, List.mem_cons, List.not_mem_nil, or_false] at hi
  obtain rfl | rfl | rfl | rfl | rfl | rfl | rfl | rfl | rfl | rfl := hi <;> exact run_lawful_trap hill

/-- Settles O6: the checks that stand before the slot's own, and the first check of each supervisor instruction. -/
theorem illegalInstructions : Obligations.IllegalInstructions :=
  ⟨⟨fun _ _ => decodeWords_ill, fun _ _ => decodeWords_reserved, fun n c => by simp [tvalDec],
    fun _ _ _ _ _ _ => decodeWords_chain, fun _ _ _ _ _ => issueAt_fetch_error⟩, supervisorInstructionsTrap⟩

/-- Settles O1: the decoder run on each of the eleven bundles. -/
theorem wordsDecode : Obligations.WordsDecode := by
  unfold Obligations.WordsDecode
  decide

end Sys2Proof.Machine
end

section
/-!
PROOFS. Fetching a word of code (R33, R82, R122, R182): the checks, the cached line, or the home.
-/

namespace Sys2Proof.Machine

/-! ## Words in bytes -/

/-- A byte of a read of memory. -/
theorem getElem?_memBytes (m : List Host.Cell) (a n k : Nat) (h : k < n) : (memBytes m a n)[k]? = some (memByte m (a + k)) := by
  induction n generalizing a k with
  | zero => omega
  | succ n ih =>
    cases k with
    | zero => simp [memBytes]
    | succ k => simp [memBytes, ih (a + 1) k (by omega), Nat.add_assoc, Nat.add_comm 1]

/-- A word of a line is two bytes, low byte first (R33). -/
theorem lineWord_eq {b : List Byte} {o : Nat} (hlen : b.length = 64) (ho : o % 2 = 0) :
    lineWord b o = b.getD (o % 64 + 1) 0 ++ b.getD (o % 64) 0 := by
  have h0 : o % 64 < b.length := by omega
  have h1 : o % 64 + 1 < b.length := by omega
  have hdrop : (b.drop (o % 64)).take 2 = [b[o % 64], b[o % 64 + 1]] := by
    rw [List.drop_eq_getElem_cons h0, List.drop_eq_getElem_cons h1]
    rfl
  rw [lineWord, hdrop, List.getD_eq_getElem _ _ h0, List.getD_eq_getElem _ _ h1]
  apply BitVec.eq_of_toNat_eq
  rw [BitVec.toNat_append, ← Nat.shiftLeft_add_eq_or_of_lt (BitVec.isLt _)]
  have := b[o % 64].isLt
  have := b[o % 64 + 1].isLt
  simp only [leNat, BitVec.toNat_ofNat, Nat.shiftLeft_eq]
  omega

/-- A word of a line that is read from memory. -/
theorem lineWord_memBytes (m : List Host.Cell) {a o : Nat} (ho : o % 2 = 0) (ha : o % 64 ≤ a) :
    lineWord (memBytes m (a - o % 64) 64) o = memByte m (a + 1) ++ memByte m a := by
  have hb (k : Nat) (hk : o % 64 + k < 64) : (memBytes m (a - o % 64) 64).getD (o % 64 + k) 0 = memByte m (a + k) := by
    rw [List.getD_eq_getElem?_getD, getElem?_memBytes _ _ _ _ hk, Option.getD_some]
    congr 1
    omega
  have h0 : (memBytes m (a - o % 64) 64).getD (o % 64) 0 = memByte m a := hb 0 (by omega)
  rw [lineWord_eq (length_memBytes ..) ho, hb 1 (by omega), h0]

/-! ## The checks of a fetch (R82) -/

/-- Code is executable exactly where bit 5 of PCC's rights is set (R83). -/
theorem missing_rX_eq_zero_iff (c : Cap) : missing rX (capRights c) = 0 ↔ c.w1.getLsbD 5 = true := by
  have hbit : (capRights c).testBit 5 = c.w1.getLsbD 5 := by
    simp [capRights, fieldW, bitsOf, BitVec.getLsbD, Nat.testBit_mod_two_pow (j := 8)]
  have hnot : (255 ^^^ capRights c).testBit 5 = !c.w1.getLsbD 5 := by
    rw [Nat.testBit_xor, hbit, show Nat.testBit 255 5 = true from rfl, Bool.true_xor]
  rw [missing, show rX = 2 ^ 5 from rfl, Nat.two_pow_and, hnot]
  cases c.w1.getLsbD 5 <;> simp

section Fetch

variable {s s1 : State} {i o : Nat}

theorem fetchTrap_run {α : Type} (cause o : Nat) (s : State) :
    (fetchTrap cause o : M α) s = .error (.trap cause (BitVec.ofNat 64 o)) s := rfl

theorem fetchWord_untagged (htag : s.th.pcc.tag = false) :
    fetchWord i s = .error (.trap 0x04 (BitVec.ofNat 64 (s.th.wordAt i))) s := by
  rw [fetchWord, bind_ok (get_run s)]
  simp [htag, fetchTrap_run]

theorem fetchWord_unexecutable (htag : s.th.pcc.tag = true) (hx : s.th.pcc.w1.getLsbD 5 = false) :
    fetchWord i s = .error (.trap 0x06 (BitVec.ofNat 64 (s.th.wordAt i))) s := by
  have hmiss : missing rX (capRights s.th.pcc) ≠ 0 := by
    rw [Ne, missing_rX_eq_zero_iff, hx]
    decide
  rw [fetchWord, bind_ok (get_run s)]
  simp [htag, hmiss, fetchTrap_run]

theorem fetchWord_outOfBounds (htag : s.th.pcc.tag = true) (hx : s.th.pcc.w1.getLsbD 5 = true)
    (hout : s.th.wordAt i < capBase s.th.pcc ∨ capTop s.th.pcc < (s.th.wordAt i + 2 : Nat)) :
    fetchWord i s = .error (.trap 0x05 (BitVec.ofNat 64 (s.th.wordAt i))) s := by
  push_cast at hout
  rw [fetchWord, bind_ok (get_run s)]
  simp [htag, (missing_rX_eq_zero_iff _).2 hx, hout, fetchTrap_run]

/-- A word of code, past the checks and outside a loop body, comes through the instruction cache. -/
theorem fetchWord_eq_codeWord (htag : s.th.pcc.tag = true) (hx : s.th.pcc.w1.getLsbD 5 = true)
    (hlo : capBase s.th.pcc ≤ s.th.wordAt i) (hhi : (s.th.wordAt i + 2 : Nat) ≤ capTop s.th.pcc)
    (hbody : s.bodyOf s.th = none) : fetchWord i s = codeWord (s.th.wordAt i) (s.beganAt s.th) s := by
  have hin : ¬(s.th.wordAt i < capBase s.th.pcc ∨ s.th.wordAt i + 2 > capTop s.th.pcc) := by
    push_cast at hhi
    omega
  rw [fetchWord, bind_ok (get_run s)]
  simp [htag, (missing_rX_eq_zero_iff _).2 hx, hin, hbody]

/-- A cached line gives the word, unless its granule is poison. -/
theorem codeWord_cached {since a : Nat} {e : TlbEntry} {l : CodeLine} (hhome : codeHome o s = .ok (a, e) s1)
    (hl : s.codeLine (coreCluster s.cur.core) (capObj s.th.pcc) o since = some l) :
    codeWord o since s = if l.poison.contains (lineGranule o) then fetchTrap 0x0F o s1 else .ok (lineWord l.bytes o) s1 := by
  rw [codeWord, bind_ok (get_run s)]
  simp only
  rw [bind_ok hhome]
  simp only [hl]
  split <;> rfl

/-- Poison at a word's home is trap 0x0F. -/
theorem codeWord_poison {since a : Nat} {e : TlbEntry} (hhome : codeHome o s = .ok (a, e) s1)
    (hl : s.codeLine (coreCluster s.cur.core) (capObj s.th.pcc) o since = none) (hp : s1.poisoned a 2 = true) :
    codeWord o since s = fetchTrap 0x0F o s1 := by
  rw [codeWord, bind_ok (get_run s)]
  simp only
  rw [bind_ok hhome]
  simp only [hl]
  rw [bind_ok (get_run s1)]
  simp [hp]

/-- A word that no line holds comes from its home, and its line is kept where it holds no poison. -/
theorem codeWord_home {since a : Nat} {e : TlbEntry} (hhome : codeHome o s = .ok (a, e) s1)
    (hl : s.codeLine (coreCluster s.cur.core) (capObj s.th.pcc) o since = none) (hp : s1.poisoned a 2 = false)
    (hf : isForeign a = false) :
    ∃ s2, codeWord o since s = .ok (lineWord (memBytes s1.mem (a - o % 64) 64) o) s2 ∧ s2.mem = s1.mem := by
  have hlo : isForeign (a - o % 64) = false := by
    simp only [isForeign, decide_eq_false_iff_not] at hf ⊢
    omega
  rw [codeWord, bind_ok (get_run s)]
  simp only
  rw [bind_ok hhome]
  simp only [hl]
  rw [bind_ok (get_run s1)]
  simp only [hp, Bool.false_eq_true, if_false]
  rw [bind_ok (runS_run _ s1)]
  simp only [State.homeRead, hlo, Bool.false_eq_true, if_false]
  cases s1.poisoned (a - o % 64) 64
  · exact ⟨_, rfl, rfl⟩
  · exact ⟨_, rfl, rfl⟩

/-- A cached line that serves a launch was filled no earlier than the launch began (R122). -/
theorem made_of_codeLine {cluster obj began : Nat} {l : CodeLine} (h : s.codeLine cluster obj o began = some l) :
    began ≤ l.made := by
  have := List.find?_some h
  simp only [Bool.and_eq_true, decide_eq_true_eq] at this
  exact this.2

end Fetch

/-- Settles O5: the checks in order, then the word of the cached line, or of the home where no line holds it. -/
theorem fetchReadsCode : Obligations.FetchReadsCode := by
  intro s s1 i a e t o x
  have ho : o % 2 = 0 := by omega
  refine ⟨fetchWord_untagged, fetchWord_unexecutable, fetchWord_outOfBounds, fun htag hx hlo hhi hbody hhome => ?_⟩
  rw [show fetchWord i s = codeWord o (s.beganAt t) s from fetchWord_eq_codeWord htag hx hlo hhi hbody]
  refine ⟨fun l hl => ⟨made_of_codeLine hl, fun hp => ?_, fun hp hlen => ?_⟩, fun hl => ⟨fun hp => ?_, fun hp hf ha => ?_⟩⟩
  · rw [codeWord_cached (since := s.beganAt t) hhome hl, if_pos (by simpa [lineGranule] using hp)]
    rfl
  · rw [codeWord_cached (since := s.beganAt t) hhome hl, if_neg (by simpa [lineGranule] using hp), lineWord_eq hlen ho]
  · exact codeWord_poison hhome hl hp
  · rw [← lineWord_memBytes s1.mem ho ha]
    exact codeWord_home hhome hl hp hf

end Sys2Proof.Machine
end

section
/-!
PROOFS. What registers read and what writes leave (R38, R42 to R44, R372).
-/

namespace Sys2Proof.Machine

open Sys2Proof.Spec

/-! ## Register files -/

/-- Whether a write is discarded depends on its register alone (R38). -/
theorem dead_congr {w w' : RegWrite} (h : w.reg = w'.reg) : w.dead = w'.dead := by
  cases w <;> cases w' <;> simp_all [RegWrite.reg, RegWrite.dead]

/-- A register reads what was written to it last. -/
theorem held_commit_self (t : Thread) (w : RegWrite) (h : w.dead = false) : held (t.commit w) w.reg = w := by
  cases w <;> simp_all [held, Thread.commit, RegWrite.reg, RegWrite.dead, Thread.rg, Thread.rc, Thread.rp, Thread.rv, Thread.rm]

/-- A write to another register of a file, or to its register 0, leaves what a register of a file with a constant register 0 reads. -/
theorem readConst_smPut_other {α : Type} {n : Nat} [NeZero n] (c d x : α) (m : SMap α) (i j : Fin n) (h : i ≠ j ∨ i = 0) :
    (if j = 0 then c else smGet d (smPut m i x) j) = if j = 0 then c else smGet d m j := by
  by_cases hj : j = 0
  · simp [hj]
  · have hij : j.val ≠ i.val := by
      intro hv
      obtain rfl := Fin.ext hv
      simp_all
    rw [if_neg hj, if_neg hj, smGet_smPut_other d m i j x hij]

/-- A write to another register, or one that is discarded, leaves what a register reads. -/
theorem held_commit_other (t : Thread) (w : RegWrite) (r : Reg) (h : w.reg ≠ r ∨ w.dead = true) :
    held (t.commit w) r = held t r := by
  cases w with
  | g i x =>
    cases r with
    | g j => exact congrArg _ (readConst_smPut_other _ _ x t.g i j (by simpa [RegWrite.reg, RegWrite.dead] using h))
    | _ => rfl
  | c i x =>
    cases r with
    | c j => exact congrArg _ (readConst_smPut_other _ _ x t.c i j (by simpa [RegWrite.reg, RegWrite.dead] using h))
    | _ => rfl
  | p i x =>
    cases r with
    | p j => exact congrArg _ (readConst_smPut_other _ _ x t.p i j (by simpa [RegWrite.reg, RegWrite.dead] using h))
    | _ => rfl
  | v i x =>
    cases r with
    | v j =>
      have hij : i ≠ j := by simpa [RegWrite.reg, RegWrite.dead] using h
      exact congrArg _ (smGet_smPut_other 0 t.v i j x fun hv => hij (Fin.ext hv.symm))
    | _ => rfl
  | m i x =>
    cases r with
    | m j => exact congrArg _ (readConst_smPut_other _ _ x t.m i j (by simpa [RegWrite.reg, RegWrite.dead] using h))
    | _ => rfl

/-! ## Results on their way (R43, R44) -/

/-- The last of a list of results with one more in front: that one where no later one counts. -/
theorem latest_cons (e : Pend) (l : List Pend) (n : Nat) (r : Reg) :
    latest (e :: l) n r =
      if e.w.reg = r ∧ e.w.dead = false ∧ e.visible n [] = true then some ((latest l n r).getD e.w) else latest l n r := by
  have hv : (∃ d, e.due = some d ∧ d ≤ n) ↔ e.visible n [] = true := by
    unfold Pend.visible
    cases e.due <;> simp
  by_cases hc : e.w.reg = r ∧ e.w.dead = false ∧ e.visible n [] = true
  · rw [if_pos hc]
    simp only [latest]
    rw [List.filter_cons_of_pos (by simpa [hv] using hc), List.map_cons, List.getLast?_cons]
  · rw [if_neg hc]
    simp only [latest]
    rw [List.filter_cons_of_neg (by simpa [hv] using hc)]

/-- Writing the results that are due leaves in each register the last of its own (R43). -/
theorem held_foldl_commit (l : List Pend) (t : Thread) (n : Nat) (r : Reg) :
    held ((l.filter (·.visible n [])).foldl (fun t e => t.commit e.w) t) r = (latest l n r).getD (held t r) := by
  induction l generalizing t with
  | nil => rfl
  | cons e l ih =>
    rw [latest_cons]
    by_cases hv : e.visible n [] = true
    · rw [List.filter_cons_of_pos hv, List.foldl_cons, ih]
      by_cases hr : e.w.reg = r ∧ e.w.dead = false
      · obtain ⟨rfl, hd⟩ := hr
        simp [hd, hv, held_commit_self]
      · rw [held_commit_other _ _ _ (by simpa [or_iff_not_imp_left] using hr), if_neg (by tauto)]
    · rw [List.filter_cons_of_neg hv, ih, if_neg (by tauto)]

/-- Where no result of a register is due there is no latest one. -/
theorem latest_eq_none (l : List Pend) (n : Nat) (r : Reg) (h : ∀ e ∈ l, e.w.reg = r → e.visible n [] = false) :
    latest l n r = none := by
  induction l with
  | nil => rfl
  | cons e l ih =>
    rw [latest_cons, ih fun x hx => h x (List.mem_cons_of_mem _ hx), if_neg]
    rintro ⟨hr, -, hv⟩
    simp [h e List.mem_cons_self hr] at hv

/-- Where a result of a register that keeps its writes is due there is a latest one. -/
theorem latest_isSome (l : List Pend) (n : Nat) (x : Pend) (hx : x ∈ l) (hd : x.w.dead = false) (hv : x.visible n [] = true) :
    (latest l n x.w.reg).isSome = true := by
  induction l with
  | nil => simp at hx
  | cons e l ih =>
    rw [latest_cons]
    split
    next => rfl
    next hne =>
      obtain rfl | hx := List.mem_cons.1 hx
      · exact absurd ⟨rfl, hd, hv⟩ hne
      · exact ih hx

/-- A result that is due stays due. -/
theorem visible_mono (e : Pend) {n n' : Nat} (h : n ≤ n') (hv : e.visible n [] = true) : e.visible n' [] = true := by
  unfold Pend.visible at hv ⊢
  cases hd : e.due <;> simp_all
  omega

/-- What is due by a later time is what was due before, under what stays pending and is due by then (R43). -/
theorem latest_stillPending (l : List Pend) {n n' : Nat} (h : n ≤ n') (r : Reg) :
    ((latest (stillPending n [] l) n' r).or (latest l n r)) = latest l n' r := by
  induction l with
  | nil => rfl
  | cons e l ih =>
    have hstill : latest (stillPending n [] (e :: l)) n' r =
        if e.visible n [] || l.any (fun x => x.w.reg = e.w.reg && x.visible n []) then latest (stillPending n [] l) n' r
        else latest (e :: stillPending n [] l) n' r := by
      simp only [stillPending]
      split <;> rfl
    rw [hstill]
    by_cases hr : e.w.reg = r ∧ e.w.dead = false
    · obtain ⟨rfl, hd⟩ := hr
      simp only [latest_cons, hd, true_and]
      by_cases hv : e.visible n [] = true
      · simp only [hv, visible_mono e h hv, Bool.true_or, if_true, ← ih]
        cases latest (stillPending n [] l) n' e.w.reg <;> simp
      · by_cases hs : l.any (fun x => x.w.reg = e.w.reg && x.visible n []) = true
        · obtain ⟨x, hx, hxv⟩ := List.any_eq_true.1 hs
          simp only [Bool.and_eq_true, decide_eq_true_eq] at hxv
          obtain ⟨hxr, hxv⟩ := hxv
          obtain ⟨w, hw⟩ := Option.isSome_iff_exists.1 (hxr ▸ latest_isSome l n x hx (dead_congr hxr ▸ hd) hxv)
          simp only [hv, hs, Bool.or_true, if_true, if_false, Bool.false_eq_true, ← ih, hw]
          cases latest (stillPending n [] l) n' e.w.reg <;> simp
        · have hnone : latest l n e.w.reg = none :=
            latest_eq_none l n e.w.reg fun x hx hxr => by
              simp only [List.any_eq_true, not_exists, not_and, Bool.and_eq_true, decide_eq_true_eq] at hs
              simpa using hs x hx hxr
          simp only [hv, hs, hnone, Option.or_none, ← ih, Bool.false_eq_true, Bool.or_self, if_false]
    · simp only [latest_cons, show ∀ p : Prop, ¬(e.w.reg = r ∧ e.w.dead = false ∧ p) by tauto, if_false, ite_self, ih]

/-- Settling at a time leaves what a register reads of it: its latest result due by then, else the value held before (R43). -/
theorem held_settle (t : Thread) (r : Reg) : held (t.settle []) r = (latest t.pend t.nt r).getD (held t r) := by
  rw [Thread.settle, held_foldl_commit]
  cases r <;> rfl

/-- Writing results leaves what each single write leaves. -/
theorem foldl_commit_keeps {α : Type} (f : Thread → α) (hf : ∀ t w, f (t.commit w) = f t) (l : List Pend) (t : Thread) :
    f (l.foldl (fun t e => t.commit e.w) t) = f t := by
  induction l generalizing t with
  | nil => rfl
  | cons e l ih => rw [List.foldl_cons, ih, hf]

theorem settle_pend (t : Thread) (reads : List Reg) : (t.settle reads).pend = stillPending t.nt reads t.pend :=
  foldl_commit_keeps _ commit_pend _ _

theorem settle_nt (t : Thread) (reads : List Reg) : (t.settle reads).nt = t.nt :=
  foldl_commit_keeps _ commit_nt _ _

/-- What a register holds does not depend on the time. -/
theorem held_withNt (t : Thread) (n : Nat) (r : Reg) : held { t with nt := n } r = held t r := by
  cases r <;> rfl

/-- What a bundle reads is its register's latest producer due by then, at every time (R43). -/
theorem latestProducerRead : LatestProducerRead := by
  intro t r
  refine ⟨held_settle t r, fun n hn => ?_⟩
  rw [held_settle, held_withNt, held_settle, settle_pend, ← latest_stillPending t.pend hn r]
  cases latest (stillPending t.nt [] t.pend) n r <;> rfl

/-- What stays pending was pending, and the bundle does not see it. -/
theorem of_mem_stillPending {nt : Nat} {reads : List Reg} {l : List Pend} {e : Pend} (h : e ∈ stillPending nt reads l) :
    e ∈ l ∧ e.visible nt reads = false := by
  induction l with
  | nil => simp [stillPending] at h
  | cons x l ih =>
    simp only [stillPending] at h
    split at h
    next => exact ⟨List.mem_cons_of_mem _ (ih h).1, (ih h).2⟩
    next hx =>
      obtain rfl | h := List.mem_cons.1 h
      · simp only [Bool.or_eq_true, not_or, Bool.not_eq_true] at hx
        exact ⟨List.mem_cons_self, hx.1⟩
      · exact ⟨List.mem_cons_of_mem _ (ih h).1, (ih h).2⟩

/-- A bundle that names a register sees every result for it but those that are not due (R44). -/
theorem due_of_mem_settle {t : Thread} {reads : List Reg} {e : Pend} (he : e ∈ (t.settle reads).pend) (hr : e.w.reg ∈ reads) :
    ∃ d, e.due = some d ∧ t.nt < d := by
  rw [settle_pend] at he
  have hv := (of_mem_stillPending he).2
  unfold Pend.visible at hv
  cases hd : e.due with
  | none => simp [hd, hr] at hv
  | some d => exact ⟨d, rfl, by simpa [hd] using hv⟩

/-! ## Register 0 and precise results (R38, R372) -/

/-- Register 0 of a constant file reads its constant. -/
theorem registerZeroReads : RegisterZeroReads := by
  refine fun t => ⟨rfl, rfl, rfl, fun i hi => ?_, rfl⟩
  show (0xFFFF : Mask).getLsbD i = true
  interval_cases i <;> rfl

/-- An instruction whose results are all discarded leaves none on its way. -/
theorem gives_nil_of_dead {i : Instr} {s : State} {lat : Option Nat} {ws : List RegWrite} (h : Gives i s lat ws)
    (hd : ∀ w ∈ ws, w.dead = true) : Gives i s lat [] := by
  have hnil : (ws.filter fun w => !w.dead) = [] := by
    simpa using hd
  simpa [Gives, Spec.Joined, hnil] using h

/-- The results of the instructions named are of register 0. -/
theorem registerZeroWritesDiscarded : RegisterZeroWritesDiscarded := by
  intro s x y cx v mx
  refine ⟨gives_nil_of_dead (gives_of_produce (show exec _ s = execAdd 0 x y s from rfl) rfl) ?_,
    gives_nil_of_dead (gives_of_produce (show exec _ s = execMovi 0 v s from rfl) rfl) ?_,
    gives_nil_of_dead (gives_of_produce (show exec _ s = execDiv false 0 x y s from rfl) rfl) ?_,
    gives_nil_of_dead (gives_of_produce (show exec _ s = execMovCap 0 cx s from rfl) rfl) ?_,
    gives_nil_of_dead (gives_of_produce (show exec _ s = execCadd 0 cx (.imm v) s from rfl) rfl) ?_,
    gives_nil_of_dead (gives_of_produce (show exec _ s = execCmp .eq .i64 0 x y s from rfl) rfl) ?_,
    gives_nil_of_dead (gives_of_produce (show exec _ s = execVmask 0 (.mov 0 mx) ⟨0, false⟩ s from rfl) rfl) ?_⟩
  all_goals simp [RegWrite.dead, maskWrite]

/-- A precise result is read at once and supersedes the older ones of its register (R372). -/
theorem preciseResultsAtOnce : PreciseResultsAtOnce := by
  refine fun t w => ⟨fun hd => by simp [Thread.now, hd], fun hd => ?_⟩
  have hnow : t.now w = ({ t with pend := t.pend.filter fun e => e.w.reg ≠ w.reg } : Thread).commit w := by
    simp [Thread.now, hd]
  rw [hnow]
  refine ⟨held_commit_self _ w hd, fun e he => ?_, fun r hr => ?_⟩
  · simpa using he
  · rw [held_commit_other _ w r (.inl (Ne.symm hr))]
    cases r <;> rfl

/-- Settles O19: register files, the results a bundle sees, and results that are there at once. -/
theorem registersReadAndWritten : Obligations.RegistersReadAndWritten :=
  ⟨registerZeroReads, registerZeroWritesDiscarded, latestProducerRead, preciseResultsAtOnce,
    fun _ _ _ hr _ he her => due_of_mem_settle he (her ▸ hr)⟩

end Sys2Proof.Machine
end

section
/-!
PROOFS. The early read of R45, and what its trap enters (R355).
-/

namespace Sys2Proof.Machine

open Sys2Proof.Spec

/-! ## The latest producers (R43) -/

/-- The results that no later one of their register supersedes. -/
theorem mem_latestPending {l : List Pend} {e : Pend} :
    e ∈ latestPending l ↔ ∃ before after, l = before ++ e :: after ∧ ∀ x ∈ after, x.w.reg ≠ e.w.reg := by
  induction l with
  | nil => simp [latestPending]
  | cons y l ih =>
    have hstep : e ∈ latestPending (y :: l) ↔ (e = y ∧ ∀ x ∈ l, x.w.reg ≠ y.w.reg) ∨ e ∈ latestPending l := by
      simp only [latestPending]
      split
      next h =>
        simp only [List.any_eq_true, decide_eq_true_eq] at h
        obtain ⟨x, hx, hxr⟩ := h
        exact ⟨.inr, fun h => h.resolve_left fun ⟨_, hall⟩ => hall x hx hxr⟩
      next h =>
        simp only [List.any_eq_true, decide_eq_true_eq, not_exists, not_and] at h
        simp only [List.mem_cons]
        exact ⟨fun he => he.imp_left fun he => ⟨he, h⟩, fun he => he.imp_left (·.1)⟩
    rw [hstep, ih]
    constructor
    · rintro (⟨rfl, h⟩ | ⟨before, after, rfl, h⟩)
      · exact ⟨[], l, rfl, h⟩
      · exact ⟨y :: before, after, rfl, h⟩
    · rintro ⟨before, after, hl, h⟩
      cases before with
      | nil =>
        obtain ⟨rfl, rfl⟩ := List.cons.inj hl
        exact .inl ⟨rfl, h⟩
      | cons z before =>
        obtain ⟨rfl, rfl⟩ := List.cons.inj hl
        exact .inr ⟨before, after, rfl, h⟩

/-- A read of a settled thread is early (R45): the latest producer of its register is due at a later time. -/
def EarlyRead (t : Thread) (reads : List Reg) (e : Pend) (d : Nat) : Prop :=
  e.due = some d ∧ e.w.reg ∈ reads ∧ ∃ before after, t.pend = before ++ e :: after ∧ ∀ x ∈ after, x.w.reg ≠ e.w.reg

/-- The early reads of the model are those of R45, each with its shortfall. -/
theorem mem_early {t : Thread} {reads : List Reg} {x : Nat × Nat × Nat} :
    x ∈ t.early reads ↔ ∃ e d, EarlyRead t reads e d ∧ x = (d - t.nt, e.w.reg.key) := by
  simp only [Thread.early, List.mem_filterMap, mem_latestPending, EarlyRead]
  constructor
  · rintro ⟨e, hlast, he⟩
    split at he
    next d hd =>
      split at he <;> simp_all
      exact ⟨e, d, ⟨hd, by assumption, hlast⟩, he.symm⟩
    next => cases he
  · rintro ⟨e, d, ⟨hd, hr, hlast⟩, rfl⟩
    exact ⟨e, hlast, by simp [hd, hr]⟩

/-- A result that an early read waits for is due after the bundle's nominal time. -/
theorem EarlyRead.nt_lt {t : Thread} {reads : List Reg} {e : Pend} {d : Nat} (h : EarlyRead (t.settle reads) reads e d) :
    (t.settle reads).nt < d := by
  obtain ⟨hd, hr, before, after, hl, -⟩ := h
  obtain ⟨d', hd', hlt⟩ := due_of_mem_settle (t := t) (by rw [hl]; simp) hr
  obtain rfl := Option.some.inj (hd.symm.trans hd')
  rwa [settle_nt]

/-! ## The read that is reported (R45) -/

/-- The first of two early reads has the greater shortfall, then the lower file, then the lower number. -/
def Outranks (a b : Nat × Nat × Nat) : Bool :=
  a.1 > b.1 || (a.1 = b.1 && (a.2.1 < b.2.1 || (a.2.1 = b.2.1 && a.2.2 < b.2.2)))

/-- The early read that is reported of two. -/
def outranking (a b : Nat × Nat × Nat) : Nat × Nat × Nat := if Outranks b a then b else a

theorem earlyTval_cons (e : Nat × Nat × Nat) (l : List (Nat × Nat × Nat)) :
    earlyTval (e :: l) =
      some (BitVec.ofNat 64 ((l.foldl outranking e).1 * 2 ^ 16 + (l.foldl outranking e).2.1 * 2 ^ 8 + (l.foldl outranking e).2.2)) :=
  rfl

theorem outranks_trans {a b c : Nat × Nat × Nat} (hab : Outranks b a = false) (hbc : Outranks c b = false) :
    Outranks c a = false := by
  simp only [Outranks, Bool.or_eq_false_iff, Bool.and_eq_false_iff, decide_eq_false_iff_not] at *
  omega

theorem outranks_irrefl (a : Nat × Nat × Nat) : Outranks a a = false := by
  simp [Outranks]

/-- Of two early reads, neither outranks the reported one. -/
theorem outranking_le (a b : Nat × Nat × Nat) : Outranks a (outranking a b) = false ∧ Outranks b (outranking a b) = false := by
  unfold outranking
  split
  next h =>
    refine ⟨?_, outranks_irrefl b⟩
    simp only [Outranks, Bool.or_eq_true, Bool.and_eq_true, decide_eq_true_eq, Bool.or_eq_false_iff, Bool.and_eq_false_iff,
      decide_eq_false_iff_not] at *
    omega
  next h => exact ⟨outranks_irrefl a, by simpa using h⟩

/-- The reported read is one of the early ones, and none outranks it. -/
theorem foldl_outranking (l : List (Nat × Nat × Nat)) (a : Nat × Nat × Nat) :
    l.foldl outranking a ∈ a :: l ∧ ∀ b ∈ a :: l, Outranks b (l.foldl outranking a) = false := by
  induction l generalizing a with
  | nil => simp [outranks_irrefl]
  | cons c l ih =>
    obtain ⟨hmem, hall⟩ := ih (outranking a c)
    obtain ⟨ha, hc⟩ := outranking_le a c
    have hpick := hall _ List.mem_cons_self
    rw [List.foldl_cons]
    refine ⟨?_, fun b hb => ?_⟩
    · obtain h | h := List.mem_cons.1 hmem
      · rw [h]
        unfold outranking
        split <;> simp
      · exact List.mem_cons_of_mem _ (List.mem_cons_of_mem _ h)
    · simp only [List.mem_cons] at hb
      obtain rfl | rfl | hb := hb
      · exact outranks_trans hpick ha
      · exact outranks_trans hpick hc
      · exact hall b (List.mem_cons_of_mem _ hb)

/-- Where a read is early, the trap reports the one that none outranks. -/
theorem earlyTval_of_mem {l : List (Nat × Nat × Nat)} {x : Nat × Nat × Nat} (hx : x ∈ l) :
    ∃ w ∈ l, (∀ b ∈ l, Outranks b w = false) ∧ earlyTval l = some (BitVec.ofNat 64 (w.1 * 2 ^ 16 + w.2.1 * 2 ^ 8 + w.2.2)) := by
  cases l with
  | nil => simp at hx
  | cons e l =>
    obtain ⟨hmem, hall⟩ := foldl_outranking l e
    exact ⟨_, hmem, hall, earlyTval_cons e l⟩

theorem Reg.key_lt (r : Reg) : r.key.1 < 8 ∧ r.key.2 < 32 := by
  cases r <;> simp only [Reg.key] <;> omega

/-- The fields of the TVAL of trap 0x03 (R45). -/
theorem fieldW_earlyTval (short file num : Nat) (hf : file < 8) (hn : num < 32) :
    let v : Word := BitVec.ofNat 64 (short * 2 ^ 16 + file * 2 ^ 8 + num)
    (short < 256 → fieldW 63 24 v = 0) ∧ fieldW 23 16 v = short % 256 ∧ fieldW 15 11 v = 0 ∧ fieldW 10 8 v = file ∧
      fieldW 7 5 v = 0 ∧ fieldW 4 0 v = num := by
  simp only [fieldW, bitsOf, BitVec.toNat_ofNat]
  omega

/-! ## The entry of a trap that a handler takes (R355) -/

/-- Setting LPST.HOLD sets bit 61. -/
theorem putHold_eq_or (l : Word) : putField 61 61 l 1 = l ||| BitVec.twoPow 64 61 := by
  have hput : putField 61 61 l 1 = BitVec.ofNat 64 (l.toNat - (l.getLsbD 61).toNat * 2 ^ 61 + 2 ^ 61) := by
    rw [BitVec.getLsbD, Nat.toNat_testBit]
    rfl
  rw [hput]
  cases h : l.getLsbD 61 with
  | false =>
    rw [← BitVec.add_eq_or_of_and_eq_zero _ _ (by rw [BitVec.and_twoPow, h, if_neg Bool.false_ne_true])]
    apply BitVec.eq_of_toNat_eq
    rw [BitVec.toNat_add, BitVec.toNat_twoPow, BitVec.toNat_ofNat, Nat.add_mod_mod]
    simp
  | true =>
    have hle : 2 ^ 61 ≤ l.toNat := Nat.ge_two_pow_of_testBit h
    have hor : l ||| BitVec.twoPow 64 61 = l := by
      apply BitVec.eq_of_getLsbD_eq
      intro i _
      rw [BitVec.getLsbD_or, BitVec.getLsbD_twoPow]
      by_cases hi : 61 = i
      · rw [← hi, h, Bool.true_or]
      · simp [hi]
    rw [hor, Bool.toNat_true, Nat.one_mul, Nat.sub_add_cancel hle, BitVec.ofNat_toNat, BitVec.setWidth_eq]

/-- LPST.HOLD is set and no other bit of LPST changes. -/
theorem getLsbD_putHold (l : Word) (i : Nat) : (putField 61 61 l 1).getLsbD i = (decide (i = 61) || l.getLsbD i) := by
  rw [putHold_eq_or, BitVec.getLsbD_or, BitVec.getLsbD_twoPow, Bool.or_comm]
  by_cases hi : i = 61 <;> simp [hi, eq_comm]

/-- The launch's trap handler, where it names one (R355). -/
theorem trapVector_of_launch {s : State} {id : Nat} {l : Launch} (hl : s.launch? id = some l) (h : l.spec.trap ≠ 0xFFFFFFFF) :
    s.trapVector id = some (capSetOff l.spec.code l.spec.trap.toNat) := by
  rw [State.trapVector, hl]
  exact if_neg h

/-- A trap that a handler takes enters as R355 says. -/
theorem entered_takeTrap {s : State} {v : Cap} (cause tepc : Nat) (tval : Word) (whole : Bool) (h : Handler s v) :
    Entered s ((s.setTh (s.th.passed s.cur whole)).takeTrap s.cur.tid cause tepc tval) cause tepc tval v whole := by
  obtain ⟨hin, l, hl, htrap, rfl⟩ := h
  have hth : (s.setTh (s.th.passed s.cur whole)).thread s.cur.tid = s.th.passed s.cur whole := th_setTh s _
  have hv : (s.setTh (s.th.passed s.cur whole)).trapVector (s.th.passed s.cur whole).launchId =
      some (capSetOff l.spec.code l.spec.trap.toNat) := trapVector_of_launch hl htrap
  rw [takeTrap_handled _ _ _ _ _ _ (by rw [hth]; exact hv) (by rw [hth]; exact hin), hth]
  exact ⟨putField 61 61 s.th.lpst 1, getLsbD_putHold _, setTh_setTh s _ _⟩

/-! ## R45 -/

/-- A thread that does not check stall counts takes no trap for an early read. -/
theorem earlyTrap_of_unchecked {t : Thread} (reads : List Reg) (hchk : t.tctl.getLsbD 0 = false) : t.earlyTrap reads = none := by
  rw [Thread.earlyTrap, Thread.scbchk, bitW, hchk]
  rfl

/-- Where no read is early, there is no trap to take. -/
theorem earlyTrap_eq_none {t : Thread} {reads : List Reg} (h : ∀ e d, ¬EarlyRead (t.settle reads) reads e d) :
    t.earlyTrap reads = none := by
  have hnil : (t.settle reads).early reads = [] := by
    refine List.eq_nil_iff_forall_not_mem.2 fun x hx => ?_
    obtain ⟨e, d, he, -⟩ := mem_early.1 hx
    exact h e d he
  simp [Thread.earlyTrap, hnil, earlyTval]

/-- Where a read is early and early reads are checked, the trap names the one that none outranks. -/
theorem earlyTrap_eq_some {t : Thread} {reads : List Reg} (hchk : t.tctl.getLsbD 0 = true)
    (h : ∃ e d, EarlyRead (t.settle reads) reads e d) :
    ∃ e d, EarlyRead (t.settle reads) reads e d ∧
      t.earlyTrap reads = some (BitVec.ofNat 64 ((d - t.nt) * 2 ^ 16 + e.w.reg.key.1 * 2 ^ 8 + e.w.reg.key.2)) ∧
      ∀ e' d', EarlyRead (t.settle reads) reads e' d' → d' < d ∨ d' = d ∧
        (e.w.reg.key.1 < e'.w.reg.key.1 ∨ e.w.reg.key.1 = e'.w.reg.key.1 ∧ e.w.reg.key.2 ≤ e'.w.reg.key.2) := by
  obtain ⟨e0, d0, h0⟩ := h
  obtain ⟨w, hw, hbest, htval⟩ := earlyTval_of_mem (mem_early.2 ⟨e0, d0, h0, rfl⟩)
  obtain ⟨e, d, he, rfl⟩ := mem_early.1 hw
  refine ⟨e, d, he, ?_, fun e' d' he' => ?_⟩
  · rw [Thread.earlyTrap, Thread.scbchk, bitW, hchk, if_pos rfl, htval, settle_nt]
  · have hle := hbest _ (mem_early.2 ⟨e', d', he', rfl⟩)
    have := he.nt_lt
    have := he'.nt_lt
    simp only [Outranks, Bool.or_eq_false_iff, Bool.and_eq_false_iff, decide_eq_false_iff_not] at hle
    omega

/-- Settles O20: no early read, or the one that none outranks. -/
theorem earlyReadTraps : Obligations.EarlyReadTraps := by
  intro s i hs reads t early
  refine ⟨fun hchk => enter_executes hs (earlyTrap_of_unchecked _ hchk),
    fun _ hnone => enter_executes hs (earlyTrap_eq_none hnone), fun hchk hsome => ?_⟩
  obtain ⟨e, d, he, htrap, hbest⟩ := earlyTrap_eq_some hchk hsome
  obtain ⟨hfile, hnum⟩ := e.w.reg.key_lt
  rw [show t.nt = s.th.nt from settle_nt _ _]
  obtain ⟨h63, hshort, h15, hf, h7, hn⟩ := fieldW_earlyTval (d - s.th.nt) _ _ hfile hnum
  exact ⟨e, d, _, _, he, enter_traps hs htrap, rfl, fun v hv => entered_takeTrap _ _ _ _ hv, h63, hshort, h15, hf, h7, hn, hbest⟩

end Sys2Proof.Machine
end

section
/-!
SUPPORT. What each operation of the model does to memory's canonical form (spec/07_one_thread.md R87): `X_mem` says that `X` leaves
memory alone, `X_canonical` that a state operation keeps the form, `X_keeps` that a computation or a meaning does. Memory changes through
`homeWrite` and `copyFrame` alone; every other operation is made of operations named before it.
-/

namespace Sys2Proof.Machine
open Std.Do
set_option mvcgen.warning false

/-! ## Rules -/

/-- An operation keeps memory canonical, whether it ends or stops. -/
abbrev Keeps {ε α : Type} (m : EStateM ε State α) : Prop :=
  ⦃fun s => ⌜memWf s.mem = true⌝⦄ m ⦃post⟨fun _ s => ⌜memWf s.mem = true⌝, fun _ s => ⌜memWf s.mem = true⌝⟩⦄

theorem foldl_keeps {α β : Type} {f : β × State → α → β × State}
    (hf : ∀ b a, memWf b.2.mem = true → memWf (f b a).2.mem = true)
    {l : List α} {b : β × State} (h : memWf b.2.mem = true) : memWf (l.foldl f b).2.mem = true := by
  induction l generalizing b with
  | nil => exact h
  | cons a l ih => exact ih (hf _ _ h)

theorem foldl_canonical {α : Type} {f : State → α → State} (hf : ∀ s a, memWf s.mem = true → memWf (f s a).mem = true)
    (l : List α) {s : State} (h : memWf s.mem = true) : memWf (l.foldl f s).mem = true := by
  induction l generalizing s with
  | nil => exact h
  | cons a l ih => exact ih (hf _ _ h)

theorem keeps_bind {ε α β : Type} {m : EStateM ε State α} {f : α → EStateM ε State β} (hm : Keeps m) (hf : ∀ a, Keeps (f a)) :
    Keeps (m >>= f) := by
  mvcgen [hm, hf]

theorem keeps_run {ε α : Type} {m : EStateM ε State α} (hm : Keeps m) {s : State} (h : memWf s.mem = true) :
    match m s with
    | .ok _ t => memWf t.mem = true
    | .error _ t => memWf t.mem = true := by
  have := hm s h
  simp only [wp, PredTrans.apply, EStateM.run] at this
  split at this <;> simp_all

/-! ## The operations of Machine/Mem.lean -/

theorem wakeWith_canonical {s : State} (h : memWf s.mem = true) (t v) : memWf (s.wakeWith t v).mem = true := by
  grind -ring -linarith [State.wakeWith, setThread_mem]

@[simp] theorem freeBytes_mem (s : State) (n) : (s.freeBytes n).2.mem = s.mem := rfl
@[simp] theorem freeWord_mem (s : State) : s.freeWord.2.mem = s.mem := rfl

theorem sendReads_canonical {s : State} (h : memWf s.mem = true) (src a n) : memWf (s.sendReads src a n).mem = true := by
  grind -ring -linarith [State.sendReads, sendPacket_mem, foldl_canonical]

theorem sendFree_canonical {s : State} (h : memWf s.mem = true) (src a n) : memWf (s.sendFree src a n).mem = true := by
  grind -ring -linarith [State.sendFree, freeBytes_mem, sendPacket_mem, foldl_canonical]

theorem homeRead_canonical {s : State} (h : memWf s.mem = true) (src a n) : memWf (s.homeRead src a n).2.mem = true := by
  grind -ring -linarith [State.homeRead, freeBytes_mem, !sendReads_canonical]

theorem homeTag_canonical {s : State} (h : memWf s.mem = true) (a) : memWf (s.homeTag a).2.mem = true := by
  grind -ring -linarith [State.homeTag, freeBytes_mem]

theorem homeTags_canonical {s : State} (h : memWf s.mem = true) (x0) : memWf (s.homeTags x0).2.mem = true := by
  fun_induction State.homeTags s x0 <;> grind -ring -linarith [!homeTag_canonical]

theorem setTag_canonical {s : State} (h : memWf s.mem = true) (a) : memWf (s.setTag a).mem = true := by
  grind -ring -linarith [State.setTag]

theorem poisonAt_canonical {s : State} (h : memWf s.mem = true) (a) : memWf (s.poisonAt a).mem = true := by
  grind -ring -linarith [State.poisonAt]

theorem poisonBuf_canonical {s : State} (h : memWf s.mem = true) (a) : memWf (s.poisonBuf a).mem = true := by
  grind -ring -linarith [State.poisonBuf]

theorem adopt_canonical {s : State} (h : memWf s.mem = true) (obj a) : memWf (s.adopt obj a).mem = true := by
  grind -ring -linarith [State.adopt, setVer_mem]

/-! ## The operations of Machine/Walk.lean -/

@[simp] theorem askDie_mem (s : State) (core mod die) : (s.askDie core mod die).mem = s.mem := rfl

theorem walk_canonical {s : State} (h : memWf s.mem = true) (core obj page) : memWf (s.walk core obj page).2.mem = true := by
  grind -ring -linarith [State.walk, askDie_mem, freeWord_mem]

theorem fill_canonical {s : State} (h : memWf s.mem = true) (core obj off need) :
    memWf (s.fill core obj off need).2.mem = true := by
  grind -ring -linarith [State.fill, setTlb_mem, !walk_canonical]

theorem translate_canonical {s : State} (h : memWf s.mem = true) (core obj off need) :
    memWf (s.translate core obj off need).2.mem = true := by
  grind -ring -linarith [State.translate, setTlb_mem, freeBytes_mem, !fill_canonical]

/-! ## The operations of Machine/Router.lean -/

@[simp] theorem setGroup_mem (s : State) (n g) : (s.setGroup n g).mem = s.mem := rfl
@[simp] theorem atPort_mem (s : State) (port slice p) : (s.atPort port slice p).mem = s.mem := rfl

theorem atRouter_canonical {s : State} (h : memWf s.mem = true) (p from_) : memWf (s.atRouter p from_).mem = true := by
  grind -ring -linarith [State.atRouter, freeBytes_mem, atPort_mem]

theorem sendFrom_canonical {s : State} (h : memWf s.mem = true) (core home a b) :
    memWf (s.sendFrom core home a b).mem = true := by
  grind -ring -linarith [State.sendFrom, !atRouter_canonical, sendPacket_mem]

theorem writeFrom_canonical {s : State} (h : memWf s.mem = true) (core home a bs) :
    memWf (s.writeFrom core home a bs).mem = true := by
  grind -ring -linarith [State.writeFrom, !homeWrite_canonical, !sendFrom_canonical, foldl_canonical]

/-! ## The operations of Machine/Migrate.lean -/

@[simp] theorem setPage_mem (s : State) (f p) : (s.setPage f p).mem = s.mem := rfl
@[simp] theorem setPool_mem (s : State) (slice p) : (s.setPool slice p).mem = s.mem := rfl

theorem countAccess_canonical {s : State} (h : memWf s.mem = true) (core f obj page perm) :
    memWf (s.countAccess core f obj page perm).mem = true := by
  grind -ring -linarith [State.countAccess, setPage_mem]

@[simp] theorem notify_mem (s : State) (core e) : (s.notify core e).mem = s.mem := rfl

theorem notifyHops_canonical {s : State} (h : memWf s.mem = true) (core a) : memWf (s.notifyHops core a).mem = true := by
  grind -ring -linarith [State.notifyHops, notify_mem, foldl_canonical]

theorem forwardContext_canonical {s : State} (h : memWf s.mem = true) (slice tid) :
    memWf (s.forwardContext slice tid).mem = true := by
  grind -ring -linarith [State.forwardContext, !notifyHops_canonical, setThread_mem, foldl_canonical]

theorem forwardAll_canonical {s : State} (h : memWf s.mem = true) (slice) : memWf (s.forwardAll slice).mem = true := by
  grind -ring -linarith [State.forwardAll, !forwardContext_canonical, foldl_canonical]

theorem retireRedirect_canonical {s : State} (h : memWf s.mem = true) (slice) : memWf (s.retireRedirect slice).mem = true := by
  grind -ring -linarith [State.retireRedirect, !forwardAll_canonical, setPool_mem]

theorem leafOf_canonical {s : State} (h : memWf s.mem = true) (obj page) : memWf (s.leafOf obj page).2.mem = true := by
  grind -ring -linarith [State.leafOf, freeWord_mem]

theorem completeMove_canonical {s : State} (h : memWf s.mem = true) (slice) : memWf (s.completeMove slice).mem = true := by
  have hw := homeWrite_canonical
  have hr := @retireRedirect_canonical
  have hf := @forwardAll_canonical
  unfold State.completeMove
  generalize State.homeWrite = write at hw ⊢
  generalize State.retireRedirect = retire at hr ⊢
  generalize State.forwardAll = forward at hf ⊢
  split
  · exact h
  · split
    · next to_ fr rest _ _ =>
      have hc := fun f g o p => memWf_copyFrame _ f g (leafOf_canonical (s := s.setPool to_ rest) h o p)
      dsimp only
      refine hf ?_ _
      split
      · refine hr (hw _ _ _ _ ?_) _
        exact hc ..
      · refine hw _ _ _ _ ?_
        exact hc ..
    · exact h

theorem reach_canonical {s : State} (h : memWf s.mem = true) (core a) : memWf (s.reach core a).2.mem = true := by
  grind -ring -linarith [State.reach, !notifyHops_canonical, !completeMove_canonical]

/-! ## The operations of Machine/Access.lean -/

theorem xlatRange_canonical {s : State} (h : memWf s.mem = true) (c obj off need x4 x5) :
    memWf (s.xlatRange c obj off need x4 x5).2.mem = true := by
  fun_induction State.xlatRange s c obj off need x4 x5 <;> grind -ring -linarith [!translate_canonical, !countAccess_canonical,
    !reach_canonical]

theorem readPieces_canonical {s : State} (h : memWf s.mem = true) (src x1) : memWf (s.readPieces src x1).2.mem = true := by
  fun_induction State.readPieces s src x1 <;> grind -ring -linarith [!homeRead_canonical]

theorem poisonPieces_canonical {s : State} (h : memWf s.mem = true) (src ps bs) :
    memWf (s.poisonPieces src ps bs).mem = true := by
  induction ps generalizing s bs with
  | nil => exact h
  | cons p t ih =>
    refine ih ?_ _
    split
    · exact foldl_canonical (fun _ _ h => by simpa) _ h
    · exact foldl_canonical (fun _ _ h => poisonAt_canonical h _) _ h

theorem writePieces_canonical {s : State} (h : memWf s.mem = true) (src x1 x2) : memWf (s.writePieces src x1 x2).mem = true := by
  fun_induction State.writePieces s src x1 x2 <;> grind -ring -linarith [!homeWrite_canonical]

theorem engRead_canonical {s : State} (h : memWf s.mem = true) (c obj off n) : memWf (s.engRead c obj off n).2.mem = true := by
  grind -ring -linarith [State.engRead, !xlatRange_canonical, !readPieces_canonical]

theorem engReadWhole_canonical {s : State} (h : memWf s.mem = true) (c obj off n) :
    memWf (s.engReadWhole c obj off n).2.mem = true := by
  grind -ring -linarith [State.engReadWhole, !engRead_canonical]

theorem engWrite_canonical {s : State} (h : memWf s.mem = true) (c obj off bs) :
    memWf (s.engWrite c obj off bs).2.mem = true := by
  grind -ring -linarith [State.engWrite, !writePieces_canonical, !xlatRange_canonical]

theorem engReadMarked_canonical {s : State} (h : memWf s.mem = true) (c obj off n) :
    memWf (s.engReadMarked c obj off n).2.mem = true := by
  grind -ring -linarith [State.engReadMarked, !xlatRange_canonical, !readPieces_canonical]

theorem engWriteMarked_canonical {s : State} (h : memWf s.mem = true) (c obj off bs marks) :
    memWf (s.engWriteMarked c obj off bs marks).2.mem = true := by
  grind -ring -linarith [State.engWriteMarked, !writePieces_canonical, !xlatRange_canonical, !poisonAt_canonical, foldl_canonical]

theorem engPoison_canonical {s : State} (h : memWf s.mem = true) (c obj off v) :
    memWf (s.engPoison c obj off v).2.mem = true := by
  grind -ring -linarith [State.engPoison, !xlatRange_canonical, !poisonPieces_canonical]

/-! ## The operations of Machine/Errors.lean -/

theorem logError_canonical {s : State} (h : memWf s.mem = true) (u die a) : memWf (s.logError u die a).mem = true := by
  grind -ring -linarith [State.logError, freeBytes_mem, !homeWrite_canonical, setDie_mem]

/-! ## The operations of Machine/Tasks.lean -/

theorem drop_canonical {s : State} (h : memWf s.mem = true) (launch n) : memWf (s.drop launch n).mem = true := by
  grind -ring -linarith [State.drop, setLaunch_mem]

@[simp] theorem pushTask_mem (s : State) (core prio t) : (s.pushTask core prio t).mem = s.mem := rfl

theorem post_canonical {s : State} (h : memWf s.mem = true) (n) : memWf (s.post n).mem = true := by
  unfold State.post
  split
  · exact h
  · split
    · grind -ring -linarith [!drop_canonical, pushTask_mem]
    · grind -ring -linarith [!drop_canonical, setThread_mem]

theorem counterStep_canonical {s : State} (h : memWf s.mem = true) (c ctr status) :
    memWf (s.counterStep c ctr status).2.mem = true := by
  unfold State.counterStep
  split
  · grind -ring -linarith [!engReadWhole_canonical]
  · split
    · grind -ring -linarith [!engReadWhole_canonical, !engWrite_canonical]
    · grind -ring -linarith [!engReadWhole_canonical, !engWrite_canonical, !xlatRange_canonical, !writePieces_canonical]

@[simp] theorem setWq_mem (s : State) (q) : (s.setWq q).mem = s.mem := rfl

theorem wqRecord_canonical {s : State} (h : memWf s.mem = true) (q cause side obj off) :
    memWf (s.wqRecord q cause side obj off).mem = true := by
  grind -ring -linarith [State.wqRecord, !post_canonical]

theorem wqWork_canonical {s : State} (h : memWf s.mem = true) (id fall) : memWf (s.wqWork id fall).mem = true := by
  grind -ring -linarith [State.wqWork, !counterStep_canonical, !wqRecord_canonical, setWq_mem]

theorem wqUsed_canonical {s : State} (h : memWf s.mem = true) (id fall) : memWf (s.wqUsed id fall).mem = true := by
  grind -ring -linarith [State.wqUsed, setWq_mem]

theorem wqAbandon_canonical {s : State} (h : memWf s.mem = true) (r) : memWf (s.wqAbandon r).mem = true := by
  grind -ring -linarith [State.wqAbandon, !wqUsed_canonical, !wqWork_canonical, setWq_mem]

theorem endFiring_canonical {s : State} (h : memWf s.mem = true) (t) : memWf (s.endFiring t).mem = true := by
  grind -ring -linarith [State.endFiring, !drop_canonical, !wqAbandon_canonical, setTeam_mem, setThread_mem, foldl_canonical]

/-! ## The operations of Machine/Ops.lean -/

theorem stop_keeps {α : Type} (e) : Keeps (stop e : M α) := by
  mvcgen [stop]

theorem trap_keeps {α : Type} (cause tval) : Keeps (trap cause tval : M α) := by
  mvcgen [trap]

theorem trapWhole_keeps {α : Type} (cause tval) : Keeps (trapWhole cause tval : M α) := by
  mvcgen [trapWhole]

theorem getTh_keeps : Keeps getTh := by
  mvcgen [getTh]

theorem modTh_keeps (f) : Keeps (modTh f) := by
  mvcgen [modTh]

theorem runS_keeps {α : Type} {f : State → α × State} (hf : ∀ s, memWf s.mem = true → memWf (f s).2.mem = true) :
    Keeps (runS f) := by
  intro s h
  simpa [runS, wp, PredTrans.apply, EStateM.run] using hf s h

theorem writeL_keeps (lat w) : Keeps (writeL lat w) := by
  mvcgen [writeL, modTh_keeps]

theorem writeI_keeps (w) : Keeps (writeI w) := by
  mvcgen [writeI, modTh_keeps]

theorem writeNow_keeps (w) : Keeps (writeNow w) := by
  mvcgen [writeNow, modTh_keeps]

theorem advance_keeps : Keeps advance := by
  mvcgen [advance]

theorem jump_keeps (pcc) : Keeps (jump pcc) := by
  mvcgen [jump]

theorem unhandled_canonical {s : State} (h : memWf s.mem = true) (t cause tepc tval) :
    memWf (s.unhandled t cause tepc tval).mem = true := by
  grind -ring -linarith [State.unhandled, !post_canonical, setLaunch_mem, !endFiring_canonical]

theorem takeTrap_canonical {s : State} (h : memWf s.mem = true) (t cause tepc tval) :
    memWf (s.takeTrap t cause tepc tval).mem = true := by
  grind -ring -linarith [State.takeTrap, !unhandled_canonical, setThread_mem]

theorem applyStore_canonical {s : State} (h : memWf s.mem = true) (t) : memWf (s.applyStore t).mem = true := by
  grind -ring -linarith [State.applyStore, !homeWrite_canonical, !setTag_canonical, !countAccess_canonical, !reach_canonical,
    setThread_mem]

theorem drain_canonical {s : State} (h : memWf s.mem = true) (t) : memWf (s.drain t).mem = true := by
  grind -ring -linarith [State.drain, !applyStore_canonical, foldl_canonical]

theorem drainMine_keeps : Keeps drainMine := by
  mvcgen [drainMine]
  grind -ring -linarith [!drain_canonical]

theorem checkCap_keeps (w c need ea n align) : Keeps (checkCap w c need ea n align) := by
  mvcgen [checkCap, trap_keeps]

theorem meetAbsent_keeps {α : Type} (w obj off need) : Keeps (meetAbsent w obj off need : M α) := by
  mvcgen [meetAbsent, stop_keeps, getTh_keeps, trap_keeps]

theorem checkFar_keeps (w c off perm) : Keeps (checkFar w c off perm) := by
  mvcgen [checkFar, runS_keeps, trap_keeps]
  grind -ring -linarith [!translate_canonical]

theorem locate_keeps (w plain c off n perm) : Keeps (locate w plain c off n perm) := by
  mvcgen [locate, stop_keeps, modTh_keeps, runS_keeps, meetAbsent_keeps, trap_keeps] <;>
    grind -ring -linarith [!translate_canonical, !reach_canonical]

theorem countLoad_canonical {s : State} (h : memWf s.mem = true) (off a e) : memWf (s.countLoad off a e).mem = true := by
  grind -ring -linarith [State.countLoad, !countAccess_canonical]

theorem readHome_keeps (w off a n e) : Keeps (readHome w off a n e) := by
  mvcgen [readHome, runS_keeps, trap_keeps] <;> grind -ring -linarith [!countLoad_canonical, !homeRead_canonical]

theorem loadBytes_keeps (w c need ea n align) : Keeps (loadBytes w c need ea n align) := by
  mvcgen [loadBytes, locate_keeps, readHome_keeps, checkCap_keeps]

theorem issueStore_keeps (a bs tag e page) : Keeps (issueStore a bs tag e page) := by
  mvcgen [issueStore, modTh_keeps]

theorem storeBytes_keeps (w c need ea bs align tag) : Keeps (storeBytes w c need ea bs align tag) := by
  mvcgen [storeBytes, locate_keeps, checkCap_keeps]

theorem loadRange_keeps (w c off f n) : Keeps (loadRange w c off f n) := by
  induction f generalizing off n with
  | zero => mvcgen [loadRange]
  | succ f ih => mvcgen [loadRange, locate_keeps, readHome_keeps, ih]

theorem storeRange_keeps (w c off f bs) : Keeps (storeRange w c off f bs) := by
  induction f generalizing off bs with
  | zero => mvcgen [storeRange]
  | succ f ih => mvcgen [storeRange, locate_keeps, issueStore_keeps, ih]

@[simp] theorem park_mem (s : State) (t why) : (s.park t why).mem = s.mem := rfl

theorem parkAbsent_canonical {s : State} (h : memWf s.mem = true) (t obj page rights tval) :
    memWf (s.parkAbsent t obj page rights tval).mem = true := by
  grind -ring -linarith [State.parkAbsent, !post_canonical, setThread_mem, !walk_canonical, park_mem]

theorem bringHome_canonical {s : State} (h : memWf s.mem = true) (tid at_ st) : memWf (s.bringHome tid at_ st).mem = true := by
  grind -ring -linarith [State.bringHome, setThread_mem, !drain_canonical]

theorem leaveFor_canonical {s : State} (h : memWf s.mem = true) (t st) : memWf (s.leaveFor t st).mem = true := by
  grind -ring -linarith [State.leaveFor, setThread_mem, !bringHome_canonical]

theorem joinShip_canonical {s : State} (h : memWf s.mem = true) (t die) : memWf (s.joinShip t die).mem = true := by
  grind -ring -linarith [State.joinShip, !leaveFor_canonical]

theorem shipOff_canonical {s : State} (h : memWf s.mem = true) (t die mod) : memWf (s.shipOff t die mod).mem = true := by
  grind -ring -linarith [State.shipOff, freeBytes_mem, !leaveFor_canonical, !joinShip_canonical, !sendFree_canonical,
    setThread_mem, !drain_canonical, park_mem]

theorem stopped_canonical {s : State} (h : memWf s.mem = true) (e) : memWf (s.stopped e).mem = true := by
  unfold State.stopped
  cases e with
  | trap | trapWhole | trapNext => exact takeTrap_canonical (by simpa) ..
  | park => simpa
  | absent => exact parkAbsent_canonical h ..
  | ship => exact shipOff_canonical h ..
  | wait => exact h

/-- A meaning that answers a next state keeps memory canonical. -/
def OutKeeps (f : State → Host.Outcome State Fault Refusal) : Prop := ∀ s t,
  memWf s.mem = true → f s = .next t → memWf t.mem = true

theorem event_keeps {f : State → State} (hf : ∀ s, memWf s.mem = true → memWf (f s).mem = true) : OutKeeps (event f) := by
  intro s t h e
  cases e
  exact hf s h

theorem run_keeps {body : M Unit} (hb : Keeps body) : OutKeeps (run body) := by
  intro s t h e
  have := keeps_run hb h
  unfold run at e
  split at e <;> cases e <;> grind -ring -linarith [!stopped_canonical]

theorem notInHandler_keeps : Keeps notInHandler := by
  mvcgen [notInHandler, trap_keeps]

theorem parkOr_keeps {α : Type} (why) : Keeps (parkOr why : M α) := by
  mvcgen [parkOr, stop_keeps, trap_keeps]

/-! ## The operations of Machine/Integer.lean -/

/-! ## The operations of Machine/Capability.lean -/

theorem execCsetb_keeps (d x y) : OutKeeps (execCsetb d x y) :=
  run_keeps (by mvcgen [getTh_keeps, trap_keeps, writeL_keeps])

theorem execCfmt_keeps (d x y) : OutKeeps (execCfmt d x y) :=
  run_keeps (by mvcgen [getTh_keeps, trap_keeps, writeL_keeps])

/-! ## The operations of Machine/Memory.lean -/

theorem loadWord_keeps (sz a) : Keeps (loadWord sz a) := by
  mvcgen [loadWord, getTh_keeps, loadBytes_keeps]

theorem storeWord_keeps (sz s a) : Keeps (storeWord sz s a) := by
  mvcgen [storeWord, getTh_keeps, storeBytes_keeps]

theorem execLd_keeps (sz d a) : OutKeeps (execLd sz d a) :=
  run_keeps (by mvcgen [loadWord_keeps])

theorem execSt_keeps (sz s a) : OutKeeps (execSt sz s a) :=
  run_keeps (by mvcgen [storeWord_keeps])

theorem loadCap_keeps (w plain c need ea) : Keeps (loadCap w plain c need ea) := by
  mvcgen [loadCap, runS_keeps, locate_keeps, readHome_keeps, checkCap_keeps]
  grind -ring -linarith [!homeTag_canonical]

theorem execLdc_keeps (d a) : OutKeeps (execLdc d a) :=
  run_keeps (by mvcgen [getTh_keeps, loadCap_keeps])

theorem execStc_keeps (s a) : OutKeeps (execStc s a) :=
  run_keeps (by mvcgen [getTh_keeps, storeBytes_keeps])

theorem execHomeRequestApply_keeps (core ctx) : OutKeeps (execHomeRequestApply core ctx) :=
  event_keeps fun s h => by grind -ring -linarith [!applyStore_canonical]

theorem execInterlockedResultArrival_keeps (core ctx) : OutKeeps (execInterlockedResultArrival core ctx) :=
  event_keeps fun s h => by grind -ring -linarith [setThread_mem]

/-! ## The operations of Machine/Branch.lean -/

theorem branchTo_keeps (t) : Keeps (branchTo t) := by
  mvcgen [branchTo, getTh_keeps, trap_keeps]

theorem execB_keeps (off) : OutKeeps (execB off) :=
  run_keeps (by mvcgen [getTh_keeps, branchTo_keeps])

theorem execBc_keeps (p inv off) : OutKeeps (execBc p inv off) :=
  run_keeps (by mvcgen [getTh_keeps, advance_keeps, branchTo_keeps])

theorem jumpTarget_keeps (a x) : Keeps (jumpTarget a x) := by
  mvcgen [jumpTarget, getTh_keeps, trap_keeps]

theorem spillOldest_keeps (oldest) : Keeps (spillOldest oldest) := by
  mvcgen [spillOldest, locate_keeps, issueStore_keeps, trap_keeps, checkCap_keeps]

theorem pushReturn_keeps : Keeps pushReturn := by
  mvcgen [pushReturn, modTh_keeps, spillOldest_keeps]

theorem execCall_keeps (off) : OutKeeps (execCall off) :=
  run_keeps (by mvcgen [getTh_keeps, branchTo_keeps, pushReturn_keeps])

theorem reloadOver_keeps (i) : Keeps (reloadOver i) := by
  mvcgen [reloadOver, modTh_keeps, getTh_keeps, trap_keeps, loadCap_keeps]

theorem popReturn_keeps : Keeps popReturn := by
  mvcgen [popReturn, modTh_keeps, reloadOver_keeps, readHome_keeps, trap_keeps]

theorem restoreStore_keeps (old) : Keeps (restoreStore old) := by
  mvcgen [restoreStore, modTh_keeps]

theorem execRet_keeps : OutKeeps execRet :=
  run_keeps (by mvcgen [jump_keeps, popReturn_keeps, getTh_keeps, restoreStore_keeps])

theorem execJmp_keeps (a x) : OutKeeps (execJmp a x) :=
  run_keeps (by mvcgen [jumpTarget_keeps])

theorem execJmpl_keeps (a x) : OutKeeps (execJmpl a x) :=
  run_keeps (by mvcgen [jumpTarget_keeps, pushReturn_keeps])

theorem execJtab_keeps (a x) : OutKeeps (execJtab a x) :=
  run_keeps (by mvcgen [getTh_keeps, writeNow_keeps, branchTo_keeps, locate_keeps, readHome_keeps, trap_keeps])

theorem execRep_keeps (n k) : OutKeeps (execRep n k) :=
  event_keeps fun s h => by grind -ring -linarith [setTh_mem]

theorem pin_canonical {s : State} (h : memWf s.mem = true) (cluster obj start began) :
    memWf (s.pin cluster obj start began).mem = true := by
  grind -ring -linarith [State.pin]

theorem execLoopp_keeps (n k) : OutKeeps (execLoopp n k) :=
  event_keeps fun s h => by grind -ring -linarith [!pin_canonical, setTh_mem]

theorem macroNext_canonical {s : State} (h : memWf s.mem = true) (t) : memWf (s.macroNext t).mem = true := by
  grind -ring -linarith [State.macroNext, setThread_mem]

theorem execMcall_keeps (num a b c v) : OutKeeps (execMcall num a b c v) :=
  event_keeps fun s h => by grind -ring -linarith [!macroNext_canonical, setTh_mem]

/-! ## The operations of Machine/Vector.lean -/

theorem checkLanes_keeps (w c need n ea l) : Keeps (checkLanes w c need n ea l) := by
  induction l with
  | nil => mvcgen [checkLanes]
  | cons x t ih => mvcgen [checkLanes, checkCap_keeps, ih]

theorem farLanes_keeps (w c ea perm l) : Keeps (farLanes w c ea perm l) := by
  induction l with
  | nil => mvcgen [farLanes]
  | cons x t ih => mvcgen [farLanes, checkFar_keeps, ih]

theorem loadLanes_keeps (w c n ea l) : Keeps (loadLanes w c n ea l) := by
  induction l with
  | nil => mvcgen [loadLanes]
  | cons x t ih => mvcgen [loadLanes, locate_keeps, readHome_keeps, ih]

theorem locateLanes_canonical {s : State} (w c n ea l) (h : memWf s.mem = true) :
    memWf (locateLanes w c n ea l s).2.mem = true := by
  induction l generalizing s with
  | nil => exact h
  | cons i t ih =>
    have hl := keeps_run (locate_keeps w true c (ea i).toNat n rW) h
    grind -ring -linarith [locateLanes]

theorem issueLanes_keeps (n ea v l) : Keeps (issueLanes n ea v l) := by
  induction l with
  | nil => mvcgen [issueLanes]
  | cons x t ih => mvcgen [issueLanes, issueStore_keeps, ih]

theorem storeLanes_keeps (w c n ea v ls) : Keeps (storeLanes w c n ea v ls) := by
  mvcgen [storeLanes, stop_keeps, issueLanes_keeps, runS_keeps]
  grind -ring -linarith [!locateLanes_canonical]

theorem execVld_keeps (d a m) : OutKeeps (execVld d a m) :=
  run_keeps (by mvcgen [getTh_keeps, loadLanes_keeps, writeNow_keeps, advance_keeps, checkLanes_keeps, farLanes_keeps])

theorem execVst_keeps (s a m) : OutKeeps (execVst s a m) :=
  run_keeps (by mvcgen [getTh_keeps, checkLanes_keeps, storeLanes_keeps, farLanes_keeps])

theorem execVldx_keeps (e u d base idx vm) : OutKeeps (execVldx e u d base idx vm) :=
  run_keeps (by mvcgen [getTh_keeps, loadLanes_keeps, checkLanes_keeps, farLanes_keeps])

theorem execVstx_keeps (r e s base idx m) : OutKeeps (execVstx r e s base idx m) :=
  run_keeps (by mvcgen [getTh_keeps, checkLanes_keeps, storeLanes_keeps, farLanes_keeps])

/-! ## The operations of Machine/Teams.lean -/

theorem lightTasks_canonical {s : State} (h : memWf s.mem = true) (key q x2) : memWf (s.lightTasks key q x2).mem = true := by
  fun_induction State.lightTasks s key q x2 <;> grind -ring -linarith [pushTask_mem, setTeam_mem]

theorem stageTasks_canonical {s : State} (h : memWf s.mem = true) (key) : memWf (s.stageTasks key).mem = true := by
  grind -ring -linarith [State.stageTasks, pushTask_mem, foldl_canonical]

theorem portChanged_canonical {s : State} (h : memWf s.mem = true) (key q) : memWf (s.portChanged key q).mem = true := by
  grind -ring -linarith [State.portChanged, !stageTasks_canonical, !lightTasks_canonical]

theorem startFiring_canonical {s : State} (h : memWf s.mem = true) (tid tm k prio) :
    memWf (s.startFiring tid tm k prio).mem = true := by
  grind -ring -linarith [State.startFiring, setTeam_mem, setThread_mem]

theorem startPlace_canonical {s : State} (h : memWf s.mem = true) (core tid e) : memWf (s.startPlace core tid e).mem = true := by
  unfold State.startPlace
  split
  · grind -ring -linarith [setQueue_mem, setWq_mem, !startFiring_canonical, !wqUsed_canonical]
  · grind -ring -linarith [setQueue_mem, !startFiring_canonical, setTeam_mem, setQueue_mem]

/-! ## The operations of Machine/Engines.lean -/

theorem landBytes_canonical {s : State} (h : memWf s.mem = true) (launch team i n) :
    memWf (s.landBytes launch team i n).mem = true := by
  grind -ring -linarith [State.landBytes, setTeam_mem]

theorem giveThread_canonical {s : State} (h : memWf s.mem = true) (firing f) : memWf (s.giveThread firing f).mem = true := by
  grind -ring -linarith [State.giveThread, setThread_mem]

theorem deliver_canonical {s : State} (h : memWf s.mem = true) (o port w) : memWf (s.deliver o port w).mem = true := by
  grind -ring -linarith [State.deliver, !giveThread_canonical]

@[simp] theorem pushMatrix_mem (s : State) (o b) : (s.pushMatrix o b).mem = s.mem := rfl
@[simp] theorem pushXfer_mem (s : State) (x) : (s.pushXfer x).mem = s.mem := rfl
@[simp] theorem putXfer_mem (s : State) (x) : (s.putXfer x).mem = s.mem := rfl
@[simp] theorem dropXfer_mem (s : State) (id) : (s.dropXfer id).mem = s.mem := rfl

theorem streamStart_canonical {s : State} (h : memWf s.mem = true) (core x1) : memWf (s.streamStart core x1).mem = true := by
  fun_induction State.streamStart s core x1 <;> grind -ring -linarith [putXfer_mem]

theorem pushStream_canonical {s : State} (h : memWf s.mem = true) (x) : memWf (s.pushStream x).mem = true := by
  grind -ring -linarith [State.pushStream, pushXfer_mem, !streamStart_canonical]

@[simp] theorem pushTrav_mem (s : State) (o b) : (s.pushTrav o b).mem = s.mem := rfl

theorem enginePush_keeps (q f) (hf : ∀ s o, memWf s.mem = true → memWf (f s o).mem = true) : Keeps (enginePush q f) := by
  mvcgen [enginePush, parkOr_keeps, drainMine_keeps]
  grind

theorem pushMarker_canonical {s : State} (h : memWf s.mem = true) (q v) : memWf (s.pushMarker q v).mem = true := by
  grind -ring -linarith [State.pushMarker, pushTrav_mem, pushMatrix_mem, !pushStream_canonical]

/-! ## The operations of Machine/Legal.lean -/

theorem lawful_keeps (f) : Keeps (lawful f) := by
  mvcgen [lawful, trap_keeps]

/-! ## The operations of Machine/Save.lean -/

@[simp] theorem withdraw_mem (s : State) (tid) : (s.withdraw tid).mem = s.mem := rfl
@[simp] theorem recordOf_mem (s : State) (th tid) : (s.recordOf th tid).2.mem = s.mem := rfl

theorem putSpill_canonical {s : State} (h : memWf s.mem = true) (core a e) : memWf (s.putSpill core a e).mem = true := by
  grind -ring -linarith [State.putSpill, !homeWrite_canonical, !setTag_canonical, !poisonAt_canonical]

theorem respill_canonical {s : State} (h : memWf s.mem = true) (tid l) : memWf (s.respill tid l).mem = true := by
  grind -ring -linarith [State.respill, !putSpill_canonical, foldl_canonical]

theorem toPlace_canonical {s : State} (h : memWf s.mem = true) (tid) : memWf (s.toPlace tid).mem = true := by
  grind -ring -linarith [State.toPlace, !bringHome_canonical]

theorem detach_canonical {s : State} (h : memWf s.mem = true) (how tid key addr image) :
    memWf (s.detach how tid key addr image).mem = true := by
  grind -ring -linarith [State.detach, withdraw_mem, setThread_mem, !toPlace_canonical]

theorem saveContext_canonical {s : State} (h : memWf s.mem = true) (how tid key addr) :
    memWf (s.saveContext how tid key addr).mem = true := by
  grind -ring -linarith [State.saveContext, recordOf_mem, !homeWrite_canonical, !detach_canonical, !drain_canonical]

theorem saveToArea_canonical {s : State} (h : memWf s.mem = true) (how tid keep) :
    memWf ((s.saveToArea how tid keep).getD s).mem = true := by
  grind -ring -linarith [State.saveToArea, !saveContext_canonical, setTeam_mem]

theorem freeRecord_canonical {s : State} (h : memWf s.mem = true) (v) : memWf (s.freeRecord v).mem = true := by
  grind -ring -linarith [State.freeRecord, setTeam_mem]

theorem restore_canonical {s : State} (h : memWf s.mem = true) (v tid) : memWf (s.restore v tid).mem = true := by
  grind -ring -linarith [State.restore, !respill_canonical, setThread_mem, !drain_canonical, !takeTrap_canonical,
    !freeRecord_canonical]

@[simp] theorem watchSaved_mem (s : State) : s.watchSaved.mem = s.mem := rfl

theorem startNext_canonical {s : State} (h : memWf s.mem = true) (core tid) : memWf (s.startNext core tid).mem = true := by
  grind -ring -linarith [State.startNext, !restore_canonical, !startPlace_canonical]

/-! ## The operations of Machine/Queue.lean -/

theorem pushPort_keeps (q v ctl) : Keeps (pushPort q v ctl) := by
  mvcgen [pushPort, drainMine_keeps] <;> grind -ring -linarith [!portChanged_canonical, setTeam_mem, !pushMarker_canonical]

theorem popPort_keeps (q) : Keeps (popPort q) := by
  mvcgen [popPort, modTh_keeps]
  grind -ring -linarith [!portChanged_canonical, setTeam_mem]

theorem execEnq_keeps (ctl r q) : OutKeeps (execEnq ctl r q) :=
  run_keeps (by mvcgen [stop_keeps, getTh_keeps, notInHandler_keeps, advance_keeps, pushPort_keeps, lawful_keeps])

theorem execEnqn_keeps (ctl p r q) : OutKeeps (execEnqn ctl p r q) :=
  run_keeps (by mvcgen [getTh_keeps, pushPort_keeps, lawful_keeps])

theorem execDeq_keeps (d q pc) : OutKeeps (execDeq d q pc) :=
  run_keeps (by mvcgen [stop_keeps, notInHandler_keeps, writeI_keeps, lawful_keeps, popPort_keeps])

theorem execDeqn_keeps (p d q pc) : OutKeeps (execDeqn p d q pc) :=
  run_keeps (by mvcgen [writeI_keeps, lawful_keeps, popPort_keeps])

theorem execQcnt_keeps (d q) : OutKeeps (execQcnt d q) :=
  run_keeps (by mvcgen [lawful_keeps])

theorem discardPort_canonical {s : State} (h : memWf s.mem = true) (q) : memWf (s.discardPort q).mem = true := by
  grind -ring -linarith [State.discardPort, setTeam_mem]

theorem disarmPort_canonical {s : State} (h : memWf s.mem = true) (q) : memWf (s.disarmPort q).mem = true := by
  grind -ring -linarith [State.disarmPort, setTeam_mem]

theorem answerStatus_keeps (d q) : Keeps (answerStatus d q) := by
  mvcgen [answerStatus, writeI_keeps]

theorem execQctl_keeps (d q op) : OutKeeps (execQctl d q op) :=
  run_keeps <| by
    mvcgen [getTh_keeps, answerStatus_keeps, lawful_keeps] <;>
      grind -ring -linarith [!disarmPort_canonical, !discardPort_canonical]

theorem execQctlDiscard_keeps (d q) : OutKeeps (execQctlDiscard d q) :=
  run_keeps (by mvcgen [answerStatus_keeps, lawful_keeps]; grind -ring -linarith [!discardPort_canonical])

theorem execQctlDisarm_keeps (d q) : OutKeeps (execQctlDisarm d q) :=
  run_keeps (by mvcgen [answerStatus_keeps, lawful_keeps]; grind -ring -linarith [!disarmPort_canonical])

theorem execQlh_keeps (q actor) : OutKeeps (execQlh q actor) :=
  run_keeps <| by
    mvcgen [advance_keeps, lawful_keeps, trapWhole_keeps]
    grind -ring -linarith [!portChanged_canonical, setTeam_mem]

theorem sendMessage_keeps (desc ws) : Keeps (sendMessage desc ws) := by
  mvcgen [sendMessage, drainMine_keeps, trapWhole_keeps]
  grind -ring -linarith [!post_canonical]

theorem execFire_keeps (d w) : OutKeeps (execFire d w) :=
  run_keeps (by mvcgen [stop_keeps, getTh_keeps, notInHandler_keeps, advance_keeps, sendMessage_keeps])

theorem execFiren_keeps (p d w) : OutKeeps (execFiren p d w) :=
  run_keeps (by mvcgen [getTh_keeps, sendMessage_keeps])

theorem execPrio_keeps (v) : OutKeeps (execPrio v) :=
  event_keeps fun s h => by grind -ring -linarith [setTh_mem]

theorem arriveAt_keeps (leave d b bytes) : Keeps (arriveAt leave d b bytes) := by
  mvcgen [arriveAt, drainMine_keeps, trapWhole_keeps]

theorem execArrive_keeps (leave d b) : OutKeeps (execArrive leave d b) :=
  run_keeps (by mvcgen [arriveAt_keeps, lawful_keeps])

theorem execArrb_keeps (leave d b n) : OutKeeps (execArrb leave d b n) :=
  run_keeps (by mvcgen [getTh_keeps, arriveAt_keeps, lawful_keeps])

theorem execBwait_keeps (r b) : OutKeeps (execBwait r b) :=
  run_keeps (by mvcgen [stop_keeps, notInHandler_keeps, advance_keeps, lawful_keeps])

theorem execBwaitn_keeps (p r b) : OutKeeps (execBwaitn p r b) :=
  run_keeps (by mvcgen [lawful_keeps])

theorem completeParked_canonical {s : State} (h : memWf s.mem = true) (tid) : memWf (s.completeParked tid).mem = true := by
  grind -ring -linarith [State.completeParked, !macroNext_canonical, setThread_mem]

theorem releaseAligned_canonical {s : State} (h : memWf s.mem = true) (core launch team x) :
    memWf (s.releaseAligned core launch team x).mem = true := by
  grind -ring -linarith [State.releaseAligned, !completeParked_canonical, foldl_canonical]

/-- What FALIGN does with any operation in place of the release. -/
theorem falignWith_keeps {f : State → State} (hf : ∀ s, memWf s.mem = true → memWf (f s).mem = true) :
    Keeps (do
      let s ← get
      if s.othersParked then
        set (f s)
        advance
      else stop (.park (.falign s.th.pc))) := by
  mvcgen [advance_keeps, stop_keeps]
  exact hf _ ‹_›

theorem execFalign_keeps : OutKeeps execFalign :=
  run_keeps (keeps_bind notInHandler_keeps fun _ => falignWith_keeps fun _ h => releaseAligned_canonical h ..)

theorem execDone_keeps : OutKeeps execDone :=
  event_keeps fun s h => by grind -ring -linarith [!stageTasks_canonical, !endFiring_canonical]

theorem execTaskStart_keeps (core ctx) : OutKeeps (execTaskStart core ctx) :=
  event_keeps fun s h => by grind -ring -linarith [!startNext_canonical]

theorem execTaskPriorityRaise_keeps (core idx) : OutKeeps (execTaskPriorityRaise core idx) :=
  event_keeps fun s h => by grind -ring -linarith [setQueue_mem]

theorem execParkOut_keeps (core) : OutKeeps (execParkOut core) :=
  event_keeps fun s h => by grind -ring -linarith [!saveToArea_canonical]

theorem execFalignReleaseTimeout_keeps (core ctx) : OutKeeps (execFalignReleaseTimeout core ctx) :=
  event_keeps fun s h => by grind -ring -linarith [!releaseAligned_canonical]

theorem execLightHandlerTask_keeps (team port) : OutKeeps (execLightHandlerTask team port) :=
  event_keeps fun s h => by grind -ring -linarith [!portChanged_canonical]

/-! ## The operations of Machine/Version.lean -/

theorem versioned_keeps (a need perm) : Keeps (versioned a need perm) := by
  mvcgen [versioned, getTh_keeps, locate_keeps, drainMine_keeps, trap_keeps, checkCap_keeps]

theorem readVersionAway_keeps (a ea h e) : Keeps (readVersionAway a ea h e) := by
  mvcgen [readVersionAway, runS_keeps, readHome_keeps, trap_keeps]
  grind -ring -linarith [freeBytes_mem]

theorem readVersion_keeps (a ea h e want) : Keeps (readVersion a ea h e want) := by
  mvcgen [readVersion, readHome_keeps, trap_keeps, readVersionAway_keeps]

theorem parkLdver_keeps (h want) : Keeps (parkLdver h want) := by
  mvcgen [parkLdver, stop_keeps, runS_keeps]
  grind -ring -linarith [freeBytes_mem]

theorem execLdver_keeps (d a) : OutKeeps (execLdver d a) :=
  run_keeps (by mvcgen [readVersion_keeps, notInHandler_keeps, writeNow_keeps, parkLdver_keeps, versioned_keeps])

theorem execLdvern_keeps (p d a) : OutKeeps (execLdvern p d a) :=
  run_keeps (by mvcgen [readVersion_keeps, getTh_keeps, writeNow_keeps, versioned_keeps])

theorem forgetVersions_canonical {s : State} (h : memWf s.mem = true) : memWf s.forgetVersions.mem = true := by
  grind -ring -linarith [State.forgetVersions]

theorem newVersion_canonical {s : State} (h : memWf s.mem = true) (obj a v) : memWf (s.newVersion obj a v).mem = true := by
  grind -ring -linarith [State.newVersion, setVer_mem, !homeWrite_canonical, !wakeWith_canonical, !adopt_canonical,
    foldl_canonical]

theorem stverAway_keeps (h v) : Keeps (stverAway h v) := by
  mvcgen [stverAway, runS_keeps, parkOr_keeps, advance_keeps] <;> grind -ring -linarith [freeBytes_mem]

theorem execStver_keeps (r a) : OutKeeps (execStver r a) :=
  run_keeps <| by
    mvcgen [stop_keeps, stverAway_keeps, getTh_keeps, parkOr_keeps, advance_keeps, versioned_keeps]
    grind -ring -linarith [!newVersion_canonical]

theorem reclaim_canonical {s : State} (h : memWf s.mem = true) (obj x1 v) : memWf (s.reclaim obj x1 v).mem = true := by
  grind -ring -linarith [State.reclaim, setVer_mem, !adopt_canonical]

theorem execReclaim_keeps (r a) : OutKeeps (execReclaim r a) :=
  run_keeps (by mvcgen [getTh_keeps, advance_keeps, versioned_keeps]; grind -ring -linarith [!reclaim_canonical, sendPacket_mem])

theorem execStverBufferTimeout_keeps (core ctx) : OutKeeps (execStverBufferTimeout core ctx) :=
  event_keeps fun s h => by grind -ring -linarith [!stopped_canonical, setThread_mem]

/-! ## The operations of Machine/Atomic.lean -/

theorem drainScope_canonical {s : State} (h : memWf s.mem = true) (sc) : memWf (s.drainScope sc).mem = true := by
  grind -ring -linarith [State.drainScope, !applyStore_canonical, foldl_canonical]

theorem execLda_keeps (sz _sc d a) : OutKeeps (execLda sz _sc d a) :=
  run_keeps (by mvcgen [loadWord_keeps])

theorem execStrel_keeps (sz _sc r a) : OutKeeps (execStrel sz _sc r a) :=
  run_keeps (by mvcgen [storeWord_keeps])

theorem atomicOld_keeps (w sc c ea n sizeOk) : Keeps (atomicOld w sc c ea n sizeOk) := by
  mvcgen [atomicOld, runS_keeps, locate_keeps, checkFar_keeps, readHome_keeps, trap_keeps, checkCap_keeps] <;>
    grind -ring -linarith [!drainScope_canonical, !reach_canonical]

theorem execAmo_keeps (op sz sc d a) : OutKeeps (execAmo op sz sc d a) :=
  run_keeps (by mvcgen [getTh_keeps, writeNow_keeps, atomicOld_keeps]; grind -ring -linarith [!homeWrite_canonical])

theorem execCas_keeps (sz sc p d a n) : OutKeeps (execCas sz sc p d a n) :=
  run_keeps (by mvcgen [getTh_keeps, writeNow_keeps, atomicOld_keeps]; grind -ring -linarith [!homeWrite_canonical])

theorem counterWord_keeps (a) : Keeps (counterWord a) := by
  mvcgen [counterWord, getTh_keeps, runS_keeps, locate_keeps, drainMine_keeps, readHome_keeps, checkCap_keeps]
  grind -ring -linarith [!reach_canonical]

theorem parkCntw_keeps (h thr) : Keeps (parkCntw h thr) := by
  mvcgen [parkCntw, stop_keeps, runS_keeps]
  grind -ring -linarith [freeBytes_mem]

theorem execCntw_keeps (d a) : OutKeeps (execCntw d a) :=
  run_keeps (by mvcgen [notInHandler_keeps, writeI_keeps, counterWord_keeps, parkCntw_keeps])

theorem execCntwn_keeps (p d a) : OutKeeps (execCntwn p d a) :=
  run_keeps (by mvcgen [getTh_keeps, writeNow_keeps, counterWord_keeps])

theorem execCntrd_keeps (d a) : OutKeeps (execCntrd d a) :=
  run_keeps (by mvcgen [counterWord_keeps])

/-! ## The operations of Machine/Stream.lean -/

theorem checkFmt_keeps (w c need ea n align ok) : Keeps (checkFmt w c need ea n align ok) := by
  mvcgen [checkFmt, trap_keeps, checkCap_keeps]

theorem checkCounter_keeps (r) : Keeps (checkCounter r) := by
  mvcgen [checkCounter, getTh_keeps, checkFmt_keeps]

theorem namedCounter_keeps (r) : Keeps (namedCounter r) := by
  mvcgen [namedCounter, checkCounter_keeps]

theorem plainTransfer_keeps (kind sc dst src n ctr) : Keeps (plainTransfer kind sc dst src n ctr) := by
  mvcgen [plainTransfer, enginePush_keeps, getTh_keeps, namedCounter_keeps, checkCap_keeps]
  grind -ring -linarith [!pushStream_canonical]

theorem indexedTransfer_keeps (kind sc dst src n ctr) : Keeps (indexedTransfer kind sc dst src n ctr) := by
  mvcgen [indexedTransfer, enginePush_keeps, getTh_keeps, checkCounter_keeps, checkCap_keeps, trapWhole_keeps] <;>
    grind -ring -linarith [!pushStream_canonical]

theorem execRget_keeps (sc dst src n ctr) : OutKeeps (execRget sc dst src n ctr) :=
  run_keeps (by mvcgen [plainTransfer_keeps])

theorem execRsend_keeps (sc dst src n ctr) : OutKeeps (execRsend sc dst src n ctr) :=
  run_keeps (by mvcgen [plainTransfer_keeps])

theorem execRsig_keeps (sc dst src n ctr) : OutKeeps (execRsig sc dst src n ctr) :=
  run_keeps (by mvcgen [plainTransfer_keeps])

theorem execRgetx_keeps (sc dst src n ctr) : OutKeeps (execRgetx sc dst src n ctr) :=
  run_keeps (by mvcgen [indexedTransfer_keeps])

theorem execRsendx_keeps (sc dst src n ctr) : OutKeeps (execRsendx sc dst src n ctr) :=
  run_keeps (by mvcgen [indexedTransfer_keeps])

theorem execRarith_keeps (op ordered e dst src n) : OutKeeps (execRarith op ordered e dst src n) :=
  run_keeps <| by
    mvcgen [enginePush_keeps, getTh_keeps, namedCounter_keeps, checkCap_keeps, trapWhole_keeps]
    grind -ring -linarith [!pushStream_canonical]

theorem stopXfer_canonical {s : State} (h : memWf s.mem = true) (x cause side obj off) :
    memWf (s.stopXfer x cause side obj off).mem = true := by
  grind -ring -linarith [State.stopXfer, !post_canonical, dropXfer_mem, !streamStart_canonical]

theorem readList_canonical {s : State} (h : memWf s.mem = true) (x c x2) : memWf (s.readList x c x2).2.mem = true := by
  fun_induction State.readList s x c x2 <;> grind -ring -linarith [!engRead_canonical]

theorem readSource_canonical {s : State} (h : memWf s.mem = true) (x lo n) : memWf (s.readSource x lo n).2.mem = true := by
  grind -ring -linarith [State.readSource, !engReadMarked_canonical]

theorem unitData_canonical {s : State} (h : memWf s.mem = true) (x u) : memWf (s.unitData x u).2.mem = true := by
  grind -ring -linarith [State.unitData, !engReadMarked_canonical, !readSource_canonical]

theorem elemBytes_canonical {s : State} (h : memWf s.mem = true) (src x1) : memWf (s.elemBytes src x1).2.mem = true := by
  fun_induction State.elemBytes s src x1 <;> grind -ring -linarith [freeBytes_mem, !homeRead_canonical]

theorem elemAnswer_canonical {s : State} (h : memWf s.mem = true) (ps) : memWf (s.elemAnswer ps).2.mem = true := by
  grind -ring -linarith [State.elemAnswer, freeBytes_mem]

theorem putSide_canonical {s : State} (h : memWf s.mem = true) (src far x2 x3) : memWf (s.putSide src far x2 x3).mem = true := by
  fun_induction State.putSide s src far x2 x3 <;> grind -ring -linarith [!homeWrite_canonical]

theorem applyElem_canonical {s : State} (h : memWf s.mem = true) (x i v bad) : memWf (s.applyElem x i v bad).2.mem = true := by
  grind -ring -linarith [State.applyElem, !elemBytes_canonical, !putSide_canonical, !xlatRange_canonical, !engPoison_canonical,
    !elemAnswer_canonical]

theorem applyElems_canonical {s : State} (h : memWf s.mem = true) (x x1) : memWf (s.applyElems x x1).2.mem = true := by
  fun_induction State.applyElems s x x1 <;> grind -ring -linarith [!applyElem_canonical]

theorem readSpans_canonical {s : State} (h : memWf s.mem = true) (x x1) : memWf (s.readSpans x x1).2.mem = true := by
  fun_induction State.readSpans s x x1 <;> grind -ring -linarith [!readSource_canonical]

theorem readElems_canonical {s : State} (h : memWf s.mem = true) (x is) : memWf (s.readElems x is).2.mem = true := by
  grind -ring -linarith [State.readElems, !readSpans_canonical]

theorem countPacket_canonical {s : State} (h : memWf s.mem = true) (x is) : memWf (s.countPacket x is).mem = true := by
  grind -ring -linarith [State.countPacket, !translate_canonical, !countAccess_canonical, !reach_canonical, foldl_canonical]

@[simp] theorem markLanded_mem (s : State) (x u) : (s.markLanded x u).mem = s.mem := rfl

theorem landPacket_canonical {s : State} (h : memWf s.mem = true) (x u pdata ovf) :
    memWf (s.landPacket x u pdata ovf).mem = true := by
  grind -ring -linarith [State.landPacket, markLanded_mem, foldl_canonical]

theorem stopPacket_canonical {s : State} (h : memWf s.mem = true) (x u k side off) :
    memWf (s.stopPacket x u k side off).mem = true := by
  grind -ring -linarith [State.stopPacket, !stopXfer_canonical, foldl_canonical]

theorem applyPacket_canonical {s : State} (h : memWf s.mem = true) (x u) : memWf (s.applyPacket x u).mem = true := by
  grind -ring -linarith [State.applyPacket, !countPacket_canonical, !applyElems_canonical, !stopXfer_canonical,
    !stopPacket_canonical, !landPacket_canonical, !readElems_canonical]

theorem releaseTurns_canonical {s : State} (h : memWf s.mem = true) (bank x1) : memWf (s.releaseTurns bank x1).mem = true := by
  fun_induction State.releaseTurns s bank x1 <;> grind -ring -linarith [!applyPacket_canonical, putXfer_mem]

theorem arriveOrdered_canonical {s : State} (h : memWf s.mem = true) (x u bank) :
    memWf (s.arriveOrdered x u bank).mem = true := by
  grind -ring -linarith [State.arriveOrdered, !releaseTurns_canonical, !applyPacket_canonical, putXfer_mem]

theorem moveUnit_canonical {s : State} (h : memWf s.mem = true) (x u) : memWf (s.moveUnit x u).mem = true := by
  grind -ring -linarith [State.moveUnit, !engWriteMarked_canonical, !stopXfer_canonical, !unitData_canonical, markLanded_mem]

theorem withList_canonical {s : State} (h : memWf s.mem = true) (x) : memWf (s.withList x).2.mem = true := by
  grind -ring -linarith [State.withList, !readList_canonical, !stopXfer_canonical, putXfer_mem]

theorem retireXfer_canonical {s : State} (h : memWf s.mem = true) (id) : memWf (s.retireXfer id).mem = true := by
  grind -ring -linarith [State.retireXfer, dropXfer_mem]

theorem landUnit_canonical {s : State} (h : memWf s.mem = true) (x unit) : memWf (s.landUnit x unit).mem = true := by
  grind -ring -linarith [State.landUnit, !withList_canonical, !moveUnit_canonical, !applyPacket_canonical, !retireXfer_canonical,
    !arriveOrdered_canonical]

theorem execTransferPacketApply_keeps (x unit) : OutKeeps (execTransferPacketApply x unit) :=
  event_keeps fun s h => by grind -ring -linarith [!landUnit_canonical]

theorem finishXfer_canonical {s : State} (h : memWf s.mem = true) (x) : memWf (s.finishXfer x).mem = true := by
  grind -ring -linarith [State.finishXfer, !stopXfer_canonical, !counterStep_canonical, !retireXfer_canonical,
    !streamStart_canonical, putXfer_mem]

theorem completeXfer_canonical {s : State} (h : memWf s.mem = true) (x) : memWf (s.completeXfer x).mem = true := by
  grind -ring -linarith [State.completeXfer, !readSpans_canonical, !withList_canonical, !stopXfer_canonical,
    !finishXfer_canonical]

theorem execTransferComplete_keeps (x) : OutKeeps (execTransferComplete x) :=
  event_keeps fun s h => by grind -ring -linarith [!completeXfer_canonical]

theorem packetOps_canonical {s : State} (h : memWf s.mem = true) (x unit) : memWf (s.packetOps x unit).2.mem = true := by
  grind -ring -linarith [State.packetOps, !readElems_canonical]

theorem combine_canonical {s : State} (h : memWf s.mem = true) (p q unit) : memWf (s.combine p q unit).mem = true := by
  grind -ring -linarith [State.combine, !packetOps_canonical, putXfer_mem]

theorem execRouterCombine_keeps (x y unit) : OutKeeps (execRouterCombine x y unit) :=
  event_keeps fun s h => by grind -ring -linarith [!combine_canonical]

theorem execFence_keeps (k sc) : OutKeeps (execFence k sc) := by
  intro s t h e
  unfold execFence at e
  grind -ring -linarith [!drainScope_canonical, setTh_mem]

/-! ## The operations of Machine/Copy.lean -/

theorem loadTagged_keeps (w c off f n) : Keeps (loadTagged w c off f n) := by
  induction f generalizing off n with
  | zero => mvcgen [loadTagged]
  | succ f ih =>
    mvcgen [loadTagged, locate_keeps, readHome_keeps, runS_keeps, ih]
    grind -ring -linarith [!homeTags_canonical]

theorem loadBlock_keeps (r need n align) : Keeps (loadBlock r need n align) := by
  mvcgen [loadBlock, getTh_keeps, checkCap_keeps, loadTagged_keeps]

theorem checkWhich_keeps (r which c need ea n align ok) : Keeps (checkWhich r which c need ea n align ok) := by
  mvcgen [checkWhich, trapWhole_keeps]

theorem checkCopy_keeps (r d c k from_ len) : Keeps (checkCopy r d c k from_ len) := by
  mvcgen [checkCopy, checkWhich_keeps]

theorem checkTags_keeps (r d c len) : Keeps (checkTags r d c len) := by
  mvcgen [checkTags, trapWhole_keeps]

theorem execCopy_keeps (d r) : OutKeeps (execCopy d r) :=
  run_keeps <| by
    mvcgen [checkCopy_keeps, enginePush_keeps, checkTags_keeps, loadBlock_keeps, trapWhole_keeps] <;>
      grind -ring -linarith [!pushStream_canonical]

theorem markBlock_canonical {s : State} (h : memWf s.mem = true) (x susp) : memWf (s.markBlock x susp).mem = true := by
  grind -ring -linarith [State.markBlock, !engWrite_canonical, !engReadWhole_canonical]

theorem suspend_canonical {s : State} (h : memWf s.mem = true) (x byStep cause side obj off) :
    memWf (s.suspend x byStep cause side obj off).mem = true := by
  grind -ring -linarith [State.suspend, !post_canonical, !markBlock_canonical, !streamStart_canonical, putXfer_mem]

theorem copyTags_canonical {s t : State} (h : memWf t.mem = true) (x c) : memWf (s.copyTags t x c).mem = true := by
  unfold State.copyTags
  dsimp only
  split
  · exact foldl_canonical (fun t a h => by grind -ring -linarith [!setTag_canonical, !homeTag_canonical]) _ h
  · exact h

theorem report_canonical {s : State} (h : memWf s.mem = true) (id x1) : memWf (s.report id x1).mem = true := by
  fun_induction State.report s id x1 <;> grind -ring -linarith [!landBytes_canonical, putXfer_mem]

theorem piecesFrom_canonical {s : State} (h : memWf s.mem = true) (core home x2 x3) :
    memWf (s.piecesFrom core home x2 x3).mem = true := by
  fun_induction State.piecesFrom s core home x2 x3 <;> grind -ring -linarith [!writeFrom_canonical]

theorem partsOf_canonical {s : State} (h : memWf s.mem = true) (core x1) : memWf (s.partsOf core x1).2.mem = true := by
  fun_induction State.partsOf s core x1 <;> grind -ring -linarith [freeBytes_mem, sendPacket_mem]

theorem chunkRead_canonical {s : State} (h : memWf s.mem = true) (c obj off n) :
    memWf (s.chunkRead c obj off n).2.mem = true := by
  grind -ring -linarith [State.chunkRead, !partsOf_canonical, !xlatRange_canonical]

theorem partsWrite_canonical {s : State} (h : memWf s.mem = true) (c obj off x3) :
    memWf (s.partsWrite c obj off x3).mem = true := by
  fun_induction State.partsWrite s c obj off x3 <;> grind -ring -linarith [!piecesFrom_canonical, !xlatRange_canonical]

theorem chunkWrite_canonical {s : State} (h : memWf s.mem = true) (c obj off l) :
    memWf (s.chunkWrite c obj off l).2.mem = true := by
  grind -ring -linarith [State.chunkWrite, !partsWrite_canonical, !xlatRange_canonical]

theorem landChunk_canonical {s : State} (h : memWf s.mem = true) (y chunk) : memWf (s.landChunk y chunk).mem = true := by
  grind -ring -linarith [State.landChunk, !chunkWrite_canonical, !copyTags_canonical, !report_canonical, !suspend_canonical,
    !chunkRead_canonical, putXfer_mem]

theorem execCopyChunkLand_keeps (x chunk) : OutKeeps (execCopyChunkLand x chunk) :=
  event_keeps fun s h => by grind -ring -linarith [!landChunk_canonical]

theorem completeCopy_canonical {s : State} (h : memWf s.mem = true) (x) : memWf (s.completeCopy x).mem = true := by
  grind -ring -linarith [State.completeCopy, !post_canonical, dropXfer_mem, !deliver_canonical, !streamStart_canonical]

theorem stepCopy_canonical {s : State} (h : memWf s.mem = true) (y) : memWf (s.stepCopy y).mem = true := by
  grind -ring -linarith [State.stepCopy, !counterStep_canonical, !suspend_canonical, !completeCopy_canonical]

theorem execCopyComplete_keeps (x) : OutKeeps (execCopyComplete x) :=
  event_keeps fun s h => by grind -ring -linarith [!stepCopy_canonical]

theorem readSuspended_keeps (r) : Keeps (readSuspended r) := by
  mvcgen [readSuspended, loadBlock_keeps, trapWhole_keeps]

theorem requeue_canonical {s : State} (h : memWf s.mem = true) (x) : memWf (s.requeue x).mem = true := by
  grind -ring -linarith [State.requeue, dropXfer_mem, !markBlock_canonical, !streamStart_canonical]

theorem pushBack_canonical {s : State} (h : memWf s.mem = true) (o x) : memWf (s.pushBack o x).mem = true := by
  grind -ring -linarith [State.pushBack, !requeue_canonical]

theorem execCresume_keeps (d r) : OutKeeps (execCresume d r) :=
  run_keeps (by mvcgen [checkCopy_keeps, enginePush_keeps, readSuspended_keeps]; grind -ring -linarith [!pushBack_canonical])

theorem execCdrop_keeps (d r) : OutKeeps (execCdrop d r) :=
  run_keeps (by mvcgen [enginePush_keeps, readSuspended_keeps]; grind -ring -linarith [!pushBack_canonical, !landBytes_canonical])

theorem execStreamerMarkerDelivery_keeps (core) : OutKeeps (execStreamerMarkerDelivery core) :=
  event_keeps fun s h => by grind -ring -linarith [dropXfer_mem, !deliver_canonical]

/-! ## The operations of Machine/Cut.lean -/

theorem checkSource_keeps (w c stride k) : Keeps (checkSource w c stride k) := by
  mvcgen [checkSource, checkFmt_keeps, trap_keeps]

theorem checkPanel_keeps (w c need n) : Keeps (checkPanel w c need n) := by
  mvcgen [checkPanel, checkFmt_keeps]

theorem cutRead_keeps (w c off n) : Keeps (cutRead w c off n) := by
  mvcgen [cutRead, loadRange_keeps]

theorem cutWrite_keeps (w c off b) : Keeps (cutWrite w c off b) := by
  mvcgen [cutWrite, storeRange_keeps, drainMine_keeps]

theorem cutTurn_keeps : Keeps cutTurn := by
  mvcgen [cutTurn, stop_keeps, parkOr_keeps]
  grind -ring -linarith [dropXfer_mem, !streamStart_canonical]

theorem sparseHeader_keeps (w c) : Keeps (sparseHeader w c) := by
  mvcgen [sparseHeader, cutRead_keeps, trap_keeps]

theorem sparseEntry_keeps (w c h slab seg) : Keeps (sparseEntry w c h slab seg) := by
  mvcgen [sparseEntry, cutRead_keeps, trap_keeps, checkCap_keeps]

theorem cutScan_keeps (w c h slab f k l) : Keeps (cutScan w c h slab f k l) := by
  induction f generalizing k l with
  | zero => mvcgen [cutScan]
  | succ f ih => mvcgen [cutScan, sparseEntry_keeps, ih]

theorem cutColumns_keeps (w c e l) : Keeps (cutColumns w c e l) := by
  induction l with
  | nil => mvcgen [cutColumns]
  | cons x t ih => mvcgen [cutColumns, cutRead_keeps, ih]

theorem execCut_keeps (planes p d dst src) : OutKeeps (execCut planes p d dst src) :=
  run_keeps <| by
    mvcgen [checkPanel_keeps, getTh_keeps, cutColumns_keeps, writeI_keeps, checkFmt_keeps, sparseHeader_keeps, cutWrite_keeps,
      drainMine_keeps, cutTurn_keeps, cutScan_keeps, trapWhole_keeps]

theorem partnerElem_keeps (w c e off i) : Keeps (partnerElem w c e off i) := by
  mvcgen [partnerElem, cutRead_keeps]

theorem partnerLane_keeps (w c e off l) : Keeps (partnerLane w c e off l) := by
  induction l with
  | nil => mvcgen [partnerLane]
  | cons x t ih => mvcgen [partnerLane, partnerElem_keeps, ih]

theorem partnerLanes_keeps (w c e stride ks f j) : Keeps (partnerLanes w c e stride ks f j) := by
  induction f generalizing j with
  | zero => mvcgen [partnerLanes]
  | succ f ih => mvcgen [partnerLanes, partnerLane_keeps, ih]

theorem execCocut_keeps (wide a dst src) : OutKeeps (execCocut wide a dst src) :=
  run_keeps <| by
    mvcgen [checkSource_keeps, checkPanel_keeps, partnerLanes_keeps, cutWrite_keeps, drainMine_keeps, cutTurn_keeps,
      trapWhole_keeps]

/-! ## The operations of Machine/Matrix.lean -/

@[simp] theorem setTile_mem (s : State) (core t x) : (s.setTile core t x).mem = s.mem := rfl
@[simp] theorem restat_mem (s : State) (core t f) : (s.restat core t f).mem = s.mem := rfl

theorem checkTile_keeps (t bad) : Keeps (checkTile t bad) := by
  mvcgen [checkTile, trap_keeps, lawful_keeps]

theorem pushTile_keeps (pt f b) : Keeps (pushTile pt f b) := by
  mvcgen [pushTile, enginePush_keeps]
  grind -ring -linarith [restat_mem, pushMatrix_mem]

theorem execMplane_keeps (p dst src n) : OutKeeps (execMplane p dst src n) :=
  run_keeps <| by
    mvcgen [checkSource_keeps, checkPanel_keeps, enginePush_keeps, getTh_keeps, trapWhole_keeps] <;>
      grind -ring -linarith [pushMatrix_mem]

theorem pushMma_keeps (planes t pt ca cb start len sparse desc bad) :
    Keeps (pushMma planes t pt ca cb start len sparse desc bad) := by
  mvcgen [pushMma, checkPanel_keeps, getTh_keeps, pushTile_keeps, trapWhole_keeps]

theorem execMma_keeps (planes t ca cb k) : OutKeeps (execMma planes t ca cb k) :=
  run_keeps (by mvcgen [checkTile_keeps, getTh_keeps, pushMma_keeps])

theorem execMmas_keeps (planes t ca cb k) : OutKeeps (execMmas planes t ca cb k) :=
  run_keeps (by mvcgen [checkTile_keeps, getTh_keeps, advance_keeps, pushMma_keeps])

theorem execMepi_keeps (act r e t dst n) : OutKeeps (execMepi act r e t dst n) :=
  run_keeps <| by
    mvcgen [checkTile_keeps, modTh_keeps, getTh_keeps, advance_keeps, checkFmt_keeps, pushTile_keeps, trap_keeps, trapWhole_keeps]

theorem execMepirp_keeps (t) : OutKeeps (execMepirp t) :=
  run_keeps (by mvcgen [checkTile_keeps, pushTile_keeps])

theorem execMzero_keeps (t) : OutKeeps (execMzero t) :=
  run_keeps (by mvcgen [checkTile_keeps, pushTile_keeps])

theorem execMrel_keeps (t) : OutKeeps (execMrel t) :=
  run_keeps (by mvcgen [checkTile_keeps, pushTile_keeps])

theorem execMstat_keeps (d t) : OutKeeps (execMstat d t) :=
  run_keeps (by mvcgen [checkTile_keeps])

theorem execMstatc_keeps (d t) : OutKeeps (execMstatc d t) :=
  run_keeps (by mvcgen [checkTile_keeps])

theorem execMwait_keeps (t) : OutKeeps (execMwait t) :=
  run_keeps (by mvcgen [checkTile_keeps, parkOr_keeps, advance_keeps])

theorem matrixRecord_canonical {s : State} (h : memWf s.mem = true) (o kind cause tile pos obj off) :
    memWf (s.matrixRecord o kind cause tile pos obj off).mem = true := by
  grind -ring -linarith [State.matrixRecord, !post_canonical]

@[simp] theorem refuse_mem (s : State) (core t code chunk) : (s.refuse core t code chunk).mem = s.mem := rfl

theorem sourceSlab_canonical {s : State} (h : memWf s.mem = true) (c src e stride slab x5 x6) :
    memWf (s.sourceSlab c src e stride slab x5 x6).2.mem = true := by
  fun_induction State.sourceSlab s c src e stride slab x5 x6 <;> grind -ring -linarith [!engReadWhole_canonical]

theorem planeSlabs_canonical {s : State} (h : memWf s.mem = true) (o p dst src e stride x6 x7) :
    memWf (s.planeSlabs o p dst src e stride x6 x7).mem = true := by
  fun_induction State.planeSlabs s o p dst src e stride x6 x7 <;> grind -ring -linarith [!sourceSlab_canonical,
    !engWrite_canonical, !matrixRecord_canonical]

theorem runPlane_canonical {s : State} (h : memWf s.mem = true) (o p dst src role nslab stride) :
    memWf (s.runPlane o p dst src role nslab stride).mem = true := by
  grind -ring -linarith [State.runPlane, !engWrite_canonical, !matrixRecord_canonical, !planeSlabs_canonical]

theorem readSlab_canonical {s : State} (h : memWf s.mem = true) (c k p n slab) :
    memWf (s.readSlab c k p n slab).2.mem = true := by
  grind -ring -linarith [State.readSlab, !engReadWhole_canonical]

theorem mmaFault_canonical {s : State} (h : memWf s.mem = true) (cmd spec t sparse chunk cause obj off) :
    memWf (s.mmaFault cmd spec t sparse chunk cause obj off).mem = true := by
  grind -ring -linarith [State.mmaFault, refuse_mem, !matrixRecord_canonical]

theorem beginMma_canonical {s : State} (h : memWf s.mem = true) (cmd spec t planes a b start len sparse) :
    memWf (s.beginMma cmd spec t planes a b start len sparse).mem = true := by
  grind -ring -linarith [State.beginMma, refuse_mem, !mmaFault_canonical, setMatrix_mem, !engReadWhole_canonical]

@[simp] theorem endMatrix_mem (s : State) (core) : (s.endMatrix core).mem = s.mem := rfl

theorem runChunk_canonical {s : State} (h : memWf s.mem = true) (core r) : memWf (s.runChunk core r).mem = true := by
  grind -ring -linarith [State.runChunk, !readSlab_canonical, setTile_mem, !mmaFault_canonical, setMatrix_mem, endMatrix_mem]

theorem epiRows_canonical {s : State} (h : memWf s.mem = true) (c core t ep x4 x5) :
    memWf (s.epiRows c core t ep x4 x5).2.mem = true := by
  fun_induction State.epiRows s c core t ep x4 x5 <;> grind -ring -linarith [!writePieces_canonical, !xlatRange_canonical,
    !readPieces_canonical]

theorem runEpi_canonical {s : State} (h : memWf s.mem = true) (cmd kept spec t ep row) :
    memWf (s.runEpi cmd kept spec t ep row).mem = true := by
  grind -ring -linarith [State.runEpi, !epiRows_canonical, !matrixRecord_canonical, setTile_mem]

theorem beginEpi_canonical {s : State} (h : memWf s.mem = true) (cmd spec t ep) :
    memWf (s.beginEpi cmd spec t ep).mem = true := by
  grind -ring -linarith [State.beginEpi, !runEpi_canonical, refuse_mem]

theorem beginReplay_canonical {s : State} (h : memWf s.mem = true) (cmd spec t) :
    memWf (s.beginReplay cmd spec t).mem = true := by
  grind -ring -linarith [State.beginReplay, !runEpi_canonical]

theorem zeroTile_canonical {s : State} (h : memWf s.mem = true) (core t) : memWf (s.zeroTile core t).mem = true := by
  grind -ring -linarith [State.zeroTile, refuse_mem, setTile_mem]

@[simp] theorem takeMarker_mem (s : State) (cmd v) : (s.takeMarker cmd v).mem = s.mem := rfl

theorem sequence_canonical {s : State} (h : memWf s.mem = true) (core) : memWf (s.sequence core).mem = true := by
  grind -ring -linarith [State.sequence, !beginMma_canonical, !zeroTile_canonical, takeMarker_mem, !runPlane_canonical,
    !beginEpi_canonical, setMatrix_mem, !beginReplay_canonical]

theorem execMatrixCommandStart_keeps (core) : OutKeeps (execMatrixCommandStart core) :=
  event_keeps fun s h => by grind -ring -linarith [!sequence_canonical]

@[simp] theorem drawTokens_mem (s : State) (core r) : (s.drawTokens core r).mem = s.mem := rfl

theorem execMatrixChunk_keeps (core) : OutKeeps (execMatrixChunk core) :=
  event_keeps fun s h => by grind -ring -linarith [drawTokens_mem, !runChunk_canonical]

theorem settleTile_canonical {s : State} (h : memWf s.mem = true) (core tile) : memWf (s.settleTile core tile).mem = true := by
  grind -ring -linarith [State.settleTile, restat_mem]

theorem execTileRelease_keeps (core tile) : OutKeeps (execTileRelease core tile) :=
  event_keeps fun s h => by grind -ring -linarith [!settleTile_canonical]

theorem execMatrixMarkerDelivery_keeps (core) : OutKeeps (execMatrixMarkerDelivery core) :=
  event_keeps fun s h => by grind -ring -linarith [!deliver_canonical, setMatrix_mem]

theorem refill_canonical {s : State} (h : memWf s.mem = true) (draw) : memWf (s.refill draw).mem = true := by
  grind -ring -linarith [State.refill, freeBytes_mem]

theorem execEnergyTokenRefill_keeps (draw) : OutKeeps (execEnergyTokenRefill draw) :=
  event_keeps fun s h => by grind -ring -linarith [!refill_canonical]

/-! ## The operations of Machine/Work.lean -/

theorem refuseQueue_canonical {s : State} (h : memWf s.mem = true) (q n workid) :
    memWf (s.refuseQueue q n workid).mem = true := by
  grind -ring -linarith [State.refuseQueue, !post_canonical, setWq_mem]

@[simp] theorem reserve_mem (s : State) (q n) : (s.reserve q n).2.mem = s.mem := rfl

theorem committed_canonical {s : State} (h : memWf s.mem = true) (id slot depth) :
    memWf (s.committed id slot depth).mem = true := by
  grind -ring -linarith [State.committed, setWq_mem]

theorem place_canonical {s : State} (h : memWf s.mem = true) (q recs) : memWf (s.place q recs).2.mem = true := by
  grind -ring -linarith [State.place, !committed_canonical, !engWrite_canonical, reserve_mem, foldl_canonical]

theorem descriptor_keeps (r) : Keeps (descriptor r) := by
  mvcgen [descriptor, getTh_keeps, locate_keeps, checkCap_keeps]

theorem readDescriptor_keeps (r c i n) : Keeps (readDescriptor r c i n) := by
  mvcgen [readDescriptor, locate_keeps, readHome_keeps]

theorem execWgres_keeps (p d r) : OutKeeps (execWgres p d r) :=
  run_keeps <| by
    mvcgen [getTh_keeps, runS_keeps, writeI_keeps, descriptor_keeps, trap_keeps, checkCap_keeps, trapWhole_keeps] <;>
      grind -ring -linarith [reserve_mem, !refuseQueue_canonical]

theorem reservation_keeps (w) : Keeps (reservation w) := by
  mvcgen [reservation, getTh_keeps, trap_keeps]

theorem useSlot_keeps (k r) : Keeps (useSlot k r) := by
  mvcgen [useSlot, modTh_keeps]

theorem slotHome_keeps (w q n) : Keeps (slotHome w q n) := by
  mvcgen [slotHome, runS_keeps, meetAbsent_keeps, trap_keeps] <;> grind -ring -linarith [!translate_canonical, !reach_canonical]

theorem execWgcom_keeps (a r) : OutKeeps (execWgcom a r) := by
  refine run_keeps (keeps_bind getTh_keeps fun t =>
    keeps_bind (reservation_keeps _) fun p => keeps_bind (fun _ h => h) fun s => ?_)
  dsimp only
  split
  · mvcgen [runS_keeps, drainMine_keeps, slotHome_keeps, useSlot_keeps]
    · exact fun _ h => h
    · exact committed_canonical (homeWrite_canonical _ _ _ _ ‹_›) ..
  · exact trap_keeps _ _

theorem execWgabn_keeps (d r) : OutKeeps (execWgabn d r) :=
  run_keeps (by mvcgen [modTh_keeps, getTh_keeps, reservation_keeps]; grind -ring -linarith [!wqAbandon_canonical])

theorem readSegment_keeps (r c k) : Keeps (readSegment r c k) := by
  mvcgen [readSegment, runS_keeps, readDescriptor_keeps]
  grind -ring -linarith [!homeTag_canonical]

theorem homeNow_keeps (a) : Keeps (homeNow a) := by
  mvcgen [homeNow, runS_keeps]
  grind -ring -linarith [!reach_canonical]

theorem extendQueue_keeps (r c a k desc) : Keeps (extendQueue r c a k desc) := by
  mvcgen [extendQueue, homeNow_keeps, drainMine_keeps, readSegment_keeps, trap_keeps, trapWhole_keeps]

theorem bindQueue_keeps (r c a) : Keeps (bindQueue r c a) := by
  mvcgen [bindQueue, homeNow_keeps, readDescriptor_keeps, drainMine_keeps, readSegment_keeps, trap_keeps, trapWhole_keeps]

theorem execWgstat_keeps (d r op) : OutKeeps (execWgstat d r op) :=
  run_keeps <| by
    mvcgen [bindQueue_keeps, getTh_keeps, writeI_keeps, descriptor_keeps, trap_keeps, extendQueue_keeps, checkCap_keeps,
      trapWhole_keeps]

theorem execWgstatExtend_keeps (d r k) : OutKeeps (execWgstatExtend d r k) :=
  run_keeps (by mvcgen [descriptor_keeps, extendQueue_keeps])

theorem execWgstatBind_keeps (d r) : OutKeeps (execWgstatBind d r) :=
  run_keeps (by mvcgen [bindQueue_keeps, descriptor_keeps])

theorem execRecordDispatch_keeps (id) : OutKeeps (execRecordDispatch id) :=
  event_keeps fun s h => by grind -ring -linarith [!wqUsed_canonical, !engRead_canonical, pushTask_mem, !wqWork_canonical,
    !wqRecord_canonical, setWq_mem]

@[simp] theorem unblock_mem (s : State) (obj first count) : (s.unblock obj first count).mem = s.mem := rfl

theorem unbind_canonical {s : State} (h : memWf s.mem = true) (q) : memWf (s.unbind q).mem = true := by
  grind -ring -linarith [State.unbind, !engWrite_canonical, !wqRecord_canonical]

/-! ## The operations of Machine/Nodes.lean -/

theorem nodeLine_canonical {s : State} (h : memWf s.mem = true) (c obj off) : memWf (s.nodeLine c obj off).2.mem = true := by
  grind -ring -linarith [State.nodeLine, !xlatRange_canonical, !readPieces_canonical, !logError_canonical]

theorem nodeLinesAt_canonical {s : State} (h : memWf s.mem = true) (c obj off x3) :
    memWf (s.nodeLinesAt c obj off x3).2.mem = true := by
  fun_induction State.nodeLinesAt s c obj off x3 <;> grind -ring -linarith [!nodeLine_canonical]

theorem nodeRead_canonical {s : State} (h : memWf s.mem = true) (c obj off n) : memWf (s.nodeRead c obj off n).2.mem = true := by
  grind -ring -linarith [State.nodeRead, !nodeLinesAt_canonical]

@[simp] theorem forgetNodes_mem (s : State) (obj first count) : (s.forgetNodes obj first count).mem = s.mem := rfl

theorem readHier_canonical {s : State} (h : memWf s.mem = true) (c k) : memWf (s.readHier c k).2.mem = true := by
  grind -ring -linarith [State.readHier, !nodeRead_canonical]

theorem readNode_canonical {s : State} (h : memWf s.mem = true) (c x1 idx parent kinds) :
    memWf (s.readNode c x1 idx parent kinds).2.mem = true := by
  grind -ring -linarith [State.readNode, !nodeRead_canonical]

theorem readPrim_canonical {s : State} (h : memWf s.mem = true) (c x1 p) : memWf (s.readPrim c x1 p).2.mem = true := by
  grind -ring -linarith [State.readPrim, !nodeRead_canonical]

/-! ## The operations of Machine/Traverse.lean -/

theorem execTrav_keeps (h ray) : OutKeeps (execTrav h ray) :=
  run_keeps (by mvcgen [enginePush_keeps, getTh_keeps, checkCap_keeps]; grind -ring -linarith [pushTrav_mem])

theorem execDtrav_keeps (pb) : OutKeeps (execDtrav pb) :=
  run_keeps (by mvcgen [enginePush_keeps, getTh_keeps, checkCap_keeps]; grind -ring -linarith [pushTrav_mem])

@[simp] theorem putTcmd_mem (s : State) (c) : (s.putTcmd c).mem = s.mem := rfl

theorem flushTrav_canonical {s : State} (h : memWf s.mem = true) (x0) : memWf (s.flushTrav x0).mem = true := by
  fun_induction State.flushTrav s x0 <;> grind -ring -linarith [!deliver_canonical]

theorem endTrav_canonical {s : State} (h : memWf s.mem = true) (c w) : memWf (s.endTrav c w).mem = true := by
  grind -ring -linarith [State.endTrav, !flushTrav_canonical, putTcmd_mem]

theorem travFault_canonical {s : State} (h : memWf s.mem = true) (c kind blk cause side obj off count data poison) :
    memWf (s.travFault c kind blk cause side obj off count data poison).mem = true := by
  grind -ring -linarith [State.travFault, !post_canonical, !endTrav_canonical]

theorem leafHits_canonical {s : State} (h : memWf s.mem = true) (c x1 r leaf x4 x5 x6) :
    memWf (s.leafHits c x1 r leaf x4 x5 x6).2.mem = true := by
  fun_induction State.leafHits s c x1 r leaf x4 x5 x6 <;> grind -ring -linarith [!readPrim_canonical]

theorem rayWalk_canonical {s : State} (h : memWf s.mem = true) (c x1 r x3 x4 x5 x6) :
    memWf (s.rayWalk c x1 r x3 x4 x5 x6).2.mem = true := by
  fun_induction State.rayWalk s c x1 r x3 x4 x5 x6 <;> grind -ring -linarith [!leafHits_canonical, !readNode_canonical]

theorem writeHits_canonical {s : State} (h : memWf s.mem = true) (c blk l) : memWf (s.writeHits c blk l).2.mem = true := by
  grind -ring -linarith [State.writeHits, !engWrite_canonical, !xlatRange_canonical]

theorem runTrav_canonical {s : State} (h : memWf s.mem = true) (cmd hc blk) : memWf (s.runTrav cmd hc blk).mem = true := by
  dsimp only [State.runTrav]
  repeat' split
  all_goals grind -ring -linarith [!endTrav_canonical, !engReadWhole_canonical, !rayWalk_canonical, !readHier_canonical,
    !travFault_canonical, !writeHits_canonical]

theorem endDescent_canonical {s : State} (h : memWf s.mem = true) (cmd blk d started stack w) :
    memWf (s.endDescent cmd blk d started stack w).mem = true := by
  grind -ring -linarith [State.endDescent, !engWrite_canonical, !travFault_canonical, !wqWork_canonical, !endTrav_canonical]

theorem faultDescent_canonical {s : State} (h : memWf s.mem = true) (cmd blk d started k side obj off) :
    memWf (s.faultDescent cmd blk d started k side obj off).mem = true := by
  grind -ring -linarith [State.faultDescent, !engWrite_canonical, !travFault_canonical, !wqWork_canonical]

theorem descentRoots_canonical {s : State} (h : memWf s.mem = true) (cmd blk d) :
    memWf (s.descentRoots cmd blk d).mem = true := by
  grind -ring -linarith [State.descentRoots, putTcmd_mem, !faultDescent_canonical, !readNode_canonical, !endDescent_canonical]

theorem queueOf_canonical {s : State} (h : memWf s.mem = true) (c k) : memWf (s.queueOf c k).2.mem = true := by
  grind -ring -linarith [State.queueOf, !xlatRange_canonical]

theorem blockHead_canonical {s : State} (h : memWf s.mem = true) (c blk n) : memWf (s.blockHead c blk n).2.mem = true := by
  grind -ring -linarith [State.blockHead, !homeTags_canonical, !xlatRange_canonical, !engReadWhole_canonical]

theorem unreadStop_canonical {s : State} (h : memWf s.mem = true) {end_ : State → State}
    (he : ∀ s, memWf s.mem = true → memWf (end_ s).mem = true) (cmd blk state poison) :
    memWf (s.unreadStop cmd blk state poison end_).mem = true := by
  grind -ring -linarith [State.unreadStop, !engReadMarked_canonical, !engWriteMarked_canonical, !travFault_canonical]

theorem beginDescent_canonical {s : State} (h : memWf s.mem = true) (cmd blk d state) :
    memWf (s.beginDescent cmd blk d state).mem = true := by
  dsimp only [State.beginDescent]
  repeat' split
  all_goals grind -ring -linarith [!unreadStop_canonical, !engWrite_canonical, !engReadWhole_canonical, !travFault_canonical,
    !wqWork_canonical, !descentRoots_canonical, setWq_mem, putTcmd_mem]

theorem runDtrav_canonical {s : State} (h : memWf s.mem = true) (cmd blk) : memWf (s.runDtrav cmd blk).mem = true := by
  dsimp only [State.runDtrav]
  repeat' split
  all_goals grind -ring -linarith [!unreadStop_canonical, !beginDescent_canonical, !blockHead_canonical, !endTrav_canonical,
    !queueOf_canonical, !readHier_canonical, !travFault_canonical]

theorem sphereOf_canonical {s : State} (h : memWf s.mem = true) (c x1 n) : memWf (s.sphereOf c x1 n).2.mem = true := by
  grind -ring -linarith [State.sphereOf, !readPrim_canonical]

theorem kids_canonical {s : State} (h : memWf s.mem = true) (c x1 ctl depth x4) :
    memWf (s.kids c x1 ctl depth x4).2.mem = true := by
  fun_induction State.kids s c x1 ctl depth x4 <;> grind -ring -linarith [!readNode_canonical]

theorem leafPair_canonical {s : State} (h : memWf s.mem = true) (cmd blk d a b rest) :
    memWf (s.leafPair cmd blk d a b rest).mem = true := by
  dsimp only [State.leafPair]
  repeat' split
  all_goals grind -ring -linarith [!place_canonical, !refuseQueue_canonical, !endDescent_canonical, !faultDescent_canonical,
    putTcmd_mem, !sphereOf_canonical]

theorem splitPair_canonical {s : State} (h : memWf s.mem = true) (cmd blk d a b rest) :
    memWf (s.splitPair cmd blk d a b rest).mem = true := by
  grind -ring -linarith [State.splitPair, !kids_canonical, putTcmd_mem, !faultDescent_canonical, !endDescent_canonical]

theorem stepDescent_canonical {s : State} (h : memWf s.mem = true) (cmd blk d) : memWf (s.stepDescent cmd blk d).mem = true := by
  grind -ring -linarith [State.stepDescent, !leafPair_canonical, !splitPair_canonical, putTcmd_mem, !faultDescent_canonical,
    !readNode_canonical, !endDescent_canonical]

theorem takeTrav_canonical {s : State} (h : memWf s.mem = true) (cmd) : memWf (s.takeTrav cmd).mem = true := by
  grind -ring -linarith [State.takeTrav, putTcmd_mem, !runDtrav_canonical, !runTrav_canonical]

theorem execTraversalCommandStart_keeps (cluster) : OutKeeps (execTraversalCommandStart cluster) :=
  event_keeps fun s h => by grind -ring -linarith [!stepDescent_canonical, !takeTrav_canonical]

theorem execTraversalMarkerDelivery_keeps (core) : OutKeeps (execTraversalMarkerDelivery core) :=
  event_keeps fun s h => by grind -ring -linarith [!flushTrav_canonical, !deliver_canonical]

/-! ## The operations of Machine/Pairs.lean -/

theorem pairStop_keeps {α : Type} (e) : Keeps (pairStop e : PairM α) := by
  mvcgen [pairStop]

/-- A step that an operation takes keeps the canonical form when the operation does. -/
theorem keeps_of_snd {ε α β : Type} {f : State → β × State} {m : EStateM ε State α}
    (hf : ∀ s, memWf s.mem = true → memWf (f s).2.mem = true)
    (hm : ∀ s, (∃ a, m s = .ok a (f s).2) ∨ ∃ e, m s = .error e (f s).2) : Keeps m := by
  intro s h
  have h' := hf s h
  rcases hm s with ⟨a, ha⟩ | ⟨e, he⟩
  · simpa [wp, PredTrans.apply, EStateM.run, ha] using h'
  · simpa [wp, PredTrans.apply, EStateM.run, he] using h'

theorem pairAccess_keeps {α : Type} {side obj : Nat} {f : State → Except (Nat × Nat) α × State}
    (hf : ∀ s, memWf s.mem = true → memWf (f s).2.mem = true) : Keeps (pairAccess side obj f) :=
  keeps_of_snd hf fun s => by
    unfold pairAccess
    split <;> simp [*]

theorem pairMet_keeps {α : Type} {side badData : Nat} {f : State → Met α × State}
    (hf : ∀ s, memWf s.mem = true → memWf (f s).2.mem = true) : Keeps (pairMet side badData f) :=
  keeps_of_snd hf fun s => by
    unfold pairMet
    split <;> simp [*]

theorem readPairBlock_keeps (c blk) : Keeps (readPairBlock c blk) := by
  mvcgen [readPairBlock, pairAccess_keeps, pairStop_keeps]
  grind -ring -linarith [!blockHead_canonical]

theorem pairCap_keeps (c need n align) : Keeps (pairCap c need n align) := by
  mvcgen [pairCap, pairStop_keeps]

theorem pairArray_keeps (c need) : Keeps (pairArray c need) := by
  mvcgen [pairArray, pairStop_keeps]

theorem pairHier_keeps (c side k) : Keeps (pairHier c side k) := by
  mvcgen [pairHier, pairMet_keeps]
  grind -ring -linarith [!readHier_canonical]

theorem pairNode_keeps (c side h i parent) : Keeps (pairNode c side h i parent) := by
  mvcgen [pairNode, pairMet_keeps]
  grind -ring -linarith [!readNode_canonical]

theorem checkExtent_keeps (n) : Keeps (checkExtent n) := by
  mvcgen [checkExtent, pairStop_keeps]

theorem pairKids_keeps (c side h depth l) : Keeps (pairKids c side h depth l) := by
  induction l with
  | nil => mvcgen [pairKids]
  | cons x t ih => mvcgen [pairKids, pairNode_keeps, ih]

theorem pairSplit_keeps (c self ha hb a b) : Keeps (pairSplit c self ha hb a b) := by
  mvcgen [pairSplit, pairKids_keeps]

theorem pairPlace_keeps (q recs) : Keeps (pairPlace q recs) :=
  keeps_of_snd (fun s h => place_canonical h q recs) fun s => by
    unfold pairPlace
    split <;> simp [*]

theorem pairStackWrite_keeps (c k l) : Keeps (pairStackWrite c k l) :=
  keeps_bind (fun _ h => h) fun _ => pairAccess_keeps fun _ h => engWrite_canonical h ..

theorem placePairs_keeps (c p stk workid l) : Keeps (placePairs c p stk workid l) := by
  mvcgen [placePairs, pairAccess_keeps, pairStop_keeps, pairPlace_keeps, pairStackWrite_keeps] <;>
    grind -ring -linarith [!queueOf_canonical, !refuseQueue_canonical]

theorem runPair_keeps (c blk stk workid w) : Keeps (runPair c blk stk workid w) := by
  mvcgen [runPair, pairHier_keeps, pairNode_keeps, placePairs_keeps, readPairBlock_keeps, pairSplit_keeps, checkExtent_keeps,
    pairCap_keeps]

theorem pairResult_canonical {s : State} (h : memWf s.mem = true) {f : PairM Word} (hf : Keeps f) (o kind blk) :
    memWf (pairResult o kind blk f s).2.mem = true := by
  have := keeps_run hf h
  grind -ring -linarith [pairResult, !post_canonical]

theorem issuePair_keeps (pb) : Keeps (issuePair pb) := by
  mvcgen [issuePair, getTh_keeps, drainMine_keeps, checkCap_keeps]

theorem execPair_keeps (d pb stk) : OutKeeps (execPair d pb stk) := by
  refine run_keeps ?_
  mvcgen [getTh_keeps, issuePair_keeps, runS_keeps]
  exact fun s h => pairResult_canonical h (runPair_keeps _ _ _ _ _) ..

theorem entryOff_keeps (k n) : Keeps (entryOff k n) := by
  mvcgen [entryOff, pairStop_keeps]

theorem readEntry_keeps (c side k n) : Keeps (readEntry c side k n) := by
  mvcgen [readEntry, pairAccess_keeps, entryOff_keeps]
  grind -ring -linarith [!engReadWhole_canonical]

theorem probeEntry_keeps (c side k n) : Keeps (probeEntry c side k n) := by
  mvcgen [probeEntry, pairAccess_keeps, entryOff_keeps, pairStop_keeps]
  grind -ring -linarith [!xlatRange_canonical]

theorem readEntries_keeps (c side k l) : Keeps (readEntries c side k l) := by
  induction l with
  | nil => mvcgen [readEntries]
  | cons x t ih => mvcgen [readEntries, readEntry_keeps, ih]

theorem probeEntries_keeps (c side k l) : Keeps (probeEntries c side k l) := by
  induction l with
  | nil => mvcgen [probeEntries]
  | cons x t ih => mvcgen [probeEntries, probeEntry_keeps, ih]

theorem momNode_keeps (c p arr need w) : Keeps (momNode c p arr need w) := by
  mvcgen [momNode, pairHier_keeps, pairNode_keeps, pairKids_keeps, pairArray_keeps, pairStop_keeps, checkExtent_keeps,
    pairCap_keeps]

theorem runMom_keeps (c blk w) : Keeps (runMom c blk w) := by
  mvcgen [runMom, readPairBlock_keeps, pairAccess_keeps, readEntries_keeps, momNode_keeps, entryOff_keeps]
  grind -ring -linarith [!engWrite_canonical]

theorem addComponent_canonical {s : State} (h : memWf s.mem = true) (c k off v) :
    memWf (s.addComponent c k off v).mem = true := by
  grind -ring -linarith [State.addComponent, !engWrite_canonical, !engRead_canonical]

theorem runMomd_keeps (c blk w) : Keeps (runMomd c blk w) := by
  mvcgen [runMomd, probeEntries_keeps, readPairBlock_keeps, momNode_keeps, readEntry_keeps]
  grind -ring -linarith [!addComponent_canonical, foldl_canonical]

theorem execMom_keeps (d pb) : OutKeeps (execMom d pb) := by
  refine run_keeps ?_
  mvcgen [getTh_keeps, issuePair_keeps, trapWhole_keeps, runS_keeps] <;>
    exact fun s h => pairResult_canonical h (runMom_keeps _ _ _) ..

theorem execMomd_keeps (d pb) : OutKeeps (execMomd d pb) := by
  refine run_keeps ?_
  mvcgen [getTh_keeps, issuePair_keeps, trapWhole_keeps, runS_keeps] <;>
    exact fun s h => pairResult_canonical h (runMomd_keeps _ _ _) ..

/-! ## The operations of Machine/Fabric.lean -/

@[simp] theorem setToken_mem (s : State) (chan t) : (s.setToken chan t).mem = s.mem := rfl

theorem intoRing_canonical {s : State} (h : memWf s.mem = true) (chan p) : memWf (s.intoRing chan p).mem = true := by
  grind -ring -linarith [State.intoRing]

theorem execTokenCapture_keeps (chan port) : OutKeeps (execTokenCapture chan port) :=
  event_keeps fun s h => by grind -ring -linarith [setToken_mem, !intoRing_canonical]

theorem execTokenOwnerPass_keeps (chan) : OutKeeps (execTokenOwnerPass chan) :=
  event_keeps fun s h => by grind -ring -linarith [freeBytes_mem, setToken_mem]

theorem offRing_canonical {s : State} (h : memWf s.mem = true) (p) : memWf (s.offRing p).mem = true := by
  grind -ring -linarith [State.offRing, !atRouter_canonical, atPort_mem]

theorem enterRing_canonical {s : State} (h : memWf s.mem = true) (cluster stop cw resp) :
    memWf (s.enterRing cluster stop cw resp).mem = true := by
  grind -ring -linarith [State.enterRing]

theorem execRingAdvance_keeps (cluster stop cw resp) : OutKeeps (execRingAdvance cluster stop cw resp) :=
  event_keeps fun s h => by grind -ring -linarith [!offRing_canonical, !enterRing_canonical]

theorem fabricEvent_canonical {s : State} (h : memWf s.mem = true) (code w1 w2) :
    memWf (s.fabricEvent code w1 w2).mem = true := by
  grind -ring -linarith [State.fabricEvent, !post_canonical, freeWord_mem]

theorem takeBack_canonical {s : State} (h : memWf s.mem = true) (n) : memWf (s.takeBack n).mem = true := by
  grind -ring -linarith [State.takeBack, setGroup_mem, foldl_canonical]

theorem takeBacks_canonical {s : State} (h : memWf s.mem = true) (t) : memWf (s.takeBacks t).mem = true := by
  grind -ring -linarith [State.takeBacks, !takeBack_canonical, foldl_canonical]

theorem moveTraffic_canonical {s : State} (h : memWf s.mem = true) (n m) : memWf (s.moveTraffic n m).mem = true := by
  grind -ring -linarith [State.moveTraffic, setGroup_mem, foldl_canonical]

theorem applyHeat_canonical {s : State} (h : memWf s.mem = true) (f g) : memWf (s.applyHeat f g).mem = true := by
  grind -ring -linarith [State.applyHeat, foldl_canonical]

theorem startWake_canonical {s : State} (h : memWf s.mem = true) (n retrain) : memWf (s.startWake n retrain).mem = true := by
  grind -ring -linarith [State.startWake, setGroup_mem, !applyHeat_canonical]

theorem retarget_canonical {s : State} (h : memWf s.mem = true) (n old) : memWf (s.retarget n old).mem = true := by
  grind -ring -linarith [State.retarget, !startWake_canonical, setGroup_mem]

theorem parkNow_canonical {s : State} (h : memWf s.mem = true) (n) : memWf (s.parkNow n).mem = true := by
  grind -ring -linarith [State.parkNow, setGroup_mem, !fabricEvent_canonical]

theorem nakAt_canonical {s : State} (h : memWf s.mem = true) (n g) : memWf (s.nakAt n g).mem = true := by
  grind -ring -linarith [State.nakAt, setGroup_mem]

theorem sendAgain_canonical {s : State} (h : memWf s.mem = true) (n) : memWf (s.sendAgain n).mem = true := by
  grind -ring -linarith [State.sendAgain, setGroup_mem, !nakAt_canonical]

theorem letGo_canonical {s : State} (h : memWf s.mem = true) (n) : memWf (s.letGo n).mem = true := by
  grind -ring -linarith [State.letGo, !moveTraffic_canonical, foldl_canonical]

theorem widen_canonical {s : State} (h : memWf s.mem = true) (n elapsed) : memWf (s.widen n elapsed).mem = true := by
  grind -ring -linarith [State.widen, setGroup_mem, !fabricEvent_canonical, !sendAgain_canonical, !letGo_canonical]

theorem boundary_canonical {s : State} (h : memWf s.mem = true) (n) : memWf (s.boundary n).mem = true := by
  grind -ring -linarith [State.boundary, freeBytes_mem, !startWake_canonical, setGroup_mem, !widen_canonical, !parkNow_canonical]

theorem execAutoWake_keeps (n) : OutKeeps (execAutoWake n) :=
  event_keeps fun s h => by grind -ring -linarith [!boundary_canonical]

theorem farWake_canonical {s : State} (h : memWf s.mem = true) (n code) : memWf (s.farWake n code).mem = true := by
  grind -ring -linarith [State.farWake, setGroup_mem, !applyHeat_canonical]

theorem execWakeFlitReceive_keeps (n code) : OutKeeps (execWakeFlitReceive n code) :=
  event_keeps fun s h => by grind -ring -linarith [!farWake_canonical]

theorem execCdrLock_keeps (n) : OutKeeps (execCdrLock n) :=
  event_keeps fun s h => by grind -ring -linarith [setGroup_mem]

theorem wakeDone_canonical {s : State} (h : memWf s.mem = true) (n elapsed) : memWf (s.wakeDone n elapsed).mem = true := by
  grind -ring -linarith [State.wakeDone, setGroup_mem, !widen_canonical]

theorem execReadyReceive_keeps (n elapsed) : OutKeeps (execReadyReceive n elapsed) :=
  event_keeps fun s h => by grind -ring -linarith [!wakeDone_canonical]

theorem execWidthFlitReceive_keeps (n code) : OutKeeps (execWidthFlitReceive n code) :=
  event_keeps fun s h => by grind -ring -linarith [setGroup_mem]

theorem execWakeBudgetExpiry_keeps (n) : OutKeeps (execWakeBudgetExpiry n) :=
  event_keeps fun s h => by grind -ring -linarith [setGroup_mem, !fabricEvent_canonical]

theorem endMove_canonical {s : State} (h : memWf s.mem = true) (n ok) : memWf (s.endMove n ok).mem = true := by
  grind -ring -linarith [State.endMove, setGroup_mem, !fabricEvent_canonical, !sendAgain_canonical, !applyHeat_canonical]

theorem execRingMoveReady_keeps (n) : OutKeeps (execRingMoveReady n) :=
  event_keeps fun s h => by grind -ring -linarith [!endMove_canonical]

theorem execRingMoveBudgetExpiry_keeps (n) : OutKeeps (execRingMoveBudgetExpiry n) :=
  event_keeps fun s h => by grind -ring -linarith [!endMove_canonical]

theorem assemble_canonical {s : State} (h : memWf s.mem = true) (n) : memWf (s.assemble n).mem = true := by
  grind -ring -linarith [State.assemble, !atRouter_canonical]

theorem execTorusHop_keeps (dir resp) : OutKeeps (execTorusHop dir resp) :=
  event_keeps fun s h => by grind -ring -linarith [!assemble_canonical, freeBytes_mem, setGroup_mem, !takeBacks_canonical,
    foldl_canonical]

theorem takeFlit_canonical {s : State} (h : memWf s.mem = true) (n kind seq payload) :
    memWf (s.takeFlit n kind seq payload).mem = true := by
  grind -ring -linarith [State.takeFlit, !assemble_canonical, setGroup_mem, !nakAt_canonical]

theorem groupDown_canonical {s : State} (h : memWf s.mem = true) (n) : memWf (s.groupDown n).mem = true := by
  grind -ring -linarith [State.groupDown, setGroup_mem, !fabricEvent_canonical, !moveTraffic_canonical]

@[simp] theorem gotAck_mem (s : State) (n seq) : (s.gotAck n seq).mem = s.mem := rfl

theorem gotNak_canonical {s : State} (h : memWf s.mem = true) (n seq) : memWf (s.gotNak n seq).mem = true := by
  grind -ring -linarith [State.gotNak, setGroup_mem, !groupDown_canonical]

theorem execAckReceive_keeps (n seq) : OutKeeps (execAckReceive n seq) :=
  event_keeps fun s h => by grind -ring -linarith [gotAck_mem]

theorem execNakReceive_keeps (n seq) : OutKeeps (execNakReceive n seq) :=
  event_keeps fun s h => by grind -ring -linarith [!gotNak_canonical]

theorem execAckTimer_keeps (n) : OutKeeps (execAckTimer n) :=
  event_keeps fun s h => by grind -ring -linarith [setGroup_mem]

theorem execFlitReceive_keeps (n flit) : OutKeeps (execFlitReceive n flit) :=
  event_keeps fun s h => by grind -ring -linarith [!gotNak_canonical, gotAck_mem, !nakAt_canonical, !farWake_canonical,
    !endMove_canonical, !takeFlit_canonical]

theorem execMpdSample_keeps (f r) : OutKeeps (execMpdSample f r) :=
  event_keeps fun s h => by grind -ring -linarith [freeBytes_mem]

theorem q6Served_canonical {s : State} (h : memWf s.mem = true) (q answer) : memWf (s.q6Served q answer).mem = true := by
  grind -ring -linarith [State.q6Served, !giveThread_canonical]

theorem serveQ6_canonical {s : State} (h : memWf s.mem = true) {f : State → Word → Nat × State}
    (hf : ∀ s w, memWf s.mem = true → memWf (f s w).2.mem = true) (core ctx mine) :
    memWf (s.serveQ6 core ctx mine f).mem = true := by
  grind -ring -linarith [State.serveQ6, !q6Served_canonical]

theorem execFabricRegisterRead_keeps (core ctx) : OutKeeps (execFabricRegisterRead core ctx) :=
  event_keeps fun s h => by grind -ring -linarith [!serveQ6_canonical]

theorem plainFabric_canonical {s : State} (h : memWf s.mem = true) (w) : memWf (s.plainFabric w).mem = true := by
  grind -ring -linarith [State.plainFabric, setGroup_mem]

theorem execFabricRegisterWrite_keeps (core ctx) : OutKeeps (execFabricRegisterWrite core ctx) :=
  event_keeps fun s h => by grind -ring -linarith [!serveQ6_canonical, !plainFabric_canonical]

theorem execLgctlWrite_keeps (core ctx) : OutKeeps (execLgctlWrite core ctx) :=
  event_keeps fun s h => by grind -ring -linarith [!serveQ6_canonical, setGroup_mem, !retarget_canonical, !parkNow_canonical]

theorem execHeatWrite_keeps (core ctx) : OutKeeps (execHeatWrite core ctx) :=
  event_keeps fun s h => by grind -ring -linarith [!serveQ6_canonical]

theorem execRingmapWrite_keeps (core ctx) : OutKeeps (execRingmapWrite core ctx) :=
  event_keeps fun s h => by grind -ring -linarith [!serveQ6_canonical, setGroup_mem, !applyHeat_canonical]

theorem execTorusposWrite_keeps (core ctx) : OutKeeps (execTorusposWrite core ctx) :=
  event_keeps fun s h => by grind -ring -linarith [!serveQ6_canonical]

/-! ## The operations of Machine/Placement.lean -/

@[simp] theorem placeArcade_mem (s : State) (die l clusters) : (s.placeArcade die l clusters).mem = s.mem := rfl

theorem placeFirst_canonical {s : State} (h : memWf s.mem = true) (die x1) : memWf (s.placeFirst die x1).mem = true := by
  fun_induction State.placeFirst s die x1 <;> grind -ring -linarith [setLaunch_mem, placeArcade_mem]

theorem execArcadePlacement_keeps (die) : OutKeeps (execArcadePlacement die) :=
  event_keeps fun s h => by grind -ring -linarith [!placeFirst_canonical]

theorem returnArea_canonical {s : State} (h : memWf s.mem = true) (a) : memWf (s.returnArea a).mem = true := by
  grind -ring -linarith [State.returnArea, setDie_mem]

theorem freshTeam_canonical {s : State} (h : memWf s.mem = true) (l no core slot tiles area) :
    memWf (s.freshTeam l no core slot tiles area).mem = true := by
  grind -ring -linarith [State.freshTeam, setQueue_mem, setTile_mem, setTeam_mem, foldl_canonical]

theorem resumeSaved_canonical {s : State} (h : memWf s.mem = true) (x) : memWf (s.resumeSaved x).mem = true := by
  grind -ring -linarith [State.resumeSaved, dropXfer_mem, !blockHead_canonical, !requeue_canonical, !suspend_canonical]

theorem returnTeam_canonical {s : State} (h : memWf s.mem = true) (w core slot tiles) :
    memWf (s.returnTeam w core slot tiles).mem = true := by
  grind -ring -linarith [State.returnTeam, setQueue_mem, !resumeSaved_canonical, setTile_mem, setTeam_mem, setMatrix_mem,
    !streamStart_canonical, foldl_canonical]

theorem settleIn_canonical {s : State} (h : memWf s.mem = true) {t : State} {l p core} (e : s.settleIn l p core = some t) :
    memWf t.mem = true := by
  unfold State.settleIn at e
  dsimp only at e
  repeat' split at e
  · cases e
  · cases e
    exact returnTeam_canonical h ..
  · cases e
  · cases e
    refine freshTeam_canonical ?_ ..
    exact h
  · cases e
  · cases e

theorem execTeamResidency_keeps (core) : OutKeeps (execTeamResidency core) := by
  refine event_keeps fun s h => ?_
  cases e : (s.arcadesAt core).findSome? fun x => s.settleIn x.1 x.2 core with
  | none => exact h
  | some t =>
    obtain ⟨x, -, hx⟩ := List.exists_of_findSome?_eq_some e
    exact settleIn_canonical h hx

theorem execFiringRetire_keeps (firing) : OutKeeps (execFiringRetire firing) :=
  event_keeps fun s h => by grind -ring -linarith [setLaunch_mem, !wqWork_canonical]

@[simp] theorem interrupt_mem (s : State) (vec) : (s.interrupt vec).mem = s.mem := rfl

theorem notifyHost_canonical {s : State} (h : memWf s.mem = true) (vec window) : memWf (s.notifyHost vec window).mem = true := by
  grind -ring -linarith [State.notifyHost, interrupt_mem]

theorem record_canonical {s : State} (h : memWf s.mem = true)
    (notify id status detail items swept traps dropped start vec window) :
    memWf (s.record notify id status detail items swept traps dropped start vec window).mem = true := by
  grind -ring -linarith [State.record, !engWrite_canonical, !notifyHost_canonical]

theorem notification_canonical {s : State} (h : memWf s.mem = true) (l status) : memWf (s.notification l status).mem = true := by
  grind -ring -linarith [State.notification, !record_canonical]

theorem execInterruptWindowExpiry_keeps (vec) : OutKeeps (execInterruptWindowExpiry vec) :=
  event_keeps fun s h => by grind -ring -linarith [interrupt_mem]

theorem endTeam_canonical {s : State} (h : memWf s.mem = true) (t) : memWf (s.endTeam t).mem = true := by
  grind -ring -linarith [State.endTeam, !unbind_canonical, !returnArea_canonical, foldl_canonical]

@[simp] theorem dropLaunch_mem (s : State) (id) : (s.dropLaunch id).mem = s.mem := rfl

theorem settleLaunch_canonical {s : State} (h : memWf s.mem = true) (l) : memWf (s.settleLaunch l).mem = true := by
  grind -ring -linarith [State.settleLaunch, setLaunch_mem, dropLaunch_mem, !notification_canonical]

theorem sendNotes_canonical {s : State} (h : memWf s.mem = true) : memWf s.sendNotes.mem = true := by
  grind -ring -linarith [State.sendNotes, !post_canonical, foldl_canonical]

theorem teamTasks_canonical {s : State} (h : memWf s.mem = true) (t) : memWf (s.teamTasks t).mem = true := by
  grind -ring -linarith [State.teamTasks, !stageTasks_canonical, !lightTasks_canonical, foldl_canonical]

/-! ## The operations of Machine/Closing.lean -/

theorem finishChunk_canonical {s : State} (h : memWf s.mem = true) (core r) : memWf (s.finishChunk core r).mem = true := by
  grind -ring -linarith [State.finishChunk, drawTokens_mem, !runChunk_canonical, !refill_canonical]

theorem finishMatrix_canonical {s : State} (h : memWf s.mem = true) (t x1) : memWf (s.finishMatrix t x1).mem = true := by
  fun_induction State.finishMatrix s t x1 <;> grind -ring -linarith [!finishChunk_canonical, !sequence_canonical]

theorem landWhole_canonical {s : State} (h : memWf s.mem = true) (id u) : memWf (s.landWhole id u).mem = true := by
  grind -ring -linarith [State.landWhole, !landUnit_canonical]

theorem moveAll_canonical {s : State} (h : memWf s.mem = true) (id) : memWf (s.moveAll id).mem = true := by
  grind -ring -linarith [State.moveAll, !landWhole_canonical, foldl_canonical]

theorem forceTurn_canonical {s : State} (h : memWf s.mem = true) (r) : memWf (s.forceTurn r).mem = true := by
  grind -ring -linarith [State.forceTurn, !releaseTurns_canonical, !applyPacket_canonical, putXfer_mem]

theorem advanceCopy_canonical {s : State} (h : memWf s.mem = true) (x) : memWf (s.advanceCopy x).mem = true := by
  grind -ring -linarith [State.advanceCopy, !landChunk_canonical, !stepCopy_canonical]

theorem runCopy_canonical {s : State} (h : memWf s.mem = true) (id x1) : memWf (s.runCopy id x1).mem = true := by
  fun_induction State.runCopy s id x1 <;> grind -ring -linarith [!advanceCopy_canonical]

theorem runXfer_canonical {s : State} (h : memWf s.mem = true) (id) : memWf (s.runXfer id).mem = true := by
  grind -ring -linarith [State.runXfer, !runCopy_canonical, !moveAll_canonical, putXfer_mem]

theorem finishTransfers_canonical {s : State} (h : memWf s.mem = true) (t) : memWf (s.finishTransfers t).mem = true := by
  grind -ring -linarith [State.finishTransfers, !runXfer_canonical, !moveAll_canonical, !forceTurn_canonical,
    !completeXfer_canonical, foldl_canonical]

theorem suspendCopies_canonical {s : State} (h : memWf s.mem = true) (t) : memWf (s.suspendCopies t).2.mem = true := by
  refine foldl_canonical (fun s k h => streamStart_canonical h ..) _
    (foldl_canonical (fun s x h => ?_) _ (foldl_canonical (fun s x h => ?_) _ h))
  · exact markBlock_canonical (by simpa) ..
  · cases s.xfer? x.id with
    | none => exact h
    | some y => exact advanceCopy_canonical h y

theorem pauseDescent_canonical {s : State} (h : memWf s.mem = true) (c) : memWf (s.pauseDescent c).mem = true := by
  grind -ring -linarith [State.pauseDescent, !engWrite_canonical, !travFault_canonical, putTcmd_mem, !wqWork_canonical]

theorem sweepContext_canonical {s : State} (h : memWf s.mem = true) (tid) : memWf (s.sweepContext tid).mem = true := by
  grind -ring -linarith [State.sweepContext, !bringHome_canonical, !saveToArea_canonical]

theorem saveTile_canonical {s : State} (h : memWf s.mem = true) (core at_ t) : memWf (s.saveTile core at_ t).2.mem = true := by
  grind -ring -linarith [State.saveTile, freeBytes_mem, !homeWrite_canonical]

theorem saveTiles_canonical {s : State} (h : memWf s.mem = true) (t) : memWf (s.saveTiles t).2.mem = true := by
  refine foldl_keeps (fun a p h => ?_) h
  grind -ring -linarith [!settleTile_canonical, !saveTile_canonical, setTile_mem]

theorem sweepTeam_canonical {s : State} (h : memWf s.mem = true) (key) : memWf (s.sweepTeam key).mem = true := by
  grind -ring -linarith [State.sweepTeam, setQueue_mem, freeBytes_mem, !finishTransfers_canonical, !suspendCopies_canonical,
    !homeWrite_canonical, !pauseDescent_canonical, !saveTiles_canonical, !finishMatrix_canonical, setMatrix_mem,
      !sweepContext_canonical, foldl_canonical]

theorem sweepDie_canonical {s : State} (h : memWf s.mem = true) (launch die) : memWf (s.sweepDie launch die).mem = true := by
  grind -ring -linarith [State.sweepDie, !sweepTeam_canonical, foldl_canonical]

theorem discardTeam_canonical {s : State} (h : memWf s.mem = true) (w) : memWf (s.discardTeam w).mem = true := by
  grind -ring -linarith [State.discardTeam, !unbind_canonical, !returnArea_canonical, foldl_canonical]

theorem closeLaunch_canonical {s : State} (h : memWf s.mem = true) (l) : memWf (s.closeLaunch l).mem = true := by
  grind -ring -linarith [State.closeLaunch, !sweepDie_canonical, setLaunch_mem, foldl_canonical]

@[simp] theorem resumeLaunch_mem (s : State) (l) : (s.resumeLaunch l).mem = s.mem := rfl

theorem cancelLaunch_canonical {s : State} (h : memWf s.mem = true) (l) : memWf (s.cancelLaunch l).mem = true := by
  grind -ring -linarith [State.cancelLaunch, !sweepDie_canonical, dropLaunch_mem, !notification_canonical,
    !discardTeam_canonical, foldl_canonical]

theorem closeOp_canonical {s : State} (h : memWf s.mem = true) (op l) : memWf (s.closeOp op l).mem = true := by
  grind -ring -linarith [State.closeOp, resumeLaunch_mem, !closeLaunch_canonical, !cancelLaunch_canonical]

theorem mustBeZero_keeps (bad) : Keeps (mustBeZero bad) := by
  mvcgen [mustBeZero, trap_keeps]

theorem closing_keeps (d op) : Keeps (closing d op) := by
  mvcgen [closing, getTh_keeps, advance_keeps, writeI_keeps, mustBeZero_keeps]
  grind -ring -linarith [!closeOp_canonical]

theorem execClose_keeps (d op) : OutKeeps (execClose d op) :=
  run_keeps (by mvcgen [getTh_keeps, closing_keeps, mustBeZero_keeps, lawful_keeps, trapWhole_keeps])

theorem execCloseResume_keeps (d) : OutKeeps (execCloseResume d) :=
  run_keeps (by mvcgen [closing_keeps, lawful_keeps])

theorem execCloseCancel_keeps (d) : OutKeeps (execCloseCancel d) :=
  run_keeps (by mvcgen [closing_keeps, lawful_keeps])

theorem execCloseTimerExpiry_keeps (die id) : OutKeeps (execCloseTimerExpiry die id) :=
  event_keeps fun s h => by grind -ring -linarith [!sweepDie_canonical, setLaunch_mem]

theorem reachAll_keeps (w c perm off f n) : Keeps (reachAll w c perm off f n) := by
  induction f generalizing off n with
  | zero => mvcgen [reachAll]
  | succ f ih => mvcgen [reachAll, locate_keeps, ih]

theorem execCtxsv_keeps (d a) : OutKeeps (execCtxsv d a) :=
  run_keeps <| by
    mvcgen [storeRange_keeps, getTh_keeps, runS_keeps, writeI_keeps, reachAll_keeps, drainMine_keeps, lawful_keeps,
      checkCap_keeps] <;>
      grind -ring -linarith [recordOf_mem, !detach_canonical, !drain_canonical, !freeRecord_canonical]

theorem execCtxld_keeps (d a) : OutKeeps (execCtxld d a) :=
  run_keeps <| by
    mvcgen [getTh_keeps, loadRange_keeps, writeI_keeps, lawful_keeps, checkCap_keeps]
    grind -ring -linarith [!restore_canonical]

/-! ## The operations of Machine/Launching.lean -/

theorem notifyOk_canonical {s : State} (h : memWf s.mem = true) (core c) : memWf (s.notifyOk core c).2.mem = true := by
  grind -ring -linarith [State.notifyOk, !translate_canonical]

theorem refuseLaunch_canonical {s : State} (h : memWf s.mem = true) (l w) : memWf (s.refuseLaunch l w).mem = true := by
  grind -ring -linarith [State.refuseLaunch, !record_canonical]

theorem execLaunch_keeps (d h ov) : OutKeeps (execLaunch d h ov) := by
  refine run_keeps (keeps_bind (lawful_keeps _) fun _ => keeps_bind getTh_keeps fun t =>
    keeps_bind (checkCap_keeps _ _ _ _ _ _) fun _ => ?_)
  have hw : ∀ w, Keeps (do writeI w; advance) := fun w => keeps_bind (writeI_keeps w) fun _ => advance_keeps
  dsimp only
  split
  on_goal 1 => refine keeps_bind (trapWhole_keeps _ _) fun _ => ?_
  all_goals
    refine keeps_bind drainMine_keeps fun _ => keeps_bind (loadBlock_keeps _ _ _ _) fun head =>
      keeps_bind (loadRange_keeps _ _ _ _ _) fun tb => keeps_bind (fun _ h => h) fun s => ?_
    generalize parseSpec _ _ _ _ = l
    generalize State.nextLaunch s = id
    refine keeps_bind (runS_keeps fun s h => notifyOk_canonical h _ _) fun dram => ?_
    generalize State.judge _ _ _ _ _ = p
    split
    · exact keeps_bind (fun _ h => h) fun _ => hw _
    · split
      · exact keeps_bind (fun _ h => refuseLaunch_canonical h ..) fun _ => hw _
      · exact hw _

theorem windowWrite_canonical {s : State} (h : memWf s.mem = true) (off b) : memWf (s.windowWrite off b).mem = true := by
  grind -ring -linarith [State.windowWrite, !post_canonical, !homeWrite_canonical, freeWord_mem, foldl_canonical]

theorem heldWrites_canonical {s : State} (h : memWf s.mem = true) (x0) : memWf (s.heldWrites x0).mem = true := by
  fun_induction State.heldWrites s x0 <;> grind -ring -linarith [!windowWrite_canonical]

theorem execHostMessageWrite_keeps (off bytes) : OutKeeps (execHostMessageWrite off bytes) :=
  event_keeps fun s h => by grind -ring -linarith [!heldWrites_canonical]

theorem execHostMemoryAccess_keeps (write off bytes) : OutKeeps (execHostMemoryAccess write off bytes) :=
  event_keeps fun s h => by grind -ring -linarith [!homeWrite_canonical]

theorem tidy_canonical {s : State} (h : memWf s.mem = true) : memWf s.tidy.mem = true := by
  grind -ring -linarith [State.tidy, !teamTasks_canonical, !endTeam_canonical, watchSaved_mem, !heldWrites_canonical,
    !forgetVersions_canonical, !sendNotes_canonical, !settleLaunch_canonical, foldl_canonical]

/-! ## The operations of Machine/Service.lean -/

theorem dieWrite_canonical {s : State} (h : memWf s.mem = true) (die num v) : memWf (s.dieWrite die num v).mem = true := by
  grind -ring -linarith [State.dieWrite, setDie_mem]

theorem execDieRegisterWrite_keeps (die num v) : OutKeeps (execDieRegisterWrite die num v) :=
  event_keeps fun s h => by grind -ring -linarith [!dieWrite_canonical]

theorem pushPool_canonical {s : State} (h : memWf s.mem = true) (die slice v) : memWf (s.pushPool die slice v).mem = true := by
  grind -ring -linarith [State.pushPool, setPool_mem]

theorem execPoolPush_keeps (die slice v) : OutKeeps (execPoolPush die slice v) :=
  event_keeps fun s h => by grind -ring -linarith [!pushPool_canonical]

@[simp] theorem writeBudget_mem (s : State) (v) : (s.writeBudget v).mem = s.mem := rfl

theorem execPwrbudWrite_keeps (v) : OutKeeps (execPwrbudWrite v) :=
  event_keeps fun s h => by grind -ring -linarith [writeBudget_mem]

theorem writeBody_canonical {s : State} (h : memWf s.mem = true) (v) : memWf (s.writeBody v).mem = true := by
  grind -ring -linarith [State.writeBody]

theorem execAttestBodyWrite_keeps (v) : OutKeeps (execAttestBodyWrite v) :=
  event_keeps fun s h => by grind -ring -linarith [!writeBody_canonical]

@[simp] theorem signature_mem (s : State) (body) : (s.signature body).2.mem = s.mem := rfl

theorem execAttestComplete_keeps : OutKeeps execAttestComplete :=
  event_keeps fun s h => by grind -ring -linarith [!homeWrite_canonical, signature_mem]

theorem writeSpare_canonical {s : State} (h : memWf s.mem = true) (die v) : memWf (s.writeSpare die v).mem = true := by
  grind -ring -linarith [State.writeSpare, setDie_mem]

theorem execSpareTakeover_keeps (die v) : OutKeeps (execSpareTakeover die v) :=
  event_keeps fun s h => by grind -ring -linarith [!writeSpare_canonical]

@[simp] theorem coldCore_mem (s : State) (core) : (s.coldCore core).mem = s.mem := rfl

theorem finishTakeover_canonical {s : State} (h : memWf s.mem = true) (die) : memWf (s.finishTakeover die).mem = true := by
  grind -ring -linarith [State.finishTakeover, coldCore_mem, setDie_mem, foldl_canonical]

theorem execSpareTakeoverComplete_keeps (die) : OutKeeps (execSpareTakeoverComplete die) :=
  event_keeps fun s h => by grind -ring -linarith [!finishTakeover_canonical]

theorem writeReg_canonical {s : State} (h : memWf s.mem = true) (die num v) : memWf (s.writeReg die num v).mem = true := by
  grind -ring -linarith [State.writeReg, !pushPool_canonical, !writeSpare_canonical, writeBudget_mem, !dieWrite_canonical,
    !writeBody_canonical]

theorem execCorrectedError_keeps (unit addr) : OutKeeps (execCorrectedError unit addr) :=
  event_keeps fun s h => by grind -ring -linarith [setDie_mem]

theorem poisonUnit_canonical {s : State} (h : memWf s.mem = true) (u a) : memWf (s.poisonUnit u a).mem = true := by
  cases u with
  | scratchpad | dram | tier2 => exact poisonAt_canonical h _
  | sliceBuffer => exact poisonBuf_canonical h _
  | nodeCache | icache | control => exact h

@[simp] theorem tileRecord_mem (s : State) (core t) : (s.tileRecord core t).2.mem = s.mem := rfl

theorem gather_canonical {f : State → Nat → List Byte × State} (hf : ∀ s k, memWf s.mem = true → memWf (f s k).2.mem = true)
    {s : State} (h : memWf s.mem = true) (n : Nat) : memWf (gather f s n).2.mem = true := by
  unfold gather
  refine foldl_keeps (b := ([], s)) (fun a k h => ?_) h
  exact hf a.2 k h

/-- The two sweeps over 32,768 contexts and 65,536 tiles stand as one unknown operation here: a term that names them would be
evaluated when it is checked. -/
theorem dumpSections_canonical {s : State} (h : memWf s.mem = true) : memWf s.dumpSections.2.mem = true := by
  have hg := @gather_canonical
  obtain ⟨dump, e⟩ : ∃ dump, dump = State.dumpSections := ⟨_, rfl⟩
  rw [← e]
  delta State.dumpSections at e
  generalize gather = sweep at e hg
  revert sweep
  refine id fun sweep e hg => ?_
  rw [e]
  exact hg (fun s k h => by simpa using h) (hg (fun s k h => by simpa using h) h 32768) 65536

/-- The dump stands as an unknown operation, as in `dumpSections_canonical`. -/
theorem fatal_canonical {s : State} (h : memWf s.mem = true) (unit die addr) : memWf (s.fatal unit die addr).mem = true := by
  have hw := homeWrite_canonical
  have hd := @dumpSections_canonical
  obtain ⟨fatal, e⟩ : ∃ fatal, fatal = State.fatal := ⟨_, rfl⟩
  rw [← e]
  delta State.fatal at e
  generalize State.dumpSections = dump at hd e
  generalize State.homeWrite = write at hw e
  revert write dump
  refine id fun dump hd write hw e => ?_
  rw [e]
  exact hw _ _ _ _ (hw _ _ _ _ (hd (logError_canonical h ..)))

theorem uncorrectable_canonical {s : State} (h : memWf s.mem = true) (unit die addr) :
    memWf (s.uncorrectable unit die addr).mem = true := by
  grind -ring -linarith [State.uncorrectable, !fatal_canonical, !poisonUnit_canonical, !logError_canonical]

theorem execUncorrectableError_keeps (unit die addr) : OutKeeps (execUncorrectableError unit die addr) :=
  event_keeps fun s h => by grind -ring -linarith [!uncorrectable_canonical]

theorem execFatalError_keeps (die unit addr) : OutKeeps (execFatalError die unit addr) :=
  event_keeps fun s h => by grind -ring -linarith [!uncorrectable_canonical]

theorem bootWrite_canonical {s : State} (h : memWf s.mem = true) (die num v) : memWf (s.bootWrite die num v).mem = true := by
  grind -ring -linarith [State.bootWrite, !writeSpare_canonical, !finishTakeover_canonical, !writeReg_canonical]

@[simp] theorem inReset_mem (s : State) : s.inReset.mem = s.mem := rfl

theorem booted_canonical {s : State} (h : memWf s.mem = true) (img) : memWf (s.booted img).mem = true := by
  grind -ring -linarith [State.booted, !homeWrite_canonical, !bootWrite_canonical, inReset_mem, foldl_canonical]

theorem bootOr_canonical (img) {s t : State} (h : memWf s.mem = true)
    (e : (if imageVerified img = true then s.booted img else s.inReset) = t) : memWf t.mem = true := by
  split at e
  · rw [← e]
    exact booted_canonical h img
  · rw [← e, inReset_mem]
    exact h

theorem execBootReset_keeps (img) : OutKeeps (execBootReset img) :=
  fun _ _ h e => bootOr_canonical img h (Host.Outcome.next.inj e)

theorem execMemoryPortLinkChange_keeps (die up) : OutKeeps (execMemoryPortLinkChange die up) :=
  event_keeps fun s h => by grind -ring -linarith [setDie_mem]

/-! ## The operations of Machine/Migrating.lean -/

theorem execMigrationMoveComplete_keeps (slice) : OutKeeps (execMigrationMoveComplete slice) :=
  event_keeps fun s h => by grind -ring -linarith [!completeMove_canonical]

theorem execMigrationWindowEnd_keeps (page) : OutKeeps (execMigrationWindowEnd page) :=
  event_keeps fun s h => by grind -ring -linarith [setPage_mem]

theorem execRedirectForward_keeps (slice) : OutKeeps (execRedirectForward slice) :=
  event_keeps fun s h => by grind -ring -linarith [!forwardAll_canonical]

@[simp] theorem takeNotice_mem (s : State) (n) : (s.takeNotice n).mem = s.mem := rfl

theorem execRedirectNotice_keeps (n) : OutKeeps (execRedirectNotice n) :=
  event_keeps fun s h => by grind -ring -linarith [takeNotice_mem]

theorem execRedirectRetire_keeps (slice) : OutKeeps (execRedirectRetire slice) :=
  event_keeps fun s h => by grind -ring -linarith [!retireRedirect_canonical]

/-! ## The operations of Machine/System.lean -/

theorem execIll_keeps (word code) : OutKeeps (execIll word code) :=
  run_keeps (by mvcgen [trap_keeps])

theorem execTrap_keeps (n) : OutKeeps (execTrap n) :=
  run_keeps (by mvcgen [stop_keeps])

theorem execBrk_keeps (n) : OutKeeps (execBrk n) :=
  run_keeps (by mvcgen [stop_keeps])

theorem execSrd_keeps (d n) : OutKeeps (execSrd d n) :=
  run_keeps (by mvcgen [writeI_keeps])

theorem keepReg_canonical {s : State} (h : memWf s.mem = true) (n) : memWf (s.keepReg n).mem = true := by
  grind -ring -linarith [State.keepReg, setLaunch_mem]

theorem execSwr_keeps (r n) : OutKeeps (execSwr r n) :=
  run_keeps (by mvcgen [modTh_keeps, getTh_keeps, advance_keeps] <;> grind -ring -linarith [!keepReg_canonical])

theorem execEret_keeps : OutKeeps execEret :=
  run_keeps (by mvcgen [lawful_keeps])

theorem dieNamed_keeps (d) : Keeps (dieNamed d) := by
  mvcgen [dieNamed, mustBeZero_keeps, trapWhole_keeps]

theorem answerReg_keeps (d die num) : Keeps (answerReg d die num) := by
  mvcgen [answerReg, writeI_keeps]

theorem execMwr_keeps (d r) : OutKeeps (execMwr d r) :=
  run_keeps <| by
    mvcgen [getTh_keeps, dieNamed_keeps, drainMine_keeps, answerReg_keeps, lawful_keeps]
    grind -ring -linarith [!writeReg_canonical]

theorem execMrd_keeps (d) : OutKeeps (execMrd d) :=
  run_keeps (by mvcgen [dieNamed_keeps, lawful_keeps])

theorem execWaiti_keeps : OutKeeps execWaiti :=
  run_keeps (by mvcgen [parkOr_keeps, advance_keeps, lawful_keeps])

theorem execWaitiTimeout_keeps (core ctx) : OutKeeps (execWaitiTimeout core ctx) :=
  event_keeps fun s h => by grind -ring -linarith [!completeParked_canonical]

theorem deliverRecord_canonical {s : State} (h : memWf s.mem = true) (tid) : memWf (s.deliverRecord tid).mem = true := by
  grind -ring -linarith [State.deliverRecord, !drop_canonical, withdraw_mem, setThread_mem, !takeTrap_canonical]

theorem execEngineFaultDelivery_keeps (core ctx) : OutKeeps (execEngineFaultDelivery core ctx) :=
  event_keeps fun s h => by grind -ring -linarith [!deliverRecord_canonical]

/-! ## The operations of Machine/Object.lean -/

theorem wakeAbsent_canonical {s : State} (h : memWf s.mem = true) (r fail tid) : memWf (s.wakeAbsent r fail tid).mem = true := by
  grind -ring -linarith [State.wakeAbsent, setThread_mem, !takeTrap_canonical]

theorem invalidate_canonical {s : State} (h : memWf s.mem = true) (r fail) : memWf (s.invalidate r fail).mem = true := by
  grind -ring -linarith [State.invalidate, forgetNodes_mem, !wakeAbsent_canonical, unblock_mem, !drain_canonical, foldl_canonical]

theorem execObjinv_keeps (whole d r) : OutKeeps (execObjinv whole d r) :=
  run_keeps <| by
    mvcgen [getTh_keeps, writeI_keeps, drainMine_keeps, lawful_keeps, trapWhole_keeps] <;>
      grind -ring -linarith [!invalidate_canonical]

@[simp] theorem arrive_mem (s : State) (tid at_) : (s.arrive tid at_).mem = s.mem := rfl

theorem execShippedRecordArrival_keeps (cluster) : OutKeeps (execShippedRecordArrival cluster) :=
  event_keeps fun s h => by grind -ring -linarith [arrive_mem]

theorem execShipRecordResend_keeps (core ctx) : OutKeeps (execShipRecordResend core ctx) :=
  event_keeps fun s h => by grind -ring -linarith [!joinShip_canonical]

theorem returnsNow_canonical {s : State} (h : memWf s.mem = true) (at_ i) : memWf (s.returnsNow at_ i).mem = true := by
  grind -ring -linarith [State.returnsNow, !bringHome_canonical]

theorem execThreadReturn_keeps (core ctx) : OutKeeps (execThreadReturn core ctx) :=
  event_keeps fun s h => by grind -ring -linarith [!returnsNow_canonical]

/-! ## The operations of Machine/Macro.lean -/

theorem trapsAt_canonical {s : State} (h : memWf s.mem = true) (cause tval) : memWf (s.trapsAt cause tval).mem = true := by
  grind -ring -linarith [State.trapsAt, !stopped_canonical]

/-! ## The operations of Machine/Fetch.lean -/

theorem fetchTrap_keeps {α : Type} (cause o) : Keeps (fetchTrap cause o : M α) := by
  mvcgen [fetchTrap, trap_keeps]

theorem codeHome_keeps (o) : Keeps (codeHome o) := by
  mvcgen [codeHome, stop_keeps, modTh_keeps, getTh_keeps, runS_keeps, fetchTrap_keeps, meetAbsent_keeps] <;>
    grind -ring -linarith [!translate_canonical, !reach_canonical]

theorem codeWord_keeps (o since) : Keeps (codeWord o since) := by
  mvcgen [codeWord, runS_keeps, codeHome_keeps, fetchTrap_keeps]
  grind -ring -linarith [!homeRead_canonical]

theorem fetchWord_keeps (i) : Keeps (fetchWord i) := by
  mvcgen [fetchWord, fetchTrap_keeps, codeWord_keeps]

theorem fetchFrom_keeps (f i) : Keeps (fetchFrom f i) := by
  induction f generalizing i with
  | zero => mvcgen [fetchFrom]
  | succ f ih => mvcgen [fetchFrom, fetchWord_keeps, ih]

theorem fetchBundle_keeps : Keeps fetchBundle := by
  mvcgen [fetchBundle, fetchFrom_keeps]

theorem misdecode_canonical {s : State} (h : memWf s.mem = true) (ws e) : memWf (s.misdecode ws e).mem = true := by
  grind -ring -linarith [State.misdecode, !trapsAt_canonical]

/-! ## The operations of Machine/Schedule.lean -/

end Sys2Proof.Machine
end

section
/-!
PROOFS. Every turn of the module keeps memory in its canonical form.
-/

namespace Sys2Proof.Machine
open Std.Do Sys2Proof.Spec

/-! ## Every bundle keeps it -/

theorem vArith2_keeps (r e d x y vm fi ff) : OutKeeps (vArith2 r e d x y vm fi ff) := by
  intro s t h hn
  unfold vArith2 at hn
  split at hn <;> cases hn <;> exact h

/-- A bundle's instruction keeps memory's form: by what it does to memory where it has a body, and because a result alone leaves
memory as it was. -/
theorem issue_keeps (i) : OutKeeps (issue i) := by
  intro s t h hn
  cases i with
  | ill a b => exact execIll_keeps a b s t h hn
  | ld a b c => exact execLd_keeps a b c s t h hn
  | st a b c => exact execSt_keeps a b c s t h hn
  | ldc a b => exact execLdc_keeps a b s t h hn
  | stc a b => exact execStc_keeps a b s t h hn
  | b a => exact execB_keeps a s t h hn
  | bc a b c => exact execBc_keeps a b c s t h hn
  | call a => exact execCall_keeps a s t h hn
  | ret => exact execRet_keeps s t h hn
  | jmp a b => exact execJmp_keeps a b s t h hn
  | jmpl a b => exact execJmpl_keeps a b s t h hn
  | jtab a b => exact execJtab_keeps a b s t h hn
  | enq a b c => exact execEnq_keeps a b c s t h hn
  | deq a b c => exact execDeq_keeps a b c s t h hn
  | done => exact execDone_keeps s t h hn
  | csetb a b c => exact execCsetb_keeps a b c s t h hn
  | cfmt a b c => exact execCfmt_keeps a b c s t h hn
  | vld a b c => exact execVld_keeps a b c s t h hn
  | vst a b c => exact execVst_keeps a b c s t h hn
  | vldx a b c d e f => exact execVldx_keeps a b c d e f s t h hn
  | vstx a b c d e f => exact execVstx_keeps a b c d e f s t h hn
  | enqn a b c d => exact execEnqn_keeps a b c d s t h hn
  | deqn a b c d => exact execDeqn_keeps a b c d s t h hn
  | qcnt a b => exact execQcnt_keeps a b s t h hn
  | qctl a b c => exact execQctl_keeps a b c s t h hn
  | qctlDiscard a b => exact execQctlDiscard_keeps a b s t h hn
  | qctlDisarm a b => exact execQctlDisarm_keeps a b s t h hn
  | qlh a b => exact execQlh_keeps a b s t h hn
  | fire a b => exact execFire_keeps a b s t h hn
  | firen a b c => exact execFiren_keeps a b c s t h hn
  | arrive a b c => exact execArrive_keeps a b c s t h hn
  | arrb a b c d => exact execArrb_keeps a b c d s t h hn
  | bwait a b => exact execBwait_keeps a b s t h hn
  | bwaitn a b c => exact execBwaitn_keeps a b c s t h hn
  | falign => exact execFalign_keeps s t h hn
  | prio a => exact execPrio_keeps a s t h hn
  | fence a b => exact execFence_keeps a b s t h hn
  | lda a b c d => exact execLda_keeps a b c d s t h hn
  | strel a b c d => exact execStrel_keeps a b c d s t h hn
  | ldver a b => exact execLdver_keeps a b s t h hn
  | ldvern a b c => exact execLdvern_keeps a b c s t h hn
  | stver a b => exact execStver_keeps a b s t h hn
  | reclaim a b => exact execReclaim_keeps a b s t h hn
  | amo a b c d e => exact execAmo_keeps a b c d e s t h hn
  | cas a b c d e f => exact execCas_keeps a b c d e f s t h hn
  | rget a b c d e => exact execRget_keeps a b c d e s t h hn
  | rsend a b c d e => exact execRsend_keeps a b c d e s t h hn
  | rgetx a b c d e => exact execRgetx_keeps a b c d e s t h hn
  | rsendx a b c d e => exact execRsendx_keeps a b c d e s t h hn
  | rsig a b c d e => exact execRsig_keeps a b c d e s t h hn
  | rarith a b c d e f => exact execRarith_keeps a b c d e f s t h hn
  | cntw a b => exact execCntw_keeps a b s t h hn
  | cntwn a b c => exact execCntwn_keeps a b c s t h hn
  | cntrd a b => exact execCntrd_keeps a b s t h hn
  | mplane a b c d => exact execMplane_keeps a b c d s t h hn
  | mma a b c d e => exact execMma_keeps a b c d e s t h hn
  | mmas a b c d e => exact execMmas_keeps a b c d e s t h hn
  | mepi a b c d e f => exact execMepi_keeps a b c d e f s t h hn
  | mepirp a => exact execMepirp_keeps a s t h hn
  | mzero a => exact execMzero_keeps a s t h hn
  | mrel a => exact execMrel_keeps a s t h hn
  | mstat a b => exact execMstat_keeps a b s t h hn
  | mstatc a b => exact execMstatc_keeps a b s t h hn
  | mwait a => exact execMwait_keeps a s t h hn
  | copy a b => exact execCopy_keeps a b s t h hn
  | cut a b c d e => exact execCut_keeps a b c d e s t h hn
  | cocut a b c d => exact execCocut_keeps a b c d s t h hn
  | cresume a b => exact execCresume_keeps a b s t h hn
  | cdrop a b => exact execCdrop_keeps a b s t h hn
  | trav a b => exact execTrav_keeps a b s t h hn
  | dtrav a => exact execDtrav_keeps a s t h hn
  | pair a b c => exact execPair_keeps a b c s t h hn
  | wgres a b c => exact execWgres_keeps a b c s t h hn
  | wgcom a b => exact execWgcom_keeps a b s t h hn
  | wgabn a b => exact execWgabn_keeps a b s t h hn
  | wgstat a b c => exact execWgstat_keeps a b c s t h hn
  | wgstatExtend a b c => exact execWgstatExtend_keeps a b c s t h hn
  | wgstatBind a b => exact execWgstatBind_keeps a b s t h hn
  | mom a b => exact execMom_keeps a b s t h hn
  | momd a b => exact execMomd_keeps a b s t h hn
  | trap a => exact execTrap_keeps a s t h hn
  | brk a => exact execBrk_keeps a s t h hn
  | srd a b => exact execSrd_keeps a b s t h hn
  | swr a b => exact execSwr_keeps a b s t h hn
  | mcall a b c d e => exact execMcall_keeps a b c d e s t h hn
  | rep a b => exact execRep_keeps a b s t h hn
  | loopp a b => exact execLoopp_keeps a b s t h hn
  | eret => exact execEret_keeps s t h hn
  | objinv a b c => exact execObjinv_keeps a b c s t h hn
  | mwr a b => exact execMwr_keeps a b s t h hn
  | mrd a => exact execMrd_keeps a s t h hn
  | launch a b c => exact execLaunch_keeps a b c s t h hn
  | close a b => exact execClose_keeps a b s t h hn
  | closeResume a => exact execCloseResume_keeps a s t h hn
  | closeCancel a => exact execCloseCancel_keeps a s t h hn
  | ctxsv a b => exact execCtxsv_keeps a b s t h hn
  | ctxld a b => exact execCtxld_keeps a b s t h hn
  | waiti => exact execWaiti_keeps s t h hn
  | vadd r e d x y vm => exact vArith2_keeps r e d x y vm (fun a b => a + b) fAdd s t h hn
  | vsub r e d x y vm => exact vArith2_keeps r e d x y vm (fun a b => a + (2 ^ velemWidth e - b)) fSub s t h hn
  | vmul r e d x y vm => exact vArith2_keeps r e d x y vm (fun a b => a * b) fMul s t h hn
  | _ => cases hn; exact h

theorem rerun_canonical {s t : State} (h : memWf s.mem = true) {tid p} (e : s.rerun tid p = .next t) : memWf t.mem = true := by
  unfold State.rerun at e
  dsimp only at e
  split at e
  · next u hu =>
    cases e
    exact macroNext_canonical (issue_keeps _ _ u (by exact h) hu) tid
  · cases e
  · cases e

theorem resend_canonical {s t : State} (h : memWf s.mem = true) {tid kind} (e : s.resend tid kind = .next t) :
    memWf t.mem = true := by
  unfold State.resend at e
  split at e
  · split at e
    · exact rerun_canonical h e
    · cases e
      exact h
  · cases e
    exact h

theorem micro_canonical {s t : State} (h : memWf s.mem = true) {r} (e : s.micro r = .next t) : memWf t.mem = true := by
  unfold State.micro at e
  dsimp only at e
  have hn : ∀ c, memWf { s with cur := c }.mem = true := fun _ => h
  split at e
  · cases e
    exact trapsAt_canonical (hn _) ..
  · split at e
    · cases e
      exact returnsNow_canonical (hn _) ..
    · split at e
      · cases e
        exact trapsAt_canonical (hn _) ..
      · split at e
        · cases e
          exact trapsAt_canonical (hn _) ..
        · split at e
          · cases e
            exact trapsAt_canonical (hn _) ..
          · split at e
            · next hu =>
              cases e
              exact macroNext_canonical (issue_keeps _ _ _ (by exact h) hu) _
            · cases e
            · cases e

theorem execMacroMicroOperation_keeps (core ctx) : OutKeeps (execMacroMicroOperation core ctx) := by
  intro s t h e
  unfold execMacroMicroOperation at e
  dsimp only at e
  split at e
  · exact micro_canonical (by exact h) e
  · cases e
    exact h

theorem execParkedBundleWake_keeps (core ctx) : OutKeeps (execParkedBundleWake core ctx) := by
  intro s t h e
  unfold execParkedBundleWake at e
  dsimp only at e
  split at e
  · split at e
    · split at e
      · cases e
        exact releaseAligned_canonical h ..
      · cases e
        exact completeParked_canonical h ..
      · exact rerun_canonical h e
    · cases e
      exact h
  · cases e
    exact h

/-- The meaning of every instruction and event keeps memory's form. -/
theorem exec_keeps (i) : OutKeeps (exec i) := by
  intro s t h hn
  have hi := issue_keeps i s t h
  cases i with
  | macroMicroOperation a b => exact execMacroMicroOperation_keeps a b s t h hn
  | taskStart a b => exact execTaskStart_keeps a b s t h hn
  | taskPriorityRaise a b => exact execTaskPriorityRaise_keeps a b s t h hn
  | parkedBundleWake a b => exact execParkedBundleWake_keeps a b s t h hn
  | parkOut a => exact execParkOut_keeps a s t h hn
  | falignReleaseTimeout a b => exact execFalignReleaseTimeout_keeps a b s t h hn
  | lightHandlerTask a b => exact execLightHandlerTask_keeps a b s t h hn
  | messageAccept => exact resend_canonical h hn
  | ldverResend => exact resend_canonical h hn
  | stverBufferTimeout a b => exact execStverBufferTimeout_keeps a b s t h hn
  | cntwResend => exact resend_canonical h hn
  | firingRetire a => exact execFiringRetire_keeps a s t h hn
  | homeRequestApply a b => exact execHomeRequestApply_keeps a b s t h hn
  | interlockedResultArrival a b => exact execInterlockedResultArrival_keeps a b s t h hn
  | waitiTimeout a b => exact execWaitiTimeout_keeps a b s t h hn
  | transferPacketApply a b => exact execTransferPacketApply_keeps a b s t h hn
  | transferComplete a => exact execTransferComplete_keeps a s t h hn
  | routerCombine a b c => exact execRouterCombine_keeps a b c s t h hn
  | copyChunkLand a b => exact execCopyChunkLand_keeps a b s t h hn
  | copyComplete a => exact execCopyComplete_keeps a s t h hn
  | streamerMarkerDelivery a => exact execStreamerMarkerDelivery_keeps a s t h hn
  | matrixCommandStart a => exact execMatrixCommandStart_keeps a s t h hn
  | matrixChunk a => exact execMatrixChunk_keeps a s t h hn
  | tileRelease a b => exact execTileRelease_keeps a b s t h hn
  | matrixMarkerDelivery a => exact execMatrixMarkerDelivery_keeps a s t h hn
  | energyTokenRefill a => exact execEnergyTokenRefill_keeps a s t h hn
  | traversalCommandStart a => exact execTraversalCommandStart_keeps a s t h hn
  | traversalMarkerDelivery a => exact execTraversalMarkerDelivery_keeps a s t h hn
  | recordDispatch a => exact execRecordDispatch_keeps a s t h hn
  | engineFaultDelivery a b => exact execEngineFaultDelivery_keeps a b s t h hn
  | shippedRecordArrival a => exact execShippedRecordArrival_keeps a s t h hn
  | shipRecordResend a b => exact execShipRecordResend_keeps a b s t h hn
  | threadReturn a b => exact execThreadReturn_keeps a b s t h hn
  | migrationMoveComplete a => exact execMigrationMoveComplete_keeps a s t h hn
  | migrationWindowEnd a => exact execMigrationWindowEnd_keeps a s t h hn
  | redirectForward a => exact execRedirectForward_keeps a s t h hn
  | redirectNotice a => exact execRedirectNotice_keeps a s t h hn
  | redirectRetire a => exact execRedirectRetire_keeps a s t h hn
  | hostMessageWrite a b => exact execHostMessageWrite_keeps a b s t h hn
  | hostMemoryAccess a b c => exact execHostMemoryAccess_keeps a b c s t h hn
  | arcadePlacement a => exact execArcadePlacement_keeps a s t h hn
  | teamResidency a => exact execTeamResidency_keeps a s t h hn
  | interruptWindowExpiry a => exact execInterruptWindowExpiry_keeps a s t h hn
  | closeTimerExpiry a b => exact execCloseTimerExpiry_keeps a b s t h hn
  | ringAdvance a b c d => exact execRingAdvance_keeps a b c d s t h hn
  | fabricRegisterRead a b => exact execFabricRegisterRead_keeps a b s t h hn
  | fabricRegisterWrite a b => exact execFabricRegisterWrite_keeps a b s t h hn
  | lgctlWrite a b => exact execLgctlWrite_keeps a b s t h hn
  | heatWrite a b => exact execHeatWrite_keeps a b s t h hn
  | ringmapWrite a b => exact execRingmapWrite_keeps a b s t h hn
  | torusposWrite a b => exact execTorusposWrite_keeps a b s t h hn
  | dieRegisterWrite a b c => exact execDieRegisterWrite_keeps a b c s t h hn
  | poolPush a b c => exact execPoolPush_keeps a b c s t h hn
  | spareTakeover a b => exact execSpareTakeover_keeps a b s t h hn
  | spareTakeoverComplete a => exact execSpareTakeoverComplete_keeps a s t h hn
  | pwrbudWrite a => exact execPwrbudWrite_keeps a s t h hn
  | attestBodyWrite a => exact execAttestBodyWrite_keeps a s t h hn
  | attestComplete => exact execAttestComplete_keeps s t h hn
  | correctedError a b => exact execCorrectedError_keeps a b s t h hn
  | uncorrectableError a b c => exact execUncorrectableError_keeps a b c s t h hn
  | fatalError a b c => exact execFatalError_keeps a b c s t h hn
  | bootReset a => exact execBootReset_keeps a s t h hn
  | memoryPortLinkChange a b => exact execMemoryPortLinkChange_keeps a b s t h hn
  | tokenCapture a b => exact execTokenCapture_keeps a b s t h hn
  | tokenOwnerPass a => exact execTokenOwnerPass_keeps a s t h hn
  | torusHop a b => exact execTorusHop_keeps a b s t h hn
  | flitReceive a b => exact execFlitReceive_keeps a b s t h hn
  | ackTimer a => exact execAckTimer_keeps a s t h hn
  | ackReceive a b => exact execAckReceive_keeps a b s t h hn
  | nakReceive a b => exact execNakReceive_keeps a b s t h hn
  | autoWake a => exact execAutoWake_keeps a s t h hn
  | wakeFlitReceive a b => exact execWakeFlitReceive_keeps a b s t h hn
  | readyReceive a b => exact execReadyReceive_keeps a b s t h hn
  | widthFlitReceive a b => exact execWidthFlitReceive_keeps a b s t h hn
  | wakeBudgetExpiry a => exact execWakeBudgetExpiry_keeps a s t h hn
  | ringMoveReady a => exact execRingMoveReady_keeps a s t h hn
  | ringMoveBudgetExpiry a => exact execRingMoveBudgetExpiry_keeps a s t h hn
  | mpdSample a b => exact execMpdSample_keeps a b s t h hn
  | cdrLock a => exact execCdrLock_keeps a s t h hn
  | _ => exact hi hn

/-! ## Every turn keeps it -/

theorem enter_canonical {s t : State} (h : memWf s.mem = true) {i} (e : s.enter i = .next t) : memWf t.mem = true := by
  unfold State.enter at e
  dsimp only at e
  split at e
  · cases e
    exact returnsNow_canonical h ..
  · split at e
    · cases e
      exact trapsAt_canonical h ..
    · split at e
      · cases e
        exact trapsAt_canonical h ..
      · split at e
        · cases e
          exact trapsAt_canonical h ..
        · exact exec_keeps _ _ t (by exact h) e

theorem issueAt_canonical {s t : State} (h : memWf s.mem = true) {core ctx} (e : s.issueAt core ctx = .next t) :
    memWf t.mem = true := by
  unfold State.issueAt at e
  dsimp only at e
  split at e
  · exact exec_keeps _ _ t (by exact h) e
  · split at e
    · exact exec_keeps _ _ t (by exact h) e
    · have hf := keeps_run fetchBundle_keeps (s := { s with cur := Cur.at_ core ctx, last := smPut s.last core ctx }) h
      split at e
      · next hb =>
        rw [hb] at hf
        cases e
        exact stopped_canonical hf _
      · next hb =>
        rw [hb] at hf
        split at e
        · cases e
          exact misdecode_canonical (by exact hf) ..
        · exact enter_canonical (by exact hf) e

theorem doTurn_canonical {s t : State} (h : memWf s.mem = true) {u} (e : s.doTurn u = .next t) : memWf t.mem = true := by
  unfold State.doTurn at e
  cases u with
  | issue core ctx =>
    dsimp only at e
    split at e
    · exact issueAt_canonical h e
    · cases e
      exact h
  | event i =>
    dsimp only at e
    split at e
    · exact exec_keeps i s t h e
    · cases e
      exact h

theorem settleAll_canonical {o : Host.Outcome State Fault Refusal} {t : State} (ho : ∀ u, o = .next u → memWf u.mem = true)
    (e : settleAll o = .next t) : memWf t.mem = true := by
  cases o with
  | next u =>
    have hu := ho u rfl
    cases e
    split
    · exact tidy_canonical hu
    · exact hu
  | fault | refused => cases e

theorem nextTurn_mem (s : State) : s.nextTurn.2.mem = s.mem := by
  unfold State.nextTurn
  split <;> rfl

/-- Settles O9: every operation that a turn takes changes memory through stores or copies of frames, which keep its form. -/
theorem stepKeepsMemoryCanonical : Obligations.StepKeepsMemoryCanonical := by
  unfold Obligations.StepKeepsMemoryCanonical
  intro s t h e
  change memWf s.mem = true at h
  have hn : ({ s with clock := s.clock + 1 } : State).nextTurn.2.mem = s.mem := nextTurn_mem _
  unfold step State.turn at e
  dsimp only at e
  split at e
  · next u v hv =>
    rw [hv] at hn
    exact settleAll_canonical (fun w hw => doTurn_canonical (by rwa [hn]) hw) e
  · next v hv =>
    rw [hv] at hn
    unfold State.idle at e
    split at e
    · cases e
    · cases e
      change t.mem = s.mem at hn
      change memWf t.mem = true
      rwa [hn]

end Sys2Proof.Machine
end

section
/-!
PROOFS. Moves, integer arithmetic and division (R92 to R95): what each pure function gives, then the statements.
-/

namespace Sys2Proof.Machine

open Sys2Proof.Spec

/-! ## Products, quotients, and the smaller and the larger of two words -/

theorem wordOf_toInt {z : Int} (hlo : -2 ^ 63 ≤ z) (hhi : z < 2 ^ 63) : (wordOf z).toInt = z := by
  rw [wordOf, BitVec.toInt_ofInt]
  exact Int.bmod_eq_of_le (by omega) (by omega)

/-- A word lies in the signed range of 64 bits. -/
theorem word_toInt_bounds (a : Word) : -2 ^ 63 ≤ a.toInt ∧ a.toInt < 2 ^ 63 :=
  ⟨by simpa using BitVec.le_toInt a, by simpa using BitVec.toInt_lt (x := a)⟩

/-- The signed product is at most 2^126 in magnitude. -/
theorem mul_toInt_bounds (a b : Word) : -2 ^ 126 ≤ a.toInt * b.toInt ∧ a.toInt * b.toInt ≤ 2 ^ 126 := by
  obtain ⟨ha, ha'⟩ := word_toInt_bounds a
  obtain ⟨hb, hb'⟩ := word_toInt_bounds b
  have h : |a.toInt * b.toInt| ≤ 2 ^ 63 * 2 ^ 63 := by
    rw [abs_mul]
    exact mul_le_mul (abs_le.mpr ⟨ha, by omega⟩) (abs_le.mpr ⟨hb, by omega⟩) (abs_nonneg _) (by norm_num)
  obtain ⟨hlo, hhi⟩ := abs_le.mp h
  constructor <;> omega

theorem mulHigh_toInt (a b : Word) : (mulHigh false a b).toInt = a.toInt * b.toInt / 2 ^ 64 := by
  obtain ⟨hlo, hhi⟩ := mul_toInt_bounds a b
  exact wordOf_toInt (by omega) (by omega)

theorem mulHigh_toNat (a b : Word) : (mulHigh true a b).toNat = a.toNat * b.toNat / 2 ^ 64 := by
  have h : a.toNat * b.toNat < 2 ^ 64 * 2 ^ 64 := Nat.mul_lt_mul'' a.isLt b.isLt
  simp only [mulHigh, if_true, BitVec.toNat_ofNat]
  omega

/-- The wrapped difference of two words is the wrapped difference of their values. -/
theorem ofInt_sub (a b : Word) : BitVec.ofInt 64 ((a.toNat : Int) - b.toNat) = a - b := by
  apply BitVec.eq_of_toInt_eq
  rw [BitVec.toInt_ofInt, BitVec.toInt_sub, BitVec.toInt_eq_toNat_bmod, BitVec.toInt_eq_toNat_bmod, Int.bmod_sub_bmod,
    Int.sub_bmod_bmod]

theorem minW_toInt (a b : Word) : (minW false a b).toInt = min a.toInt b.toInt := by
  simp only [minW, Bool.false_eq_true, if_false]
  split <;> omega

theorem minW_toNat (a b : Word) : (minW true a b).toNat = min a.toNat b.toNat := by
  simp only [minW, if_true]
  split <;> omega

theorem maxW_toInt (a b : Word) : (maxW false a b).toInt = max a.toInt b.toInt := by
  simp only [maxW, Bool.false_eq_true, if_false]
  split <;> omega

theorem maxW_toNat (a b : Word) : (maxW true a b).toNat = max a.toNat b.toNat := by
  simp only [maxW, if_true]
  split <;> omega

theorem divide_zero (u : Bool) (a : Word) : divide u a 0 = 0xFFFFFFFFFFFFFFFF := by
  rw [divide, if_pos rfl]
  decide

theorem divide_toNat {a b : Word} (hb : b ≠ 0) : (divide true a b).toNat = a.toNat / b.toNat := by
  have := Nat.div_le_self a.toNat b.toNat
  simp only [divide, hb, if_false, if_true, BitVec.toNat_ofNat]
  exact Nat.mod_eq_of_lt (by omega)

theorem remainder_zero (u : Bool) (a : Word) : remainder u a 0 = a := if_pos rfl

theorem remainder_toNat {a b : Word} (hb : b ≠ 0) : (remainder true a b).toNat = a.toNat - a.toNat / b.toNat * b.toNat := by
  have := Nat.mod_le a.toNat b.toNat
  have := Nat.div_add_mod' a.toNat b.toNat
  simp only [remainder, hb, if_false, if_true, BitVec.toNat_ofNat]
  omega

/-- The one quotient outside the signed range is that of the least word by -1. -/
theorem tdiv_lt {a b : Word} (h : ¬(a.toInt = -2 ^ 63 ∧ b.toInt = -1)) :
    -2 ^ 63 ≤ Int.tdiv a.toInt b.toInt ∧ Int.tdiv a.toInt b.toInt < 2 ^ 63 := by
  obtain ⟨ha, ha'⟩ := word_toInt_bounds a
  have habs : (Int.tdiv a.toInt b.toInt).natAbs = a.toInt.natAbs / b.toInt.natAbs := Int.natAbs_tdiv ..
  have hle := Nat.div_le_self a.toInt.natAbs b.toInt.natAbs
  refine ⟨by omega, ?_⟩
  by_cases hmin : a.toInt = -2 ^ 63
  · by_cases hone : b.toInt.natAbs = 1
    · have hb : b.toInt = 1 := by omega
      rw [hb, Int.tdiv_one]
      exact ha'
    · have hlt : a.toInt.natAbs / b.toInt.natAbs < 2 ^ 63 := by
        obtain hz | hz : b.toInt.natAbs = 0 ∨ 1 < b.toInt.natAbs := by omega
        · simp [hz]
        · have := Nat.div_lt_self (n := a.toInt.natAbs) (by omega) hz
          omega
      omega
  · omega

theorem divide_toInt {a b : Word} (hb : b ≠ 0) (h : ¬(a.toInt = -2 ^ 63 ∧ b.toInt = -1)) :
    (divide false a b).toInt = Int.tdiv a.toInt b.toInt := by
  obtain ⟨hlo, hhi⟩ := tdiv_lt h
  simp only [divide, hb, if_false, Bool.false_eq_true]
  exact wordOf_toInt hlo hhi

theorem divide_min {a b : Word} (hb : b ≠ 0) (ha : a.toInt = -2 ^ 63) (hone : b.toInt = -1) :
    (divide false a b).toInt = -2 ^ 63 := by
  simp only [divide, hb, if_false, Bool.false_eq_true, ha, hone]
  decide

theorem remainder_toInt {a b : Word} (hb : b ≠ 0) :
    (remainder false a b).toInt = a.toInt - Int.tdiv a.toInt b.toInt * b.toInt := by
  obtain ⟨ha, ha'⟩ := word_toInt_bounds a
  have habs : (Int.tmod a.toInt b.toInt).natAbs = a.toInt.natAbs % b.toInt.natAbs := Int.natAbs_tmod ..
  have hle := Nat.mod_le a.toInt.natAbs b.toInt.natAbs
  have hmod := Int.tmod_def a.toInt b.toInt
  rw [mul_comm] at hmod
  have hsign : 0 ≤ a.toInt → 0 ≤ Int.tmod a.toInt b.toInt := Int.tmod_nonneg _
  simp only [remainder, hb, if_false, Bool.false_eq_true]
  rw [wordOf_toInt, hmod]
  · omega
  · by_cases h0 : 0 ≤ a.toInt
    · omega
    · have hneg : 0 ≤ Int.tmod (-a.toInt) b.toInt := Int.tmod_nonneg _ (by omega)
      rw [Int.neg_tmod] at hneg
      omega

theorem remainder_min {a b : Word} (hb : b ≠ 0) (hone : b.toInt = -1) : remainder false a b = 0 := by
  simp only [remainder, hb, if_false, Bool.false_eq_true, hone, wordOf]
  simp

/-- The lowest own bit of a two-source form holds its flag. -/
theorem enc2_o_mod (d x y : Nat) (m : Bool) : (enc2 d x y (bN m) none).o % 2 = m.toNat := by
  unfold enc2
  split <;> cases m <;> simp [oA, bN] <;> omega

/-! ## The statements -/

/-- NOP and the moves complete. -/
theorem movesComplete : MovesComplete := by
  intro s
  refine ⟨?_, fun d x => ?_, fun d x => ?_, fun d v => ?_, fun d x v => ?_⟩
  · exact gives_of_produce (show exec _ s = execNop s from rfl) rfl
  · exact gives_of_produce (show exec _ s = execMov d x s from rfl) rfl
  · exact gives_of_produce (show exec _ s = execMovCap d x s from rfl) rfl
  · exact gives_of_produce (show exec _ s = execMovi d v s from rfl) rfl
  · exact gives_of_produce (show exec _ s = execAddi d x v s from rfl) rfl

/-- The two-register operations of R94 complete. -/
theorem integerArithmetic : IntegerArithmetic := by
  intro s d x y
  refine ⟨?_, ?_, ?_, ⟨_, mulHigh_toInt _ _, ?_⟩, ⟨_, mulHigh_toNat _ _, ?_⟩, ⟨_, fun _ => BitVec.getLsbD_and, ?_⟩,
    ⟨_, fun _ => BitVec.getLsbD_or, ?_⟩, ⟨_, fun _ => BitVec.getLsbD_xor, ?_⟩, ⟨_, minW_toInt _ _, ?_⟩,
    ⟨_, minW_toNat _ _, ?_⟩, ⟨_, maxW_toInt _ _, ?_⟩, ⟨_, maxW_toNat _ _, ?_⟩⟩
  · exact gives_of_produce (show exec _ s = execAdd d x y s from rfl) rfl
  · exact gives_of_produce (show exec _ s = execSub d x y s from rfl) (by rw [ofInt_sub])
  · exact gives_of_produce (show exec _ s = execMul d x y s from rfl) (by simp [BitVec.ofNat_mul])
  · exact gives_of_produce (show exec _ s = execMulh false d x y s from rfl) rfl
  · exact gives_of_produce (show exec _ s = execMulh true d x y s from rfl) rfl
  · exact gives_of_produce (show exec _ s = execAnd d x y s from rfl) rfl
  · exact gives_of_produce (show exec _ s = execOr d x y s from rfl) rfl
  · exact gives_of_produce (show exec _ s = execXor d x y s from rfl) rfl
  · exact gives_of_produce (show exec _ s = execMin false d x y s from rfl) rfl
  · exact gives_of_produce (show exec _ s = execMin true d x y s from rfl) rfl
  · exact gives_of_produce (show exec _ s = execMax false d x y s from rfl) rfl
  · exact gives_of_produce (show exec _ s = execMax true d x y s from rfl) rfl

/-- Settles O10: each result is the value of one pure function of the operands. -/
theorem integerOperations : Obligations.IntegerOperations := ⟨movesComplete, integerArithmetic⟩

/-- Settles O11: a zero divisor first, then the unsigned quotient, then the signed one with the one that overflows. -/
theorem divisionCases : Obligations.DivisionCases := by
  intro s d x y
  refine ⟨fun u => ⟨divide u (s.th.rg x) (s.th.rg y), ⟨?_, ?_, ?_, ?_⟩, ?_⟩,
    fun u => ⟨remainder u (s.th.rg x) (s.th.rg y), ⟨?_, ?_, ?_, ?_⟩, ?_⟩, fun u => ?_⟩
  · intro hb
    rw [hb]
    exact divide_zero u _
  · rintro hb rfl
    exact divide_toNat hb
  · rintro hb rfl ha hone
    exact divide_min hb ha hone
  · rintro hb rfl h
    exact divide_toInt hb h
  · exact gives_of_produce (show exec _ s = execDiv u d x y s from rfl) rfl
  · intro hb
    rw [hb]
    exact remainder_zero u _
  · rintro hb rfl
    exact remainder_toNat hb
  · rintro hb rfl - hone
    exact remainder_min hb hone
  · rintro hb rfl -
    exact remainder_toInt hb
  · exact gives_of_produce (show exec _ s = execRem u d x y s from rfl) rfl
  · exact ⟨_, _, rfl, rfl, enc2_o_mod d x y u, enc2_o_mod d x y u⟩

end Sys2Proof.Machine
end

section
/-!
PROOFS. Compares and selection (R101 to R103): a condition on the low bits of two words is one on their values as bit vectors.
-/

namespace Sys2Proof.Machine

open Sys2Proof.Spec

/-- The low bits read as two's complement. -/
theorem signedNat_toNat {w : Nat} (hw : 0 < w) (a : Word) : signedNat w a.toNat = (a.setWidth w).toInt := by
  obtain ⟨k, rfl⟩ := Nat.exists_eq_succ_of_ne_zero hw.ne'
  simp only [signedNat, BitVec.toInt, BitVec.toNat_setWidth, Nat.succ_sub_one, Nat.pow_succ]
  exact if_congr (by omega) rfl rfl

theorem intCondW_toNat {w : Nat} (hw : 0 < w) (c : Cond) (a b : Word) :
    intCondW c w a.toNat b.toNat =
      intCond c (a.setWidth w).toInt (b.setWidth w).toInt (a.setWidth w).toNat (b.setWidth w).toNat := by
  rw [intCondW, signedNat_toNat hw, signedNat_toNat hw, BitVec.toNat_setWidth, BitVec.toNat_setWidth]

/-- A condition of R49 on two bit vectors. -/
def condOn {w : Nat} (c : Cond) (a b : BitVec w) : Bool := intCond c a.toInt b.toInt a.toNat b.toNat

theorem condOn_eq {w : Nat} (a b : BitVec w) : condOn .eq a b = (a == b) := by
  rw [Bool.eq_iff_iff]
  simp [condOn, intCond, BitVec.toNat_inj]

theorem condOn_ne {w : Nat} (a b : BitVec w) : condOn .ne a b = (a != b) := by
  rw [Bool.eq_iff_iff]
  simp [condOn, intCond, BitVec.toNat_inj]

theorem gives_cmp (s : State) (c : Cond) (e : Elem) (he : 0 < intWidth e) (p : PReg) (x y : GReg) :
    Gives (.cmp c e p x y) s (some 1)
      [.p p (condOn c ((s.th.rg x).setWidth (intWidth e)) ((s.th.rg y).setWidth (intWidth e)))] :=
  gives_of_produce (show exec _ s = execCmp c e p x y s from rfl) (by rw [intCondW_toNat he, condOn])

theorem gives_cmpi (s : State) (c : Cond) (p : PReg) (x : GReg) (v : Word) :
    Gives (.cmpi c p x v) s (some 1) [.p p (condOn c (s.th.rg x) v)] :=
  gives_of_produce (show exec _ s = execCmpi c p x v s from rfl)
    (by rw [intCondW_toNat (by decide), BitVec.setWidth_eq, BitVec.setWidth_eq, condOn])

/-- CMP gives each condition on the low bits of its operands. -/
theorem compares_of_intWidth (s : State) (e : Elem) (he : 0 < intWidth e) : Compares s e (intWidth e) := by
  intro p x y
  have h := fun c => gives_cmp s c e he p x y
  exact ⟨condOn_eq (w := intWidth e) _ _ ▸ h .eq, condOn_ne (w := intWidth e) _ _ ▸ h .ne,
    h .lt, h .ge, h .le, h .gt, h .ltu, h .geu, h .leu, h .gtu⟩

/-- Settles O13: CMP and CMPI by the conditions of R49 on bit vectors, SEL by its predicate. -/
theorem comparesAndSelect : Obligations.ComparesAndSelect := by
  intro s
  refine ⟨compares_of_intWidth s .i8 (by decide), compares_of_intWidth s .i16 (by decide), compares_of_intWidth s .i32 (by decide),
    compares_of_intWidth s .i64 (by decide), fun p x v => ?_, fun d x y p => ?_⟩
  · have h := fun c => gives_cmpi s c p x v
    exact ⟨condOn_eq _ _ ▸ h .eq, condOn_ne _ _ ▸ h .ne, h .lt, h .ge, h .le, h .gt, h .ltu, h .geu, h .leu, h .gtu⟩
  · exact gives_of_produce (show exec _ s = execSel d p x y s from rfl) rfl

end Sys2Proof.Machine
end

section
/-!
PROOFS. Shifts, fields, extensions, bit counts and interleaves (R96 to R100), each as what it says of the bits of the result.
-/

namespace Sys2Proof.Machine

open Sys2Proof.Spec

/-! ## Shifts (R96) -/

theorem opdVal_eq_src (t : Thread) (y : Opd) : opdVal t y = src t y := by
  cases y <;> rfl

theorem shiftLeft_toNat (a : Word) (n : Nat) : (a <<< n).toNat = a.toNat * 2 ^ n % 2 ^ 64 := by
  rw [BitVec.toNat_shiftLeft, Nat.shiftLeft_eq]

theorem ushiftRight_toNat (a : Word) (n : Nat) : (a >>> n).toNat = a.toNat / 2 ^ n := by
  rw [BitVec.toNat_ushiftRight, Nat.shiftRight_eq_div_pow]

theorem sshiftRight_toInt (a : Word) (n : Nat) : (a.sshiftRight n).toInt = a.toInt / 2 ^ n := by
  rw [BitVec.toInt_sshiftRight, Int.shiftRight_eq_div_pow]
  simp

/-! ## Fields (R99) -/

theorem fieldSpec_eq (y : Word) : fieldSpec y = fieldOf y := by
  simp only [fieldSpec, fieldOf, Bool.or_eq_true, decide_eq_true_eq]
  split <;> rfl

/-- A field lies in the word. -/
theorem fieldOf_le (y : Word) : (fieldOf y).1 + (fieldOf y).2 ≤ 64 := by
  have : y.toNat % 64 < 64 := Nat.mod_lt _ (by decide)
  simp only [fieldOf]
  split <;> dsimp only <;> omega

theorem fieldExtract_getLsbD (x y : Word) (i : Nat) :
    (fieldExtract x y).getLsbD i = (decide (i < (fieldOf y).2) && x.getLsbD ((fieldOf y).1 + i)) := by
  have hle := fieldOf_le y
  rw [fieldExtract, fieldSpec_eq]
  dsimp only
  rw [BitVec.getLsbD_ofNat, Nat.testBit_mod_two_pow, Nat.testBit_div_two_pow, BitVec.testBit_toNat, Nat.add_comm i]
  by_cases hi : i < (fieldOf y).2
  · simp [hi, show i < 64 by omega]
  · simp [hi]

/-- A number with `w` bits from bit `lsb` replaced. -/
theorem testBit_replace (o x lsb w i : Nat) :
    (o - o / 2 ^ lsb % 2 ^ w * 2 ^ lsb + x % 2 ^ w * 2 ^ lsb).testBit i =
      if lsb ≤ i ∧ i < lsb + w then x.testBit (i - lsb) else o.testBit i := by
  have hlo : o % 2 ^ lsb < 2 ^ lsb := Nat.mod_lt _ (Nat.two_pow_pos _)
  have hmid : x % 2 ^ w < 2 ^ w := Nat.mod_lt _ (Nat.two_pow_pos _)
  have hsplit : 2 ^ lsb * (2 ^ w * (o / 2 ^ lsb / 2 ^ w) + o / 2 ^ lsb % 2 ^ w) + o % 2 ^ lsb = o := by
    rw [Nat.div_add_mod, Nat.div_add_mod]
  have hnew : o - o / 2 ^ lsb % 2 ^ w * 2 ^ lsb + x % 2 ^ w * 2 ^ lsb =
      2 ^ lsb * (2 ^ w * (o / 2 ^ lsb / 2 ^ w) + x % 2 ^ w) + o % 2 ^ lsb := by
    rw [Nat.mul_add] at hsplit ⊢
    have h1 := Nat.mul_comm (o / 2 ^ lsb % 2 ^ w) (2 ^ lsb)
    have h2 := Nat.mul_comm (x % 2 ^ w) (2 ^ lsb)
    omega
  rw [hnew, Nat.testBit_two_pow_mul_add _ hlo, Nat.testBit_two_pow_mul_add _ hmid, Nat.testBit_mod_two_pow,
    Nat.testBit_mod_two_pow, Nat.testBit_div_two_pow, Nat.testBit_div_two_pow]
  by_cases h1 : i < lsb
  · simp [h1, show ¬lsb ≤ i by omega]
  · by_cases h2 : i - lsb < w
    · simp [h1, h2, show lsb ≤ i by omega, show i < lsb + w by omega]
    · simp [h1, h2, show ¬i < lsb + w by omega, show i - lsb - w + w + lsb = i by omega]

theorem fieldInsert_getLsbD (o x y : Word) (i : Nat) :
    (fieldInsert o x y).getLsbD i =
      if (fieldOf y).1 ≤ i ∧ i < (fieldOf y).1 + (fieldOf y).2 then x.getLsbD (i - (fieldOf y).1) else o.getLsbD i := by
  have hle := fieldOf_le y
  rw [fieldInsert, fieldSpec_eq]
  dsimp only
  rw [BitVec.getLsbD_ofNat, testBit_replace, BitVec.testBit_toNat, BitVec.testBit_toNat]
  by_cases hi : i < 64
  · simp [hi]
  · rw [BitVec.getLsbD_of_ge o i (by omega), if_neg (by omega)]
    simp [hi]

/-! ## Extensions (R100) -/

theorem sizeBytes_bounds (z : Size) : 0 < sizeBytes z ∧ sizeBytes z ≤ 8 := by
  cases z <;> decide

theorem signExt_getLsbD (z : Size) (x : Word) {i : Nat} (hi : i < 64) :
    (signExt z x).getLsbD i = x.getLsbD (min i (8 * sizeBytes z - 1)) := by
  obtain ⟨hlo, -⟩ := sizeBytes_bounds z
  have h : signExt z x = (x.setWidth (8 * sizeBytes z)).signExtend 64 := by
    rw [signExt, signedNat_toNat (by omega)]
    rfl
  rw [h, BitVec.getLsbD_signExtend, BitVec.msb_eq_getLsbD_last, BitVec.getLsbD_setWidth, BitVec.getLsbD_setWidth]
  by_cases hz : i < 8 * sizeBytes z
  · simp [hi, hz, show min i (8 * sizeBytes z - 1) = i by omega]
  · simp [hi, hz, show min i (8 * sizeBytes z - 1) = 8 * sizeBytes z - 1 by omega, hlo]

theorem zeroExt_getLsbD (z : Size) (x : Word) (i : Nat) :
    (zeroExt z x).getLsbD i = (decide (i < 8 * sizeBytes z) && x.getLsbD i) := by
  obtain ⟨-, hhi⟩ := sizeBytes_bounds z
  rw [zeroExt, BitVec.getLsbD_ofNat, Nat.testBit_mod_two_pow]
  by_cases hz : i < 8 * sizeBytes z
  · simp [hz, show i < 64 by omega, BitVec.getLsbD]
  · simp [hz]

/-! ## Counts (R97) -/

theorem clzN_toNat {a : Word} (ha : a ≠ 0) :
    (BitVec.ofNat 64 (clzN 64 a.toNat)).toNat < 64 ∧
      a.toNat / 2 ^ (63 - (BitVec.ofNat 64 (clzN 64 a.toNat)).toNat) = 1 := by
  have hne : a.toNat ≠ 0 := fun h => ha (BitVec.eq_of_toNat_eq h)
  have hlog : a.toNat.log2 < 64 := (Nat.log2_lt hne).mpr a.isLt
  have hv : (BitVec.ofNat 64 (clzN 64 a.toNat)).toNat = 63 - a.toNat.log2 := by
    rw [clzN, if_neg hne, BitVec.toNat_ofNat]
    omega
  rw [hv, show 63 - (63 - a.toNat.log2) = a.toNat.log2 by omega]
  refine ⟨by omega, Nat.div_eq_of_lt_le ?_ ?_⟩
  · simpa using Nat.log2_self_le hne
  · simpa [Nat.pow_succ, Nat.mul_comm] using Nat.lt_log2_self (n := a.toNat)

/-- The count of trailing zeros is the number of the first bit that is set. -/
theorem ctzN_toNat {a : Word} (ha : a ≠ 0) :
    (BitVec.ofNat 64 (ctzN 64 a.toNat)).toNat < 64 ∧ a.getLsbD (BitVec.ofNat 64 (ctzN 64 a.toNat)).toNat = true ∧
      ∀ i, i < (BitVec.ofNat 64 (ctzN 64 a.toNat)).toNat → a.getLsbD i = false := by
  obtain ⟨k, hk⟩ : ∃ k, (List.range 64).find? (fun i => a.toNat.testBit i) = some k := by
    refine Option.isSome_iff_exists.mp ?_
    rw [List.find?_isSome]
    by_contra hno
    refine ha (BitVec.eq_of_getLsbD_eq fun i hi => ?_)
    rw [show (0 : Word).getLsbD i = false from BitVec.getLsbD_zero, ← Bool.not_eq_true]
    exact fun hb => hno ⟨i, List.mem_range.mpr hi, hb⟩
  obtain ⟨hset, hlt, hfirst⟩ := List.find?_range_eq_some.mp hk
  have hlt := List.mem_range.mp hlt
  have hv : (BitVec.ofNat 64 (ctzN 64 a.toNat)).toNat = k := by
    rw [ctzN, hk, Option.getD_some, BitVec.toNat_ofNat]
    omega
  rw [hv]
  exact ⟨hlt, hset, fun i hi => Bool.not_eq_true' _ ▸ hfirst i hi⟩

theorem countBits_eq_popN (a : Word) (n : Nat) : countBits a n = popN n a.toNat := by
  induction n with
  | zero => rfl
  | succ n ih =>
    rw [countBits, ih, popN, popN, List.range_succ, List.filter_append, List.length_append]
    cases h : a.toNat.testBit n <;> simp [BitVec.getLsbD, h]

theorem popN_le (w n : Nat) : popN w n ≤ w :=
  (List.length_filter_le ..).trans_eq List.length_range

/-! ## Interleaves (R98) -/

/-- Setting in turn the bits `g i` for which `c i` holds sets those bits and keeps the others. -/
theorem getLsbD_foldl_or (c : Nat → Bool) (g : Nat → Nat) (l : List Nat) (r : Word) {j : Nat} (hj : j < 64) :
    (l.foldl (fun r i => if c i then r ||| ((1 : Word) <<< g i) else r) r).getLsbD j =
      (r.getLsbD j || l.any fun i => c i && decide (g i = j)) := by
  induction l generalizing r with
  | nil => simp
  | cons i l ih =>
    have hbit : ((1 : Word) <<< g i).getLsbD j = decide (g i = j) := by
      change ((1#64) <<< g i).getLsbD j = decide (g i = j)
      rw [← BitVec.twoPow_eq, BitVec.getLsbD_twoPow, Bool.eq_iff_iff]
      simp only [Bool.and_eq_true, decide_eq_true_eq]
      omega
    rw [List.foldl_cons, ih, List.any_cons]
    cases c i
    · simp
    · rw [if_pos rfl, BitVec.getLsbD_or, hbit, Bool.true_and, Bool.or_assoc]

theorem interleave_getLsbD {st : Nat} (hst : 0 < st) (a b : Word) {i : Nat} (hi : i < 64) :
    (interleave st a b).getLsbD i =
      ((decide (0 < i) && b.getLsbD (i - 1)) || (decide (i % st = 0) && a.getLsbD (i / st))) := by
  have hany : ((List.range 64).any fun k => (decide (st * k ≤ 63) && a.getLsbD k) && decide (st * k = i)) =
      (decide (i % st = 0) && a.getLsbD (i / st)) := by
    rw [Bool.eq_iff_iff]
    simp only [List.any_eq_true, List.mem_range, Bool.and_eq_true, decide_eq_true_eq]
    constructor
    · rintro ⟨k, -, ⟨-, hk⟩, rfl⟩
      exact ⟨Nat.mul_mod_right _ _, by rwa [Nat.mul_div_cancel_left _ hst]⟩
    · rintro ⟨hmod, hk⟩
      have hmul := Nat.mul_div_cancel' (Nat.dvd_of_mod_eq_zero hmod)
      have hle := Nat.div_le_self i st
      exact ⟨i / st, by omega, ⟨by omega, hk⟩, hmul⟩
  rw [interleave, getLsbD_foldl_or (fun k => decide (st * k ≤ 63) && a.getLsbD k) (st * ·) _ _ hi, hany]
  rw [BitVec.getLsbD_shiftLeft]
  congr 2
  simp only [hi, decide_true, Bool.true_and, ← decide_not, Nat.not_lt]
  rfl

theorem deinterleave_getLsbD (st : Nat) (a b : Word) {i : Nat} (hi : i < 64) :
    (deinterleave st a b).getLsbD i =
      (decide (b.toNat % 4 < st) && decide (st * i + b.toNat % 4 ≤ 63) && a.getLsbD (st * i + b.toNat % 4)) := by
  unfold deinterleave
  dsimp only
  split
  case isTrue hlane =>
    have hany : ((List.range 64).any fun k =>
          (decide (st * k + b.toNat % 4 ≤ 63) && a.getLsbD (st * k + b.toNat % 4)) && decide (k = i)) =
        (decide (st * i + b.toNat % 4 ≤ 63) && a.getLsbD (st * i + b.toNat % 4)) := by
      rw [Bool.eq_iff_iff]
      simp only [List.any_eq_true, List.mem_range, Bool.and_eq_true, decide_eq_true_eq]
      exact ⟨fun ⟨k, _, h, hk⟩ => hk ▸ h, fun h => ⟨i, hi, h, rfl⟩⟩
    rw [getLsbD_foldl_or (fun k => decide (st * k + b.toNat % 4 ≤ 63) && a.getLsbD (st * k + b.toNat % 4)) (fun k => k) _ _ hi,
      hany]
    simp [hlane]
  case isFalse hlane => simp [hlane]

/-! ## The statements -/

theorem shiftsAndFields : ShiftsAndFields := by
  intro s d x y
  simp only [← opdVal_eq_src]
  refine ⟨⟨_, shiftLeft_toNat _ _, ?_⟩, ⟨_, ushiftRight_toNat _ _, ?_⟩, ⟨_, sshiftRight_toInt _ _, ?_⟩,
    ⟨_, fieldExtract_getLsbD _ _, ?_⟩, ⟨_, fieldInsert_getLsbD _ _ _, ?_⟩, fun z => ⟨_, fun i hi => signExt_getLsbD z _ hi, ?_⟩,
    fun z => ⟨_, zeroExt_getLsbD z _, ?_⟩⟩
  · exact gives_of_produce (show exec _ s = execShl d x y s from rfl) rfl
  · exact gives_of_produce (show exec _ s = execShr d x y s from rfl) rfl
  · exact gives_of_produce (show exec _ s = execSar d x y s from rfl) rfl
  · exact gives_of_produce (show exec _ s = execBfx d x y s from rfl) rfl
  · exact gives_of_produce (show exec _ s = execBfi d x y s from rfl) rfl
  · exact gives_of_produce (show exec _ s = execSext z d x s from rfl) rfl
  · exact gives_of_produce (show exec _ s = execZext z d x s from rfl) rfl

theorem bitCountsAndInterleave : BitCountsAndInterleave := by
  intro s d x y three
  have hst : 0 < if three then 3 else 2 := by cases three <;> decide
  refine ⟨⟨_, ⟨fun h => ?_, clzN_toNat⟩, ?_⟩, ⟨_, ⟨fun h => ?_, ctzN_toNat⟩, ?_⟩, 
    ⟨BitVec.ofNat 64 (popN 64 (s.th.rg x).toNat), ?_, ?_⟩, ⟨_, fun i hi => interleave_getLsbD hst _ _ hi, ?_⟩,
    ⟨_, fun i hi => deinterleave_getLsbD _ _ _ hi, ?_⟩⟩
  · rw [h]
    decide
  · exact gives_of_produce (show exec _ s = execClz d x s from rfl) rfl
  · rw [h]
    decide
  · exact gives_of_produce (show exec _ s = execCtz d x s from rfl) rfl
  · have hle := popN_le 64 (s.th.rg x).toNat
    rw [countBits_eq_popN]
    exact Nat.mod_eq_of_lt (by omega)
  · exact gives_of_produce (show exec _ s = execPopc d x s from rfl) rfl
  · exact gives_of_produce (show exec _ s = execBiti three d x y s from rfl) rfl
  · exact gives_of_produce (show exec _ s = execBitd three d x y s from rfl) rfl

/-- Settles O12: shifts and fields bit by bit, counts by the first or the last bit that is set, interleaves by the bits that they set. -/
theorem shiftsAndBits : Obligations.ShiftsAndBits := ⟨shiftsAndFields, bitCountsAndInterleave⟩

end Sys2Proof.Machine
end

section
/-!
SUPPORT. The fields of a word (R83), bit by bit: what a field reads after a write to the same bits and to others.
-/

namespace Sys2Proof.Machine

open Sys2Proof.Spec

theorem fieldW_testBit (hi lo : Nat) (w : Word) (i : Nat) :
    (fieldW hi lo w).testBit i = (decide (i < hi - lo + 1) && w.getLsbD (lo + i)) := by
  rw [fieldW, bitsOf, Nat.testBit_mod_two_pow, Nat.testBit_div_two_pow, BitVec.testBit_toNat, Nat.add_comm i]

theorem fieldW_lt (hi lo : Nat) (w : Word) : fieldW hi lo w < 2 ^ (hi - lo + 1) := Nat.mod_lt _ (Nat.two_pow_pos _)

theorem putField_getLsbD {hi lo : Nat} (hlo : lo ≤ hi) (hhi : hi < 64) (w : Word) (v i : Nat) :
    (putField hi lo w v).getLsbD i = if lo ≤ i ∧ i ≤ hi then v.testBit (i - lo) else w.getLsbD i := by
  rw [putField]
  rw [BitVec.getLsbD_ofNat, bitsOf, testBit_replace, BitVec.testBit_toNat]
  by_cases hin : lo ≤ i ∧ i ≤ hi
  · rw [if_pos (by omega), if_pos hin]
    simp [show i < 64 by omega]
  · rw [if_neg (by omega), if_neg hin]
    by_cases hi : i < 64
    · simp [hi]
    · simp [hi, BitVec.getLsbD_of_ge w i (by omega)]

theorem fieldW_putField_same {hi lo : Nat} (hlo : lo ≤ hi) (hhi : hi < 64) (w : Word) (v : Nat) :
    fieldW hi lo (putField hi lo w v) = v % 2 ^ (hi - lo + 1) := by
  refine Nat.eq_of_testBit_eq fun i => ?_
  rw [fieldW_testBit, putField_getLsbD hlo hhi, Nat.testBit_mod_two_pow]
  by_cases hi : i < hi - lo + 1
  · rw [if_pos (by omega), Nat.add_sub_cancel_left]
  · simp [hi]

theorem fieldW_putField_other {hi lo hi' lo' : Nat} (hlo : lo ≤ hi) (hhi : hi < 64) (w : Word) (v : Nat)
    (h' : lo' ≤ hi')
    (h : hi' < lo ∨ hi < lo') : fieldW hi' lo' (putField hi lo w v) = fieldW hi' lo' w := by
  refine Nat.eq_of_testBit_eq fun i => ?_
  rw [fieldW_testBit, fieldW_testBit, putField_getLsbD hlo hhi]
  by_cases hin : i < hi' - lo' + 1
  · rw [if_neg (by omega)]
  · simp [hin]


/-! ## A bundle that produces one result -/

theorem gives_of_retire {i : Instr} {s : State} {lat : Option Nat} {ws : List RegWrite} (h : exec i s = .next (s.retire lat ws)) :
    Gives i s lat ws :=
  gives_of_produce (f := fun _ => ws) h rfl

/-- A result with a latency, then the next bundle: the end of a body that produces one result. -/
theorem writeL_advance_run (k : Nat) (w : RegWrite) (s : State) :
    (do writeL k w; advance : M Unit) s = .ok () (s.retire (some k) [w]) := by
  rw [bind_ok (writeL_run k w s), advance_run, th_setTh, setTh_cur, setTh_setTh, retire_one]
  rfl

end Sys2Proof.Machine
end

section
/-!
PROOFS. Capability operations (R106 to R109): what each writes, field by field, and that none widens a capability.
-/

namespace Sys2Proof.Machine

open Sys2Proof.Spec

/-! ## Pointer arithmetic (R106) -/

theorem capOff_setOff (c : Cap) (o : Nat) : capOff (capSetOff c o) = o % 2 ^ 56 :=
  fieldW_putField_same (hi := 55) (lo := 0) (by decide) (by decide) c.w0 o

/-- The bounds are read from four fields. -/
theorem capBounds_congr {a b : Cap} (hE : capE a = capE b) (ho : capOff a = capOff b) (hbf : capBf a = capBf b)
    (htf : capTf a = capTf b) : capBounds a = capBounds b := by
  unfold capBounds
  rw [hE, ho, hbf, htf]

theorem capMove_tag (c : Cap) (z : Int) :
    (capMove c z).tag = true ↔ c.tag = true ∧ 0 ≤ z ∧ z < 2 ^ 56 ∧ capBounds (capMove c z) = capBounds c := by
  have hb : capBounds (capMove c z) = capBounds (capSetOff c (z % 2 ^ 56).toNat) := capBounds_congr rfl rfl rfl rfl
  rw [hb]
  simp [capMove, keepTag, and_assoc]

theorem capMove_moved (c : Cap) (z : Int) : Moved c z (capMove c z) := by
  have hoff : capOff (capMove c z) = (z % 2 ^ 56).toNat % 2 ^ 56 := capOff_setOff c _
  refine ⟨rfl, fieldW_putField_other (by decide) (by decide) _ _ (by decide) (by decide),
    fieldW_putField_other (by decide) (by decide) _ _ (by decide) (by decide), ?_, capMove_tag c z⟩
  rw [hoff]
  omega

theorem pointerArithmetic : PointerArithmetic := by
  intro s d x y
  rw [← opdVal_eq_src]
  exact ⟨⟨_, capMove_moved _ _, gives_of_produce (show exec _ s = execCadd d x y s from rfl) rfl⟩,
    ⟨_, capMove_moved _ _, gives_of_produce (show exec _ s = execCseta d x y s from rfl) rfl⟩⟩

/-! ## Bounds (R107) -/

theorem fitExp_none {lo hi : Nat} {k e : Nat} (h : ∀ j, e ≤ j → j < e + k → 447 < (hi + 2 ^ j - 1) / 2 ^ j - lo / 2 ^ j) :
    fitExp lo hi k e = none := by
  induction k generalizing e with
  | zero => rfl
  | succ k ih =>
    rw [fitExp, if_neg (by have := h e le_rfl (by omega); omega)]
    exact ih fun j hj hlt => h j (by omega) (by omega)

theorem fitExp_some {lo hi : Nat} {k e j : Nat} (hj : e ≤ j) (hlt : j < e + k)
    (hfit : (hi + 2 ^ j - 1) / 2 ^ j - lo / 2 ^ j ≤ 447)
    (h : ∀ i, e ≤ i → i < j → 447 < (hi + 2 ^ i - 1) / 2 ^ i - lo / 2 ^ i) : fitExp lo hi k e = some j := by
  induction k generalizing e with
  | zero => omega
  | succ k ih =>
    rw [fitExp]
    obtain rfl | hne := Nat.eq_or_lt_of_le hj
    · rw [if_pos hfit]
    · rw [if_neg (by have := h e le_rfl hne; omega)]
      exact ih (by omega) (by omega) fun i hi => h i (by omega)

/-- The rounded bounds of a region of up to 447 granules decode from their low nine bits and the offset at the low bound (R85). -/
theorem capBounds_of_region {v : Cap} {e down up : Nat} (he : e ≤ 47) (hE : capE v = e) (hbf : capBf v = down % 512)
    (htf : capTf v = up % 512) (hoff : capOff v / 2 ^ e = down) (hle : down ≤ up) (hfit : up - down ≤ 447)
    (htop : up * 2 ^ e ≤ 2 ^ 56) : capBounds v = (down * 2 ^ e, ((up * 2 ^ e : Nat) : Int)) := by
  have hnat : capOff v / 2 ^ (e + 9) = down / 512 := by rw [Nat.pow_add, ← Nat.div_div_eq_div_mul, hoff]
  have hahi : (capOff v : Int) / 2 ^ (e + 9) = (down : Int) / 512 := by exact_mod_cast congrArg Nat.cast hnat
  have hpow : (2 : Int) ^ (e + 9) = 512 * 2 ^ e := by rw [pow_add, mul_comm]; rfl
  have hbase : (down : Int) / 512 * 512 + (down % 512 : Nat) = down := by omega
  have htop' : ((down : Int) / 512 + (if up % 512 < (down % 512 + 512 - 64) % 512 then 1 else 0) -
      (if down % 512 < (down % 512 + 512 - 64) % 512 then 1 else 0)) * 512 + (up % 512 : Nat) = up := by
    split <;> split <;> omega
  simp only [capBounds, hE, show ¬e > 47 by omega, if_false, hoff, hahi, hbf, htf]
  rw [hpow, add_sub_cancel_right, Nat.cast_mul, Nat.cast_mul, Nat.cast_pow, Nat.cast_ofNat, ← mul_assoc, ← mul_assoc, ← add_mul,
    ← add_mul, hbase, htop', Prod.mk.injEq]
  constructor
  · rw [← Nat.cast_ofNat (R := Int), ← Nat.cast_pow, ← Nat.cast_mul, Int.toNat_natCast]
  · rw [← Nat.cast_ofNat (R := Int), ← Nat.cast_pow, ← Nat.cast_pow, ← Nat.cast_mul]
    exact min_eq_left (Nat.cast_le.mpr htop)

theorem csetb_gives {s : State} {d x : CReg} {y : Opd} {v : Cap} (h : narrow (s.th.rc x) (opdVal s.th y).toNat = .ok v) :
    Gives (.csetb d x y) s (some 2) [.c d v] := by
  refine gives_of_retire (run_ok ?_)
  rw [bind_ok (getTh_run s), h]
  exact writeL_advance_run 2 _ s

theorem csetb_traps {s : State} {d x : CReg} {y : Opd} {k o : Nat}
    (h : narrow (s.th.rc x) (opdVal s.th y).toNat = .error (k, o)) : Traps (.csetb d x y) s k (tvalCap 1 x.val o) := by
  refine run_error ?_
  rw [bind_ok (getTh_run s), h]
  rfl

theorem capSetRegion_frame (c : Cap) (e nb nt : Nat) :
    (capSetRegion c e nb nt).w0 = c.w0 ∧ (capSetRegion c e nb nt).tag = c.tag := by
  unfold capSetRegion
  exact ⟨rfl, rfl⟩

theorem capSetRegion_objRights (c : Cap) (e nb nt : Nat) :
    capObj (capSetRegion c e nb nt) = capObj c ∧ capRights (capSetRegion c e nb nt) = capRights c := by
  unfold capSetRegion capObj capRights
  constructor <;> simp [fieldW_putField_other]

theorem capSetRegion_off (c : Cap) (e nb nt : Nat) : capOff (capSetRegion c e nb nt) = capOff c := by
  unfold capSetRegion capOff
  rfl

theorem capSetRegion_bounds (c : Cap) {e : Nat} (he : e ≤ 47) (nb nt : Nat) :
    capE (capSetRegion c e nb nt) = e ∧ capBf (capSetRegion c e nb nt) = nb / 2 ^ e % 512 ∧
      capTf (capSetRegion c e nb nt) = nt / 2 ^ e % 512 := by
  unfold capSetRegion capE capBf capTf
  refine ⟨?_, ?_, ?_⟩
  · rw [fieldW_putField_same (by decide) (by decide)]
    exact Nat.mod_eq_of_lt (by omega)
  · simp [fieldW_putField_other, fieldW_putField_same]
  · simp [fieldW_putField_other, fieldW_putField_same]

/-- A bound of the 56-bit space, rounded up to granules, stays in it. -/
theorem roundUp_le {hi e : Nat} (he : e ≤ 47) (h : hi ≤ 2 ^ 56) : (hi + 2 ^ e - 1) / 2 ^ e * 2 ^ e ≤ 2 ^ 56 := by
  have hpow : 2 ^ 56 = 2 ^ (56 - e) * 2 ^ e := (Nat.pow_sub_mul_pow 2 (by omega)).symm
  have hpos : 0 < 2 ^ e := Nat.two_pow_pos e
  have hlt : (hi + 2 ^ e - 1) / 2 ^ e < 2 ^ (56 - e) + 1 := by
    rw [Nat.div_lt_iff_lt_mul hpos, Nat.add_mul, ← hpow]
    omega
  rw [hpow]
  exact Nat.mul_le_mul_right _ (by omega)

theorem div_le_roundUp {lo hi : Nat} (h : lo ≤ hi) (e : Nat) : lo / 2 ^ e ≤ (hi + 2 ^ e - 1) / 2 ^ e := by
  have hpos : 0 < 2 ^ e := Nat.two_pow_pos e
  exact Nat.div_le_div_right (by omega)

/-- What CSETB writes for a region of up to 447 granules. -/
theorem capSetRegion_spec (c : Cap) {e hi : Nat} (he : e ≤ 47) (hlo : capOff c ≤ hi) (hhi : hi ≤ 2 ^ 56)
    (hfit : (hi + 2 ^ e - 1) / 2 ^ e - capOff c / 2 ^ e ≤ 447) :
    let v := capSetRegion c e (capOff c / 2 ^ e * 2 ^ e) ((hi + 2 ^ e - 1) / 2 ^ e * 2 ^ e)
    capE v = e ∧ capBf v = capOff c / 2 ^ e % 512 ∧ capTf v = (hi + 2 ^ e - 1) / 2 ^ e % 512 ∧
      capBounds v = (capOff c / 2 ^ e * 2 ^ e, (((hi + 2 ^ e - 1) / 2 ^ e * 2 ^ e : Nat) : Int)) := by
  intro v
  have hpos : 0 < 2 ^ e := Nat.two_pow_pos e
  obtain ⟨hE, hbf, htf⟩ := capSetRegion_bounds c he (capOff c / 2 ^ e * 2 ^ e) ((hi + 2 ^ e - 1) / 2 ^ e * 2 ^ e)
  rw [Nat.mul_div_cancel _ hpos] at hbf htf
  exact ⟨hE, hbf, htf, capBounds_of_region he hE hbf htf (by rw [capSetRegion_off]) (div_le_roundUp hlo e) hfit (roundUp_le he hhi)⟩

theorem regionOf_none {lo hi : Nat} (h : ∀ e, e ≤ 47 → 447 < (hi + 2 ^ e - 1) / 2 ^ e - lo / 2 ^ e) :
    regionOf lo hi = none := by
  rw [regionOf, fitExp_none fun j _ hj => h j (by omega)]
  rfl

theorem regionOf_some {lo hi e : Nat} (he : e ≤ 47) (hfit : (hi + 2 ^ e - 1) / 2 ^ e - lo / 2 ^ e ≤ 447)
    (h : ∀ k, k < e → 447 < (hi + 2 ^ k - 1) / 2 ^ k - lo / 2 ^ k) :
    regionOf lo hi = some (e, lo / 2 ^ e * 2 ^ e, (hi + 2 ^ e - 1) / 2 ^ e * 2 ^ e) := by
  rw [regionOf, fitExp_some (Nat.zero_le e) (by omega) hfit fun k _ hk => h k hk]
  rfl

section Narrow

variable {c : Cap} {len : Nat}

theorem narrow_untagged (ht : c.tag = false) : narrow c len = .error (0x04, capOff c) := by
  simp [narrow, ht]

theorem narrow_beyond (ht : c.tag = true) (hhi : capOff c + len > 2 ^ 56) : narrow c len = .error (0x05, capOff c) := by
  unfold narrow
  dsimp only
  rw [if_neg (by simp [ht]), if_pos hhi]

theorem narrow_noRegion (ht : c.tag = true) (hhi : capOff c + len ≤ 2 ^ 56) (hr : regionOf (capOff c) (capOff c + len) = none) :
    narrow c len = .error (0x05, capOff c) := by
  unfold narrow
  dsimp only
  rw [if_neg (by simp [ht]), if_neg (Nat.not_lt.mpr hhi), hr]

theorem narrow_region (ht : c.tag = true) (hhi : capOff c + len ≤ 2 ^ 56) {e nb nt : Nat}
    (hr : regionOf (capOff c) (capOff c + len) = some (e, nb, nt)) :
    narrow c len = if nb < capBase c || nt > capTop c then .error (0x05, nt) else .ok (capSetRegion c e nb nt) := by
  unfold narrow
  dsimp only
  rw [if_neg (by simp [ht]), if_neg (Nat.not_lt.mpr hhi), hr]

end Narrow

theorem setBounds : SetBounds := by
  intro s d x y
  rw [← opdVal_eq_src]
  intro c lo hi up down trap05
  refine ⟨fun ht => csetb_traps (narrow_untagged ht), fun ht hhi => csetb_traps (narrow_beyond ht hhi),
    fun ht hhi hall => csetb_traps (narrow_noRegion ht hhi (regionOf_none hall)), fun ht hhi e he hfit hmin => ?_⟩
  have hr := narrow_region ht hhi (regionOf_some he hfit hmin)
  have hcast : (((hi + 2 ^ e - 1) / 2 ^ e * 2 ^ e : Nat) : Int) = (up e : Int) * 2 ^ e := by
    rw [Nat.cast_mul, Nat.cast_pow, Nat.cast_ofNat]
  refine ⟨fun hout => csetb_traps ?_, fun hb htop => ⟨capSetRegion c e (down e * 2 ^ e) (up e * 2 ^ e), ?_, csetb_gives ?_⟩⟩
  · rw [hr, if_pos]
    rw [Bool.or_eq_true, decide_eq_true_eq, decide_eq_true_eq, hcast]
    exact hout
  · obtain ⟨hw0, htag⟩ := capSetRegion_frame c e (down e * 2 ^ e) (up e * 2 ^ e)
    obtain ⟨hobj, hrights⟩ := capSetRegion_objRights c e (down e * 2 ^ e) (up e * 2 ^ e)
    obtain ⟨hE, hbf, htf, hbounds⟩ := capSetRegion_spec c he (Nat.le_add_right _ _) hhi hfit
    exact ⟨hw0, htag.trans ht, hobj, hrights, hE, hbf, htf, hbounds⟩
  · rw [hr, if_neg]
    rw [Bool.or_eq_true, decide_eq_true_eq, decide_eq_true_eq, hcast, not_or, not_lt, not_lt]
    exact ⟨hb, htop⟩

/-! ## Reads (R108) -/

/-- The word of CGETF holds the tag and the fields at their places. -/
theorem cgetf_fields (t : Bool) {E bl fmt r : Nat} (hE : E < 64) (hbl : bl < 8) (hfmt : fmt < 32) (hr : r < 256) :
    let v : Word := BitVec.ofNat 64 ((if t then 2 ^ 63 else 0) + E * 2 ^ 26 + bl * 2 ^ 21 + fmt * 2 ^ 16 + r)
    v.getLsbD 63 = t ∧ fieldW 62 32 v = 0 ∧ fieldW 31 26 v = E ∧ fieldW 25 24 v = 0 ∧ fieldW 23 21 v = bl ∧
      fieldW 20 16 v = fmt ∧ fieldW 15 8 v = 0 ∧ fieldW 7 0 v = r := by
  intro v
  have hv : v.toNat = (if t then 2 ^ 63 else 0) + E * 2 ^ 26 + bl * 2 ^ 21 + fmt * 2 ^ 16 + r := by
    rw [BitVec.toNat_ofNat, Nat.mod_eq_of_lt]
    split <;> omega
  simp only [fieldW, bitsOf, BitVec.getLsbD, Nat.testBit_eq_decide_div_mod_eq, hv]
  cases t <;> simp <;> omega

theorem capabilityReads : CapabilityReads := by
  intro s d x
  refine ⟨⟨_, ?_, gives_of_produce (show exec _ s = execCgeta d x s from rfl) rfl⟩,
    ⟨_, ?_, gives_of_produce (show exec _ s = execCgeto d x s from rfl) rfl⟩,
    gives_of_produce (show exec _ s = execCgetl d x s from rfl) rfl,
    ⟨_, rfl, gives_of_produce (show exec _ s = execCgetb d x s from rfl) rfl⟩,
    ⟨_, ?_, gives_of_produce (show exec _ s = execCgetf d x s from rfl) rfl⟩⟩
  · have := fieldW_lt 55 0 (s.th.rc x).w0
    exact Nat.mod_eq_of_lt (by unfold capOff; omega)
  · have := fieldW_lt 63 32 (s.th.rc x).w1
    exact Nat.mod_eq_of_lt (by unfold capObj; omega)
  · have hE := fieldW_lt 31 26 (s.th.rc x).w1
    have hbl := fieldW_lt 58 56 (s.th.rc x).w0
    have hfmt := fieldW_lt 63 59 (s.th.rc x).w0
    have hr := fieldW_lt 7 0 (s.th.rc x).w1
    exact cgetf_fields _ hE hbl hfmt hr

/-! ## Rights and formats (R109) -/

theorem fmtReserved_iff (f : Nat) : fmtReserved f = true ↔ f = 8 ∨ 18 ≤ f := by
  simp [fmtReserved]

/-- The capability that CFMT writes. -/
def withFmt (c : Cap) (f : Nat) : Cap := { c with w0 := putField 63 59 (putField 58 56 c.w0 (fmtBl f)) f }

theorem withFmt_frame (c : Cap) (f : Nat) : (withFmt c f).w1 = c.w1 ∧ (withFmt c f).tag = c.tag := by
  unfold withFmt
  exact ⟨rfl, rfl⟩

theorem withFmt_off (c : Cap) (f : Nat) : capOff (withFmt c f) = capOff c := by
  unfold withFmt capOff
  simp [fieldW_putField_other]

theorem cfmt_gives {s : State} {d x : CReg} {y : GReg} (h : fmtReserved ((s.th.rg y).toNat % 32) = false) :
    Gives (.cfmt d x y) s (some 2) [.c d (withFmt (s.th.rc x) ((s.th.rg y).toNat % 32))] := by
  refine gives_of_retire (run_ok ?_)
  rw [bind_ok (getTh_run s)]
  dsimp only
  rw [h]
  exact writeL_advance_run 2 _ s

theorem cfmt_traps {s : State} {d x : CReg} {y : GReg} (h : fmtReserved ((s.th.rg y).toNat % 32) = true) :
    Traps (.cfmt d x y) s 0x07 (tvalCap 1 x.val (capBase (s.th.rc x))) := by
  refine run_error ?_
  rw [bind_ok (getTh_run s)]
  dsimp only
  rw [h]
  rfl

/-- The capability that CRES writes. -/
def withRights (c : Cap) (g : Word) : Cap := { c with w1 := putField 7 0 c.w1 (capRights c &&& (g.toNat % 256)) }

theorem withRights_w1 (c : Cap) (g : Word) (i : Nat) :
    (withRights c g).w1.getLsbD i = if i < 8 then c.w1.getLsbD i && g.getLsbD i else c.w1.getLsbD i := by
  rw [withRights, putField_getLsbD (by decide) (by decide)]
  by_cases hi : i < 8
  · rw [if_pos (by omega), if_pos hi, Nat.testBit_and, capRights, fieldW_testBit,
      Nat.testBit_mod_two_pow (j := 8), BitVec.testBit_toNat]
    simp [hi]
  · rw [if_neg (by omega), if_neg hi]

theorem rightsAndFormat : RightsAndFormat := by
  intro s d x y
  refine ⟨⟨withRights (s.th.rc x) (s.th.rg y), ⟨rfl, rfl, fun i hi => ?_, fun i hi => ?_⟩,
      gives_of_produce (show exec _ s = execCres d x y s from rfl) rfl⟩,
    fun h8 h18 => ⟨withFmt (s.th.rc x) ((s.th.rg y).toNat % 32), ⟨(withFmt_frame _ _).1, (withFmt_frame _ _).2, ?_, ?_, ?_⟩,
      cfmt_gives ?_⟩,
    fun hres => cfmt_traps ((fmtReserved_iff _).mpr hres)⟩
  · exact (withRights_w1 _ _ i).trans (if_pos hi)
  · exact (withRights_w1 _ _ i).trans (if_neg (Nat.not_lt.mpr hi))
  · exact withFmt_off _ _
  · rw [withFmt, capFmt, fieldW_putField_same (by decide) (by decide)]
    exact Nat.mod_eq_of_lt (Nat.mod_lt _ (by decide))
  · rw [withFmt, capBl, fieldW_putField_other (by decide) (by decide) _ _ (by decide) (by decide),
      fieldW_putField_same (by decide) (by decide)]
    simp only [fmtBl, Bool.and_eq_true, decide_eq_true_eq]
    split <;> rfl
  · rw [Bool.eq_false_iff, Ne, fmtReserved_iff]
    omega

/-- Settles O17: pointer arithmetic, CSETB by its region, the reads by their fields, CRES and CFMT by the bits that they replace. -/
theorem capabilityOperations : Obligations.CapabilityOperations :=
  ⟨pointerArithmetic, setBounds, capabilityReads, rightsAndFormat⟩

/-! ## Nothing widens (R86) -/

/-- A tagged result reaches no further than its source. -/
def Within (c v : Cap) : Prop :=
  v.tag = true →
    c.tag = true ∧ capObj v = capObj c ∧ (∀ i, i < 8 → v.w1.getLsbD i = true → c.w1.getLsbD i = true) ∧
      capBase c ≤ capBase v ∧ capTop v ≤ capTop c

/-- Equal bounds leave neither end further out. -/
theorem within_of_bounds {c v : Cap} (ht : v.tag = true → c.tag = true) (hobj : capObj v = capObj c)
    (hr : ∀ i, i < 8 → v.w1.getLsbD i = true → c.w1.getLsbD i = true) (hb : v.tag = true → capBounds v = capBounds c) :
    Within c v := fun hv =>
  ⟨ht hv, hobj, hr, (congrArg Prod.fst (hb hv)).ge, (congrArg Prod.snd (hb hv)).le⟩

theorem within_self (c : Cap) : Within c c := within_of_bounds id rfl (fun _ _ h => h) fun _ => rfl

theorem within_capMove (c : Cap) (z : Int) : Within c (capMove c z) :=
  within_of_bounds (fun h => ((capMove_tag c z).mp h).1) rfl (fun _ _ h => h) fun h => ((capMove_tag c z).mp h).2.2.2

theorem within_withRights (c : Cap) (g : Word) : Within c (withRights c g) := by
  have hf : ∀ {hi lo : Nat}, lo ≤ hi → 7 < lo → fieldW hi lo (withRights c g).w1 = fieldW hi lo c.w1 := fun hlo h =>
    fieldW_putField_other (by decide) (by decide) _ _ hlo (.inr h)
  refine within_of_bounds id (hf (by decide) (by decide)) (fun i hi h => ?_) fun _ => ?_
  · rw [withRights_w1, if_pos hi, Bool.and_eq_true] at h
    exact h.1
  · exact capBounds_congr (hf (by decide) (by decide)) rfl (hf (by decide) (by decide)) (hf (by decide) (by decide))

theorem within_withFmt (c : Cap) (f : Nat) : Within c (withFmt c f) := by
  obtain ⟨hw1, htag⟩ := withFmt_frame c f
  refine within_of_bounds (fun h => htag.symm.trans h) (by rw [capObj, hw1, capObj]) (fun i _ h => by rwa [hw1] at h) fun _ => ?_
  exact capBounds_congr (by rw [capE, hw1, capE]) (withFmt_off c f) (by rw [capBf, hw1, capBf]) (by rw [capTf, hw1, capTf])

theorem capBase_of_bounds {v : Cap} {nb : Nat} {nt : Int} (h : capBounds v = (nb, nt)) : capBase v = nb := by
  unfold capBase
  rw [h]

theorem capTop_of_bounds {v : Cap} {nb : Nat} {nt : Int} (h : capBounds v = (nb, nt)) : capTop v = nt := by
  unfold capTop
  rw [h]

/-- An exponent that is found is one of those tried, and fits. -/
theorem fitExp_fits {lo hi k e j : Nat} (h : fitExp lo hi k e = some j) :
    j < e + k ∧ (hi + 2 ^ j - 1) / 2 ^ j - lo / 2 ^ j ≤ 447 := by
  induction k generalizing e with
  | zero => cases h
  | succ k ih =>
    rw [fitExp] at h
    split at h
    case isTrue hfit =>
      cases h
      exact ⟨by omega, hfit⟩
    case isFalse =>
      obtain ⟨hlt, hfit⟩ := ih h
      exact ⟨by omega, hfit⟩

/-- What CSETB writes lies within its source. -/
theorem within_narrow {c v : Cap} {len : Nat} (h : narrow c len = .ok v) : Within c v := by
  by_cases ht : c.tag = true
  case neg => cases (narrow_untagged (Bool.not_eq_true _ ▸ ht)).symm.trans h
  by_cases hhi : capOff c + len > 2 ^ 56
  case pos => cases (narrow_beyond ht hhi).symm.trans h
  rw [Nat.not_lt] at hhi
  cases hf : fitExp (capOff c) (capOff c + len) 48 0 with
  | none => cases (narrow_noRegion ht hhi (by rw [regionOf, hf]; rfl)).symm.trans h
  | some e =>
    obtain ⟨he, hfit⟩ := fitExp_fits hf
    rw [narrow_region ht hhi (by rw [regionOf, hf]; rfl)] at h
    split at h
    case isTrue => cases h
    case isFalse hin =>
      cases h
      rw [Bool.or_eq_true, decide_eq_true_eq, decide_eq_true_eq, not_or, not_lt, not_lt] at hin
      obtain ⟨hobj, hrights⟩ :=
        capSetRegion_objRights c e (capOff c / 2 ^ e * 2 ^ e) ((capOff c + len + 2 ^ e - 1) / 2 ^ e * 2 ^ e)
      obtain ⟨-, -, -, hb⟩ := capSetRegion_spec c (by omega) (Nat.le_add_right _ _) hhi hfit
      refine fun _ => ⟨ht, hobj, fun i hi hv => ?_, ?_, ?_⟩
      · have hbit := congrArg (Nat.testBit · i) hrights
        simpa only [capRights, fieldW_testBit, hi, Nat.zero_add, decide_true, Bool.true_and, hv, Nat.sub_zero, eq_comm] using hbit
      · rw [capBase_of_bounds hb]
        exact hin.1
      · rw [capTop_of_bounds hb]
        exact hin.2

/-- Settles O18: a result keeps its source's bounds and drops rights at most, or is a region that CSETB has found within. -/
theorem capabilitiesOnlyNarrow : Obligations.CapabilitiesOnlyNarrow := by
  intro s d x y g
  refine ⟨⟨_, within_self _, gives_of_produce (show exec _ s = execMovCap d x s from rfl) rfl⟩,
    ⟨_, within_capMove _ _, gives_of_produce (show exec _ s = execCadd d x y s from rfl) rfl⟩,
    ⟨_, within_capMove _ _, gives_of_produce (show exec _ s = execCseta d x y s from rfl) rfl⟩,
    ⟨_, within_withRights _ (s.th.rg g), gives_of_produce (show exec _ s = execCres d x g s from rfl) rfl⟩, fun i hi => ?_⟩
  obtain rfl | rfl : i = .csetb d x y ∨ i = .cfmt d x g := by simpa using hi
  · cases hn : narrow (s.th.rc x) (opdVal s.th y).toNat with
    | error e => exact .inr ⟨_, _, csetb_traps hn⟩
    | ok v => exact .inl ⟨v, within_narrow hn, csetb_gives hn⟩
  · by_cases hf : fmtReserved ((s.th.rg g).toNat % 32) = true
    · exact .inr ⟨_, _, cfmt_traps hf⟩
    · exact .inl ⟨_, within_withFmt _ _, cfmt_gives (Bool.not_eq_true _ ▸ hf)⟩

end Sys2Proof.Machine
end

section
/-!
PROOFS. Repeated bodies (R120): LPST field by field after a bundle, and the starts of REP and LOOPP.
-/

namespace Sys2Proof.Machine

open Sys2Proof.Spec

theorem loopStep_held {l : Word} (h : l.getLsbD 63 = false ∨ l.getLsbD 61 = true) : loopStep l = (l, false) := by
  rw [loopStep, if_pos]
  simpa [bitW] using h

theorem active_of_bits {l : Word} (ha : l.getLsbD 63 = true) (hh : l.getLsbD 61 = false) :
    ¬(!(bitW 63 l) || bitW 61 l) = true := by
  unfold bitW
  rw [ha, hh]
  decide

/-- An active loop that is not held, within its body. -/
theorem loopStep_counts {l : Word} (ha : l.getLsbD 63 = true) (hh : l.getLsbD 61 = false)
    (hn : fieldW 52 46 l + 1 ≠ fieldW 59 53 l) : loopStep l = (putField 52 46 l (fieldW 52 46 l + 1), false) := by
  rw [loopStep, if_neg (active_of_bits ha hh)]
  exact if_pos hn

/-- At the end of a pass. -/
theorem loopStep_pass {l : Word} (ha : l.getLsbD 63 = true) (hh : l.getLsbD 61 = false)
    (hn : fieldW 52 46 l + 1 = fieldW 59 53 l) :
    loopStep l =
      if l.getLsbD 60 = true then (putField 52 46 l 0, true)
      else if 0 < fieldW 31 0 l then (putField 31 0 (putField 52 46 l 0) (fieldW 31 0 l - 1), true)
      else (putField 63 63 (putField 52 46 l 0) 0, false) := by
  rw [loopStep, if_neg (active_of_bits ha hh)]
  exact if_neg (not_not.mpr hn)

/-- Counting leaves every field of LPST but ACT, IDX and LEFT. -/
theorem loopStep_keeps {l : Word} (ha : l.getLsbD 63 = true) (hh : l.getLsbD 61 = false) {i : Nat}
    (hi : i = 62 ∨ i = 61 ∨ i = 60 ∨ 53 ≤ i ∧ i ≤ 59 ∨ 32 ≤ i ∧ i ≤ 45) : (loopStep l).1.getLsbD i = l.getLsbD i := by
  by_cases hn : fieldW 52 46 l + 1 = fieldW 59 53 l
  · rw [loopStep_pass ha hh hn]
    split
    · rw [putField_getLsbD (by decide) (by decide), if_neg (by omega)]
    · split <;>
        rw [putField_getLsbD (by decide) (by decide), if_neg (by omega), putField_getLsbD (by decide) (by decide), if_neg (by omega)]
  · rw [loopStep_counts ha hh hn, putField_getLsbD (by decide) (by decide), if_neg (by omega)]

theorem repeatCounts : RepeatCounts := by
  intro l
  refine ⟨loopStep_held, fun ha hh => ⟨fun i hi => loopStep_keeps ha hh hi, fun hn hlt => ?_, fun hn => ?_, fun hn he => ?_,
    fun hn he hleft => ?_, fun hn he hleft => ?_⟩⟩
  · rw [loopStep_counts ha hh hn]
    refine ⟨?_, ?_, ?_, rfl⟩
    · rw [fieldW_putField_same (by decide) (by decide)]
      exact Nat.mod_eq_of_lt (by omega)
    · exact fieldW_putField_other (by decide) (by decide) _ _ (by decide) (by decide)
    · rw [putField_getLsbD (by decide) (by decide), if_neg (by decide), ha]
  · rw [loopStep_pass ha hh hn]
    split
    · simp [fieldW_putField_same]
    · split <;> simp [fieldW_putField_same, fieldW_putField_other]
  · rw [loopStep_pass ha hh hn, if_pos he]
    refine ⟨?_, ?_, rfl⟩
    · exact fieldW_putField_other (by decide) (by decide) _ _ (by decide) (by decide)
    · rw [putField_getLsbD (by decide) (by decide), if_neg (by decide), ha]
  · rw [loopStep_pass ha hh hn, if_neg (by simpa using he), if_pos hleft]
    refine ⟨?_, ?_, rfl⟩
    · have := fieldW_lt 31 0 l
      rw [fieldW_putField_same (by decide) (by decide)]
      exact Nat.mod_eq_of_lt (by omega)
    · rw [putField_getLsbD (by decide) (by decide), if_neg (by decide), putField_getLsbD (by decide) (by decide), if_neg (by decide), ha]
  · rw [loopStep_pass ha hh hn, if_neg (by simpa using he), if_neg (by omega)]
    refine ⟨?_, ?_, rfl⟩
    · simp [fieldW_putField_other, hleft]
    · rw [putField_getLsbD (by decide) (by decide), if_pos (by decide)]
      decide

/-- The fields of LPST as REP and LOOPP set them. -/
theorem lpstOf_fields (kind endless : Bool) {n left : Nat} (hn : n < 128) (hl : left < 2 ^ 32) :
    (lpstOf kind endless n left).getLsbD 63 = true ∧ (lpstOf kind endless n left).getLsbD 62 = kind ∧
      (lpstOf kind endless n left).getLsbD 61 = false ∧ (lpstOf kind endless n left).getLsbD 60 = endless ∧
      fieldW 59 53 (lpstOf kind endless n left) = n ∧ fieldW 52 46 (lpstOf kind endless n left) = 0 ∧
      fieldW 31 0 (lpstOf kind endless n left) = left := by
  have hv : (lpstOf kind endless n left).toNat =
      2 ^ 63 + (if kind then 2 ^ 62 else 0) + (if endless then 2 ^ 60 else 0) + n * 2 ^ 53 + left := by
    rw [lpstOf, BitVec.toNat_ofNat, Nat.mod_eq_of_lt hn, Nat.mod_eq_of_lt hl, Nat.mod_eq_of_lt]
    split <;> split <;> omega
  simp only [fieldW, bitsOf, BitVec.getLsbD, Nat.testBit_eq_decide_div_mod_eq, hv]
  cases kind <;> cases endless <;> simp <;> omega

/-- The thread after REP or LOOPP. -/
theorem startLoop_eq (t : Thread) (c : Cur) (l : Word) :
    t.startLoop c l = { t with
      nt := t.nt + 1 + c.stall, bundles := t.bundles + 1, noBreak := false, atHome := false, lpst := l,
      lpsa := BitVec.ofNat 64 ((t.pc + 2 * c.words) % 2 ^ 56), pcc := capSetOff t.pcc (t.pc + 2 * c.words) } := rfl

theorem pin_frame (s : State) (cluster obj start began : Nat) :
    (s.pin cluster obj start began).mem = s.mem ∧ (s.pin cluster obj start began).cur = s.cur ∧
      (s.pin cluster obj start began).threads = s.threads := by
  unfold State.pin
  dsimp only
  split <;> exact ⟨rfl, rfl, rfl⟩

theorem pin_thread (s : State) (cluster obj start began k : Nat) : (s.pin cluster obj start began).thread k = s.thread k := by
  obtain ⟨-, -, hthreads⟩ := pin_frame s cluster obj start began
  simp only [State.thread, hthreads]

theorem repeatStarts : RepeatStarts := by
  intro s n k m j
  have hn := n.isLt
  have hm := m.isLt
  have hk := k.isLt
  have hj := j.isLt
  refine ⟨⟨s.setTh (s.th.startLoop s.cur (lpstOf false false (n.toNat + 1) k.toNat)), lpstOf false false (n.toNat + 1) k.toNat,
      rfl, ⟨?_, rfl, fun i hi => thread_setTh_other s i _ hi⟩, only_setTh s _, lpstOf_fields false false (by omega) hk⟩, ?_⟩
  · rw [th_setTh, startLoop_eq]
  · obtain ⟨hmem, hcur, -⟩ := pin_frame s (coreCluster s.cur.core)
      (capObj (s.th.startLoop s.cur (lpstOf true (j = 0) (m.toNat + 1) (j.toNat - 1))).pcc)
      (s.th.startLoop s.cur (lpstOf true (j = 0) (m.toNat + 1) (j.toNat - 1))).pc (s.beganAt s.th)
    refine ⟨_, lpstOf true (j = 0) (m.toNat + 1) (j.toNat - 1), rfl, ⟨?_, hmem, fun i hi => ?_⟩,
      lpstOf_fields true (j = 0) (by omega) (by omega)⟩
    · dsimp only
      rw [th_setTh, startLoop_eq]
    · dsimp only
      rw [thread_setTh_other _ _ _ (by rwa [hcur]), pin_thread]

/-- Settles O21: how LPST counts, and how REP and LOOPP set it. -/
theorem repeatedBodies : Obligations.RepeatedBodies := ⟨repeatCounts, repeatStarts⟩

end Sys2Proof.Machine
end

section
/-!
PROOFS. The checks of an access in their order (R88), for the loads and stores of one thread.
-/

namespace Sys2Proof.Machine

open Sys2Proof.Spec

theorem memOff_eq_effective (t : Thread) (a : MemOp) : memOff t a = effective t a := by
  rw [memOff, opdVal_eq_src]
  rfl

/-! ## The first cause that applies -/

section CapCheck

variable {c : Cap} {need n align : Nat} {ea : Int}

theorem capCheck_untagged (ht : c.tag = false) : capCheck c need ea n align = some (0x04, (ea % 2 ^ 56).toNat) := by
  simp [capCheck, ht]

theorem capCheck_rights (ht : c.tag = true) (hr : missing need (capRights c) ≠ 0) :
    capCheck c need ea n align = some (0x06, missing need (capRights c)) := by
  simp [capCheck, ht, hr]

theorem capCheck_format (ht : c.tag = true) (hr : missing need (capRights c) = 0) (hf : capBadFmt c = true) :
    capCheck c need ea n align = some (0x07, (ea % 2 ^ 56).toNat) := by
  simp [capCheck, ht, hr, hf]

theorem capCheck_bounds (ht : c.tag = true) (hr : missing need (capRights c) = 0) (hf : capBadFmt c = false)
    (hb : ea < capBase c ∨ capTop c < ea + n) : capCheck c need ea n align = some (0x05, (ea % 2 ^ 56).toNat) := by
  simp [capCheck, ht, hr, hf, hb]

theorem capCheck_align (ht : c.tag = true) (hr : missing need (capRights c) = 0) (hf : capBadFmt c = false)
    (hb : ¬(ea < capBase c ∨ capTop c < ea + n)) (ha : ea % align ≠ 0) :
    capCheck c need ea n align = some (0x0E, (ea % 2 ^ 56).toNat) := by
  simp [capCheck, ht, hr, hf, hb, ha]

end CapCheck

theorem capBadFmt_iff (c : Cap) :
    capBadFmt c = true ↔ capFmt c = 8 ∨ 18 ≤ capFmt c ∨ capBl c ≠ (if 11 ≤ capFmt c ∧ capFmt c ≤ 16 then 5 else 0) := by
  simp [capBadFmt, fmtReserved, fmtBl, or_assoc]

/-! ## A bundle whose access fails its check -/

theorem loadBytes_trap {w : Src} {c : Cap} {need n align k o : Nat} {ea : Int} (h : capCheck c need ea n align = some (k, o)) (s : State) :
    loadBytes w c need ea n align s = .error (.trap k (tvalCap w.src w.creg o)) s :=
  bind_error (checkCap_trap w c need ea n align s k o h)

theorem storeBytes_trap {w : Src} {c : Cap} {need align k o : Nat} {ea : Int} {bs : List Byte} {tag : Bool}
    (h : capCheck c need ea bs.length align = some (k, o)) (s : State) :
    storeBytes w c need ea bs align tag s = .error (.trap k (tvalCap w.src w.creg o)) s :=
  bind_error (checkCap_trap w c need ea bs.length align s k o h)

theorem loadCap_trap {w : Src} {plain : Bool} {c : Cap} {need k o : Nat} {ea : Int} (h : capCheck c need ea 16 16 = some (k, o))
    (s : State) : loadCap w plain c need ea s = .error (.trap k (tvalCap w.src w.creg o)) s :=
  bind_error (checkCap_trap w c need ea 16 16 s k o h)

theorem loadWord_trap {s : State} {sz : Option Size} {a : MemOp} {k o : Nat}
    (h : capCheck (s.th.rc a.base) rR (effective s.th a) (accSize sz (s.th.rc a.base)) (accSize sz (s.th.rc a.base)) = some (k, o)) :
    loadWord sz a s = .error (.trap k (tvalCap 1 a.base.val o)) s := by
  rw [← memOff_eq_effective] at h
  exact (bind_ok (getTh_run s)).trans (bind_error (loadBytes_trap h s))

theorem storeWord_trap {s : State} {sz : Option Size} {g : GReg} {a : MemOp} {k o : Nat}
    (h : capCheck (s.th.rc a.base) rW (effective s.th a) (accSize sz (s.th.rc a.base)) (accSize sz (s.th.rc a.base)) = some (k, o)) :
    storeWord sz g a s = .error (.trap k (tvalCap 1 a.base.val o)) s := by
  rw [← memOff_eq_effective] at h
  exact (bind_ok (getTh_run s)).trans (storeBytes_trap (by rwa [length_leBytes]) s)

/-- The accesses of one thread, each with the rights that it needs and its size. -/
def accesses (t : Thread) (sz : Option Size) (sc : Scope) (g : GReg) (d : CReg) (a : MemOp) : List (Instr × Nat × Nat) :=
  [(.ld sz g a, rR, accSize sz (t.rc a.base)), (.lda sz sc g a, rR, accSize sz (t.rc a.base)),
    (.st sz g a, rW, accSize sz (t.rc a.base)), (.strel sz sc g a, rW, accSize sz (t.rc a.base)),
    (.ldc d a, rR + rC, 16), (.stc d a, if (t.rc d).tag then rW + rS else rW, 16)]

/-- The first cause that applies to an access is the trap of its bundle. -/
theorem traps_of_capCheck {s : State} {sz : Option Size} {sc : Scope} {g : GReg} {d : CReg} {a : MemOp} {p : Instr × Nat × Nat}
    (hp : p ∈ accesses s.th sz sc g d a) {k o : Nat}
    (h : capCheck (s.th.rc a.base) p.2.1 (effective s.th a) p.2.2 p.2.2 = some (k, o)) : Traps p.1 s k (tvalCap 1 a.base.val o) := by
  simp only [accesses, List.mem_cons, List.not_mem_nil, or_false] at hp
  obtain rfl | rfl | rfl | rfl | rfl | rfl := hp
  · exact run_error (bind_error (loadWord_trap h))
  · exact run_error (bind_error (loadWord_trap h))
  · exact run_error (bind_error (storeWord_trap h))
  · exact run_error (bind_error (storeWord_trap h))
  · rw [← memOff_eq_effective] at h
    exact run_error ((bind_ok (getTh_run s)).trans (bind_error (loadCap_trap h s)))
  · rw [← memOff_eq_effective] at h
    refine run_error ((bind_ok (getTh_run s)).trans (bind_error (storeBytes_trap ?_ s)))
    rwa [capBytes, List.length_append, length_leBytes, length_leBytes]

/-- Settles O27: `capCheck` names the first cause that applies, and the bundle traps with it. -/
theorem accessChecksInOrder : Obligations.AccessChecksInOrder := by
  intro s sz sc g d a c ea n o p hp tv lacks badFmt outside
  have traps := fun {k o} => traps_of_capCheck (k := k) (o := o) (show p ∈ accesses s.th sz sc g d a from hp)
  have good : ¬badFmt → capBadFmt c = false := fun hf => Bool.eq_false_iff.mpr fun h => hf ((capBadFmt_iff c).mp h)
  refine ⟨fun ht => traps (capCheck_untagged ht), fun ht hr => traps (capCheck_rights ht hr),
    fun ht hr hf => traps (capCheck_format ht hr ((capBadFmt_iff c).mpr hf)),
    fun ht hr hf hb => traps (capCheck_bounds ht hr (good hf) hb), fun ht hr hf hb ha => traps (capCheck_align ht hr (good hf) hb ha)⟩

end Sys2Proof.Machine
end

section
/-!
PROOFS. Tasks start, rise in priority and come from light handlers (R81, R153, R156, R167).
-/

namespace Sys2Proof.Machine

open Sys2Proof.Spec

/-! ## The start of a firing (R81, R153) -/

theorem lfsrSeed_ne_zero (g : Word) : lfsrSeed g ≠ 0 := by
  unfold lfsrSeed
  dsimp only
  split
  · decide
  · assumption

/-- The words of a task are in g1 on. -/
theorem smGet_gregs (ws : List Word) (j : Nat) (hj : j < ws.length) : smGet 0 (gregs ws) (j + 1) = ws.getD j 0 := by
  suffices h : ∀ n k : Nat, j < k + n → k ≤ j →
      smFind ((List.range' k n).map fun i => (i + 1, ws.getD i 0)) (j + 1) = some (ws.getD j 0) by
    rw [smGet, gregs, List.range_eq_range', h ws.length 0 (by omega) (Nat.zero_le j), Option.getD_some]
  intro n
  induction n with
  | zero => omega
  | succ n ih =>
    intro k hlt hle
    rw [List.range'_succ, List.map_cons, smFind]
    split
    case isTrue heq => rw [show k = j by omega]
    case isFalse hne => exact ih (k + 1) (by omega) (by omega)

section StartFiring

variable {s : State} {tid : Nat} {tm : Team} {k : Task} {prio : Nat}

theorem startFiring_frame (s : State) (tid : Nat) (tm : Team) (k : Task) (prio : Nat) :
    (s.startFiring tid tm k prio).queues = s.queues ∧ (s.startFiring tid tm k prio).mem = s.mem ∧
      ∀ j, j ≠ tid → (s.startFiring tid tm k prio).thread j = s.thread j := by
  unfold State.startFiring
  split
  · exact ⟨rfl, rfl, fun _ _ => rfl⟩
  · dsimp only
    split <;> exact ⟨rfl, rfl, fun j hj => thread_setThread_other s tid j _ hj⟩

/-- The context of a task that has started. -/
theorem startFiring_thread {l : Launch} (hl : s.launch? k.launch = some l) :
    let t := (s.startFiring tid tm k prio).thread tid
    t.g = gregs k.words ∧ t.rc 1 = l.spec.args ∧
      t.pcc = capSetOff l.spec.code (((l.spec.table[k.actor]?).map (·.handler)).getD 0) ∧ t.status = .running ∧ t.workid = k.workid ∧
      t.eprio = prio ∧ t.pend = [] ∧ t.ras = [] ∧ t.lfsr = lfsrSeed (k.words.getD 0 0) ∧
      t.firing = some ⟨s.serial, k.launch, k.team, k.actor, k.kind, prio, k.port, k.record, none⟩ := by
  intro t
  have ht : t = (s.startFiring tid tm k prio).thread tid := rfl
  unfold State.startFiring at ht
  rw [hl] at ht
  dsimp only at ht
  split at ht
  all_goals
    rw [ht.trans (thread_setThread_self s tid _)]
    exact ⟨rfl, rfl, rfl, rfl, rfl, rfl, rfl, rfl, rfl, rfl⟩

end StartFiring

/-- With nothing saved, the next place of the queue starts. -/
theorem startNext_of_place {s : State} {core tid : Nat} {e : QEntry} (hs : s.saved = []) (hn : nextPlace (s.queue core) = some e) :
    s.startNext core tid = s.startPlace core tid e := by
  simp [State.startNext, State.eligible, hs, hn]

/-- A task without a record starts in its team. -/
theorem startPlace_of_task {s : State} {core tid : Nat} {e : QEntry} {k : Task} {tm : Team} (hk : e.item = .task k)
    (hr : k.record = none) (ht : s.team? k.launch k.team = some tm) :
    s.startPlace core tid e = (s.setQueue core ((s.queue core).erase e)).startFiring tid tm k e.prio := by
  have ht' : (s.setQueue core ((s.queue core).erase e)).team? k.launch k.team = some tm := ht
  simp [State.startPlace, hk, ht', hr]

theorem queue_setQueue_self (s : State) (core : Nat) (q : List QEntry) : (s.setQueue core q).queue core = q := by
  simp [State.queue]

theorem queue_setQueue_other (s : State) {core k : Nat} (q : List QEntry) (h : k ≠ core) :
    (s.setQueue core q).queue k = s.queue k := smGet_smPut_other [] s.queues core k q h

/-! ## Tasks that ports make (R155, R156, R167) -/

/-- Tasks may have joined the queues; nothing else of the machine that programs see has changed. -/
def Queued (s t : State) : Prop :=
  t.mem = s.mem ∧ t.threads = s.threads ∧ t.teams = s.teams ∧ ∀ core, ∃ more, t.queue core = s.queue core ++ more

theorem queued_refl (s : State) : Queued s s := ⟨rfl, rfl, rfl, fun _ => ⟨[], (List.append_nil _).symm⟩⟩

theorem queued_trans {s t u : State} (h : Queued s t) (h' : Queued t u) : Queued s u := by
  obtain ⟨hmem, hthreads, hteams, hq⟩ := h
  obtain ⟨hmem', hthreads', hteams', hq'⟩ := h'
  refine ⟨hmem'.trans hmem, hthreads'.trans hthreads, hteams'.trans hteams, fun core => ?_⟩
  obtain ⟨more, hm⟩ := hq core
  obtain ⟨more', hm'⟩ := hq' core
  exact ⟨more ++ more', by rw [hm', hm, List.append_assoc]⟩

theorem queued_pushTask (s : State) (core prio : Nat) (k : Task) : Queued s (s.pushTask core prio k) := by
  refine ⟨rfl, rfl, rfl, fun j => ?_⟩
  by_cases hj : j = core
  · subst hj
    exact ⟨_, queue_setQueue_self s j _⟩
  · exact ⟨[], (queue_setQueue_other s _ hj).trans (List.append_nil _).symm⟩

theorem queued_foldl {α : Type} {f : State → α → State} (hf : ∀ s a, Queued s (f s a)) (l : List α) (s : State) :
    Queued s (l.foldl f s) := by
  induction l generalizing s with
  | nil => exact queued_refl s
  | cons a l ih => exact queued_trans (hf s a) (ih _)

theorem queued_stageTasks (s : State) (key : Nat) : Queued s (s.stageTasks key) := by
  unfold State.stageTasks
  split
  · exact queued_refl s
  · refine queued_foldl (fun u a => ?_) _ s
    split
    · split
      · exact queued_pushTask u ..
      · exact queued_refl u
    · exact queued_refl u

/-- The message task of a light handler (R167): the value, its port and how many elements stand behind it. -/
def lightTask (tm : Team) (q a : Nat) (x : Element) (rest : List Element) : Task :=
  { launch := tm.launch, team := tm.no, actor := a, kind := 2,
    words := eight [x.data, BitVec.ofNat 64 q, BitVec.ofNat 64 rest.length], workid := x.workid, depth := 0,
    port := some q, record := none }

/-- The team whose light handler has taken the oldest element of a port. -/
def takenBy (tm : Team) (q : Nat) (rest : List Element) : Team := { tm.setElems q rest with lhBusy := q :: tm.lhBusy }

/-- A control value at the head of the port makes one task; what stands behind it is no control value. -/
theorem lightTasks_one {s : State} {tm : Team} {q a f : Nat} {x : Element} {rest : List Element}
    (ht : smFind s.teams tm.key = some tm) (ha : smFind tm.lh q = some a) (hx : tm.elems q = x :: rest) (hc : x.ctl = true)
    (hrest : ∀ y z, rest = y :: z → y.ctl = false) (hroom : s.room tm.core = true) :
    s.lightTasks tm.key q (f + 2) =
      (s.setTeam (takenBy tm q rest)).pushTask tm.core (s.launchPrio tm.launch) (lightTask tm q a x rest) := by
  have htaken : smFind ((s.setTeam (takenBy tm q rest)).pushTask tm.core (s.launchPrio tm.launch) (lightTask tm q a x rest)).teams
      tm.key = some (takenBy tm q rest) := smFind_smPut_self s.teams tm.key _
  have helems : (takenBy tm q rest).elems q = rest := smGet_smPut_self [] tm.ports q rest
  have hlh : smFind (takenBy tm q rest).lh q = some a := ha
  rw [State.lightTasks, ht]
  dsimp only
  rw [ha, hx]
  dsimp only
  rw [hc, hroom, Bool.and_true, if_pos rfl]
  change ((s.setTeam (takenBy tm q rest)).pushTask tm.core (s.launchPrio tm.launch) (lightTask tm q a x rest)).lightTasks
    tm.key q (f + 1) = _
  rw [State.lightTasks, htaken]
  dsimp only
  rw [hlh, helems]
  cases rest with
  | nil => rfl
  | cons y z =>
    dsimp only
    rw [hrest y z rfl, Bool.false_and, if_neg (by decide)]

/-! ## The statement -/

/-- Settles O53: the next place starts, a raised place joins the tail, a light handler's task joins before any stage actor's. -/
theorem tasksStart : Obligations.TasksStart := by
  intro s core ctx idx e k tm l act tid
  refine ⟨fun hfree hsaved hnext hitem hrec hteam hlaunch hact hlen => ?_, fun hidx hprio => ?_,
    fun q a x rest hteam hlh helems hctl hrest hroom => ?_⟩
  · obtain ⟨hqueues, hmem, hother⟩ := startFiring_frame (s.setQueue core ((s.queue core).erase e)) tid tm k e.prio
    obtain ⟨hg, hc, hpcc, hstatus, hid, hprio, hpend, hras, hlfsr, hfiring⟩ :=
      startFiring_thread (s := s.setQueue core ((s.queue core).erase e)) (tid := tid) (tm := tm) (prio := e.prio) hlaunch
    rw [hact] at hpcc
    refine ⟨(s.setQueue core ((s.queue core).erase e)).startFiring tid tm k e.prio, _, ?_, ?_, hmem, hother, fun j => ?_, hc, hpcc,
      hstatus, hid, hprio, hpend, hras, ?_, hfiring, rfl, rfl, rfl, rfl⟩
    · change event _ s = _
      rw [event_next, if_pos hfree, startNext_of_place hsaved hnext, startPlace_of_task hitem hrec hteam]
    · rw [State.queue, hqueues]
      exact queue_setQueue_self s core _
    · have hj : (Fin.ofNat 32 (j.val + 1)).val = j.val + 1 := Nat.mod_eq_of_lt (by omega)
      rw [Thread.rg, if_neg (fun h0 => absurd (hj.symm.trans (congrArg Fin.val h0)) (Nat.succ_ne_zero _)), hg, hj]
      exact smGet_gregs _ _ (by omega)
    · rw [hlfsr]
      exact lfsrSeed_ne_zero _
  · refine ⟨_, (show exec _ s = execTaskPriorityRaise core idx s from rfl).trans ?_, rfl⟩
    rw [execTaskPriorityRaise, event_next]
    dsimp only
    rw [hidx]
    exact congrArg _ (if_pos hprio)
  · obtain ⟨hmem, hthreads, hteams, hq⟩ := queued_stageTasks
      ((s.setTeam (takenBy tm q rest)).pushTask tm.core (s.launchPrio tm.launch) (lightTask tm q a x rest)) tm.key
    obtain ⟨more, hmore⟩ := hq tm.core
    refine ⟨s.portChanged tm.key q, lightTask tm q a x rest, more, takenBy tm q rest, rfl, ?_⟩
    rw [State.portChanged, lightTasks_one hteam hlh helems hctl hrest hroom]
    refine ⟨hmem, hthreads, ?_, rfl, rfl, rfl, rfl, rfl, ?_, ?_, rfl⟩
    · rw [hmore, State.pushTask, queue_setQueue_self, List.append_assoc]
      rfl
    · rw [hteams]
      exact smFind_smPut_self s.teams tm.key _
    · exact smGet_smPut_self [] tm.ports q rest

end Sys2Proof.Machine
end

section
/-!
PROOFS. A store is performed at its home (R87, R125, R188) and changes nothing else.
-/

namespace Sys2Proof.Machine

open Sys2Proof.Spec

/-! ## A request with no page in a move -/

/-- A request that no move meets is answered by the redirect entries alone; only its notices are left behind. -/
theorem reach_of_noMoves {s : State} (h : NoMoves s) (core a : Nat) :
    s.reach core a =
      if isDram a then (followRedirects s.redirects a, s.notifyHops core a) else (a, s) := by
  unfold State.reach
  rw [h (frameOf a)]
  cases isDram a <;> rfl

/-- What a redirect notice leaves: everything but the notices. -/
theorem notifyHops_eq (s : State) (core a : Nat) : ∃ n, s.notifyHops core a = { s with notices := n } := by
  suffices h : ∀ (l : List TlbEntry) (s : State), ∃ n, l.foldl (fun s e => s.notify core e) s = { s with notices := n } from h _ s
  intro l
  induction l with
  | nil => exact fun s => ⟨s.notices, rfl⟩
  | cons e l ih =>
    intro s
    obtain ⟨n, hn⟩ := ih (s.notify core e)
    exact ⟨n, hn⟩

/-- Where a request leads without a move depends on the redirect entries alone, and the request leaves only notices. -/
theorem reach_notices {s : State} (h : NoMoves s) (core a : Nat) :
    ∃ n, s.reach core a = ((if isDram a then followRedirects s.redirects a else a), { s with notices := n }) := by
  rw [reach_of_noMoves h]
  split
  · obtain ⟨n, hn⟩ := notifyHops_eq s core a
    exact ⟨n, by rw [hn]⟩
  · exact ⟨s.notices, rfl⟩

/-! ## A wake leaves all of a thread but its status -/

/-- Each thread of t is that of s but for its status. -/
def SameButStatus (s t : State) : Prop := ∀ k, { t.thread k with status := .free } = { s.thread k with status := .free }

theorem sameButStatus_of_threads {s t : State} (h : t.threads = s.threads) : SameButStatus s t := by
  intro k
  rw [State.thread, h]
  rfl

theorem SameButStatus.trans {s t u : State} (h : SameButStatus s t) (h' : SameButStatus t u) : SameButStatus s u :=
  fun k => (h' k).trans (h k)

theorem SameButStatus.stores {s t : State} (h : SameButStatus s t) (k : Nat) : (t.thread k).stores = (s.thread k).stores := by
  have e := congrArg Thread.stores (h k)
  exact e

theorem SameButStatus.pend {s t : State} (h : SameButStatus s t) (k : Nat) : (t.thread k).pend = (s.thread k).pend := by
  have e := congrArg Thread.pend (h k)
  exact e

theorem SameButStatus.unqueued {s t : State} (h : SameButStatus s t) (k : Nat) :
    { t.thread k with status := .free, stores := [] } = { s.thread k with status := .free, stores := [] } :=
  congrArg (fun th : Thread => { th with stores := [] }) (h k)

theorem wakeWith_frame (s : State) (t : Nat) (v : Word) : (s.wakeWith t v).tags = s.tags ∧ SameButStatus s (s.wakeWith t v) := by
  unfold State.wakeWith
  dsimp only
  split
  case h_1 p hp =>
    refine ⟨rfl, fun k => ?_⟩
    by_cases hk : k = t
    · rw [hk, thread_setThread_self]
    · rw [thread_setThread_other _ _ _ _ hk]
  all_goals exact ⟨rfl, fun _ => rfl⟩

theorem wakeCounters_frame (s : State) (a n : Nat) :
    (s.wakeCounters a n).tags = s.tags ∧ SameButStatus s (s.wakeCounters a n) := by
  unfold State.wakeCounters
  suffices h : ∀ (l : List WaitEntry) (s : State),
      (l.foldl (fun s e => s.wakeWith e.tid (s.homeWord e.addr)) s).tags = s.tags ∧
        SameButStatus s (l.foldl (fun s e => s.wakeWith e.tid (s.homeWord e.addr)) s) from h _ _
  intro l
  induction l with
  | nil => exact fun s => ⟨rfl, fun _ => rfl⟩
  | cons e l ih =>
    intro s
    obtain ⟨htags, hsame⟩ := wakeWith_frame s e.tid (s.homeWord e.addr)
    obtain ⟨ihtags, ihsame⟩ := ih (s.wakeWith e.tid (s.homeWord e.addr))
    exact ⟨ihtags.trans htags, hsame.trans ihsame⟩

/-! ## What a write at a home leaves -/

section HomeWrite

variable {s : State} {src a : Nat} {bs : List Byte}

theorem homeWrite_inside {k : Nat} (h : isForeign a = false) (hk : k < bs.length) :
    memByte (s.homeWrite src a bs).mem (a + k) = bs.getD k 0 := by
  rw [homeWrite_mem s src a bs h, memByte_memPutBytes_inside bs s.mem a k hk]
  simp [List.getD, hk]

/-- The granules that a write at a home touches lose their tags, and no others. -/
theorem homeWrite_tags (h : isForeign a = false) (hb : bs ≠ []) (g : Nat) :
    (s.homeWrite src a bs).tags.contains g = (s.tags.contains g && !(decide (16 * g < a + bs.length) && decide (a < 16 * g + 16))) := by
  unfold State.homeWrite
  rw [if_neg hb, h]
  dsimp only
  rw [if_neg Bool.false_ne_true, (wakeCounters_frame _ _ _).1, List.contains_eq_mem, List.contains_eq_mem]
  simp only [List.mem_filter, Bool.decide_and, Bool.decide_eq_true]

theorem homeWrite_sameButStatus (h : isForeign a = false) : SameButStatus s (s.homeWrite src a bs) := by
  unfold State.homeWrite
  split
  · exact fun _ => rfl
  · rw [h]
    exact (sameButStatus_of_threads rfl).trans (wakeCounters_frame _ _ _).2

end HomeWrite

theorem mem_setIns (k g : Nat) (l : List Nat) : g ∈ setIns k l ↔ g = k ∨ g ∈ l := by
  induction l with
  | nil => simp [setIns]
  | cons j l ih =>
    unfold setIns
    split
    · simp
    · split
      case isTrue heq => simp [heq]
      case isFalse => simp [ih, or_left_comm]

theorem setTag_contains (s : State) (a g : Nat) :
    (s.setTag a).tags.contains g = (s.tags.contains g || (hasTags a && decide (g = a / 16))) := by
  unfold State.setTag
  cases hasTags a
  · simp
  · rw [if_pos rfl, List.contains_eq_mem, List.contains_eq_mem]
    simp [mem_setIns, Bool.or_comm]

theorem setTag_frame (s : State) (a : Nat) : (s.setTag a).mem = s.mem ∧ (s.setTag a).threads = s.threads := by
  unfold State.setTag
  split <;> exact ⟨rfl, rfl⟩

theorem countAccess_eq (s : State) (core f obj page perm : Nat) : ∃ p, s.countAccess core f obj page perm = { s with pages := p } := by
  unfold State.countAccess
  dsimp only
  repeat' split
  all_goals exact ⟨_, rfl⟩

/-! ## The oldest store at its home -/

/-- A write of a store's bytes at its home, with the tag that it brings. -/
def State.storeAt (s : State) (src a : Nat) (r : StoreReq) : State :=
  if r.tag then (s.homeWrite src a r.bytes).setTag a else s.homeWrite src a r.bytes

/-- A store of a context that no move meets is written where its address leads, after it has left the queue. -/
theorem applyStore_eq {s : State} {tid : Nat} {r : StoreReq} {rest : List StoreReq} (h : NoMoves s)
    (hs : (s.thread tid).stores = r :: rest) :
    ∃ n p, s.applyStore tid =
      { { s.setThread tid { s.thread tid with stores := rest } with notices := n }.storeAt (tid / 8) (s.reach (tid / 8) r.addr).1 r with
        pages := p } := by
  obtain ⟨n0, hn0⟩ := reach_notices h (tid / 8) r.addr
  obtain ⟨n, hn⟩ := reach_notices (s := s.setThread tid { s.thread tid with stores := rest }) h (tid / 8) r.addr
  unfold State.applyStore
  dsimp only
  rw [hs]
  dsimp only
  rw [hn, hn0]
  dsimp only
  refine ⟨n, ?_⟩
  split
  · exact countAccess_eq _ _ _ _ _ _
  · exact ⟨_, rfl⟩

section StoreAt

variable {s : State} {src a : Nat} {r : StoreReq}

theorem storeAt_mem (s : State) (src a : Nat) (r : StoreReq) : (s.storeAt src a r).mem = (s.homeWrite src a r.bytes).mem := by
  unfold State.storeAt
  split
  · exact (setTag_frame _ a).1
  · rfl

theorem storeAt_sameButStatus (h : isForeign a = false) : SameButStatus s (s.storeAt src a r) := by
  unfold State.storeAt
  split
  · exact (homeWrite_sameButStatus h).trans (sameButStatus_of_threads (setTag_frame _ a).2)
  · exact homeWrite_sameButStatus h

theorem storeAt_tags (h : isForeign a = false) (hb : r.bytes ≠ []) (g : Nat) :
    (s.storeAt src a r).tags.contains g =
      (s.tags.contains g && !(decide (16 * g < a + r.bytes.length) && decide (a < 16 * g + 16)) ||
        (r.tag && hasTags a && decide (g = a / 16))) := by
  unfold State.storeAt
  split
  case isTrue ht => rw [setTag_contains, homeWrite_tags h hb, ht, Bool.true_and]
  case isFalse ht => rw [homeWrite_tags h hb, Bool.eq_false_iff.2 ht, Bool.false_and, Bool.false_and, Bool.or_false]

end StoreAt

/-- Settles O29: the store leaves its queue, its home is written, and what the wakes and the counts of pages change besides is
neither memory nor a thread's registers. -/
theorem storeApplied : Obligations.StoreApplied := by
  intro s core ctx r rest tid addr len hctx hmoves hstores hlen haddr
  have hcore : tid / 8 = core := by
    change (core * 8 + ctx) / 8 = core
    omega
  have hhere : isForeign addr = false := by
    unfold isForeign foreignBase
    exact decide_eq_false (by omega)
  have hbytes : r.bytes ≠ [] := List.ne_nil_of_length_pos hlen
  obtain ⟨n, p, happly⟩ := applyStore_eq hmoves hstores
  rw [hcore] at happly
  let s0 : State := { s.setThread tid { s.thread tid with stores := rest } with notices := n }
  have hsame : SameButStatus s0 (s0.storeAt core addr r) := storeAt_sameButStatus hhere
  have htags := storeAt_tags (s := s0) (src := core) hhere hbytes
  have hself : s0.thread tid = { s.thread tid with stores := rest } := thread_setThread_self s tid _
  have hother : ∀ k, k ≠ tid → s0.thread k = s.thread k := fun k hk => thread_setThread_other s tid k _ hk
  refine ⟨s.applyStore tid, rfl, ?_⟩
  rw [happly]
  refine ⟨fun k hk => ?_, fun x hx => ?_, fun g hg => ?_, fun g hlo hhi ht => ?_, fun ht ha => ?_, ?_, ?_, fun k => ?_,
    fun k hk => ?_⟩
  · exact (congrArg (memByte · _) (storeAt_mem s0 core addr r)).trans (homeWrite_inside hhere hk)
  · exact (congrArg (memByte · x) (storeAt_mem s0 core addr r)).trans (homeWrite_outside s0 core addr x r.bytes hhere hx)
  · refine (htags g).trans ?_
    have hout : (decide (16 * g < addr + r.bytes.length) && decide (addr < 16 * g + 16)) = false := by
      rw [Bool.and_eq_false_iff, decide_eq_false_iff_not, decide_eq_false_iff_not]
      omega
    have hne : ¬g = addr / 16 := by omega
    rw [hout, decide_eq_false hne, Bool.not_false, Bool.and_true, Bool.and_false, Bool.or_false]
    rfl
  · refine (htags g).trans ?_
    have hin : (decide (16 * g < addr + r.bytes.length) && decide (addr < 16 * g + 16)) = true := by
      rw [Bool.and_eq_true, decide_eq_true_eq, decide_eq_true_eq]
      omega
    simp [hin, ht]
  · refine (htags _).trans ?_
    have hhas : hasTags addr = true := by
      unfold hasTags tierBase
      exact decide_eq_true ha
    simp [ht, hhas]
  · exact (hsame.stores tid).trans (congrArg Thread.stores hself)
  · exact (hsame.pend tid).trans (by rw [hself])
  · refine (hsame.unqueued k).trans ?_
    by_cases hk : k = tid
    · rw [hk, hself]
    · rw [hother k hk]
  · exact (hsame.stores k).trans (congrArg Thread.stores (hother k hk))

end Sys2Proof.Machine
end

section
/-!
SUPPORT. What a translation leaves (R237 to R241), and the states that differ in caches alone.
-/

namespace Sys2Proof.Machine

open Sys2Proof.Spec

/-! ## Caches -/

section Caches

variable {s t u : State}

theorem caches_refl (s : State) : Caches s s := ⟨rfl, fun _ _ => rfl⟩

theorem cur_of_caches (h : Caches s t) : t.cur = s.cur := by rw [h.1]
theorem mem_of_caches (h : Caches s t) : t.mem = s.mem := by rw [h.1]
theorem tags_of_caches (h : Caches s t) : t.tags = s.tags := by rw [h.1]

theorem caches_trans (h : Caches s t) (h' : Caches t u) : Caches s u := by
  refine ⟨h'.1.trans ?_, fun k hk => (h'.2 k (by rwa [cur_of_caches h])).trans (h.2 k hk)⟩
  conv_lhs => rw [h.1]

theorem caches_setTh (h : Caches s t) (x : Thread) : Caches s (t.setTh x) :=
  caches_trans h ⟨rfl, fun k hk => thread_setTh_other t k x hk⟩

end Caches

/-! ## A translation -/

/-- Two states differ in what a translation changes outside the threads: TLBs, notices, packets and free values. -/
def Translated (s t : State) : Prop := t = { s with tlb := t.tlb, notices := t.notices, fabric := t.fabric, frees := t.frees }

section Translated

variable {s t u : State}

theorem Translated.trans (h : Translated s t) (h' : Translated t u) : Translated s u := by
  refine Eq.trans h' ?_
  conv_lhs => rw [show t = _ from h]

theorem Translated.th (h : Translated s t) : t.th = s.th := by
  rw [show t = _ from h]
  rfl

theorem Translated.caches (h : Translated s t) : Caches s t := by
  refine ⟨?_, fun k _ => ?_⟩
  all_goals rw [show t = _ from h]
  rfl

theorem Translated.noMoves (h : Translated s t) (hm : NoMoves s) : NoMoves t := by
  rw [show t = _ from h]
  exact hm

end Translated

theorem walk_translated (s : State) (core obj page : Nat) : Translated s (s.walk core obj page).2 := by
  unfold State.walk
  dsimp only
  repeat' split
  all_goals rfl

theorem fill_translated (s : State) (core obj off need : Nat) : Translated s (s.fill core obj off need).2 := by
  have h := walk_translated s core obj (off / 65536)
  unfold State.fill
  split
  case h_1 e => rwa [e] at h
  case h_2 e => rwa [e] at h
  case h_3 l s' e =>
    rw [e] at h
    dsimp only
    split <;> exact h.trans rfl

theorem translate_translated (s : State) (core obj off need : Nat) : Translated s (s.translate core obj off need).2 := by
  unfold State.translate
  dsimp only
  split
  case h_1 => split <;> rfl
  case h_2 => split <;> rfl
  case h_3 => repeat' split
              all_goals rfl
  case h_4 => split <;> rfl
  case h_5 =>
    split
    · exact fill_translated s core obj off need
    · split
      · rfl
      · exact Translated.trans (t := s.setTlb core _) rfl (fill_translated _ core obj off need)

theorem reach_translated {s : State} (h : NoMoves s) (core a : Nat) : Translated s (s.reach core a).2 := by
  obtain ⟨n, hn⟩ := reach_notices h core a
  rw [hn]
  rfl

theorem ite_run {α : Type} (p : Prop) [Decidable p] (m m' : M α) (s : State) :
    (if p then m else m') s = if p then m s else m' s := by
  split <;> rfl

/-- The refusals at a home, and where the request leads. -/
def reachHome (w : Src) (plain : Bool) (c : Cap) (off n a : Nat) (e : TlbEntry) (s : State) : M (Nat × TlbEntry) :=
  if plain && s.farRefused c a then trap 0x06 (tvalCap w.src w.creg rG)
  else if s.withheld s.th.launchId (s.acc.win) (capObj c) a n then trap 0x06 (tvalCap w.src w.creg rG)
  else if s.portDown a then trap 0x0F (tvalCap w.src w.creg off)
  else do
    let a ← runS fun s => s.reach s.cur.core a
    return (a, e)

theorem reachHome_ok {w : Src} {plain : Bool} {c : Cap} {off n a addr : Nat} {e e' : TlbEntry} {s s0 s1 : State}
    (h : reachHome w plain c off n a e' s s0 = .ok (addr, e) s1) : e' = e ∧ s0.reach s0.cur.core a = (addr, s1) := by
  unfold reachHome at h
  rw [ite_run, ite_run, ite_run] at h
  split at h
  · cases h
  split at h
  · cases h
  split at h
  · cases h
  · cases h
    exact ⟨rfl, rfl⟩

/-- The thread that a translation to an entry leaves: a run of bundles starts again at the second tier (R243). -/
def State.enterTier (s : State) (e : TlbEntry) : State := if e.loc = 2 then s.setTh { s.th with bundles := 0 } else s

/-- A translation that succeeds is that of a home, and the address is where the request for that home leads. -/
theorem locate_home {s s1 : State} {w : Src} {plain : Bool} {c : Cap} {off n perm addr : Nat} {e : TlbEntry}
    (h : locate w plain c off n perm s = .ok (addr, e) s1) :
    ∃ a s0, s.translate s.cur.core (capObj c) off perm = (.home a e, s0) ∧
      (s0.enterTier e).reach (s0.enterTier e).cur.core a = (addr, s1) := by
  unfold locate at h
  dsimp only at h
  rw [bind_ok (runS_run _ s)] at h
  generalize s.translate s.cur.core (capObj c) off perm = x at h ⊢
  obtain ⟨r, s0⟩ := x
  cases r with
  | bad => cases h
  | absent =>
    change meetAbsent w (capObj c) off perm s0 = _ at h
    rw [meetAbsent, bind_ok (getTh_run s0), ite_run] at h
    split at h <;> cases h
  | noPerm lack a => cases h
  | home a e' =>
    refine ⟨a, s0, ?_⟩
    change ((get : M State) >>= _) s0 = _ at h
    rw [bind_ok (get_run s0), ite_run] at h
    split at h
    · cases h
    · rw [ite_run] at h
      unfold State.enterTier
      split at h
      case isTrue h2 =>
        rw [bind_ok (modTh_run _ s0)] at h
        obtain ⟨rfl, hr⟩ := reachHome_ok h
        exact ⟨rfl, by rwa [if_pos h2]⟩
      case isFalse h2 => 
        obtain ⟨rfl, hr⟩ := reachHome_ok h
        exact ⟨rfl, by rwa [if_neg h2]⟩

/-- A translation that succeeds with no page in a move leaves the thread but for its run of bundles, and else only caches. -/
theorem locate_caches {s s1 : State} {w : Src} {plain : Bool} {c : Cap} {off n perm addr : Nat} {e : TlbEntry} (hm : NoMoves s)
    (h : locate w plain c off n perm s = .ok (addr, e) s1) :
    Caches s s1 ∧ s1.th = { s.th with bundles := s1.th.bundles } := by
  obtain ⟨a, s0, ht, hr⟩ := locate_home h
  have h0 : Translated s s0 := by
    have := translate_translated s s.cur.core (capObj c) off perm
    rwa [ht] at this
  have h1 : Caches s (s0.enterTier e) ∧ NoMoves (s0.enterTier e) ∧
      (s0.enterTier e).th = { s.th with bundles := (s0.enterTier e).th.bundles } := by
    unfold State.enterTier
    split
    · exact ⟨caches_setTh h0.caches _, h0.noMoves hm, by rw [th_setTh, h0.th]⟩
    · exact ⟨h0.caches, h0.noMoves hm, by rw [h0.th]⟩
  obtain ⟨hc, hn, hth⟩ := h1
  have h2 : Translated (s0.enterTier e) s1 := by
    have := reach_translated hn (s0.enterTier e).cur.core a
    rwa [hr] at this
  exact ⟨caches_trans hc h2.caches, by rw [h2.th]; exact hth⟩

end Sys2Proof.Machine
end

section
/-!
SUPPORT. The bytes of words and capabilities (R13, R83), the accesses that succeed (R104, R105, R125), and the loads and stores of one
thread.
-/

namespace Sys2Proof.Machine

open Sys2Proof.Spec

/-! ## Bytes of a number -/

theorem leNat_lt (bs : List Byte) : leNat bs < 256 ^ bs.length := by
  induction bs with
  | nil => exact Nat.one_pos
  | cons b t ih =>
    have hb := b.isLt
    rw [leNat, List.length_cons, Nat.pow_succ]
    omega

/-- Byte k of the number that bytes hold. -/
theorem leNat_byte (bs : List Byte) {k : Nat} (hk : k < bs.length) : leNat bs / 256 ^ k % 256 = bs[k].toNat := by
  induction bs generalizing k with
  | nil => exact absurd hk (Nat.not_lt_zero k)
  | cons b t ih =>
    have hb := b.isLt
    cases k with
    | zero =>
      rw [leNat, Nat.pow_zero, Nat.div_one, List.getElem_cons_zero]
      omega
    | succ k =>
      have h : (b.toNat + 256 * leNat t) / 256 = leNat t := by omega
      rw [leNat, Nat.pow_succ', ← Nat.div_div_eq_div_mul, h, List.getElem_cons_succ]
      exact ih (by simpa using hk)

theorem getElem?_leBytes (n v : Nat) {k : Nat} (hk : k < n) : (leBytes n v)[k]? = some (BitVec.ofNat 8 (v / 256 ^ k)) := by
  induction n generalizing v k with
  | zero => exact absurd hk (Nat.not_lt_zero k)
  | succ n ih =>
    cases k with
    | zero => rw [leBytes, List.getElem?_cons_zero, Nat.pow_zero, Nat.div_one]
    | succ k => rw [leBytes, List.getElem?_cons_succ, ih _ (by omega), Nat.div_div_eq_div_mul, Nat.pow_succ']

theorem byteOf_eq (v : Word) (k : Nat) : byteOf v k = BitVec.ofNat 8 (v.toNat / 256 ^ k) := by
  apply BitVec.eq_of_toNat_eq
  rw [byteOf, BitVec.toNat_setWidth, BitVec.toNat_ushiftRight, BitVec.toNat_ofNat, Nat.shiftRight_eq_div_pow, Nat.pow_mul]

/-- The low n bytes of a word are its bytes from 0 upward. -/
theorem leBytes_eq_byteOf (n : Nat) (v : Word) : leBytes n v.toNat = (List.range n).map (byteOf v) := by
  refine List.ext_getElem? fun k => ?_
  by_cases hk : k < n
  · rw [getElem?_leBytes n _ hk, List.getElem?_map, List.getElem?_range hk, Option.map_some, byteOf_eq]
  · rw [List.getElem?_eq_none (by simp; omega), List.getElem?_eq_none (by simp; omega)]

theorem toNat_wordLe {b : List Byte} (h : b.length ≤ 8) : (wordLe b).toNat = leNat b := by
  have hlt := leNat_lt b
  have hle : 256 ^ b.length ≤ 256 ^ 8 := Nat.pow_le_pow_right (by decide) h
  rw [wordLe, BitVec.toNat_ofNat, Nat.mod_eq_of_lt (by omega)]

/-- Byte k of the word that bytes hold. -/
theorem byteOf_wordLe {b : List Byte} (h : b.length ≤ 8) {k : Nat} {x : Byte} (hk : b[k]? = some x) : byteOf (wordLe b) k = x := by
  obtain ⟨hlt, rfl⟩ := List.getElem?_eq_some_iff.1 hk
  apply BitVec.eq_of_toNat_eq
  rw [byteOf_eq, toNat_wordLe h, BitVec.toNat_ofNat]
  exact leNat_byte b hlt

/-- The bytes of a capability loaded from memory are those that lay there. -/
theorem capBytes_capFrom {b : List Byte} (h : b.length = 16) (tag : Bool) : capBytes (capFrom b tag) = b := by
  have hw : ∀ l : List Byte, l.length = 8 → leBytes 8 (wordLe l).toNat = l := by
    intro l hl
    rw [leBytes_eq_byteOf]
    refine List.ext_getElem? fun k => ?_
    by_cases hk : k < 8
    · have hlk : l[k]? = some (l[k]'(by omega)) := List.getElem?_eq_getElem _
      rw [List.getElem?_map, List.getElem?_range hk, Option.map_some, byteOf_wordLe (by omega) hlk, hlk]
    · rw [List.getElem?_eq_none (by simp; omega), List.getElem?_eq_none (by omega)]
  rw [capBytes, capFrom, hw _ (by simp [h]), hw _ (by simp [h]), List.take_append_drop]

/-! ## Bytes at a home, as the thread's own queued stores leave them (R125) -/

theorem getElem?_overlay (l : List StoreReq) (a : Nat) (bs : List Byte) (k : Nat) :
    (overlay l a bs)[k]? = (bs[k]?).map fun b => (ownByte l (a + k)).getD b := by
  induction bs generalizing a k with
  | nil => rfl
  | cons b t ih =>
    cases k with
    | zero => rfl
    | succ k => rw [overlay, List.getElem?_cons_succ, List.getElem?_cons_succ, ih, show a + 1 + k = a + (k + 1) by omega]

@[simp] theorem length_overlay (l : List StoreReq) (a : Nat) (bs : List Byte) : (overlay l a bs).length = bs.length := by
  induction bs generalizing a with
  | nil => rfl
  | cons b t ih => rw [overlay, List.length_cons, List.length_cons, ih]

/-- What the executing thread reads at a home of this module. -/
def State.homeView (s : State) (a n : Nat) : List Byte := overlay s.th.stores a (memBytes s.mem a n)

@[simp] theorem length_homeView (s : State) (a n : Nat) : (s.homeView a n).length = n := by
  rw [State.homeView, length_overlay, length_memBytes]

theorem getElem?_homeView (s : State) (a n : Nat) {k : Nat} (hk : k < n) :
    (s.homeView a n)[k]? = some ((ownByte s.th.stores (a + k)).getD (memByte s.mem (a + k))) := by
  rw [State.homeView, getElem?_overlay, getElem?_memBytes _ _ _ _ hk, Option.map_some]

/-- Bytes that are not poisoned at their home are not poisoned past the thread's own queued stores. -/
theorem poisonedPast_of_not_poisoned {s : State} {a n : Nat} (h : s.poisoned a n = false) (own : List StoreReq) :
    s.poisonedPast own a n = false := by
  rw [State.poisoned, Bool.or_eq_false_iff, Bool.or_eq_false_iff, List.any_eq_false, List.any_eq_false] at h
  obtain ⟨⟨hdown, hline⟩, hbuf⟩ := h
  rw [State.poisonedPast, hdown, Bool.false_or, Bool.or_eq_false_iff, List.any_eq_false, List.any_eq_false]
  refine ⟨fun g hg hp => hline g hg ?_, fun g hg hp => hbuf g hg ?_⟩
  all_goals exact (Bool.and_eq_true_iff.1 hp).1

/-! ## Accesses that succeed -/

section Access

variable {s s1 : State} {w : Src} {plain : Bool} {c : Cap} {ea : Int} {n need perm align off addr : Nat} {e : TlbEntry}

theorem countLoad_caches (s : State) (off a : Nat) (e : TlbEntry) :
    Caches s (s.countLoad off a e) ∧ (s.countLoad off a e).th = s.th := by
  unfold State.countLoad
  split
  · obtain ⟨p, hp⟩ := countAccess_eq s s.cur.core (frameOf a) e.obj (off / 65536) e.perm
    rw [hp]
    exact ⟨⟨rfl, fun _ _ => rfl⟩, rfl⟩
  · exact ⟨caches_refl s, rfl⟩

/-- A load at a home of this module that is not poisoned reads what the thread sees there. -/
theorem readHome_view (w : Src) (off : Nat) (e : TlbEntry) (hf : isForeign addr = false) (hp : s.poisoned addr n = false) :
    readHome w off addr n e s = .ok (s.homeView addr n) (s.countLoad off addr e) := by
  unfold readHome
  rw [bind_ok (get_run s)]
  simp only [poisonedPast_of_not_poisoned hp, if_false, Bool.false_eq_true]
  rw [bind_ok (runS_run _ s)]
  simp only [State.homeRead, hf, if_false, Bool.false_eq_true]
  rfl

theorem homeView_of_locate (hm : NoMoves s) (hl : locate w plain c off n perm s = .ok (addr, e) s1) (k : Nat) :
    s1.homeView addr k = s.homeView addr k := by
  obtain ⟨hc, hth⟩ := locate_caches hm hl
  rw [State.homeView, State.homeView, mem_of_caches hc, hth]

/-- A load through a capability that passes its checks. -/
theorem loadBytes_ok (hm : NoMoves s) (hck : capCheck c need ea n align = none)
    (hl : locate w true c ea.toNat n rR s = .ok (addr, e) s1) (hf : isForeign addr = false) (hp : s1.poisoned addr n = false) :
    loadBytes w c need ea n align s = .ok (s.homeView addr n) (s1.countLoad ea.toNat addr e) := by
  rw [← homeView_of_locate hm hl]
  exact (bind_ok (checkCap_ok w c need ea n align s hck)).trans ((bind_ok hl).trans (readHome_view w _ e hf hp))

/-- The capability that the thread sees at a home of this module. -/
def State.capView (s : State) (a : Nat) : Cap := capFrom (s.homeView a 16) (ownTag s.th.stores a (s.tags.contains (a / 16)))

theorem loadCap_ok (hm : NoMoves s) (hck : capCheck c need ea 16 16 = none)
    (hl : locate w plain c ea.toNat 16 rR s = .ok (addr, e) s1) (hf : isForeign addr = false) (hp : s1.poisoned addr 16 = false) :
    loadCap w plain c need ea s = .ok (s.capView addr) (s1.countLoad ea.toNat addr e) := by
  obtain ⟨hc, hth⟩ := locate_caches hm hl
  obtain ⟨hc2, hth2⟩ := countLoad_caches s1 ea.toNat addr e
  refine (bind_ok (checkCap_ok w c need ea 16 16 s hck)).trans ((bind_ok hl).trans ((bind_ok (readHome_view w _ e hf hp)).trans ?_))
  refine (bind_ok (runS_run _ _)).trans ?_
  rw [homeTag_here _ _ hf, State.tagAt, tags_of_caches hc2, tags_of_caches hc]
  refine (bind_ok (get_run _)).trans ?_
  rw [hth2, State.capView, ← homeView_of_locate hm hl, show s.th.stores = s1.th.stores by rw [hth]]
  rfl

/-- A store through a capability that passes its checks is issued. -/
theorem storeBytes_ok {bs : List Byte} {tag : Bool} (hck : capCheck c need ea bs.length align = none)
    (hl : locate w true c ea.toNat bs.length rW s = .ok (addr, e) s1) :
    ∃ r : StoreReq, r.addr = addr ∧ r.bytes = bs ∧ r.tag = tag ∧
      storeBytes w c need ea bs align tag s = .ok () (s1.setTh { s1.th with stores := s1.th.stores ++ [r] }) :=
  ⟨_, rfl, rfl, rfl, (bind_ok (checkCap_ok w c need ea bs.length align s hck)).trans ((bind_ok hl).trans (issueStore_run _ _ _ _ _ _))⟩

end Access

/-! ## The bundle goes on -/

section Complete

variable {i : Instr} {s s1 s2 : State}

/-- A precise result leaves what going on reads. -/
theorem now_flow (t : Thread) (w : RegWrite) :
    (t.now w).nt = t.nt ∧ (t.now w).bundles = t.bundles ∧ (t.now w).pcc = t.pcc ∧ (t.now w).lpst = t.lpst ∧
      (t.now w).lpsa = t.lpsa ∧ (t.now w).run = t.run := by
  unfold Thread.now
  split
  · exact ⟨rfl, rfl, rfl, rfl, rfl, rfl⟩
  · cases w <;> exact ⟨rfl, rfl, rfl, rfl, rfl, rfl⟩

theorem goes_step_now (c : Cur) (t : Thread) (w : RegWrite) : Goes c t ((t.now w).step c) := by
  obtain ⟨hnt, hbundles, hpcc, hlpst, hlpsa, hrun⟩ := now_flow t w
  have h := goes_step c (t.now w)
  unfold Goes Thread.pc at h ⊢
  rwa [hnt, hbundles, hpcc, hlpst, hlpsa, hrun] at h

theorem loads_of_ok {w : RegWrite} (h : exec i s = .next ((s2.setTh (s2.th.now w)).setTh ((s2.th.now w).step s2.cur)))
    (hc : Caches s s2) (hth : s2.th = s1.th) : Loads i s s1 w := by
  refine ⟨_, h, caches_setTh (caches_setTh hc _) _, ?_⟩
  rw [th_setTh, hth, cur_of_caches hc]
  exact ⟨goes_step_now _ _ _, rest_step _ _, step_pend _ _⟩

theorem stores_of_ok {r : StoreReq} {addr : Nat} {bytes : List Byte} {tag : Bool} (hm : s1.th = { s.th with bundles := s1.th.bundles })
    (hc : Caches s s1) (ha : r.addr = addr) (hb : r.bytes = bytes) (ht : r.tag = tag)
    (h : let x : Thread := { s1.th with stores := s1.th.stores ++ [r] }
      exec i s = .next ((s1.setTh x).setTh (x.step s1.cur))) : Stores i s s1 addr bytes tag := by
  refine ⟨_, r, h, caches_setTh (caches_setTh hc _) _, ?_, ?_, ?_, ha, hb, ht⟩
  all_goals rw [th_setTh]
  · rw [← cur_of_caches hc]
    exact goes_step _ _
  · rw [show s.th.stores = s1.th.stores by rw [hm]]
    exact rest_step _ _
  · rw [step_pend, hm]

end Complete

/-! ## The loads and stores of one thread (R104, R105) -/

theorem accSize_le (sz : Option Size) (c : Cap) : accSize sz c ≤ 8 := by
  cases sz with
  | some z =>
    change sizeBytes z ≤ 8
    cases z <;> decide
  | none =>
    change fmtSize (capFmt c) ≤ 8
    unfold fmtSize
    split <;> decide

section Settle

variable {s s1 : State} {sz : Option Size} {a : MemOp} {addr : Nat} {e : TlbEntry}

theorem loadWord_ok (hm : NoMoves s)
    (hck : capCheck (s.th.rc a.base) rR (effective s.th a) (accSize sz (s.th.rc a.base)) (accSize sz (s.th.rc a.base)) = none)
    (hl : locate (creg a.base) true (s.th.rc a.base) (effective s.th a).toNat (accSize sz (s.th.rc a.base)) rR s = .ok (addr, e) s1)
    (hf : isForeign addr = false) (hp : s1.poisoned addr (accSize sz (s.th.rc a.base)) = false) :
    loadWord sz a s = .ok (wordLe (s.homeView addr (accSize sz (s.th.rc a.base)))) (s1.countLoad (effective s.th a).toNat addr e) := by
  rw [← memOff_eq_effective] at hck hl ⊢
  exact (bind_ok (getTh_run s)).trans (bind_ok (loadBytes_ok hm hck hl hf hp))

theorem storeWord_ok (r : GReg)
    (hck : capCheck (s.th.rc a.base) rW (effective s.th a) (accSize sz (s.th.rc a.base)) (accSize sz (s.th.rc a.base)) = none)
    (hl : locate (creg a.base) true (s.th.rc a.base) (effective s.th a).toNat (accSize sz (s.th.rc a.base)) rW s = .ok (addr, e) s1) :
    ∃ x : StoreReq, x.addr = addr ∧ x.bytes = (List.range (accSize sz (s.th.rc a.base))).map (byteOf (s.th.rg r)) ∧ x.tag = false ∧
      storeWord sz r a s = .ok () (s1.setTh { s1.th with stores := s1.th.stores ++ [x] }) := by
  rw [← memOff_eq_effective] at hck hl
  rw [← leBytes_eq_byteOf]
  obtain ⟨x, ha, hb, ht, hx⟩ := storeBytes_ok (align := accSize sz (s.th.rc a.base)) (tag := false)
    (bs := leBytes (accSize sz (s.th.rc a.base)) (s.th.rg r).toNat) (by rwa [length_leBytes]) (by rwa [length_leBytes])
  exact ⟨x, ha, hb, ht, (bind_ok (getTh_run s)).trans hx⟩

end Settle

theorem loadsComplete : LoadsComplete := by
  intro s s1 sz sc d a addr e c n ea hm hck hl hf hp
  have hload := loadWord_ok hm hck hl hf hp
  obtain ⟨hc, -⟩ := locate_caches hm hl
  obtain ⟨hc2, hth2⟩ := countLoad_caches s1 ea.toNat addr e
  have hlen : (s.homeView addr n).length ≤ 8 := (length_homeView s addr n).trans_le (accSize_le sz c)
  refine ⟨wordLe (s.homeView addr n), ?_, fun k hk => byteOf_wordLe hlen (getElem?_homeView s addr n hk), ?_, ?_⟩
  · rw [toNat_wordLe hlen, Nat.pow_mul]
    have h := leNat_lt (s.homeView addr n)
    rwa [length_homeView] at h
  all_goals
    refine loads_of_ok ?_ (caches_trans hc hc2) hth2
    refine (run_ok ((bind_ok hload).trans ((bind_ok (writeNow_run _ _)).trans (advance_run _)))).trans ?_
    rw [th_setTh, setTh_cur]

/-- The two words of a capability in memory. -/
theorem capFrom_byteOf {b : List Byte} (h : b.length = 16) (tag : Bool) {k : Nat} (hk : k < 8) {x y : Byte} (hx : b[k]? = some x)
    (hy : b[8 + k]? = some y) : byteOf (capFrom b tag).w0 k = x ∧ byteOf (capFrom b tag).w1 k = y := by
  refine ⟨byteOf_wordLe (by simp [h]) ?_, byteOf_wordLe (by simp [h]) ?_⟩
  · rw [List.getElem?_take_of_lt hk, hx]
  · rw [List.getElem?_drop, hy]

theorem capabilityLoadCompletes : CapabilityLoadCompletes := by
  intro s s1 d a addr e c ea hm hck hl hf hp
  obtain ⟨hc, -⟩ := locate_caches hm hl
  obtain ⟨hc2, hth2⟩ := countLoad_caches s1 ea.toNat addr e
  have hload : loadCap (creg a.base) true c (rR + rC) (memOff s.th a) s = .ok (s.capView addr) (s1.countLoad ea.toNat addr e) := by
    rw [memOff_eq_effective]
    exact loadCap_ok hm hck hl hf hp
  have hbytes : ∀ k, k < 8 → byteOf (s.capView addr).w0 k = _ ∧ byteOf (s.capView addr).w1 k = _ := fun k hk =>
    capFrom_byteOf (length_homeView s addr 16) _ hk (getElem?_homeView s addr 16 (by omega)) (getElem?_homeView s addr 16 (by omega))
  refine ⟨s.capView addr, fun k hk => (hbytes k hk).1, fun k hk => ?_, rfl, loads_of_ok ?_ (caches_trans hc hc2) hth2⟩
  · rw [(hbytes k hk).2, Nat.add_assoc]
  · refine (run_ok ((bind_ok (getTh_run s)).trans ((bind_ok hload).trans ((bind_ok (writeNow_run _ _)).trans (advance_run _))))).trans ?_
    rw [th_setTh, setTh_cur]

theorem storesComplete : StoresComplete := by
  intro s s1 sz sc r d a addr e c n ea hm
  refine ⟨fun hck hl => ?_, fun hck hl => ?_⟩
  · obtain ⟨hc, hth⟩ := locate_caches hm hl
    obtain ⟨x, ha, hb, ht, hx⟩ := storeWord_ok r hck hl
    constructor
    all_goals
      refine stores_of_ok hth hc ha hb ht ?_
      refine (run_ok ((bind_ok hx).trans (advance_run _))).trans ?_
      rw [th_setTh, setTh_cur]
  · obtain ⟨hc, hth⟩ := locate_caches hm hl
    have hlen : (capBytes (s.th.rc d)).length = 16 := by rw [capBytes, List.length_append, length_leBytes, length_leBytes]
    obtain ⟨x, ha, hb, ht, hx⟩ :=
      storeBytes_ok (tag := (s.th.rc d).tag) (align := 16) (by rw [hlen]; exact hck) (by rw [hlen]; exact hl)
    rw [capBytes, leBytes_eq_byteOf, leBytes_eq_byteOf] at hb
    refine stores_of_ok hth hc ha hb ht ?_
    rw [show ea = memOff s.th a from (memOff_eq_effective s.th a).symm] at hx
    refine (run_ok ((bind_ok (getTh_run s)).trans ((bind_ok hx).trans (advance_run _)))).trans ?_
    rw [th_setTh, setTh_cur]

/-- Settles O28: each access succeeds through its checks and its translation, and the thread sees its own queued stores over memory. -/
theorem loadsAndStores : Obligations.LoadsAndStores := ⟨loadsComplete, capabilityLoadCompletes, storesComplete⟩

end Sys2Proof.Machine
end

section
/-!
PROOFS. Branches, jumps, calls, returns and jump tables (R112 to R117).
-/

namespace Sys2Proof.Machine

open Sys2Proof.Spec

/-! ## A bundle that transfers control -/

theorem loopLeave_getLsbD (l : Word) (i : Nat) :
    (loopLeave l).getLsbD i = if i = 63 then l.getLsbD 63 && l.getLsbD 61 else l.getLsbD i := by
  unfold loopLeave bitW
  split
  case isTrue h =>
    obtain ⟨hact, hhold⟩ := Bool.and_eq_true_iff.1 h
    rw [putField_getLsbD (le_refl 63) (by decide), hact, Bool.not_eq_eq_eq_not.1 hhold]
    by_cases hi : i = 63
    · rw [if_pos (by omega), if_pos hi, Nat.zero_testBit]
      rfl
    · rw [if_neg (by omega), if_neg hi]
  case isFalse h =>
    by_cases hi : i = 63
    · rw [if_pos hi, hi]
      revert h
      cases l.getLsbD 63 <;> cases l.getLsbD 61 <;> decide
    · rw [if_neg hi]

theorem lands_goto (c : Cur) (t : Thread) (pcc : Cap) : Lands c t (t.goto c pcc) pcc :=
  ⟨rfl, rfl, rfl, rfl, rfl, rfl, loopLeave_getLsbD t.lpst⟩

theorem rest_goto (c : Cur) (t : Thread) (pcc : Cap) : Rest t (t.goto c pcc) := rfl

theorem jumpsTo_of_goto {i : Instr} {s : State} {pcc : Cap} (h : exec i s = .next (s.setTh (s.th.goto s.cur pcc))) :
    JumpsTo i s pcc := by
  refine ⟨_, h, only_setTh _ _, ?_⟩
  rw [th_setTh]
  exact ⟨rest_goto _ _ _, goto_pend _ _ _, lands_goto _ _ _⟩

theorem run_congr {b b' : M Unit} {s s' : State} (h : b s = b' s') : run b s = run b' s' := by
  unfold run
  rw [h]

/-! ## B and BC (R112) -/

section Branch

variable {s : State} {t : Int}

theorem outside_iff (c : Cap) (t : Int) : outside c t = true ↔ t < capBase c ∨ capTop c ≤ t := by
  simp [outside]

theorem branchTo_ok (h : ¬(t < capBase s.th.pcc ∨ capTop s.th.pcc ≤ t)) :
    branchTo t s = .ok (capSetOff s.th.pcc t.toNat) s := by
  rw [← outside_iff, Bool.not_eq_true] at h
  rw [branchTo, bind_ok (getTh_run s), h]
  rfl

theorem branchTo_trap (h : t < capBase s.th.pcc ∨ capTop s.th.pcc ≤ t) :
    branchTo t s = .error (.trap 0x05 (BitVec.ofNat 64 (t % 2 ^ 56).toNat)) s := by
  rw [← outside_iff] at h
  have htv : tvalCap 0 0 (t % 2 ^ 56).toNat = BitVec.ofNat 64 (t % 2 ^ 56).toNat := by
    have hlt : (t % 2 ^ 56).toNat < 2 ^ 56 := by omega
    unfold tvalCap
    generalize (t % 2 ^ 56).toNat = o at hlt ⊢
    rw [Nat.mod_eq_of_lt hlt]
    simp
  rw [branchTo, bind_ok (getTh_run s), h, ← htv]
  rfl

end Branch

theorem branchesComplete : BranchesComplete := by
  intro s p inv off pcc tgt out taken
  refine ⟨fun h => jumpsTo_of_goto ?_, fun h => ?_, fun ht h => jumpsTo_of_goto ?_, fun ht h => ?_, fun ht => ?_⟩
  · exact run_ok ((bind_ok (getTh_run s)).trans ((bind_ok (branchTo_ok h)).trans (jump_run _ s)))
  · exact run_error ((bind_ok (getTh_run s)).trans (bind_error (branchTo_trap h)))
  · refine run_ok ((bind_ok (getTh_run s)).trans ?_)
    rw [ite_run, if_pos ht]
    exact (bind_ok (branchTo_ok h)).trans (jump_run _ s)
  · refine run_error ((bind_ok (getTh_run s)).trans ?_)
    rw [ite_run, if_pos ht]
    exact bind_error (branchTo_trap h)
  · have hrun : exec (.bc p inv off) s = .next (s.setTh (s.th.step s.cur)) := by
      refine run_ok ((bind_ok (getTh_run s)).trans ?_)
      rw [ite_run, if_neg (Bool.eq_false_iff.1 ht)]
      exact advance_run s
    refine ⟨_, hrun, only_setTh _ _, ?_⟩
    rw [th_setTh]
    exact ⟨goes_step _ _, rest_step _ _, (step_pend _ _).trans (List.append_nil _).symm⟩

/-! ## The push of a return address (R115 to R117) -/

/-- The address of the next bundle, as a call pushes it. -/
def State.returnEntry (s : State) : Cap := capSetOff s.th.pcc (s.th.pc + 2 * s.cur.words)

section Push

variable {s s1 : State} {oldest : Cap} {rest : List Cap}

theorem pushReturn_joins (h : s.th.ras.length < 16) :
    pushReturn s = .ok () (s.setTh { s.th with ras := s.th.ras ++ [s.returnEntry] }) := by
  unfold pushReturn
  rw [bind_ok (get_run s)]
  cases hras : s.th.ras with
  | nil => rfl
  | cons oldest rest =>
    rw [hras] at h
    change (if (oldest :: rest).length ≥ 16 then _ else _ : M Unit) s = _
    rw [ite_run, if_neg (by omega), modTh_run, hras]
    rfl

/-- The push at sixteen entries, once the oldest is stored. -/
theorem pushReturn_spills (hras : s.th.ras = oldest :: rest) (hlen : rest.length = 15) :
    pushReturn s = (spillOldest oldest >>= fun _ => modTh fun t => { t with ras := rest ++ [s.returnEntry] }) s := by
  unfold pushReturn
  rw [bind_ok (get_run s), hras]
  change (if (oldest :: rest).length ≥ 16 then _ else _ : M Unit) s = _
  rw [ite_run, if_pos (by rw [List.length_cons, hlen])]
  rfl

/-- The request of a store that a thread issues. -/
def Thread.request (t : Thread) (a : Nat) (bs : List Byte) (tag : Bool) (e : TlbEntry) (page : Nat) : StoreReq :=
  { addr := a, bytes := bs, tag := tag, firing := (t.firing.map (·.id)).getD 0, obj := e.obj, page := page, mig := e.counts a,
    perm := e.perm }

theorem issueStore_request (a : Nat) (bs : List Byte) (tag : Bool) (e : TlbEntry) (page : Nat) (s : State) :
    issueStore a bs tag e page s =
      .ok () (s.setTh { s.th with stores := s.th.stores ++ [s.th.request a bs tag e page] }) := rfl

/-- The oldest entry is stored in the return area while that has room. -/
theorem spillOldest_area (h : s.th.area < s.returnCap) :
    ∃ st : StoreReq, st.addr = (s.returnSlot s.th.area).1 ∧ st.bytes = capBytes oldest ∧ st.tag = oldest.tag ∧
      spillOldest oldest s =
        .ok () (s.setTh { s.th with stores := s.th.stores ++ [st], area := s.th.area + 1 }) := by
  refine ⟨s.th.request (s.returnSlot s.th.area).1 (capBytes oldest) oldest.tag (sliceEntry 0 0 0 0 0) 0, rfl, rfl, rfl, ?_⟩
  unfold spillOldest
  rw [bind_ok (get_run s), ite_run, if_pos h]
  refine (bind_ok (issueStore_request _ _ _ _ _ s)).trans ?_
  rw [modTh_run, th_setTh, setTh_setTh]
  rfl

/-- Where a spill through SPOV goes. -/
def Thread.overSlot (t : Thread) : Int := (capOff t.spov : Int) + 16 * t.ovr

theorem spillOldest_full (harea : s.returnCap ≤ s.th.area) (hover : 2 ^ 24 ≤ s.th.ovr + 1) :
    spillOldest oldest s = .error (.trap 0x05 (tvalCap 3 0 (s.th.overSlot % 2 ^ 56).toNat)) s := by
  unfold spillOldest
  rw [bind_ok (get_run s), ite_run, if_neg (by omega), ite_run, if_pos (by omega)]
  rfl

/-- The spill through SPOV: its check, its translation, and the store. -/
theorem spillOldest_over (harea : s.returnCap ≤ s.th.area) (hover : s.th.ovr + 1 < 2 ^ 24) :
    spillOldest oldest s =
      (checkCap ⟨3, 0⟩ s.th.spov (rW + rS) s.th.overSlot 16 16 >>= fun _ =>
        locate ⟨3, 0⟩ false s.th.spov s.th.overSlot.toNat 16 rW >>= fun x =>
          issueStore x.1 (capBytes oldest) oldest.tag x.2 (s.th.overSlot.toNat / 65536) >>= fun _ =>
            modTh fun t => { t with ovr := t.ovr + 1, kept := smDel t.kept t.ovr }) s := by
  unfold spillOldest
  rw [bind_ok (get_run s), ite_run, if_neg (by omega), ite_run, if_neg (by omega)]
  rfl

theorem spillOldest_refused {cause offs : Nat} (harea : s.returnCap ≤ s.th.area) (hover : s.th.ovr + 1 < 2 ^ 24)
    (hck : capCheck s.th.spov (rW + rS) s.th.overSlot 16 16 = some (cause, offs)) :
    spillOldest oldest s = .error (.trap cause (tvalCap 3 0 offs)) s := by
  rw [spillOldest_over harea hover]
  exact bind_error (checkCap_trap ⟨3, 0⟩ _ _ _ _ _ s _ _ hck)

theorem spillOldest_stored {addr : Nat} {e : TlbEntry} (harea : s.returnCap ≤ s.th.area) (hover : s.th.ovr + 1 < 2 ^ 24)
    (hck : capCheck s.th.spov (rW + rS) s.th.overSlot 16 16 = none)
    (hl : locate ⟨3, 0⟩ false s.th.spov s.th.overSlot.toNat 16 rW s = .ok (addr, e) s1) :
    ∃ st : StoreReq, st.addr = addr ∧ st.bytes = capBytes oldest ∧ st.tag = oldest.tag ∧
      spillOldest oldest s =
        .ok () (s1.setTh { s1.th with
          stores := s1.th.stores ++ [st], ovr := s1.th.ovr + 1, kept := smDel s1.th.kept s1.th.ovr }) := by
  rw [spillOldest_over harea hover]
  refine ⟨s1.th.request addr (capBytes oldest) oldest.tag e (s.th.overSlot.toNat / 65536), rfl, rfl, rfl, ?_⟩
  refine (bind_ok (checkCap_ok ⟨3, 0⟩ _ _ _ _ _ s hck)).trans ((bind_ok hl).trans ?_)
  refine (bind_ok (issueStore_request _ _ _ _ _ s1)).trans ?_
  rw [modTh_run, th_setTh, setTh_setTh]

end Push

/-- A jump that pushes the address of the next bundle. -/
theorem calls_of_push {i : Instr} {s : State} {pcc : Cap} (h : exec i s = run (pushReturn >>= fun _ => jump pcc) s) :
    Calls i s pcc := by
  refine ⟨fun hlen => ?_, fun oldest rest hras hlen harea => ?_, fun oldest rest hras hlen harea =>
    ⟨fun hover => ?_, fun hover cause offs hck => ?_, fun hover hck hm addr e s1 hl => ?_⟩⟩
  · refine ⟨_, h.trans (run_ok ((bind_ok (pushReturn_joins hlen)).trans (jump_run pcc _))), ?_⟩
    rw [th_setTh, setTh_setTh]
    exact ⟨only_setTh _ _, by rw [th_setTh]; rfl, by rw [th_setTh]; rfl, by rw [th_setTh]; exact lands_goto _ _ _⟩
  · obtain ⟨st, ha, hb, ht, hst⟩ := spillOldest_area (oldest := oldest) harea
    refine ⟨_, st, h.trans (run_ok ((bind_ok ((pushReturn_spills hras hlen).trans ((bind_ok hst).trans (modTh_run _ _)))).trans
      (jump_run pcc _))), ?_⟩
    rw [th_setTh, th_setTh, setTh_setTh, setTh_setTh]
    exact ⟨only_setTh _ _, by rw [th_setTh]; rfl, by rw [th_setTh]; rfl, by rw [th_setTh]; exact lands_goto _ _ _, ha, hb, ht⟩
  · exact h.trans (run_error (bind_error ((pushReturn_spills hras hlen).trans (bind_error (spillOldest_full harea hover)))))
  · exact h.trans (run_error (bind_error ((pushReturn_spills hras hlen).trans (bind_error (spillOldest_refused harea hover hck)))))
  · obtain ⟨hc, hth⟩ := locate_caches hm hl
    obtain ⟨st, ha, hb, ht, hst⟩ := spillOldest_stored (oldest := oldest) harea hover hck hl
    refine ⟨_, st, h.trans (run_ok ((bind_ok ((pushReturn_spills hras hlen).trans ((bind_ok hst).trans (modTh_run _ _)))).trans
      (jump_run pcc _))), ?_⟩
    rw [th_setTh, th_setTh, setTh_setTh, setTh_setTh]
    have hovr : s1.th.ovr = s.th.ovr := by rw [hth]
    have hstores : s1.th.stores = s.th.stores := by rw [hth]
    have hkept : s1.th.kept = s.th.kept := by rw [hth]
    have hpend : s1.th.pend = s.th.pend := by rw [hth]
    rw [hovr, hstores, hkept]
    exact ⟨caches_setTh hc _, by rw [th_setTh]; rfl, by rw [th_setTh]; exact hpend,
      by rw [th_setTh, ← cur_of_caches hc]; exact lands_goto _ _ _, ha, hb, ht⟩

/-! ## CALL, JMP and JMPL (R113, R115) -/

/-- A right of a capability is a bit of its second word. -/
theorem missing_two_pow_eq_zero_iff (c : Cap) {k : Nat} (hk : k < 8) :
    missing (2 ^ k) (capRights c) = 0 ↔ c.w1.getLsbD k = true := by
  have hbit : (capRights c).testBit k = c.w1.getLsbD k := by
    rw [capRights, fieldW_testBit]
    simp [hk]
  have hall : Nat.testBit 255 k = true := by
    rw [show 255 = 2 ^ 8 - 1 from rfl, Nat.testBit_two_pow_sub_one]
    exact decide_eq_true hk
  rw [missing, Nat.two_pow_and, Nat.testBit_xor, hbit, hall]
  cases c.w1.getLsbD k <;> simp

theorem missing_rR_eq_zero_iff (c : Cap) : missing rR (capRights c) = 0 ↔ c.w1.getLsbD 7 = true :=
  missing_two_pow_eq_zero_iff c (k := 7) (by decide)

section JumpTarget

variable {s : State} {a : CReg} {x : GReg}

/-- The offset that a jump names. -/
def Thread.jumpOff (t : Thread) (a : CReg) (x : GReg) : Int := (capOff (t.rc a) : Int) + (t.rg x).toInt

theorem jumpTarget_untagged (ht : (s.th.rc a).tag = false) :
    jumpTarget a x s = .error (.trap 0x04 (tvalCap 1 a.val (s.th.jumpOff a x % 2 ^ 56).toNat)) s := by
  unfold jumpTarget
  rw [bind_ok (getTh_run s), ite_run, if_pos (by rw [ht]; rfl)]
  rfl

theorem jumpTarget_tagged (ht : (s.th.rc a).tag = true) :
    jumpTarget a x s =
      (if missing rX (capRights (s.th.rc a)) ≠ 0 then trap 0x06 (tvalCap 1 a.val rX)
        else if s.th.jumpOff a x % 2 ≠ 0 then trap 0x0E (tvalCap 1 a.val (s.th.jumpOff a x % 2 ^ 56).toNat)
        else if s.th.jumpOff a x < capBase (s.th.rc a) || s.th.jumpOff a x + 2 > capTop (s.th.rc a) then
          trap 0x05 (tvalCap 1 a.val (s.th.jumpOff a x % 2 ^ 56).toNat)
        else return capSetOff (s.th.rc a) (s.th.jumpOff a x).toNat : M Cap) s := by
  unfold jumpTarget
  rw [bind_ok (getTh_run s), ite_run, if_neg (by rw [ht]; exact Bool.false_ne_true)]
  rfl

theorem jumpTarget_noRight (ht : (s.th.rc a).tag = true) (hx : (s.th.rc a).w1.getLsbD 5 = false) :
    jumpTarget a x s = .error (.trap 0x06 (tvalCap 1 a.val 0x20)) s := by
  rw [jumpTarget_tagged ht, ite_run, if_pos (fun h => Bool.eq_false_iff.1 hx ((missing_rX_eq_zero_iff _).1 h))]
  rfl

theorem jumpTarget_odd (ht : (s.th.rc a).tag = true) (hx : (s.th.rc a).w1.getLsbD 5 = true) (ho : s.th.jumpOff a x % 2 ≠ 0) :
    jumpTarget a x s = .error (.trap 0x0E (tvalCap 1 a.val (s.th.jumpOff a x % 2 ^ 56).toNat)) s := by
  rw [jumpTarget_tagged ht, ite_run, if_neg (not_not.2 ((missing_rX_eq_zero_iff _).2 hx)), ite_run, if_pos ho]
  rfl

theorem jumpTarget_outside (ht : (s.th.rc a).tag = true) (hx : (s.th.rc a).w1.getLsbD 5 = true) (ho : s.th.jumpOff a x % 2 = 0)
    (hb : s.th.jumpOff a x < capBase (s.th.rc a) ∨ capTop (s.th.rc a) < s.th.jumpOff a x + 2) :
    jumpTarget a x s = .error (.trap 0x05 (tvalCap 1 a.val (s.th.jumpOff a x % 2 ^ 56).toNat)) s := by
  rw [jumpTarget_tagged ht, ite_run, if_neg (not_not.2 ((missing_rX_eq_zero_iff _).2 hx)), ite_run, if_neg (not_not.2 ho), ite_run,
    if_pos (by simpa using hb)]
  rfl

theorem jumpTarget_ok (ht : (s.th.rc a).tag = true) (hx : (s.th.rc a).w1.getLsbD 5 = true) (ho : s.th.jumpOff a x % 2 = 0)
    (hlo : capBase (s.th.rc a) ≤ s.th.jumpOff a x) (hhi : s.th.jumpOff a x + 2 ≤ capTop (s.th.rc a)) :
    jumpTarget a x s = .ok (capSetOff (s.th.rc a) (s.th.jumpOff a x).toNat) s := by
  rw [jumpTarget_tagged ht, ite_run, if_neg (not_not.2 ((missing_rX_eq_zero_iff _).2 hx)), ite_run, if_neg (not_not.2 ho), ite_run,
    if_neg (by simp; omega)]
  rfl

/-- JMP and JMPL trap where their target does. -/
theorem jumps_trap {i : Instr} {cause : Nat} {tval : Word} (hi : i ∈ [Instr.jmp a x, .jmpl a x])
    (h : jumpTarget a x s = .error (.trap cause tval) s) : Traps i s cause tval := by
  rcases List.mem_pair.1 hi with rfl | rfl
  all_goals exact run_error (bind_error h)

end JumpTarget

theorem callsAndJumps : CallsAndJumps := by
  intro s off a x pcc tgt c z o
  refine ⟨fun hlo hhi => calls_of_push ?_, fun h => ?_, fun ht hx ho hlo hhi => ?_, fun i hi => ⟨fun ht => ?_, fun ht hx => ?_,
    fun ht hx ho => ?_, fun ht hx ho hb => ?_⟩⟩
  · have hin : ¬(tgt < capBase s.th.pcc ∨ capTop s.th.pcc ≤ tgt) :=
      not_or.2 ⟨not_lt.2 hlo, not_le.2 hhi⟩
    exact run_congr ((bind_ok (getTh_run s)).trans (bind_ok (branchTo_ok hin)))
  · exact run_error ((bind_ok (getTh_run s)).trans (bind_error (branchTo_trap h)))
  · have hok := jumpTarget_ok ht hx ho hlo hhi
    exact ⟨jumpsTo_of_goto (run_ok ((bind_ok hok).trans (jump_run _ s))), calls_of_push (run_congr (bind_ok hok))⟩
  · exact jumps_trap hi (jumpTarget_untagged ht)
  · exact jumps_trap hi (jumpTarget_noRight ht hx)
  · exact jumps_trap hi (jumpTarget_odd ht hx ho)
  · exact jumps_trap hi (jumpTarget_outside ht hx ho hb)

/-! ## RET (R115, R116) -/

/-- A state put back, before a trap, differs from the one before in nothing that the trap sees. -/
theorem stopped_setTh_self (s : State) (cause : Nat) (tval : Word) :
    (s.setTh s.th).stopped (.trap cause tval) = s.stopped (.trap cause tval) := by
  unfold State.stopped
  dsimp only
  rw [th_setTh, setTh_setTh, setTh_cur]

section Return

variable {s s2 : State} {e : Cap} {n : Nat}

/-- A thread whose store and spills are as another's. -/
def Thread.restored (t old : Thread) : Thread := { t with ras := old.ras, area := old.area, ovr := old.ovr, kept := old.kept }

theorem ret_lands (h : popReturn s = .ok (e, n) s2) (ht : e.tag = true) (hlo : capBase e ≤ capOff e) (hhi : capOff e < capTop e) :
    exec .ret s = .next (s2.setTh (s2.th.goto s2.cur e)) := by
  have hin : ¬(outside e (capOff e) = true) := by
    rw [outside_iff]
    omega
  refine run_ok ((bind_ok (getTh_run s)).trans ((bind_ok h).trans ?_))
  change (if (!e.tag) = true then _ else _ : M Unit) s2 = _
  rw [ite_run, if_neg (by rw [ht]; exact Bool.false_ne_true), ite_run, if_neg hin]
  rfl

theorem ret_untagged (h : popReturn s = .ok (e, n) s2) (ht : e.tag = false) :
    exec .ret s = .next ((s2.setTh (s2.th.restored s.th)).stopped (.trap 0x04 (tvalCap 2 0 n))) := by
  refine run_error ((bind_ok (getTh_run s)).trans ((bind_ok h).trans ?_))
  change (if (!e.tag) = true then _ else _ : M Unit) s2 = _
  rw [ite_run, if_pos (by rw [ht]; rfl)]
  rfl

theorem ret_outside (h : popReturn s = .ok (e, n) s2) (ht : e.tag = true) (hout : (capOff e : Nat) < capBase e ∨ capTop e ≤ capOff e) :
    exec .ret s = .next ((s2.setTh (s2.th.restored s.th)).stopped (.trap 0x05 (tvalCap 2 0 (capOff e)))) := by
  have ho : outside e (capOff e) = true := by
    rw [outside_iff]
    omega
  refine run_error ((bind_ok (getTh_run s)).trans ((bind_ok h).trans ?_))
  change (if (!e.tag) = true then _ else _ : M Unit) s2 = _
  rw [ite_run, if_neg (by rw [ht]; exact Bool.false_ne_true), ite_run, if_pos ho]
  rfl

theorem ret_trap {cause : Nat} {tval : Word} (h : popReturn s = .error (.trap cause tval) s) : Traps .ret s cause tval :=
  run_error ((bind_ok (getTh_run s)).trans (bind_error h))

end Return

section Pop

variable {s s1 : State}

theorem popReturn_store {old : List Cap} {e : Cap} (h : s.th.ras = old ++ [e]) :
    popReturn s = .ok (e, 0) (s.setTh { s.th with ras := old }) := by
  unfold popReturn
  rw [bind_ok (get_run s), ite_run, if_pos (by rw [h]; exact List.append_ne_nil_of_right_ne_nil old (List.cons_ne_nil e []))]
  refine (bind_ok (modTh_run _ s)).trans ?_
  rw [h, List.dropLast_concat, List.getLastD_concat]
  rfl

theorem popReturn_over (h : s.th.ras = []) (ho : 0 < s.th.ovr) : popReturn s = reloadOver (s.th.ovr - 1) s := by
  unfold popReturn
  rw [bind_ok (get_run s), ite_run, if_neg (not_not.2 h), ite_run, if_pos ho]

theorem popReturn_empty (h : s.th.ras = []) (ho : s.th.ovr = 0) (ha : s.th.area = 0) :
    popReturn s = .error (.trap 0x09 0) s := by
  unfold popReturn
  rw [bind_ok (get_run s), ite_run, if_neg (not_not.2 h), ite_run, if_neg (by omega), ite_run, if_neg (by omega)]
  rfl

theorem popReturn_area (h : s.th.ras = []) (ho : s.th.ovr = 0) (ha : 0 < s.th.area)
    (hf : isForeign (s.returnSlot (s.th.area - 1)).1 = false) (hp : s.poisoned (s.returnSlot (s.th.area - 1)).1 16 = false) :
    popReturn s = .ok (s.capView (s.returnSlot (s.th.area - 1)).1, (s.returnSlot (s.th.area - 1)).2)
      (s.setTh { s.th with area := s.th.area - 1 }) := by
  unfold popReturn
  rw [bind_ok (get_run s), ite_run, if_neg (not_not.2 h), ite_run, if_neg (by omega), ite_run, if_pos ha]
  exact bind_ok (readHome_ok ⟨2, 0⟩ _ _ 16 (sliceEntry 0 0 0 0 0) s (poisonedPast_of_not_poisoned hp _) hf rfl)

/-- The entry spilled last, which came with a context record, is taken as it was there. -/
theorem reloadOver_kept {i : Nat} {b : List Byte} (h : smFind s.th.kept i = some (.read b true false)) :
    reloadOver i s =
      .ok (capFrom b true, capOff s.th.spov + 16 * i) (s.setTh { s.th with ovr := i, kept := smDel s.th.kept i }) := by
  unfold reloadOver
  rw [bind_ok (getTh_run s), h]
  rfl

/-- An entry spilled through SPOV is loaded from its slot. -/
theorem reloadOver_slot {i : Nat} (h : smFind s.th.kept i = none) :
    reloadOver i s =
      (loadCap ⟨3, 0⟩ false s.th.spov rR (capOff s.th.spov + 16 * i : Nat) >>= fun c =>
        modTh (fun t => { t with ovr := i, kept := smDel t.kept i }) >>= fun _ => pure (c, capOff s.th.spov + 16 * i)) s := by
  unfold reloadOver
  rw [bind_ok (getTh_run s), h]
  rfl

end Pop

/-- An entry spilled through SPOV, past the checks of its load. -/
theorem popReturn_slot {addr : Nat} {ent : TlbEntry} (hm : NoMoves s) (hras : s.th.ras = []) (ho : 0 < s.th.ovr)
    (hk : smFind s.th.kept (s.th.ovr - 1) = none)
    (hck : capCheck s.th.spov rR (capOff s.th.spov + 16 * (s.th.ovr - 1) : Nat) 16 16 = none)
    (hl : locate ⟨3, 0⟩ false s.th.spov (capOff s.th.spov + 16 * (s.th.ovr - 1)) 16 rR s = .ok (addr, ent) s1)
    (hf : isForeign addr = false) (hp : s1.poisoned addr 16 = false) :
    ∃ s2, Caches s s2 ∧ s2.th = s1.th ∧
      popReturn s = .ok (s.capView addr, capOff s.th.spov + 16 * (s.th.ovr - 1))
        (s2.setTh { s1.th with ovr := s.th.ovr - 1, kept := smDel s.th.kept (s.th.ovr - 1) }) := by
  obtain ⟨hc, hth⟩ := locate_caches hm hl
  obtain ⟨hc2, hth2⟩ := countLoad_caches s1 (capOff s.th.spov + 16 * (s.th.ovr - 1)) addr ent
  refine ⟨_, caches_trans hc hc2, hth2, (popReturn_over hras ho).trans ((reloadOver_slot hk).trans ?_)⟩
  refine (bind_ok (loadCap_ok hm hck hl hf hp)).trans ((bind_ok (modTh_run _ _)).trans ?_)
  rw [Int.toNat_natCast, hth2, show s1.th.kept = s.th.kept by rw [hth]]
  rfl

theorem spilled_capView (s : State) (addr : Nat) : Spilled s addr (s.capView addr) := by
  refine ⟨fun k hk => ?_, rfl⟩
  rw [State.capView, capBytes_capFrom (length_homeView s addr 16), getElem?_homeView s addr 16 hk]

theorem returnPops : ReturnPops := by
  intro s old e
  have hslot : ((capOff s.th.spov + 16 * (s.th.ovr - 1) : Nat) : Int) = (capOff s.th.spov : Int) + 16 * (s.th.ovr - 1 : Nat) := by
    rw [Nat.cast_add, Nat.cast_mul]
    rfl
  have htoNat : ((capOff s.th.spov : Int) + 16 * (s.th.ovr - 1 : Nat)).toNat = capOff s.th.spov + 16 * (s.th.ovr - 1) := by
    rw [← hslot, Int.toNat_natCast]
  refine ⟨fun hras ht hlo hhi => ?_, fun hras ht => ?_, fun hras ht hout => ?_, fun hras ho ha => ?_, fun hras ho hk =>
    ⟨fun cause offs hck => ?_, fun hck hm addr ent s1 hl hf hp => ⟨s.capView addr, spilled_capView s addr, ?_, ?_⟩⟩,
    fun hras ho bytes hk hlo hhi => ?_, fun hras ho ha hf hp =>
    ⟨s.capView _, spilled_capView s _, fun ht hlo hhi => ?_, fun ht => ?_⟩⟩
  · refine ⟨_, ret_lands (popReturn_store hras) ht hlo hhi, ?_⟩
    rw [th_setTh, setTh_setTh]
    exact ⟨only_setTh _ _, by rw [th_setTh]; rfl, by rw [th_setTh]; rfl, by rw [th_setTh]; exact lands_goto _ _ _⟩
  · rw [ret_untagged (popReturn_store hras) ht, th_setTh, setTh_setTh]
    exact congrArg _ (stopped_setTh_self s _ _)
  · rw [ret_outside (popReturn_store hras) ht hout, th_setTh, setTh_setTh]
    exact congrArg _ (stopped_setTh_self s _ _)
  · exact ret_trap (popReturn_empty hras ho ha)
  · refine ret_trap ((popReturn_over hras ho).trans ((reloadOver_slot hk).trans (bind_error (loadCap_trap ?_ s))))
    rwa [hslot]
  · intro ht hlo hhi
    obtain ⟨s2, hc, hth, hpop⟩ := popReturn_slot hm hras ho hk (by rwa [hslot]) (by rwa [← htoNat]) hf hp
    obtain ⟨-, hth1⟩ := locate_caches hm hl
    refine ⟨_, ret_lands hpop ht hlo hhi, caches_setTh (caches_setTh hc _) _, ?_⟩
    rw [th_setTh, th_setTh, setTh_cur, cur_of_caches hc]
    exact ⟨rfl, by rw [goto_pend, hth1], lands_goto _ _ _⟩
  · intro ht
    obtain ⟨s2, hc, hth, hpop⟩ := popReturn_slot hm hras ho hk (by rwa [hslot]) (by rwa [← htoNat]) hf hp
    obtain ⟨-, hth1⟩ := locate_caches hm hl
    have hex := ret_untagged hpop ht
    rw [← htoNat] at hex
    refine ⟨_, hex, caches_setTh (caches_setTh hc _) _, ?_⟩
    rw [th_setTh, th_setTh, hth1]
    rfl
  · refine ⟨_, ret_lands ((popReturn_over hras ho).trans (reloadOver_kept hk)) rfl hlo hhi, ?_⟩
    rw [th_setTh, setTh_setTh]
    exact ⟨only_setTh _ _, by rw [th_setTh]; rfl, by rw [th_setTh]; rfl, by rw [th_setTh]; exact lands_goto _ _ _⟩
  · refine ⟨_, ret_lands (popReturn_area hras ho ha hf hp) ht hlo hhi, ?_⟩
    rw [th_setTh, setTh_setTh]
    exact ⟨only_setTh _ _, by rw [th_setTh]; rfl, by rw [th_setTh]; rfl, by rw [th_setTh]; exact lands_goto _ _ _⟩
  · refine (ret_untagged (popReturn_area hras ho ha hf hp) ht).trans ?_
    rw [th_setTh, setTh_setTh]
    exact congrArg _ (stopped_setTh_self s _ _)

/-! ## JTAB (R114) -/

section Table

variable {s s1 : State} {a : CReg} {x : GReg}

/-- The entries of a jump table that lies within its bounds. -/
def tableSize (c : Cap) : Nat := (capTop c - capBase c).toNat / 4

/-- The offset of the entry that a jump table gives an index. -/
def Thread.tableEntry (t : Thread) (a : CReg) (x : GReg) : Nat := capBase (t.rc a) + 4 * (t.rg x).toNat

/-- JTAB once its entry is read. -/
def jumpBy (o : Int) : M Unit := do
  let pcc ← branchTo o
  writeNow (.p 7 true)
  jump pcc

/-- JTAB past the check of its tag. -/
theorem jtab_tagged (ht : (s.th.rc a).tag = true) :
    exec (.jtab a x) s = run
      (if missing rR (capRights (s.th.rc a)) ≠ 0 then trap 0x06 (tvalCap 1 a.val rR)
        else if capBadFmt (s.th.rc a) then trap 0x07 (tvalCap 1 a.val (capBase (s.th.rc a)))
        else if (s.th.rg x).toNat ≥ tableSize (s.th.rc a) then writeNow (.p 7 false) >>= fun _ => advance
        else if s.th.tableEntry a x % 4 ≠ 0 then trap 0x0E (tvalCap 1 a.val (s.th.tableEntry a x))
        else locate (creg a) false (s.th.rc a) (s.th.tableEntry a x) 4 rR >>= fun h =>
          readHome (creg a) (s.th.tableEntry a x) h.1 4 h.2 >>= fun b => jumpBy ((s.th.pc : Int) + 2 * signedNat 32 (leNat b))) s := by
  refine run_congr ((bind_ok (getTh_run s)).trans ?_)
  rw [ite_run, if_neg (by rw [ht]; exact Bool.false_ne_true)]
  rfl

theorem jtab_untagged (ht : (s.th.rc a).tag = false) : Traps (.jtab a x) s 0x04 (tvalCap 1 a.val (capBase (s.th.rc a))) := by
  refine run_error ((bind_ok (getTh_run s)).trans ?_)
  rw [ite_run, if_pos (by rw [ht]; rfl)]
  rfl

theorem jtab_noRight (ht : (s.th.rc a).tag = true) (hr : (s.th.rc a).w1.getLsbD 7 = false) :
    Traps (.jtab a x) s 0x06 (tvalCap 1 a.val 0x80) := by
  refine (jtab_tagged ht).trans (run_error ?_)
  rw [ite_run, if_pos (fun h => Bool.eq_false_iff.1 hr ((missing_rR_eq_zero_iff _).1 h))]
  rfl

theorem jtab_badFormat (ht : (s.th.rc a).tag = true) (hr : (s.th.rc a).w1.getLsbD 7 = true) (hf : capBadFmt (s.th.rc a) = true) :
    Traps (.jtab a x) s 0x07 (tvalCap 1 a.val (capBase (s.th.rc a))) := by
  refine (jtab_tagged ht).trans (run_error ?_)
  rw [ite_run, if_neg (not_not.2 ((missing_rR_eq_zero_iff _).2 hr)), ite_run, if_pos hf]
  rfl

/-- A table that JTAB may read: tagged, with right R, and of a good format. -/
def Readable (c : Cap) : Prop := c.tag = true ∧ c.w1.getLsbD 7 = true ∧ capBadFmt c = false

theorem jtab_readable (h : Readable (s.th.rc a)) :
    exec (.jtab a x) s = run
      (if (s.th.rg x).toNat ≥ tableSize (s.th.rc a) then writeNow (.p 7 false) >>= fun _ => advance
        else if s.th.tableEntry a x % 4 ≠ 0 then trap 0x0E (tvalCap 1 a.val (s.th.tableEntry a x))
        else locate (creg a) false (s.th.rc a) (s.th.tableEntry a x) 4 rR >>= fun h =>
          readHome (creg a) (s.th.tableEntry a x) h.1 4 h.2 >>= fun b => jumpBy ((s.th.pc : Int) + 2 * signedNat 32 (leNat b))) s := by
  obtain ⟨ht, hr, hf⟩ := h
  refine (jtab_tagged ht).trans (run_congr ?_)
  rw [ite_run, if_neg (not_not.2 ((missing_rR_eq_zero_iff _).2 hr)), ite_run,
    if_neg (Bool.eq_false_iff.1 hf)]

theorem jtab_beyond (h : Readable (s.th.rc a)) (hi : tableSize (s.th.rc a) ≤ (s.th.rg x).toNat) :
    Loads (.jtab a x) s s (.p 7 false) := by
  refine loads_of_ok ((jtab_readable h).trans (run_ok ?_)) (caches_refl s) rfl
  rw [ite_run, if_pos hi]
  refine (bind_ok (writeNow_run _ s)).trans ((advance_run _).trans ?_)
  rw [th_setTh, setTh_cur]

theorem jtab_unaligned (h : Readable (s.th.rc a)) (hi : (s.th.rg x).toNat < tableSize (s.th.rc a)) (hal : s.th.tableEntry a x % 4 ≠ 0) :
    Traps (.jtab a x) s 0x0E (tvalCap 1 a.val (s.th.tableEntry a x)) := by
  refine (jtab_readable h).trans (run_error ?_)
  rw [ite_run, if_neg (by omega), ite_run, if_pos hal]
  rfl

theorem jumpBy_run {o : Int} (hlo : capBase s.th.pcc ≤ o) (hhi : o < capTop s.th.pcc) :
    jumpBy o s = .ok () (s.setTh ((s.th.now (.p 7 true)).goto s.cur (capSetOff s.th.pcc o.toNat))) := by
  refine (bind_ok (branchTo_ok (not_or.2 ⟨not_lt.2 hlo, not_le.2 hhi⟩))).trans ((bind_ok (writeNow_run _ s)).trans ?_)
  rw [jump_run, th_setTh, setTh_cur, setTh_setTh]

theorem lands_now_goto (c : Cur) (t : Thread) (w : RegWrite) (pcc : Cap) : Lands c t ((t.now w).goto c pcc) pcc := by
  obtain ⟨hnt, hbundles, -, hlpst, -, hrun⟩ := now_flow t w
  have h := lands_goto c (t.now w) pcc
  unfold Lands at h ⊢
  rwa [hnt, hbundles, hlpst, hrun] at h

/-- An entry in the table is read at its home and jumps. -/
theorem jtab_jumps {addr : Nat} {e : TlbEntry} (h : Readable (s.th.rc a)) (hi : (s.th.rg x).toNat < tableSize (s.th.rc a))
    (hal : s.th.tableEntry a x % 4 = 0) (hm : NoMoves s)
    (hl : locate (creg a) false (s.th.rc a) (s.th.tableEntry a x) 4 rR s = .ok (addr, e) s1) (hf : isForeign addr = false)
    (hp : s1.poisoned addr 4 = false) :
    let o : Int := (s.th.pc : Int) + 2 * signedNat 32 (leNat (s.homeView addr 4))
    capBase s.th.pcc ≤ o → o < capTop s.th.pcc →
      ∃ t, exec (.jtab a x) s = .next t ∧ Caches s t ∧ Rest (s1.th.now (.p 7 true)) t.th ∧
        t.th.pend = (s1.th.now (.p 7 true)).pend ∧ Lands s.cur s1.th t.th (capSetOff s.th.pcc o.toNat) := by
  intro o hlo hhi
  obtain ⟨hc, hth⟩ := locate_caches hm hl
  obtain ⟨hc2, hth2⟩ := countLoad_caches s1 (s.th.tableEntry a x) addr e
  have hpcc : (s1.countLoad (s.th.tableEntry a x) addr e).th.pcc = s.th.pcc := by rw [hth2, hth]
  have hread := readHome_view (creg a) (s.th.tableEntry a x) e hf hp
  rw [homeView_of_locate hm hl] at hread
  have hjump := jumpBy_run (s := s1.countLoad (s.th.tableEntry a x) addr e) (o := o) (by rwa [hpcc]) (by rwa [hpcc])
  have hexec := (jtab_readable h).trans (run_congr (by rw [ite_run, if_neg (not_le.2 hi), ite_run, if_neg (not_not.2 hal)]))
  refine ⟨_, hexec.trans (run_ok ((bind_ok hl).trans ((bind_ok hread).trans hjump))), caches_setTh (caches_trans hc hc2) _, ?_⟩
  rw [th_setTh, hth2, cur_of_caches (caches_trans hc hc2), show s1.th.pcc = s.th.pcc by rw [hth]]
  exact ⟨rest_goto _ _ _, goto_pend _ _ _, lands_now_goto _ _ _ _⟩

end Table

theorem toInt_ofNat (n : Nat) : (BitVec.ofNat 32 n).toInt = signedNat 32 n := by
  rw [BitVec.toInt, BitVec.toNat_ofNat, signedNat]
  exact if_congr (by omega) rfl rfl

/-- Byte k of the entry that four bytes hold. -/
theorem byte_of_leNat {b : List Byte} (h : b.length = 4) {k : Nat} {x : Byte} (hk : b[k]? = some x) :
    ((BitVec.ofNat 32 (leNat b)) >>> (8 * k)).setWidth 8 = x := by
  obtain ⟨hlt, rfl⟩ := List.getElem?_eq_some_iff.1 hk
  have hn : leNat b < 2 ^ 32 := (leNat_lt b).trans_eq (by rw [h]; rfl)
  apply BitVec.eq_of_toNat_eq
  rw [BitVec.toNat_setWidth, BitVec.toNat_ushiftRight, BitVec.toNat_ofNat, Nat.mod_eq_of_lt hn, Nat.shiftRight_eq_div_pow, Nat.pow_mul]
  exact leNat_byte b hlt

theorem jumpTable : JumpTable := by
  intro s s1 a x addr e c i n ea ok
  refine ⟨jtab_beyond, jtab_untagged, jtab_noRight, jtab_badFormat, jtab_unaligned, fun h hi hal hm hl hf hp =>
    ⟨BitVec.ofNat 32 (leNat (s.homeView addr 4)),
      fun k hk => byte_of_leNat (length_homeView s addr 4) (getElem?_homeView s addr 4 hk), ?_⟩⟩
  rw [toInt_ofNat]
  exact jtab_jumps h hi hal hm hl hf hp

/-- Settles O22: each transfer by the checks before it, the push or the pop of the store, and the jump. -/
theorem branchesAndCalls : Obligations.BranchesAndCalls := ⟨branchesComplete, callsAndJumps, returnPops, jumpTable⟩

end Sys2Proof.Machine
end

section
/-!
PROOFS. MCALL, micro-operations, and parked bundles that execute again (R118, R119, R124, R158, R168).
-/

namespace Sys2Proof.Machine

open Sys2Proof.Spec

/-! ## MCALL (R118, R119, R124) -/

theorem tidOf_div (core : Nat) {ctx : Nat} (h : ctx < 8) : tidOf core ctx / 8 = core := by
  unfold tidOf
  omega

/-- The thread of a context whose MCALL goes on. -/
theorem macroNext_goes {s : State} {tid : Nat} {r : MacroRun} (hr : (s.thread tid).run = some r)
    (he : s.bookEntry (coreCluster (tid / 8)) r.num r.idx ≠ 0) : s.macroNext tid = s := by
  unfold State.macroNext
  dsimp only
  rw [hr]
  exact if_neg he

theorem macroNext_ends {s : State} {tid : Nat} {r : MacroRun} (hr : (s.thread tid).run = some r)
    (he : s.bookEntry (coreCluster (tid / 8)) r.num r.idx = 0) :
    s.macroNext tid = s.setThread tid ((s.thread tid).endMacro r) := by
  unfold State.macroNext
  dsimp only
  rw [hr]
  exact if_pos he

theorem macroNext_none {s : State} {tid : Nat} (hr : (s.thread tid).run = none) : s.macroNext tid = s := by
  unfold State.macroNext
  dsimp only
  rw [hr]

/-- What the end of the micro-operations leaves of a thread, and of the machine. -/
theorem macroNext_frame (s : State) (tid : Nat) :
    (s.macroNext tid).mem = s.mem ∧ ((s.macroNext tid).thread tid).status = (s.thread tid).status ∧
      ∀ j, j ≠ tid → (s.macroNext tid).thread j = s.thread j := by
  unfold State.macroNext
  dsimp only
  split
  · exact ⟨rfl, rfl, fun _ _ => rfl⟩
  · split
    · exact ⟨rfl, by rw [thread_setThread_self]; rfl, fun j hj => thread_setThread_other _ _ _ _ hj⟩
    · exact ⟨rfl, rfl, fun _ _ => rfl⟩

/-- The entries that an MCALL starts. -/
def State.called (s : State) (num : Fin 128) (a b : Fin 64) (c : Fin 32) (i : Word) : MacroRun :=
  ⟨num.val, if s.th.noBreak && bitW 12 s.th.mcx then fieldW 11 7 s.th.mcx else 0, a.val, b.val, c.val, i, s.cur.words⟩

/-- The thread at the first entry that it calls. -/
def State.calling (s : State) (r : MacroRun) : Thread :=
  { s.th.tick s.cur with run := some r, noBreak := s.th.noBreak && bitW 12 s.th.mcx }

theorem mcall_next (s : State) (num : Fin 128) (a b : Fin 64) (c : Fin 32) (i : Word) :
    exec (.mcall num a b c i) s = .next ((s.setTh (s.calling (s.called num a b c i))).macroNext s.cur.tid) := rfl

theorem macroCall : MacroCall := by
  intro s num a b c i resumes idx entry hctx
  have hcore : s.cur.tid / 8 = s.cur.core := tidOf_div s.cur.core hctx
  have hthread : (s.setTh (s.calling (s.called num a b c i))).thread s.cur.tid = s.calling (s.called num a b c i) :=
    th_setTh s _
  have hrun : ((s.setTh (s.calling (s.called num a b c i))).thread s.cur.tid).run = some (s.called num a b c i) := by
    rw [hthread]
    rfl
  refine ⟨fun he => ?_, fun he => ?_⟩
  · refine ⟨_, (mcall_next s num a b c i).trans (congrArg _ (macroNext_goes hrun (by rw [hcore]; exact he))), only_setTh _ _, ?_⟩
    rw [th_setTh]
    rfl
  · have hend := macroNext_ends hrun (by rw [hcore]; exact he)
    rw [hthread] at hend
    refine ⟨_, (mcall_next s num a b c i).trans (congrArg _ (hend.trans (setTh_setTh s _ _))), only_setTh _ _, ?_, fun k => ?_⟩
    · rw [th_setTh]
      rfl
    · rw [th_setTh]
      refine (putField_getLsbD (le_refl 12) (by decide) _ 0 k).trans ?_
      by_cases hk : k = 12
      · rw [if_pos (by omega), Nat.zero_testBit, hk]
        rfl
      · rw [if_neg (by omega), decide_eq_true hk]
        rfl

/-! ## A bundle that executes again (R118, R158) -/

/-- An instruction that words encode executes as it is issued. -/
theorem issue_eq_exec {i : Instr} (h : (encParts i).isSome = true) (s : State) : issue i s = exec i s := by
  cases i
  all_goals first
    | exact absurd h Bool.false_ne_true
    | rfl

/-- A micro-operation that nothing stops is issued, and its MCALL goes on. -/
theorem micro_issues {s : State} {r : MacroRun} {i : Instr} {stall : Nat} {base : IWord}
    (hd : microDecode (s.bookEntry (coreCluster s.cur.core) r.num r.idx) r = some (i, stall, base)) :
    let s' : State := { s with cur := { s.cur with
      stall := stall, words := r.words, base := base, micro := true, instr := i, carried := none, since := none } }
    s'.th.returning i = none → s'.legal i = none → s'.mbpHit s'.cur.core s'.th r = false → s'.th.scbchk = false →
      ∃ u, issue i (s'.settled i) = .next u ∧ s.micro r = .next (u.macroNext s.cur.tid) := by
  intro s' hret hleg hmbp hscb
  obtain ⟨u, hu⟩ := issue_answers i (s'.settled i)
  have hstay : (s'.th.returning i).isSome = false := by rw [hret]; rfl
  have hearly : s'.th.earlyTrap (s'.th.reads i) = none := by
    rw [Thread.earlyTrap, hscb]
    rfl
  refine ⟨u, hu, ?_⟩
  unfold State.micro
  dsimp only
  rw [hd]
  dsimp only
  split
  case isTrue h => exact Bool.noConfusion (hstay.symm.trans h)
  case isFalse =>
  split
  case h_1 h => cases hleg.symm.trans h
  case h_2 =>
  split
  case isTrue h => exact Bool.noConfusion (hmbp.symm.trans h)
  case isFalse =>
  split
  case h_1 h => cases hearly.symm.trans h
  case h_2 =>
  split
  case h_1 h =>
    cases hu.symm.trans h
    rfl
  case h_2 h => cases hu.symm.trans h
  case h_3 h => cases hu.symm.trans h

/-- A parked bundle as it executes again in its context. -/
def State.again (s : State) (tid : Nat) (p : Park) : State :=
  { s with cur := { p.bundle with carried := p.woken, since := some p.order } }.setThread tid
    { s.thread tid with status := .running }

theorem rerun_issues {s u : State} {tid : Nat} {p : Park} (h : issue p.bundle.instr (s.again tid p) = .next u) :
    s.rerun tid p = .next { u.macroNext tid with cur := s.cur } := by
  unfold State.rerun
  dsimp only
  split
  case h_1 e =>
    cases h.symm.trans e
    rfl
  case h_2 e => cases h.symm.trans e
  case h_3 e => cases h.symm.trans e

theorem wake_reruns {s : State} {core ctx : Nat} {p : Park} (hp : (s.thread (tidOf core ctx)).status = .parked p)
    (hw : s.canWake (tidOf core ctx) p = true) (hf : ∀ x, p.why ≠ .falign x) (hi : p.why ≠ .waiti) :
    exec (.parkedBundleWake core ctx) s = s.rerun (tidOf core ctx) p := by
  refine (show exec _ s = execParkedBundleWake core ctx s from rfl).trans ?_
  unfold execParkedBundleWake
  dsimp only
  rw [hp]
  dsimp only
  rw [if_pos hw]
  split
  case h_1 x hx => exact absurd hx (hf x)
  case h_2 hx => exact absurd hx hi
  case h_3 => rfl

theorem resend_reruns {s : State} {tid : Nat} {p : Park} {kind : ParkWhy → Bool} (hp : (s.thread tid).status = .parked p)
    (hk : kind p.why = true) : s.resend tid kind = s.rerun tid p := by
  unfold State.resend
  rw [hp]
  exact if_pos hk

/-! ## The message of an accepted FIRE (R168) -/

theorem drain_nil {s : State} {tid : Nat} (h : (s.thread tid).stores = []) : s.drain tid = s := by
  rw [State.drain, h]
  rfl

/-- A message that finds its team, room and no earlier message joins its destination's queue. -/
theorem sendMessage_accepts {s : State} {desc : Word} {ws : List Word} {tm : Team} (hst : s.th.stores = [])
    (hd : desc.toNat < 2 ^ 18) (hk : s.isKind s.th.launchId (fieldW 17 12 desc) 2 = true)
    (ht : s.teamOfLaunch s.th.launchId (fieldW 11 0 desc) = some tm) (hr : s.room (fieldW 11 0 desc) = true)
    (hb : s.fireBehind (fieldW 11 0 desc) s.th.eprio = false) :
    sendMessage desc ws s =
      .ok true (s.pushTask (fieldW 11 0 desc) s.th.eprio (msgTask s.th.launchId tm.no (fieldW 17 12 desc) ws s.th.workid)) := by
  have hgood : ¬((decide (desc.toNat ≥ 2 ^ 18) || !s.isKind s.th.launchId (fieldW 17 12 desc) 2) = true) := by
    rw [hk, decide_eq_false (not_le.2 hd)]
    exact Bool.false_ne_true
  have hdrain : drainMine s = .ok () s := congrArg (EStateM.Result.ok ()) (drain_nil hst)
  unfold sendMessage
  rw [bind_ok (get_run s), show s.origin.launch = s.th.launchId from rfl, ite_run, if_neg hgood, bind_ok hdrain, bind_ok (get_run s), ht]
  change (if (s.room (fieldW 11 0 desc) && !s.fireBehind (fieldW 11 0 desc) s.th.eprio) = true then _ else _ : M Bool) s = _
  rw [ite_run, if_pos (by rw [hr, hb]; rfl)]
  rfl

/-- A FIRE whose message is accepted goes on. -/
theorem fire_accepts {s : State} {d w : GReg} {tm : Team} (hh : s.th.handler = false) (hst : s.th.stores = [])
    (hd : (s.th.rg d).toNat < 2 ^ 18) (hk : s.isKind s.th.launchId (fieldW 17 12 (s.th.rg d)) 2 = true)
    (ht : s.teamOfLaunch s.th.launchId (fieldW 11 0 (s.th.rg d)) = some tm) (hr : s.room (fieldW 11 0 (s.th.rg d)) = true)
    (hb : s.fireBehind (fieldW 11 0 (s.th.rg d)) s.th.eprio = false) :
    issue (.fire d w) s = .next ((s.pushTask (fieldW 11 0 (s.th.rg d)) s.th.eprio
      (msgTask s.th.launchId tm.no (fieldW 17 12 (s.th.rg d)) (fireWords s.th w) s.th.workid)).setTh (s.th.step s.cur)) := by
  have hn : notInHandler s = .ok () s := by
    unfold notInHandler
    rw [bind_ok (get_run s), hh]
    rfl
  refine (show issue _ s = execFire d w s from rfl).trans (run_ok ?_)
  exact (bind_ok hn).trans ((bind_ok (getTh_run s)).trans ((bind_ok (sendMessage_accepts hst hd hk ht hr hb)).trans (advance_run _)))

/-- A bundle outside MCALL leaves no micro-operations in progress. -/
theorem step_run_none {t : Thread} (h : t.run = none) (c : Cur) : (t.step c).run = none := by
  unfold Thread.step
  dsimp only
  split
  · exact congrArg (Option.map _) h
  · exact h

/-- The first eight of a message's words are the eight that it has. -/
theorem eight_fireWords (t : Thread) (w : GReg) : eight (fireWords t w) = fireWords t w := by
  have hlen : (fireWords t w).length = 8 := by rw [fireWords, List.length_map, List.length_range]
  rw [eight, List.take_append_of_le_length (by rw [hlen]), List.take_of_length_le (by rw [hlen])]

theorem again_th {s : State} {core ctx : Nat} {p : Park} (hcore : p.bundle.core = core) (hctx : p.bundle.ctx = ctx) :
    (s.again (tidOf core ctx) p).th = { s.thread (tidOf core ctx) with status := .running } := by
  subst hcore hctx
  exact thread_setThread_self _ _ _

/-- A WAITI whose task has come completes. -/
theorem completeParked_frame {s : State} {tid : Nat} {p : Park} (hp : (s.thread tid).status = .parked p) :
    ((s.completeParked tid).thread tid).status = .running ∧ (s.completeParked tid).mem = s.mem ∧
      ∀ j, j ≠ tid → (s.completeParked tid).thread j = s.thread j := by
  unfold State.completeParked
  dsimp only
  rw [hp]
  dsimp only
  obtain ⟨hmem, hstatus, hthreads⟩ :=
    macroNext_frame (s.setThread tid ({ s.thread tid with status := .running }.step p.bundle)) tid
  refine ⟨hstatus.trans ?_, hmem, fun j hj => (hthreads j hj).trans (thread_setThread_other _ _ _ _ hj)⟩
  rw [thread_setThread_self, step_status]

theorem wake_completes {s : State} {core ctx : Nat} {p : Park} (hp : (s.thread (tidOf core ctx)).status = .parked p)
    (hw : p.why = .waiti) (hq : 0 < taskCount (s.queue core)) (hctx : ctx < 8) :
    exec (.parkedBundleWake core ctx) s = .next (s.completeParked (tidOf core ctx)) := by
  have hcan : s.canWake (tidOf core ctx) p = true := by
    unfold State.canWake State.parkReady
    rw [hw, tidOf_div core hctx]
    exact decide_eq_true hq
  refine (show exec _ s = execParkedBundleWake core ctx s from rfl).trans ?_
  unfold execParkedBundleWake
  dsimp only
  rw [hp]
  dsimp only
  rw [if_pos hcan, hw]

/-- The task that a FIRE's message becomes. -/
def Thread.message (t : Thread) (tm : Team) (d w : GReg) : Task :=
  msgTask t.launchId tm.no (fieldW 17 12 (t.rg d)) (fireWords t w) t.workid

/-- The message of a FIRE that executes again joins its destination's queue, and the thread goes on. -/
theorem messageAccept_queues {s : State} {core ctx n : Nat} {p : Park} {d w : GReg} {tm : Team}
    (hp : (s.thread (tidOf core ctx)).status = .parked p) (hcore : p.bundle.core = core) (hctx : p.bundle.ctx = ctx) :
    let again := s.again (tidOf core ctx) p
    let dest := fieldW 11 0 (again.th.rg d)
    p.why = .fire dest n → p.bundle.instr = .fire d w → again.th.run = none → again.th.handler = false → again.th.stores = [] →
      (again.th.rg d).toNat < 2 ^ 18 → again.isKind again.th.launchId (fieldW 17 12 (again.th.rg d)) 2 = true →
      again.teamOfLaunch again.th.launchId dest = some tm → again.room dest = true → again.fireBehind dest again.th.eprio = false →
      exec (.messageAccept core ctx) s =
        .next { (again.pushTask dest again.th.eprio (again.th.message tm d w)).setTh (again.th.step again.cur) with cur := s.cur } := by
  intro again dest hw hinstr hrun hh hst hd hk ht hr hb
  have hissue := fire_accepts (s := again) (w := w) hh hst hd hk ht hr hb
  rw [← hinstr] at hissue
  refine (resend_reruns hp (by rw [hw]; rfl)).trans ((rerun_issues hissue).trans ?_)
  have hcur : again.cur.tid = tidOf core ctx := by
    rw [← hcore, ← hctx]
    rfl
  rw [macroNext_none]
  · rfl
  · rw [← hcur]
    exact (congrArg Thread.run (th_setTh (again.pushTask dest again.th.eprio (again.th.message tm d w)) _)).trans (step_run_none hrun _)

theorem bundlesExecuteAgain : BundlesExecuteAgain := by
  intro s core ctx p r i stall base tid
  refine ⟨fun h => issue_eq_exec h s, ?_, fun hp =>
    ⟨?_, ?_, fun hw hq hctx => ⟨_, wake_completes hp hw hq hctx, completeParked_frame hp⟩⟩⟩
  · intro at_ s' hctx hrunning hrun hd hret hleg hmbp hscb
    obtain ⟨u, hu, hmicro⟩ := micro_issues (s := { s with cur := { s.cur with core := core, ctx := ctx } }) hd hret hleg hmbp hscb
    refine ⟨u, hu, (show exec _ s = execMacroMicroOperation core ctx s from rfl).trans ?_⟩
    unfold execMacroMicroOperation
    dsimp only
    split
    case h_1 r' _ hr =>
      cases hr.symm.trans hrun
      exact hmicro
    case h_2 hno => exact absurd hrun (hno r hrunning)
  · obtain ⟨u, hu⟩ := issue_answers p.bundle.instr (s.again tid p)
    refine ⟨u, hu, fun hcan hf hi => (wake_reruns hp hcan hf hi).trans (rerun_issues hu), fun d n hw => ?_, fun a v hw => ?_,
      fun a v hw => ?_⟩
    all_goals exact (resend_reruns hp (by rw [hw]; rfl)).trans (rerun_issues hu)
  · intro d w tm n th dest hw hinstr hcore hctx hrun hh hst hd hk ht hr hb
    have hcur : (s.again tid p).cur.tid = tid := by
      change tidOf p.bundle.core p.bundle.ctx = tidOf core ctx
      rw [hcore, hctx]
    have hown : ∀ x : Thread, (((s.again tid p).pushTask dest th.eprio (th.message tm d w)).setTh x).thread tid = x := by
      intro x
      rw [← hcur]
      exact th_setTh _ x
    refine ⟨_, th.message tm d w, messageAccept_queues hp hcore hctx hw hinstr hrun hh hst hd hk ht hr hb, ?_, ?_,
      queue_setQueue_self _ _ _, fun x hx => queue_setQueue_other _ _ hx, rfl, rfl, rfl, rfl, eight_fireWords th w, rfl, rfl,
      fun j hj => ?_⟩
    · refine (congrArg Thread.status (hown _)).trans ((step_status _ _).trans ?_)
      exact congrArg Thread.status (again_th hcore hctx)
    · exact (hown _).symm ▸ goes_step (s.again tid p).cur th
    · have hne : j ≠ (s.again tid p).cur.tid := hcur.symm ▸ hj
      exact (thread_setTh_other _ j _ hne).trans (thread_setThread_other _ _ _ _ hj)

/-- Settles O25: an MCALL stands at its first entry or ends; what is issued again completes as its instruction does. -/
theorem macrosAndWakes : Obligations.MacrosAndWakes := ⟨macroCall, bundlesExecuteAgain⟩

end Sys2Proof.Machine
end

section
/-!
SUPPORT. Rounding of exact values of either sign (R15, R30, R31): what `roundMag`, `roundDy` and `roundSum` give is the value rounded once.
-/

namespace Sys2Proof.Machine

open Sys2Proof.Spec

/-! ## The neighbour that a mode names -/

/-- The code that a mode names of the floor and the next code, for a magnitude with a sign. -/
def chosenOf (r : Rnd) (l : BitVec 32) (neg : Bool) (c num den : Nat) : Nat :=
  if roundsUp r l neg (c % 2 = 1) num den then c + 1 else c

theorem roundMag_eq (f : FFmt) (r : Rnd) (l : BitVec 32) (neg : Bool) (n d : Nat) :
    roundMag f r l neg n d =
      (let c := chosenOf r l neg (magFloor f n d).1 (magFloor f n d).2.1 (magFloor f n d).2.2
       (if neg then f.sign else 0) + if c > f.top then overflowCode f r neg else c) := rfl

section Chosen

variable {f : FFmt} {r : Rnd} {l : BitVec 32} {x : ℚ} {c num den : Nat}

theorem IsFloor.den_pos (h : IsFloor f x c num den) : 0 < den := Nat.zero_lt_of_lt h.1

theorem magRat_gap_pos (f : FFmt) (c : Nat) : 0 < magRat f (c + 1) - magRat f c :=
  sub_pos.mpr (magRat_strictMono f c.lt_succ_self)

/-- The rest over the distance to the next value. -/
theorem IsFloor.rest_div (h : IsFloor f x c num den) : (x - magRat f c) / (magRat f (c + 1) - magRat f c) = num / den := by
  rw [div_eq_iff (magRat_gap_pos f c).ne', sub_eq_iff_eq_add']
  exact h.2

theorem IsFloor.rest_eq_zero_iff (h : IsFloor f x c num den) : x - magRat f c = 0 ↔ num = 0 := by
  rw [sub_eq_zero]
  exact h.eq_iff

/-- Twice the rest against the distance. -/
theorem IsFloor.gap_lt_iff (h : IsFloor f x c num den) :
    magRat f (c + 1) - magRat f c < 2 * (x - magRat f c) ↔ den < 2 * num := by
  have hden : (0 : ℚ) < den := by exact_mod_cast h.den_pos
  rw [← one_lt_div (magRat_gap_pos f c), mul_div_assoc, h.rest_div, ← mul_div_assoc, one_lt_div hden]
  exact_mod_cast Iff.rfl

theorem IsFloor.gap_eq_iff (h : IsFloor f x c num den) :
    magRat f (c + 1) - magRat f c = 2 * (x - magRat f c) ↔ 2 * num = den := by
  have hden : (den : ℚ) ≠ 0 := by exact_mod_cast h.den_pos.ne'
  rw [eq_comm, ← div_eq_one_iff_eq (magRat_gap_pos f c).ne', mul_div_assoc, h.rest_div, ← mul_div_assoc, div_eq_one_iff_eq hden]
  exact_mod_cast Iff.rfl

/-- The discarded 32 bits. -/
theorem IsFloor.floor_rest (h : IsFloor f x c num den) :
    ⌊(x - magRat f c) / (magRat f (c + 1) - magRat f c) * 2 ^ 32⌋ = ((num * 2 ^ 32 / den : Nat) : Int) := by
  have hcast : (num : ℚ) * 2 ^ 32 / den = ((num * 2 ^ 32 : Nat) : ℚ) / (den : Nat) := by
    push_cast
    rfl
  rw [h.rest_div, div_mul_eq_mul_div, hcast, Rat.floor_natCast_div_natCast]
  exact (Int.natCast_div _ _).symm

/-- The mode names the code that R30 and R31 do. -/
theorem roundsMag_of_isFloor (hx : x ≠ 0) (h : IsFloor f |x| c num den) :
    RoundsMag f r l x (chosenOf r l (decide (x < 0)) c num den) := by
  refine ⟨c, h.le, h.lt, ?_⟩
  have hpos : (decide (x < 0) = false) ↔ 0 < x := by
    rw [decide_eq_false_iff_not, not_lt]
    exact ⟨fun hle => lt_of_le_of_ne hle hx.symm, le_of_lt⟩
  intro g rest up
  have hup : up ↔ roundsUp r l (decide (x < 0)) (c % 2 = 1) num den = true := by
    cases r with
    | rne => simp [up, roundsUp, g, rest, h.gap_lt_iff, h.gap_eq_iff]
    | rz => simp [up, roundsUp]
    | ru =>
      rw [show up = (rest ≠ 0 ∧ 0 < x) from rfl, ← hpos]
      simp [roundsUp, rest, h.rest_eq_zero_iff]
    | rd => simp [up, roundsUp, rest, h.rest_eq_zero_iff]
    | rs =>
      simp only [up, roundsUp, rest, g, h.floor_rest, ne_eq, h.rest_eq_zero_iff]
      generalize num * 2 ^ 32 / den = bits
      rw [Bool.and_eq_true, decide_eq_true_eq, decide_eq_true_eq]
      exact and_congr Iff.rfl (by omega)
  unfold chosenOf
  rw [hup]
  exact ⟨fun h => if_pos h, fun h => if_neg h⟩

end Chosen

/-! ## The code that a value rounds to -/

/-- The value of a magnitude with a sign. -/
def signedRat (neg : Bool) (x : ℚ) : ℚ := (if neg then -1 else 1) * x

theorem signedRat_neg_iff {neg : Bool} {x : ℚ} (hx : 0 < x) : decide (signedRat neg x < 0) = neg := by
  cases neg
  · exact decide_eq_false (by simpa [signedRat] using hx.le)
  · exact decide_eq_true (by simpa [signedRat] using hx)

theorem signedRat_lt_zero_iff {neg : Bool} {x : ℚ} (hx : 0 < x) : signedRat neg x < 0 ↔ neg = true := by
  rw [← decide_eq_true_iff (p := signedRat neg x < 0), signedRat_neg_iff hx]

theorem abs_signedRat {neg : Bool} {x : ℚ} (hx : 0 ≤ x) : |signedRat neg x| = x := by
  cases neg <;> simp [signedRat, abs_of_nonneg hx]

theorem signedRat_eq_zero_iff {neg : Bool} {x : ℚ} : signedRat neg x = 0 ↔ x = 0 := by
  cases neg <;> simp [signedRat]

section Rounded

variable {f : FFmt} (r : Rnd) (l : BitVec 32) (neg : Bool) {n d : Nat}

/-- The code chosen in an exponent range with no upper end. -/
def unboundedMag (f : FFmt) (r : Rnd) (l : BitVec 32) (neg : Bool) (n d : Nat) : Nat :=
  chosenOf r l neg (magFloor f n d).1 (magFloor f n d).2.1 (magFloor f n d).2.2

theorem roundsMag_unboundedMag (f : FFmt) (hn : 0 < n) (hd : 0 < d) :
    RoundsMag f r l (signedRat neg ((n : ℚ) / d)) (unboundedMag f r l neg n d) := by
  have hx : (0 : ℚ) < (n : ℚ) / d := by positivity
  have hfloor := magFloor_isFloor f hn hd
  rw [← abs_signedRat (neg := neg) hx.le] at hfloor
  have h := roundsMag_of_isFloor (r := r) (l := l) (signedRat_eq_zero_iff.not.2 hx.ne') hfloor
  rwa [signedRat_neg_iff hx] at h

/-- A value rounds to a code of a format with infinities as R15 and R31 say, beyond its range too. -/
theorem roundsTo_roundMag (hk : f.kind = .ieee) (hn : 0 < n) (hd : 0 < d) :
    RoundsTo f r l (signedRat neg ((n : ℚ) / d)) (roundMag f r l neg n d) := by
  have hx : (0 : ℚ) < (n : ℚ) / d := by positivity
  have hneg : signedRat neg ((n : ℚ) / d) < 0 ↔ neg = true := signedRat_lt_zero_iff hx
  refine ⟨_, roundsMag_unboundedMag r l neg f hn hd, ?_⟩
  simp only [hneg]
  rw [roundMag_eq]
  dsimp only
  rw [← unboundedMag]
  by_cases hin : unboundedMag f r l neg n d ≤ f.top
  · rw [if_neg (not_lt.2 hin), if_pos hin]
  · rw [if_pos (not_le.1 hin), if_neg hin]
    cases r <;> simp [overflowCode, hk]

/-- Nothing rounds up a zero. -/
theorem unboundedMag_zero (f : FFmt) (d : Nat) : unboundedMag f r l neg 0 d = 0 := by
  cases r <;> simp [unboundedMag, chosenOf, magFloor, roundsUp]

theorem roundMag_zero (f : FFmt) (d : Nat) : roundMag f r l neg 0 d = if neg then f.sign else 0 := by
  rw [roundMag_eq]
  dsimp only
  rw [← unboundedMag, unboundedMag_zero, if_neg (Nat.not_lt_zero _), Nat.add_zero]

/-- A quotient with a sign is rounded once; an exact zero has the sign. -/
theorem exactlyRounded_roundMag (hk : f.kind = .ieee) (n : Nat) (hd : 0 < d) :
    ExactlyRounded f r l (signedRat neg ((n : ℚ) / d)) neg (roundMag f r l neg n d) := by
  have hd' : (d : ℚ) ≠ 0 := by exact_mod_cast hd.ne'
  refine ⟨fun hx => ?_, fun hx => ?_⟩
  · have hn : n ≠ 0 := by
      rintro rfl
      exact hx (signedRat_eq_zero_iff.2 (by simp))
    exact roundsTo_roundMag r l neg hk (Nat.pos_of_ne_zero hn) hd
  · have hn : n = 0 := by
      have h := signedRat_eq_zero_iff.1 hx
      rw [div_eq_zero_iff] at h
      exact_mod_cast h.resolve_right hd'
    rw [hn, roundMag_zero]

theorem asQuot_den_pos (m : Nat) (e : Int) : 0 < (asQuot m e).2 := by
  unfold asQuot
  split
  · exact Nat.one_pos
  · exact Nat.two_pow_pos _

theorem asQuot_div (m : Nat) (e : Int) : ((asQuot m e).1 : ℚ) / (asQuot m e).2 = m * (2 : ℚ) ^ e := by
  unfold asQuot
  split
  case isTrue h =>
    obtain ⟨k, rfl⟩ := Int.eq_ofNat_of_zero_le h
    simp
  case isFalse h =>
    obtain ⟨k, hk⟩ := Int.eq_ofNat_of_zero_le (show 0 ≤ -e by omega)
    obtain rfl : e = -(k : Int) := by omega
    simp [div_eq_mul_inv]

/-- A dyadic value with a sign is rounded once; a zero has the sign. -/
theorem exactlyRounded_roundDy (hk : f.kind = .ieee) (m : Nat) (e : Int) :
    ExactlyRounded f r l (signedRat neg (m * (2 : ℚ) ^ e)) neg (roundDy f r l neg m e) := by
  rw [← asQuot_div]
  exact exactlyRounded_roundMag r l neg hk _ (asQuot_den_pos m e)

theorem signedRat_natAbs (z : Int) (x : ℚ) : signedRat (decide (z < 0)) (z.natAbs * x) = z * x := by
  by_cases hz : z < 0
  · rw [signedRat, decide_eq_true hz, if_pos rfl, ← mul_assoc]
    congr 1
    rw [Nat.cast_natAbs, abs_of_neg hz]
    simp
  · rw [signedRat, decide_eq_false hz, if_neg Bool.false_ne_true, one_mul]
    congr 1
    rw [Nat.cast_natAbs, abs_of_nonneg (not_lt.1 hz)]

/-- A dyadic sum is rounded once; an exact zero has the sign named. -/
theorem exactlyRounded_roundSum (hk : f.kind = .ieee) (zs : Bool) (z e : Int) :
    ExactlyRounded f r l (z * (2 : ℚ) ^ e) zs (roundSum f r l zs z e) := by
  unfold roundSum
  split
  case isTrue hz =>
    rw [hz, Int.cast_zero, zero_mul]
    exact ⟨fun h => absurd rfl h, fun _ => rfl⟩
  case isFalse hz =>
    have hx : (z : ℚ) * (2 : ℚ) ^ e ≠ 0 := mul_ne_zero (by exact_mod_cast hz) (zpow_ne_zero e two_ne_zero)
    have h := exactlyRounded_roundDy r l (decide (z < 0)) hk z.natAbs e
    rw [signedRat_natAbs] at h
    exact ⟨h.1, fun h0 => absurd h0 hx⟩

end Rounded

end Sys2Proof.Machine
end

section
/-!
SUPPORT. Sums, products and quotients of finite values and of infinities (R15): the exact result rounded once.
-/

namespace Sys2Proof.Machine

open Sys2Proof.Spec

/-! ## Codes and their values (R14) -/

section Codes

variable {f : FFmt} {c : Nat}

theorem decode_finite (h : finite f c) :
    f.decode c = .fin (minus f c) (f.magValue (c % f.sign)).1 (f.magValue (c % f.sign)).2 := by
  unfold FFmt.decode
  dsimp only
  rw [if_pos (show c % f.sign ≤ f.top from h)]
  rfl

theorem codeRat_eq (f : FFmt) (c : Nat) :
    codeRat f c = signedRat (minus f c) ((f.magValue (c % f.sign)).1 * (2 : ℚ) ^ (f.magValue (c % f.sign)).2) := rfl

theorem codeRat_eq_zero_iff (f : FFmt) (c : Nat) : codeRat f c = 0 ↔ (f.magValue (c % f.sign)).1 = 0 := by
  rw [codeRat_eq, signedRat_eq_zero_iff, mul_eq_zero]
  have h : (2 : ℚ) ^ (f.magValue (c % f.sign)).2 ≠ 0 := zpow_ne_zero _ two_ne_zero
  rw [or_iff_left h, Nat.cast_eq_zero]

theorem isNaN_of_finite (h : finite f c) : ¬(f.decode c).isNaN = true := by
  rw [decode_finite h]
  exact Bool.false_ne_true

/-- The code of an infinity. -/
def infCode (f : FFmt) (neg : Bool) : Nat := (if neg then f.sign else 0) + f.top + 1

theorem into_inf (hk : f.kind = .ieee) (r : Rnd) (l : BitVec 32) (neg : Bool) : (FVal.inf neg).into f r l = infCode f neg := by
  rw [FVal.into, if_pos hk, infCode, Nat.add_assoc]

theorem decode_infCode (hk : f.kind = .ieee) (ht : f.top + 1 < f.sign) (neg : Bool) : f.decode (infCode f neg) = .inf neg := by
  have hmod : infCode f neg % f.sign = f.top + 1 := by
    cases neg
    · exact (congrArg (· % f.sign) (by simp [infCode])).trans (Nat.mod_eq_of_lt ht)
    · rw [infCode, if_pos rfl, Nat.add_assoc, Nat.add_mod_left, Nat.mod_eq_of_lt ht]
  have hdiv : (infCode f neg / f.sign % 2 = 1) ↔ neg = true := by
    have hpos : 0 < f.sign := by omega
    cases neg
    · simp [infCode, Nat.div_eq_of_lt ht]
    · simp [infCode, Nat.add_assoc, Nat.add_div_left _ hpos, Nat.div_eq_of_lt ht]
  unfold FFmt.decode
  dsimp only
  rw [hmod, if_neg (by omega), if_pos ⟨hk, rfl⟩]
  cases neg <;> simp [hdiv]

end Codes

/-! ## Operations on codes that are no NaN -/

section NoNaN

variable {f : FFmt} {r : Rnd} {l : BitVec 32} {a b c : Nat}

theorem firstNaN_none {t : List Nat} (h : ∀ c ∈ t, ¬(f.decode c).isNaN = true) : firstNaN f t = none := by
  induction t with
  | nil => rfl
  | cons c t ih =>
    rw [firstNaN_cons_of_not_nan (h c List.mem_cons_self)]
    exact ih fun c' hc' => h c' (List.mem_cons_of_mem c hc')

theorem firstNaN_pair (ha : ¬(f.decode a).isNaN = true) (hb : ¬(f.decode b).isNaN = true) : firstNaN f [a, b] = none :=
  firstNaN_none (by simp [ha, hb])

theorem fAdd_eq (ha : ¬(f.decode a).isNaN = true) (hb : ¬(f.decode b).isNaN = true) :
    fAdd f r l a b = (addVals f r l (f.decode a) (f.decode b)).getD f.canonNaN := by
  rw [fAdd, firstNaN_pair ha hb, Option.getD_none]

theorem fSub_eq (ha : ¬(f.decode a).isNaN = true) (hb : ¬(f.decode b).isNaN = true) :
    fSub f r l a b = (addVals f r l (f.decode a) (f.decode b).negate).getD f.canonNaN := by
  rw [fSub, firstNaN_pair ha hb, Option.getD_none]

theorem fMul_eq (ha : ¬(f.decode a).isNaN = true) (hb : ¬(f.decode b).isNaN = true) :
    fMul f r l a b = ((mulVals (f.decode a) (f.decode b)).map (FVal.into f r l)).getD f.canonNaN := by
  rw [fMul, firstNaN_pair ha hb, Option.getD_none]

theorem fFma_eq (ha : ¬(f.decode a).isNaN = true) (hb : ¬(f.decode b).isNaN = true) (hc : ¬(f.decode c).isNaN = true) :
    fFma f r l a b c =
      ((mulVals (f.decode a) (f.decode b)).bind fun p => addVals f r l p (f.decode c)).getD f.canonNaN := by
  rw [fFma, firstNaN_none (by simp [ha, hb, hc]), Option.getD_none]

end NoNaN

/-! ## Exact sums, products and quotients -/

section Exact

variable {f : FFmt} (hk : f.kind = .ieee) (r : Rnd) (l : BitVec 32) (s t : Bool) (m k : Nat) (e g : Int)

theorem signedRat_not (s : Bool) (x : ℚ) : signedRat (!s) x = -signedRat s x := by
  cases s <;> simp [signedRat]

theorem signedRat_mul (s t : Bool) (x y : ℚ) : signedRat (s ^^ t) (x * y) = signedRat s x * signedRat t y := by
  cases s <;> cases t <;> simp [signedRat]

theorem signedRat_div (s t : Bool) (x y : ℚ) : signedRat (s ^^ t) (x / y) = signedRat s x / signedRat t y := by
  cases s <;> cases t <;> simp [signedRat, neg_div, div_neg]

/-- A value at an exponent no greater than its own. -/
theorem signedAt_mul {e0 : Int} (h : e0 ≤ e) : (signedAt e0 s m e : ℚ) * (2 : ℚ) ^ e0 = signedRat s (m * (2 : ℚ) ^ e) := by
  have hpow : (2 : ℚ) ^ (e - e0).toNat * (2 : ℚ) ^ e0 = (2 : ℚ) ^ e := by
    rw [← zpow_natCast, Int.toNat_of_nonneg (by omega), ← zpow_add₀ two_ne_zero, sub_add_cancel]
  rw [← hpow]
  cases s <;> simp [signedAt, signedRat, mul_assoc]

theorem finAdd_value :
    ((finAdd (s, m, e) (t, k, g)).1 : ℚ) * (2 : ℚ) ^ (finAdd (s, m, e) (t, k, g)).2 =
      signedRat s (m * (2 : ℚ) ^ e) + signedRat t (k * (2 : ℚ) ^ g) := by
  rw [← signedAt_mul s m e (min_le_left e g), ← signedAt_mul t k g (min_le_right e g), ← add_mul]
  simp [finAdd]

/-- A sum of two values of one sign is zero only where both are. -/
theorem sum_eq_zero_iff (s : Bool) {x y : ℚ} (hx : 0 ≤ x) (hy : 0 ≤ y) : signedRat s x + signedRat s y = 0 ↔ x = 0 ∧ y = 0 := by
  rw [← add_eq_zero_iff_of_nonneg hx hy]
  cases s
  · simp [signedRat]
  · have hneg : signedRat true x + signedRat true y = -(x + y) := by
      simp only [signedRat, if_true]
      ring
    rw [hneg, neg_eq_zero]

theorem exactlyRounded_of_sign {x : ℚ} {z z' : Bool} {c : Nat} (h : ExactlyRounded f r l x z c) (hz : x = 0 → z = z') :
    ExactlyRounded f r l x z' c :=
  ⟨h.1, fun h0 => hz h0 ▸ h.2 h0⟩

include hk in
/-- The sum of two finite values is rounded once, and an exact zero has the sign of IEEE 754. -/
theorem addVals_finite :
    ∃ c, addVals f r l (.fin s m e) (.fin t k g) = some c ∧
      ExactlyRounded f r l (signedRat s (m * (2 : ℚ) ^ e) + signedRat t (k * (2 : ℚ) ^ g))
        (if s = t then s else decide (r = .rd)) c := by
  refine ⟨_, rfl, ?_⟩
  rw [← finAdd_value]
  refine exactlyRounded_of_sign r l (exactlyRounded_roundSum r l hk _ _ _) fun h0 => ?_
  rw [finAdd_value] at h0
  by_cases hst : s = t
  · subst hst
    have hz := (sum_eq_zero_iff s (by positivity) (by positivity)).1 h0
    have hm : m = 0 := by simpa [zpow_ne_zero] using hz.1
    have hk0 : k = 0 := by simpa [zpow_ne_zero] using hz.2
    simp [hm, hk0]
  · simp [hst]

include hk in
theorem exactlyRounded_product :
    ExactlyRounded f r l (signedRat s (m * (2 : ℚ) ^ e) * signedRat t (k * (2 : ℚ) ^ g)) (s ^^ t)
      ((FVal.fin (s ^^ t) (m * k) (e + g)).into f r l) := by
  have h := exactlyRounded_roundDy r l (s ^^ t) hk (m * k) (e + g)
  rw [← signedRat_mul]
  rwa [Nat.cast_mul, zpow_add₀ two_ne_zero, mul_mul_mul_comm] at h

include hk in
theorem exactlyRounded_quotient (hk0 : k ≠ 0) :
    ExactlyRounded f r l (signedRat s (m * (2 : ℚ) ^ e) / signedRat t (k * (2 : ℚ) ^ g)) (s ^^ t)
      (roundMag f r l (s ^^ t) ((asQuot m e).1 * (asQuot k g).2) ((asQuot m e).2 * (asQuot k g).1)) := by
  have hnum : 0 < (asQuot k g).1 := by
    unfold asQuot
    split
    · exact Nat.mul_pos (Nat.pos_of_ne_zero hk0) (Nat.two_pow_pos _)
    · exact Nat.pos_of_ne_zero hk0
  have h := exactlyRounded_roundMag r l (s ^^ t) hk ((asQuot m e).1 * (asQuot k g).2) (Nat.mul_pos (asQuot_den_pos m e) hnum)
  rwa [Nat.cast_mul, Nat.cast_mul, ← div_div_div_eq, asQuot_div, asQuot_div, signedRat_div] at h

end Exact

/-! ## Finite operands and infinities -/

section Finite

variable {f : FFmt} (hk : f.kind = .ieee) (ht : f.top + 1 < f.sign) (r : Rnd) (l : BitVec 32) {a b o : Nat}

include hk in
theorem fAdd_finite (ha : finite f a) (hb : finite f b) :
    ExactlyRounded f r l (codeRat f a + codeRat f b) (if minus f a = minus f b then minus f a else decide (r = .rd)) (fAdd f r l a b) := by
  obtain ⟨c, hc, hround⟩ := addVals_finite hk r l (minus f a) (minus f b) _ _ _ _
  rw [fAdd_eq (isNaN_of_finite ha) (isNaN_of_finite hb), decode_finite ha, decode_finite hb, hc]
  exact hround

include hk in
theorem fSub_finite (ha : finite f a) (hb : finite f b) :
    ExactlyRounded f r l (codeRat f a - codeRat f b) (if minus f a ≠ minus f b then minus f a else decide (r = .rd))
      (fSub f r l a b) := by
  obtain ⟨c, hc, hround⟩ := addVals_finite hk r l (minus f a) (!minus f b) _ _ _ _
  rw [fSub_eq (isNaN_of_finite ha) (isNaN_of_finite hb), decode_finite ha, decode_finite hb, FVal.negate, hc]
  rw [signedRat_not, ← sub_eq_add_neg, ← codeRat_eq, ← codeRat_eq] at hround
  refine exactlyRounded_of_sign r l hround fun _ => ?_
  cases minus f a <;> cases minus f b <;> rfl

include hk in
theorem fMul_finite (ha : finite f a) (hb : finite f b) :
    ExactlyRounded f r l (codeRat f a * codeRat f b) (minus f a ^^ minus f b) (fMul f r l a b) := by
  rw [fMul_eq (isNaN_of_finite ha) (isNaN_of_finite hb), decode_finite ha, decode_finite hb]
  exact exactlyRounded_product hk r l (minus f a) (minus f b) _ _ _ _

include hk in
theorem fFma_finite (ha : finite f a) (hb : finite f b) (ho : finite f o) :
    ExactlyRounded f r l (codeRat f a * codeRat f b + codeRat f o)
      (if (minus f a ^^ minus f b) = minus f o then minus f o else decide (r = .rd)) (fFma f r l a b o) := by
  obtain ⟨c, hc, hround⟩ := addVals_finite hk r l (minus f a ^^ minus f b) (minus f o)
    ((f.magValue (a % f.sign)).1 * (f.magValue (b % f.sign)).1) (f.magValue (o % f.sign)).1
    ((f.magValue (a % f.sign)).2 + (f.magValue (b % f.sign)).2) (f.magValue (o % f.sign)).2
  rw [fFma_eq (isNaN_of_finite ha) (isNaN_of_finite hb) (isNaN_of_finite ho), decode_finite ha, decode_finite hb, decode_finite ho]
  change ExactlyRounded f r l _ _ ((addVals f r l (.fin _ _ _) (.fin _ _ _)).getD _)
  rw [hc]
  rw [Nat.cast_mul, zpow_add₀ two_ne_zero, mul_mul_mul_comm, signedRat_mul] at hround
  refine exactlyRounded_of_sign r l hround fun _ => ?_
  split
  case isTrue h => exact h
  case isFalse => rfl

section Quotient

variable {s t : Bool} {m k : Nat} {e g : Int}

theorem fMul_inf_fin (hx : f.decode a = .inf s) (hy : f.decode b = .fin t k g) :
    fMul f r l a b = if k = 0 then f.canonNaN else (FVal.inf (s ^^ t)).into f r l := by
  rw [fMul_eq (by rw [hx]; exact Bool.false_ne_true) (by rw [hy]; exact Bool.false_ne_true), hx, hy, mulVals]
  split <;> rfl

theorem fMul_fin_inf (hx : f.decode a = .fin s m e) (hy : f.decode b = .inf t) :
    fMul f r l a b = if m = 0 then f.canonNaN else (FVal.inf (s ^^ t)).into f r l := by
  rw [fMul_eq (by rw [hx]; exact Bool.false_ne_true) (by rw [hy]; exact Bool.false_ne_true), hx, hy, mulVals]
  split <;> rfl

theorem firstNaN_getD (ha : ¬(f.decode a).isNaN = true) (hb : ¬(f.decode b).isNaN = true) (c : Nat) :
    (firstNaN f [a, b]).getD c = c := by
  rw [firstNaN_pair ha hb]
  rfl

theorem fDiv_fin_fin (hx : f.decode a = .fin s m e) (hy : f.decode b = .fin t k g) :
    fDiv f r l a b =
      if k = 0 then (if m = 0 then f.canonNaN else (FVal.inf (s ^^ t)).into f r l)
      else roundMag f r l (s ^^ t) ((asQuot m e).1 * (asQuot k g).2) ((asQuot m e).2 * (asQuot k g).1) := by
  rw [fDiv, firstNaN_getD (by rw [hx]; exact Bool.false_ne_true) (by rw [hy]; exact Bool.false_ne_true), hx, hy]

theorem fDiv_inf_inf (hx : f.decode a = .inf s) (hy : f.decode b = .inf t) : fDiv f r l a b = f.canonNaN := by
  rw [fDiv, firstNaN_getD (by rw [hx]; exact Bool.false_ne_true) (by rw [hy]; exact Bool.false_ne_true), hx, hy]

theorem fDiv_inf_fin (hx : f.decode a = .inf s) (hy : f.decode b = .fin t k g) :
    fDiv f r l a b = (FVal.inf (s ^^ t)).into f r l := by
  rw [fDiv, firstNaN_getD (by rw [hx]; exact Bool.false_ne_true) (by rw [hy]; exact Bool.false_ne_true), hx, hy]
  rfl

theorem fDiv_fin_inf (hx : f.decode a = .fin s m e) (hy : f.decode b = .inf t) :
    fDiv f r l a b = if s ^^ t then f.sign else 0 := by
  rw [fDiv, firstNaN_getD (by rw [hx]; exact Bool.false_ne_true) (by rw [hy]; exact Bool.false_ne_true), hx, hy]

end Quotient

include hk in
theorem fDiv_finite (ha : finite f a) (hb : finite f b) :
    (codeRat f b ≠ 0 → ExactlyRounded f r l (codeRat f a / codeRat f b) (minus f a ^^ minus f b) (fDiv f r l a b)) ∧
      (codeRat f b = 0 → codeRat f a ≠ 0 → fDiv f r l a b = infCode f (minus f a ^^ minus f b)) ∧
      (codeRat f b = 0 → codeRat f a = 0 → fDiv f r l a b = f.canonNaN) := by
  rw [fDiv_fin_fin r l (decode_finite ha) (decode_finite hb)]
  simp only [ne_eq, codeRat_eq_zero_iff]
  refine ⟨fun hy => ?_, fun hy hx => ?_, fun hy hx => ?_⟩
  · rw [if_neg hy]
    exact exactlyRounded_quotient hk r l (minus f a) (minus f b) _ _ _ _ hy
  · rw [if_pos hy, if_neg hx, into_inf hk]
  · rw [if_pos hy, if_pos hx]

include hk ht in
theorem infinite_pairs (s t : Bool) :
    fAdd f r l (infCode f s) (infCode f t) = (if s = t then infCode f s else f.canonNaN) ∧
      fSub f r l (infCode f s) (infCode f t) = (if s = t then f.canonNaN else infCode f s) ∧
      fMul f r l (infCode f s) (infCode f t) = infCode f (s ^^ t) ∧ fDiv f r l (infCode f s) (infCode f t) = f.canonNaN := by
  have hs := decode_infCode hk ht
  have hn : ∀ s, ¬(f.decode (infCode f s)).isNaN = true := fun s => by
    rw [hs]
    exact Bool.false_ne_true
  rw [fAdd_eq (hn s) (hn t), fSub_eq (hn s) (hn t), fMul_eq (hn s) (hn t), fDiv_inf_inf r l (hs s) (hs t), hs, hs]
  refine ⟨?_, ?_, congrArg (Option.getD · _) (congrArg some (into_inf hk r l _)), rfl⟩
  · unfold addVals
    cases s <;> cases t <;> simp [into_inf hk]
  · unfold addVals FVal.negate
    cases s <;> cases t <;> simp [into_inf hk]

include hk ht in
theorem infinite_operand (s : Bool) (hb : finite f b) :
    fAdd f r l (infCode f s) b = infCode f s ∧ fAdd f r l b (infCode f s) = infCode f s ∧
      fSub f r l (infCode f s) b = infCode f s ∧ fSub f r l b (infCode f s) = infCode f (!s) ∧
      fMul f r l (infCode f s) b = (if codeRat f b = 0 then f.canonNaN else infCode f (s ^^ minus f b)) ∧
      fMul f r l b (infCode f s) = (if codeRat f b = 0 then f.canonNaN else infCode f (s ^^ minus f b)) ∧
      fDiv f r l (infCode f s) b = infCode f (s ^^ minus f b) ∧
      fDiv f r l b (infCode f s) = (if s ^^ minus f b then f.sign else 0) := by
  have hs := decode_infCode hk ht s
  have hn : ¬(f.decode (infCode f s)).isNaN = true := by
    rw [hs]
    exact Bool.false_ne_true
  have hn' := isNaN_of_finite hb
  rw [fAdd_eq hn hn', fAdd_eq hn' hn, fSub_eq hn hn', fSub_eq hn' hn, fMul_inf_fin r l hs (decode_finite hb),
    fMul_fin_inf r l (decode_finite hb) hs, fDiv_inf_fin r l hs (decode_finite hb), fDiv_fin_inf r l (decode_finite hb) hs, hs,
    decode_finite hb, ← into_inf hk r l s, ← into_inf hk r l (!s), ← into_inf hk r l (s ^^ minus f b), Bool.xor_comm (minus f b)]
  have hzero : ∀ c d : Nat, (if (f.magValue (b % f.sign)).1 = 0 then c else d) = if codeRat f b = 0 then c else d := fun c d =>
    if_congr (codeRat_eq_zero_iff f b).symm rfl rfl
  exact ⟨rfl, rfl, rfl, rfl, hzero _ _, hzero _ _, rfl, rfl⟩

end Finite

end Sys2Proof.Machine
end

section
/-!
SUPPORT. The square root of a code (R15, R31): the root taken to 96 binary places, with a last digit that says whether it is exact, lies
on the same side of every value, middle and RS threshold of a format as the root itself.
-/

namespace Sys2Proof.Machine

open Sys2Proof.Spec

/-! ## The integer square root -/

theorem isqrtLoop_spec (k n r : Nat) (hlo : r ^ 2 ≤ n) (hhi : n < (r + 2 ^ k) ^ 2) :
    (isqrtLoop k n r) ^ 2 ≤ n ∧ n < (isqrtLoop k n r + 1) ^ 2 := by
  induction k generalizing r with
  | zero => exact ⟨hlo, hhi⟩
  | succ k ih =>
    rw [isqrtLoop]
    split
    case isTrue h =>
      refine ih _ (by rwa [Nat.pow_two]) ?_
      rwa [Nat.add_assoc, ← Nat.two_mul, ← Nat.pow_succ']
    case isFalse h => exact ih _ hlo (by rw [Nat.pow_two]; omega)

theorem isqrt_spec (n : Nat) : (isqrt n) ^ 2 ≤ n ∧ n < (isqrt n + 1) ^ 2 := by
  refine isqrtLoop_spec _ n 0 (Nat.zero_le n) ?_
  rw [Nat.zero_add, ← Nat.pow_mul]
  exact Nat.lt_log2_self.trans_le (Nat.pow_le_pow_right (by decide) (by omega))

theorem le_isqrt_iff (n j : Nat) : j ≤ isqrt n ↔ j ^ 2 ≤ n := by
  obtain ⟨hlo, hhi⟩ := isqrt_spec n
  refine ⟨fun h => (Nat.pow_le_pow_left h 2).trans hlo, fun h => ?_⟩
  exact Nat.lt_succ_iff.1 (lt_of_pow_lt_pow_left₀ 2 (Nat.zero_le _) (h.trans_lt hhi))

/-! ## A root and its approximation -/

/-- The root of n, to a last digit that says whether it is exact. -/
def stickyRoot (n : Nat) : Nat := 2 * isqrt n + if isqrt n * isqrt n = n then 0 else 1

theorem double_le_stickyRoot_iff (n j : Nat) : 2 * j ≤ stickyRoot n ↔ j ^ 2 ≤ n := by
  rw [← le_isqrt_iff, stickyRoot]
  split <;> omega

theorem stickyRoot_le_double_iff (n j : Nat) : stickyRoot n ≤ 2 * j ↔ n ≤ j ^ 2 := by
  obtain ⟨hlo, hhi⟩ := isqrt_spec n
  have hmono : ∀ {i k : Nat}, i ≤ k → i ^ 2 ≤ k ^ 2 := fun h => Nat.pow_le_pow_left h 2
  rw [stickyRoot]
  split
  case isTrue h =>
    rw [← Nat.pow_two] at h
    refine ⟨fun hle => h ▸ hmono (by omega), fun hle => ?_⟩
    have := (Nat.pow_le_pow_iff_left two_ne_zero).1 (h.le.trans hle)
    omega
  case isFalse h =>
    rw [← Nat.pow_two] at h
    refine ⟨fun hle => hhi.le.trans (hmono (by omega)), fun hle => ?_⟩
    have hne : ¬j ≤ isqrt n := fun hj => h (le_antisymm hlo (hle.trans (hmono hj)))
    omega

/-- y is a root of x on the grid of u: on the same side of every multiple. -/
def RootOnGrid (u x y : ℚ) : Prop := ∀ j : Nat, (j * u ≤ y ↔ (j * u) ^ 2 ≤ x) ∧ (y ≤ j * u ↔ x ≤ (j * u) ^ 2)

theorem rootOnGrid_stickyRoot (m : Nat) (h : Int) :
    RootOnGrid ((2 : ℚ) ^ (h - 96)) (m * (2 : ℚ) ^ (2 * h)) (stickyRoot (m * 4 ^ 96) * (2 : ℚ) ^ (h - 97)) := by
  intro j
  have hu : (0 : ℚ) < (2 : ℚ) ^ (h - 97) := zpow_pos two_pos _
  have hw : (0 : ℚ) < (2 : ℚ) ^ (2 * (h - 96)) := zpow_pos two_pos _
  have hgrid : (j : ℚ) * (2 : ℚ) ^ (h - 96) = ((2 * j : Nat) : ℚ) * (2 : ℚ) ^ (h - 97) := by
    rw [show h - 96 = h - 97 + 1 by ring, zpow_add_one₀ two_ne_zero]
    push_cast
    ring
  have hsq : ((j : ℚ) * (2 : ℚ) ^ (h - 96)) ^ 2 = ((j ^ 2 : Nat) : ℚ) * (2 : ℚ) ^ (2 * (h - 96)) := by
    rw [mul_pow, mul_comm 2 (h - 96), zpow_mul, Nat.cast_pow]
    rfl
  have hval : (m : ℚ) * (2 : ℚ) ^ (2 * h) = ((m * 4 ^ 96 : Nat) : ℚ) * (2 : ℚ) ^ (2 * (h - 96)) := by
    have h4 : ((4 : ℚ)) ^ 96 = (2 : ℚ) ^ (192 : Int) := by norm_num
    rw [Nat.cast_mul, Nat.cast_pow, Nat.cast_ofNat, h4, mul_assoc, ← zpow_add₀ two_ne_zero]
    congr 2
    ring
  rw [hsq, hval, hgrid, mul_le_mul_iff_left₀ hu, mul_le_mul_iff_left₀ hu, mul_le_mul_iff_left₀ hw, mul_le_mul_iff_left₀ hw,
    Nat.cast_le, Nat.cast_le, Nat.cast_le, Nat.cast_le]
  exact ⟨double_le_stickyRoot_iff _ j, stickyRoot_le_double_iff _ j⟩

section Grid

variable {u x y : ℚ}

theorem RootOnGrid.le_iff (h : RootOnGrid u x y) {t : ℚ} (ht : ∃ j : Nat, t = j * u) : t ≤ y ↔ t ^ 2 ≤ x := by
  obtain ⟨j, rfl⟩ := ht
  exact (h j).1

theorem RootOnGrid.lt_iff (h : RootOnGrid u x y) {t : ℚ} (ht : ∃ j : Nat, t = j * u) : y < t ↔ x < t ^ 2 := by
  rw [← not_le, ← not_le, h.le_iff ht]

theorem RootOnGrid.gt_iff (h : RootOnGrid u x y) {t : ℚ} (ht : ∃ j : Nat, t = j * u) : t < y ↔ t ^ 2 < x := by
  obtain ⟨j, rfl⟩ := ht
  rw [← not_le, ← not_le, (h j).2]

theorem RootOnGrid.eq_iff (h : RootOnGrid u x y) {t : ℚ} (ht : ∃ j : Nat, t = j * u) : t = y ↔ t ^ 2 = x := by
  obtain ⟨j, rfl⟩ := ht
  rw [le_antisymm_iff, le_antisymm_iff, (h j).1, (h j).2]

end Grid

/-! ## The rounded root -/

section Rounded

variable {f : FFmt} {r : Rnd} {l : BitVec 32} {u x y : ℚ} {c num den : Nat}

/-- The 32 discarded bits say in which of the 2^32 parts of the distance y lies. -/
theorem IsFloor.bits_eq_iff (hy : IsFloor f y c num den) (n : Nat) :
    num * 2 ^ 32 / den = n ↔
      magRat f c + (magRat f (c + 1) - magRat f c) * n / 2 ^ 32 ≤ y ∧
        y < magRat f c + (magRat f (c + 1) - magRat f c) * (n + 1) / 2 ^ 32 := by
  have hgap := magRat_gap_pos f c
  have hbits : num * 2 ^ 32 / den = n ↔ ((num * 2 ^ 32 / den : Nat) : Int) = (n : Int) := Nat.cast_inj.symm
  have h32 : (0 : ℚ) < 2 ^ 32 := by positivity
  rw [hbits, ← hy.floor_rest, Int.floor_eq_iff, Int.cast_natCast, div_mul_eq_mul_div]
  refine and_congr ?_ ?_
  · rw [← le_sub_iff_add_le', div_le_iff₀ h32, le_div_iff₀ hgap, mul_comm]
  · rw [← sub_lt_iff_lt_add' (a := y), lt_div_iff₀ h32, div_lt_iff₀ hgap, mul_comm ((n : ℚ) + 1)]

/-- Where the 2^32 parts of the distance between the neighbours of y lie on the grid, y is rounded as the root is. -/
theorem rootRounds_of_grid (hy : IsFloor f y c num den) (h : RootOnGrid u x y) (hc : ∃ j : Nat, magRat f c = j * u)
    (hg : ∃ j : Nat, magRat f (c + 1) - magRat f c = (2 ^ 32 * j : Nat) * u) :
    RootRounds f r l x (chosenOf r l false c num den) := by
  have hgap := magRat_gap_pos f c
  obtain ⟨i, hi⟩ := hc
  obtain ⟨j, hj⟩ := hg
  -- the values on the grid: the neighbours, the middle between them, and the parts of the distance
  have hpart : ∀ n : Nat, ∃ k : Nat, magRat f c + (magRat f (c + 1) - magRat f c) * n / 2 ^ 32 = k * u := fun n =>
    ⟨i + j * n, by rw [hj, hi]; push_cast; ring⟩
  have hnext : ∃ k : Nat, magRat f c + (magRat f (c + 1) - magRat f c) = k * u := ⟨i + 2 ^ 32 * j, by rw [hj, hi]; push_cast; ring⟩
  have hmid : ∃ k : Nat, magRat f c + (magRat f (c + 1) - magRat f c) / 2 = k * u := ⟨i + 2 ^ 31 * j, by rw [hj, hi]; push_cast; ring⟩
  have hrest : num = 0 ↔ (magRat f c) ^ 2 = x := by
    rw [← hy.eq_iff, eq_comm, h.eq_iff ⟨i, hi⟩]
  refine ⟨c, (h.le_iff ⟨i, hi⟩).1 hy.le, (h.lt_iff hnext).1 (by rw [add_sub_cancel]; exact hy.lt), ?_⟩
  intro up
  have hup : up ↔ roundsUp r l false (c % 2 = 1) num den = true := by
    cases r with
    | rne =>
      have hlt : (2 * magRat f c + (magRat f (c + 1) - magRat f c)) ^ 2 < 4 * x ↔ den < 2 * num := by
        have hside := h.gt_iff hmid
        rw [← hy.gap_lt_iff]
        constructor <;> intro h'
        · linarith [hside.2 (by linarith)]
        · linarith [hside.1 (by linarith)]
      have heq : (2 * magRat f c + (magRat f (c + 1) - magRat f c)) ^ 2 = 4 * x ↔ 2 * num = den := by
        have hside := h.eq_iff hmid
        rw [← hy.gap_eq_iff]
        constructor <;> intro h'
        · linarith [hside.2 (by linarith)]
        · linarith [hside.1 (by linarith)]
      simp [up, roundsUp, hlt, heq]
    | rz => simp [up, roundsUp]
    | ru => simp [up, roundsUp, hrest]
    | rd => simp [up, roundsUp]
    | rs =>
      have hbits : ∀ n : Nat, ((magRat f c + (magRat f (c + 1) - magRat f c) * n / 2 ^ 32) ^ 2 ≤ x ∧
          x < (magRat f c + (magRat f (c + 1) - magRat f c) * (n + 1) / 2 ^ 32) ^ 2) ↔ num * 2 ^ 32 / den = n := fun n => by
        have hnext := h.lt_iff (hpart (n + 1))
        push_cast at hnext
        rw [hy.bits_eq_iff, h.le_iff (hpart n), hnext]
      simp only [up, roundsUp, ← and_assoc, hbits, ne_eq, ← hrest]
      simp
  unfold chosenOf
  rw [hup]
  exact ⟨fun h => if_pos h, fun h => if_neg h⟩

/-- The values near y lie on a grid some binary places finer than y. -/
theorem grid_of_isFloor {h : Int} (hfrac : f.frac ≤ 64) (hy : IsFloor f y c num den) (hh : (2 : ℚ) ^ h ≤ y) :
    (∃ j : Nat, magRat f c = j * (2 : ℚ) ^ (h - 96)) ∧
      ∃ j : Nat, magRat f (c + 1) - magRat f c = (2 ^ 32 * j : Nat) * (2 : ℚ) ^ (h - 96) := by
  obtain ⟨k, m, rfl, hlo, hhi⟩ := exists_binade f c
  have hv := magRat_binade f k m hlo (by omega)
  have hn := magRat_binade f k (m + 1) (by omega) (by omega)
  rw [← add_assoc] at hn
  have hy' := hy.lt
  rw [hn] at hy'
  rw [hn, hv]
  generalize f.emin - f.frac + k = e at *
  have hexp : h < f.frac + 1 + e := by
    have hm : ((m + 1 : Nat) : ℚ) ≤ (2 : ℚ) ^ (f.frac + 1) := by
      rw [pow_succ']
      exact_mod_cast hhi
    have hlt : (2 : ℚ) ^ h < (2 : ℚ) ^ ((f.frac + 1 : Nat) + e) := by
      rw [zpow_add₀ two_ne_zero, zpow_natCast]
      exact hh.trans_lt (hy'.trans_le (mul_le_mul_of_nonneg_right hm (zpow_pos two_pos _).le))
    have := (zpow_lt_zpow_iff_right₀ (one_lt_two (α := ℚ))).1 hlt
    omega
  obtain ⟨i, hi⟩ := Int.eq_ofNat_of_zero_le (show 0 ≤ e - (h - 96) - 32 by omega)
  obtain rfl : e = ((32 + i : Nat) : Int) + (h - 96) := by omega
  rw [zpow_add₀ two_ne_zero, zpow_natCast, pow_add]
  exact ⟨⟨m * (2 ^ 32 * 2 ^ i), by push_cast; ring⟩, ⟨2 ^ i, by push_cast; ring⟩⟩

end Rounded

/-! ## The square root of a code -/

section Root

variable {f : FFmt} (r : Rnd) (l : BitVec 32) {a m : Nat} {e : Int}

/-- A significand brought to an even exponent. -/
def evenMag (m : Nat) (e : Int) : Nat := if e % 2 = 0 then m else 2 * m

theorem evenMag_pos (hm : m ≠ 0) : 0 < evenMag m e := by
  unfold evenMag
  split <;> omega

theorem evenMag_mul (m : Nat) (e : Int) : (evenMag m e : ℚ) * (2 : ℚ) ^ (2 * (e / 2)) = m * (2 : ℚ) ^ e := by
  unfold evenMag
  split
  case isTrue h => rw [show 2 * (e / 2) = e by omega]
  case isFalse h =>
    have hodd : (2 : ℚ) ^ e = (2 : ℚ) ^ (2 * (e / 2)) * 2 := by
      rw [← zpow_add_one₀ two_ne_zero]
      congr 1
      omega
    rw [hodd]
    push_cast
    ring

theorem fSqrt_fin (hx : f.decode a = .fin false m e) (hm : m ≠ 0) :
    fSqrt f r l a = roundDy f r l false (stickyRoot (evenMag m e * 4 ^ 96)) (e / 2 - 97) := by
  have hn : firstNaN f [a] = none := firstNaN_none (by simp [hx, FVal.isNaN])
  obtain ⟨k, rfl⟩ := Nat.exists_eq_succ_of_ne_zero hm
  rw [fSqrt, hn, hx, Option.getD_none]
  unfold evenMag
  by_cases he : e % 2 = 0
  · simp only [if_pos he]
    rfl
  · rw [show e / 2 = (e - 1) / 2 by omega]
    simp only [if_neg he]
    rfl

theorem fSqrt_minus (hx : f.decode a = .fin true m e) (hm : m ≠ 0) : fSqrt f r l a = f.canonNaN := by
  have hn : firstNaN f [a] = none := firstNaN_none (by simp [hx, FVal.isNaN])
  obtain ⟨k, rfl⟩ := Nat.exists_eq_succ_of_ne_zero hm
  rw [fSqrt, hn, hx, Option.getD_none]
  rfl

theorem fSqrt_zero {s : Bool} (hx : f.decode a = .fin s 0 e) : fSqrt f r l a = if s then f.sign else 0 := by
  have hn : firstNaN f [a] = none := firstNaN_none (by simp [hx, FVal.isNaN])
  rw [fSqrt, hn, hx, Option.getD_none]
  cases s <;> rfl

theorem fSqrt_inf {s : Bool} (hx : f.decode a = .inf s) : fSqrt f r l a = if s then f.canonNaN else f.top + 1 := by
  have hn : firstNaN f [a] = none := firstNaN_none (by simp [hx, FVal.isNaN])
  rw [fSqrt, hn, hx, Option.getD_none]
  cases s <;> rfl

/-- The rounded root of a value no greater than the greatest one is finite. -/
theorem rootRounds_le_top {x : ℚ} {c : Nat} (htop : 1 < magRat f f.top) (hx : x ≤ magRat f f.top) (h : RootRounds f r l x c) :
    c ≤ f.top := by
  obtain ⟨lo, hle, -, hup, hdown⟩ := h
  have hlo : lo < f.top := by
    by_contra hge
    have hv := (magRat_strictMono f).monotone (not_lt.1 hge)
    nlinarith
  obtain hc | hc := (em _).imp hup hdown <;> omega

/-- The approximated root is at least the power of two at the half exponent. -/
theorem zpow_le_stickyRoot (h : Int) (hm : m ≠ 0) : (2 : ℚ) ^ h ≤ stickyRoot (m * 4 ^ 96) * (2 : ℚ) ^ (h - 97) := by
  have hone : (2 : ℚ) ^ h = ((2 ^ 96 : Nat) : ℚ) * (2 : ℚ) ^ (h - 96) := by
    rw [Nat.cast_pow, Nat.cast_ofNat, ← zpow_natCast, ← zpow_add₀ two_ne_zero]
    congr 1
    omega
  have hsq : ((2 : ℚ) ^ h) ^ 2 ≤ m * (2 : ℚ) ^ (2 * h) := by
    rw [mul_comm 2 h, zpow_mul]
    exact le_mul_of_one_le_left (sq_nonneg _) (Nat.one_le_cast.2 (Nat.one_le_iff_ne_zero.2 hm))
  exact ((rootOnGrid_stickyRoot m h).le_iff ⟨_, hone⟩).2 hsq

/-- The root of a positive dyadic value within the range is rounded once. -/
theorem rootRounds_roundDy (hfrac : f.frac ≤ 64) (htop : 1 < magRat f f.top) (hm : m ≠ 0) (hx : m * (2 : ℚ) ^ e ≤ magRat f f.top) :
    RootRounds f r l (m * (2 : ℚ) ^ e) (roundDy f r l false (stickyRoot (evenMag m e * 4 ^ 96)) (e / 2 - 97)) := by
  have hgrid := rootOnGrid_stickyRoot (evenMag m e) (e / 2)
  have hone := zpow_le_stickyRoot (e / 2) (evenMag_pos (e := e) hm).ne'
  have hpos := (zpow_pos (two_pos (α := ℚ)) (e / 2)).trans_le hone
  rw [evenMag_mul] at hgrid
  unfold roundDy
  rw [← asQuot_div (stickyRoot (evenMag m e * 4 ^ 96))] at hgrid hone hpos
  have hd := asQuot_den_pos (stickyRoot (evenMag m e * 4 ^ 96)) (e / 2 - 97)
  generalize asQuot (stickyRoot (evenMag m e * 4 ^ 96)) (e / 2 - 97) = q at *
  have hn : 0 < q.1 := by
    refine Nat.pos_of_ne_zero fun h0 => ?_
    simp [h0] at hpos
  have hfloor := magFloor_isFloor f hn hd
  obtain ⟨hc, hg⟩ := grid_of_isFloor hfrac hfloor hone
  have hround := rootRounds_of_grid (r := r) (l := l) hfloor hgrid hc hg
  have hle := rootRounds_le_top r l htop hx hround
  rw [roundMag_eq]
  dsimp only
  rwa [if_neg (not_lt.2 hle), if_neg Bool.false_ne_true, Nat.zero_add]

end Root

end Sys2Proof.Machine
end

section
/-!
SUPPORT. The arithmetic of finite operands and infinities in FP32, FP16 and BF16 (R15).
-/

namespace Sys2Proof.Machine

open Sys2Proof.Spec

/-! ## The square root of finite codes -/

section Root

variable {f : FFmt} (r : Rnd) (l : BitVec 32) {a : Nat}

theorem magRat_eq_zero_iff (f : FFmt) (c : Nat) : magRat f c = 0 ↔ c = 0 := by
  rw [← magRat_zero f]
  exact (magRat_strictMono f).injective.eq_iff

theorem codeRat_eq_signed (f : FFmt) (c : Nat) : codeRat f c = signedRat (minus f c) (magRat f (c % f.sign)) := rfl

theorem magRat_nonneg (f : FFmt) (c : Nat) : 0 ≤ magRat f c := by
  unfold magRat
  positivity

/-- A code of the format's width with value zero is one of the two zeros. -/
theorem eq_zero_code (hw : a < 2 * f.sign) (hx : codeRat f a = 0) : a = if minus f a then f.sign else 0 := by
  rw [codeRat_eq_signed, signedRat_eq_zero_iff, magRat_eq_zero_iff] at hx
  have hdiv := Nat.div_add_mod a f.sign
  have hlt : a / f.sign < 2 := Nat.div_lt_of_lt_mul (by rwa [mul_comm] at hw)
  have hq := Nat.le_one_iff_eq_zero_or_eq_one.1 (Nat.lt_succ_iff.1 hlt)
  rw [hx, Nat.add_zero] at hdiv
  unfold minus
  generalize a / f.sign = q at *
  obtain rfl | rfl := hq <;> simpa using hdiv.symm

theorem minus_of_neg (hx : codeRat f a < 0) : minus f a = true := by
  refine Bool.eq_true_of_not_eq_false fun h => hx.not_ge ?_
  rw [codeRat_eq_signed, h]
  simpa [signedRat] using magRat_nonneg f _

theorem minus_of_pos (hx : 0 < codeRat f a) : minus f a = false := by
  refine Bool.eq_false_of_not_eq_true fun h => hx.not_ge ?_
  rw [codeRat_eq_signed, h]
  simpa [signedRat] using magRat_nonneg f _

theorem fSqrt_of_zero (hw : a < 2 * f.sign) (ha : finite f a) (hx : codeRat f a = 0) : fSqrt f r l a = a := by
  have hd := decode_finite ha
  rw [(codeRat_eq_zero_iff f a).1 hx] at hd
  rw [fSqrt_zero r l hd, ← eq_zero_code hw hx]

theorem fSqrt_of_neg (ha : finite f a) (hx : codeRat f a < 0) : fSqrt f r l a = f.canonNaN := by
  have hd := decode_finite ha
  rw [minus_of_neg hx] at hd
  exact fSqrt_minus r l hd ((codeRat_eq_zero_iff f a).not.1 hx.ne)

theorem fSqrt_of_pos (hfrac : f.frac ≤ 64) (htop : 1 < magRat f f.top) (ha : finite f a) (hx : 0 < codeRat f a) :
    RootRounds f r l (codeRat f a) (fSqrt f r l a) := by
  have hm := (codeRat_eq_zero_iff f a).not.1 hx.ne'
  have hd := decode_finite ha
  rw [minus_of_pos hx] at hd
  have hval : codeRat f a = magRat f (a % f.sign) := by
    rw [codeRat_eq_signed, minus_of_pos hx, signedRat, if_neg Bool.false_ne_true, one_mul]
  rw [hval, fSqrt_fin r l hd hm]
  exact rootRounds_roundDy r l hfrac htop hm ((magRat_strictMono f).monotone ha)

theorem fSqrt_infCode (hk : f.kind = .ieee) (ht : f.top + 1 < f.sign) (s : Bool) :
    fSqrt f r l (infCode f s) = if s then f.canonNaN else infCode f s := by
  rw [fSqrt_inf r l (decode_infCode hk ht s)]
  cases s <;> simp [infCode]

end Root

/-! ## The scalar formats (R14) -/

/-- What the arithmetic needs of a format with infinities. -/
structure Scalar (f : FFmt) (ex fr : Nat) : Prop where
  ieee : f.kind = .ieee
  room : f.top + 1 < f.sign
  wide : 2 ^ (1 + ex + fr) = 2 * f.sign
  nan : f.canonNaN = (2 ^ ex - 1) * 2 ^ fr + 2 ^ (fr - 1)
  frac : f.frac ≤ 64
  range : 1 < magRat f f.top

theorem scalar_of_mem {p : Elem × Nat × Nat} (hp : p ∈ scalarFormats) : Scalar (elemFmt p.1) p.2.1 p.2.2 := by
  simp only [scalarFormats, List.mem_cons, List.not_mem_nil, or_false] at hp
  obtain rfl | rfl | rfl := hp
  all_goals
    refine ⟨rfl, by decide, by decide, by decide, by decide, ?_⟩
    norm_num [magRat, FFmt.magValue, elemFmt, fp32, fp16, bf16, FFmt.emin]

/-- The exact results of R15 are rounded once, and the invalid operations give the canonical NaN. -/
theorem finiteArithmetic : FiniteArithmetic := by
  intro r l a b o p hp f w x y z sa sb so inf nan rounds ha hb ho
  obtain ⟨hk, ht, hwide, hnan, hfrac, hrange⟩ := scalar_of_mem hp
  have hinf : inf = infCode f := rfl
  have hw : a < 2 * f.sign := hwide ▸ ha
  rw [hinf, ← show f.canonNaN = nan from hnan]
  refine ⟨fun hfa hfb => ?_, fun hfa => ?_, fun s t => ?_⟩
  · obtain ⟨hdiv, hdivZero, hdivBoth⟩ := fDiv_finite hk r l hfa hfb
    exact ⟨fAdd_finite hk r l hfa hfb, fSub_finite hk r l hfa hfb, fMul_finite hk r l hfa hfb, fFma_finite hk r l hfa hfb,
      hdiv, hdivZero, hdivBoth⟩
  · exact ⟨fSqrt_of_zero r l hw hfa, fSqrt_of_neg r l hfa, fSqrt_of_pos r l hfrac hrange hfa⟩
  · obtain ⟨hadd, hsub, hmul, hdiv⟩ := infinite_pairs hk ht r l s t
    exact ⟨hadd, hsub, hmul, hdiv, fSqrt_infCode r l hk ht s, infinite_operand hk ht r l s⟩

end Sys2Proof.Machine
end

section
/-!
SUPPORT. Conversions of finite values (R15, R17): a value that the format holds is kept, and every other one is rounded once.
-/

namespace Sys2Proof.Machine

open Sys2Proof.Spec

/-! ## Values that a format holds -/

section Exact

variable {f g : FFmt} (r : Rnd) (l : BitVec 32)

theorem roundsUp_zero (neg odd : Bool) {den : Nat} (hden : 0 < den) : roundsUp r l neg odd 0 den = false := by
  cases r <;> simp [roundsUp, hden.ne]

/-- A value of the format within its range is its own rounding. -/
theorem roundMag_exact (neg : Bool) {n d c : Nat} (hd : 0 < d) (hc : c ≤ f.top) (hx : (n : ℚ) / d = magRat f c) :
    roundMag f r l neg n d = (if neg then f.sign else 0) + c := by
  obtain rfl | hn := Nat.eq_zero_or_pos n
  · rw [Nat.cast_zero, zero_div, eq_comm, magRat_eq_zero_iff] at hx
    rw [hx, roundMag_zero, Nat.add_zero]
  · have h := magFloor_isFloor f hn hd
    have hcode : (magFloor f n d).1 = c := by
      have hle := h.le
      have hlt := h.lt
      rw [hx, (magRat_strictMono f).le_iff_le] at hle
      rw [hx, (magRat_strictMono f).lt_iff_lt] at hlt
      omega
    have hnum : (magFloor f n d).2.1 = 0 := h.eq_iff.1 (by rw [hx, hcode])
    rw [roundMag_eq, chosenOf, hnum, roundsUp_zero r l _ _ h.den_pos, hcode]
    dsimp only
    rw [if_neg Bool.false_ne_true, if_neg (not_lt.2 hc)]

/-- A significand of the format's length at an exponent of its range has a code. -/
theorem exists_magRat_eq (f : FFmt) {m : Nat} {e : Int} (hm : m < 2 ^ (f.frac + 1)) (he : f.emin - f.frac ≤ e) :
    ∃ c, magRat f c = m * (2 : ℚ) ^ e := by
  obtain rfl | hpos := Nat.eq_zero_or_pos m
  · exact ⟨0, by simp⟩
  · obtain ⟨j, hj⟩ := Int.eq_ofNat_of_zero_le (Int.sub_nonneg_of_le he)
    have hlog : m.log2 ≤ f.frac := Nat.lt_succ_iff.1 ((Nat.log2_lt hpos.ne').2 hm)
    have hlo := Nat.log2_self_le hpos.ne'
    have hhi : m < 2 ^ (m.log2 + 1) := Nat.lt_log2_self
    -- the significand moves up until it is normal or the exponent is the least one
    obtain ⟨s, hs⟩ : ∃ s, s = min (f.frac - m.log2) j := ⟨_, rfl⟩
    refine ⟨(j - s) * 2 ^ f.frac + m * 2 ^ s, ?_⟩
    rw [magRat_binade f (j - s) (m * 2 ^ s)]
    · rw [Nat.cast_mul, Nat.cast_pow, Nat.cast_ofNat, mul_assoc, ← zpow_natCast, ← zpow_add₀ two_ne_zero]
      congr 2
      omega
    · rw [or_iff_not_imp_left]
      intro hjs
      calc 2 ^ f.frac = 2 ^ m.log2 * 2 ^ s := by rw [← pow_add]; congr 1; omega
        _ ≤ m * 2 ^ s := Nat.mul_le_mul_right _ hlo
    · calc m * 2 ^ s ≤ 2 ^ (m.log2 + 1) * 2 ^ s := Nat.mul_le_mul_right _ hhi.le
        _ ≤ 2 ^ (f.frac + 1) := by
          rw [← pow_add]
          exact Nat.pow_le_pow_right two_pos (by omega)
        _ = 2 * 2 ^ f.frac := pow_succ' 2 f.frac

/-- The finite values of g are values of f. -/
structure FmtWithin (g f : FFmt) : Prop where
  frac : g.frac ≤ f.frac
  least : f.emin - f.frac ≤ g.emin - g.frac
  range : magRat g g.top ≤ magRat f f.top

theorem FmtWithin.exists_code (h : FmtWithin g f) {c : Nat} (hc : c ≤ g.top) : ∃ k ≤ f.top, magRat f k = magRat g c := by
  obtain ⟨j, m, hcode, hlo, hhi⟩ := exists_binade g c
  have hval := magRat_binade g j m hlo hhi.le
  rw [← hcode] at hval
  have hm : m < 2 ^ (f.frac + 1) := by
    rw [← pow_succ'] at hhi
    exact hhi.trans_le (Nat.pow_le_pow_right two_pos (Nat.succ_le_succ h.frac))
  obtain ⟨k, hk⟩ := exists_magRat_eq f hm (e := g.emin - g.frac + j) (by have := h.least; omega)
  rw [← hval] at hk
  refine ⟨k, ?_, hk⟩
  rw [← (magRat_strictMono f).le_iff_le, hk]
  exact ((magRat_strictMono g).monotone hc).trans h.range

theorem signed_mod {c : Nat} (neg : Bool) (hc : c < f.sign) : ((if neg then f.sign else 0) + c) % f.sign = c := by
  cases neg
  · simp [Nat.mod_eq_of_lt hc]
  · simp [Nat.mod_eq_of_lt hc]

theorem minus_signed {c : Nat} (neg : Bool) (hc : c < f.sign) : minus f ((if neg then f.sign else 0) + c) = neg := by
  have hpos : 0 < f.sign := Nat.zero_lt_of_lt hc
  unfold minus
  cases neg
  · simp [Nat.div_eq_of_lt hc]
  · simp [Nat.add_div_left _ hpos, Nat.div_eq_of_lt hc]

/-- A finite code of a format within f converts to a code of the same value and sign. -/
theorem FmtWithin.into_exact (h : FmtWithin g f) (ht : f.top < f.sign) {c : Nat} (hc : finite g c) :
    finite f ((g.decode c).into f r l) ∧ codeRat f ((g.decode c).into f r l) = codeRat g c ∧
      minus f ((g.decode c).into f r l) = minus g c := by
  obtain ⟨k, hk, hval⟩ := h.exists_code hc
  have hinto : (g.decode c).into f r l = (if minus g c then f.sign else 0) + k := by
    rw [decode_finite hc, FVal.into, roundDy]
    refine roundMag_exact r l _ (asQuot_den_pos _ _) hk ?_
    rw [asQuot_div, hval, magRat]
  have hlt := hk.trans_lt ht
  rw [hinto]
  refine ⟨?_, ?_, minus_signed _ hlt⟩
  · rwa [finite, signed_mod _ hlt]
  · rw [codeRat_eq_signed, minus_signed _ hlt, signed_mod _ hlt, hval, codeRat_eq_signed]

end Exact

/-! ## The conversions -/

section Convert

variable {f g : FFmt} (r : Rnd) (l : BitVec 32) {c : Nat}

theorem into_ieee (hk : f.kind = .ieee) (hc : finite g c) :
    ExactlyRounded f r l (codeRat g c) (minus g c) ((g.decode c).into f r l) := by
  rw [decode_finite hc, codeRat_eq]
  exact exactlyRounded_roundDy r l _ hk _ _

/-- A format that saturates takes the rounded magnitude, at most its greatest (R17). -/
theorem into_sat (hk : f.kind = .sat) (hc : finite g c) (hx : codeRat g c ≠ 0) :
    ∃ m, RoundsMag f r l (codeRat g c) m ∧ (g.decode c).into f r l = (if codeRat g c < 0 then f.sign else 0) + min m f.top := by
  rw [codeRat_eq, ne_eq, signedRat_eq_zero_iff, ← asQuot_div] at hx
  rw [decode_finite hc, FVal.into, roundDy, codeRat_eq, ← asQuot_div]
  have hd := asQuot_den_pos (g.magValue (c % g.sign)).1 (g.magValue (c % g.sign)).2
  generalize asQuot (g.magValue (c % g.sign)).1 (g.magValue (c % g.sign)).2 = q at *
  have hn : 0 < q.1 := by
    refine Nat.pos_of_ne_zero fun h0 => hx ?_
    rw [h0, Nat.cast_zero, zero_div]
  refine ⟨_, roundsMag_unboundedMag r l (minus g c) f hn hd, ?_⟩
  rw [if_congr (signedRat_lt_zero_iff (by positivity)) rfl rfl, roundMag_eq]
  dsimp only
  rw [← unboundedMag, show overflowCode f r (minus g c) = f.top by simp [overflowCode, hk]]
  congr 1
  split <;> omega

theorem into_zero (hc : finite g c) (hx : codeRat g c = 0) : (g.decode c).into f r l = if minus g c then f.sign else 0 := by
  rw [decode_finite hc, (codeRat_eq_zero_iff g c).1 hx, FVal.into, roundDy]
  have hnum : ∀ e, (asQuot 0 e).1 = 0 := fun e => by
    unfold asQuot
    split <;> simp
  rw [hnum, roundMag_zero]

end Convert

theorem within_fp32 : ∀ e ∈ [Elem.fp16, .bf16, .e4m3, .e5m2], FmtWithin (elemFmt e) fp32 := by
  intro e he
  simp only [List.mem_cons, List.not_mem_nil, or_false] at he
  obtain rfl | rfl | rfl | rfl := he
  all_goals
    refine ⟨by decide, by decide, ?_⟩
    norm_num [magRat, FFmt.magValue, elemFmt, fp32, fp16, bf16, e4m3, e5m2, FFmt.emin]

theorem finiteConversions : FiniteConversions := by
  intro r l c z x
  refine ⟨fun _ hc => ⟨fun e he => ?_, fun hx => into_sat r l rfl hc hx, into_zero r l hc⟩, ?_, fun e he _ hc => ?_⟩
  · have hk : ∀ e ∈ [Elem.fp16, .bf16, .e5m2], (elemFmt e).kind = .ieee := by decide
    exact into_ieee r l (hk e he) hc
  · have h := exactlyRounded_roundSum (f := fp32) r l rfl false z 0
    rwa [zpow_zero, mul_one] at h
  · exact (within_fp32 e he).into_exact r l (by decide) hc

end Sys2Proof.Machine
end

section
/-!
PROOFS. Scalar floating point (R13 to R17, R30, R31, R101, R110, R111): the instructions complete with the results of the operations on
codes, and those are the exact results rounded once.
-/

namespace Sys2Proof.Machine

open Sys2Proof.Spec

/-! ## The instructions complete -/

theorem floatArithmeticCompletes : FloatArithmeticCompletes := by
  intro s r d x y p hp f w l a b o
  have hcode (v : Word) : codeOf f v = v.toNat % 2 ^ w := by rw [codeOf, (scalarFormats_fields hp).1]
  have hadd := rounds_fadd s r p.1 d x y
  have hsub := rounds_fsub s r p.1 d x y
  have hmul := rounds_fmul s r p.1 d x y
  have hfma := rounds_ffma s r p.1 d x y
  have hdiv := rounds_fdiv s r p.1 d x y
  have hsqrt := rounds_fsqrt s r p.1 d x
  simp only [show elemFmt p.1 = f from rfl, hcode] at hadd hsub hmul hfma hdiv hsqrt
  exact ⟨hadd, hsub, hmul, hfma, hdiv, hsqrt⟩

/-! ## Compares and conversions -/

theorem gives_fcmp (s : State) (c : Cond) (e : Elem) (q : PReg) (x y : GReg) :
    Gives (.fcmp c e q x y) s (some 4) [.p q (fpCond c ((elemFmt e).decode (codeOf (elemFmt e) (s.th.rg x)))
      ((elemFmt e).decode (codeOf (elemFmt e) (s.th.rg y))))] :=
  gives_of_produce (show exec _ s = execFcmp c e q x y s from rfl) rfl

theorem rounds_fcvt (s : State) (r : Rnd) (e : Elem) (d x : GReg) :
    Rounds (.fcvt r e d x) s (some 4) r d (fromFp32 r (lfsrFor r s.th.lfsr) e (codeOf fp32 (s.th.rg x))) :=
  rounds_of_rounding (show exec _ s = execFcvt r e d x s from rfl) rfl

theorem rounds_fcvtf (s : State) (r : Rnd) (e : Elem) (d x : GReg) :
    Rounds (.fcvtf r e d x) s (some 4) r d (BitVec.ofNat 64 (toFp32 r (lfsrFor r s.th.lfsr) e (s.th.rg x).toNat)) :=
  rounds_of_rounding (show exec _ s = execFcvtf r e d x s from rfl) rfl

/-- A conversion into an integer range lies in it. -/
theorem toRange_mem {lo hi : Int} (hlo : lo ≤ 0) (hhi : 0 ≤ hi) (r : Rnd) (l : BitVec 32) (v : FVal) :
    lo ≤ v.toRange lo hi r l ∧ v.toRange lo hi r l ≤ hi := by
  cases v with
  | nan => exact ⟨hlo, hhi⟩
  | inf s => cases s <;> simp [FVal.toRange] <;> omega
  | fin s m e => simp only [FVal.toRange]; omega

/-- A conversion into a signed range of at most 64 bits is kept whole in its register. -/
theorem wordOf_toRange {w : Nat} (hw : w - 1 ≤ 63) (r : Rnd) (l : BitVec 32) (v : FVal) :
    (wordOf (v.toRange (intMin w) (intMax w) r l)).toInt = v.toRange (-2 ^ (w - 1)) (2 ^ (w - 1) - 1) r l := by
  have hpow : (2 : Int) ^ (w - 1) ≤ 2 ^ 63 := pow_le_pow_right₀ (by decide) hw
  have hpos : (0 : Int) < 2 ^ (w - 1) := by positivity
  have hmin : intMin w = -2 ^ (w - 1) := by simp [intMin]
  have hmax : intMax w = 2 ^ (w - 1) - 1 := by simp [intMax]
  rw [hmin, hmax]
  obtain ⟨hlo, hhi⟩ := toRange_mem (lo := -2 ^ (w - 1)) (hi := 2 ^ (w - 1) - 1) (by omega) (by omega) r l v
  exact wordOf_toInt (by omega) (by omega)

theorem fromFp32_int {e : Elem} (he : e ∈ [Elem.i64, .i32]) (r : Rnd) (l : BitVec 32) (c : Nat) :
    (fromFp32 r l e c).toInt = FVal.toRange (-2 ^ (intWidth e - 1)) (2 ^ (intWidth e - 1) - 1) r l (fp32.decode c) := by
  simp only [List.mem_cons, List.not_mem_nil, or_false] at he
  obtain rfl | rfl := he
  · exact wordOf_toRange (w := 64) (by decide) r l _
  · exact wordOf_toRange (w := 32) (by decide) r l _

theorem toFp32_int {e : Elem} (he : e ∈ [Elem.i64, .i32]) (r : Rnd) (l : BitVec 32) (v : Word) :
    toFp32 r l e v.toNat = roundSum fp32 r l false (v.setWidth (intWidth e)).toInt 0 := by
  have hint : ∀ e ∈ [Elem.i64, .i32], elemIsInt e = true ∧ 0 < intWidth e := by decide
  obtain ⟨hi, hw⟩ := hint e he
  rw [toFp32, if_pos hi, signedNat_toNat hw]

theorem fromFp32_float {e : Elem} (he : e ∈ [Elem.fp16, .bf16, .e4m3, .e5m2]) (r : Rnd) (l : BitVec 32) (c : Nat) :
    fromFp32 r l e c = BitVec.ofNat 64 ((fp32.decode c).into (elemFmt e) r l) := by
  simp only [List.mem_cons, List.not_mem_nil, or_false] at he
  obtain rfl | rfl | rfl | rfl := he <;> rfl

theorem toFp32_float {e : Elem} (he : e ∈ [Elem.fp16, .bf16, .e4m3, .e5m2]) (r : Rnd) (l : BitVec 32) (c : Nat) :
    toFp32 r l e c = ((elemFmt e).decode (c % 2 ^ (elemFmt e).width)).into fp32 r l := by
  have hfloat : ∀ e ∈ [Elem.fp16, .bf16, .e4m3, .e5m2], elemIsInt e = false := by decide
  rw [toFp32, hfloat e he, if_neg Bool.false_ne_true]

theorem floatComparesAndConversions : FloatComparesAndConversions := by
  intro s r d x y q c a32 l
  refine ⟨?_, ?_, ?_, ?_, ?_⟩
  · intro p hp f w a b
    have hcode (v : Word) : codeOf f v = v.toNat % 2 ^ w := by rw [codeOf, (scalarFormats_fields hp).1]
    have hmin := gives_fmin s p.1 d x y
    have hmax := gives_fmax s p.1 d x y
    have hcmp := gives_fcmp s c p.1 q x y
    simp only [show elemFmt p.1 = f from rfl, hcode] at hmin hmax hcmp
    exact ⟨hmin, hmax, hcmp⟩
  · intro e he
    exact ⟨_, fromFp32_int he r l _, rounds_fcvt s r e d x⟩
  · intro e he
    rw [← fromFp32_float he]
    exact rounds_fcvt s r e d x
  · intro e he
    rw [← toFp32_int he]
    exact rounds_fcvtf s r e d x
  · intro e he
    rw [← toFp32_float he]
    exact rounds_fcvtf s r e d x

/-- Settles O14: the results are those of exact values rounded once, and the square root's approximation lies on the side of the root. -/
theorem floatOperations : Obligations.FloatOperations :=
  ⟨floatArithmeticCompletes, floatComparesAndConversions, finiteArithmetic, finiteConversions⟩

end Sys2Proof.Machine
end

section
/-!
SUPPORT. The elements of a v register (R130, R131): what packing, a lane-wise result and rounding lanes hold in each element, and how a
lane-wise instruction completes.
-/

namespace Sys2Proof.Machine

open Sys2Proof.Spec

/-! ## Elements (R130) -/

theorem toNat_lane (w : Nat) (x : VWord) (j : Nat) : (lane w x j).toNat = velem w x j := by
  rw [lane, BitVec.toNat_setWidth, BitVec.toNat_ushiftRight, Nat.shiftRight_eq_div_pow, velem]

theorem ofNat_velem (w : Nat) (x : VWord) (j : Nat) : BitVec.ofNat w (velem w x j) = lane w x j := by
  rw [← toNat_lane, BitVec.ofNat_toNat, BitVec.setWidth_eq]

theorem velem_lt (w : Nat) (x : VWord) (j : Nat) : velem w x j < 2 ^ w := Nat.mod_lt _ (Nat.two_pow_pos w)

/-- The low bits of a number read as two's complement. -/
theorem signedNat_ofNat {w : Nat} (hw : 0 < w) (n : Nat) : signedNat w n = (BitVec.ofNat w n).toInt := by
  obtain ⟨k, rfl⟩ := Nat.exists_eq_succ_of_ne_zero hw.ne'
  rw [signedNat, BitVec.toInt, BitVec.toNat_ofNat, Nat.succ_sub_one, Nat.pow_succ]
  exact if_congr (by omega) rfl rfl

theorem signedNat_velem {w : Nat} (hw : 0 < w) (x : VWord) (j : Nat) : signedNat w (velem w x j) = (lane w x j).toInt := by
  rw [signedNat_ofNat hw, ofNat_velem]

theorem vpackN_lt (w : Nat) (l : List Nat) : vpackN w l < 2 ^ (w * l.length) := by
  induction l with
  | nil => exact Nat.one_pos
  | cons e t ih =>
    calc e % 2 ^ w + 2 ^ w * vpackN w t < 2 ^ w * (vpackN w t + 1) := by
          rw [Nat.mul_succ, Nat.add_comm]
          exact Nat.add_lt_add_left (Nat.mod_lt e (Nat.two_pow_pos w)) _
      _ ≤ 2 ^ w * 2 ^ (w * t.length) := Nat.mul_le_mul_left _ ih
      _ = 2 ^ (w * (e :: t).length) := by rw [← Nat.pow_add, List.length_cons, Nat.mul_succ, Nat.add_comm]

theorem vpackN_elem (w : Nat) (l : List Nat) (j : Nat) : vpackN w l / 2 ^ (w * j) % 2 ^ w = l.getD j 0 % 2 ^ w := by
  induction l generalizing j with
  | nil => simp [vpackN]
  | cons e t ih =>
    have he := Nat.mod_lt e (Nat.two_pow_pos w)
    cases j with
    | zero => simp [vpackN]
    | succ j =>
      have hdrop : (e % 2 ^ w + 2 ^ w * vpackN w t) / 2 ^ w = vpackN w t := by
        rw [Nat.add_mul_div_left _ _ (Nat.two_pow_pos w), Nat.div_eq_of_lt he, Nat.zero_add]
      rw [vpackN, Nat.mul_succ, Nat.add_comm (w * j), Nat.pow_add, ← Nat.div_div_eq_div_mul, hdrop, ih, List.getD_cons_succ]

theorem toNat_ofNat_vpackN {w n : Nat} {l : List Nat} (h : w * l.length ≤ n) : (BitVec.ofNat n (vpackN w l)).toNat = vpackN w l := by
  rw [BitVec.toNat_ofNat, Nat.mod_eq_of_lt ((vpackN_lt w l).trans_le (Nat.pow_le_pow_right two_pos h))]

/-- An element of a packed register. -/
theorem lane_vpack {w : Nat} {l : List Nat} (h : w * l.length ≤ 512) (j : Nat) :
    lane w (vpack w l) j = BitVec.ofNat w (l.getD j 0) := by
  apply BitVec.eq_of_toNat_eq
  rw [toNat_lane, velem, vpack, toNat_ofNat_vpackN h, vpackN_elem, BitVec.toNat_ofNat]

/-- An element of a register that is packed element by element. -/
theorem lane_vpack_map {w : Nat} (g : Nat → Nat) {j : Nat} (hj : j < 512 / w) :
    lane w (vpack w ((vidx w).map g)) j = BitVec.ofNat w (g j) := by
  have hlen : w * ((vidx w).map g).length ≤ 512 := by
    rw [List.length_map, vidx, List.length_range]
    exact Nat.mul_div_le 512 w
  rw [lane_vpack hlen, List.getD_eq_getElem?_getD, List.getElem?_map, vidx, List.getElem?_range hj]
  rfl

/-! ## Active elements (R130, R131) -/

theorem vact_eq_active (w : Nat) (m : Mask) (j : Nat) : vact w m j = active w m j := by
  unfold vact active
  split
  case isTrue h => rw [h, show 64 * j / 32 = 2 * j by omega]
  case isFalse => rfl

/-- A 32-bit element is its lane. -/
theorem active_lane (m : Mask) (j : Nat) : active 32 m j = m.getLsbD j := by
  rw [active, Nat.mul_div_cancel_left _ (by decide)]

theorem activeIn_succ (w : Nat) (m : Mask) (n : Nat) : activeIn w m (n + 1) = activeIn w m n + (active w m n).toNat := by
  rw [activeIn, activeIn, List.range_succ, List.countP_append]
  cases h : active w m n <;> simp [h]

/-- Every element is active under m0. -/
theorem active_m0 (t : Thread) {w j : Nat} (hj : j < 512 / w) : active w (t.rm 0) j = true := by
  have hall : ∀ k, k < 16 → (0xFFFF : Mask).getLsbD k = true := by decide
  have hw : 0 < w := Nat.pos_of_ne_zero fun h => by simp [h] at hj
  have hlt : w * j < 512 := ((Nat.mul_lt_mul_left hw).2 hj).trans_le (Nat.mul_div_le 512 w)
  exact hall _ (by omega)

/-- Under m0 every element has its property. -/
theorem governed_m0 {t : Thread} {w : Nat} {d : VReg} {x : VWord} {P : Nat → BitVec w → Prop}
    (h : ∀ j, j < 512 / w → P j (lane w x j)) : Governed t w ⟨0, false⟩ d x P := by
  intro j hj
  rw [active_m0 t hj, if_pos rfl]
  exact h j hj

/-- An element of a lane-wise result. -/
def laneOr (w : Nat) (m : Mask) (zero : Bool) (old : VWord) (f : Nat → Nat) (j : Nat) : Nat :=
  if vact w m j then f j else if zero then 0 else velem w old j

/-- A register of active elements with a property governs by R131. -/
theorem governed_vpack {t : Thread} {w : Nat} {vm : VM} {d : VReg} {P : Nat → BitVec w → Prop} (f : Nat → Nat)
    (h : ∀ j, j < 512 / w → active w (t.rm vm.mask) j = true → P j (BitVec.ofNat w (f j))) :
    Governed t w vm d (vpack w ((vidx w).map (laneOr w (t.rm vm.mask) vm.zero (t.rv d) f))) P := by
  intro j hj
  rw [lane_vpack_map _ hj, laneOr, vact_eq_active]
  cases hon : active w (t.rm vm.mask) j with
  | true => exact h j hj hon
  | false =>
    simp only [Bool.false_eq_true, if_false]
    cases vm.zero
    · simp [ofNat_velem]
    · simp

/-- A lane-wise instruction completes with what it computes in each active element. -/
theorem givesV_of_vlanes {i : Instr} {s : State} {lat w : Nat} {d : VReg} {vm : VM} {f : Thread → Nat → Nat}
    {P : Nat → BitVec w → Prop} (h : exec i s = vlanes lat w d vm f s)
    (hP : ∀ j, j < 512 / w → active w (s.th.rm vm.mask) j = true → P j (BitVec.ofNat w (f s.th j))) :
    GivesV i s lat w d vm P :=
  ⟨_, governed_vpack (f s.th) hP, gives_of_produce h rfl⟩

/-! ## Lanes that round (R31, R132) -/

theorem rndStep_lfsrAfter (r : Rnd) (l : BitVec 32) (n : Nat) : rndStep r (lfsrAfter r l n) = lfsrAfter r l (n + 1) := by
  unfold rndStep lfsrAfter
  split
  · rw [Function.iterate_succ_apply']
  · rfl

/-- The LFSR after the first n elements. -/
def lfsrIn (r : Rnd) (w : Nat) (m : Mask) (l : BitVec 32) (n : Nat) : BitVec 32 := lfsrAfter r l (activeIn w m n)

theorem lfsrIn_succ (r : Rnd) (w : Nat) (m : Mask) (l : BitVec 32) (n : Nat) :
    lfsrIn r w m l (n + 1) = if vact w m n then rndStep r (lfsrIn r w m l n) else lfsrIn r w m l n := by
  rw [lfsrIn, lfsrIn, activeIn_succ, vact_eq_active, rndStep_lfsrAfter]
  cases active w m n <;> rfl

section Rounding

variable (r : Rnd) (w : Nat) (m : Mask) (zero : Bool) (old : VWord) (f : BitVec 32 → Nat → Nat) (l : BitVec 32)

/-- The elements of rounding lanes: each active one takes the LFSR after its own step. -/
def roundedLane (j : Nat) : Nat := laneOr w m zero old (fun j => f (lfsrIn r w m l (j + 1)) j) j

/-- Rounding lanes split at any element. -/
theorem vrounds_range_append (n : Nat) (rest : List Nat) :
    vrounds r w m zero old f (List.range n ++ rest) l =
      ((List.range n).map (roundedLane r w m zero old f l) ++ (vrounds r w m zero old f rest (lfsrIn r w m l n)).1,
        (vrounds r w m zero old f rest (lfsrIn r w m l n)).2) := by
  induction n generalizing rest with
  | zero =>
    rw [show lfsrIn r w m l 0 = l by unfold lfsrIn lfsrAfter; split <;> rfl]
    rfl
  | succ n ih =>
    rw [List.range_succ, List.append_assoc, List.singleton_append, ih, List.map_append, List.map_singleton, List.append_assoc,
      List.singleton_append, lfsrIn_succ, roundedLane, laneOr, lfsrIn_succ]
    simp only [vrounds]

theorem vrounds_range (n : Nat) :
    vrounds r w m zero old f (List.range n) l = ((List.range n).map (roundedLane r w m zero old f l), lfsrIn r w m l n) := by
  have h := vrounds_range_append r w m zero old f l n []
  rwa [List.append_nil, vrounds, List.append_nil] at h

end Rounding

/-- The state after a lane-wise instruction that rounds. -/
theorem vrounding_next (r : Rnd) (w : Nat) (d : VReg) (vm : VM) (f : Thread → BitVec 32 → Nat → Nat) (s : State) :
    vrounding r w d vm f s =
      .next ((s.setTh { s.th with lfsr := lfsrIn r w (s.th.rm vm.mask) s.th.lfsr (512 / w) }).retire (some 4)
        [.v d (vpack w ((vidx w).map (roundedLane r w (s.th.rm vm.mask) vm.zero (s.th.rv d) (f s.th) s.th.lfsr)))]) := by
  unfold vrounding
  dsimp only
  rw [vidx, vrounds_range]

/-- A lane-wise instruction that rounds completes with what it computes in each active element, with the LFSR after that element's step. -/
theorem roundsV_of_vrounding {i : Instr} {s : State} {r : Rnd} {w : Nat} {d : VReg} {vm : VM} {f : Thread → BitVec 32 → Nat → Nat}
    {g : BitVec 32 → Nat → BitVec w} (h : exec i s = vrounding r w d vm f s) (hg : ∀ l j, g l j = BitVec.ofNat w (f s.th l j)) :
    RoundsV i s r w d vm g := by
  refine ⟨_, _, governed_vpack (fun j => f s.th (lfsrIn r w (s.th.rm vm.mask) s.th.lfsr (j + 1)) j) fun j _ _ => (hg _ _).symm,
    h.trans (vrounding_next r w d vm f s), ?_⟩
  rw [retire_eq_setTh, setTh_setTh, setTh_cur, th_setTh, th_setTh]
  exact ⟨only_setTh _ _, goes_step _ _, rest_step _ _, step_pend _ _⟩

end Sys2Proof.Machine
end

section
/-!
PROOFS. The integer, logical, shift and bit instructions of the vector engine (R134 to R137): each lane's number as a bit vector.
-/

namespace Sys2Proof.Machine

open Sys2Proof.Spec

/-! ## Numbers of a width -/

theorem ofNat_mod (w n : Nat) : BitVec.ofNat w (n % 2 ^ w) = BitVec.ofNat w n := by
  apply BitVec.eq_of_toNat_eq
  rw [BitVec.toNat_ofNat, BitVec.toNat_ofNat, Nat.mod_mod]

theorem ofNat_wrapNat (w : Nat) (z : Int) : BitVec.ofNat w (wrapNat w z) = BitVec.ofInt w z := by
  have hlt : (z % (2 ^ w : Nat)).toNat < 2 ^ w := by
    have := Int.emod_lt_of_pos z (b := ((2 ^ w : Nat) : Int)) (by positivity)
    have := Int.emod_nonneg z (b := ((2 ^ w : Nat) : Int)) (by positivity)
    omega
  apply BitVec.eq_of_toNat_eq
  rw [BitVec.toNat_ofNat, wrapNat, Nat.mod_eq_of_lt hlt, BitVec.toNat_ofInt]

theorem intCodes_fields {e : Elem} {w : Nat} (hp : (e, w) ∈ intCodes) :
    elemIsInt e = true ∧ velemWidth e = w ∧ 0 < w ∧ w ≤ 64 := by
  have h : ∀ p ∈ intCodes, elemIsInt p.1 = true ∧ velemWidth p.1 = p.2 ∧ 0 < p.2 ∧ p.2 ≤ 64 := by decide
  exact h _ hp

/-! ## Arithmetic (R134) -/

/-- Element arithmetic on integers completes with its results modulo 2^w. -/
theorem givesV_of_vArith2 {i : Instr} {s : State} {r : Rnd} {e : Elem} {d x y : VReg} {vm : VM} {fi : Nat → Nat → Nat}
    {ff : FFmt → Rnd → BitVec 32 → Nat → Nat → Nat} {P : Nat → BitVec (velemWidth e) → Prop} (he : elemIsInt e = true)
    (h : exec i s = vArith2 r e d x y vm fi ff s)
    (hP : ∀ j, P j (BitVec.ofNat _ (fi (velem (velemWidth e) (s.th.rv x) j) (velem (velemWidth e) (s.th.rv y) j)))) :
    GivesV i s 4 (velemWidth e) d vm P := by
  rw [vArith2, if_pos he] at h
  exact givesV_of_vlanes h fun j _ _ => by rw [ofNat_mod]; exact hP j

theorem ofNat_sub {w b : Nat} (hb : b < 2 ^ w) (a : Nat) :
    BitVec.ofNat w (a + (2 ^ w - b)) = BitVec.ofNat w a - BitVec.ofNat w b := by
  apply BitVec.eq_of_toNat_eq
  rw [BitVec.toNat_sub, BitVec.toNat_ofNat, BitVec.toNat_ofNat, BitVec.toNat_ofNat, Nat.mod_eq_of_lt hb, Nat.add_mod_mod,
    Nat.add_comm]

/-- The smaller and the larger of two elements, signed. -/
theorem vMinMax_signed {e : Elem} (he : elemIsInt e = true) (a b : Nat) :
    (vMinMax false false e a b = if signedNat (velemWidth e) a ≤ signedNat (velemWidth e) b then a else b) ∧
      vMinMax true false e a b = if signedNat (velemWidth e) a ≤ signedNat (velemWidth e) b then b else a := by
  simp only [vMinMax, he, if_true, Bool.false_eq_true, if_false, Bool.xor_false, Bool.xor_true, decide_eq_true_eq, Bool.not_eq_true',
    decide_eq_false_iff_not]
  exact ⟨trivial, ite_not ..⟩

/-- The smaller and the larger of two elements, unsigned. -/
theorem vMinMax_unsigned {e : Elem} (he : elemIsInt e = true) (a b : Nat) :
    vMinMax false true e a b = (if a ≤ b then a else b) ∧ vMinMax true true e a b = if a ≤ b then b else a := by
  simp only [vMinMax, he, if_true, Bool.xor_false, Bool.xor_true, decide_eq_true_eq, Bool.not_eq_true', decide_eq_false_iff_not]
  exact ⟨trivial, ite_not ..⟩

section MinMax

variable {e : Elem} (he : elemIsInt e = true) (hw : 0 < velemWidth e) (x y : VWord) (j : Nat)

include he hw in
theorem lane_minMax_toInt :
    (BitVec.ofNat (velemWidth e) (vMinMax false false e (velem (velemWidth e) x j) (velem (velemWidth e) y j))).toInt =
        min (lane (velemWidth e) x j).toInt (lane (velemWidth e) y j).toInt ∧
      (BitVec.ofNat (velemWidth e) (vMinMax true false e (velem (velemWidth e) x j) (velem (velemWidth e) y j))).toInt =
        max (lane (velemWidth e) x j).toInt (lane (velemWidth e) y j).toInt := by
  obtain ⟨hmin, hmax⟩ := vMinMax_signed he (velem (velemWidth e) x j) (velem (velemWidth e) y j)
  rw [hmin, hmax, signedNat_velem hw, signedNat_velem hw]
  split <;> simp only [ofNat_velem] <;> omega

include he in
theorem lane_minMax_toNat :
    (BitVec.ofNat (velemWidth e) (vMinMax false true e (velem (velemWidth e) x j) (velem (velemWidth e) y j))).toNat =
        min (lane (velemWidth e) x j).toNat (lane (velemWidth e) y j).toNat ∧
      (BitVec.ofNat (velemWidth e) (vMinMax true true e (velem (velemWidth e) x j) (velem (velemWidth e) y j))).toNat =
        max (lane (velemWidth e) x j).toNat (lane (velemWidth e) y j).toNat := by
  obtain ⟨hmin, hmax⟩ := vMinMax_unsigned he (velem (velemWidth e) x j) (velem (velemWidth e) y j)
  rw [hmin, hmax, toNat_lane, toNat_lane]
  split <;> simp only [ofNat_velem, toNat_lane] <;> omega

end MinMax

theorem vectorIntegerArithmetic : VectorIntegerArithmetic := by
  intro s r d x y vm
  refine ⟨?_, ?_, ?_, ?_⟩
  · rintro ⟨e, w⟩ hp
    obtain ⟨he, rfl, hw, -⟩ := intCodes_fields hp
    refine ⟨?_, ?_, ?_, ?_, ?_, ?_, ?_⟩
    · refine givesV_of_vArith2 he (show exec _ s = execVadd r e d x y vm s from rfl) fun j => ?_
      rw [BitVec.ofNat_add, ofNat_velem, ofNat_velem]
    · refine givesV_of_vArith2 he (show exec _ s = execVsub r e d x y vm s from rfl) fun j => ?_
      rw [ofNat_sub (velem_lt ..), ofNat_velem, ofNat_velem]
    · refine givesV_of_vArith2 he (show exec _ s = execVmul r e d x y vm s from rfl) fun j => ?_
      rw [BitVec.ofNat_mul, ofNat_velem, ofNat_velem]
    · exact givesV_of_vlanes (show exec _ s = execVmin e false d x y vm s from rfl) fun j _ _ => (lane_minMax_toInt he hw _ _ j).1
    · exact givesV_of_vlanes (show exec _ s = execVmin e true d x y vm s from rfl) fun j _ _ => (lane_minMax_toNat he _ _ j).1
    · exact givesV_of_vlanes (show exec _ s = execVmax e false d x y vm s from rfl) fun j _ _ => (lane_minMax_toInt he hw _ _ j).2
    · exact givesV_of_vlanes (show exec _ s = execVmax e true d x y vm s from rfl) fun j _ _ => (lane_minMax_toNat he _ _ j).2
  · refine givesV_of_vlanes (show exec _ s = execVand d x y vm s from rfl) fun j _ _ => ?_
    rw [BitVec.ofNat_and, ofNat_velem, ofNat_velem]
  · refine givesV_of_vlanes (show exec _ s = execVor d x y vm s from rfl) fun j _ _ => ?_
    rw [BitVec.ofNat_or, ofNat_velem, ofNat_velem]
  · refine givesV_of_vlanes (show exec _ s = execVxor d x y vm s from rfl) fun j _ _ => ?_
    rw [BitVec.ofNat_xor, ofNat_velem, ofNat_velem]

/-! ## Shifts (R136) -/

theorem ofNat_shiftLeft (w a n : Nat) : BitVec.ofNat w (if n ≥ w then 0 else a * 2 ^ n % 2 ^ w) =
    if n < w then BitVec.ofNat w a <<< n else 0 := by
  by_cases h : n < w
  · rw [if_neg (not_le.2 h), if_pos h, ofNat_mod]
    apply BitVec.eq_of_toNat_eq
    rw [BitVec.toNat_shiftLeft, BitVec.toNat_ofNat, BitVec.toNat_ofNat, Nat.shiftLeft_eq, Nat.mod_mul_mod]
  · rw [if_pos (not_lt.1 h), if_neg h]
    rfl

theorem ofNat_shiftRight {w a : Nat} (ha : a < 2 ^ w) (n : Nat) :
    BitVec.ofNat w (a / 2 ^ min w n) = if n < w then BitVec.ofNat w a >>> n else 0 := by
  by_cases h : n < w
  · rw [if_pos h, min_eq_right h.le]
    apply BitVec.eq_of_toNat_eq
    rw [BitVec.toNat_ushiftRight, BitVec.toNat_ofNat, BitVec.toNat_ofNat, Nat.shiftRight_eq_div_pow, Nat.mod_eq_of_lt ha,
      Nat.mod_eq_of_lt ((Nat.div_le_self ..).trans_lt ha)]
  · rw [if_neg h, min_eq_left (not_lt.1 h), Nat.div_eq_of_lt ha]
    rfl

/-- A bit of an arithmetic shift: a count of the width or more gives copies of the sign. -/
theorem getLsbD_wrapNat_div {w : Nat} (a : BitVec w) (n : Nat) {k : Nat} (hk : k < w) :
    (BitVec.ofNat w (wrapNat w (a.toInt / (2 ^ min w n : Nat)))).getLsbD k =
      if k + n < w then a.getLsbD (k + n) else a.msb := by
  have hshift : BitVec.ofInt w (a.toInt / (2 ^ min w n : Nat)) = a.sshiftRight (min w n) := by
    rw [← Int.shiftRight_eq_div_pow]
    rfl
  rw [ofNat_wrapNat, hshift, BitVec.getLsbD_sshiftRight, decide_eq_false (not_le.2 hk), Bool.not_false, Bool.true_and]
  by_cases h : k + n < w
  · rw [if_pos h, if_pos (by omega), min_eq_right (by omega), Nat.add_comm]
  · rw [if_neg h, if_neg (by omega)]

/-! ## Bit operations (R137) -/

/-- The leading zeros of an element. -/
theorem lane_clzN {w : Nat} (x : VWord) (j : Nat) :
    (lane w x j = 0 → (BitVec.ofNat w (clzN w (velem w x j))).toNat = w) ∧
      (lane w x j ≠ 0 → (BitVec.ofNat w (clzN w (velem w x j))).toNat < w ∧
        (lane w x j).toNat / 2 ^ (w - 1 - (BitVec.ofNat w (clzN w (velem w x j))).toNat) = 1) := by
  have hzero : lane w x j = 0 ↔ velem w x j = 0 := by
    rw [← BitVec.toNat_inj, toNat_lane]
    rfl
  have hself : w < 2 ^ w := Nat.lt_two_pow_self
  rw [ne_eq, hzero, BitVec.toNat_ofNat, toNat_lane]
  refine ⟨fun h => ?_, fun h => ?_⟩
  · rw [clzN, if_pos h, Nat.mod_eq_of_lt hself]
  · have hlog : (velem w x j).log2 < w := (Nat.log2_lt h).mpr (velem_lt w x j)
    rw [clzN, if_neg h, Nat.mod_eq_of_lt (by omega), show w - 1 - (w - 1 - (velem w x j).log2) = (velem w x j).log2 by omega]
    refine ⟨by omega, Nat.div_eq_of_lt_le ?_ ?_⟩
    · simpa using Nat.log2_self_le h
    · simpa [Nat.pow_succ, Nat.mul_comm] using Nat.lt_log2_self (n := velem w x j)

theorem lane_popN {w : Nat} (hw : w ≤ 64) (x : VWord) (j : Nat) :
    (BitVec.ofNat w (popN w (velem w x j))).toNat = countBits ((lane w x j).setWidth 64) w := by
  have hle : 2 ^ w ≤ 2 ^ 64 := Nat.pow_le_pow_right two_pos hw
  rw [countBits_eq_popN, BitVec.toNat_setWidth, toNat_lane, Nat.mod_eq_of_lt ((velem_lt w x j).trans_le hle), BitVec.toNat_ofNat,
    Nat.mod_eq_of_lt ((popN_le w _).trans_lt Nat.lt_two_pow_self)]

/-- Setting in turn the bits `g i` of a number for which `c i` holds sets those bits and keeps the others. -/
theorem testBit_foldl_or (c : Nat → Bool) (g : Nat → Nat) (l : List Nat) (r j : Nat) :
    (l.foldl (fun r i => if c i then r ||| 2 ^ g i else r) r).testBit j = (r.testBit j || l.any fun i => c i && decide (g i = j)) := by
  induction l generalizing r with
  | nil => simp
  | cons i l ih =>
    rw [List.foldl_cons, ih, List.any_cons]
    cases c i
    · simp
    · rw [if_pos rfl, Nat.testBit_or, Nat.testBit_two_pow, Bool.true_and, Bool.or_assoc]

theorem testBit_vbiti1 (x y : Nat) {k : Nat} (hk : k < 32) :
    (vbiti1 x y).testBit k = ((decide (0 < k) && y.testBit (k - 1)) || (decide (k % 3 = 0) && x.testBit (k / 3))) := by
  have hany : ((List.range 11).any fun i => x.testBit i && decide (3 * i = k)) = (decide (k % 3 = 0) && x.testBit (k / 3)) := by
    rw [Bool.eq_iff_iff]
    simp only [List.any_eq_true, List.mem_range, Bool.and_eq_true, decide_eq_true_eq]
    constructor
    · rintro ⟨i, -, hx, rfl⟩
      exact ⟨Nat.mul_mod_right _ _, by rwa [Nat.mul_div_cancel_left _ (by decide)]⟩
    · rintro ⟨hmod, hx⟩
      exact ⟨k / 3, by omega, hx, by omega⟩
  rw [vbiti1, testBit_foldl_or (fun i => x.testBit i) (3 * ·), hany, Nat.testBit_mod_two_pow, decide_eq_true hk, Bool.true_and]
  cases k with
  | zero => simp
  | succ k => simp [Nat.testBit_succ]

theorem vectorShiftsAndBits : VectorShiftsAndBits := by
  intro s d x y n m vm
  refine ⟨?_, ?_⟩
  · rintro ⟨e, w⟩ hp
    obtain ⟨-, rfl, hw, hw64⟩ := intCodes_fields hp
    intro w a count
    have hcount : ∀ j, vcount s.th w n j = count j := fun j => by
      cases n
      · rfl
      · exact (toNat_lane ..).symm
    refine ⟨?_, ?_, ?_, ?_, ?_⟩
    · refine givesV_of_vlanes (show exec _ s = execVshl e d x n m s from rfl) fun j _ _ => ?_
      rw [hcount, ofNat_shiftLeft, ofNat_velem]
    · refine givesV_of_vlanes (show exec _ s = execVshr e false d x n m s from rfl) fun j _ _ => ?_
      dsimp only
      rw [if_neg Bool.false_ne_true, hcount, ofNat_shiftRight (velem_lt ..), ofNat_velem]
    · refine givesV_of_vlanes (show exec _ s = execVshr e true d x n m s from rfl) fun j _ _ k hk => ?_
      dsimp only
      rw [if_pos rfl, hcount, signedNat_velem hw]
      exact getLsbD_wrapNat_div _ _ hk
    · exact givesV_of_vlanes (show exec _ s = execVclz e d x vm s from rfl) fun j _ _ => lane_clzN _ j
    · exact givesV_of_vlanes (show exec _ s = execVpopc e d x vm s from rfl) fun j _ _ => lane_popN hw64 _ j
  · refine givesV_of_vlanes (show exec _ s = execVbiti d x y vm s from rfl) fun j _ _ k hk => ?_
    rw [BitVec.getLsbD_ofNat, decide_eq_true hk, Bool.true_and, testBit_vbiti1 _ _ hk, ← toNat_lane, ← toNat_lane]
    rfl

/-- Settles O30: each lane's number is that of the operation on bit vectors. -/
theorem vectorIntegers : Obligations.VectorIntegers := ⟨vectorIntegerArithmetic, vectorShiftsAndBits⟩

end Sys2Proof.Machine
end

section
/-!
PROOFS. The floating-point instructions of the vector engine (R134, R143): each lane as the scalar operation gives it.
-/

namespace Sys2Proof.Machine

open Sys2Proof.Spec

/-- A scalar format's element is as wide as its code. -/
theorem scalarFormats_width {e : Elem} {ex fr : Nat} (hp : (e, ex, fr) ∈ scalarFormats) :
    elemIsInt e = false ∧ 1 + ex + fr = velemWidth e := by
  have h : ∀ p ∈ scalarFormats, elemIsInt p.1 = false ∧ 1 + p.2.1 + p.2.2 = velemWidth p.1 := by decide
  exact h _ hp

/-- Element arithmetic on floating values completes with the rounded results. -/
theorem roundsV_of_vArith2 {i : Instr} {s : State} {r : Rnd} {e : Elem} {d x y : VReg} {vm : VM} {fi : Nat → Nat → Nat}
    {ff : FFmt → Rnd → BitVec 32 → Nat → Nat → Nat} (he : elemIsInt e = false) (h : exec i s = vArith2 r e d x y vm fi ff s) :
    RoundsV i s r (velemWidth e) d vm fun l j => BitVec.ofNat _
      (ff (elemFmt e) r l (lane (velemWidth e) (s.th.rv x) j).toNat (lane (velemWidth e) (s.th.rv y) j).toNat) := by
  rw [vArith2, if_neg (Bool.not_eq_true _ ▸ he)] at h
  exact roundsV_of_vrounding h fun l j => by rw [toNat_lane, toNat_lane]

theorem vMinMax_float {e : Elem} (he : elemIsInt e = false) (big : Bool) (a b : Nat) :
    vMinMax big false e a b = fMinMax (elemFmt e) big a b :=
  if_neg (Bool.not_eq_true _ ▸ he)

/-- Settles O31: the lanes that round take one LFSR step each, and each lane's value is the scalar operation's. -/
theorem vectorFloat : Obligations.VectorFloat := by
  intro s r d x y vm
  refine ⟨?_, fun e _ => ⟨?_, ?_⟩⟩
  · rintro ⟨e, ex, fr⟩ hp
    obtain ⟨he, hw⟩ := scalarFormats_width hp
    dsimp only
    rw [hw]
    refine ⟨?_, ?_, ?_, ?_, ?_, ?_⟩
    · exact roundsV_of_vArith2 he (show exec _ s = execVadd r e d x y vm s from rfl)
    · exact roundsV_of_vArith2 he (show exec _ s = execVsub r e d x y vm s from rfl)
    · exact roundsV_of_vArith2 he (show exec _ s = execVmul r e d x y vm s from rfl)
    · refine roundsV_of_vrounding (f := fun t l j => fFma (elemFmt e) r l (velem (velemWidth e) (t.rv x) j)
        (velem (velemWidth e) (t.rv y) j) (velem (velemWidth e) (t.rv d) j)) rfl fun l j => ?_
      rw [toNat_lane, toNat_lane, toNat_lane]
    · refine givesV_of_vlanes (show exec _ s = execVmin e false d x y vm s from rfl) fun j _ _ => ?_
      rw [vMinMax_float he, toNat_lane, toNat_lane]
    · refine givesV_of_vlanes (show exec _ s = execVmax e false d x y vm s from rfl) fun j _ _ => ?_
      rw [vMinMax_float he, toNat_lane, toNat_lane]
  · refine roundsV_of_vrounding (show exec _ s = execVcvt false r e d x vm s from rfl) fun l j => ?_
    dsimp only
    rw [toNat_lane, vcvt1, if_neg Bool.false_ne_true, ofNat_mod, BitVec.ofNat_toNat]
  · refine roundsV_of_vrounding (show exec _ s = execVcvt true r e d x vm s from rfl) fun l j => ?_
    dsimp only
    rw [toNat_lane, vcvt1, if_pos rfl]

end Sys2Proof.Machine
end

section
/-!
SUPPORT. The active elements of a v register in their order (R144), and what the pairing of R145 and the prefixes of R146 make of them:
a property that an operation hands on from two sets of values to their union holds of the whole, in whatever order it combines them.
-/

namespace Sys2Proof.Machine

open Sys2Proof.Spec

/-! ## The active elements in order (R144) -/

section Elems

variable (w : Nat) (m : Mask) (x : VWord)

/-- The active elements among the first n, in ascending order. -/
def activeElems (n : Nat) : List Nat := ((List.range n).filter (active w m)).map (velem w x)

theorem length_activeElems (n : Nat) : (activeElems w m x n).length = activeIn w m n := by
  rw [activeElems, List.length_map, ← List.countP_eq_length_filter]
  rfl

theorem activeElems_succ (n : Nat) :
    activeElems w m x (n + 1) = activeElems w m x n ++ if active w m n then [velem w x n] else [] := by
  rw [activeElems, activeElems, List.range_succ, List.filter_append, List.map_append]
  cases h : active w m n <;> simp [h]

variable {w m x}

theorem mem_activeElems {n v : Nat} : v ∈ activeElems w m x n ↔ ∃ j, j < n ∧ active w m j = true ∧ velem w x j = v := by
  simp [activeElems, and_assoc]

theorem activeIn_le (n : Nat) : activeIn w m n ≤ n := by
  simpa [activeIn] using List.countP_le_length (p := active w m) (l := List.range n)

/-- An active element stands behind the active ones below it. -/
theorem getElem?_activeElems {n j : Nat} (hj : j < n) (hon : active w m j = true) :
    (activeElems w m x n)[activeIn w m j]? = some (velem w x j) := by
  induction n with
  | zero => exact absurd hj (Nat.not_lt_zero j)
  | succ n ih =>
    rw [activeElems_succ]
    obtain h | rfl := Nat.lt_succ_iff_lt_or_eq.1 hj
    · obtain ⟨hlt, -⟩ := List.getElem?_eq_some_iff.1 (ih h)
      rw [List.getElem?_append_left hlt, ih h]
    · rw [if_pos hon, ← length_activeElems w m x j, List.getElem?_concat_length]

theorem vactive_eq : vactive w m x = activeElems w m x (512 / w) := by
  have h : ∀ l : List Nat, (l.filterMap fun j => if vact w m j then some (velem w x j) else none) =
      (l.filter (active w m)).map (velem w x) := by
    intro l
    induction l with
    | nil => rfl
    | cons j l ih =>
      rw [List.filterMap_cons, List.filter_cons, ih, vact_eq_active]
      cases active w m j <;> rfl
  exact h _

theorem activeBelow_eq (j : Nat) : activeBelow w m j = activeIn w m j := by
  rw [activeBelow, activeIn, List.countP_eq_length_filter, funext (vact_eq_active w m)]

end Elems

/-! ## Properties that an operation hands on -/

/-- Values that are combined, and what the combination makes of them: nothing of none, else a value with a property. -/
def Reduces (Q : Multiset Nat → Nat → Prop) (S : Multiset Nat) : Option Nat → Prop
  | none => S = 0
  | some v => Q S v

/-- The operation hands a property on from two sets of values to their union. -/
structure Combines (f : Nat → Nat → Nat) (Q : Multiset Nat → Nat → Prop) : Prop where
  single : ∀ a, Q {a} a
  union : ∀ {S T a b}, Q S a → Q T b → Q (S + T) (f a b)

/-- The combination of two places of which each may be empty (R145). -/
def pairing (f : Nat → Nat → Nat) (p : Option Nat × Option Nat) : Option Nat :=
  match p.1, p.2 with
  | some a, some b => some (f a b)
  | some a, none => some a
  | none, b => b

section Reduce

variable {f : Nat → Nat → Nat} {Q : Multiset Nat → Nat → Prop}

theorem Combines.pairing (h : Combines f Q) {S T : Multiset Nat} {a b : Option Nat} (ha : Reduces Q S a) (hb : Reduces Q T b) :
    Reduces Q (S + T) (pairing f (a, b)) := by
  cases a with
  | none =>
    rw [show S = 0 from ha, zero_add]
    exact hb
  | some a =>
    cases b with
    | none =>
      rw [show T = 0 from hb, add_zero]
      exact ha
    | some b => exact h.union ha hb

theorem redPairs_succ (f : Nat → Nat → Nat) (k : Nat) (l : List (Option Nat)) :
    redPairs f (k + 1) l = redPairs f k (((l.take (l.length / 2)).zip (l.drop (l.length / 2))).map (pairing f)) := rfl

/-- The halves of a list of places, each with the values that went into it. -/
theorem redPairs_reduces (h : Combines f Q) (k : Nat) (l : List (Multiset Nat × Option Nat)) (hl : l.length = 2 ^ k)
    (hr : ∀ p ∈ l, Reduces Q p.1 p.2) : Reduces Q (l.map Prod.fst).sum (redPairs f k (l.map Prod.snd)) := by
  induction k generalizing l with
  | zero =>
    obtain ⟨p, rfl⟩ := List.length_eq_one_iff.1 hl
    simpa [redPairs] using hr p
  | succ k ih =>
    have hhalf : l.length / 2 = 2 ^ k := by omega
    have htake : (l.take (2 ^ k)).length = 2 ^ k := by rw [List.length_take]; omega
    have hdrop : (l.drop (2 ^ k)).length = 2 ^ k := by rw [List.length_drop]; omega
    have hstep := ih (((l.take (2 ^ k)).zip (l.drop (2 ^ k))).map fun q => (q.1.1 + q.2.1, pairing f (q.1.2, q.2.2)))
      (by rw [List.length_map, List.length_zip, htake, hdrop, min_self]) fun p hp => by
        obtain ⟨q, hq, rfl⟩ := List.mem_map.1 hp
        obtain ⟨h1, h2⟩ := List.of_mem_zip hq
        exact h.pairing (hr _ (List.mem_of_mem_take h1)) (hr _ (List.mem_of_mem_drop h2))
    have hsum : (((l.take (2 ^ k)).zip (l.drop (2 ^ k))).map fun q => q.1.1 + q.2.1).sum = (l.map Prod.fst).sum := by
      have h1 := congrArg (List.map Prod.fst) (List.map_fst_zip (l₁ := l.take (2 ^ k)) (l₂ := l.drop (2 ^ k)) (by omega))
      have h2 := congrArg (List.map Prod.fst) (List.map_snd_zip (l₁ := l.take (2 ^ k)) (l₂ := l.drop (2 ^ k)) (by omega))
      rw [List.map_map] at h1 h2
      rw [List.sum_map_add]
      refine (congrArg₂ (· + ·) (congrArg List.sum h1) (congrArg List.sum h2)).trans ?_
      rw [← List.sum_append, ← List.map_append, List.take_append_drop]
    rw [List.map_map, List.map_map] at hstep
    rw [redPairs_succ, List.length_map, hhalf, ← List.map_take, ← List.map_drop, List.zip_map, List.map_map, ← hsum]
    exact hstep

/-- The place of an element in the pairing: empty where it is not active. -/
def placeOf (w : Nat) (m : Mask) (x : VWord) (j : Nat) : Multiset Nat × Option Nat :=
  if vact w m j then ({velem w x j}, some (velem w x j)) else (0, none)

theorem placeOf_fst (w : Nat) (m : Mask) (x : VWord) :
    Prod.fst ∘ placeOf w m x = fun j => if vact w m j then {velem w x j} else 0 :=
  funext fun j => apply_ite Prod.fst (vact w m j = true) _ _

theorem placeOf_snd (w : Nat) (m : Mask) (x : VWord) :
    Prod.snd ∘ placeOf w m x = fun j => if vact w m j then some (velem w x j) else none :=
  funext fun j => apply_ite Prod.snd (vact w m j = true) _ _

/-- The pairing of R145 over the lanes of a register. -/
theorem redPairs_elems (h : Combines f Q) {w k : Nat} (hk : 512 / w = 2 ^ k) (m : Mask) (x : VWord) :
    Reduces Q (activeElems w m x (512 / w))
      (redPairs f k ((vidx w).map fun j => if vact w m j then some (velem w x j) else none)) := by
  have hsum : ∀ l : List Nat, (l.map fun j => if vact w m j then ({velem w x j} : Multiset Nat) else 0).sum =
      ((l.filter (active w m)).map (velem w x) : List Nat) := by
    intro l
    induction l with
    | nil => rfl
    | cons j l ih =>
      rw [List.map_cons, List.sum_cons, ih, vact_eq_active, List.filter_cons]
      cases active w m j
      · simp
      · simp
  have hpairs := redPairs_reduces h k ((vidx w).map (placeOf w m x)) (by rw [List.length_map, vidx, List.length_range, hk]) fun p hp => by
    obtain ⟨j, -, rfl⟩ := List.mem_map.1 hp
    unfold placeOf
    split
    · exact h.single _
    · rfl
  rw [List.map_map, List.map_map, placeOf_fst, placeOf_snd] at hpairs
  rw [activeElems, ← hsum]
  exact hpairs

/-- The combination of a list from its first element on (R146); none of an empty one. -/
def prefixOf (f : Nat → Nat → Nat) : List Nat → Option Nat
  | [] => none
  | a :: l => some (l.foldl f a)

/-- A combination with one more element. -/
def extended (f : Nat → Nat → Nat) (acc : Option Nat) (a : Nat) : Nat :=
  match acc with
  | none => a
  | some v => f v a

theorem prefixOf_concat (f : Nat → Nat → Nat) (l : List Nat) (a : Nat) :
    prefixOf f (l ++ [a]) = some (extended f (prefixOf f l) a) := by
  cases l with
  | nil => rfl
  | cons b l => rw [List.cons_append, prefixOf, List.foldl_append]; rfl

theorem prefixOf_reduces (h : Combines f Q) (l : List Nat) : Reduces Q l (prefixOf f l) := by
  induction l using List.reverseRecOn with
  | nil => rfl
  | append_singleton l a ih =>
    rw [prefixOf_concat, ← Multiset.coe_add]
    cases hv : prefixOf f l with
    | none =>
      rw [hv] at ih
      rw [show (l : Multiset Nat) = 0 from ih, zero_add]
      exact h.single a
    | some v =>
      rw [hv] at ih
      exact h.union ih (h.single a)

end Reduce

/-! ## Prefixes of the active elements (R146) -/

section Scan

variable (f : Nat → Nat → Nat) (w : Nat) (m : Mask) (zero : Bool) (x old : VWord)

/-- The combination of the active elements up to and with element j. -/
def prefixAt (j : Nat) : Nat := (prefixOf f (activeElems w m x (j + 1))).getD 0

variable {w m} in
theorem scanLoop_active {j : Nat} (h : active w m j = true) (t : List Nat) (acc : Option Nat) :
    scanLoop f w m zero x old (j :: t) acc =
      extended f acc (velem w x j) :: scanLoop f w m zero x old t (some (extended f acc (velem w x j))) := by
  rw [← vact_eq_active] at h
  cases acc <;> exact if_pos h

variable {w m} in
theorem scanLoop_inactive {j : Nat} (h : active w m j = false) (t : List Nat) (acc : Option Nat) :
    scanLoop f w m zero x old (j :: t) acc =
      (if zero then 0 else velem w old j) :: scanLoop f w m zero x old t acc := by
  rw [← vact_eq_active] at h
  cases acc <;> exact if_neg (Bool.not_eq_true _ ▸ h)

/-- Scanned lanes split at any element. -/
theorem scanLoop_range_append (n : Nat) (rest : List Nat) :
    scanLoop f w m zero x old (List.range n ++ rest) none =
      (List.range n).map (laneOr w m zero old (prefixAt f w m x)) ++
        scanLoop f w m zero x old rest (prefixOf f (activeElems w m x n)) := by
  induction n generalizing rest with
  | zero => rfl
  | succ n ih =>
    rw [List.range_succ, List.append_assoc, List.singleton_append, ih, List.map_append, List.map_singleton, List.append_assoc,
      List.singleton_append, laneOr, prefixAt, activeElems_succ, vact_eq_active]
    cases hon : active w m n with
    | true =>
      rw [scanLoop_active f zero x old hon, if_pos rfl, if_pos rfl, prefixOf_concat, Option.getD_some]
    | false =>
      rw [scanLoop_inactive f zero x old hon, if_neg Bool.false_ne_true, if_neg Bool.false_ne_true, List.append_nil]

theorem scanLoop_range (n : Nat) :
    scanLoop f w m zero x old (List.range n) none = (List.range n).map (laneOr w m zero old (prefixAt f w m x)) := by
  have h := scanLoop_range_append f w m zero x old n []
  rwa [List.append_nil, scanLoop, List.append_nil] at h

end Scan

/-- The initial segment of an active element is the combination of a list that is not empty. -/
theorem prefixOf_active (f : Nat → Nat → Nat) {w : Nat} {m : Mask} (x : VWord) {j : Nat} (hon : active w m j = true) :
    prefixOf f (activeElems w m x (j + 1)) = some (prefixAt f w m x j) := by
  rw [prefixAt, activeElems_succ, if_pos hon, prefixOf_concat, Option.getD_some]

/-- VSCAN completes with the combination of each initial segment that ends in an active element. -/
theorem givesV_vscan {s : State} {op : RedOp} {r : Rnd} {e : Elem} {d x : VReg} {vm : VM} {P : Nat → BitVec (velemWidth e) → Prop}
    (hP : ∀ j, j < 512 / velemWidth e → active (velemWidth e) (s.th.rm vm.mask) j = true →
      P j (BitVec.ofNat _ (prefixAt (redOp op r e) (velemWidth e) (s.th.rm vm.mask) (s.th.rv x) j))) :
    GivesV (.vscan op r e d x vm) s 8 (velemWidth e) d vm P := by
  refine ⟨_, governed_vpack (prefixAt (redOp op r e) (velemWidth e) (s.th.rm vm.mask) (s.th.rv x)) hP,
    gives_of_produce (f := fun t => [.v d (vpack (velemWidth e) (scanLoop (redOp op r e) (velemWidth e) (t.rm vm.mask) vm.zero
      (t.rv x) (t.rv d) (vidx (velemWidth e)) none))]) rfl ?_⟩
  rw [vidx, scanLoop_range]

/-! ## Sums, least and greatest values -/

/-- The sum of values modulo 2^w. -/
def SumOf (w : Nat) (S : Multiset Nat) (v : Nat) : Prop := BitVec.ofNat w v = (S.map (BitVec.ofNat w)).sum

/-- One of the values, in relation to all of them. -/
def ChosenOf (le : Nat → Nat → Prop) (S : Multiset Nat) (v : Nat) : Prop := v ∈ S ∧ ∀ b ∈ S, le v b

theorem combines_add (w : Nat) : Combines (fun a b => (a + b) % 2 ^ w) (SumOf w) where
  single a := by simp [SumOf]
  union ha hb := by
    rw [SumOf, ofNat_mod, BitVec.ofNat_add, Multiset.map_add, Multiset.sum_add, ha, hb]

theorem combines_chosen {f : Nat → Nat → Nat} {le : Nat → Nat → Prop} (hrefl : ∀ a, le a a)
    (htrans : ∀ {a b c}, le a b → le b c → le a c) (hf : ∀ a b, f a b = a ∧ le a b ∨ f a b = b ∧ le b a) :
    Combines f (ChosenOf le) where
  single a := ⟨Multiset.mem_singleton_self a, fun b hb => Multiset.mem_singleton.1 hb ▸ hrefl a⟩
  union {S T a b} ha hb := by
    obtain ⟨haS, haMin⟩ := ha
    obtain ⟨hbT, hbMin⟩ := hb
    obtain ⟨hab, hle⟩ | ⟨hab, hle⟩ := hf a b
    · rw [hab]
      refine ⟨Multiset.mem_add.2 (.inl haS), fun c hc => ?_⟩
      exact (Multiset.mem_add.1 hc).elim (haMin c) fun hc => htrans hle (hbMin c hc)
    · rw [hab]
      refine ⟨Multiset.mem_add.2 (.inr hbT), fun c hc => ?_⟩
      exact (Multiset.mem_add.1 hc).elim (fun hc => htrans hle (haMin c hc)) (hbMin c)

/-- A value chosen among the active elements is one of them. -/
theorem chosen_elems {le : Nat → Nat → Prop} {w : Nat} {m : Mask} {x : VWord} {n v : Nat}
    (h : Reduces (ChosenOf le) (activeElems w m x n) (some v)) :
    ∃ j, j < n ∧ active w m j = true ∧ velem w x j = v ∧ ∀ k, k < n → active w m k = true → le v (velem w x k) := by
  obtain ⟨hmem, hall⟩ := h
  obtain ⟨j, hj, hon, rfl⟩ := mem_activeElems.1 (Multiset.mem_coe.1 hmem)
  exact ⟨j, hj, hon, rfl, fun k hk hk' => hall _ (Multiset.mem_coe.2 (mem_activeElems.2 ⟨k, hk, hk', rfl⟩))⟩

/-- Only where no element is active are there none to combine. -/
theorem activeElems_eq_nil {w : Nat} {m : Mask} {x : VWord} {n : Nat} (h : (activeElems w m x n : Multiset Nat) = 0) {j : Nat}
    (hj : j < n) : active w m j = false := by
  by_contra hon
  have hmem : velem w x j ∈ activeElems w m x n := mem_activeElems.2 ⟨j, hj, Bool.not_eq_false _ ▸ hon, rfl⟩
  rw [(Multiset.coe_eq_zero _).1 h] at hmem
  exact List.not_mem_nil hmem

end Sys2Proof.Machine
end

section
/-!
PROOFS. VCMP, VSEL and VMASK (R138 to R140): the result bits of each lane.
-/

namespace Sys2Proof.Machine

open Sys2Proof.Spec

/-! ## Lane bits (R138) -/

/-- A lane bit is the test of its element. -/
theorem getLsbD_laneBits (w : Nat) (f : Nat → Bool) {k : Nat} (hk : k < 16) : (laneBits w f).getLsbD k = f (k * 32 / w) := by
  have hlen : 1 * ((List.range 16).map fun i => if f (if w = 64 then i / 2 else i * 32 / w) then 1 else 0).length ≤ 16 := by simp
  have hindex : (if w = 64 then k / 2 else k * 32 / w) = k * 32 / w := by
    split
    · subst w
      omega
    · rfl
  have helem := vpackN_elem 1 ((List.range 16).map fun i => if f (if w = 64 then i / 2 else i * 32 / w) then 1 else 0) k
  rw [List.getD_eq_getElem?_getD, List.getElem?_map, List.getElem?_range hk, Option.map_some, Option.getD_some, hindex,
    Nat.one_mul, Nat.pow_one] at helem
  rw [BitVec.getLsbD, laneBits, toNat_ofNat_vpackN hlen, Nat.testBit_eq_decide_div_mod_eq, helem]
  cases f (k * 32 / w) <;> rfl

/-- A mask result bit by bit (R131). -/
theorem getLsbD_maskInto (m : Mask) (zero : Bool) (old r : Mask) {k : Nat} (hk : k < 16) :
    (maskInto m zero old r).getLsbD k = if m.getLsbD k then r.getLsbD k else if zero then false else old.getLsbD k := by
  rw [maskInto, BitVec.getLsbD_or, BitVec.getLsbD_and]
  cases zero with
  | true =>
    rw [if_pos rfl, show (0 : Mask).getLsbD k = false from BitVec.getLsbD_zero]
    cases m.getLsbD k <;> simp
  | false =>
    rw [if_neg Bool.false_ne_true, BitVec.getLsbD_and, BitVec.getLsbD_not, decide_eq_true hk]
    cases m.getLsbD k <;> simp

/-! ## VCMP, VSEL and VMASK (R138 to R140) -/

/-- The test of element j (R49, R138). -/
def cmpTest (c : Cond) (e : Elem) (x y : VWord) (j : Nat) : Bool :=
  if elemIsInt e then intCondW c (velemWidth e) (velem (velemWidth e) x j) (velem (velemWidth e) y j)
  else fpCond c ((elemFmt e).decode (velem (velemWidth e) x j)) ((elemFmt e).decode (velem (velemWidth e) y j))

/-- VCMP completes with the test of each active element. -/
theorem gives_vcmp (s : State) (c : Cond) (e : Elem) (d : MReg) (x y : VReg) (vm : VM) (test : Nat → Bool)
    (htest : ∀ j, cmpTest c e (s.th.rv x) (s.th.rv y) j = test j) :
    ∃ r : Mask, Gives (.vcmp c e d x y vm) s (some 4) [.m d r] ∧ ∀ k, k < 16 →
      r.getLsbD k = if active (velemWidth e) (s.th.rm vm.mask) (k * 32 / velemWidth e) then test (k * 32 / velemWidth e)
        else if vm.zero then false else (s.th.rm d).getLsbD k := by
  refine ⟨_, gives_of_retire rfl, fun k hk => ?_⟩
  rw [getLsbD_maskInto _ _ _ _ hk, activeBits, getLsbD_laneBits _ _ hk, getLsbD_laneBits _ _ hk, vact_eq_active]
  exact if_congr Iff.rfl (htest _) rfl

/-- A condition on two elements. -/
theorem intCondW_velem {w : Nat} (hw : 0 < w) (c : Cond) (x y : VWord) (j : Nat) :
    intCondW c w (velem w x j) (velem w y j) =
      intCond c (lane w x j).toInt (lane w y j).toInt (lane w x j).toNat (lane w y j).toNat := by
  rw [intCondW, signedNat_velem hw, signedNat_velem hw, toNat_lane, toNat_lane, Nat.mod_eq_of_lt (velem_lt ..),
    Nat.mod_eq_of_lt (velem_lt ..)]

/-- The lowest set bit stands alone. -/
theorem getLsbD_lowestBit (m : Mask) {k : Nat} (hk : k < 16) :
    (lowestBit m).getLsbD k = true ↔ m.getLsbD k = true ∧ ∀ i, i < k → m.getLsbD i = false := by
  have hneg : (0 : Mask) - m = -m := BitVec.zero_sub m
  rw [lowestBit, hneg, BitVec.getLsbD_and, BitVec.getLsbD_neg, decide_eq_true hk, Bool.true_and, Bool.and_eq_true]
  refine and_congr_right fun hset => ?_
  rw [hset, Bool.true_xor, Bool.not_eq_true', decide_eq_false_iff_not]
  simp

/-- VMASK completes with a mask, for each operation that gives one. -/
theorem gives_vmask {s : State} {p : PReg} {o : MaskOp} {vm : VM} {d : MReg}
    (ho : maskWrite s.th vm o = .m d (maskInto (s.th.rm vm.mask) vm.zero (s.th.rm d) (maskResult s.th o))) :
    ∃ res : Mask,
      Gives (.vmask p o vm) s (some 1) [.m d res, .p p (decide (maskResult s.th o &&& s.th.rm vm.mask ≠ 0))] ∧
      ∀ k, k < 16 → res.getLsbD k = if (s.th.rm vm.mask).getLsbD k then (maskResult s.th o).getLsbD k
        else if vm.zero then false else (s.th.rm d).getLsbD k :=
  ⟨_, gives_of_produce (show exec _ s = execVmask p o vm s from rfl) (by rw [ho]), fun k hk => getLsbD_maskInto _ _ _ _ hk⟩

theorem vectorCompareAndMasks : VectorCompareAndMasks := by
  intro s c d v x y vm p b1 b2 g t gov
  refine ⟨?_, ?_, ?_⟩
  · intro q hq
    simp only [List.mem_cons, List.not_mem_nil, or_false] at hq
    obtain rfl | rfl | rfl := hq
    · exact gives_vcmp s c .i32 d x y vm _ fun j => intCondW_velem (by decide) c _ _ j
    · exact gives_vcmp s c .i64 d x y vm _ fun j => intCondW_velem (by decide) c _ _ j
    · exact gives_vcmp s c .fp32 d x y vm _ fun j =>
        congrArg₂ (fun a b => fpCond c (fp32.decode a) (fp32.decode b)) (toNat_lane ..).symm (toNat_lane ..).symm
  · refine ⟨_, governed_m0 fun j hj => ?_, gives_of_produce (show exec _ s = execVsel v x y d s from rfl) rfl⟩
    rw [lane_vpack_map _ hj, vact_eq_active, active_lane]
    exact (apply_ite (BitVec.ofNat 32) _ _ _).trans (by rw [ofNat_velem, ofNat_velem])
  · refine ⟨gives_vmask rfl, gives_vmask rfl, gives_vmask rfl, gives_vmask rfl, gives_vmask rfl, gives_vmask rfl, gives_vmask rfl,
      ⟨_, gives_vmask (o := .first d b1) rfl, fun k hk => getLsbD_lowestBit _ hk⟩,
      _, gives_of_produce (show exec _ s = execVmask p (.toG g b1) vm s from rfl) rfl, fun k => ?_⟩
    rw [BitVec.getLsbD_setWidth, BitVec.getLsbD_and]
    by_cases hk : k < 16
    · rw [decide_eq_true hk, decide_eq_true (show k < 64 by omega)]
      rfl
    · rw [BitVec.getLsbD_of_ge (s.th.rm vm.mask) k (by omega), decide_eq_false hk, Bool.and_false, Bool.and_false, Bool.false_and]

end Sys2Proof.Machine
end

section
/-!
PROOFS. VBCAST, VEXT, VINS, VPERM, VCOMP and VXPND (R141 to R144).
-/

namespace Sys2Proof.Machine

open Sys2Proof.Spec

theorem wordOf_signedNat {w : Nat} (hw : 0 < w) (hw64 : w ≤ 64) (n : Nat) :
    (wordOf (signedNat w n)).toInt = (BitVec.ofNat w n).toInt := by
  rw [signedNat_ofNat hw]
  exact BitVec.toInt_signExtend_of_le hw64

/-- The element codes of the moves with their widths (R132, R141). -/
theorem moveCodes_fields {e : Elem} {w : Nat} (hp : (e, w) ∈
      [(Elem.i8, 8), (.i16, 16), (.i32, 32), (.i64, 64), (.fp16, 16), (.bf16, 16), (.fp32, 32)]) :
    velemWidth e = w ∧ 0 < w ∧ w ≤ 64 := by
  have h : ∀ p ∈ [(Elem.i8, 8), (.i16, 16), (.i32, 32), (.i64, 64), (.fp16, 16), (.bf16, 16), (.fp32, 32)],
      velemWidth p.1 = p.2 ∧ 0 < p.2 ∧ p.2 ≤ 64 := by decide
  exact h _ hp

/-- VEXT gives the element that the index names, as the format extends it. -/
theorem givesG_vext {s : State} {e : Elem} (hw : 0 < velemWidth e) (hw64 : velemWidth e ≤ 64) (g : GReg) (x : VReg) (idx : Opd) :
    GivesG (.vext e g x idx) s (some 4) g fun v =>
      (512 / velemWidth e ≤ (src s.th idx).toNat → v = 0) ∧
      ((src s.th idx).toNat < 512 / velemWidth e → elemIsInt e = true →
        v.toInt = (lane (velemWidth e) (s.th.rv x) (src s.th idx).toNat).toInt) ∧
      ((src s.th idx).toNat < 512 / velemWidth e → elemIsInt e = false →
        v.toNat = (lane (velemWidth e) (s.th.rv x) (src s.th idx).toNat).toNat) := by
  refine ⟨_, ?_, gives_of_retire rfl⟩
  rw [opdVal_eq_src]
  refine ⟨fun h => if_pos h, fun h he => ?_, fun h he => ?_⟩
  · rw [if_neg (not_le.2 h), if_pos he, wordOf_signedNat hw hw64, ofNat_velem]
  · have hlt := (velem_lt (velemWidth e) (s.th.rv x) (src s.th idx).toNat).trans_le (Nat.pow_le_pow_right two_pos hw64)
    rw [if_neg (not_le.2 h), if_neg (Bool.not_eq_true _ ▸ he), BitVec.toNat_ofNat, Nat.mod_eq_of_lt hlt, toNat_lane]

/-- VINS replaces one element. -/
theorem givesV_vins (s : State) (e : Elem) (d : VReg) (g : GReg) (idx : Opd) :
    GivesV (.vins e d g idx) s 4 (velemWidth e) d ⟨0, false⟩ fun j v =>
      v = if j = (src s.th idx).toNat then (s.th.rg g).setWidth (velemWidth e) else lane (velemWidth e) (s.th.rv d) j := by
  refine ⟨_, governed_m0 fun j hj => ?_, gives_of_retire rfl⟩
  rw [opdVal_eq_src, lane_vpack_map _ hj, apply_ite (BitVec.ofNat _), ofNat_mod, BitVec.ofNat_toNat, ofNat_velem]

/-- VCOMP packs the active elements below the others. -/
theorem gives_vcomp {s : State} {e : Elem} (d x : VReg) (vm : VM) :
    let w := velemWidth e
    let m := s.th.rm vm.mask
    ∃ r : VWord, Gives (.vcomp e d x vm) s (some 4) [.v d r] ∧
      (∀ j, j < 512 / w → active w m j = true → lane w r (activeIn w m j) = lane w (s.th.rv x) j) ∧
      ∀ k, activeIn w m (512 / w) ≤ k → k < 512 / w → lane w r k = if vm.zero then 0 else lane w (s.th.rv d) k := by
  intro w m
  refine ⟨_, gives_of_retire rfl, fun j hj hon => ?_, fun k hk hlt => ?_⟩
  · rw [lane_vpack_map _ ((activeIn_le j).trans_lt hj), vactive_eq, getElem?_activeElems hj hon, Option.getD_some, ofNat_velem]
  · rw [lane_vpack_map _ hlt, vactive_eq, List.getElem?_eq_none (by rwa [length_activeElems]), Option.getD_none,
      apply_ite (BitVec.ofNat _), ofNat_velem]
    rfl

theorem vectorMoves : VectorMoves := by
  intro s d x y g idx vm t
  refine ⟨?_, ?_, ?_⟩
  · rintro ⟨e, w⟩ hp
    obtain ⟨rfl, hw, hw64⟩ := moveCodes_fields hp
    refine ⟨?_, givesG_vext hw hw64 g x idx, givesV_vins s e d g idx⟩
    refine givesV_of_vlanes (show exec _ s = execVbcast e d g vm s from rfl) fun j _ _ => ?_
    rw [ofNat_mod, BitVec.ofNat_toNat]
  · refine givesV_of_vlanes (show exec _ s = execVperm d x y vm s from rfl) fun j _ _ => ?_
    rw [toNat_lane, apply_ite (BitVec.ofNat _), ofNat_velem]
    rfl
  · rintro ⟨e, w⟩ hp
    have hw : ∀ p ∈ [(Elem.i32, 32), (.fp32, 32), (.i64, 64)], velemWidth p.1 = p.2 := by decide
    obtain rfl : velemWidth e = w := hw _ hp
    refine ⟨?_, gives_vcomp d x vm⟩
    refine givesV_of_vlanes (show exec _ s = execVxpnd e d x vm s from rfl) fun j _ _ => ?_
    rw [activeBelow_eq, ofNat_velem]

end Sys2Proof.Machine
end

section
/-!
PROOFS. VRED and VSCAN (R145, R146): sums, least and greatest values of the active elements and of each initial segment,
and the order of FP32.
-/

namespace Sys2Proof.Machine

open Sys2Proof.Spec

theorem reductionCodes_fields {e : Elem} {w : Nat} (hp : (e, w) ∈ [(Elem.i32, 32), (.i64, 64)]) :
    elemIsInt e = true ∧ velemWidth e = w ∧ 0 < w ∧ w ≤ 64 ∧ 512 / w = 2 ^ (if w = 64 then 3 else 4) := by
  have h : ∀ p ∈ [(Elem.i32, 32), (.i64, 64)],
      elemIsInt p.1 = true ∧ velemWidth p.1 = p.2 ∧ 0 < p.2 ∧ p.2 ≤ 64 ∧ 512 / p.2 = 2 ^ (if p.2 = 64 then 3 else 4) := by decide
  exact h _ hp

section Integers

variable {e : Elem} (he : elemIsInt e = true) (r : Rnd)

include he in
theorem redOp_add : redOp .add r e = fun a b => (a + b) % 2 ^ velemWidth e := by
  funext a b
  exact if_pos he

include he in
theorem combines_redOp_min :
    Combines (redOp .min r e) (ChosenOf fun a b => signedNat (velemWidth e) a ≤ signedNat (velemWidth e) b) := by
  refine combines_chosen (fun a => le_refl _) le_trans fun a b => ?_
  rw [redOp, (vMinMax_signed he a b).1]
  split <;> omega

include he in
theorem combines_redOp_max :
    Combines (redOp .max r e) (ChosenOf fun a b => signedNat (velemWidth e) b ≤ signedNat (velemWidth e) a) := by
  refine combines_chosen (fun a => le_refl _) (fun h h' => le_trans h' h) fun a b => ?_
  rw [redOp, (vMinMax_signed he a b).2]
  split <;> omega

end Integers

/-- The sum of the active elements, as a fold in their order. -/
theorem sum_activeElems (w : Nat) (m : Mask) (x : VWord) (n : Nat) :
    ((activeElems w m x n : Multiset Nat).map (BitVec.ofNat w)).sum =
      ((List.range n).filter fun j => active w m j).foldl (fun z j => z + lane w x j) (0 : BitVec w) := by
  rw [Multiset.map_coe, Multiset.sum_coe, activeElems, List.map_map, List.sum_eq_foldl, List.foldl_map]
  simp only [Function.comp_apply, ofNat_velem]

/-- The code that VRED finds: that of the pairing, or of an empty reduction (R145). -/
def redCode (op : RedOp) (r : Rnd) (e : Elem) (m : Mask) (x : VWord) : Nat :=
  (redPairs (redOp op r e) (if velemWidth e = 64 then 3 else 4)
    ((vidx (velemWidth e)).map fun j => if vact (velemWidth e) m j then some (velem (velemWidth e) x j) else none)).getD
    (redEmpty op e)

theorem gives_vred (s : State) (op : RedOp) (r : Rnd) {e : Elem} (he : elemIsInt e = true) (g : GReg) (x : VReg) (m : MReg) :
    Gives (.vred op r e g x m) s (some 8) [.g g (wordOf (signedNat (velemWidth e) (redCode op r e (s.th.rm m) (s.th.rv x))))] := by
  refine gives_of_produce (show exec _ s = execVred op r e g x m s from rfl) ?_
  rw [vredValue, if_pos he]
  rfl

section Reduced

variable {op : RedOp} {r : Rnd} {e : Elem} {w : Nat} (m : Mask) (x : VWord)

/-- The sum of the active elements. -/
theorem ofNat_redCode_add (he : elemIsInt e = true) (hk : 512 / velemWidth e = 2 ^ (if velemWidth e = 64 then 3 else 4)) :
    BitVec.ofNat (velemWidth e) (redCode .add r e m x) =
      ((List.range (512 / velemWidth e)).filter fun j => active (velemWidth e) m j).foldl (fun z j => z + lane (velemWidth e) x j) 0 := by
  have h := redPairs_elems (combines_add (velemWidth e)) hk m x
  rw [← redOp_add he r] at h
  rw [← sum_activeElems, redCode]
  generalize redPairs _ _ _ = o at h ⊢
  cases o with
  | none =>
    rw [show (activeElems _ m x _ : Multiset Nat) = 0 from h]
    rfl
  | some v => exact h

/-- The least or the greatest of the active elements; the value of an empty reduction where none is active. -/
theorem redCode_chosen {le : Int → Int → Prop}
    (h : Combines (redOp op r e) (ChosenOf fun a b => le (signedNat (velemWidth e) a) (signedNat (velemWidth e) b)))
    (hw : 0 < velemWidth e) (hw64 : velemWidth e ≤ 64) (hk : 512 / velemWidth e = 2 ^ (if velemWidth e = 64 then 3 else 4)) :
    let n := 512 / velemWidth e
    let on := active (velemWidth e) m
    let v := wordOf (signedNat (velemWidth e) (redCode op r e m x))
    (∀ j, j < n → on j = true → le v.toInt (lane (velemWidth e) x j).toInt) ∧
      ((∃ j, j < n ∧ on j = true ∧ v.toInt = (lane (velemWidth e) x j).toInt) ∨
        (∀ j, j < n → on j = false) ∧ v.toInt = signedNat (velemWidth e) (redEmpty op e)) := by
  have hred := redPairs_elems h hk m x
  intro n on v
  have hv : v.toInt = (BitVec.ofNat (velemWidth e) (redCode op r e m x)).toInt := wordOf_signedNat hw hw64 _
  rw [hv, redCode]
  generalize redPairs _ _ _ = o at hred ⊢
  cases o with
  | none =>
    have hoff : ∀ j, j < n → on j = false := fun j hj => activeElems_eq_nil hred hj
    exact ⟨fun j hj hon => absurd hon (by simp [hoff j hj]), .inr ⟨hoff, (signedNat_ofNat hw _).symm⟩⟩
  | some c =>
    obtain ⟨j, hj, hon, rfl, hall⟩ := chosen_elems hred
    rw [Option.getD_some, ofNat_velem]
    simp only [signedNat_velem hw] at hall
    exact ⟨hall, .inl ⟨j, hj, hon, rfl⟩⟩

/-- The least or the greatest of an initial segment that ends in an active element. -/
theorem prefixAt_chosen {f : Nat → Nat → Nat} {le : Int → Int → Prop} (hw : 0 < w)
    (h : Combines f (ChosenOf fun a b => le (signedNat w a) (signedNat w b))) {j : Nat} (hon : active w m j = true) :
    (∀ k, k ≤ j → active w m k = true → le (BitVec.ofNat w (prefixAt f w m x j)).toInt (lane w x k).toInt) ∧
      ∃ k, k ≤ j ∧ active w m k = true ∧ BitVec.ofNat w (prefixAt f w m x j) = lane w x k := by
  have hred := prefixOf_reduces h (activeElems w m x (j + 1))
  rw [prefixOf_active f x hon] at hred
  obtain ⟨k, hk, hkon, hv, hall⟩ := chosen_elems hred
  rw [← hv, ofNat_velem]
  rw [← hv] at hall
  simp only [signedNat_velem hw] at hall
  exact ⟨fun i hi => hall i (Nat.lt_succ_of_le hi), k, Nat.le_of_lt_succ hk, hkon, rfl⟩

/-- The sum of an initial segment that ends in an active element. -/
theorem ofNat_prefixAt_add (he : elemIsInt e = true) {j : Nat} (hon : active (velemWidth e) m j = true) :
    BitVec.ofNat (velemWidth e) (prefixAt (redOp .add r e) (velemWidth e) m x j) =
      ((List.range (j + 1)).filter fun k => active (velemWidth e) m k).foldl (fun z k => z + lane (velemWidth e) x k) 0 := by
  have hred := prefixOf_reduces (combines_add (velemWidth e)) (activeElems (velemWidth e) m x (j + 1))
  rw [← redOp_add he r, prefixOf_active _ x hon] at hred
  rw [← sum_activeElems]
  exact hred

end Reduced

/-- The least and the greatest value of a signed width, from their codes. -/
theorem signedNat_limits {w : Nat} (hw : 0 < w) :
    signedNat w (2 ^ (w - 1) - 1) = 2 ^ (w - 1) - 1 ∧ signedNat w (2 ^ (w - 1)) = -2 ^ (w - 1) := by
  obtain ⟨k, rfl⟩ := Nat.exists_eq_succ_of_ne_zero hw.ne'
  have hpos := Nat.two_pow_pos k
  have hpow : 2 ^ (k + 1) = 2 * 2 ^ k := Nat.pow_succ'
  simp only [signedNat, Nat.succ_eq_add_one, Nat.add_sub_cancel]
  rw [Nat.mod_eq_of_lt (by omega), Nat.mod_eq_of_lt (by omega), if_pos (by omega), if_neg (by omega)]
  constructor
  · push_cast [Nat.one_le_two_pow]
    rfl
  · push_cast
    ring

theorem vectorReductions : VectorReductions := by
  intro s r g d x m vm t
  refine ⟨?_, fun op => ⟨_, ?_, gives_of_produce (show exec _ s = execVred op r .fp32 g x m s from rfl) rfl⟩, fun op => ?_⟩
  · rintro ⟨e, w⟩ hp
    obtain ⟨he, rfl, hw, hw64, hk⟩ := reductionCodes_fields hp
    obtain ⟨hleast, hgreatest⟩ := signedNat_limits hw
    refine ⟨⟨_, ?_, gives_vred s .add r he g x m⟩, ⟨_, ?_, gives_vred s .min r he g x m⟩,
      ⟨_, ?_, gives_vred s .max r he g x m⟩,
      givesV_vscan fun j _ hon => ofNat_prefixAt_add _ _ he hon,
      givesV_vscan fun j _ hon => prefixAt_chosen _ _ hw (le := (· ≤ ·)) (combines_redOp_min he r) hon,
      givesV_vscan fun j _ hon => prefixAt_chosen _ _ hw (le := (· ≥ ·)) (combines_redOp_max he r) hon⟩
    · exact (wordOf_signedNat hw hw64 _).trans (congrArg BitVec.toInt (ofNat_redCode_add _ _ he hk))
    · have h := redCode_chosen (s.th.rm m) (s.th.rv x) (le := (· ≤ ·)) (combines_redOp_min he r) hw hw64 hk
      rwa [show redEmpty .min e = 2 ^ (velemWidth e - 1) - 1 from if_pos he, hleast] at h
    · have h := redCode_chosen (s.th.rm m) (s.th.rv x) (le := (· ≥ ·)) (combines_redOp_max he r) hw hw64 hk
      rwa [show redEmpty .max e = 2 ^ (velemWidth e - 1) from if_pos he, hgreatest] at h
  · have helem : (fun j => if vact 32 (s.th.rm m) j then some (velem 32 (s.th.rv x) j) else none) =
        fun j => if (s.th.rm m).getLsbD j then some (lane 32 (s.th.rv x) j).toNat else none := by
      funext j
      rw [vact_eq_active, active_lane, toNat_lane]
    change BitVec.ofNat 64 ((redPairs _ 4 ((List.range 16).map _)).getD (redEmpty op .fp32)) = _
    rw [show velemWidth .fp32 = 32 from rfl, helem]
    cases op <;> rfl
  · refine givesV_vscan (e := .fp32) fun j _ hon => ?_
    have hlist : ((List.range (j + 1)).filter fun k => (t.rm vm.mask).getLsbD k).map (fun k => (lane 32 (t.rv x) k).toNat) =
        activeElems 32 (t.rm vm.mask) (t.rv x) (j + 1) := by
      rw [activeElems, funext (active_lane _)]
      exact List.map_congr_left fun k _ => toNat_lane ..
    have hprefix := prefixOf_active (redOp op r .fp32) (t.rv x) hon
    change match ((List.range (j + 1)).filter fun k => (t.rm vm.mask).getLsbD k).map (fun k => (lane 32 (t.rv x) k).toNat) with
      | [] => False
      | h :: tl => _ = BitVec.ofNat 32 (tl.foldl (redOp op r .fp32) h)
    rw [hlist]
    change prefixOf (redOp op r .fp32) (activeElems 32 (t.rm vm.mask) (t.rv x) (j + 1)) = _ at hprefix
    cases hel : activeElems 32 (t.rm vm.mask) (t.rv x) (j + 1) with
    | nil =>
      rw [hel] at hprefix
      cases hprefix
    | cons h tl =>
      rw [hel] at hprefix
      exact congrArg (BitVec.ofNat 32) (Option.some.inj hprefix).symm

end Sys2Proof.Machine
end

section
/-!
PROOFS. VTWO (R148): the rows of its table, then the instruction; and the statement of the compares, moves and reductions.
-/

namespace Sys2Proof.Machine

open Sys2Proof.Spec

/-! ## The rows of the table -/

/-- The lanes at which a mode has come to an end. -/
def twoStops (mode : TwoMode) (a b : BitVec 32) : Prop :=
  match mode with
  | .intersect => a = 0xFFFFFFFF ∨ b = 0xFFFFFFFF
  | .union => a = 0xFFFFFFFF ∧ b = 0xFFFFFFFF
  | .difference => a = 0xFFFFFFFF

section TwoLane

variable {mode : TwoMode} {a b : BitVec 32}

theorem toNat_eq_end (a : BitVec 32) : a.toNat = 0xFFFFFFFF ↔ a = 0xFFFFFFFF := BitVec.toNat_inj (y := 0xFFFFFFFF)

theorem twoLane_of_stops (h : twoStops mode a b) : twoLane mode a.toNat b.toNat = (0xFFFFFFFF, false, false, false) := by
  cases mode <;> grind [twoLane, twoStops, toNat_eq_end]

theorem twoLane_of_lt (h : ¬twoStops mode a b) (hlt : a.toNat < b.toNat) : twoLane mode a.toNat b.toNat =
    ((match mode with | .intersect => 0xFFFFFFFF | .union => a.toNat | .difference => a.toNat), true, false, true) := by
  cases mode <;> grind [twoLane, twoStops, toNat_eq_end]

theorem twoLane_of_gt (h : ¬twoStops mode a b) (hgt : b.toNat < a.toNat) : twoLane mode a.toNat b.toNat =
    ((match mode with | .intersect => 0xFFFFFFFF | .union => b.toNat | .difference => 0xFFFFFFFF), false, true, true) := by
  cases mode <;> grind [twoLane, twoStops, toNat_eq_end]

theorem twoLane_of_eq (h : ¬twoStops mode a b) (heq : a = b) : twoLane mode a.toNat b.toNat =
    ((match mode with | .intersect => a.toNat | .union => a.toNat | .difference => 0xFFFFFFFF), true, true, true) := by
  subst heq
  cases mode <;> grind [twoLane, twoStops, toNat_eq_end]

/-- A lane is live where the mode has not come to an end. -/
theorem twoLane_live : (twoLane mode a.toNat b.toNat).2.2.2 = true ↔ ¬twoStops mode a b := by
  by_cases h : twoStops mode a b
  · simp [twoLane_of_stops h, h]
  · obtain hlt | heq | hgt := lt_trichotomy a.toNat b.toNat
    · simp [twoLane_of_lt h hlt, h]
    · simp [twoLane_of_eq h (BitVec.toNat_inj.1 heq), h]
    · simp [twoLane_of_gt h hgt, h]

end TwoLane

/-! ## The instruction -/

/-- One bit of each active lane, as VTWO writes its advance masks. -/
theorem getLsbD_and_laneBits (m : Mask) (f : Nat → Bool) {j : Nat} (hj : j < 16) :
    (m &&& laneBits 32 f).getLsbD j = (m.getLsbD j && f j) := by
  rw [BitVec.getLsbD_and, getLsbD_laneBits _ _ hj, Nat.mul_div_cancel _ (by decide)]

theorem mask_ne_zero_iff (m : Mask) : m ≠ 0 ↔ ∃ j, j < 16 ∧ m.getLsbD j = true := by
  rw [ne_eq, ← not_iff_not, not_not]
  refine ⟨fun h => ?_, fun h => BitVec.eq_of_getLsbD_eq fun j hj => ?_⟩
  · rintro ⟨j, -, hj⟩
    rw [h] at hj
    exact absurd hj (by simp)
  · rw [show (0 : Mask).getLsbD j = false from BitVec.getLsbD_zero]
    exact Bool.eq_false_iff.2 fun hset => h ⟨j, hj, hset⟩

/-- The row of R148's table for a lane: the lane of the result, the two advance bits, and whether it is live. -/
def twoRow (t : Thread) (mode : TwoMode) (x y : VReg) (j : Nat) : Nat × Bool × Bool × Bool :=
  twoLane mode (lane 32 (t.rv x) j).toNat (lane 32 (t.rv y) j).toNat

/-- VTWO completes with a row of R148's table for each active lane. -/
theorem gives_vtwo (s : State) (mode : TwoMode) (k : Fin 3) (p : PReg) (d x y : VReg) (vm : VM) :
    let g := s.th.rm vm.mask
    let row := twoRow s.th mode x y
    ∃ (v : VWord) (ma mb : Mask) (live : Bool),
      Gives (.vtwo mode k p d x y vm) s (some 4)
        [.v d v, .m (Fin.ofNat 8 (2 * k.val + 2)) ma, .m (Fin.ofNat 8 (2 * k.val + 3)) mb, .p p live] ∧
      (∀ j, j < 16 → ma.getLsbD j = (g.getLsbD j && (row j).2.1) ∧ mb.getLsbD j = (g.getLsbD j && (row j).2.2.1) ∧
        lane 32 v j = if g.getLsbD j then BitVec.ofNat 32 (row j).1 else if vm.zero then 0 else lane 32 (s.th.rv d) j) ∧
      (live = true ↔ ∃ j, j < 16 ∧ g.getLsbD j = true ∧ (row j).2.2.2 = true) := by
  intro g row
  have hrow : ∀ j, twoLane mode (velem 32 (s.th.rv x) j) (velem 32 (s.th.rv y) j) = row j := fun j => by
    rw [← toNat_lane, ← toNat_lane]
    rfl
  refine ⟨_, _, _, _, gives_of_retire rfl, fun j hj => ⟨?_, ?_, ?_⟩, ?_⟩
  · rw [getLsbD_and_laneBits _ _ hj]
    exact congrArg (fun q : Nat × Bool × Bool × Bool => g.getLsbD j && q.2.1) (hrow j)
  · rw [getLsbD_and_laneBits _ _ hj]
    exact congrArg (fun q : Nat × Bool × Bool × Bool => g.getLsbD j && q.2.2.1) (hrow j)
  · rw [vmap, lane_vpack_map _ hj, vact_eq_active, active_lane, apply_ite (BitVec.ofNat _), apply_ite (BitVec.ofNat _), ofNat_velem]
    exact if_congr Iff.rfl (congrArg (fun q : Nat × Bool × Bool × Bool => BitVec.ofNat 32 q.1) (hrow j)) rfl
  · rw [decide_eq_true_eq, mask_ne_zero_iff]
    refine exists_congr fun j => and_congr_right fun hj => ?_
    rw [getLsbD_and_laneBits _ _ hj, Bool.and_eq_true]
    exact and_congr_right fun _ => by rw [← hrow j]

theorem twoPointerCompare : TwoPointerCompare := by
  intro s mode k p d x y vm t on a b fin stops lt gt
  have hstops : ∀ j, stops j ↔ twoStops mode (a j) (b j) := fun j => by cases mode <;> exact Iff.rfl
  obtain ⟨v, ma, mb, live, hgives, hlanes, hlive⟩ := gives_vtwo s mode k p d x y vm
  refine ⟨v, ma, mb, live, hgives, fun j hj => ?_, ?_⟩
  · obtain ⟨hma, hmb, hv⟩ := hlanes j hj
    rw [hma, hmb, hv, hstops]
    refine ⟨fun hoff => ?_, fun hon hs => ?_, fun hon hs hlt => ?_, fun hon hs hgt => ?_, fun hon hs heq => ?_⟩
    · rw [show (s.th.rm vm.mask).getLsbD j = false from hoff, if_neg Bool.false_ne_true]
      exact ⟨rfl, rfl, rfl⟩
    all_goals rw [show (s.th.rm vm.mask).getLsbD j = true from hon, if_pos rfl]
    · rw [show twoRow s.th mode x y j = _ from twoLane_of_stops hs]
      exact ⟨rfl, rfl, rfl⟩
    · rw [show twoRow s.th mode x y j = _ from twoLane_of_lt hs hlt]
      refine ⟨rfl, rfl, ?_⟩
      cases mode <;> simp [a, fin]
    · rw [show twoRow s.th mode x y j = _ from twoLane_of_gt hs hgt]
      refine ⟨rfl, rfl, ?_⟩
      cases mode <;> simp [b, fin]
    · rw [show twoRow s.th mode x y j = _ from twoLane_of_eq hs heq]
      refine ⟨rfl, rfl, ?_⟩
      cases mode <;> simp [a, fin]
  · rw [hlive]
    exact exists_congr fun j => and_congr_right fun _ => and_congr_right fun _ => twoLane_live.trans (not_congr (hstops j)).symm

/-- Settles O32: masks bit by bit, moves by the places of the active elements, reductions by what the operation hands on, VTWO by lane. -/
theorem vectorComparesAndMoves : Obligations.VectorComparesAndMoves :=
  ⟨vectorCompareAndMasks, vectorMoves, vectorReductions, twoPointerCompare⟩

end Sys2Proof.Machine
end

section
/-!
SUPPORT. An access that leaves the whole state as it is (R237 to R241, R246): its request meets no move, since a move that completes leaves
fewer pages in a move, so its translation alone leaves the state as it is too, and R185 refuses nothing.
-/

namespace Sys2Proof.Machine

open Sys2Proof.Spec

/-! ## Pages in a move -/

/-- How many pages of a table are in a move. -/
def movesIn (pages : SMap PageMeta) : Nat := pages.countP fun p => p.2.moving.isSome

/-- The entries of a key are gone, one of which counts. -/
theorem countP_smDel_lt {α : Type} {p : Nat × α → Bool} {m : SMap α} {e : Nat × α} (he : e ∈ m) (hp : p e = true) :
    (smDel m e.1).countP p < m.countP p := by
  have hle : ∀ m : SMap α, (smDel m e.1).countP p ≤ m.countP p := by
    intro m
    induction m with
    | nil => exact le_refl _
    | cons x t ih =>
      obtain ⟨j, v⟩ := x
      rw [smDel, List.countP_cons]
      split
      · omega
      · rw [List.countP_cons]
        omega
  induction m with
  | nil => exact absurd he List.not_mem_nil
  | cons x t ih =>
    obtain ⟨j, v⟩ := x
    rw [smDel, List.countP_cons]
    obtain rfl | ht := List.mem_cons.1 he
    · have := hle t
      rw [if_pos rfl, if_pos hp]
      omega
    · have := ih ht
      split
      · omega
      · rw [List.countP_cons]
        omega

/-- A new entry that does not count adds nothing. -/
theorem countP_smPut_le {α : Type} {p : Nat × α → Bool} (m : SMap α) (k : Nat) (v : α) (hp : p (k, v) = false) :
    (smPut m k v).countP p ≤ m.countP p := by
  induction m with
  | nil => simp [smPut, hp]
  | cons x t ih =>
    obtain ⟨j, w⟩ := x
    rw [smPut]
    split
    · simp [List.countP_cons, hp]
    · split
      · simp [List.countP_cons, hp]
      · rw [List.countP_cons, List.countP_cons]
        omega

/-! ## What leaves the pages alone -/

theorem foldl_pages {α : Type} {f : State → α → State} (hf : ∀ s x, (f s x).pages = s.pages) (l : List α) (s : State) :
    (l.foldl f s).pages = s.pages := by
  induction l generalizing s with
  | nil => rfl
  | cons x l ih => rw [List.foldl_cons, ih, hf]

theorem wakeWith_pages (s : State) (t : Nat) (v : Word) : (s.wakeWith t v).pages = s.pages := by
  unfold State.wakeWith
  dsimp only
  split <;> rfl

theorem homeWrite_pages (s : State) (src a : Nat) (bs : List Byte) : (s.homeWrite src a bs).pages = s.pages := by
  unfold State.homeWrite
  split
  · rfl
  · split
    · exact foldl_pages (f := fun s (p : Nat × List Byte) => s.sendPacket src p.1 p.2) (fun _ _ => rfl) _ _
    · exact foldl_pages (fun s e => wakeWith_pages s _ _) _ _

theorem notifyHops_pages (s : State) (core a : Nat) : (s.notifyHops core a).pages = s.pages :=
  foldl_pages (f := fun s e => s.notify core e) (fun _ _ => rfl) _ _

theorem forwardContext_pages (s : State) (slice tid : Nat) : (s.forwardContext slice tid).pages = s.pages := by
  unfold State.forwardContext
  dsimp only
  split
  · rfl
  · exact foldl_pages (fun s r => notifyHops_pages s _ _) _ _

theorem forwardAll_pages (s : State) (slice : Nat) : (s.forwardAll slice).pages = s.pages :=
  foldl_pages (f := fun s (t : Nat × Thread) => s.forwardContext slice t.1) (fun s t => forwardContext_pages s slice t.1) _ _

theorem retireRedirect_pages (s : State) (slice : Nat) : (s.retireRedirect slice).pages = s.pages := by
  unfold State.retireRedirect
  split
  · rfl
  · exact forwardAll_pages s slice

theorem leafOf_pages (s : State) (obj page : Nat) : (s.leafOf obj page).2.pages = s.pages := by
  unfold State.leafOf
  dsimp only
  split <;> rfl

/-! ## A move that completes -/

/-- A move that completes leaves fewer pages in a move, or fails and changes at most the metadata of its page. -/
theorem completeMove_cases (s : State) (slice : Nat) :
    (∃ pages, s.completeMove slice = { s with pages := pages }) ∨ movesIn (s.completeMove slice).pages < movesIn s.pages := by
  unfold State.completeMove
  split
  · exact .inl ⟨s.pages, rfl⟩
  next f p hfind =>
    split
    next to_ fr rest hto hpool =>
      right
      dsimp only
      rw [forwardAll_pages, apply_ite State.pages, retireRedirect_pages, ite_self, homeWrite_pages]
      have hmem := List.mem_of_find?_eq_some hfind
      have hmoves : p.moving.isSome = true := by rw [hto]; rfl
      have hpages : (s.setPool to_ rest).pages = s.pages := rfl
      calc movesIn (smPut (smDel ((s.setPool to_ rest).leafOf p.obj p.page).2.pages f) (to_ * 65536 + fr) _)
          ≤ movesIn (smDel s.pages f) := by
            rw [leafOf_pages, hpages]
            exact countP_smPut_le _ _ _ rfl
        _ < movesIn s.pages := countP_smDel_lt hmem hmoves
    · exact .inl ⟨_, rfl⟩

/-- A request that leaves the pages as they are leaves notices alone. -/
theorem reach_of_same_pages {s s1 : State} {core a addr : Nat} (h : s.reach core a = (addr, s1)) (hp : s1.pages = s.pages) :
    ∃ n, s1 = { s with notices := n } := by
  unfold State.reach at h
  split at h
  · obtain ⟨-, rfl⟩ := Prod.mk.inj h
    exact ⟨s.notices, rfl⟩
  · obtain ⟨-, rfl⟩ := Prod.mk.inj h
    rw [notifyHops_pages] at hp
    have hsame : (if (s.page (frameOf a)).moving.isSome then s.completeMove (frameSlice (frameOf a)) else s) = s := by
      split at hp
      case isFalse hm => exact if_neg hm
      case isTrue hm =>
        rw [if_pos hm]
        obtain ⟨pages, hpages⟩ | hlt := completeMove_cases s (frameSlice (frameOf a))
        · rw [hpages] at hp ⊢
          rw [show pages = s.pages from hp]
        · rw [hp] at hlt
          exact absurd hlt (lt_irrefl _)
    rw [hsame]
    exact notifyHops_eq s core a

end Sys2Proof.Machine
end

section
/-!
SUPPORT. The checks of R185 for an access whose translation leaves the state as it is (R149 to R151, R185).
-/

namespace Sys2Proof.Machine

open Sys2Proof.Spec

/-! ## A translation leaves the notices -/

theorem freeWord_notices (s : State) : s.freeWord.2.notices = s.notices := rfl

theorem askDie_notices (s : State) (core mod die : Nat) : (s.askDie core mod die).notices = s.notices := rfl

theorem walk_notices (s : State) (core obj page : Nat) : (s.walk core obj page).2.notices = s.notices := by
  have hasked : (s.askDie core (bitsOf 31 20 obj) (obj % 4)).freeWord.2.freeWord.2.freeWord.2.notices = s.notices := by
    rw [freeWord_notices, freeWord_notices, freeWord_notices, askDie_notices]
  unfold State.walk
  dsimp only
  split
  · rfl
  · split
    · rfl
    · split <;> exact hasked

theorem fill_notices (s : State) (core obj off need : Nat) : (s.fill core obj off need).2.notices = s.notices := by
  have h := walk_notices s core obj (off / 65536)
  unfold State.fill
  split
  case h_1 e => rwa [e] at h
  case h_2 e => rwa [e] at h
  case h_3 l s' e =>
    rw [e] at h
    dsimp only
    split <;> exact h

theorem translate_notices (s : State) (core obj off need : Nat) : (s.translate core obj off need).2.notices = s.notices := by
  unfold State.translate
  dsimp only
  split
  case h_1 => split <;> rfl
  case h_2 => split <;> rfl
  case h_3 => repeat' split
              all_goals rfl
  case h_4 => split <;> rfl
  case h_5 =>
    split
    · exact fill_notices s core obj off need
    · split
      · rfl
      · exact fill_notices (s.setTlb core _) core obj off need

/-! ## An access that leaves the state as it is -/

theorem enterTier_eq (s : State) (e : TlbEntry) : ∃ threads, s.enterTier e = { s with threads := threads } := by
  unfold State.enterTier
  split
  · exact ⟨_, rfl⟩
  · exact ⟨s.threads, rfl⟩

section Settled

variable {s : State} {w : Src} {c : Cap} {off n perm addr : Nat} {e : TlbEntry}

/-- The translation of an access that leaves the state as it is leaves it too. -/
theorem translate_of_locate {plain : Bool} (h : locate w plain c off n perm s = .ok (addr, e) s) :
    ∃ a, s.translate s.cur.core (capObj c) off perm = (.home a e, s) := by
  obtain ⟨a, s0, ht, hr⟩ := locate_home h
  have hs : Translated s s0 := by
    have := translate_translated s s.cur.core (capObj c) off perm
    rwa [ht] at this
  have hn : s0.notices = s.notices := by
    have := translate_notices s s.cur.core (capObj c) off perm
    rwa [ht] at this
  obtain ⟨threads, he⟩ := enterTier_eq s0 e
  have hpages : s.pages = s0.pages := by rw [show s0 = _ from hs]
  have hthreads : s0.threads = s.threads := by rw [show s0 = _ from hs]
  obtain ⟨notices, h1⟩ := reach_of_same_pages hr (by rw [he]; exact hpages)
  rw [he] at h1
  refine ⟨a, ht.trans (congrArg (Prod.mk _) ?_)⟩
  calc s0 = { s0 with threads := s.threads, notices := s.notices } := by rw [← hthreads, ← hn]
    _ = s := by rw [h1]

/-- An access through a home that R185 refuses does not go on. -/
theorem farRefused_of_locate {s0 s1 : State} {r : Nat × TlbEntry} {a : Nat}
    (ht : s.translate s.cur.core (capObj c) off perm = (.home a e, s0)) (h : locate w true c off n perm s = .ok r s1) :
    s0.farRefused c a = false := by
  by_contra hfar
  have hstop : ∀ s', ∃ x, reachHome w true c off n a e s0 s' = .error x s' := fun s' =>
    ⟨_, by unfold reachHome; rw [ite_run, if_pos (by simpa using hfar)]; rfl⟩
  unfold locate at h
  dsimp only at h
  rw [bind_ok (runS_run _ s), ht] at h
  change ((get : M State) >>= _) s0 = _ at h
  rw [bind_ok (get_run s0), ite_run] at h
  split at h
  · cases h
  · rw [ite_run] at h
    split at h
    · rw [bind_ok (modTh_run _ s0)] at h
      obtain ⟨x, hx⟩ := hstop (s0.setTh { s0.th with bundles := 0 })
      exact absurd (hx.symm.trans h) (by simp)
    · obtain ⟨x, hx⟩ := hstop s0
      exact absurd (hx.symm.trans h) (by simp)

/-- The checks of R185 pass where the access itself goes on and leaves the state as it is. -/
theorem checkFar_ok (h : locate w true c off n perm s = .ok (addr, e) s) : checkFar w c off perm s = .ok () s := by
  obtain ⟨a, ht⟩ := translate_of_locate h
  have hfar := farRefused_of_locate ht h
  unfold checkFar
  rw [bind_ok (runS_run _ s), ht]
  change ((get : M State) >>= _) s = _
  rw [bind_ok (get_run s), ite_run, hfar]
  rfl

end Settled

end Sys2Proof.Machine
end

section
/-!
PROOFS. Vector loads, stores, gathers and scatters (R149 to R151, R88): the steps over the active lanes, then the four instructions.
-/

namespace Sys2Proof.Machine

open Sys2Proof.Spec

/-! ## The active lanes -/

theorem mem_lanesOf {m : Mask} {i : Nat} : i ∈ lanesOf m ↔ i < 16 ∧ m.getLsbD i = true := by
  simp [lanesOf]

theorem length_lanesOf (m : Mask) : (lanesOf m).length = activeIn 32 m 16 := by
  rw [lanesOf, ← List.countP_eq_length_filter, activeIn, funext (active_lane m)]

/-- The active lanes below an active one, it, and the others. -/
theorem lanesOf_split {m : Mask} {j : Nat} (hj : j < 16) (hon : m.getLsbD j = true) :
    ∃ rest, lanesOf m = (List.range j).filter (fun i => m.getLsbD i) ++ j :: rest := by
  have hrange : List.range 16 = List.range j ++ j :: (List.range (15 - j)).map (j + 1 + ·) := by
    have h := List.range_add (n := j + 1) (m := 15 - j)
    rwa [show j + 1 + (15 - j) = 16 by omega, List.range_succ (n := j), List.append_assoc, List.singleton_append] at h
  exact ⟨_, by rw [lanesOf, hrange, List.filter_append, List.filter_cons, if_pos hon]⟩

/-- The register with loaded lanes governs by R131. -/
theorem governed_putLanes {t : Thread} (vm : VM) (d : VReg) (g : Nat → Nat) :
    Governed t 32 vm d (putLanes (t.rm vm.mask) vm.zero (t.rv d) ((lanesOf (t.rm vm.mask)).map fun j => (j, g j)))
      (fun j v => v = BitVec.ofNat 32 (g j)) := by
  have hfind : ∀ (l : List Nat) (i : Nat), i ∈ l → ((l.map fun j => (j, g j)).find? (·.1 = i)) = some (i, g i) := by
    intro l i hi
    induction l with
    | nil => exact absurd hi List.not_mem_nil
    | cons j l ih =>
      rw [List.map_cons, List.find?_cons]
      by_cases hj : j = i
      · subst hj
        simp
      · rw [decide_eq_false hj]
        exact ih ((List.mem_cons.1 hi).resolve_left fun h => hj h.symm)
  refine governed_vpack _ fun j hj hon => ?_
  rw [active_lane] at hon
  rw [hfind _ j (mem_lanesOf.2 ⟨hj, hon⟩)]
  rfl

/-! ## Steps over lanes -/

section Lanes

variable {s : State} {w : Src} {c : Cap} {need perm n : Nat} {ea : Nat → Int} {addr : Nat → Nat} {ent : Nat → TlbEntry}

/-- A lane passes R88, and its access is located at a home of this module that holds no poison, leaving the state as it is. -/
def LaneGood (s : State) (w : Src) (c : Cap) (need perm n : Nat) (ea : Nat → Int) (addr : Nat → Nat) (ent : Nat → TlbEntry)
    (j : Nat) : Prop :=
  capCheck c need (ea j) n n = none ∧ locate w true c (ea j).toNat n perm s = .ok (addr j, ent j) s ∧
    (ent j).mig = false ∧ isForeign (addr j) = false ∧ s.poisoned (addr j) n = false

theorem checkLanes_ok (w : Src) (s : State) {l : List Nat} (h : ∀ j ∈ l, capCheck c need (ea j) n n = none) :
    checkLanes w c need n ea l s = .ok () s := by
  induction l with
  | nil => rfl
  | cons j l ih =>
    exact (bind_ok (checkCap_ok w c need _ n n s (h j List.mem_cons_self))).trans (ih fun i hi => h i (List.mem_cons_of_mem j hi))

/-- The first lane that fails R88 is the one reported. -/
theorem checkLanes_trap (w : Src) (s : State) {l rest : List Nat} {j k o : Nat} (h : ∀ i ∈ l, capCheck c need (ea i) n n = none)
    (hj : capCheck c need (ea j) n n = some (k, o)) :
    checkLanes w c need n ea (l ++ j :: rest) s = .error (.trap k (tvalCap w.src w.creg o)) s := by
  induction l with
  | nil => exact bind_error (checkCap_trap w c need _ n n s k o hj)
  | cons i l ih =>
    exact (bind_ok (checkCap_ok w c need _ n n s (h i List.mem_cons_self))).trans (ih fun i' hi => h i' (List.mem_cons_of_mem i hi))

theorem farLanes_ok {l : List Nat} (h : ∀ j ∈ l, LaneGood s w c need perm n ea addr ent j) :
    farLanes w c ea perm l s = .ok () s := by
  induction l with
  | nil => rfl
  | cons j l ih =>
    obtain ⟨-, hloc, -⟩ := h j List.mem_cons_self
    exact (bind_ok (checkFar_ok hloc)).trans (ih fun i hi => h i (List.mem_cons_of_mem j hi))

theorem loadLanes_ok {l : List Nat} (h : ∀ j ∈ l, LaneGood s w c need rR n ea addr ent j) :
    loadLanes w c n ea l s = .ok (l.map fun j => (j, leNat (s.homeView (addr j) n))) s := by
  induction l with
  | nil => rfl
  | cons j l ih =>
    obtain ⟨-, hloc, hmig, hhere, hclean⟩ := h j List.mem_cons_self
    have hread := readHome_ok w (ea j).toNat (addr j) n (ent j) s (poisonedPast_of_not_poisoned hclean _) hhere hmig
    exact (bind_ok hloc).trans ((bind_ok hread).trans (bind_ok (ih fun i hi => h i (List.mem_cons_of_mem j hi))))

theorem locateLanes_ok {l : List Nat} (h : ∀ j ∈ l, LaneGood s w c need rW n ea addr ent j) :
    locateLanes w c n ea l s = ((l.map fun j => (j, addr j, ent j), none), s) := by
  induction l with
  | nil => rfl
  | cons j l ih =>
    obtain ⟨-, hloc, -⟩ := h j List.mem_cons_self
    rw [locateLanes, hloc]
    dsimp only
    rw [ih fun i hi => h i (List.mem_cons_of_mem j hi)]
    rfl

/-- The store of a lane. -/
def laneStore (t : Thread) (n : Nat) (ea : Nat → Int) (v : Nat → Nat) (q : Nat × Nat × TlbEntry) : StoreReq :=
  { addr := q.2.1, bytes := leBytes n (v q.1), tag := false, firing := (t.firing.map (·.id)).getD 0, obj := q.2.2.obj,
    page := (ea q.1).toNat / 65536, mig := q.2.2.counts q.2.1, perm := q.2.2.perm }

/-- Stores have joined the thread's own, and nothing else changed. -/
def Queues (s s1 : State) (rs : List StoreReq) : Prop :=
  s1.th = { s.th with stores := s.th.stores ++ rs } ∧ s1.cur = s.cur ∧ ∀ x, s1.setTh x = s.setTh x

theorem issueLanes_queues (n : Nat) (ea : Nat → Int) (v : Nat → Nat) (l : List (Nat × Nat × TlbEntry)) (s : State) :
    ∃ s1, issueLanes n ea v l s = .ok () s1 ∧ Queues s s1 (l.map (laneStore s.th n ea v)) := by
  induction l generalizing s with
  | nil => exact ⟨s, rfl, by rw [List.map_nil, List.append_nil], rfl, fun _ => rfl⟩
  | cons q l ih =>
    obtain ⟨j, a, e⟩ := q
    have hissue := issueStore_run a (leBytes n (v j)) false e ((ea j).toNat / 65536) s
    obtain ⟨s1, hrun, hth, hcur, hset⟩ := ih (s.setTh { s.th with stores := s.th.stores ++ [laneStore s.th n ea v (j, a, e)] })
    refine ⟨s1, (bind_ok hissue).trans hrun, ?_, hcur, fun x => (hset x).trans (setTh_setTh s _ x)⟩
    rw [hth, th_setTh, List.append_assoc]
    rfl

theorem storeLanes_queues {l : List Nat} (v : Nat → Nat) (h : ∀ j ∈ l, LaneGood s w c need rW n ea addr ent j) :
    ∃ s1 rs, storeLanes w c n ea v l s = .ok () s1 ∧ Queues s s1 rs ∧
      rs.map (fun q => (q.addr, q.bytes, q.tag)) = l.map fun j => (addr j, leBytes n (v j), false) := by
  obtain ⟨s1, hrun, hq⟩ := issueLanes_queues n ea v (l.map fun j => (j, addr j, ent j)) s
  refine ⟨s1, _, ?_, hq, ?_⟩
  · refine (bind_ok (runS_run _ s)).trans ?_
    rw [locateLanes_ok h]
    exact hrun
  · rw [List.map_map, List.map_map]
    rfl

end Lanes

/-! ## The bundle goes on -/

/-- A bundle that has queued stores and changed the LFSR at most goes on. -/
theorem stored_of_exec {i : Instr} {s s1 : State} {rs : List StoreReq} {l : BitVec 32} (hq : Queues s s1 rs)
    (h : exec i s = .next (s1.setTh (({ s1.th with lfsr := l } : Thread).step s1.cur))) :
    ∃ t, exec i s = .next t ∧ Only s t ∧ Goes s.cur s.th t.th ∧ Rest { s.th with stores := s.th.stores ++ rs, lfsr := l } t.th ∧
      t.th.pend = s.th.pend := by
  obtain ⟨hth, hcur, hset⟩ := hq
  refine ⟨_, h, ?_⟩
  rw [hset, th_setTh, hth, hcur]
  exact ⟨only_setTh _ _, goes_step _ _, rest_step _ _, step_pend _ _⟩

/-! ## The instructions -/

section Access

variable {s : State} {addr : Nat → Nat} {ent : Nat → TlbEntry}

/-- The number that the thread reads at the home of a lane. -/
def laneRead (s : State) (addr : Nat → Nat) (n j : Nat) : Nat :=
  leNat ((List.range n).map fun k => (ownByte s.th.stores (addr j + k)).getD (memByte s.mem (addr j + k)))

theorem leNat_homeView (n j : Nat) : leNat (s.homeView (addr j) n) = laneRead s addr n j := by
  refine congrArg leNat (List.ext_getElem? fun k => ?_)
  by_cases hk : k < n
  · rw [getElem?_homeView s _ n hk, List.getElem?_map, List.getElem?_range hk, Option.map_some]
  · rw [List.getElem?_eq_none (by simpa using hk), List.getElem?_eq_none (by simpa using hk)]

theorem vld_nothing (d : VReg) (a : MemOp) {m : MReg} (h : lanesOf (s.th.rm m) = []) : Gives (.vld d a m) s none [] := by
  refine gives_of_retire (run_ok ?_)
  refine (bind_ok (getTh_run s)).trans ?_
  rw [h]
  rfl

theorem vld_loads (d : VReg) {a : MemOp} {m : MReg} (hne : lanesOf (s.th.rm m) ≠ [])
    (h : ∀ j ∈ lanesOf (s.th.rm m), LaneGood s (creg a.base) (s.th.rc a.base) rR rR 4 (fun j => memOff s.th a + 4 * j) addr ent j) :
    ∃ x, Loads (.vld d a m) s s (.v d x) ∧
      Governed s.th 32 ⟨m, false⟩ d x fun j v => v = BitVec.ofNat 32 (laneRead s addr 4 j) := by
  refine ⟨_, loads_of_ok (run_ok ?_) (caches_refl s) rfl, governed_putLanes ⟨m, false⟩ d _⟩
  refine (bind_ok (getTh_run s)).trans ((bind_ok (checkLanes_ok _ s fun j hj => (h j hj).1)).trans
    ((bind_ok (farLanes_ok h)).trans ((bind_ok (loadLanes_ok h)).trans ?_)))
  simp only [leNat_homeView]
  rw [if_neg hne]
  refine (bind_ok (writeNow_run _ s)).trans ((advance_run _).trans ?_)
  rw [th_setTh, setTh_cur]

theorem vldx_loads (e : Elem) (u : Bool) (d ix : VReg) {c : CReg} {vm : VM}
    (h : ∀ j ∈ lanesOf (s.th.rm vm.mask), LaneGood s (creg c) (s.th.rc c) rR rR (velemWidth e / 8)
      (laneOff (s.th.rc c) (velemWidth e / 8) (s.th.rv ix)) addr ent j) :
    ∃ x, Loads (.vldx e u d c ix vm) s s (.v d x) ∧ Governed s.th 32 vm d x fun j v =>
      v = BitVec.ofNat 32 (intoLane e u (laneRead s addr (velemWidth e / 8) j)) := by
  refine ⟨_, loads_of_ok (run_ok ?_) (caches_refl s) rfl,
    governed_putLanes vm d fun j => intoLane e u (laneRead s addr (velemWidth e / 8) j)⟩
  refine (bind_ok (getTh_run s)).trans ((bind_ok (checkLanes_ok _ s fun j hj => (h j hj).1)).trans
    ((bind_ok (farLanes_ok h)).trans ((bind_ok (loadLanes_ok h)).trans ?_)))
  simp only [leNat_homeView, List.map_map]
  refine (bind_ok (writeNow_run _ s)).trans ((advance_run _).trans ?_)
  rw [th_setTh, setTh_cur]
  rfl

/-- What a bundle that stores lanes leaves: their stores among the thread's own, and an LFSR. -/
def StoresLanes (i : Instr) (s : State) (n : Nat) (addr : Nat → Nat) (l : BitVec 32) (f : Nat → Nat) (lanes : List Nat) : Prop :=
  ∃ t rs, exec i s = .next t ∧ Only s t ∧ Goes s.cur s.th t.th ∧ Rest { s.th with stores := s.th.stores ++ rs, lfsr := l } t.th ∧
    t.th.pend = s.th.pend ∧
    rs.map (fun q => (q.addr, q.bytes, q.tag)) = lanes.map fun j => (addr j, leBytes n (f j), false)

theorem vst_stores (d : VReg) {a : MemOp} {m : MReg}
    (h : ∀ j ∈ lanesOf (s.th.rm m), LaneGood s (creg a.base) (s.th.rc a.base) rW rW 4 (fun j => memOff s.th a + 4 * j) addr ent j) :
    StoresLanes (.vst d a m) s 4 addr s.th.lfsr (fun j => velem 32 (s.th.rv d) j) (lanesOf (s.th.rm m)) := by
  obtain ⟨s1, rs, hstore, hq, hrs⟩ := storeLanes_queues (fun j => velem 32 (s.th.rv d) j) h
  have hexec : exec (.vst d a m) s = .next (s1.setTh (s1.th.step s1.cur)) :=
    run_ok ((bind_ok (getTh_run s)).trans ((bind_ok (checkLanes_ok _ s fun j hj => (h j hj).1)).trans
      ((bind_ok (farLanes_ok h)).trans ((bind_ok hstore).trans (advance_run s1)))))
  have hkeep : s1.th = { s1.th with lfsr := s.th.lfsr } := by
    obtain ⟨hth, -, -⟩ := hq
    rw [show s.th.lfsr = s1.th.lfsr by rw [hth]]
  rw [hkeep] at hexec
  obtain ⟨t, ht, honly, hgoes, hrest, hpend⟩ := stored_of_exec hq hexec
  exact ⟨t, rs, ht, honly, hgoes, hrest, hpend, hrs⟩

theorem vstx_stores (r : Rnd) (e : Elem) (d ix : VReg) {c : CReg} {m : MReg}
    (h : ∀ j ∈ lanesOf (s.th.rm m), LaneGood s (creg c) (s.th.rc c) rW rW (velemWidth e / 8)
      (laneOff (s.th.rc c) (velemWidth e / 8) (s.th.rv ix)) addr ent j) :
    StoresLanes (.vstx r e d c ix m) s (velemWidth e / 8) addr (lfsrIn r 32 (s.th.rm m) s.th.lfsr 16)
      (fun j => fromLane r (lfsrIn r 32 (s.th.rm m) s.th.lfsr (j + 1)) e (velem 32 (s.th.rv d) j)) (lanesOf (s.th.rm m)) := by
  obtain ⟨s1, rs, hstore, hq, hrs⟩ := storeLanes_queues (fun j => ((vidx 32).map (roundedLane r 32 (s.th.rm m) true 0
    (fun l j => fromLane r l e (velem 32 (s.th.rv d) j)) s.th.lfsr)).getD j 0) h
  have hexec : exec (.vstx r e d c ix m) s =
      .next (s1.setTh (({ s1.th with lfsr := lfsrIn r 32 (s.th.rm m) s.th.lfsr 16 } : Thread).step s1.cur)) := by
    refine run_ok ((bind_ok (getTh_run s)).trans ?_)
    dsimp only
    rw [vidx, vrounds_range]
    refine (bind_ok (checkLanes_ok _ s fun j hj => (h j hj).1)).trans
      ((bind_ok (farLanes_ok h)).trans ((bind_ok hstore).trans ((bind_ok (modTh_run _ s1)).trans ((advance_run _).trans ?_))))
    rw [th_setTh, setTh_setTh]
    rfl
  obtain ⟨t, ht, honly, hgoes, hrest, hpend⟩ := stored_of_exec hq hexec
  refine ⟨t, rs, ht, honly, hgoes, hrest, hpend, hrs.trans (List.map_congr_left fun j hj => ?_)⟩
  obtain ⟨hj16, hon⟩ := mem_lanesOf.1 hj
  rw [List.getD_eq_getElem?_getD, List.getElem?_map, vidx, List.getElem?_range hj16, Option.map_some, Option.getD_some, roundedLane,
    laneOr, vact_eq_active, active_lane, if_pos hon]

end Access

/-! ## The statements -/

theorem laneOff_eq (c : Cap) (n : Nat) (idx : VWord) : laneOff c n idx = fun j => (capOff c : Int) + (lane 32 idx j).toInt * n := by
  funext j
  rw [laneOff, signedNat_velem (by decide)]

theorem vectorAccessesComplete : VectorMemory := by
  intro s r e u d ix a c m vm addr ent t lanes size ea1 ea2 good read loads stores
  have hea1 : (fun j : Nat => memOff s.th a + 4 * j) = ea1 := by rw [memOff_eq_effective]
  have hea2 : laneOff (s.th.rc c) (velemWidth e / 8) (s.th.rv ix) = ea2 := laneOff_eq _ _ _
  refine ⟨vld_nothing d a, fun hne h => vld_loads (ent := ent) d hne ?_, fun h => ?_,
    fun _ h => vldx_loads (ent := ent) e u d ix ?_, fun _ h => ?_⟩
  · rw [hea1]
    exact h
  · have hst := vst_stores (s := s) (addr := addr) (ent := ent) d (a := a) (m := m) (by rw [hea1]; exact h)
    simp only [← toNat_lane] at hst
    exact hst
  · rw [hea2]
    exact h
  · have hst := vstx_stores (s := s) (addr := addr) (ent := ent) r e d ix (c := c) (m := m) (by rw [hea2]; exact h)
    have hlfsr : lfsrIn r 32 (s.th.rm m) s.th.lfsr 16 = lfsrAfter r t.lfsr (lanes m).length := by
      rw [lfsrIn, ← length_lanesOf]
      rfl
    simp only [← toNat_lane] at hst
    rw [hlfsr] at hst
    exact hst

theorem vectorAccessChecks : VectorAccessChecks := by
  intro s r el u d ix a c m vm j cause offs t size ea1 ea2 first hj
  have hlanes : ∀ {base : CReg} {need n : Nat} {ea ea' : Nat → Int} {m : MReg}, ea' = ea → first base need n ea m →
      checkLanes (creg base) (s.th.rc base) need n ea' (lanesOf (s.th.rm m)) s = .error (.trap cause (tvalCap 1 base.val offs)) s := by
    rintro base need n ea _ m rfl ⟨hon, hbelow, hfail⟩
    obtain ⟨rest, hsplit⟩ := lanesOf_split hj hon
    rw [hsplit]
    refine checkLanes_trap _ s (fun i hi => ?_) hfail
    obtain ⟨hlt, hset⟩ := List.mem_filter.1 hi
    exact hbelow i (List.mem_range.1 hlt) hset
  have hea1 : (fun j : Nat => memOff s.th a + 4 * j) = ea1 := by rw [memOff_eq_effective]
  have hea2 : laneOff (s.th.rc c) size (s.th.rv ix) = ea2 := laneOff_eq _ _ _
  refine ⟨fun h => ?_, fun h => ?_, fun _ => ⟨fun h => ?_, fun h => ?_⟩⟩
  · exact run_error ((bind_ok (getTh_run s)).trans (bind_error (hlanes hea1 h)))
  · exact run_error ((bind_ok (getTh_run s)).trans (bind_error (hlanes hea1 h)))
  · exact run_error ((bind_ok (getTh_run s)).trans (bind_error (hlanes hea2 h)))
  · exact run_error ((bind_ok (getTh_run s)).trans (bind_error (hlanes hea2 h)))

/-- Settles O33: the steps over the active lanes, each of which leaves the state as it is, or the first of which fails its check. -/
theorem vectorMemory : Obligations.VectorMemory := ⟨vectorAccessesComplete, vectorAccessChecks⟩

end Sys2Proof.Machine
end

section
/-!
SUPPORT. The steps that the bodies of the instructions of one core share (R54, R158, R159, R181), and how such a body completes with
interlocked results, or parks.
-/

namespace Sys2Proof.Machine

open Sys2Proof.Spec

/-! ## Shared steps -/

section Steps

variable {s : State}

theorem lawful_ok {f : State → Illegal} (h : f s = none) : lawful f s = .ok () s := by
  unfold lawful
  rw [bind_ok (get_run s), h]
  rfl

theorem lawful_trap {f : State → Illegal} {cause : Nat} {tval : Word} (h : f s = some (cause, tval)) :
    lawful f s = .error (.trap cause tval) s := by
  unfold lawful
  rw [bind_ok (get_run s), h]
  rfl

theorem notInHandler_ok (h : s.th.handler = false) : notInHandler s = .ok () s := by
  unfold notInHandler
  rw [bind_ok (get_run s), h]
  rfl

theorem notInHandler_trap (h : s.th.handler = true) :
    notInHandler s = .error (.trap 0x0A (BitVec.ofNat 64 s.cur.base.toNat)) s := by
  unfold notInHandler
  rw [bind_ok (get_run s), h]
  rfl

/-- A release finds nothing to wait for where the thread has no stores. -/
theorem drainMine_nil (h : s.th.stores = []) : drainMine s = .ok () s := congrArg (EStateM.Result.ok ()) (drain_nil h)

end Steps

/-! ## Interlocked results, then the next bundle -/

/-- The end of a body: from any state the results `ws` are produced and the thread goes on. -/
def Produces (m : M Unit) (ws : List RegWrite) : Prop := ∀ s, m s = .ok () (s.retire none ws)

theorem produces_advance : Produces advance [] := fun _ => rfl

theorem produces_writeI {m : M Unit} {ws : List RegWrite} (w : RegWrite) (h : Produces m ws) :
    Produces (writeI w >>= fun _ => m) (w :: ws) := by
  intro s
  rw [bind_ok (writeI_run w s), h]
  unfold State.retire
  rw [th_setTh, setTh_cur, setTh_setTh]
  rfl

section Complete

variable {i : Instr} {s made : State} {ws : List RegWrite}

/-- The thread of a state from which results are produced goes on. -/
theorem ends_retire (hc : made.cur = s.cur) (ws : List RegWrite) : Ends s (made.retire none ws) made.th none ws := by
  rw [Ends, retire_eq_setTh, th_setTh, hc]
  exact ⟨goes_step _ _, rest_step _ _, step_pend _ _⟩

theorem retire_setTh (s : State) (ws : List RegWrite) : s.retire none ws = s.setTh (s.retire none ws).th := by
  rw [retire_eq_setTh, th_setTh]

theorem does_of_retire (h : exec i s = .next (made.retire none ws)) (hc : made.cur = s.cur) : Does i s made made.th ws :=
  ⟨_, h, retire_setTh made ws, ends_retire hc ws⟩

/-- A bundle that stops to park leaves all but its context's status and the count of parks. -/
theorem parks_of_stopped {why : ParkWhy} (h : exec i s = .next (s.stopped (.park why))) : Parks i s why := by
  have hth : (s.park s.cur.tid why).th = { s.th with status := .parked ⟨why, s.cur.since.getD s.serial, s.cur, none⟩ } :=
    park_thread s s.cur.tid why
  exact ⟨s.park s.cur.tid why, _, h, rfl, rfl, rfl, rfl, hth, fun k hk => thread_setThread_other s s.cur.tid k _ hk⟩

end Complete

end Sys2Proof.Machine
end

section
/-!
SUPPORT. What a change of a port sets off (R155, R156, R167): tasks join the queues, and where no light handler takes the port's oldest
element nothing else changes.
-/

namespace Sys2Proof.Machine

open Sys2Proof.Spec

/-! ## Queues alone -/

/-- Two states differ in their run queues alone. -/
def QueuesOnly (s t : State) : Prop := ∃ queues, t = { s with queues := queues }

theorem queuesOnly_refl (s : State) : QueuesOnly s s := ⟨s.queues, rfl⟩

theorem queuesOnly_foldl {α : Type} {f : State → α → State} (hf : ∀ s a, QueuesOnly s (f s a)) (l : List α) (s : State) :
    QueuesOnly s (l.foldl f s) := by
  induction l generalizing s with
  | nil => exact queuesOnly_refl s
  | cons a l ih =>
    obtain ⟨q, hq⟩ := hf s a
    obtain ⟨q', hq'⟩ := ih (f s a)
    exact ⟨q', by rw [List.foldl_cons, hq', hq]⟩

/-- Stage actors that may fire are queued, and nothing else changes. -/
theorem queuesOnly_stageTasks (s : State) (key : Nat) : QueuesOnly s (s.stageTasks key) := by
  unfold State.stageTasks
  split
  · exact queuesOnly_refl s
  · refine queuesOnly_foldl (fun u a => ?_) _ s
    split
    · split
      · exact ⟨_, rfl⟩
      · exact queuesOnly_refl u
    · exact queuesOnly_refl u

/-- The oldest element of a port is for its consumers: no light handler is armed there, or it is no control value. -/
def Team.unguarded (tm : Team) (q : Nat) : Prop :=
  smFind tm.lh q = none ∨ ∀ x rest, tm.elems q = x :: rest → x.ctl = false

theorem lightTasks_unguarded {s : State} {tm : Team} {key q : Nat} (hteam : smFind s.teams key = some tm) (h : tm.unguarded q)
    (f : Nat) : s.lightTasks key q (f + 1) = s := by
  rw [State.lightTasks, hteam]
  dsimp only
  cases hlh : smFind tm.lh q with
  | none => rfl
  | some a =>
    cases helems : tm.elems q with
    | nil => rfl
    | cons x rest =>
      obtain hnone | hctl := h
      · cases hnone.symm.trans hlh
      · dsimp only
        rw [hctl x rest helems, Bool.false_and, if_neg Bool.false_ne_true]

/-- A change of a team that arms no light handler's task changes that team, and may queue tasks. -/
theorem portChanged_setTeam (s : State) {tm : Team} {q : Nat} (h : tm.unguarded q) :
    QueuesOnly (s.setTeam tm) ((s.setTeam tm).portChanged tm.key q) := by
  unfold State.portChanged
  rw [lightTasks_unguarded (smFind_smPut_self s.teams tm.key tm) h]
  exact queuesOnly_stageTasks _ _

/-- A bundle that changes a port of a team completes. -/
theorem portChanged_completes {i : Instr} {s : State} {tm : Team} {q : Nat} {ws : List RegWrite} (hq : tm.unguarded q)
    (h : exec i s = .next (((s.setTeam tm).portChanged tm.key q).retire none ws)) :
    ∃ t, exec i s = .next t ∧ Ends s t s.th none ws ∧ smFind t.teams tm.key = some tm ∧
      t = { s with threads := t.threads, teams := t.teams, queues := t.queues } ∧
      (∀ k, k ≠ tm.key → smFind t.teams k = smFind s.teams k) ∧ ∀ k, k ≠ s.cur.tid → t.thread k = s.thread k := by
  obtain ⟨queues, hch⟩ := portChanged_setTeam s hq
  rw [hch] at h
  refine ⟨_, h, ends_retire rfl ws, ?_⟩
  rw [retire_eq_setTh]
  exact ⟨smFind_smPut_self s.teams tm.key tm, rfl, fun k hk => smFind_smPut_other s.teams tm.key k tm hk,
    fun k hk => thread_setThread_other s s.cur.tid k _ hk⟩

end Sys2Proof.Machine
end

section
/-!
PROOFS. Pushes and pops of queue ports (R162, R164, R165).
-/

namespace Sys2Proof.Machine

open Sys2Proof.Spec

/-! ## Elements of a port -/

theorem elems_setElems_self (t : Team) (q : Nat) (l : List Element) : (t.setElems q l).elems q = l :=
  smGet_smPut_self [] t.ports q l

theorem elems_setElems_other (t : Team) {q z : Nat} (l : List Element) (h : z ≠ q) : (t.setElems q l).elems z = t.elems z :=
  smGet_smPut_other [] t.ports q z l h

/-! ## Which pushes and pops are legal (R162, R164) -/

section Legal

variable {s : State} {q : QPort}

/-- A control push needs a stage output. -/
theorem pushIllegal_control (h : (s.myPort q).isOutput = false) : s.pushIllegal true q = s.illegal 3 := by
  unfold State.pushIllegal
  rw [h]
  rfl

theorem pushIllegal_output {b : BitVec 16} (h : s.myPort q = .output b) (ctl : Bool) : s.pushIllegal ctl q = none := by
  unfold State.pushIllegal
  rw [h]
  cases ctl <;> rfl

theorem pushIllegal_command (h : s.myPort q = .command) : s.pushIllegal false q = none := by
  rw [State.pushIllegal, h]
  rfl

theorem pushIllegal_service (h : s.myPort q = .service) :
    s.pushIllegal false q = if s.th.sup then none else s.illegal 6 := by
  rw [State.pushIllegal, h]
  rfl

/-- The ports that take no push. -/
theorem pushIllegal_closed {a : Nat}
    (h : s.myPort q = .result ∨ s.myPort q = .input a ∨ s.myPort q = .unbound ∨ s.myPort q = .reserved) :
    s.pushIllegal false q = s.illegal 5 := by
  rw [State.pushIllegal]
  obtain h | h | h | h := h
  all_goals
    rw [h]
    rfl

theorem popIllegal_input {a : Nat} (h : s.myPort q = .input a) : s.popIllegal q = none := by rw [State.popIllegal, h]

theorem popIllegal_result (h : s.myPort q = .result) : s.popIllegal q = none := by rw [State.popIllegal, h]

theorem popIllegal_service (h : s.myPort q = .service) : s.popIllegal q = if s.th.sup then none else s.illegal 6 := by
  rw [State.popIllegal, h]

/-- The ports that give nothing. -/
theorem popIllegal_closed
    (h : s.myPort q = .command ∨ (∃ b, s.myPort q = .output b) ∨ s.myPort q = .unbound ∨ s.myPort q = .reserved) :
    s.popIllegal q = s.illegal 5 := by
  rw [State.popIllegal]
  obtain h | ⟨b, h⟩ | h | h := h
  all_goals rw [h]

end Legal

/-! ## What a push does (R162, R164) -/

section Push

variable {s t : State} {q : QPort} {v : Word} {ctl : Bool} {tm u : Team} {b : BitVec 16}

theorem pushPort_output (hst : s.th.stores = []) (hport : s.myPort q = .output b) (hteam : s.myTeam = some tm)
    (hbind : s.bindTeam tm b = some u) :
    pushPort q v ctl s =
      if (u.elems (bindPort b)).length + s.before q.val < portPlaces then
        .ok true ((s.setTeam (u.setElems (bindPort b) (u.elems (bindPort b) ++ [⟨v, ctl, s.th.workid⟩]))).portChanged
          u.key (bindPort b))
      else .ok false s := by
  unfold pushPort
  rw [bind_ok (drainMine_nil hst), bind_ok (get_run s)]
  dsimp only
  rw [hport]
  dsimp only
  rw [hteam]
  dsimp only
  rw [hbind]
  dsimp only
  rw [ite_run]
  rfl

theorem pushPort_command (hst : s.th.stores = []) (hport : s.myPort q = .command) :
    pushPort q v ctl s = if s.engineFree q.val then .ok true (s.pushMarker q.val v) else .ok false s := by
  unfold pushPort
  rw [bind_ok (drainMine_nil hst), bind_ok (get_run s)]
  dsimp only
  rw [hport]
  dsimp only
  rw [ite_run]
  rfl

theorem pushPort_service (hst : s.th.stores = []) (hport : s.myPort q = .service) :
    pushPort q v ctl s = .ok true (s.pushQ6 v) := by
  unfold pushPort
  rw [bind_ok (drainMine_nil hst), bind_ok (get_run s)]
  dsimp only
  rw [hport]
  rfl

variable {r : GReg} {p : PReg}

/-- ENQ goes on where its push is accepted. -/
theorem enq_completes (hleg : s.pushIllegal ctl q = none) (hh : s.th.handler = false)
    (hp : pushPort q (s.th.rg r) ctl s = .ok true t) : exec (.enq ctl r q) s = .next (t.retire none []) :=
  run_ok ((bind_ok (lawful_ok hleg)).trans ((bind_ok (notInHandler_ok hh)).trans ((bind_ok (getTh_run s)).trans (bind_ok hp))))

/-- ENQ parks where it is not. -/
theorem enq_parks (hleg : s.pushIllegal ctl q = none) (hh : s.th.handler = false)
    (hp : pushPort q (s.th.rg r) ctl s = .ok false s) : Parks (.enq ctl r q) s (.port q.val) :=
  parks_of_stopped (run_error
    ((bind_ok (lawful_ok hleg)).trans ((bind_ok (notInHandler_ok hh)).trans ((bind_ok (getTh_run s)).trans (bind_ok hp)))))

/-- ENQN writes whether its push was accepted. -/
theorem enqn_completes {ok : Bool} (hleg : s.pushIllegal ctl q = none) (hp : pushPort q (s.th.rg r) ctl s = .ok ok t) :
    exec (.enqn ctl p r q) s = .next (t.retire none [.p p ok]) :=
  run_ok ((bind_ok (lawful_ok hleg)).trans ((bind_ok (getTh_run s)).trans ((bind_ok hp).trans
    (produces_writeI (.p p ok) produces_advance t))))

end Push

/-- A bundle that puts an element behind those of a port with no light handler. -/
theorem pushed_of_retire {i : Instr} {s : State} {u : Team} {port : Nat} {x : Element} {ws : List RegWrite}
    (hlh : (smFind u.lh port).isNone) (h : exec i s = .next
      (((s.setTeam (u.setElems port (u.elems port ++ [x]))).portChanged u.key port).retire none ws)) : Pushed i s u port x ws := by
  obtain ⟨t, ht, hends, hteam, hframe, hteams, hthreads⟩ :=
    portChanged_completes (tm := u.setElems port (u.elems port ++ [x])) (.inl (Option.isNone_iff_eq_none.1 hlh)) h
  exact ⟨t, _, ht, hends, hteam, elems_setElems_self _ _ _, fun z hz => elems_setElems_other _ _ hz, hframe, hteams, hthreads⟩

/-- The marker that a push to a command queue leaves changes no thread and not the bundle that executes. -/
theorem pushMarker_frame (s : State) (q : Nat) (v : Word) :
    (s.pushMarker q v).threads = s.threads ∧ (s.pushMarker q v).cur = s.cur := by
  have hstart : ∀ (f : Nat) (u : State) (core : Nat),
      (u.streamStart core f).threads = u.threads ∧ (u.streamStart core f).cur = u.cur := by
    intro f
    induction f with
    | zero => exact fun _ _ => ⟨rfl, rfl⟩
    | succ f ih =>
      intro u core
      unfold State.streamStart
      split
      · exact ⟨rfl, rfl⟩
      · split
        · exact ih _ core
        · exact ⟨rfl, rfl⟩
  unfold State.pushMarker
  split
  · exact ⟨rfl, rfl⟩
  · split
    · exact hstart 16 _ _
    · exact ⟨rfl, rfl⟩

theorem portPushes : PortPushes := by
  intro s ctl p r q tm u b hh hst
  refine ⟨fun hport hteam hbind hbefore hlh hroom => ?_, fun hport hteam hbind hfull => ?_, fun hport hroom => ?_,
    fun hport hfull => ?_, fun hport hsup => ?_⟩
  · have hpush : pushPort q (s.th.rg r) ctl s = .ok true _ :=
      (pushPort_output hst hport hteam.1 hbind).trans (if_pos (by rw [hbefore]; exact hroom))
    have hleg := pushIllegal_output hport ctl
    exact ⟨pushed_of_retire hlh (enq_completes hleg hh hpush), pushed_of_retire hlh (enqn_completes hleg hpush)⟩
  · have hpush : pushPort q (s.th.rg r) ctl s = .ok false s :=
      (pushPort_output hst hport hteam.1 hbind).trans (if_neg (by unfold portPlaces; omega))
    have hleg := pushIllegal_output hport ctl
    exact ⟨enq_parks hleg hh hpush, gives_of_retire (enqn_completes hleg hpush)⟩
  · have hleg := pushIllegal_command hport
    have hpush : pushPort q (s.th.rg r) false s = .ok true _ :=
      (pushPort_command hst hport).trans (if_pos (decide_eq_true hroom))
    obtain ⟨hthreads, hcur⟩ := pushMarker_frame s q.val (s.th.rg r)
    have hth : (s.pushMarker q.val (s.th.rg r)).th = s.th := by rw [State.th, State.thread, hthreads, hcur]; rfl
    obtain ⟨t, ht, hset, hends⟩ := does_of_retire (enq_completes hleg hh hpush) hcur
    obtain ⟨t', ht', hset', hends'⟩ := does_of_retire (enqn_completes (p := p) hleg hpush) hcur
    rw [hth] at hends hends'
    exact ⟨t, ht, hset, hends, t', ht', hset', hends'⟩
  · have hleg := pushIllegal_command hport
    have hpush : pushPort q (s.th.rg r) false s = .ok false s :=
      (pushPort_command hst hport).trans (if_neg (by rw [State.engineFree, decide_eq_true_eq]; omega))
    exact ⟨enq_parks hleg hh hpush, gives_of_retire (enqn_completes hleg hpush)⟩
  · have hleg : s.pushIllegal false q = none := (pushIllegal_service hport).trans (if_pos hsup)
    obtain ⟨t, ht, hset, hends⟩ := does_of_retire (enq_completes hleg hh (pushPort_service hst hport)) rfl
    exact ⟨t, ht, hends, hset⟩

/-! ## What a pop does (R162, R165) -/

section Pop

variable {s t : State} {q : QPort} {tm : Team} {a : Nat}

/-- The oldest element of a stage input that no light handler guards. -/
theorem popPort_input {x : Element} {rest : List Element} (hport : s.myPort q = .input a) (hteam : s.myTeam = some tm)
    (hbefore : s.before q.val = 0) (hlh : (smFind tm.lh q.val).isNone) (hbusy : q.val ∉ tm.lhBusy)
    (hx : tm.elems q.val = x :: rest) :
    popPort q s = .ok (some (x.data, x.ctl)) ((s.setTeam (tm.setElems q.val rest)).portChanged tm.key q.val) := by
  have hfree : tm.holdsBack q.val 0 = false := by
    rw [Team.holdsBack, Option.isNone_iff_eq_none.1 hlh, List.contains_eq_mem, decide_eq_false hbusy]
    rfl
  unfold popPort
  rw [bind_ok (get_run s)]
  dsimp only
  rw [hport]
  dsimp only
  rw [hteam]
  dsimp only
  rw [hbefore, hx]
  dsimp only [List.getElem?_cons_zero]
  rw [hfree]
  rfl

theorem popPort_input_empty (hport : s.myPort q = .input a) (hteam : s.myTeam = some tm) (hx : tm.elems q.val = []) :
    popPort q s = .ok none s := by
  unfold popPort
  rw [bind_ok (get_run s)]
  dsimp only
  rw [hport]
  dsimp only
  rw [hteam]
  dsimp only
  rw [hx]
  rfl

/-- The oldest result element of the firing. -/
theorem popPort_result {h : Held} (hport : s.myPort q = .result) (hfind : s.th.held.find? (fun e => e.port = q.val) = some h) :
    popPort q s = .ok (some (h.words.getD 0 0, false)) (s.setTh { s.th with held := s.th.held.erase h }) := by
  unfold popPort
  rw [bind_ok (get_run s)]
  dsimp only
  rw [hport]
  dsimp only
  rw [hfind]
  rfl

theorem popPort_result_empty (hport : s.myPort q = .result) (hfind : s.th.held.find? (fun e => e.port = q.val) = none) :
    popPort q s = .ok none s := by
  unfold popPort
  rw [bind_ok (get_run s)]
  dsimp only
  rw [hport]
  dsimp only
  rw [hfind]
  rfl

variable {d : GReg} {p pc : PReg} {v : Word} {k : Bool}

/-- DEQ writes the element and its control bit. -/
theorem deq_completes (hleg : s.popIllegal q = none) (hh : s.th.handler = false) (hp : popPort q s = .ok (some (v, k)) t) :
    exec (.deq d q pc) s = .next (t.retire none [.g d v, .p pc k]) :=
  run_ok ((bind_ok (lawful_ok hleg)).trans ((bind_ok (notInHandler_ok hh)).trans ((bind_ok hp).trans
    (produces_writeI (.g d v) (produces_writeI (.p pc k) produces_advance) t))))

/-- DEQN writes besides that there was one. -/
theorem deqn_completes (hleg : s.popIllegal q = none) (hp : popPort q s = .ok (some (v, k)) t) :
    exec (.deqn p d q pc) s = .next (t.retire none [.g d v, .p pc k, .p p true]) :=
  run_ok ((bind_ok (lawful_ok hleg)).trans ((bind_ok hp).trans
    (produces_writeI (.g d v) (produces_writeI (.p pc k) (produces_writeI (.p p true) produces_advance)) t)))

/-- An empty port parks DEQ and gives DEQN a false predicate. -/
theorem pop_nothing (hleg : s.popIllegal q = none) (hh : s.th.handler = false) (hp : popPort q s = .ok none s) :
    Parks (.deq d q pc) s (.port q.val) ∧ Gives (.deqn p d q pc) s none [.p p false] :=
  ⟨parks_of_stopped (run_error ((bind_ok (lawful_ok hleg)).trans ((bind_ok (notInHandler_ok hh)).trans (bind_ok hp)))),
    gives_of_retire (run_ok ((bind_ok (lawful_ok hleg)).trans ((bind_ok hp).trans
      (produces_writeI (.p p false) produces_advance s))))⟩

end Pop

theorem portPops : PortPops := by
  intro s p pc d q a tm x rest h hh
  refine ⟨fun hport hteam hbefore hlh hbusy hx i ws hi => ?_, fun hport hteam hx => ?_, fun hport hfind => ?_,
    fun hport hfind => ?_⟩
  · have hpop := popPort_input hport hteam.1 hbefore hlh hbusy hx
    have hexec : exec i s = .next (((s.setTeam (tm.setElems q.val rest)).portChanged tm.key q.val).retire none ws) := by
      obtain ⟨rfl, rfl⟩ | ⟨rfl, rfl⟩ := hi
      · exact deq_completes (popIllegal_input hport) hh hpop
      · exact deqn_completes (popIllegal_input hport) hpop
    obtain ⟨t, ht, hends, hfind, hframe, -, hthreads⟩ :=
      portChanged_completes (tm := tm.setElems q.val rest) (.inl (Option.isNone_iff_eq_none.1 hlh)) hexec
    exact ⟨t, _, ht, hends, hfind, elems_setElems_self _ _ _, fun z hz => elems_setElems_other _ _ hz, hframe, hthreads⟩
  · exact pop_nothing (popIllegal_input hport) hh (popPort_input_empty hport hteam.1 hx)
  · have hpop := popPort_result hport hfind
    have hends := fun ws => ends_retire (s := s) (made := s.setTh { s.th with held := s.th.held.erase h }) rfl ws
    have honly : ∀ ws, Only s ((s.setTh { s.th with held := s.th.held.erase h }).retire none ws) := fun ws => by
      rw [retire_eq_setTh, setTh_setTh]
      exact only_setTh s _
    rw [th_setTh] at hends
    have hleg := popIllegal_result hport
    exact ⟨_, _, deq_completes hleg hh hpop, honly _, hends _, deqn_completes hleg hpop, honly _, hends _⟩
  · exact pop_nothing (popIllegal_result hport) hh (popPort_result_empty hport hfind)

/-! ## Pushes and pops that a port does not take (R162) -/

/-- The bundle takes trap 0x01 with a reason (R53). -/
def TrapsFor (s : State) (reason : Nat) (i : Instr) : Prop := ∃ tval : Word, fieldW 63 20 tval = reason ∧ Traps i s 0x01 tval

/-- A body that checks first whether its bundle is legal traps for the reason that it is not. -/
theorem trapsFor_of_illegal {s : State} {i : Instr} {reason : Nat} {f : State → Illegal} {m : Unit → M Unit} (hr : reason < 16)
    (h : f s = s.illegal reason) (hbody : exec i s = run (lawful f >>= m) s) : TrapsFor s reason i :=
  ⟨s.cur.bad reason, fieldW_bad _ _ hr, hbody.trans (run_error (bind_error (lawful_trap h)))⟩

section Traps

variable {s : State} {q : QPort} {reason : Nat}

theorem push_traps {ctl : Bool} (p : PReg) (r : GReg) (hr : reason < 16) (h : s.pushIllegal ctl q = s.illegal reason) :
    TrapsFor s reason (.enq ctl r q) ∧ TrapsFor s reason (.enqn ctl p r q) :=
  ⟨trapsFor_of_illegal (f := (·.pushIllegal ctl q)) hr h rfl, trapsFor_of_illegal (f := (·.pushIllegal ctl q)) hr h rfl⟩

theorem pop_traps (p pc : PReg) (d : GReg) (hr : reason < 16) (h : s.popIllegal q = s.illegal reason) :
    TrapsFor s reason (.deq d q pc) ∧ TrapsFor s reason (.deqn p d q pc) :=
  ⟨trapsFor_of_illegal (f := (·.popIllegal q)) hr h rfl, trapsFor_of_illegal (f := (·.popIllegal q)) hr h rfl⟩

end Traps

theorem portDirectionTraps : PortDirectionTraps := by
  intro s p pc d r q a traps
  refine ⟨fun hport => ?_, fun hport => push_traps p r (by decide) (pushIllegal_control (by rw [hport]; rfl)),
    fun hport => pop_traps p pc d (by decide) (popIllegal_closed hport), fun hport hsup => ?_⟩
  · have hnoOutput : (s.myPort q).isOutput = false := by obtain h | h | h | h := hport <;> rw [h] <;> rfl
    obtain ⟨henq, henqn⟩ := push_traps p r (by decide) (pushIllegal_closed hport)
    exact ⟨henq, henqn, push_traps p r (by decide) (pushIllegal_control hnoOutput)⟩
  · have huser : ¬s.th.sup = true := ne_true_of_eq_false hsup
    obtain ⟨henq, henqn⟩ := push_traps p r (by decide) ((pushIllegal_service hport).trans (if_neg huser))
    exact ⟨henq, henqn, pop_traps p pc d (by decide) ((popIllegal_service hport).trans (if_neg huser))⟩

/-- Settles O36: what a push or a pop makes of its port, the bundle that goes on or parks with it, and the ports that take none. -/
theorem portTransfers : Obligations.PortTransfers := ⟨portPushes, portPops, portDirectionTraps⟩

end Sys2Proof.Machine
end

section
/-!
PROOFS. What QCNT, QCTL and QLH report and change of a port (R166, R167).
-/

namespace Sys2Proof.Machine

open Sys2Proof.Spec

/-! ## Reports (R166) -/

section Reports

variable {s : State} {q : QPort}

/-- Every port but q6 answers in user code too. -/
theorem askIllegal_of_ne (h : q.val ≠ 6) : s.askIllegal q = none := by
  have hq : ¬q = 6 := fun e => h (congrArg Fin.val e)
  rw [State.askIllegal, decide_eq_false hq]
  rfl

theorem portCount_input {a : Nat} {tm : Team} (hport : s.myPort q = .input a) (hteam : s.myTeam = some tm) :
    s.portCount q = (tm.elems q.val).length := by
  rw [State.portCount, hport]
  dsimp only
  rw [hteam]
  rfl

theorem portCount_result (hport : s.myPort q = .result) :
    s.portCount q = (s.th.held.filter fun h => h.port = q.val).length := by
  rw [State.portCount, hport]

theorem code_lt (k : PortKind) : k.code < 8 := by cases k <;> simp [PortKind.code]

/-- COUNT, KIND and the armed bit stand in the status word. -/
theorem portStatus_fields (s : State) (q : QPort) :
    fieldW 4 0 (s.portStatus q) = s.portCount q % 32 ∧ fieldW 7 5 (s.portStatus q) = (s.myPort q).code ∧
      ((s.portStatus q).getLsbD 9 = true ↔ ∃ m k, s.myTeam = some m ∧ smFind m.lh q.val = some k) := by
  have hcode := code_lt (s.myPort q)
  have harmed : (s.myTeam.bind fun t => smFind t.lh q.val).isSome = true ↔
      ∃ m k, s.myTeam = some m ∧ smFind m.lh q.val = some k := by
    cases s.myTeam with
    | none => simp
    | some m => simp [Option.isSome_iff_exists]
  rw [← harmed]
  unfold State.portStatus fieldW bitsOf
  dsimp only
  generalize (s.myTeam.bind fun t => smFind t.lh q.val) = lh
  rw [BitVec.toNat_ofNat, BitVec.getLsbD_ofNat, Nat.testBit_eq_decide_div_mod_eq]
  generalize (s.myPort q).code = code at hcode ⊢
  generalize s.portCount q = count
  generalize lh.getD 0 = actor
  refine ⟨?_, ?_, ?_⟩
  · split <;> split <;> omega
  · split <;> split <;> omega
  · rw [Bool.and_eq_true, decide_eq_true_eq, decide_eq_true_eq]
    cases lh.isSome
    · simp only [Bool.false_eq_true, if_false, iff_false]
      split <;> omega
    · simp only [if_true, iff_true]
      split <;> omega

theorem answerStatus_run (d : GReg) (q : QPort) (s : State) :
    answerStatus d q s = .ok () (s.retire none [.g d (s.portStatus q)]) :=
  (bind_ok (get_run s)).trans (produces_writeI (.g d (s.portStatus q)) produces_advance s)

end Reports

/-! ## Operations of QCTL (R166) -/

section Operations

variable {s : State} {q : QPort} {d : GReg} {y : Opd}

theorem qcnt_gives (hq : q.val ≠ 6) : Gives (.qcnt d q) s none [.g d (BitVec.ofNat 64 (s.portCount q % 32))] :=
  gives_of_retire (run_ok ((bind_ok (lawful_ok (askIllegal_of_ne hq))).trans ((bind_ok (get_run s)).trans
    (produces_writeI _ produces_advance s))))

theorem qctlDiscard_answers (hq : q.val ≠ 6) :
    exec (.qctlDiscard d q) s = .next ((s.discardPort q).retire none [.g d ((s.discardPort q).portStatus q)]) :=
  run_ok ((bind_ok (lawful_ok (askIllegal_of_ne hq))).trans ((bind_ok (modify_run _ s)).trans (answerStatus_run d q _)))

theorem qctlDisarm_answers (hq : q.val ≠ 6) :
    exec (.qctlDisarm d q) s = .next ((s.disarmPort q).retire none [.g d ((s.disarmPort q).portStatus q)]) :=
  run_ok ((bind_ok (lawful_ok (askIllegal_of_ne hq))).trans ((bind_ok (modify_run _ s)).trans (answerStatus_run d q _)))

/-- The port as an operation of QCTL leaves it. -/
def State.portAfter (s : State) (q : QPort) (op : Word) : State :=
  if op = 1 then s.discardPort q else if op = 2 then s.disarmPort q else s

theorem qctl_answers (hq : q.val ≠ 6) :
    exec (.qctl d q y) s =
      .next ((s.portAfter q (src s.th y)).retire none [.g d ((s.portAfter q (src s.th y)).portStatus q)]) := by
  refine run_ok ((bind_ok (lawful_ok (askIllegal_of_ne hq))).trans ((bind_ok (getTh_run s)).trans ?_))
  rw [← opdVal_eq_src, ← answerStatus_run]
  unfold State.portAfter
  dsimp only
  by_cases h1 : opdVal s.th y = 1
  · rw [if_pos h1, if_pos h1, if_neg (by rw [h1]; decide)]
    rfl
  · rw [if_neg h1, if_neg h1]
    by_cases h2 : opdVal s.th y = 2
    · rw [if_pos h2, if_pos h2]
      rfl
    · rw [if_neg h2, if_neg h2]

theorem discardPort_input {a : Nat} {tm : Team} (hport : s.myPort q = .input a) (hteam : s.myTeam = some tm) :
    s.discardPort q = s.setTeam (tm.setElems q.val []) := by
  rw [State.discardPort, hport, hteam]

theorem disarmPort_team {tm : Team} (hteam : s.myTeam = some tm) :
    s.disarmPort q = s.setTeam { tm with lh := smDel tm.lh q.val } := by
  rw [State.disarmPort, hteam]

end Operations

/-! ## QLH (R167) -/

section LightHandler

variable {s : State} {q : QPort} {y : Opd} {a : Nat}

theorem lightIllegal_input (hport : s.myPort q = .input a) : s.lightIllegal q = none := by
  rw [State.lightIllegal, hport]
  rfl

theorem qlh_arms {tm : Team} (hport : s.myPort q = .input a) (hv : (src s.th y).toNat < 64)
    (hkind : s.isKind s.th.launchId (src s.th y).toNat 2 = true) (hteam : s.myTeam = some tm) :
    exec (.qlh q y) s = .next
      (((s.setTeam { tm with lh := smPut tm.lh q.val (src s.th y).toNat }).portChanged tm.key q.val).retire none []) := by
  refine run_ok ((bind_ok (lawful_ok (lightIllegal_input hport))).trans ((bind_ok (get_run s)).trans ?_))
  rw [opdVal_eq_src]
  have hgood : ¬((decide ((src s.th y).toNat ≥ 64) || !s.isKind s.th.launchId (src s.th y).toNat 2) = true) := by
    rw [hkind, decide_eq_false (not_le.2 hv)]
    exact Bool.false_ne_true
  dsimp only
  rw [if_neg hgood, hteam]
  rfl

theorem qlh_traps (hport : s.myPort q = .input a)
    (h : 64 ≤ (src s.th y).toNat ∨ s.isKind s.th.launchId (src s.th y).toNat 2 = false) :
    TrapsWhole (.qlh q y) s 0x05 (src s.th y) := by
  refine run_error ((bind_ok (lawful_ok (lightIllegal_input hport))).trans ((bind_ok (get_run s)).trans ?_))
  rw [opdVal_eq_src]
  have hbad : (decide ((src s.th y).toNat ≥ 64) || !s.isKind s.th.launchId (src s.th y).toNat 2) = true := by
    rw [Bool.or_eq_true, decide_eq_true_eq, Bool.not_eq_true']
    exact h
  dsimp only
  rw [if_pos hbad]
  rfl

end LightHandler

/-- Settles O37: the status word's fields, the team that each operation leaves, and the handler that QLH arms or refuses. -/
theorem portControl : Obligations.PortControl := by
  intro s d q y a tm v status changed hq
  have hchanged : ∀ {i : Instr} {tm' : Team}, exec i s =
      .next ((s.setTeam tm').retire none [.g d ((s.setTeam tm').portStatus q)]) → changed i tm' := by
    intro i tm' h
    obtain ⟨t, ht, hset, hends⟩ := does_of_retire h rfl
    exact ⟨t, _, ht, hset, portStatus_fields _ q, hends⟩
  have hqctl := qctl_answers (s := s) (d := d) (y := y) hq
  refine ⟨qcnt_gives hq, fun hport hteam => portCount_input hport hteam.1, portCount_result, fun h1 h2 => ?_,
    fun hport hteam => ?_, fun hport hv hkind hteam hctl => ?_, qlh_traps⟩
  · have hv1 : ¬v = 1 := fun h => h1 (congrArg BitVec.toNat h)
    have hv2 : ¬v = 2 := fun h => h2 (congrArg BitVec.toNat h)
    rw [State.portAfter, if_neg hv1, if_neg hv2] at hqctl
    exact ⟨_, portStatus_fields s q, gives_of_retire hqctl⟩
  · have hdiscard := discardPort_input (q := q) hport hteam.1
    have hdisarm := disarmPort_team (s := s) (q := q) hteam.1
    refine ⟨hchanged (hdiscard ▸ qctlDiscard_answers hq), hchanged (hdisarm ▸ qctlDisarm_answers hq), fun hv => ?_, fun hv => ?_⟩
    · rw [State.portAfter, if_pos hv, hdiscard] at hqctl
      exact hchanged hqctl
    · rw [State.portAfter, if_neg (by rw [show src s.th y = 2 from hv]; decide), if_pos hv, hdisarm] at hqctl
      exact hchanged hqctl
  · obtain ⟨t, ht, hends, hfind, hframe, -, -⟩ :=
      portChanged_completes (tm := { tm with lh := smPut tm.lh q.val v.toNat }) (.inr hctl) (qlh_arms hport hv hkind hteam.1)
    exact ⟨t, _, ht, hends, hfind, smFind_smPut_self _ _ _, rfl, by rw [hframe]⟩

end Sys2Proof.Machine
end

section
/-!
PROOFS. Messages and the parking of handler code (R159, R168, R356).
-/

namespace Sys2Proof.Machine

open Sys2Proof.Spec

/-! ## What becomes of a message (R168) -/

section Send

variable {s t : State} {desc : Word} {ws : List Word}

/-- A descriptor whose upper bits are 0 and which names a message actor of the launch. -/
def GoodDescriptor (s : State) (desc : Word) : Prop :=
  desc.toNat < 2 ^ 18 ∧ s.isKind s.th.launchId (fieldW 17 12 desc) 2 = true

theorem badDescriptor_iff (s : State) (desc : Word) :
    (decide (desc.toNat ≥ 2 ^ 18) || !s.isKind s.th.launchId (fieldW 17 12 desc) 2) = true ↔ ¬GoodDescriptor s desc := by
  rw [GoodDescriptor, Bool.or_eq_true, decide_eq_true_eq, Bool.not_eq_true', ← Bool.not_eq_true, not_and_or, not_lt]

theorem sendMessage_refused (h : ¬GoodDescriptor s desc) : sendMessage desc ws s = .error (.trapWhole 0x05 desc) s := by
  unfold sendMessage
  rw [bind_ok (get_run s), show s.origin.launch = s.th.launchId from rfl, ite_run, if_pos ((badDescriptor_iff s desc).2 h)]
  rfl

/-- With no team of the launch on the named core, the launch's fault actor is told. -/
theorem sendMessage_undelivered (h : GoodDescriptor s desc) (hst : s.th.stores = [])
    (ht : s.teamOfLaunch s.th.launchId (fieldW 11 0 desc) = none) :
    sendMessage desc ws s = .ok true (s.post (s.undeliverable desc ws)) := by
  unfold sendMessage
  rw [bind_ok (get_run s), show s.origin.launch = s.th.launchId from rfl, ite_run,
    if_neg fun hb => (badDescriptor_iff s desc).1 hb h, bind_ok (drainMine_nil hst), bind_ok (get_run s), ht]
  rfl

/-- A core without room accepts nothing. -/
theorem sendMessage_held {tm : Team} (h : GoodDescriptor s desc) (hst : s.th.stores = [])
    (ht : s.teamOfLaunch s.th.launchId (fieldW 11 0 desc) = some tm) (hr : s.room (fieldW 11 0 desc) = false) :
    sendMessage desc ws s = .ok false s := by
  unfold sendMessage
  rw [bind_ok (get_run s), show s.origin.launch = s.th.launchId from rfl, ite_run,
    if_neg fun hb => (badDescriptor_iff s desc).1 hb h, bind_ok (drainMine_nil hst), bind_ok (get_run s), ht]
  dsimp only
  rw [hr, Bool.false_and, if_neg Bool.false_ne_true]
  rfl

variable {d w : GReg} {p : PReg}

/-- FIRE goes on where its message is accepted, or is answered undeliverable. -/
theorem fire_completes (hh : s.th.handler = false) (h : sendMessage (s.th.rg d) (fireWords s.th w) s = .ok true t) :
    exec (.fire d w) s = .next (t.retire none []) :=
  run_ok ((bind_ok (notInHandler_ok hh)).trans ((bind_ok (getTh_run s)).trans (bind_ok h)))

/-- FIREN writes which it was. -/
theorem firen_completes {ok : Bool} (h : sendMessage (s.th.rg d) (fireWords s.th w) s = .ok ok t) :
    exec (.firen p d w) s = .next (t.retire none [.p p ok]) :=
  run_ok ((bind_ok (getTh_run s)).trans ((bind_ok h).trans (produces_writeI (.p p ok) produces_advance t)))

theorem fire_parks (hh : s.th.handler = false) (h : sendMessage (s.th.rg d) (fireWords s.th w) s = .ok false s) :
    Parks (.fire d w) s (.fire (fieldW 11 0 (s.th.rg d)) s.th.eprio) :=
  parks_of_stopped (run_error ((bind_ok (notInHandler_ok hh)).trans ((bind_ok (getTh_run s)).trans (bind_ok h))))

end Send

/-- A notice that is no engine's record changes no thread and not the bundle that executes. -/
theorem post_frame (s : State) {n : Note} (hn : n.record = false) : (s.post n).threads = s.threads ∧ (s.post n).cur = s.cur := by
  have hdrop : ∀ l, (s.drop l 1).threads = s.threads ∧ (s.drop l 1).cur = s.cur := by
    intro l
    unfold State.drop
    split <;> exact ⟨rfl, rfl⟩
  unfold State.post
  rw [hn]
  split
  case h_1 => exact ⟨rfl, rfl⟩
  case h_2 l _ =>
    split
    case h_1 =>
      split
      · exact ⟨rfl, rfl⟩
      · split
        · exact hdrop l
        · split <;> exact ⟨rfl, rfl⟩
    case h_2 => exact hdrop l

theorem messagesAreSent : MessagesSent := by
  intro s p d w tm desc dest actor ok words hh hst
  refine ⟨fun hbad => ?_, fun hok hteam hroom hbehind i ws hi => ?_, fun hok hteam => ?_, fun hok hteam hroom => ?_⟩
  · have hsend : sendMessage desc (fireWords s.th w) s = .error (.trapWhole 0x05 desc) s := sendMessage_refused hbad
    exact ⟨run_error ((bind_ok (notInHandler_ok hh)).trans ((bind_ok (getTh_run s)).trans (bind_error hsend))),
      run_error ((bind_ok (getTh_run s)).trans (bind_error hsend))⟩
  · have hsend := sendMessage_accepts (ws := fireWords s.th w) hst hok.1 hok.2 hteam hroom hbehind
    have hexec : exec i s = .next ((s.pushTask dest s.th.eprio (s.th.message tm d w)).retire none ws) := by
      obtain ⟨rfl, rfl⟩ | ⟨rfl, rfl⟩ := hi
      · exact fire_completes hh hsend
      · exact firen_completes hsend
    refine ⟨_, s.th.message tm d w, hexec, ends_retire rfl ws, ?_⟩
    rw [retire_eq_setTh]
    exact ⟨rfl, fun x hx => thread_setTh_other (s.pushTask dest s.th.eprio (s.th.message tm d w)) x _ hx,
      queue_setQueue_self s dest _, fun x hx => queue_setQueue_other s _ hx, rfl, rfl, rfl, rfl, eight_fireWords s.th w, rfl⟩
  · have hsend : sendMessage desc words s = .ok true (s.post (s.undeliverable desc words)) := sendMessage_undelivered hok hst hteam
    obtain ⟨hthreads, hcur⟩ := post_frame s (n := s.undeliverable desc words) rfl
    have hth : (s.post (s.undeliverable desc words)).th = s.th := by rw [State.th, State.thread, hthreads, hcur]; rfl
    have hfire := does_of_retire (fire_completes (w := w) hh hsend) hcur
    have hfiren := does_of_retire (firen_completes (p := p) (w := w) hsend) hcur
    rw [hth] at hfire hfiren
    exact ⟨s.undeliverable desc words, rfl, rfl, rfl, rfl, rfl, rfl, hfire, hfiren⟩
  · have hsend : sendMessage desc words s = .ok false s := sendMessage_held hok hst hteam hroom
    exact ⟨fire_parks hh hsend, gives_of_retire (firen_completes hsend)⟩

/-! ## Handler code never parks (R159) -/

theorem handlersNeverPark : HandlersNeverPark := by
  intro s pc d r q b hh tv
  have htrap : notInHandler s = .error (.trap 0x0A tv) s := notInHandler_trap hh
  refine ⟨fun h => ?_, fun h => ?_, fun h => ?_, run_error (bind_error htrap), run_error (bind_error htrap)⟩
  all_goals exact run_error ((bind_ok (lawful_ok h)).trans (bind_error htrap))

/-- Settles O38: a message is refused, queued, answered undeliverable or held back; what could park in handler code traps first. -/
theorem messagesSent : Obligations.MessagesSent := ⟨messagesAreSent, handlersNeverPark⟩

end Sys2Proof.Machine
end

section
/-!
PROOFS. Barriers and their instructions (R170 to R173).
-/

namespace Sys2Proof.Machine

open Sys2Proof.Spec

/-! ## The test (R172) -/

/-- Every expected arrival is in and no bytes are due. -/
def Barrier.full (b : Barrier) : Prop := b.arrived = b.expect ∧ 0 < b.expect ∧ b.bytes = 0

/-- The barrier in its next phase. -/
def Barrier.advanced (b : Barrier) : Barrier :=
  { b with phase := b.phase + 1, expect := b.expect - b.leave, leave := 0, arrived := b.next, next := 0 }

theorem full_iff (b : Barrier) :
    (decide (b.arrived = b.expect) && decide (b.expect > 0) && decide (b.bytes = 0)) = true ↔ b.full := by
  rw [Bool.and_eq_true, Bool.and_eq_true, decide_eq_true_eq, decide_eq_true_eq, decide_eq_true_eq, and_assoc]
  rfl

theorem barrierTest_stays {b : Barrier} (h : ¬b.full) (f : Nat) : barrierTest f b = b := by
  cases f with
  | zero => rfl
  | succ f => exact if_neg fun hf => h ((full_iff b).1 hf)

theorem barrierTest_advances {b : Barrier} (h : b.full) (f : Nat) : barrierTest (f + 1) b = barrierTest f b.advanced :=
  if_pos ((full_iff b).2 h)

theorem barrierTests : BarrierTest := by
  intro b fires
  refine ⟨fun h => barrierTest_stays h 4, fun h hagain => (barrierTest_advances h 3).trans (barrierTest_stays ?_ 3)⟩
  rintro ⟨hall, hsome, -⟩
  exact hagain ⟨hall, hsome⟩

/-! ## Arrivals (R171) -/

section Arrive

variable {s : State} {leave : Bool} {d n : GReg} {b : BReg} {tm : Team}

theorem barIllegal_allocated (h : b.val < (s.spec s.th.launchId).barriers) : s.barIllegal b = none := if_pos h

/-- The byte count of an ARRB stands in bits 39 to 0. -/
theorem fieldW_high_eq_zero_iff (v : Word) : fieldW 63 40 v = 0 ↔ v.toNat < 2 ^ 40 := by
  have hv := v.isLt
  unfold fieldW bitsOf
  omega

/-- An arrival's byte count, where it has one, is in range. -/
def InRange (bytes : Option Word) : Prop := ∀ n, bytes = some n → n.toNat < 2 ^ 40

/-- The barrier with one more arrival in the running phase. -/
def Barrier.counted (x : Barrier) (leave : Bool) (bytes : Nat) : Barrier :=
  { x with arrived := x.arrived + 1, leave := x.leave + leave.toNat, bytes := wrap48 (x.bytes + bytes) }

/-- An arrival at a barrier of a team, its byte count being in range. -/
def arriveIn (tm : Team) (leave : Bool) (d : GReg) (b : BReg) (bytes : Option Word) : M Unit := do
  if (tm.bar b.val).arrived < (tm.bar b.val).expect then
    drainMine
    writeI (.g d (BitVec.ofNat 64 (tm.bar b.val).phase.toNat))
    modify fun s => s.setTeam (tm.putBar b.val ((tm.bar b.val).counted leave ((bytes.map (·.toNat)).getD 0)))
  else if leave || bytes.isSome || (tm.bar b.val).next = (tm.bar b.val).expect then trapWhole 0x05 (BitVec.ofNat 64 b.val)
  else
    drainMine
    writeI (.g d (BitVec.ofNat 64 ((tm.bar b.val).phase + 1).toNat))
    modify fun s => s.setTeam (tm.putBar b.val { tm.bar b.val with next := (tm.bar b.val).next + 1 })

theorem arriveAt_inRange {bytes : Option Word} (hteam : s.myTeam = some tm) (hb : InRange bytes) :
    arriveAt leave d b bytes s = arriveIn tm leave d b bytes s := by
  have hleave : (if leave = true then 1 else 0) = leave.toNat := by cases leave <;> rfl
  unfold arriveAt arriveIn Barrier.counted
  rw [bind_ok (get_run s)]
  cases bytes with
  | none =>
    dsimp only
    rw [hteam, hleave]
  | some v =>
    dsimp only
    rw [if_neg (not_not.2 ((fieldW_high_eq_zero_iff v).2 (hb v rfl))), hteam, hleave]

theorem arriveAt_outOfRange {v : Word} (h : 2 ^ 40 ≤ v.toNat) :
    arriveAt leave d b (some v) s = .error (.trapWhole 0x05 v) s := by
  have hout : fieldW 63 40 v ≠ 0 := fun h0 => not_lt.2 h ((fieldW_high_eq_zero_iff v).1 h0)
  unfold arriveAt
  rw [bind_ok (get_run s)]
  dsimp only
  rw [if_pos hout]
  rfl

/-- An accepted arrival gives its phase and leaves its team's barrier changed. -/
theorem arrival_run (hst : s.th.stores = []) (w : RegWrite) (u : Team) :
    (do drainMine; writeI w; modify (·.setTeam u) : M Unit) s = .ok () ((s.setTeam u).setTh (s.th.post w none)) :=
  (bind_ok (drainMine_nil hst)).trans ((bind_ok (writeI_run w s)).trans (modify_run _ _))

theorem arriveIn_running (hst : s.th.stores = []) (bytes : Option Word)
    (h : (tm.bar b.val).arrived < (tm.bar b.val).expect) :
    arriveIn tm leave d b bytes s =
      .ok () ((s.setTeam (tm.putBar b.val ((tm.bar b.val).counted leave ((bytes.map (·.toNat)).getD 0)))).setTh
        (s.th.post (.g d (BitVec.ofNat 64 (tm.bar b.val).phase.toNat)) none)) := by
  rw [arriveIn, if_pos h]
  exact arrival_run hst _ _

theorem arriveIn_early (hst : s.th.stores = []) (h : (tm.bar b.val).expect ≤ (tm.bar b.val).arrived)
    (hn : (tm.bar b.val).next ≠ (tm.bar b.val).expect) :
    arriveIn tm false d b none s =
      .ok () ((s.setTeam (tm.putBar b.val { tm.bar b.val with next := (tm.bar b.val).next + 1 })).setTh
        (s.th.post (.g d (BitVec.ofNat 64 ((tm.bar b.val).phase + 1).toNat)) none)) := by
  rw [arriveIn, if_neg (not_lt.2 h), decide_eq_false hn]
  exact arrival_run hst _ _

/-- An early arrival that leaves, brings bytes or is one too many. -/
theorem arriveIn_refused {bytes : Option Word} (h : (tm.bar b.val).expect ≤ (tm.bar b.val).arrived)
    (hbad : leave = true ∨ bytes.isSome = true ∨ (tm.bar b.val).next = (tm.bar b.val).expect) :
    arriveIn tm leave d b bytes s = .error (.trapWhole 0x05 (BitVec.ofNat 64 b.val)) s := by
  have hb : (leave || bytes.isSome || decide ((tm.bar b.val).next = (tm.bar b.val).expect)) = true := by
    rw [Bool.or_eq_true, Bool.or_eq_true, decide_eq_true_eq, or_assoc]
    exact hbad
  rw [arriveIn, if_neg (not_lt.2 h), if_pos hb]
  rfl

/-- ARRIVE arrives without bytes. -/
theorem arrive_body (hb : b.val < (s.spec s.th.launchId).barriers) :
    exec (.arrive leave d b) s = run (do arriveAt leave d b none; advance) s :=
  run_congr (bind_ok (lawful_ok (barIllegal_allocated hb)))

/-- ARRB arrives with those of its register. -/
theorem arrb_body (hb : b.val < (s.spec s.th.launchId).barriers) :
    exec (.arrb leave d b n) s = run (do arriveAt leave d b (some (s.th.rg n)); advance) s :=
  run_congr ((bind_ok (lawful_ok (barIllegal_allocated hb))).trans (bind_ok (getTh_run s)))

theorem arrival_completes {i : Instr} {m : M Unit} {w : RegWrite} {u : Team} (hi : exec i s = run (do m; advance) s)
    (hm : m s = .ok () ((s.setTeam u).setTh (s.th.post w none))) :
    ∃ t, exec i s = .next t ∧ Ends s t s.th none [w] ∧ t = (s.setTeam u).setTh t.th := by
  have hexec : exec i s = .next ((s.setTeam u).retire none [w]) :=
    hi.trans (run_ok ((bind_ok hm).trans ((bind_ok (writeI_run w (s.setTeam u))).symm.trans
      (produces_writeI w produces_advance (s.setTeam u)))))
  obtain ⟨t, ht, hset, hends⟩ := does_of_retire hexec rfl
  exact ⟨t, ht, hends, hset⟩

theorem arrival_traps {i : Instr} {m : M Unit} {v : Word} (hi : exec i s = run (do m; advance) s)
    (hm : m s = .error (.trapWhole 0x05 v) s) : TrapsWhole i s 0x05 v :=
  hi.trans (run_error (bind_error hm))

end Arrive

/-! ## Waits (R173) -/

section Wait

variable {s : State} {d : GReg} {p : PReg} {b : BReg} {tm : Team}

theorem passed_iff (hteam : s.myTeam = some tm) (g : Word) :
    s.passed g b = true ↔
      1 ≤ ((tm.bar b.val).phase - g.setWidth 32).toNat ∧ ((tm.bar b.val).phase - g.setWidth 32).toNat < 2 ^ 31 := by
  rw [State.passed, hteam]
  change phasePassed (tm.bar b.val) g = true ↔ _
  rw [phasePassed, BitVec.ofNat_toNat, Bool.and_eq_true, decide_eq_true_eq, decide_eq_true_eq]

theorem bwaitn_gives (hb : b.val < (s.spec s.th.launchId).barriers) :
    Gives (.bwaitn p d b) s none [.p p (s.passed (s.th.rg d) b)] :=
  gives_of_retire (run_ok ((bind_ok (lawful_ok (barIllegal_allocated hb))).trans ((bind_ok (get_run s)).trans
    (produces_writeI _ produces_advance s))))

theorem bwait_body (hb : b.val < (s.spec s.th.launchId).barriers) (hh : s.th.handler = false) :
    exec (.bwait d b) s = run (if s.passed (s.th.rg d) b then advance else stop (.park .bwait)) s :=
  run_congr ((bind_ok (lawful_ok (barIllegal_allocated hb))).trans ((bind_ok (notInHandler_ok hh)).trans (bind_ok (get_run s))))

theorem bwait_goesOn (hb : b.val < (s.spec s.th.launchId).barriers) (hh : s.th.handler = false)
    (hp : s.passed (s.th.rg d) b = true) : Gives (.bwait d b) s none [] := by
  refine gives_of_retire ((bwait_body hb hh).trans (run_ok ?_))
  rw [if_pos hp]
  exact produces_advance s

theorem bwait_parks (hb : b.val < (s.spec s.th.launchId).barriers) (hh : s.th.handler = false)
    (hp : ¬s.passed (s.th.rg d) b = true) : Parks (.bwait d b) s .bwait := by
  refine parks_of_stopped ((bwait_body hb hh).trans (run_error ?_))
  rw [if_neg hp]
  rfl

end Wait

theorem barrierInstructions : BarrierInstructions := by
  intro s leave p d n b tm x bytes phase passed hb hteam hst
  have hnone : InRange none := fun _ h => nomatch h
  have hsome : bytes < 2 ^ 40 → InRange (some (s.th.rg n)) := fun h v hv => Option.some.inj hv ▸ h
  have hphase : ∀ v : BitVec 32, v.setWidth 64 = BitVec.ofNat 64 v.toNat := fun v => (BitVec.ofNat_toNat 64 v).symm
  have hpassed : s.passed (s.th.rg d) b = true ↔ passed := passed_iff hteam.1 phase
  rw [hphase, hphase]
  refine ⟨fun hrun => ⟨?_, fun hbytes => ?_⟩, fun hbytes => ?_, fun hdone hnext => ?_, fun hdone hbad => ?_, fun hdone hbytes => ?_,
    fun hh => ⟨fun hp => ?_, fun hp => ?_⟩, fun hp => ?_, fun hp => ?_⟩
  · have hend := arrival_completes (arrive_body hb)
      ((arriveAt_inRange hteam.1 hnone).trans (arriveIn_running (leave := leave) (d := d) hst none hrun))
    rwa [Barrier.counted, show ((none.map fun v : Word => v.toNat).getD 0 : Nat) = 0 from rfl, Int.natCast_zero, Int.add_zero] at hend
  · exact arrival_completes (arrb_body hb)
      ((arriveAt_inRange hteam.1 (hsome hbytes)).trans (arriveIn_running hst (some (s.th.rg n)) hrun))
  · exact arrival_traps (arrb_body hb) (arriveAt_outOfRange hbytes)
  · exact arrival_completes (arrive_body hb) ((arriveAt_inRange hteam.1 hnone).trans (arriveIn_early hst hdone hnext))
  · refine arrival_traps (arrive_body hb) ((arriveAt_inRange hteam.1 hnone).trans (arriveIn_refused hdone ?_))
    exact hbad.imp_right .inr
  · exact arrival_traps (arrb_body hb)
      ((arriveAt_inRange hteam.1 (hsome hbytes)).trans (arriveIn_refused hdone (.inr (.inl rfl))))
  · exact bwait_goesOn hb hh (hpassed.2 hp)
  · exact bwait_parks hb hh fun h => hp (hpassed.1 h)
  · exact hpassed.2 hp ▸ bwaitn_gives hb
  · exact Bool.eq_false_iff.2 (fun h => hp (hpassed.1 h)) ▸ bwaitn_gives hb

/-- Settles O39: a test fires at most once where the next phase has not all its arrivals; an arrival changes its team's barrier alone. -/
theorem barriers : Obligations.Barriers := ⟨barrierTests, barrierInstructions⟩

end Sys2Proof.Machine
end

section
/-!
PROOFS. Work identifiers, the emit priority, the end of a firing and the alignment (R169, R173 to R175).
-/

namespace Sys2Proof.Machine

open Sys2Proof.Spec

/-! ## Parts of a work identifier (R174) -/

theorem sumNat_eq_sum (l : List Nat) : sumNat l = l.sum := List.sum_eq_foldl.symm

theorem widPart_field (l : LaunchSpec) (id : Nat) {k : Nat} (h : k ≤ 5) :
    widPart l id k = id / 2 ^ (l.widths.drop (k + 1)).sum % 2 ^ l.widths.getD k 0 := by
  rw [widPart, if_pos h, widField, sumNat_eq_sum]

theorem widPart_level (l : LaunchSpec) (id : Nat) :
    widPart l id 6 = id % 2 ^ itemBits l ∧ widPart l id 7 = id / 2 ^ itemBits l % 2 ^ teamBits l ∧
      widPart l id 8 = id / 2 ^ (itemBits l + teamBits l) % 2 ^ (specBits l - itemBits l - teamBits l) :=
  ⟨rfl, rfl, rfl⟩

theorem widPart_beyond (l : LaunchSpec) (id : Nat) {k : Nat} (h : 8 < k) : widPart l id k = 0 := by
  rw [widPart, if_neg (by omega), if_neg (by omega), if_neg (by omega), if_neg (by omega)]

/-! ## The end of a firing (R175) -/

/-- A firing at home that serves no port and has no reservation and no waiting record leaves its context free. -/
theorem endFiring_eq {s : State} {k : Nat} {f : Firing} (hf : (s.thread k).firing = some f) (hhome : f.home = none)
    (hport : f.port = none) (hwg : (s.thread k).wg = []) (htraps : (s.thread k).traps = []) :
    s.endFiring k = { s.setThread k (s.thread k).afterEnd with
      ended := s.ended ++ [f]
      xfers := s.xfers.filter fun x => !(decide (x.kind = .cut) && decide (x.org.firing = f.id)) } := by
  have hlost : s.waitingTraps k f = 0 := by
    rw [State.waitingTraps, htraps, hhome]
    rfl
  unfold State.endFiring
  dsimp only
  rw [hf]
  dsimp only
  rw [hwg, List.foldl_nil, hlost, if_pos rfl, hport, hhome]
  rfl

theorem done_ends {s : State} {f : Firing} (hf : s.th.firing = some f) (hhome : f.home = none) (hport : f.port = none)
    (hwg : s.th.wg = []) (htraps : s.th.traps = []) :
    ∃ t, exec .done s = .next t ∧ t.ended = s.ended ++ [f] ∧ t.mem = s.mem ∧ t.th = s.th.afterEnd ∧
      ∀ k, k ≠ s.cur.tid → t.thread k = s.thread k := by
  obtain ⟨queues, hq⟩ := queuesOnly_stageTasks (s.endFiring s.cur.tid) (teamKey s.th.launchId s.th.teamNo)
  refine ⟨(s.endFiring s.cur.tid).stageTasks (teamKey s.th.launchId s.th.teamNo), rfl, ?_⟩
  rw [hq, endFiring_eq hf hhome hport hwg htraps]
  exact ⟨rfl, rfl, th_setTh s s.th.afterEnd, fun k hk => thread_setTh_other s k s.th.afterEnd hk⟩

/-! ## The alignment (R173) -/

section Align

variable {s : State}

theorem othersParked_of_alone (h : ∀ k, k < 8 → k ≠ s.cur.ctx → (s.thread (tidOf s.cur.core k)).firing = none) :
    s.othersParked = true := by
  refine List.all_eq_true.2 fun k hk => ?_
  by_cases hctx : k = s.cur.ctx
  · simp [hctx]
  · simp [h k (List.mem_range.1 hk) hctx]

theorem othersParked_of_running {k : Nat} (hk : k < 8) (hctx : k ≠ s.cur.ctx)
    (hrun : (s.thread (tidOf s.cur.core k)).status = .running) (hfiring : (s.thread (tidOf s.cur.core k)).firing.isSome = true)
    (hlaunch : (s.thread (tidOf s.cur.core k)).launchId = s.th.launchId)
    (hteam : (s.thread (tidOf s.cur.core k)).teamNo = s.th.teamNo) : s.othersParked = false := by
  refine List.all_eq_false.2 ⟨k, List.mem_range.2 hk, ?_⟩
  obtain ⟨f, hf⟩ := Option.isSome_iff_exists.1 hfiring
  simp [hctx, hrun, hf, hlaunch, hteam, CtxState.isParked]

/-- A release of contexts that do not wait changes nothing. -/
theorem releaseAligned_none {core launch team x : Nat}
    (h : ∀ k, k < 8 → (s.thread (tidOf core k)).waitsAt launch team x = false) : s.releaseAligned core launch team x = s := by
  have hfold : ∀ l : List Nat, (∀ k ∈ l, k < 8) →
      l.foldl (fun s k => if (s.thread (tidOf core k)).waitsAt launch team x then s.completeParked (tidOf core k) else s) s = s := by
    intro l
    induction l with
    | nil => exact fun _ => rfl
    | cons k l ih =>
      intro hl
      rw [List.foldl_cons, h k (hl k List.mem_cons_self), if_neg Bool.false_ne_true]
      exact ih fun j hj => hl j (List.mem_cons_of_mem k hj)
  exact hfold _ fun k hk => List.mem_range.1 hk

theorem waitsAt_noFiring {t : Thread} (h : t.firing = none) (launch team x : Nat) : t.waitsAt launch team x = false := by
  rw [Thread.waitsAt, h]
  rfl

theorem waitsAt_running {t : Thread} (h : t.status = .running) (launch team x : Nat) : t.waitsAt launch team x = false := by
  rw [Thread.waitsAt, h, CtxState.alignedAt, Bool.and_false]

theorem falign_goesOn (hh : s.th.handler = false) (hothers : s.othersParked = true)
    (hrelease : s.releaseAligned s.cur.core s.th.launchId s.th.teamNo s.th.pc = s) : Gives .falign s none [] := by
  refine gives_of_retire (run_ok ((bind_ok (notInHandler_ok hh)).trans ((bind_ok (get_run s)).trans ?_)))
  rw [hothers, if_pos rfl, hrelease]
  rfl

theorem falign_parks (hh : s.th.handler = false) (hothers : s.othersParked = false) : Parks .falign s (.falign s.th.pc) := by
  refine parks_of_stopped (run_error ((bind_ok (notInHandler_ok hh)).trans ((bind_ok (get_run s)).trans ?_)))
  rw [hothers, if_neg Bool.false_ne_true]
  rfl

end Align

/-- Settles O40: the parts of the identifier, the lower of two priorities, the context that DONE frees, and the alignment of a context
that is alone or has a running companion. -/
theorem workAndEnds : Obligations.WorkAndEnds := by
  intro s d y f l sp id v below between
  have hbelow : itemBits sp = below := sumNat_eq_sum _
  have hbetween : teamBits sp = between := sumNat_eq_sum _
  have hall : specBits sp = sp.widths.sum := sumNat_eq_sum _
  obtain ⟨h6, h7, h8⟩ := widPart_level sp id
  rw [hbelow] at h6 h7 h8
  rw [hbetween] at h7 h8
  rw [hall] at h8
  refine ⟨⟨BitVec.ofNat 64 (widPart sp id v), ⟨fun h => ?_, fun h => ?_, fun h => ?_, fun h => ?_, fun h => ?_⟩, ?_⟩,
    fun hl => ?_, fun hf hhome hport hwg htraps => ?_, fun hh halone hrun => ?_, fun hh hctx h => ?_⟩
  · rw [widPart_field sp id h]
  · rw [h, h6]
  · rw [h, h7]
  · rw [h, h8]
  · rw [widPart_beyond sp id h]
    rfl
  · refine gives_of_produce (show exec _ s = execWid d y s from rfl) ?_
    rw [opdVal_eq_src]
  · have hprio : s.launchPrio s.th.launchId = l.spec.prio := by
      rw [State.launchPrio, hl]
      rfl
    have hexec : exec (.prio y) s = .next (s.setTh ({ s.th with eprio := min v l.spec.prio }.step s.cur)) := by
      rw [← hprio, show v = (opdVal s.th y).toNat by rw [opdVal_eq_src]]
      rfl
    refine ⟨_, hexec, only_setTh s _, ?_⟩
    rw [Ends, th_setTh]
    exact ⟨goes_step s.cur { s.th with eprio := min v l.spec.prio }, rest_step s.cur { s.th with eprio := min v l.spec.prio },
      (step_pend _ _).trans (List.append_nil _).symm⟩
  · obtain ⟨t, ht, hended, hmem, hth, hothers⟩ := done_ends hf hhome hport hwg htraps
    refine ⟨t, ht, ?_⟩
    rw [hended, hth]
    exact ⟨List.mem_append_right _ List.mem_cons_self, hmem, rfl, rfl, rfl, rfl, rfl, rfl, hothers⟩
  · refine falign_goesOn hh (othersParked_of_alone halone) (releaseAligned_none fun k hk => ?_)
    by_cases hctx : k = s.cur.ctx
    · rw [hctx]
      exact waitsAt_running hrun _ _ _
    · exact waitsAt_noFiring (halone k hk hctx) _ _ _
  · obtain ⟨k, hk, hne, hrun, hfiring, hlaunch, hteam⟩ := h
    exact falign_parks hh (othersParked_of_running hk hne hrun hfiring hlaunch hteam)

end Sys2Proof.Machine
end

section
/-!
SUPPORT. Precise results (R372) at the end of a body, a park after a translation, and what a write at a home wakes (R179, R209).
-/

namespace Sys2Proof.Machine

open Sys2Proof.Spec

/-! ## Precise results, then the next bundle -/

/-- The thread after precise results, in order. -/
def Thread.nows (t : Thread) (ws : List RegWrite) : Thread := ws.foldl (fun u w => u.now w) t

/-- The state after a body that ends with precise results and goes on. -/
def State.concluded (s : State) (ws : List RegWrite) : State := s.setTh ((s.th.nows ws).step s.cur)

/-- The end of a body: from any state the precise results `ws` are written and the thread goes on. -/
def Concludes (m : M Unit) (ws : List RegWrite) : Prop := ∀ s, m s = .ok () (s.concluded ws)

theorem concludes_advance : Concludes advance [] := fun _ => rfl

theorem concludes_writeNow {m : M Unit} {ws : List RegWrite} (w : RegWrite) (h : Concludes m ws) :
    Concludes (writeNow w >>= fun _ => m) (w :: ws) := by
  intro s
  rw [bind_ok (writeNow_run w s), h]
  unfold State.concluded
  rw [th_setTh, setTh_cur, setTh_setTh]
  rfl

/-- Precise results leave what going on reads. -/
theorem nows_flow (t : Thread) (ws : List RegWrite) :
    (t.nows ws).nt = t.nt ∧ (t.nows ws).bundles = t.bundles ∧ (t.nows ws).pcc = t.pcc ∧ (t.nows ws).lpst = t.lpst ∧
      (t.nows ws).lpsa = t.lpsa ∧ (t.nows ws).run = t.run := by
  induction ws generalizing t with
  | nil => exact ⟨rfl, rfl, rfl, rfl, rfl, rfl⟩
  | cons w ws ih =>
    obtain ⟨hnt, hbundles, hpcc, hlpst, hlpsa, hrun⟩ := now_flow t w
    obtain ⟨hnt', hbundles', hpcc', hlpst', hlpsa', hrun'⟩ := ih (t.now w)
    exact ⟨hnt'.trans hnt, hbundles'.trans hbundles, hpcc'.trans hpcc, hlpst'.trans hlpst, hlpsa'.trans hlpsa, hrun'.trans hrun⟩

theorem goes_step_nows (c : Cur) (t : Thread) (ws : List RegWrite) : Goes c t ((t.nows ws).step c) := by
  obtain ⟨hnt, hbundles, hpcc, hlpst, hlpsa, hrun⟩ := nows_flow t ws
  have h := goes_step c (t.nows ws)
  unfold Goes Thread.pc at h ⊢
  rwa [hnt, hbundles, hpcc, hlpst, hlpsa, hrun] at h

section Conclude

variable {i : Instr} {s s1 s2 : State} {ws : List RegWrite}

/-- The thread of a conclusion is that of a precise access. -/
theorem precise_concluded (hcur : s2.cur = s.cur) (hth : s2.th = s1.th) (ws : List RegWrite) : Precise s s1 (s2.concluded ws) ws := by
  rw [Precise, State.concluded, th_setTh, hth, hcur]
  exact ⟨goes_step_nows _ _ _, rest_step _ _, step_pend _ _⟩

/-- An access that reads and changes only caches. -/
theorem reads_of_concluded (h : exec i s = .next (s2.concluded ws)) (hc : Caches s s2) (hth : s2.th = s1.th) :
    ∃ t, exec i s = .next t ∧ Caches s t ∧ Precise s s1 t ws :=
  ⟨_, h, caches_setTh hc _, precise_concluded (cur_of_caches hc) hth ws⟩

/-- One that gives one result. -/
theorem loads_of_concluded {w : RegWrite} (h : exec i s = .next (s2.concluded [w])) (hc : Caches s s2) (hth : s2.th = s1.th) :
    Loads i s s1 w := reads_of_concluded h hc hth

/-- A bundle that parks in a state that its access has left. -/
theorem parks_after {why : ParkWhy} (h : exec i s = .next (s2.stopped (.park why))) (hcur : s2.cur = s.cur) :
    ∃ t q, exec i s = .next t ∧ t.waits = s2.waits ∧ t.mem = s2.mem ∧ q.why = why ∧ q.bundle = s.cur ∧
      t.th = { s2.th with status := .parked q } :=
  ⟨_, _, h, rfl, rfl, rfl, hcur, park_thread s2 s2.cur.tid why⟩

end Conclude

/-! ## Wakes -/

/-- Parked contexts may have been woken; nothing else has changed, and a running thread is as it was. -/
def Woken (s t : State) : Prop :=
  (∃ threads, t = { s with threads := threads }) ∧ SameButStatus s t ∧ ∀ k, (s.thread k).status = .running → t.thread k = s.thread k

section Wakes

variable {s t u : State}

theorem woken_refl (s : State) : Woken s s := ⟨⟨s.threads, rfl⟩, fun _ => rfl, fun _ _ => rfl⟩

theorem Woken.trans (h : Woken s t) (h' : Woken t u) : Woken s u := by
  obtain ⟨⟨_, rfl⟩, hsame, hrun⟩ := h
  obtain ⟨⟨_, rfl⟩, hsame', hrun'⟩ := h'
  refine ⟨⟨_, rfl⟩, hsame.trans hsame', fun k hk => ?_⟩
  have hk' := hrun k hk
  exact (hrun' k (by rw [hk']; exact hk)).trans hk'

theorem woken_wakeWith (s : State) (k : Nat) (v : Word) : Woken s (s.wakeWith k v) := by
  refine ⟨?_, (wakeWith_frame s k v).2, fun j hj => ?_⟩
  · unfold State.wakeWith
    dsimp only
    split <;> exact ⟨_, rfl⟩
  · unfold State.wakeWith
    dsimp only
    split
    case h_1 p hp =>
      refine thread_setThread_other s k j _ fun he => ?_
      rw [he, hp] at hj
      cases hj
    all_goals rfl

theorem woken_foldl (f : State → WaitEntry → Word) (l : List WaitEntry) (s : State) :
    Woken s (l.foldl (fun s e => s.wakeWith e.tid (f s e)) s) := by
  induction l generalizing s with
  | nil => exact woken_refl s
  | cons e l ih => exact (woken_wakeWith s e.tid (f s e)).trans (ih _)

theorem Woken.setVer (h : Woken s t) (a : Nat) (v : VerMeta) : Woken (s.setVer a v) (t.setVer a v) := by
  obtain ⟨⟨_, rfl⟩, hsame, hrun⟩ := h
  exact ⟨⟨_, rfl⟩, hsame, hrun⟩

theorem Woken.withWaits (h : Woken s t) (waits : List WaitEntry) : Woken { s with waits := waits } { t with waits := waits } := by
  obtain ⟨⟨_, rfl⟩, hsame, hrun⟩ := h
  exact ⟨⟨_, rfl⟩, hsame, hrun⟩

end Wakes

/-- A write at a home of this module changes its bytes, what tags, poison and waits say of them, and wakes contexts. -/
theorem woken_homeWrite {a : Nat} {bs : List Byte} (s : State) (src : Nat) (h : isForeign a = false) (hb : bs ≠ []) :
    ∃ tags poison bufPoison waits,
      Woken { s with mem := memPutBytes s.mem a bs, tags := tags, poison := poison, bufPoison := bufPoison, waits := waits }
        (s.homeWrite src a bs) := by
  have hwrite : ∀ u : State, ∃ waits, Woken { u with waits := waits } (u.wakeCounters a bs.length) := fun u =>
    ⟨_, woken_foldl (fun s e => s.homeWord e.addr) _ _⟩
  unfold State.homeWrite
  rw [if_neg hb, h, if_neg Bool.false_ne_true]
  obtain ⟨waits, hw⟩ := hwrite _
  exact ⟨_, _, _, waits, hw⟩

end Sys2Proof.Machine
end

section
/-!
PROOFS. Versioned words: loads, stores and reclamation at their homes (R176 to R180).
-/

namespace Sys2Proof.Machine

open Sys2Proof.Spec

/-! ## Versions that a home holds (R176) -/

section Home

variable {s : State} {obj a : Nat}

@[simp] theorem verAt_setVer_self (s : State) (a : Nat) (v : VerMeta) : (s.setVer a v).verAt a = v :=
  smGet_smSet_self (⟨0, true, 0⟩ : VerMeta) s.vers a v

theorem verAt_setVer_other (s : State) {a x : Nat} (v : VerMeta) (h : x ≠ a) : (s.setVer a v).verAt x = s.verAt x :=
  smGet_smSet_other (⟨0, true, 0⟩ : VerMeta) s.vers a x v h

/-- A word whose home holds its object's metadata has those of its object. -/
theorem verAt_adopt_self (s : State) (obj a : Nat) : (s.adopt obj a).verAt a = s.verOf obj a := by
  unfold State.adopt State.verOf
  split
  · rfl
  · exact verAt_setVer_self s a _

theorem verAt_adopt_other (s : State) (obj : Nat) {a x : Nat} (h : x ≠ a) : (s.adopt obj a).verAt x = s.verAt x := by
  unfold State.adopt
  split
  · rfl
  · exact verAt_setVer_other s _ h

/-- An adoption changes what the home holds of versions and nothing else. -/
theorem adopt_frame (s : State) (obj a : Nat) :
    s.adopt obj a = { s with vers := (s.adopt obj a).vers, vbuf := (s.adopt obj a).vbuf } := by
  unfold State.adopt
  split <;> rfl

theorem adopt_vbuf (s : State) (obj a : Nat) :
    (s.adopt obj a).vbuf = if (s.verAt a).obj = obj then s.vbuf else s.vbuf.filter fun e => !decide (e.addr = a) := by
  unfold State.adopt
  split <;> rfl

theorem newer_iff (u w : BitVec 32) : newer u w = true ↔ 1 ≤ (u - w).toNat ∧ (u - w).toNat < 2 ^ 31 := by
  rw [newer, Bool.and_eq_true, decide_eq_true_eq, decide_eq_true_eq]

theorem not_newer_self (u : BitVec 32) : ¬newer u u = true := by
  rw [newer_iff, BitVec.sub_self]
  exact fun h => absurd h.1 (by decide)

/-- The value of a word joins its home's version buffer, unless its version was reclaimed (R179). -/
def State.keepVersion (s : State) (obj a : Nat) : State :=
  { s.adopt obj a with
    vbuf := (s.adopt obj a).vbuf ++ if (s.verOf obj a).rcl then [] else [⟨a, (s.verOf obj a).version, s.homeWord a⟩] }

/-- The contexts that wait for a version of a word are woken with its value. -/
def State.wakeVersion (s : State) (a : Nat) (k : BitVec 32) (v : Word) : State :=
  let hit := fun (e : WaitEntry) => e.addr = a && e.what = .version k
  (s.waits.filter hit).foldl (fun s e => s.wakeWith e.tid v) { s with waits := s.waits.filter (!hit ·) }

theorem woken_wakeVersion (s : State) (a : Nat) (k : BitVec 32) (v : Word) :
    ∃ waits, (∀ q ∈ waits, ¬(q.addr = a ∧ q.what = .version k)) ∧ Woken { s with waits := waits } (s.wakeVersion a k v) := by
  refine ⟨_, fun q hq hhit => ?_, woken_foldl (fun _ _ => v) _ _⟩
  have hmiss := (List.mem_filter.1 hq).2
  simp [hhit.1, hhit.2] at hmiss

theorem newVersion_eq (s : State) (obj a : Nat) (v : Word) :
    s.newVersion obj a v =
      (((s.keepVersion obj a).homeWrite 0 a (leBytes 8 v.toNat)).setVer a ⟨(s.verOf obj a).version + 1, false, obj⟩).wakeVersion a
        ((s.verOf obj a).version + 1) v := by
  have hword : (s.adopt obj a).homeWord a = s.homeWord a := by rw [adopt_frame]; rfl
  have hkeep : (if (s.verOf obj a).rcl = true then s.adopt obj a
      else { s.adopt obj a with vbuf := (s.adopt obj a).vbuf ++ [⟨a, (s.verOf obj a).version, s.homeWord a⟩] }) =
      s.keepVersion obj a := by
    unfold State.keepVersion
    cases (s.verOf obj a).rcl <;> simp
  unfold State.newVersion
  dsimp only
  rw [verAt_adopt_self, hword, hkeep]
  rfl

/-- A new version of a word: what its home holds then, but for the contexts that its write and its version wake. -/
theorem woken_newVersion (s : State) (obj : Nat) (v : Word) (h : isForeign a = false) :
    ∃ tags poison bufPoison waits,
      (∀ q ∈ waits, ¬(q.addr = a ∧ q.what = .version ((s.verOf obj a).version + 1))) ∧
      Woken { (s.keepVersion obj a).setVer a ⟨(s.verOf obj a).version + 1, false, obj⟩ with
        mem := memPutBytes s.mem a (leBytes 8 v.toNat), tags := tags, poison := poison, bufPoison := bufPoison, waits := waits }
        (s.newVersion obj a v) := by
  have hb : leBytes 8 v.toNat ≠ [] := fun h0 => absurd ((congrArg List.length h0).symm.trans (length_leBytes 8 _)) (by decide)
  have hmem : (s.keepVersion obj a).mem = s.mem := by rw [State.keepVersion, adopt_frame]
  obtain ⟨tags, poison, bufPoison, waits, hw⟩ := woken_homeWrite (s.keepVersion obj a) 0 h hb
  obtain ⟨waits', hmiss, hw'⟩ := woken_wakeVersion
    (((s.keepVersion obj a).homeWrite 0 a (leBytes 8 v.toNat)).setVer a ⟨(s.verOf obj a).version + 1, false, obj⟩) a
    ((s.verOf obj a).version + 1) v
  rw [newVersion_eq, ← hmem]
  exact ⟨tags, poison, bufPoison, waits', hmiss,
    ((hw.setVer a ⟨(s.verOf obj a).version + 1, false, obj⟩).withWaits waits').trans hw'⟩

end Home

/-! ## What a translation leaves of a home -/

section Located

variable {s s1 : State}

theorem verOf_of_caches (h : Caches s s1) (obj a : Nat) : s1.verOf obj a = s.verOf obj a := by rw [h.1]; rfl
theorem verAt_of_caches (h : Caches s s1) (a : Nat) : s1.verAt a = s.verAt a := by rw [h.1]; rfl
theorem homeWord_of_caches (h : Caches s s1) (a : Nat) : s1.homeWord a = s.homeWord a := by rw [h.1]; rfl
theorem waits_of_caches (h : Caches s s1) : s1.waits = s.waits := by rw [h.1]
theorem waitFull_of_caches (h : Caches s s1) (a : Nat) : s1.waitFull a = s.waitFull a := by rw [h.1]; rfl
theorem bufFull_of_caches (h : Caches s s1) (a : Nat) : s1.bufFull a = s.bufFull a := by rw [h.1]; rfl

theorem adopt_vbuf_of_caches (h : Caches s s1) (obj a : Nat) : (s1.adopt obj a).vbuf = (s.adopt obj a).vbuf := by
  rw [adopt_vbuf, adopt_vbuf, h.1]
  rfl

/-- What a table holds of the other keys is not changed by a write. -/
theorem any_smPut {α : Type} (m : SMap α) (k : Nat) (v : α) (p : Nat × α → Bool) :
    (smPut m k v).any (fun t => t.1 ≠ k && p t) = m.any fun t => t.1 ≠ k && p t := by
  induction m with
  | nil => simp [smPut]
  | cons e l ih =>
    obtain ⟨j, w⟩ := e
    unfold smPut
    split
    · simp
    · split
      case isTrue heq => simp [heq]
      case isFalse => rw [List.any_cons, List.any_cons, ih]

/-- A translation that succeeds replaces at most the executing thread. -/
theorem locate_threads {w : Src} {plain : Bool} {c : Cap} {off n perm addr : Nat} {e : TlbEntry} (hm : NoMoves s)
    (h : locate w plain c off n perm s = .ok (addr, e) s1) :
    s1.threads = s.threads ∨ ∃ x, s1.threads = smPut s.threads s.cur.tid x := by
  obtain ⟨a, s0, ht, hr⟩ := locate_home h
  have h0 : Translated s s0 := by
    have := translate_translated s s.cur.core (capObj c) off perm
    rwa [ht] at this
  have hthreads : s0.threads = s.threads := by rw [show s0 = _ from h0]
  have hcur : s0.cur = s.cur := by rw [show s0 = _ from h0]
  have hn : NoMoves (s0.enterTier e) := by
    unfold State.enterTier
    split <;> exact h0.noMoves hm
  have h1 : s1.threads = (s0.enterTier e).threads := by
    have h2 := reach_translated hn (s0.enterTier e).cur.core a
    rw [hr] at h2
    rw [show s1 = _ from h2]
  rw [h1]
  unfold State.enterTier
  split
  · exact .inr ⟨_, by rw [setTh_threads, hthreads, hcur]⟩
  · exact .inl hthreads

/-- Which STVERs wait before the executing one is not changed by its translation. -/
theorem stverBefore_of_locate {w : Src} {plain : Bool} {c : Cap} {off n perm addr : Nat} {e : TlbEntry} (hm : NoMoves s)
    (h : locate w plain c off n perm s = .ok (addr, e) s1) (a order : Nat) :
    s1.stverBefore s.cur.tid a order = s.stverBefore s.cur.tid a order := by
  unfold State.stverBefore
  obtain hsame | ⟨x, hput⟩ := locate_threads hm h
  · rw [hsame]
  · rw [hput]
    exact any_smPut s.threads s.cur.tid x fun t => t.2.status.stverAt.any fun w => w.1 = a && w.2 < order

end Located

/-! ## Accesses to a versioned word (R176) -/

section Versioned

variable {s s1 : State} {a : MemOp} {need perm addr : Nat} {e : TlbEntry}

/-- An access of a thread without stores to a versioned word passes its checks and its translation. -/
theorem versioned_ok (hck : capCheck (s.th.rc a.base) need (effective s.th a) 8 8 = none)
    (hl : locate (creg a.base) true (s.th.rc a.base) (effective s.th a).toNat 8 perm s = .ok (addr, e) s1)
    (hv : e.ver = true) (hst : s1.th.stores = []) :
    versioned a need perm s = .ok ((effective s.th a).toNat, addr, e) s1 := by
  rw [← memOff_eq_effective] at hck hl ⊢
  refine (bind_ok (getTh_run s)).trans ((bind_ok (checkCap_ok _ _ _ _ _ _ s hck)).trans ((bind_ok hl).trans ?_))
  dsimp only
  rw [hv, Bool.not_true, if_neg Bool.false_ne_true, bind_ok (drainMine_nil hst)]
  rfl

/-- One to a word of an object without versions takes trap 0x07. -/
theorem versioned_unversioned (hck : capCheck (s.th.rc a.base) need (effective s.th a) 8 8 = none)
    (hl : locate (creg a.base) true (s.th.rc a.base) (effective s.th a).toNat 8 perm s = .ok (addr, e) s1)
    (hv : e.ver = false) :
    versioned a need perm s = .error (.trap 0x07 (tvalCap 1 a.base.val (effective s.th a).toNat)) s1 := by
  rw [← memOff_eq_effective] at hck hl ⊢
  refine (bind_ok (getTh_run s)).trans ((bind_ok (checkCap_ok _ _ _ _ _ _ s hck)).trans ((bind_ok hl).trans ?_))
  dsimp only
  rw [hv, Bool.not_false, if_pos rfl]
  rfl

end Versioned

/-! ## What a home answers to a read of a version (R178) -/

section Read

variable {s : State} {a : MemOp} {ea h : Nat} {e : TlbEntry} {want : BitVec 32}

theorem overlay_nil (a : Nat) (bs : List Byte) : overlay [] a bs = bs := by
  induction bs generalizing a with
  | nil => rfl
  | cons b t ih => rw [overlay, ih]; rfl

theorem readVersion_current (hf : isForeign h = false) (hp : s.poisoned h 8 = false) (hst : s.th.stores = [])
    (hw : want = (s.verOf e.obj h).version) : readVersion a ea h e want s = .ok (some (s.homeWord h)) (s.countLoad ea h e) := by
  have hview : s.homeView h 8 = memBytes s.mem h 8 := by rw [State.homeView, hst, overlay_nil]
  unfold readVersion
  rw [bind_ok (get_run s), hf, if_neg Bool.false_ne_true, if_pos hw, bind_ok (readHome_view _ _ _ hf hp), hview]
  rfl

/-- A version that is not there yet. -/
theorem readVersion_ahead (hf : isForeign h = false) (hw : newer want (s.verOf e.obj h).version = true) :
    readVersion a ea h e want s = .ok none s := by
  have hne : ¬want = (s.verOf e.obj h).version := fun he => not_newer_self _ (he ▸ hw)
  unfold readVersion
  rw [bind_ok (get_run s), hf, if_neg Bool.false_ne_true, if_neg hne, if_pos hw]
  rfl

/-- An older version is in the home's buffer or was reclaimed. -/
theorem readVersion_older (hf : isForeign h = false) (hne : want ≠ (s.verOf e.obj h).version)
    (hw : ¬newer want (s.verOf e.obj h).version = true) :
    readVersion a ea h e want s =
      ((s.adopt e.obj h).buffered h want).elim (.error (.trap 0x0B (tvalVersion 0 a.base.val ea)) s) fun v => .ok (some v) s := by
  unfold readVersion
  rw [bind_ok (get_run s), hf, if_neg Bool.false_ne_true, if_neg hne, if_neg hw]
  cases (s.adopt e.obj h).buffered h want <;> rfl

end Read

/-! ## LDVER and LDVERN (R178) -/

section Load

variable {s s1 s2 : State} {d : GReg} {p : PReg} {a : MemOp} {ea h : Nat} {e : TlbEntry} {v : Word}

theorem withdraw_none {tid : Nat} (hw : ∀ q ∈ s.waits, q.tid ≠ tid) : s.withdraw tid = s := by
  unfold State.withdraw
  rw [List.filter_eq_self.2 fun q hq => decide_eq_true (hw q hq)]

theorem ldver_carried (hh : s.th.handler = false) (hc : s.cur.carried = some v) : Loads (.ldver d a) s s (.g d v) := by
  refine loads_of_concluded (s2 := s) (run_ok ((bind_ok (notInHandler_ok hh)).trans ((bind_ok (get_run s)).trans ?_)))
    (caches_refl s) rfl
  rw [hc]
  exact concludes_writeNow (.g d v) concludes_advance s

/-- LDVER as it goes to its home. -/
theorem ldver_reads (hh : s.th.handler = false) (hc : s.cur.carried = none)
    (hv : versioned a (rR + rV) rR s = .ok (ea, h, e) s1) :
    exec (.ldver d a) s = run (do
      match ← readVersion a ea h e ((s.th.rg d).setWidth 32) with
      | some v =>
        modify (·.withdraw s.cur.tid)
        writeNow (.g d v)
        advance
      | none => parkLdver h ((s.th.rg d).setWidth 32)) s1 := by
  refine run_congr ((bind_ok (notInHandler_ok hh)).trans ((bind_ok (get_run s)).trans ?_))
  rw [hc, ← BitVec.ofNat_toNat]
  exact bind_ok hv

theorem ldver_gives {want : BitVec 32} (hi : (s.th.rg d).setWidth 32 = want) (hh : s.th.handler = false)
    (hc : s.cur.carried = none) (hv : versioned a (rR + rV) rR s = .ok (ea, h, e) s1)
    (hr : readVersion a ea h e want s1 = .ok (some v) s2) (hw : s2.withdraw s.cur.tid = s2) :
    exec (.ldver d a) s = .next (s2.concluded [.g d v]) := by
  subst hi
  refine (ldver_reads hh hc hv).trans (run_ok ((bind_ok hr).trans ((bind_ok (modify_run _ s2)).trans ?_)))
  rw [hw]
  exact concludes_writeNow (.g d v) concludes_advance s2

/-- A version still to come enters the wait table, where that has room. -/
theorem ldver_parks {want : BitVec 32} (hi : (s.th.rg d).setWidth 32 = want) (hh : s.th.handler = false)
    (hc : s.cur.carried = none) (hv : versioned a (rR + rV) rR s = .ok (ea, h, e) s1)
    (hr : readVersion a ea h e want s1 = .ok none s1) (hf : isForeign h = false) (hroom : s1.waitFull h = false)
    (hw : s1.withdraw s1.cur.tid = s1) :
    exec (.ldver d a) s =
      .next (({ s1 with waits := s1.waits ++ [⟨h, .version want, s1.cur.tid⟩] } : State).stopped (.park (.ldver h want true))) := by
  subst hi
  refine (ldver_reads hh hc hv).trans (run_error ((bind_ok hr).trans ((bind_ok (modify_run _ s1)).trans ?_)))
  rw [hw, hf, if_neg Bool.false_ne_true, bind_ok (get_run s1), hroom]
  rfl

theorem ldver_stops {x : Stop} {want : BitVec 32} (hi : (s.th.rg d).setWidth 32 = want) (hh : s.th.handler = false)
    (hc : s.cur.carried = none) (hv : versioned a (rR + rV) rR s = .ok (ea, h, e) s1)
    (hr : readVersion a ea h e want s1 = .error x s2) : exec (.ldver d a) s = .next (s2.stopped x) := by
  subst hi
  exact (ldver_reads hh hc hv).trans (run_error (bind_error hr))

theorem ldver_refused {x : Stop} (hh : s.th.handler = false) (hc : s.cur.carried = none)
    (hv : versioned a (rR + rV) rR s = .error x s1) : exec (.ldver d a) s = .next (s1.stopped x) := by
  refine run_error ((bind_ok (notInHandler_ok hh)).trans ((bind_ok (get_run s)).trans ?_))
  rw [hc]
  exact bind_error hv

/-- LDVERN as it goes to its home. -/
theorem ldvern_reads (hv : versioned a (rR + rV) rR s = .ok (ea, h, e) s1) :
    exec (.ldvern p d a) s = run (do
      match ← readVersion a ea h e ((s.th.rg d).setWidth 32) with
      | some v =>
        writeNow (.g d v)
        writeNow (.p p true)
        advance
      | none =>
        writeNow (.p p false)
        advance) s1 := by
  refine run_congr ((bind_ok (getTh_run s)).trans ?_)
  rw [← BitVec.ofNat_toNat]
  exact bind_ok hv

theorem ldvern_gives {want : BitVec 32} (hi : (s.th.rg d).setWidth 32 = want)
    (hv : versioned a (rR + rV) rR s = .ok (ea, h, e) s1) (hr : readVersion a ea h e want s1 = .ok (some v) s2) :
    exec (.ldvern p d a) s = .next (s2.concluded [.g d v, .p p true]) := by
  subst hi
  exact (ldvern_reads hv).trans (run_ok ((bind_ok hr).trans
    (concludes_writeNow (.g d v) (concludes_writeNow (.p p true) concludes_advance) s2)))

theorem ldvern_ahead {want : BitVec 32} (hi : (s.th.rg d).setWidth 32 = want)
    (hv : versioned a (rR + rV) rR s = .ok (ea, h, e) s1) (hr : readVersion a ea h e want s1 = .ok none s2) :
    exec (.ldvern p d a) s = .next (s2.concluded [.p p false]) := by
  subst hi
  exact (ldvern_reads hv).trans (run_ok ((bind_ok hr).trans (concludes_writeNow (.p p false) concludes_advance s2)))

theorem ldvern_stops {x : Stop} {want : BitVec 32} (hi : (s.th.rg d).setWidth 32 = want)
    (hv : versioned a (rR + rV) rR s = .ok (ea, h, e) s1) (hr : readVersion a ea h e want s1 = .error x s2) :
    exec (.ldvern p d a) s = .next (s2.stopped x) := by
  subst hi
  exact (ldvern_reads hv).trans (run_error (bind_error hr))

end Load

theorem versionedLoads : VersionedLoads := by
  intro s s1 p d a addr e c ea want cur kept ahead tv
  refine ⟨fun hh => run_error (bind_error (notInHandler_trap hh)), fun hh v hc => ldver_carried hh hc,
    fun hm hst hh hcar hwaits hck hl hf hp => ?_⟩
  obtain ⟨hc, hth⟩ := locate_caches hm hl
  obtain ⟨hc2, hth2⟩ := countLoad_caches s1 ea.toNat addr e
  have hst1 : s1.th.stores = [] := by
    rw [hth]
    exact hst
  have hver : (s1.verOf e.obj addr).version = cur := congrArg VerMeta.version (verOf_of_caches hc e.obj addr)
  have hstay : ∀ {t : State}, Caches s t → t.withdraw s.cur.tid = t := fun h => withdraw_none (waits_of_caches h ▸ hwaits)
  have hahead : newer want cur = true ↔ ahead := newer_iff want cur
  have hv : e.ver = true → versioned a (rR + rV) rR s = .ok (ea.toNat, addr, e) s1 := fun h => versioned_ok hck hl h hst1
  have holder : want ≠ cur → ¬ahead → readVersion a ea.toNat addr e want s1 =
      (((s.adopt e.obj addr).vbuf.find? kept).map (·.value)).elim
        (.error (.trap 0x0B (tvalVersion 0 a.base.val ea.toNat)) s1) fun v => .ok (some v) s1 := by
    intro hne hno
    rw [readVersion_older hf (hver ▸ hne) (by rw [hver, hahead]; exact hno), State.buffered, adopt_vbuf_of_caches hc]
  refine ⟨fun h => ldver_refused hh hcar (versioned_unversioned hck hl h), fun h hw => ?_, fun h hne hno b hb => ?_,
    fun h hne hno hb => ?_, fun h hw => ?_, fun h hw hroom => ?_⟩
  · have hr := readVersion_current (a := a) (ea := ea.toNat) (e := e) hf hp hst1 (hw.trans hver.symm)
    rw [homeWord_of_caches hc] at hr
    have hcl := caches_trans hc hc2
    exact ⟨loads_of_concluded (ldver_gives rfl hh hcar (hv h) hr (hstay hcl)) hcl hth2,
      reads_of_concluded (ldvern_gives rfl (hv h) hr) hcl hth2⟩
  · have hr := holder hne hno
    rw [hb] at hr
    exact ⟨loads_of_concluded (ldver_gives rfl hh hcar (hv h) hr (hstay hc)) hc rfl,
      reads_of_concluded (ldvern_gives rfl (hv h) hr) hc rfl⟩
  · have hr := holder hne hno
    rw [hb] at hr
    exact ⟨ldver_stops rfl hh hcar (hv h) hr, ldvern_stops rfl (hv h) hr⟩
  · have hr := readVersion_ahead (a := a) (ea := ea.toNat) (e := e) hf (hver.symm ▸ hahead.2 hw)
    exact loads_of_concluded (ldvern_ahead rfl (hv h) hr) hc rfl
  · have hr := readVersion_ahead (a := a) (ea := ea.toNat) (e := e) hf (hver.symm ▸ hahead.2 hw)
    have hcur := cur_of_caches hc
    have hexec := ldver_parks rfl hh hcar (hv h) hr hf ((waitFull_of_caches hc addr).trans hroom) (hcur.symm ▸ hstay hc)
    obtain ⟨t, q, ht, hws, hmem, hwhy, hbundle, hpark⟩ := parks_after hexec hcur
    refine ⟨t, q, ht, ?_, hmem.trans (show s1.mem = s.mem from mem_of_caches hc), hwhy, hbundle, hpark⟩
    rw [hws, hcur, waits_of_caches hc]

/-! ## STVER (R177, R179) -/

section Store

variable {s s1 : State} {r : GReg} {a : MemOp} {ea h : Nat} {e : TlbEntry}

/-- The version of a word before the last one has no room to stay in its home's buffer (R179). -/
def Crowded (s : State) (obj a : Nat) : Prop := (s.verOf obj a).rcl = false ∧ s.bufFull a = true

theorem crowded_iff (s : State) (obj a : Nat) : (!(s.verOf obj a).rcl && s.bufFull a) = true ↔ Crowded s obj a := by
  rw [Bool.and_eq_true, Bool.not_eq_true']
  rfl

/-- An STVER has reached the word before the executing one and still waits (R177, log 75). -/
def State.overtaken (s : State) (a : Nat) : Bool := s.stverBefore s.cur.tid a (s.cur.since.getD s.serial)

/-- STVER at its home, in this module. -/
theorem stver_here (hv : versioned a (rW + rV) rW s = .ok (ea, h, e) s1) (hf : isForeign h = false) :
    exec (.stver r a) s = run
      (if !(s1.verOf e.obj h).rcl && s1.bufFull h then parkOr (.stver h)
      else if s1.overtaken h then
        if s.th.handler then stop .wait else stop (.park (.stver h))
      else do
        set (s1.newVersion e.obj h (s.th.rg r))
        advance) s1 := by
  refine run_congr ((bind_ok (getTh_run s)).trans ((bind_ok hv).trans ((bind_ok (get_run s1)).trans ?_)))
  rw [hf, if_neg Bool.false_ne_true]
  rfl

theorem stver_applies (hv : versioned a (rW + rV) rW s = .ok (ea, h, e) s1) (hf : isForeign h = false)
    (hroom : ¬Crowded s1 e.obj h) (hfirst : s1.overtaken h = false) :
    exec (.stver r a) s = .next ((s1.newVersion e.obj h (s.th.rg r)).concluded []) := by
  rw [stver_here hv hf, if_neg fun hc => hroom ((crowded_iff s1 e.obj h).1 hc), hfirst, if_neg Bool.false_ne_true]
  rfl

theorem stver_traps (hv : versioned a (rW + rV) rW s = .ok (ea, h, e) s1) (hf : isForeign h = false) (hfull : Crowded s1 e.obj h)
    (hh : s1.th.handler = true) :
    exec (.stver r a) s = .next (s1.stopped (.trap 0x0A (BitVec.ofNat 64 s1.cur.base.toNat))) := by
  rw [stver_here hv hf, if_pos ((crowded_iff s1 e.obj h).2 hfull)]
  exact run_error (parkOr_traps _ s1 hh)

theorem stver_waits (hv : versioned a (rW + rV) rW s = .ok (ea, h, e) s1) (hf : isForeign h = false)
    (hroom : ¬Crowded s1 e.obj h) (hlater : s1.overtaken h = true) (hh : s.th.handler = true) : exec (.stver r a) s = .next s1 := by
  rw [stver_here hv hf, if_neg fun hc => hroom ((crowded_iff s1 e.obj h).1 hc), if_pos hlater, hh, if_pos rfl]
  rfl

theorem stver_parks (hv : versioned a (rW + rV) rW s = .ok (ea, h, e) s1) (hf : isForeign h = false)
    (hwait : Crowded s1 e.obj h ∨ s1.overtaken h = true) (hh : s.th.handler = false) (hh1 : s1.th.handler = false) :
    exec (.stver r a) s = .next (s1.stopped (.park (.stver h))) := by
  rw [stver_here hv hf]
  by_cases hfull : Crowded s1 e.obj h
  · rw [if_pos ((crowded_iff s1 e.obj h).2 hfull)]
    exact run_error (parkOr_parks _ s1 hh1)
  · rw [if_neg fun hc => hfull ((crowded_iff s1 e.obj h).1 hc), if_pos (hwait.resolve_left hfull), hh, if_neg Bool.false_ne_true]
    rfl

theorem stver_refused {x : Stop} (hv : versioned a (rW + rV) rW s = .error x s1) :
    exec (.stver r a) s = .next (s1.stopped x) :=
  run_error ((bind_ok (getTh_run s)).trans (bind_error hv))

end Store

/-! ## RECLAIM (R180) -/

section Reclaim

variable {s s1 : State} {r : GReg} {a : MemOp} {ea h : Nat} {e : TlbEntry}

theorem reclaim_applies (hv : versioned a (rW + rV) rW s = .ok (ea, h, e) s1) (hf : isForeign h = false) :
    exec (.reclaim r a) s = .next ((s1.reclaim e.obj h ((s.th.rg r).setWidth 32)).concluded []) := by
  refine run_ok ((bind_ok (getTh_run s)).trans ((bind_ok hv).trans ((bind_ok (modify_run _ s1)).trans ?_)))
  rw [hf, if_neg Bool.false_ne_true, BitVec.ofNat_toNat]
  exact concludes_advance _

/-- The buffered versions of a word up to one are dropped. -/
def State.dropVersions (s : State) (obj a : Nat) (v : BitVec 32) : State :=
  { s.adopt obj a with
    vbuf := (s.adopt obj a).vbuf.filter fun q => decide ¬(q.addr = a ∧ (q.version = v ∨ newer v q.version = true)) }

theorem reclaim_eq (s : State) (obj a : Nat) (v : BitVec 32) :
    s.reclaim obj a v =
      if v = (s.verOf obj a).version ∨ newer v (s.verOf obj a).version = true then
        (s.dropVersions obj a v).setVer a { s.verOf obj a with rcl := true }
      else s.dropVersions obj a v := by
  have hdrop : (fun q : VerEntry => !(decide (q.addr = a) && (decide (q.version = v) || newer v q.version))) =
      fun q => decide ¬(q.addr = a ∧ (q.version = v ∨ newer v q.version = true)) := by
    funext q
    simp
  unfold State.reclaim State.dropVersions
  dsimp only
  rw [verAt_adopt_self, hdrop]
  by_cases hv : v = (s.verOf obj a).version ∨ newer v (s.verOf obj a).version = true
  · rw [if_pos hv, if_pos (by rwa [Bool.or_eq_true, decide_eq_true_eq])]
  · rw [if_neg hv, if_neg (by rwa [Bool.or_eq_true, decide_eq_true_eq])]

/-- A reclamation changes what the home holds of versions and nothing else. -/
theorem reclaim_frame (s : State) (obj a : Nat) (v : BitVec 32) :
    s.reclaim obj a v = { s with vers := (s.reclaim obj a v).vers, vbuf := (s.reclaim obj a v).vbuf } := by
  have hdrop : s.dropVersions obj a v =
      { s with vers := (s.dropVersions obj a v).vers, vbuf := (s.dropVersions obj a v).vbuf } := by
    unfold State.dropVersions
    rw [adopt_frame]
  rw [reclaim_eq]
  split
  · conv_lhs => rw [hdrop]
    rfl
  · exact hdrop

theorem reclaim_vbuf (s : State) (obj a : Nat) (v : BitVec 32) :
    (s.reclaim obj a v).vbuf =
      (s.adopt obj a).vbuf.filter fun q => decide ¬(q.addr = a ∧ (q.version = v ∨ newer v q.version = true)) := by
  rw [reclaim_eq]
  split <;> rfl

theorem reclaim_verAt_self (s : State) (obj a : Nat) (v : BitVec 32) :
    (s.reclaim obj a v).verAt a =
      if v = (s.verOf obj a).version ∨ newer v (s.verOf obj a).version = true then { s.verOf obj a with rcl := true }
      else s.verOf obj a := by
  rw [reclaim_eq]
  split
  · exact verAt_setVer_self _ a _
  · exact verAt_adopt_self s obj a

theorem reclaim_verAt_other (s : State) (obj : Nat) {a x : Nat} (v : BitVec 32) (hx : x ≠ a) :
    (s.reclaim obj a v).verAt x = s.verAt x := by
  rw [reclaim_eq]
  split
  · exact (verAt_setVer_other _ _ hx).trans (verAt_adopt_other s obj hx)
  · exact verAt_adopt_other s obj hx

end Reclaim

/-! ## The statement -/

section Changes

variable {s s1 t : State}

/-- Memory, the waits, the versions and the contexts may have changed. -/
def HomeChange (s t : State) : Prop :=
  ∃ mem tags poison bufPoison vers vbuf waits threads, t = { s with
    mem := mem, tags := tags, poison := poison, bufPoison := bufPoison, vers := vers, vbuf := vbuf, waits := waits
    threads := threads }

theorem homeChange_concluded (h : HomeChange s t) (ws : List RegWrite) : HomeChange s (t.concluded ws) := by
  obtain ⟨_, _, _, _, _, _, _, _, rfl⟩ := h
  exact ⟨_, _, _, _, _, _, _, _, rfl⟩

theorem cur_of_homeChange (h : HomeChange s t) : t.cur = s.cur := by
  obtain ⟨_, _, _, _, _, _, _, _, rfl⟩ := h
  rfl

/-- A bundle that changes a home after its translation, and goes on. -/
theorem writes_concluded (hc : Caches s s1) (ht : HomeChange s1 t) (hsame : SameButStatus s1 t) : Writes s (t.concluded []) := by
  have hcur : t.cur = s.cur := (cur_of_homeChange ht).trans (cur_of_caches hc)
  refine ⟨?_, fun k hk => ?_⟩
  · obtain ⟨_, _, _, _, _, _, _, _, heq⟩ := homeChange_concluded ht []
    rw [heq]
    conv_lhs => rw [hc.1]
  · rw [State.concluded, thread_setTh_other t k _ (by rwa [hcur]), hsame k, hc.2 k hk]

/-- What a new version leaves at its home and of the threads. -/
theorem newVersion_spec (s : State) (obj : Nat) {a : Nat} (v : Word) (h : isForeign a = false) :
    let t := s.newVersion obj a v
    let old := s.verOf obj a
    HomeChange s t ∧ SameButStatus s t ∧ (∀ k, (s.thread k).status = .running → t.thread k = s.thread k) ∧
      t.mem = memPutBytes s.mem a (leBytes 8 v.toNat) ∧ t.verAt a = ⟨old.version + 1, false, obj⟩ ∧
      (∀ x, x ≠ a → t.verAt x = s.verAt x) ∧
      t.vbuf = (s.adopt obj a).vbuf ++ (if old.rcl then [] else [⟨a, old.version, s.homeWord a⟩]) ∧
      ∀ q ∈ t.waits, ¬(q.addr = a ∧ q.what = .version (old.version + 1)) := by
  intro t old
  obtain ⟨_, _, _, _, hmiss, ⟨⟨_, heq⟩, hsame, hkept⟩⟩ := woken_newVersion s obj v h
  have hthreads : (s.keepVersion obj a).threads = s.threads := by rw [State.keepVersion, adopt_frame]
  have hthread : ∀ k, (s.keepVersion obj a).thread k = s.thread k := fun k => by rw [State.thread, hthreads]; rfl
  refine ⟨?_, (sameButStatus_of_threads hthreads).trans hsame, fun k hk => (hkept k ((hthread k).symm ▸ hk)).trans (hthread k), ?_⟩
  · rw [show t = _ from heq, State.keepVersion, adopt_frame]
    exact ⟨_, _, _, _, _, _, _, _, rfl⟩
  · rw [show t = _ from heq]
    exact ⟨rfl, verAt_setVer_self (s.keepVersion obj a) a _,
      fun x hx => (verAt_setVer_other (s.keepVersion obj a) _ hx).trans (verAt_adopt_other s obj hx), rfl, hmiss⟩

theorem homeChange_reclaim (obj a : Nat) (v : BitVec 32) : HomeChange s (s.reclaim obj a v) := by
  rw [reclaim_frame]
  exact ⟨_, _, _, _, _, _, _, _, rfl⟩

theorem stored_of_mem {addr : Nat} {bytes : List Byte} (h : t.mem = memPutBytes s.mem addr bytes) : Stored s t addr bytes := by
  refine ⟨fun k hk => ?_, fun x hx => ?_⟩
  · rw [h, memByte_memPutBytes_inside bytes s.mem addr k hk, List.getD_eq_getElem _ _ hk]
  · rw [h, memByte_memPutBytes_outside bytes s.mem addr x hx]

end Changes

theorem versionedStores : VersionedStores := by
  intro s s1 r a addr e c ea old v later hm hrun hst hck hl hf
  obtain ⟨hc, hth⟩ := locate_caches hm hl
  have hcur := cur_of_caches hc
  have hst1 : s1.th.stores = [] := by
    rw [hth]
    exact hst
  have hrun1 : s1.th.status = .running := by
    rw [hth]
    exact hrun
  have hhandler : s1.th.handler = s.th.handler := by
    rw [hth]
    rfl
  have hold : s1.verOf e.obj addr = old := verOf_of_caches hc e.obj addr
  have hcrowded : Crowded s1 e.obj addr ↔ old.rcl = false ∧ s.bufFull addr = true := by
    rw [Crowded, hold, bufFull_of_caches hc]
  have hroom : old.rcl = true ∨ s.bufFull addr = false → ¬Crowded s1 e.obj addr := by
    rw [hcrowded]
    rintro h ⟨hrcl, hfull⟩
    simp [hrcl, hfull] at h
  have hlater : s1.overtaken addr = later := by
    have hserial : s1.serial = s.serial := by rw [hc.1]
    rw [State.overtaken, hcur, hserial]
    exact stverBefore_of_locate hm hl addr _
  have hv : e.ver = true → versioned a (rW + rV) rW s = .ok (ea.toNat, addr, e) s1 := fun h => versioned_ok hck hl h hst1
  refine ⟨fun h => stver_refused (versioned_unversioned hck hl h), fun h hfree hfirst => ?_, fun h hrcl hfull hh => ?_,
    fun h hfree hwait hh => stver_waits (hv h) hf (hroom hfree) (hlater.trans hwait) hh, fun h hwait hh => ?_, fun h => ?_⟩
  · obtain ⟨hchange, hsame, hkept, hmem, hself, hother, hbuf, hmiss⟩ := newVersion_spec s1 e.obj (s.th.rg r) hf
    rw [hold] at hself hbuf hmiss
    rw [homeWord_of_caches hc, adopt_vbuf_of_caches hc] at hbuf
    rw [mem_of_caches hc, leBytes_eq_byteOf] at hmem
    have hth1 : (s1.newVersion e.obj addr (s.th.rg r)).th = s1.th := by
      rw [State.th, cur_of_homeChange hchange]
      exact hkept s1.cur.tid hrun1
    exact ⟨_, stver_applies (hv h) hf (hroom hfree) (hlater.trans hfirst), writes_concluded hc hchange hsame,
      precise_concluded ((cur_of_homeChange hchange).trans hcur) hth1 [], stored_of_mem hmem, hself,
      fun x hx => (hother x hx).trans (verAt_of_caches hc x), hbuf, hmiss⟩
  · rw [stver_traps (hv h) hf (hcrowded.2 ⟨hrcl, hfull⟩) (hhandler.trans hh), hcur]
  · have hwait1 : Crowded s1 e.obj addr ∨ s1.overtaken addr = true := by rwa [hcrowded, hlater]
    obtain ⟨t, q, ht, -, hmem, hwhy, hbundle, hpark⟩ := parks_after (stver_parks (hv h) hf hwait1 hh (hhandler.trans hh)) hcur
    exact ⟨t, q, ht, hmem.trans (mem_of_caches hc), hwhy, hbundle, hpark⟩
  · have hchange := homeChange_reclaim (s := s1) e.obj addr v
    have hthreads : (s1.reclaim e.obj addr v).threads = s1.threads := by rw [reclaim_frame]
    have hmem : (s1.reclaim e.obj addr v).mem = s1.mem := by rw [reclaim_frame]
    have hself := reclaim_verAt_self s1 e.obj addr v
    have hbuf := reclaim_vbuf s1 e.obj addr v
    rw [hold] at hself
    rw [adopt_vbuf_of_caches hc] at hbuf
    exact ⟨_, reclaim_applies (hv h) hf, writes_concluded hc hchange (sameButStatus_of_threads hthreads),
      precise_concluded ((cur_of_homeChange hchange).trans hcur) (by rw [reclaim_frame]; rfl) [],
      hmem.trans (mem_of_caches hc), hbuf, hself, fun x hx => (reclaim_verAt_other s1 e.obj v hx).trans (verAt_of_caches hc x)⟩

/-- Settles O35: a versioned access meets its home after its checks and its translation, which leave the versions as they are; there it
reads, writes, waits or reclaims by the version that the word has. -/
theorem versionedWords : Obligations.VersionedWords := ⟨versionedLoads, versionedStores⟩

end Sys2Proof.Machine
end
